-- ==== Sys2Proof/Word.lean ====
section
/-! DEFINITION. The bit vectors of the part: bytes of the link and of cells, 16-bit and 32-bit
fields, and the 32-bit counters, which wrap (10 R182, 01 R8). -/

namespace Sys2Proof

/-- One byte of a frame or of a cell. -/
abbrev Byte := BitVec 8

/-- A two-byte field of a request body. -/
abbrev Half := BitVec 16

/-- A four-byte field, and every counter the spec says counts modulo 2^32. -/
abbrev Word := BitVec 32

/-- A control word, wrapped (10 R192: 16 bytes) or opened (the opened width is the model's: log 13). -/
abbrev KeyWord := BitVec 128

/-- The hand-over number of the retained store, modulo 2^64 (09 R178). -/
abbrev StoreNumber := BitVec 64

end Sys2Proof
end

