-- ==== Sys2Proof/Config.lean ====
section
/-! DEFINITION. What is fixed in one part at manufacture and not given by the manual, and the free
values: opaque constants, so that no proof can use a value of theirs (log 13, 14, 15, 16). -/

namespace Sys2Proof.Config

/-- The box address, fixed at manufacture (00 section 2, 04 R78). -/
opaque boxAddress : Word

/-- Opening a wrapped control word with the device key: a fixed function of the part whose result is
OPENED with a control word, or REFUSED (03 R65). -/
opaque openWord : KeyWord → Option KeyWord

/-- Whether the authenticator of an ENTITLEMENT record, given by the record's bytes, verifies with the
device key (04 R78). -/
opaque authentic : List Byte → Bool

/-- The fixed descrambling transform: control word and scrambled payload to clear payload (03 R70). -/
opaque descramble : KeyWord → List Byte → List Byte

/-- FREE VALUE (09 R178): whether the write that a power failure interrupts left the new contents.
The argument is the count of free values drawn. -/
opaque powerLossKeepsNew : Nat → Bool

/-- FREE VALUE (05 R112): the guide place, if any, one of whose bits is disturbed in a millisecond. -/
opaque guideDisturbance : Nat → Option Nat

/-- FREE VALUE (09 R179): the retained unit, if any, whose check is spoilt in a millisecond, numbered
as `UnitId.number` numbers them. -/
opaque storeDecay : Nat → Option Nat

/-- FREE VALUE (04 R87): whether the device key, sound or not before, is found sound from this
millisecond on. -/
opaque keySound : Nat → Bool → Bool

end Sys2Proof.Config
end

