-- ==== Sys2Proof/Syntax.lean ====
section
/-! DEFINITION. The commands of the part: one constructor per row of spec/opcode_table.json. A request
carries the tag of its frame and the fields of its body as the host sent them (10 R182, R184); an event
carries what the chapters say it carries. -/

namespace Sys2Proof

/-- Four PIN digits, one byte each (10 R182). -/
structure Pin where
  d0 : Byte
  d1 : Byte
  d2 : Byte
  d3 : Byte
deriving DecidableEq, Repr

/-- One component of SERVICE_PUT: its kind and its tag (01 R1). -/
structure CompReq where
  kind : Byte
  tag : Half
deriving DecidableEq, Repr

/-- The body of SERVICE_PUT (01 section 1.1). The component count is the length of the list. -/
structure ServiceReq where
  channel : Half
  sid : Half
  carrier : Byte
  access : Byte
  rating : Byte
  comps : List CompReq
deriving DecidableEq, Repr

/-- The body of CARRIER_PUT (02 section 2.1). -/
structure CarrierReq where
  index : Byte
  freq : Word
  cls : Byte
  guide : Byte
  home : Byte
deriving DecidableEq, Repr

/-- The body of QUALITY_CLASS_SET (02 section 2.3). -/
structure ClassReq where
  cls : Byte
  n : Byte
  tl : Half
  th : Half
  h : Byte
  k : Byte
  initial : Byte
deriving DecidableEq, Repr

/-- The body of GUIDE_PUT (05 section 5.2). -/
structure GuideReq where
  sid : Half
  eid : Word
  version : Byte
  start : Word
  duration : Half
  rating : Byte
  pricePresent : Byte
  price : Half
  purchasable : Byte
  prorate : Byte
  preview : Byte
  title : Word
deriving DecidableEq, Repr

/-- One viewing window of PROFILE_PUT (06 section 6.8). -/
structure WindowReq where
  mask : Byte
  start : Half
  stop : Half
deriving DecidableEq, Repr

/-- The body of PROFILE_PUT (06 section 6.8). The window count is the length of the list. -/
structure ProfileReq where
  profile : Byte
  masterPin : Pin
  inUse : Byte
  newPin : Pin
  pinToSelect : Byte
  buyNeedsPin : Byte
  ceiling : Byte
  windowMode : Byte
  windows : List WindowReq
  allowancePresent : Byte
  allowance : Word
  capPresent : Byte
  cap : Half
deriving DecidableEq, Repr

/-- The body of CELL_PUT (07 section 7.5). -/
structure CellReq where
  cell : Byte
  bound : Byte
  in0 : Byte
  in1 : Byte
  in2 : Byte
  truth : Vector Byte 8
  linkPresent : Byte
  link : Byte
  edge : Byte
deriving DecidableEq, Repr

/-- The trigger of SCHEDULE_PUT (08 section 8.5): the three kinds and a kind out of its range. -/
inductive TrigReq where
  | atTime (t : Word)
  | atEvent (sid : Half) (eid : Word) (lead : Half)
  | auxRise (cell : Byte)
  | other (kind : Byte)
deriving DecidableEq, Repr

/-- The action of SCHEDULE_PUT (08 section 8.5): the four kinds and a kind out of its range. The end
field of RECORD is four bytes under AT_TIME and two bytes otherwise. -/
inductive ActReq where
  | record (slot : Byte) (sid : Half) (recEnd : Word)
  | viewTune (slot : Byte) (sid : Half)
  | remind
  | wake
  | other (kind : Byte)
deriving DecidableEq, Repr

/-- The commands. `tag` is the frame's tag byte of a request, echoed in its reply (10 R184). -/
inductive Instr where
  /-- POWER_ON (R171) -/
  | powerOn
  /-- POWER_LOSS (R178) -/
  | powerLoss
  /-- BOOT_END (R171) -/
  | bootEnd
  /-- ENTER_BOOT (R173) -/
  | enterBoot
  /-- IDENTIFY (R191) -/
  | identify (tag : Byte)
  /-- MODE_SET (R172) -/
  | modeSet (tag : Byte) (mode : Byte)
  /-- RESTART (R173) -/
  | restart (tag : Byte)
  /-- TIME_SET (R175) -/
  | timeSet (tag : Byte) (utc : Word) (offset : Half)
  /-- CLOCK_READ (R175) -/
  | clockRead (tag : Byte)
  /-- FAULT_READ (R181) -/
  | faultRead (tag : Byte)
  /-- FAULT_CLEAR (R181) -/
  | faultClear (tag : Byte) (names : Half)
  /-- SERVICE_PUT (R2) -/
  | servicePut (tag : Byte) (r : ServiceReq)
  /-- SERVICE_DROP (R4) -/
  | serviceDrop (tag : Byte) (sel : Byte) (num : Half)
  /-- SERVICE_READ (R5) -/
  | serviceRead (tag : Byte) (sel : Byte) (num : Half)
  /-- TUNE (R9) -/
  | tune (tag : Byte) (slot : Byte) (sel : Byte) (num : Half) (force : Byte)
  /-- STOP (R24) -/
  | stop (tag : Byte) (slot : Byte) (force : Byte)
  /-- SLOT_STATUS (R28) -/
  | slotStatus (tag : Byte) (slot : Byte)
  /-- CARRIER_PUT (R32) -/
  | carrierPut (tag : Byte) (r : CarrierReq)
  /-- CARRIER_DROP (R33) -/
  | carrierDrop (tag : Byte) (index : Byte)
  /-- CARRIER_READ (R34) -/
  | carrierRead (tag : Byte) (index : Byte)
  /-- QUALITY_CLASS_SET (R40) -/
  | qualityClassSet (tag : Byte) (r : ClassReq)
  /-- QUALITY_CLASS_READ (R40) -/
  | qualityClassRead (tag : Byte) (cls : Byte)
  /-- LANE_ENABLE (R45) -/
  | laneEnable (tag : Byte) (lane : Byte) (on : Byte)
  /-- LANE_STATUS (R46) -/
  | laneStatus (tag : Byte) (lane : Byte)
  /-- ARBITER_READ (R55) -/
  | arbiterRead (tag : Byte)
  /-- FILTER_READ (R60) -/
  | filterRead (tag : Byte) (lane : Byte)
  /-- KEY_STATUS (R73) -/
  | keyStatus (tag : Byte) (slot : Byte)
  /-- BUY (R93) -/
  | buy (tag : Byte) (profile : Byte) (pin : Pin) (slot : Byte) (sid : Half) (eid : Word)
  /-- QUOTE (R96) -/
  | quote (tag : Byte) (profile : Byte) (sid : Half) (eid : Word)
  /-- PURCHASES_READ (R98) -/
  | purchasesRead (tag : Byte) (fromSeq : Word) (count : Byte)
  /-- ACCESS_STATUS (R99) -/
  | accessStatus (tag : Byte)
  /-- TIER_READ (R100) -/
  | tierRead (tag : Byte)
  /-- GRANT_READ (R100) -/
  | grantRead (tag : Byte)
  /-- GUIDE_PUT (R110) -/
  | guidePut (tag : Byte) (r : GuideReq)
  /-- GUIDE_DROP (R111) -/
  | guideDrop (tag : Byte) (sid : Half) (eid : Word)
  /-- GUIDE_LIST (R122) -/
  | guideList (tag : Byte) (sid : Half) (fromTime : Word) (count : Byte)
  /-- GUIDE_NOW (R123) -/
  | guideNow (tag : Byte) (sid : Half)
  /-- GUIDE_STATUS (R124) -/
  | guideStatus (tag : Byte)
  /-- SWEEP_SET (R120) -/
  | sweepSet (tag : Byte) (on : Byte) (mode : Byte) (dwell : Half)
  /-- SWEEP_STEP (R121) -/
  | sweepStep (tag : Byte)
  /-- UNLOCK (R137) -/
  | unlock (tag : Byte) (slot : Byte) (pin : Pin) (minutes : Byte)
  /-- RELOCK (R139) -/
  | relock (tag : Byte) (slot : Byte)
  /-- PROFILE_SELECT (R140) -/
  | profileSelect (tag : Byte) (slot : Byte) (profile : Byte) (pin : Pin)
  /-- PROFILE_PUT (R141) -/
  | profilePut (tag : Byte) (r : ProfileReq)
  /-- ALLOWANCE_GRANT (R142) -/
  | allowanceGrant (tag : Byte) (profile : Byte) (seconds : Word) (pin : Pin)
  /-- HOUSEHOLD_SET (R143) -/
  | householdSet (tag : Byte) (pin : Pin) (hour : Byte) (d0 : Byte) (d1 : Byte) (d2 : Byte)
  /-- PROFILE_READ (R144) -/
  | profileRead (tag : Byte) (profile : Byte)
  /-- HOUSEHOLD_READ (R144) -/
  | householdRead (tag : Byte)
  /-- CELL_PUT (R156) -/
  | cellPut (tag : Byte) (r : CellReq)
  /-- CELL_ENABLE (R157) -/
  | cellEnable (tag : Byte) (cell : Byte) (on : Byte) (pin : Pin)
  /-- CELL_READ (R158) -/
  | cellRead (tag : Byte) (cell : Byte)
  /-- SCHEDULE_PUT (R167) -/
  | schedulePut (tag : Byte) (entry : Byte) (trig : TrigReq) (act : ActReq)
  /-- SCHEDULE_DROP (R168) -/
  | scheduleDrop (tag : Byte) (entry : Byte)
  /-- SCHEDULE_READ (R169) -/
  | scheduleRead (tag : Byte) (entry : Byte)
  /-- NOTICE_MASK_SET (R189) -/
  | noticeMaskSet (tag : Byte) (mask : Half)
  /-- NOTICE_FLAGS_READ (R190) -/
  | noticeFlagsRead (tag : Byte) (clear : Half)
  /-- UNKNOWN_KIND (R184): a good frame whose kind names no request -/
  | unknownKind (tag : Byte) (kind : Byte)
  /-- LINK_FRAME (R183): a frame error -/
  | linkFrame
  /-- INTER_BYTE_TIMEOUT (R183) -/
  | interByteTimeout
  /-- TRANSMIT_FRAME_END (R187) -/
  | transmitFrameEnd
  /-- LOCK (R37): the front end of a lane locked under the numbered tune order -/
  | lock (lane : Fin 3) (order : Byte)
  /-- LANE_UNLOCK (R37) -/
  | laneUnlock (lane : Fin 3)
  /-- SAMPLE (R41): a block-error count 0–4,095 -/
  | sample (lane : Fin 3) (errors : BitVec 12)
  /-- CELL (R58): the 128 bytes of a cell as it arrives -/
  | cell (lane : Fin 3) (bytes : List Byte)
  /-- SEEK_FAILED (R38): expiry of a lane's seek timer -/
  | seekFailed (lane : Fin 3)
  /-- SILENCE_TIMER_EXPIRY (R44) -/
  | silenceTimerExpiry (lane : Fin 3)
  /-- KEY_TIMEOUT (R16): expiry of a slot's key timer -/
  | keyTimeout (slot : Fin 5)
  /-- HOME_RETRY_EXPIRY (R54) -/
  | homeRetryExpiry
  /-- SWEEP_TIMER_EXPIRY (R119) -/
  | sweepTimerExpiry
  /-- SCHEDULE_RETRY_EXPIRY (R164) -/
  | scheduleRetryExpiry (entry : Fin 24)
  /-- PATROL_VISIT (R116) -/
  | patrolVisit
  /-- SCRUB_REWRITE (R113) -/
  | scrubRewrite
  /-- STORE_WRITE_COMPLETE (R178) -/
  | storeWriteComplete
  /-- SECOND_BOUNDARY (R174) -/
  | secondBoundary
  /-- TIER_EXPIRY (R75) -/
  | tierExpiry
  /-- GRANT_EXPIRY (R76) -/
  | grantExpiry
  /-- PREVIEW_END (R85) -/
  | previewEnd (slot : Fin 5)
  /-- PERIOD_ROLLOVER (R89) -/
  | periodRollover
  /-- DAY_START_RESET (R136) -/
  | dayStartReset
  /-- PRUNE (R109) -/
  | prune
  /-- SCHEDULE_TRIGGER (R161) -/
  | scheduleTrigger (entry : Fin 24)
  /-- RUN_END (R163) -/
  | runEnd (entry : Fin 24)
  /-- LOCKOUT_END (R130) -/
  | lockoutEnd (profile : Fin 8)
  /-- UNLOCK_END (R138) -/
  | unlockEnd (slot : Fin 3)
  /-- ALLOWANCE_OUT (R135) -/
  | allowanceOut (profile : Fin 8)
  /-- PROFILE_UNIT_WRITE (R128) -/
  | profileUnitWrite
  /-- RECEIVED_BYTE (R183): a byte at the link receiver, and whether its stop bit came -/
  | receivedByte (b : Byte) (stop : Bool)
deriving DecidableEq, Repr

end Sys2Proof
end

