-- ==== Sys2Proof/WellFormed.lean ====
section
/-! DEFINITION. Which commands can reach the part at all. Field VALUES are not checked here: a value out
of its range is a request the part answers BAD_FIELD or clamps (10 R186). What is checked is what no
frame or lane port can carry. -/

namespace Sys2Proof

/-- The kinds below 0x40 that name a request, from the chapters' Body heads. -/
def requestKinds : List Nat :=
  [0x00, 0x01, 0x02, 0x04, 0x05, 0x06, 0x07, 0x08, 0x09, 0x0A, 0x0B, 0x0C, 0x0D, 0x0E, 0x0F,
   0x10, 0x11, 0x12, 0x14, 0x15, 0x16, 0x18, 0x19, 0x1A,
   0x20, 0x21, 0x22, 0x23, 0x24, 0x25, 0x26, 0x27, 0x28, 0x29, 0x2A, 0x2B, 0x2C, 0x2D, 0x2E,
   0x30, 0x31, 0x34, 0x35, 0x36, 0x38, 0x39, 0x3A, 0x3B, 0x3C, 0x3D, 0x3E, 0x3F]

/-- The component count of SERVICE_PUT is one byte (01 section 1.1, 10 R182). -/
def ServiceReq.wf (r : ServiceReq) : Bool := r.comps.length ≤ 255

/-- A PROFILE_PUT body of more than 199 windows would pass 1,020 bytes (06 section 6.8, 10 R182). -/
def ProfileReq.wf (r : ProfileReq) : Bool := r.windows.length ≤ 199

/-- A trigger of a kind out of range has a kind above 2 (08 R167). -/
def TrigReq.wf : TrigReq → Bool
  | .other k => 2 < k.toNat
  | _ => true

/-- An action of a kind out of range has a kind above 3 (08 R167); the end field of RECORD has two bytes
unless the trigger is AT_TIME (08 section 8.5). After a trigger of a kind out of range no action is read,
and REMIND stands for none. -/
def ActReq.wf (t : TrigReq) (a : ActReq) : Bool :=
  match t, a with
  | .other _, a => a == .remind
  | .atTime _, .record _ _ _ => true
  | _, .record _ _ e => e.toNat < 65536
  | _, .other k => 3 < k.toNat
  | _, _ => true

/-- What the link or a port can carry: a cell has 128 bytes (00 section 4), a frame of UNKNOWN_KIND has a
kind below 0x40 that names no request (10 R184), and counted lists fit their frame. -/
def Instr.wf : Instr → Bool
  | .servicePut _ r => r.wf
  | .profilePut _ r => r.wf
  | .schedulePut _ _ t a => t.wf && a.wf t
  | .unknownKind _ k => k.toNat < 0x40 && !(requestKinds.contains k.toNat)
  | .cell _ bytes => bytes.length == 128
  | _ => true

end Sys2Proof
end

