-- ==== Sys2Proof/Machine/State.lean ====
section
/-! DEFINITION. The state of the part: every table, list, record, timer, counter and flag the chapters
name, as plain data, and its values at power-on. A count the spec says counts modulo 2^32 is a `Word`.
Uptime stamps and timer expiries are milliseconds of uptime unless their comment says seconds. -/

namespace Sys2Proof.Machine

open Sys2Proof

/-! ### Modes, clock, power -/

/-- The operating mode (R171). -/
inductive Mode where
  | boot | config | service | standby
deriving DecidableEq, Repr

/-- The clock's source (R174). -/
inductive TimeSource where
  | none | link | stream
deriving DecidableEq, Repr

/-- The clock (R174). The uptime is held in milliseconds. -/
structure Clock where
  utc : Nat := 0
  known : Bool := false
  offset : Int := 0
  source : TimeSource := .none
  uptimeMs : Nat := 0
deriving DecidableEq, Repr

/-! ### Status codes -/

/-- The status codes of replies (R186). -/
inductive Status where
  | ok | accepted | badLength | badField | unknownKind | notInMode | noSuch
  | full | listFull | conflict | denied | locked | owned | protectedCell
  | noTime | accessOff | notPurchasable | notOnAir | alreadyHeld | capExceeded | creditShort
deriving DecidableEq, Repr

/-! ### Carriers, quality classes, lanes, arbiter -/

/-- A carrier table entry that is not empty (R31). -/
structure Carrier where
  index : Nat
  freq : Nat
  cls : Fin 4
  guide : Bool
  home : Bool
deriving DecidableEq, Repr

/-- The grade of a lane's signal (R42). -/
inductive Grade where
  | good | marginal | poor
deriving DecidableEq, Repr

/-- A quality class (R39). `initialMarginal` is the initial grade MARGINAL. -/
structure QClass where
  n : Nat := 8
  tl : Nat := 16
  th : Nat := 256
  h : Nat := 8
  k : Nat := 3
  initialMarginal : Bool := false
deriving DecidableEq, Repr

/-- The state of a lane (R35). OFF is exactly "not enabled". -/
inductive LaneState where
  | off | idle | seeking | locked
deriving DecidableEq, Repr

/-- Why a lane was lost (R43). -/
inductive LossCause where
  | unlock | silent | poorRun | carrierEdit
deriving DecidableEq, Repr

/-- The record of a lane controller (R35). -/
structure Lane where
  state : LaneState := .idle
  carrier : Option Nat := none
  order : Byte := 0
  seekTimer : Option Nat := none
  silenceTimer : Option Nat := none
  accSum : Nat := 0
  accCount : Nat := 0
  accN : Option Nat := none
  grade : Option Grade := none
  lastAverage : Option Nat := none
  poorRun : Nat := 0
  locks : Word := 0
  seekFailures : Word := 0
  lossUnlock : Word := 0
  lossSilent : Word := 0
  lossPoorRun : Word := 0
  lossCarrierEdit : Word := 0
  preemptions : Word := 0
deriving DecidableEq, Repr

/-- A claimant that can wait in the queue (R51). -/
inductive Claimant where
  | slot (k : Fin 5)
  | home
deriving DecidableEq, Repr

/-- An entry of the wait queue (R51). Its priority is its claimant's; its order of entry is its place. -/
structure Waiter where
  claimant : Claimant
  carrier : Nat
deriving DecidableEq, Repr

/-- The home hold (R54). A RETRY holds its expiry. -/
inductive HomeHold where
  | inactive
  | waiting
  | holding (lane : Fin 3)
  | retry (expiry : Nat)
deriving DecidableEq, Repr

/-- What the arbiter keeps beside the lane fields of its claimants (R48, R51, R53). -/
structure Arbiter where
  queue : List Waiter := []
  sweepWaiting : Bool := false
  home : HomeHold := .inactive
deriving DecidableEq, Repr

/-! ### The guide sweep -/

/-- The state of the sweep (R117). -/
inductive SweepState where
  | off | dwell | paused
deriving DecidableEq, Repr

/-- Why the sweep is paused (R117). -/
inductive PauseCause where
  | noLane | preempted | allServed | noCarrier | mode
deriving DecidableEq, Repr

/-- The sweep's record (R117). -/
structure Sweep where
  on : Bool := false
  step : Bool := false
  dwell : Nat := 20
  state : SweepState := .off
  position : Option Nat := none
  lane : Option (Fin 3) := none
  lockedVisit : Bool := false
  timer : Option Nat := none
  pause : Option PauseCause := none
  servedRun : Nat := 0
  visits : Word := 0
  seekFailures : Word := 0
  rounds : Word := 0
deriving DecidableEq, Repr

/-! ### The service map and the slots -/

/-- The kind of a component (R1). -/
inductive CompKind where
  | video | audio | data
deriving DecidableEq, Repr

/-- A component of a service (R1). -/
structure Component where
  kind : CompKind
  tag : Nat
deriving DecidableEq, Repr

/-- A service map entry (R1). -/
structure Service where
  sid : Nat
  channel : Nat
  carrier : Nat
  scrambled : Bool
  rating : Nat
  comps : List Component
deriving DecidableEq, Repr

/-- The state of a slot (R7). -/
inductive SlotState where
  | free | waitLane | tuning | acquiring | presenting | held | faulted
deriving DecidableEq, Repr

/-- The reason of a slot's last transition (section 1.2.1). -/
inductive Reason where
  | none | stopped | mode | serviceGone | serviceChanged | preempted
  | lockTimeout | laneLost | keyTimeout | notEntitled | keyLost | permitOff
deriving DecidableEq, Repr

/-- A slot's origin (R7). -/
inductive Origin where
  | user
  | schedule (entry : Fin 24)
deriving DecidableEq, Repr

/-- The current event of a slot, with what is handed to the parental and access units (R26, R27). -/
structure CurEvent where
  eid : Nat
  version : Nat
  start : Nat
  duration : Nat
  rating : Nat
  price : Option Nat
  preview : Nat
deriving DecidableEq, Repr

/-- A phase that selects a key (R63). -/
inductive Phase where
  | a | b
deriving DecidableEq, Repr

/-- The requirement of a key record (R62). -/
inductive Requirement where
  | free
  | tier (t : Fin 32)
  | event (id : Nat)
deriving DecidableEq, Repr

/-- How a stored key's requirement was met (R63, R84). -/
inductive Basis where
  | free
  | tier (t : Fin 32)
  | grant (id : Nat)
  | preview (id : Nat)
deriving DecidableEq, Repr

/-- A KEY record (R62). -/
structure KeyRecord where
  sid : Nat
  phase : Phase
  period : Half
  req : Requirement
  wrapped : KeyWord
deriving DecidableEq, Repr

/-- A valid key of a descrambler (R63). A key not valid is an absent one. -/
structure Key where
  period : Half
  req : Requirement
  basis : Basis
  word : KeyWord
deriving DecidableEq, Repr

/-- A held refused record and the lane it came on (R63). -/
structure Held where
  record : KeyRecord
  lane : Fin 3
deriving DecidableEq, Repr

/-- A slot descrambler (R63): the keys and held refused records of phases A and B, and the uptime of the
last decoded cell. -/
structure Descrambler where
  keyA : Option Key := none
  keyB : Option Key := none
  heldA : Option Held := none
  heldB : Option Held := none
  lastDecoded : Option Nat := none
deriving DecidableEq, Repr

/-- A slot record (R7) with its counters (R8), its current event (R26) and its descrambler (R63).
`opStart` is in seconds of uptime. The profile is absent on record slots. -/
structure Slot where
  state : SlotState := .free
  reason : Reason := .none
  service : Option Nat := none
  carrier : Option Nat := none
  lane : Option (Fin 3) := none
  origin : Origin := .user
  profile : Option (Fin 8) := none
  retune : Nat := 0
  opStart : Nat := 0
  keyTimer : Option Nat := none
  since : Option Nat := none
  cellsOut : Word := 0
  unkeyed : Word := 0
  gaps : Word := 0
  cur : Option CurEvent := none
  desc : Descrambler := {}
deriving DecidableEq, Repr

/-! ### The cell router -/

/-- The consumer of a control tag (R56). -/
inductive Consumer where
  | key | entitlement | guide | time
deriving DecidableEq, Repr

/-- The destination of a filter entry: a control consumer, or the set of slots, ascending (R56). -/
inductive Dest where
  | consumer (c : Consumer)
  | slots (ks : List (Fin 5))
deriving DecidableEq, Repr

/-- A filter table entry that is not empty (R56). -/
structure Filter where
  lane : Fin 3
  tag : Nat
  dest : Dest
  last : Option (BitVec 6) := none
deriving DecidableEq, Repr

/-- The router's counters of one lane (R58). -/
structure LaneCells where
  unmatched : Word := 0
  phaseDiscard : Word := 0
deriving DecidableEq, Repr

/-- The cell router: the filter table and the lanes' counters (R56, R58). -/
structure Router where
  filters : List Filter := []
  cells : Vector LaneCells 3 := Vector.replicate 3 {}
deriving DecidableEq, Repr

/-! ### The access unit -/

/-- The device-key status (R87, R191). -/
inductive KeyStatus where
  | untested | usable | unusable
deriving DecidableEq, Repr

/-- A tier (R74). -/
structure Tier where
  held : Bool := false
  expiry : Option Nat := none
deriving DecidableEq, Repr

/-- A grant (R76). -/
structure Grant where
  eid : Nat
  sid : Nat
  endTime : Nat
deriving DecidableEq, Repr

/-- The purse, with the values after a store format (R88). `periodStart` can lie before the epoch. -/
structure Purse where
  balance : Int := 0
  limit : Nat := 0
  debit : Word := 0
  collected : Word := 0
  clipped : Word := 0
  nextSeq : Nat := 1
  releasedThrough : Nat := 0
  lastIssue : Nat := 0
  grace : Nat := 0
  floor : Nat := 0
  period : Nat := 30
  anchor : Nat := 0
  periodStart : Option Int := none
deriving DecidableEq, Repr

/-- A purchase record (R97). -/
structure Purchase where
  seq : Nat
  eid : Nat
  sid : Nat
  profile : Fin 8
  slot : Option (Fin 5)
  charge : Nat
  time : Nat
deriving DecidableEq, Repr

/-- The access unit's counters (R64, R78). -/
structure AccessCounters where
  unclaimed : Word := 0
  openRefused : Word := 0
  notMet : Word := 0
  stored : Word := 0
  duplicate : Word := 0
  stale : Word := 0
  entKeyOff : Word := 0
  entOtherAddress : Word := 0
  entAuthFailed : Word := 0
  entStale : Word := 0
  entApplied : Word := 0
deriving DecidableEq, Repr

/-- The access unit (chapter 4): tiers, grants ascending in event id, purse, purchase list. -/
structure Access where
  tiers : Vector Tier 32 := Vector.replicate 32 {}
  grants : List Grant := []
  purse : Purse := {}
  purchases : List Purchase := []
  deviceKey : KeyStatus := .untested
  counters : AccessCounters := {}
deriving DecidableEq, Repr

/-! ### The guide store -/

/-- A guide event (R102). -/
structure GuideEvent where
  sid : Nat
  eid : Nat
  version : Nat
  start : Nat
  duration : Nat
  rating : Nat
  price : Option Nat
  purchasable : Bool
  prorate : Bool
  preview : Nat
  title : Nat
deriving DecidableEq, Repr

/-- An occupied place: its number, the entry as it was written (which the directory follows), and how
many of its stored bits are disturbed (R102, R112). -/
structure Place where
  num : Nat
  ev : GuideEvent
  disturbed : Nat := 0
deriving DecidableEq, Repr

/-- The guide store's counters (R103). -/
structure GuideCounters where
  inserted : Word := 0
  replaced : Word := 0
  duplicate : Word := 0
  past : Word := 0
  displaced : Word := 0
  evicted : Word := 0
  droppedFull : Word := 0
  cancelled : Word := 0
  cancelUnknown : Word := 0
  pruned : Word := 0
  damaged : Word := 0
deriving DecidableEq, Repr

/-- The pending-scrub register (R113): the place, the corrected contents, when the rewrite completes. -/
structure Scrub where
  place : Nat
  contents : GuideEvent
  due : Nat
deriving DecidableEq, Repr

/-- The guide store (R102, R103, R113, R116, R125): the occupied places, ascending in number. -/
structure Guide where
  places : List Place := []
  counters : GuideCounters := {}
  scrub : Option Scrub := none
  patrol : Nat := 0
  patrolDue : Option Nat := none
  lastDamaged : Option (Nat × Nat) := none
deriving DecidableEq, Repr

/-! ### The parental unit -/

/-- A viewing window (R126). Bit 0 of the mask is Sunday. -/
structure Window where
  mask : Byte
  start : Nat
  stop : Nat
deriving DecidableEq, Repr

/-- A profile record, with the values after a store format of profiles 1 to 7 (R126). -/
structure Profile where
  inUse : Bool := false
  pin : Pin := ⟨0, 0, 0, 0⟩
  pinToSelect : Bool := false
  buyNeedsPin : Bool := false
  ceiling : Nat := 6
  outside : Bool := false
  windows : List Window := []
  allowance : Option Nat := none
  remaining : Nat := 86400
  cap : Option Nat := none
  spend : Nat := 0
  failures : Nat := 0
  lockout : Nat := 0
deriving DecidableEq, Repr

/-- The household settings (R127). -/
structure Household where
  dayStart : Nat := 0
  defaults : Vector (Fin 8) 3 := Vector.replicate 3 0
  day : Option Int := none
deriving DecidableEq, Repr

/-- An unlock record (R137). -/
structure Unlock where
  sid : Nat
  remaining : Nat
deriving DecidableEq, Repr

/-- The profiles after a store format: profile 0 in use (R126). -/
def formatProfiles : Vector Profile 8 :=
  (Vector.replicate 8 {}).set 0 { inUse := true }

/-- The parental unit (R126, R127, R128, R137). `dirty` marks a profile whose remaining or lockout has
changed since its unit was last handed over. -/
structure Parental where
  profiles : Vector Profile 8 := formatProfiles
  dirty : Vector Bool 8 := Vector.replicate 8 false
  household : Household := {}
  unlocks : Vector (Option Unlock) 3 := Vector.replicate 3 none
deriving DecidableEq, Repr

/-! ### The gate array -/

/-- The sources of the gate array, in the order of their codes (R148). -/
inductive Source where
  | zero | one | feedback | link | locked | signalOk | entitled | preview
  | ratingOk | windowOk | allowanceLeft | parentalOk | unlocked | scheduled | standby
deriving DecidableEq, Repr

/-- The slot-bound sources of one slot, at their start values (R148). -/
structure SlotSources where
  locked : Bool := false
  signalOk : Bool := false
  entitled : Bool := false
  preview : Bool := false
  ratingOk : Bool := false
  windowOk : Bool := false
  allowanceLeft : Bool := false
  parentalOk : Bool := false
  unlocked : Bool := false
  scheduled : Bool := false
deriving DecidableEq, Repr

/-- The edge mode of an auxiliary cell (R146). -/
inductive Edge where
  | none | rise | fall | both
deriving DecidableEq, Repr

/-- A gate cell (R146). -/
structure GateCell where
  enabled : Bool := false
  bound : Fin 5
  in0 : Source := .zero
  in1 : Source := .zero
  in2 : Source := .zero
  truth : Vector Bool 8 := Vector.replicate 8 false
  link : Option (Fin 8) := none
  edge : Edge := .none
  output : Bool := false
  rises : Word := 0
  falls : Word := 0
deriving DecidableEq, Repr

/-- The default programming of a view slot's permit cell (R147). -/
def viewCell (k : Fin 5) : GateCell :=
  { enabled := true, bound := k, in0 := .parentalOk, in1 := .unlocked,
    truth := #v[false, true, true, true, false, true, true, true] }

/-- The default programming of a record slot's permit cell (R147). -/
def recordCell (k : Fin 5) : GateCell :=
  { enabled := true, bound := k, truth := Vector.replicate 8 true }

/-- The default programming of the eight cells (R147). -/
def defaultCells : Vector GateCell 8 :=
  #v[viewCell 0, viewCell 1, viewCell 2, recordCell 3, recordCell 4,
     { bound := 0 }, { bound := 1 }, { bound := 2 }]

/-- The gate array: its cells, the slots' sources and STANDBY (R146, R148). -/
structure Gate where
  cells : Vector GateCell 8 := defaultCells
  src : Vector SlotSources 5 := Vector.replicate 5 {}
  standby : Bool := false
deriving DecidableEq, Repr

/-! ### The schedule unit -/

/-- The state of a schedule entry (R160). -/
inductive EntryState where
  | empty | armed | running | done | missed | cancelled
deriving DecidableEq, Repr

/-- The trigger of a schedule entry (R160). -/
inductive Trigger where
  | atTime (t : Nat)
  | atEvent (sid eid lead : Nat)
  | auxRise (cell : Fin 8)
deriving DecidableEq, Repr

/-- The action of a schedule entry (R160). `recEnd` is the record end: a time, a trail in seconds or a
run length in minutes, by the trigger. -/
inductive Action where
  | record (slot : Fin 5) (sid recEnd : Nat)
  | viewTune (sid : Nat)
  | remind
  | wake
deriving DecidableEq, Repr

/-- Why an entry missed (R160). -/
inductive MissCause where
  | late | conflict | mode | refused
deriving DecidableEq, Repr

/-- A schedule entry (R160). The trigger time can lie before the epoch; the end time is UTC seconds, or
seconds of uptime for an AUX_RISE recording. -/
structure Entry where
  state : EntryState := .empty
  trigger : Trigger := .atTime 0
  action : Action := .remind
  triggerTime : Option Int := none
  endTime : Option Nat := none
  orphan : Bool := false
  lastStart : Option Nat := none
  lastEnd : Option Nat := none
  missed : Option MissCause := none
  interruptions : Nat := 0
  retry : Option Nat := none
  lastTune : Option Status := none
deriving DecidableEq, Repr

/-! ### The retained store -/

/-- The write units (R177), and the header, which formatting writes last (log 12). -/
inductive UnitId where
  | access
  | purchase (place : Fin 64)
  | tiers
  | grants
  | profile (p : Fin 8)
  | household
  | header
deriving DecidableEq, Repr

/-- What a purchase unit holds (R177): the access image, the record, the grant and the profile's spend. -/
structure PurchaseImage where
  purse : Purse
  record : Purchase
  grant : Grant
  spend : Nat
deriving DecidableEq, Repr

/-- The image of a write unit (R177). An empty purchase place holds none. -/
inductive UnitImage where
  | access (p : Purse)
  | purchase (i : Option PurchaseImage)
  | tiers (t : Vector Tier 32)
  | grants (g : List Grant)
  | profile (p : Profile)
  | household (h : Household)
  | header
deriving DecidableEq, Repr

/-- A unit as the store keeps it: image, hand-over number, whether its check passes (R177, R178). -/
structure Stored (α : Type) where
  image : α
  number : StoreNumber := 0
  sound : Bool := false
deriving DecidableEq, Repr

/-- The retained units (R177). -/
structure Units where
  formatted : Bool := false
  access : Stored Purse := ⟨{}, 0, false⟩
  purchases : Vector (Stored (Option PurchaseImage)) 64 := Vector.replicate 64 ⟨none, 0, false⟩
  tiers : Stored (Vector Tier 32) := ⟨Vector.replicate 32 {}, 0, false⟩
  grants : Stored (List Grant) := ⟨[], 0, false⟩
  profiles : Vector (Stored Profile) 8 := formatProfiles.map fun p => ⟨p, 0, false⟩
  household : Stored Household := ⟨{}, 0, false⟩
deriving DecidableEq, Repr

/-- A unit handed over: its name, its hand-over number and its image (R178). -/
structure HandOver where
  unit : UnitId
  number : StoreNumber
  image : UnitImage
deriving DecidableEq, Repr

/-- The retained store (R177, R178): the units, the last hand-over number, the write queue, the write in
progress with the uptime at which its 8 ms end, and the hand-overs waiting for room. -/
structure Store where
  units : Units := {}
  last : StoreNumber := 0
  queue : List HandOver := []
  writing : Option (HandOver × Nat) := none
  waiting : List HandOver := []
deriving DecidableEq, Repr

/-! ### The fault summary -/

/-- The faults (R180), in the table's order. -/
inductive FaultName where
  | guideCorrected | guideSecond | guideLostEntry | storeFormatted | storeUnitLost
  | keyUnusable | linkFrame | linkOverrun | frontendSilent | streamRecordBad
deriving DecidableEq, Repr

/-- The fault summary (R180). A record that is clear is absent, false or empty; a count that is set can
have wrapped to 0. -/
structure Faults where
  guideCorrected : Option Word := none
  guideSecond : Option Nat := none
  guideLost : Option (Nat × Word) := none
  storeFormatted : Bool := false
  unitsLost : List UnitId := []
  keyUnusable : Bool := false
  linkFrame : Option Word := none
  linkOverrun : Option Word := none
  silent : Vector Bool 3 := Vector.replicate 3 false
  streamBad : Option Word := none
deriving DecidableEq, Repr

/-! ### The link port -/

/-- The receiver: its five states and the bytes kept in each (R183). -/
inductive Receiver where
  | hunt
  | length (first : Option Byte)
  | header (len1 len2 : Byte) (kind : Option Byte)
  | body (len1 len2 kind tag : Byte) (got : List Byte)
  | check (len1 len2 kind tag : Byte) (got : List Byte) (first : Option Byte)
deriving DecidableEq, Repr

/-- What a reply place waits for (R185): nothing, units to enter the write queue (R178), or a purchase
unit to be written (R94). -/
inductive Hold where
  | ready
  | entered (units : List (UnitId × StoreNumber))
  | written (unit : UnitId) (number : StoreNumber)
deriving DecidableEq, Repr

/-- A place of the reply queue (R185): the request's kind and tag, the reply body, what it waits for. -/
structure Reply where
  kind : Byte
  tag : Byte
  body : List Byte
  hold : Hold := .ready
deriving DecidableEq, Repr

/-- The notice kinds, in the order of their numbers from 0xC0 (R189). -/
inductive NoticeKind where
  | slot | lane | access | guide | profile | schedule | aux | clock | mode | fault
deriving DecidableEq, Repr

/-- A queued notice (R188). The subject is absent where the kind has none. -/
structure Notice where
  kind : NoticeKind
  subject : Option Nat
  contents : List Byte
  repeats : Nat := 1
deriving DecidableEq, Repr

/-- The transmitter (R187): idle, or sending one frame, a reply's or a notice's, given as its bytes. -/
inductive Transmitter where
  | idle
  | reply (frame : List Byte)
  | notice (frame : List Byte)
deriving DecidableEq, Repr

/-- The link port (chapter 10). `txDue` is the uptime at which the frame being sent ends (log 9). -/
structure Link where
  receiver : Receiver := .hunt
  lastByteMs : Nat := 0
  replies : List Reply := []
  notices : List Notice := []
  flags : Vector Bool 10 := Vector.replicate 10 false
  silent : Vector Bool 10 := Vector.replicate 10 false
  overflow : Bool := false
  tx : Transmitter := .idle
  txDue : Nat := 0
  goodFrames : Word := 0
  frameErrors : Word := 0
  overruns : Word := 0
  repliesSent : Word := 0
  noticesSent : Word := 0
  noticesDropped : Word := 0
deriving DecidableEq, Repr

/-! ### The ports -/

/-- What leaves the part at a lane port (section 2.2) or at a slot output port (R71). -/
inductive PortOut where
  | tuneOrder (lane : Fin 3) (freq : Nat) (order : Byte)
  | idleOrder (lane : Fin 3)
  | cellOut (slot : Fin 5) (bytes : List Byte)
deriving DecidableEq, Repr

/-- The model's own: how many free values were drawn, and whether the device-key self-test would pass
(log 14, 15). -/
structure Nature where
  drawn : Nat := 0
  keySound : Bool := true
deriving DecidableEq, Repr

/-- The slots at power-on: the view slots under profile 0 until BOOT ends (R7, R127). -/
def resetSlots : Vector Slot 5 :=
  #v[{ profile := some 0 }, { profile := some 0 }, { profile := some 0 }, {}, {}]

/-- The state of the part and the commands that wait. -/
structure State where
  pending : List Instr := []
  power : Bool := true
  booted : Bool := false
  restarting : Bool := false
  mode : Mode := .boot
  clock : Clock := {}
  link : Link := {}
  faults : Faults := {}
  store : Store := {}
  carriers : List Carrier := []
  classes : Vector QClass 4 := Vector.replicate 4 {}
  lanes : Vector Lane 3 := Vector.replicate 3 {}
  arb : Arbiter := {}
  sweep : Sweep := {}
  services : List Service := []
  slots : Vector Slot 5 := resetSlots
  router : Router := {}
  access : Access := {}
  guide : Guide := {}
  parental : Parental := {}
  gate : Gate := {}
  schedule : Vector Entry 24 := Vector.replicate 24 {}
  auxRises : List (Fin 8) := []
  out : List PortOut := []
  nature : Nature := {}
deriving DecidableEq, Repr

/-- Nothing stops the part: every refusal the spec gives is a status code in a reply (R186), and every
detected error is counted and recorded (R180). No fault exists, so none can be raised. -/
inductive Fault where
deriving DecidableEq, Repr

/-- The refusals. -/
inductive Refusal where
  /-- Raised by `exec` alone, for a row that has no meaning yet; safe. Every row has its meaning. -/
  | notModelled (mnemonic : String)
deriving DecidableEq, Repr

/-- The part right after power is applied, before the boot check: volatile state at its power-on values
(chapters 1 to 10), mode BOOT, device key untested, a store that was never formatted (log 17). -/
def State.reset : State := {}

end Sys2Proof.Machine
end

