-- ==== Sys2Proof/Machine/Ops.lean ====
section
/-! DEFINITION. The named operations over the state that every chapter shares: reading and changing one
record, the keyed tables in their canonical form, building reply and notice bytes, and the codes the
spec gives. -/

namespace Sys2Proof.Machine

open Sys2Proof

/-! ### Keyed tables: carriers by index, services by id, grants by event id, places by number -/

/-- The canonical form of a keyed table: keys strictly rising. -/
abbrev KeySorted {α : Type} (key : α → Nat) (l : List α) : Prop :=
  l.Pairwise fun a b => key a < key b

/-- The entry with a key. -/
def keyFind {α : Type} (key : α → Nat) (n : Nat) (l : List α) : Option α :=
  l.find? fun a => key a == n

/-- Inserts an entry in key order, replacing the entry of the same key. -/
def keyPut {α : Type} (key : α → Nat) (a : α) : List α → List α
  | [] => [a]
  | b :: l =>
    if key a < key b then a :: b :: l
    else if key a = key b then a :: l
    else b :: keyPut key a l

/-- Removes the entry with a key. -/
def keyDrop {α : Type} (key : α → Nat) (n : Nat) (l : List α) : List α :=
  l.filter fun a => key a != n

/-- Inserts into a list kept in the order of a measure, after the entries of the same measure. -/
def insertBy {α : Type} (measure : α → Nat) (a : α) : List α → List α
  | [] => [a]
  | b :: l => if measure a < measure b then a :: b :: l else b :: insertBy measure a l

/-- The list in the order of a measure; entries of the same measure keep their order. -/
def sortBy {α : Type} (measure : α → Nat) (l : List α) : List α :=
  l.foldl (fun acc a => insertBy measure a acc) []

/-- A number as a member of a range, if it is in it. -/
def toFin? (n k : Nat) : Option (Fin n) :=
  if h : k < n then some ⟨k, h⟩ else none

/-! ### One record of the state -/

/-- A slot record (R7). -/
def State.slot (s : State) (k : Fin 5) : Slot := s.slots[k]

/-- Changes a slot record. -/
def State.modSlot (k : Fin 5) (f : Slot → Slot) (s : State) : State :=
  { s with slots := s.slots.set k (f s.slots[k]) }

/-- A lane record (R35). -/
def State.lane (s : State) (l : Fin 3) : Lane := s.lanes[l]

/-- Changes a lane record. -/
def State.modLane (l : Fin 3) (f : Lane → Lane) (s : State) : State :=
  { s with lanes := s.lanes.set l (f s.lanes[l]) }

/-- A schedule entry (R160). -/
def State.entry (s : State) (n : Fin 24) : Entry := s.schedule[n]

/-- Changes a schedule entry. -/
def State.modEntry (n : Fin 24) (f : Entry → Entry) (s : State) : State :=
  { s with schedule := s.schedule.set n (f s.schedule[n]) }

/-- A profile record (R126). -/
def State.profile (s : State) (p : Fin 8) : Profile := s.parental.profiles[p]

/-- Changes the link port. -/
def State.modLink (f : Link → Link) (s : State) : State := { s with link := f s.link }

/-- Changes the clock. -/
def State.modClock (f : Clock → Clock) (s : State) : State := { s with clock := f s.clock }

/-- Changes the fault summary. -/
def State.modFaults (f : Faults → Faults) (s : State) : State := { s with faults := f s.faults }

/-- Changes the retained store. -/
def State.modStore (f : Store → Store) (s : State) : State := { s with store := f s.store }

/-- Changes the arbiter. -/
def State.modArb (f : Arbiter → Arbiter) (s : State) : State := { s with arb := f s.arb }

/-- Changes the sweep's record. -/
def State.modSweep (f : Sweep → Sweep) (s : State) : State := { s with sweep := f s.sweep }

/-- Changes the cell router. -/
def State.modRouter (f : Router → Router) (s : State) : State := { s with router := f s.router }

/-- Changes the access unit. -/
def State.modAccess (f : Access → Access) (s : State) : State := { s with access := f s.access }

/-- Changes the guide store. -/
def State.modGuide (f : Guide → Guide) (s : State) : State := { s with guide := f s.guide }

/-- Changes the parental unit. -/
def State.modParental (f : Parental → Parental) (s : State) : State :=
  { s with parental := f s.parental }

/-- Changes the gate array. -/
def State.modGate (f : Gate → Gate) (s : State) : State := { s with gate := f s.gate }

/-- Changes the carrier table. -/
def State.modCarriers (f : List Carrier → List Carrier) (s : State) : State :=
  { s with carriers := f s.carriers }

/-- Changes the service map. -/
def State.modServices (f : List Service → List Service) (s : State) : State :=
  { s with services := f s.services }

/-- Sets the operating mode. -/
def State.setMode (m : Mode) (s : State) : State := { s with mode := m }

/-- Puts something out on a lane port or slot output port. -/
def State.emit (o : PortOut) (s : State) : State := { s with out := s.out ++ [o] }

/-- Changes the purse. -/
def State.modPurse (f : Purse → Purse) (s : State) : State :=
  s.modAccess fun a => { a with purse := f a.purse }

/-- Changes the access unit's counters. -/
def State.modAccessCounters (f : AccessCounters → AccessCounters) (s : State) : State :=
  s.modAccess fun a => { a with counters := f a.counters }

/-- Changes the guide store's counters. -/
def State.modGuideCounters (f : GuideCounters → GuideCounters) (s : State) : State :=
  s.modGuide fun g => { g with counters := f g.counters }

/-- Changes a profile record. -/
def State.modProfile (p : Fin 8) (f : Profile → Profile) (s : State) : State :=
  s.modParental fun q => { q with profiles := q.profiles.set p (f q.profiles[p]) }

/-- Changes a slot's descrambler. -/
def State.modDesc (k : Fin 5) (f : Descrambler → Descrambler) (s : State) : State :=
  s.modSlot k fun sl => { sl with desc := f sl.desc }

/-- The five slots, ascending. -/
def allSlots : List (Fin 5) := [0, 1, 2, 3, 4]

/-- The three view slots, ascending (R7). -/
def viewSlots : List (Fin 3) := [0, 1, 2]

/-- The three lanes, ascending. -/
def allLanes : List (Fin 3) := [0, 1, 2]

/-- The eight profiles, ascending. -/
def allProfiles : List (Fin 8) := [0, 1, 2, 3, 4, 5, 6, 7]

/-- The 24 schedule entries, ascending. -/
def allEntries : List (Fin 24) :=
  [0, 1, 2, 3, 4, 5, 6, 7, 8, 9, 10, 11, 12, 13, 14, 15, 16, 17, 18, 19, 20, 21, 22, 23]

/-- A view slot as a slot. -/
def viewSlot (v : Fin 3) : Fin 5 := ⟨v.val, by omega⟩

/-- A slot as a view slot, if it is one. -/
def asView (k : Fin 5) : Option (Fin 3) := toFin? 3 k.val

/-- Does one thing after another for each member of a list. -/
def forEach {α : Type} (l : List α) (f : α → State → State) (s : State) : State :=
  l.foldl (fun s a => f a s) s

/-! ### The time -/

/-- UTC now, while the clock is known (R174). -/
def State.now? (s : State) : Option Nat := if s.clock.known then some s.clock.utc else none

/-- Uptime in seconds (R174). -/
def State.uptimeS (s : State) : Nat := s.clock.uptimeMs / 1000

/-- Counts a free value as drawn (log 15). -/
def State.countDraw (s : State) : State :=
  { s with nature := { s.nature with drawn := s.nature.drawn + 1 } }

/-! ### Building bodies (R182): most significant byte first -/

/-- One byte. -/
def u8 (n : Nat) : List Byte := [BitVec.ofNat 8 n]

/-- Two bytes. -/
def u16 (n : Nat) : List Byte := [BitVec.ofNat 8 (n / 256), BitVec.ofNat 8 n]

/-- Four bytes. -/
def u32 (n : Nat) : List Byte := u16 (n / 65536) ++ u16 n

/-- Eight bytes. -/
def u64 (n : Nat) : List Byte := u32 (n / 4294967296) ++ u32 n

/-- A counter, four bytes. -/
def w32 (w : Word) : List Byte := u32 w.toNat

/-- Two bytes, two's complement. -/
def i16 (i : Int) : List Byte := u16 (i % 65536).toNat

/-- Four bytes, two's complement. -/
def i32 (i : Int) : List Byte := u32 (i % 4294967296).toNat

/-- A flag byte. -/
def flag (b : Bool) : List Byte := if b then [1] else [0]

/-- A present flag and the field, whose bytes are zero while it is absent (R182). -/
def opt {α : Type} (width : Nat) (enc : α → List Byte) : Option α → List Byte
  | some a => flag true ++ enc a
  | none => flag false ++ List.replicate width 0

/-- A set as one byte, bit n standing for member n (R182). -/
def setByte {n : Nat} (l : List (Fin n)) : List Byte :=
  [l.foldl (fun acc k => acc ||| (1 <<< k.val : BitVec 8)) 0]

/-! ### The codes -/

/-- The status codes (R186). -/
def Status.code : Status → Byte
  | .ok => 0x00 | .accepted => 0x01 | .badLength => 0x02 | .badField => 0x03
  | .unknownKind => 0x04 | .notInMode => 0x05 | .noSuch => 0x06 | .full => 0x07
  | .listFull => 0x08 | .conflict => 0x09 | .denied => 0x0A | .locked => 0x0B
  | .owned => 0x0C | .protectedCell => 0x0D | .noTime => 0x0E | .accessOff => 0x0F
  | .notPurchasable => 0x10 | .notOnAir => 0x11 | .alreadyHeld => 0x12
  | .capExceeded => 0x13 | .creditShort => 0x14

/-- A reply body: the status and the fields the request's rule gives (R186). -/
def reply (st : Status) (fields : List Byte := []) : List Byte := st.code :: fields

/-- The mode's number (R172, R191). -/
def Mode.code : Mode → Nat
  | .boot => 0 | .config => 1 | .service => 2 | .standby => 3

/-- The notice kind's place from 0xC0 (R189). -/
def NoticeKind.index : NoticeKind → Fin 10
  | .slot => 0 | .lane => 1 | .access => 2 | .guide => 3 | .profile => 4
  | .schedule => 5 | .aux => 6 | .clock => 7 | .mode => 8 | .fault => 9

/-- The slot states in the order of R7; the numbers are the model's (log 10). -/
def SlotState.code : SlotState → Nat
  | .free => 0 | .waitLane => 1 | .tuning => 2 | .acquiring => 3
  | .presenting => 4 | .held => 5 | .faulted => 6

/-- The reasons in the order of section 1.2.1; the numbers are the model's (log 10). -/
def Reason.code : Reason → Nat
  | .none => 0 | .stopped => 1 | .mode => 2 | .serviceGone => 3 | .serviceChanged => 4
  | .preempted => 5 | .lockTimeout => 6 | .laneLost => 7 | .keyTimeout => 8
  | .notEntitled => 9 | .keyLost => 10 | .permitOff => 11

/-- The lane states in the order of R35; the numbers are the model's (log 10). -/
def LaneState.code : LaneState → Nat
  | .off => 0 | .idle => 1 | .seeking => 2 | .locked => 3

/-- The grades in the order of R42; GOOD and MARGINAL as QUALITY_CLASS_SET numbers them (log 10). -/
def Grade.code : Grade → Nat
  | .good => 0 | .marginal => 1 | .poor => 2

/-- The loss causes in the order of R43; the numbers are the model's (log 10). -/
def LossCause.code : LossCause → Nat
  | .unlock => 0 | .silent => 1 | .poorRun => 2 | .carrierEdit => 3

/-- The faults in the table's order (R180, R181). -/
def FaultName.code : FaultName → Nat
  | .guideCorrected => 0 | .guideSecond => 1 | .guideLostEntry => 2 | .storeFormatted => 3
  | .storeUnitLost => 4 | .keyUnusable => 5 | .linkFrame => 6 | .linkOverrun => 7
  | .frontendSilent => 8 | .streamRecordBad => 9

/-- A number of each write unit, in the order of R177 (log 10). -/
def UnitId.number : UnitId → Nat
  | .access => 0
  | .purchase p => 1 + p.val
  | .tiers => 65
  | .grants => 66
  | .profile p => 67 + p.val
  | .household => 75
  | .header => 76

/-- The write units that carry state, in the order of R177. -/
def allUnits : List UnitId :=
  [.access] ++ (List.finRange 64).map .purchase ++ [.tiers, .grants] ++ allProfiles.map .profile
    ++ [.household]

/-- An origin: 0 USER or 1 SCHEDULE, and the entry number (log 10). -/
def Origin.bytes : Origin → List Byte
  | .user => u8 0 ++ u8 0
  | .schedule n => u8 1 ++ u8 n.val

/-- Every digit of a PIN is a decimal digit (R186). -/
def pinDigitsOk (p : Pin) : Bool :=
  p.d0.toNat ≤ 9 && p.d1.toNat ≤ 9 && p.d2.toNat ≤ 9 && p.d3.toNat ≤ 9

/-- A flag field of a request: 0 or 1, else it fails its check (R186). -/
def flag? (b : Byte) : Option Bool :=
  if b = 0 then some false else if b = 1 then some true else none

/-- Clamps a quantity into its natural range (R186). -/
def clamp (lo hi n : Nat) : Nat := if n < lo then lo else if hi < n then hi else n

end Sys2Proof.Machine
end

