-- ==== Sys2Proof/Machine/Link.lean ====
section
/-! DEFINITION. The link port (chapter 10): frames and their check, notices, replies, the transmitter, and
the taking of a request. The fault summary (section 9.4) is here too, since every setting of a fault
raises a notice. -/

namespace Sys2Proof.Machine

open Sys2Proof

/-! ### The check and the frame (R182, R192) -/

/-- One bit of the CRC-16 with polynomial 0x1021, most significant bit first. -/
def crcShift (c : Half) : Half :=
  if c.msb then (c <<< 1) ^^^ 0x1021 else c <<< 1

/-- One byte of the CRC. -/
def crcByte (c : Half) (b : Byte) : Half :=
  let c := c ^^^ ((b.zeroExtend 16) <<< 8)
  crcShift (crcShift (crcShift (crcShift (crcShift (crcShift (crcShift (crcShift c)))))))

/-- The CRC-16 of some bytes, initial value 0xFFFF (R182). -/
def crc16 (l : List Byte) : Half := l.foldl crcByte 0xFFFF

/-- The frame of a kind, a tag and a body (R192). -/
def frameBytes (kind tag : Byte) (body : List Byte) : List Byte :=
  let covered := u16 body.length ++ [kind, tag] ++ body
  0xA5 :: covered ++ u16 (crc16 covered).toNat

/-! ### Notices (R188) -/

/-- Whether a queued notice is of a kind and subject. -/
def Notice.isFor (kind : NoticeKind) (subject : Option Nat) (n : Notice) : Bool :=
  n.kind == kind && n.subject == subject

/-- The link port's part of raising a notice: steps 1 to 5 of R188. -/
def Link.raise (kind : NoticeKind) (subject : Option Nat) (contents : List Byte) (l : Link) : Link :=
  let l := { l with flags := l.flags.set kind.index true }
  if l.silent[kind.index] then l
  else if l.notices.any (Notice.isFor kind subject) then
    { l with notices := l.notices.map fun n =>
        if n.isFor kind subject then
          { n with contents := contents, repeats := min 255 (n.repeats + 1) }
        else n }
  else if l.notices.length < 32 then
    { l with notices := l.notices ++ [{ kind, subject, contents }] }
  else { l with overflow := true, noticesDropped := l.noticesDropped + 1 }

/-- A block raises a notice. After RESTART is taken no block does (R173). -/
def State.raise (kind : NoticeKind) (subject : Option Nat) (contents : List Byte) (s : State) :
    State :=
  if s.restarting then s else s.modLink (Link.raise kind subject contents)

/-! ### The fault summary (R180) -/

/-- The set of lost units as ten bytes, unit n in bit n mod 8 of byte n / 8 (log 10). -/
def unitSetBytes (l : List UnitId) : List Byte :=
  (List.range 10).map fun byte =>
    (List.range 8).foldl (fun acc bit =>
      if l.any (fun u => u.number == 8 * byte + bit) then acc ||| (1 <<< bit : BitVec 8) else acc) 0

/-- The lanes that a set of three flags holds. -/
def lanesOf (v : Vector Bool 3) : List (Fin 3) := allLanes.filter fun l => v[l]

/-- Every record of the summary in the table's order, each a set flag and its contents (R181). -/
def Faults.bytes (f : Faults) : List Byte :=
  opt 4 w32 f.guideCorrected
    ++ opt 2 u16 f.guideSecond
    ++ opt 6 (fun p => u16 p.1 ++ w32 p.2) f.guideLost
    ++ flag f.storeFormatted
    ++ flag (!f.unitsLost.isEmpty) ++ unitSetBytes f.unitsLost
    ++ flag f.keyUnusable
    ++ opt 4 w32 f.linkFrame
    ++ opt 4 w32 f.linkOverrun
    ++ flag (!(lanesOf f.silent).isEmpty) ++ setByte (lanesOf f.silent)
    ++ opt 4 w32 f.streamBad

/-- One more occurrence of a counted fault. -/
def bump (c : Option Word) : Option Word := some (c.getD 0 + 1)

/-- Sets a fault or raises its count, and raises the FAULT notice with the whole summary (R180). -/
def State.setFault (name : FaultName) (f : Faults → Faults) (s : State) : State :=
  let s := s.modFaults f
  s.raise .fault none (u8 name.code ++ s.faults.bytes)

/-- A control record discarded (R61, R62, R77, R104, R174). -/
def State.streamRecordBad (s : State) : State :=
  s.setFault .streamRecordBad fun f => { f with streamBad := bump f.streamBad }

/-! ### The transmitter (R187) -/

/-- The frame of a notice: its repeat count, the overflow indication, its subject, its contents (R192). -/
def noticeFrame (overflow : Bool) (n : Notice) : List Byte :=
  frameBytes (BitVec.ofNat 8 (0xC0 + n.kind.index.val)) 0
    (u8 n.repeats ++ flag overflow ++ u8 (n.subject.getD 255) ++ n.contents)

/-- The frame of a reply: the request's kind plus 0x80 and the request's tag (R185). -/
def replyFrame (r : Reply) : List Byte := frameBytes (r.kind + 0x80) r.tag r.body

/-- Begins the first notice of the queue, if there is one; the overflow indication goes with it (R188). -/
def Link.startNotice (l : Link) : Link :=
  match l.notices with
  | [] => l
  | n :: rest =>
    { l with tx := .notice (noticeFrame l.overflow n), notices := rest, overflow := false }

/-- An idle transmitter chooses its next frame: the head reply if it is READY, else a notice. After the
RESTART reply it sends nothing (R187). -/
def Link.startTx (restarting : Bool) (l : Link) : Link :=
  match l.tx with
  | .idle =>
    match l.replies with
    | r :: _ => if r.hold = .ready then { l with tx := .reply (replyFrame r) } else l.startNotice
    | [] => if restarting then l else l.startNotice
  | _ => l

/-- Whether an image with a hand-over number is still to be written. -/
def Store.holds (st : Store) (u : UnitId) (n : StoreNumber) : Bool :=
  (st.writing.any fun p => p.1.unit == u && p.1.number == n)
    || st.queue.any (fun h => h.unit == u && h.number == n)
    || st.waiting.any (fun h => h.unit == u && h.number == n)

/-- What a reply still waits for, the store standing as it does (R178, R185). -/
def Hold.settle (st : Store) : Hold → Hold
  | .ready => .ready
  | .entered us =>
    if us.any fun u => st.waiting.any fun h => h.unit == u.1 then .entered us else .ready
  | .written u n => if st.holds u n then .written u n else .ready

/-- Replies whose units have entered the queue, or are written, become READY (R178, R185). -/
def Link.settle (st : Store) (l : Link) : Link :=
  { l with replies := l.replies.map fun r => { r with hold := r.hold.settle st } }

/-- The frame being sent. -/
def Transmitter.frame : Transmitter → List Byte
  | .idle => []
  | .reply f => f
  | .notice f => f

/-- The time a frame takes at 10 bits a byte and 921,600 bit/s, in whole milliseconds (R182, log 9). -/
def sendMs (bytes : Nat) : Nat := (10000 * bytes + 921599) / 921600

/-- The transmitter, if idle, begins what it can send, and the frame's end is set (R187). -/
def Link.begin (now : Nat) (restarting : Bool) (l : Link) : Link :=
  let next := l.startTx restarting
  if l.tx = .idle ∧ next.tx ≠ .idle then
    { next with txDue := now + sendMs next.tx.frame.length }
  else next

/-- The transmitter, if idle, begins what it can send (R187). -/
def State.startTx (s : State) : State :=
  s.modLink fun l => (l.settle s.store).begin s.clock.uptimeMs s.restarting

/-- The last byte of the frame being sent is sent (R185, R187, R191). -/
def Link.frameEnd (l : Link) : Link :=
  match l.tx with
  | .idle => l
  | .reply _ =>
    { l with tx := .idle, replies := l.replies.drop 1, repliesSent := l.repliesSent + 1 }
  | .notice _ => { l with tx := .idle, noticesSent := l.noticesSent + 1 }

/-! ### Replies and the taking of a request (R184, R185) -/

/-- What the owner of a request answers: the reply body, and what the reply waits for. -/
structure Answer where
  body : List Byte
  hold : Hold := .ready
deriving DecidableEq, Repr

/-- What the owner of a request does: its answer and the state after. -/
abbrev Req := State → Answer × State

/-- An answer that carries a status and fields. -/
def answer (st : Status) (fields : List Byte := []) : Answer := { body := reply st fields }

/-- A request refused with a status alone changes nothing (R186). -/
def refuse (st : Status) (s : State) : Answer × State := (answer st, s)

/-- The hand-overs that a request made and that wait for room in the write queue (R178). -/
def newlyWaiting (before after : Store) : List (UnitId × StoreNumber) :=
  (after.waiting.filter fun h => !before.waiting.contains h).map fun h => (h.unit, h.number)

/-- What a reply waits for: what its owner says, or else the units it handed over that have not yet
entered the write queue (R178, R185). -/
def holdOf (before after : Store) (a : Answer) : Hold :=
  match a.hold with
  | .ready => match newlyWaiting before after with
    | [] => .ready
    | us => .entered us
  | h => h

/-- Puts a reply at the tail of the reply queue (R185). -/
def Link.pushReply (r : Reply) (l : Link) : Link := { l with replies := l.replies ++ [r] }

/-- A frame error (R183): the frame is discarded, LINK_FRAME and the link port's own counter rise, and
the receiver enters HUNT. -/
def State.frameError (s : State) : State :=
  (s.modLink fun l => { l with receiver := .hunt, frameErrors := l.frameErrors + 1 }).setFault
    .linkFrame fun f => { f with linkFrame := bump f.linkFrame }

/-- A request that finds eight replies queued (R184 test 1). -/
def State.overrun (s : State) : State :=
  (s.modLink fun l => { l with goodFrames := l.goodFrames + 1, overruns := l.overruns + 1 }).setFault
    .linkOverrun fun f => { f with linkOverrun := bump f.linkOverrun }

/-- Nothing has been put out on the ports yet. -/
def State.clearOut (s : State) : State := { s with out := [] }

/-- Counts a good frame taken (R191). -/
def State.countGood (s : State) : State :=
  s.modLink fun l => { l with goodFrames := l.goodFrames + 1 }

/-- Gives a request to its owner and queues the reply (R184 test 6, R185). -/
def State.answerWith (kind tag : Byte) (f : Req) (s : State) : State :=
  let r := f s
  r.2.modLink (Link.pushReply
    { kind, tag, body := r.1.body, hold := holdOf s.store r.2.store r.1 })

/-- Whether the link port takes frames at all: the part has power, and RESTART has not been taken
(R173). -/
def State.linkOpen (s : State) : Bool := s.power && !s.restarting

/-- The taking of a good frame of a request: tests 1, 5 and 6 of R184, and the transmitter's choice
after. The owner's rule is `f`. -/
def State.takeRequest (kind tag : Byte) (f : Req) (s : State) : State :=
  let s := s.clearOut
  if s.linkOpen then
    if 8 ≤ s.link.replies.length then s.overrun.startTx
    else if s.mode = .boot ∧ kind ≠ 0x00 then
      (s.countGood.answerWith kind tag (refuse .notInMode)).startTx
    else (s.countGood.answerWith kind tag f).startTx
  else s

/-- Whether the blocks take events of the lanes, of timers and of the clock: the part has power, is not in
BOOT (R171) and has not taken RESTART (R173). -/
def State.awake (s : State) : Bool := s.power && !s.restarting && s.mode != .boot

/-- The taking of an event by the blocks, and the transmitter's choice after. -/
def State.takeEvent (f : State → State) (s : State) : State :=
  let s := s.clearOut
  if s.awake then (f s).startTx else s

end Sys2Proof.Machine
end

