-- ==== Sys2Proof/Machine/Retained.lean ====
section
/-! DEFINITION. The retained store (section 9.3): hand-overs, the write queue, a write's end, what a power
failure leaves, and the boot check with the assembly of the retained state. -/

namespace Sys2Proof.Machine

open Sys2Proof

/-! ### Handing over and writing (R178) -/

/-- The queue and the hand-overs waiting behind it stand in one line, of which the first 16 are the
queue. An idle store begins the write of the first, 8 ms long (R178, log 11, log 26). -/
def Store.fill (now : Nat) (line : List HandOver) (st : Store) : Store :=
  match st.writing, line with
  | none, h :: rest =>
    { st with writing := some (h, now + 8), queue := rest.take 16, waiting := rest.drop 16 }
  | _, _ => { st with queue := line.take 16, waiting := line.drop 16 }

/-- A block hands the store a whole unit image: it is stamped, replaces an image of the unit that is not
yet being written, and stands last (R178). -/
def Store.handOver (now : Nat) (unit : UnitId) (image : UnitImage) (st : Store) : Store :=
  let h : HandOver := { unit, number := st.last + 1, image }
  Store.fill now (((st.queue ++ st.waiting).filter fun o => o.unit != unit) ++ [h])
    { st with last := st.last + 1 }

/-- A block hands over a unit. -/
def State.handOver (unit : UnitId) (image : UnitImage) (s : State) : State :=
  s.modStore (Store.handOver s.clock.uptimeMs unit image)

/-- The access unit write unit (R79, R88). -/
def State.handAccess (s : State) : State := s.handOver .access (.access s.access.purse)

/-- The tier table unit (R75). -/
def State.handTiers (s : State) : State := s.handOver .tiers (.tiers s.access.tiers)

/-- The grant table unit (R76). -/
def State.handGrants (s : State) : State := s.handOver .grants (.grants s.access.grants)

/-- A profile unit, the whole record as it stands; the profile is no longer changed since (R128). -/
def State.handProfile (p : Fin 8) (s : State) : State :=
  (s.handOver (.profile p) (.profile (s.profile p))).modParental fun q =>
    { q with dirty := q.dirty.set p false }

/-- The household unit (R128). -/
def State.handHousehold (s : State) : State :=
  s.handOver .household (.household s.parental.household)

/-- The units with one of them written whole (R178). -/
def Units.write (h : HandOver) (u : Units) : Units :=
  match h.unit, h.image with
  | .access, .access p => { u with access := ⟨p, h.number, true⟩ }
  | .purchase n, .purchase i => { u with purchases := u.purchases.set n ⟨i, h.number, true⟩ }
  | .tiers, .tiers t => { u with tiers := ⟨t, h.number, true⟩ }
  | .grants, .grants g => { u with grants := ⟨g, h.number, true⟩ }
  | .profile n, .profile p => { u with profiles := u.profiles.set n ⟨p, h.number, true⟩ }
  | .household, .household x => { u with household := ⟨x, h.number, true⟩ }
  | .header, .header => { u with formatted := true }
  | _, _ => u

/-- The write in progress completes, and the next begins (R178). -/
def Store.writeComplete (now : Nat) (st : Store) : Store :=
  match st.writing with
  | none => st
  | some (h, _) =>
    Store.fill now (st.queue ++ st.waiting)
      { st with units := st.units.write h, writing := none }

/-- Whether every unit queued or waiting has been written (R173). -/
def Store.drained (st : Store) : Bool :=
  st.writing.isNone && st.queue.isEmpty && st.waiting.isEmpty

/-- A power failure: the unit being written has its old contents or its new ones, as a free value says;
what was queued or waiting is lost (R178, log 16). -/
def Store.powerLoss (keepsNew : Bool) (st : Store) : Store :=
  let units := match st.writing with
    | some (h, _) => if keepsNew then st.units.write h else st.units
    | none => st.units
  { st with units := units, writing := none, queue := [], waiting := [] }

/-! ### The boot check (R179) -/

/-- The hand-over number by which the assembly compares: a unit whose check failed carries its defaults,
which rank above every number found (R179). -/
def Stored.rank {α : Type} (u : Stored α) : Nat := if u.sound then u.number.toNat else 2 ^ 64

/-- What a unit carries: its image, or its defaults if its check failed (R179). -/
def Stored.get {α : Type} (dflt : α) (u : Stored α) : α := if u.sound then u.image else dflt

/-- The later of two pieces by the numbers they carry. -/
def later {α : Type} (a b : Nat × α) : Nat × α := if a.1 < b.1 then b else a

/-- The purchase units that hold a commit, with their numbers; an empty place carries nothing and a lost
one takes its place empty (R179). -/
def Units.commits (u : Units) : List (Nat × PurchaseImage) :=
  u.purchases.toList.filterMap fun p => (p.get none).map fun i => (p.number.toNat, i)

/-- The access image: the latest of the access unit's and the purchase units' (R179). -/
def Units.purse (u : Units) : Purse :=
  (u.commits.foldl (fun best c => later best (c.1, c.2.purse)) (u.access.rank, u.access.get {})).2

/-- The grant table: its unit, with the grant of each purchase unit stamped later (R179). Where a power loss took a
newer image of the unit, these can come to more than the 32 of R76; all of them are kept, the model's choice
(log 48). -/
def Units.grantTable (u : Units) : List Grant :=
  ((sortBy (·.1) u.commits).filter fun c => u.grants.rank < c.1).foldl
    (fun l c => keyPut (·.eid) c.2.grant l) (u.grants.get [])

/-- The purchase list: the records above the released-through number, in ascending sequence (R179). After the loss
of the access unit's check they may lie above the next sequence number, and stay (log 36). -/
def Units.purchaseList (u : Units) : List Purchase :=
  sortBy (·.seq) ((u.commits.map (·.2.record)).filter fun r => u.purse.releasedThrough < r.seq)

/-- A profile: its unit, with the period spend from the latest unit that carries it (R179). -/
def Units.profileOf (u : Units) (p : Fin 8) : Profile :=
  let unit := u.profiles[p]
  let image := unit.get formatProfiles[p]
  let named := u.commits.filter fun c => c.2.record.profile = p
  { image with
    spend := (named.foldl (fun best c => later best (c.1, c.2.spend)) (unit.rank, image.spend)).2 }

/-- The eight profiles as the boot check loads them. -/
def Units.profileTable (u : Units) : Vector Profile 8 := Vector.ofFn u.profileOf

/-- Whether the check of a unit passes. -/
def Units.soundAt (u : Units) : UnitId → Bool
  | .access => u.access.sound
  | .purchase n => u.purchases[n].sound
  | .tiers => u.tiers.sound
  | .grants => u.grants.sound
  | .profile n => u.profiles[n].sound
  | .household => u.household.sound
  | .header => u.formatted

/-- The hand-over number found in a unit. -/
def Units.numberAt (u : Units) : UnitId → Nat
  | .access => u.access.number.toNat
  | .purchase n => u.purchases[n].number.toNat
  | .tiers => u.tiers.number.toNat
  | .grants => u.grants.number.toNat
  | .profile n => u.profiles[n].number.toNat
  | .household => u.household.number.toNat
  | .header => 0

/-- The units whose check fails (R179). -/
def Units.lost (u : Units) : List UnitId := allUnits.filter fun i => !u.soundAt i

/-- The highest number in a unit whose check passes (R178). -/
def Units.highest (u : Units) : Nat :=
  (allUnits.filter u.soundAt).foldl (fun m i => max m (u.numberAt i)) 0

/-- The image of a unit that holds "after a store format" values (R179). -/
def formatImage : UnitId → UnitImage
  | .access => .access {}
  | .purchase _ => .purchase none
  | .tiers => .tiers (Vector.replicate 32 {})
  | .grants => .grants []
  | .profile p => .profile formatProfiles[p]
  | .household => .household {}
  | .header => .header

/-- Hands over the format image of each unit named. -/
def writeFormat (l : List UnitId) (s : State) : State :=
  forEach l (fun i => State.handOver i (formatImage i)) s

/-- The header passes: the retained state is assembled, and the defaults of the lost units are written
back (R179), in the order of R177 by the model's choice (log 12). -/
def bootLoad (s : State) : State :=
  let u := s.store.units
  let s := { s with
    access := { s.access with
      purse := u.purse, tiers := u.tiers.get (Vector.replicate 32 {}),
      grants := u.grantTable, purchases := u.purchaseList }
    parental := { s.parental with
      profiles := u.profileTable, household := u.household.get {} } }
  writeFormat u.lost (s.modStore fun st => { st with last := BitVec.ofNat 64 u.highest })

/-- The header fails: the store is formatted, every unit with the format values, numbered from 1, and a
new header last, which takes a number of its own by the model's choice (R178, R179, log 12). -/
def bootFormat (s : State) : State :=
  let s := { s with
    access := { s.access with
      purse := {}, tiers := Vector.replicate 32 {}, grants := [], purchases := [] }
    parental := { s.parental with profiles := formatProfiles, household := {} } }
  writeFormat (allUnits ++ [.header]) (s.modStore fun st => { st with last := 0 })

/-- The three boot-set faults, cleared and set afresh from this boot's findings (R180). The manual gives no order of
their settings, of which the last gives the FAULT notice its cause: the store's come first, the lost units in the order
of R177, and KEY_UNUSABLE last, by the model's choice (log 45). -/
def bootFaults (formatted : Bool) (lost : List UnitId) (s : State) : State :=
  let s := s.modFaults fun f =>
    { f with storeFormatted := false, unitsLost := [], keyUnusable := false }
  let s := if formatted then
      s.setFault .storeFormatted fun f => { f with storeFormatted := true }
    else s
  let s := forEach lost (fun i =>
    State.setFault .storeUnitLost fun f => { f with unitsLost := f.unitsLost ++ [i] }) s
  if s.access.deviceKey = .unusable then
    s.setFault .keyUnusable fun f => { f with keyUnusable := true }
  else s

/-- The device-key self-test (R87): a failure makes the status UNUSABLE, which only a power-on whose test
passes clears. -/
def keySelfTest (s : State) : State :=
  s.modAccess fun a => { a with
    deviceKey := if a.deviceKey = .unusable ∨ !s.nature.keySound then .unusable else .usable }

/-- BOOT steps 1 to 3 (R171): the boot check, the self-test, the faults that boot sets. -/
def bootCheck (s : State) : State :=
  let formatted := !s.store.units.formatted
  let lost := if formatted then [] else s.store.units.lost
  let s := if formatted then bootFormat s else bootLoad s
  bootFaults formatted lost (keySelfTest { s with booted := true })

end Sys2Proof.Machine
end

