-- ==== Sys2Proof/Machine/Flags.lean ====
section
/-! DEFINITION. The conditions and flags the blocks compute: grades of a signal (R42), local time and
viewing windows (R127, R133), gate cell inputs and outputs (R148, R150). -/

namespace Sys2Proof.Machine

open Sys2Proof

/-! ### Signal quality (R41, R42) -/

/-- The new grade of an average, from the lane's current grade and its class (R42). -/
def gradeNext (c : QClass) (g : Grade) (a : Nat) : Grade :=
  match g with
  | .good => if c.th + c.h < a then .poor else if c.tl + c.h < a then .marginal else .good
  | .marginal => if c.th + c.h < a then .poor else if a + c.h ≤ c.tl then .good else .marginal
  | .poor => if a + c.h ≤ c.tl then .good else if a + c.h ≤ c.th then .marginal else .poor

/-- The initial grade of a class (R39). -/
def QClass.initial (c : QClass) : Grade := if c.initialMarginal then .marginal else .good

/-- A lane that is LOCKED (R148, source LOCKED). -/
def Lane.isLocked (l : Lane) : Bool := l.state == .locked

/-- A lane that is LOCKED with grade GOOD or MARGINAL (R42, R148, source SIGNAL_OK). -/
def Lane.signalOk (l : Lane) : Bool :=
  l.isLocked && (l.grade == some .good || l.grade == some .marginal)

/-- A lane that is not OFF (R35). -/
def Lane.enabled (l : Lane) : Bool := l.state != .off

/-- A lane that is SEEKING or LOCKED on a carrier. -/
def Lane.serves (l : Lane) (c : Nat) : Bool :=
  (l.state == .seeking || l.state == .locked) && l.carrier == some c

/-! ### Local time (section 5.2, R127) -/

/-- Local time in seconds: UTC plus the local offset. -/
def Clock.localSeconds (c : Clock) : Int := (c.utc : Int) + 60 * c.offset

/-- The household day that contains now (R127). Division rounds toward minus infinity. -/
def householdDay (dayStart : Nat) (c : Clock) : Int := (c.localSeconds - 3600 * (dayStart : Int)) / 86400

/-- The local weekday, 0 for Sunday (R127). -/
def Clock.weekday (c : Clock) : Nat := ((c.localSeconds / 86400 + 4) % 7).toNat

/-- The local minute of the day (R127). -/
def Clock.minute (c : Clock) : Nat := ((c.localSeconds % 86400) / 60).toNat

/-- Whether a window contains a moment, given by its weekday and minute (R133). -/
def Window.contains (w m : Nat) (win : Window) : Bool :=
  if win.start < win.stop then
    win.mask.getLsbD w && win.start ≤ m && m < win.stop
  else
    (win.mask.getLsbD w && win.start ≤ m) || (win.mask.getLsbD ((w + 6) % 7) && m < win.stop)

/-- WINDOW_OK of a profile (R131). -/
def windowOk (c : Clock) (p : Profile) : Bool :=
  !c.known || p.windows.isEmpty
    || (let inside := p.windows.any (Window.contains c.weekday c.minute)
        if p.outside then !inside else inside)

/-- ALLOWANCE_LEFT of a profile (R131). -/
def allowanceLeft (p : Profile) : Bool := p.allowance.isNone || 0 < p.remaining

/-! ### Gate sources (R148) -/

/-- The source a code names (R148). -/
def sourceOf : Nat → Option Source
  | 0 => some .zero | 1 => some .one | 2 => some .feedback | 3 => some .link
  | 4 => some .locked | 5 => some .signalOk | 6 => some .entitled | 7 => some .preview
  | 8 => some .ratingOk | 9 => some .windowOk | 10 => some .allowanceLeft
  | 11 => some .parentalOk | 12 => some .unlocked | 13 => some .scheduled | 14 => some .standby
  | _ => none

/-- The code of a source (R148). -/
def Source.code : Source → Nat
  | .zero => 0 | .one => 1 | .feedback => 2 | .link => 3 | .locked => 4 | .signalOk => 5
  | .entitled => 6 | .preview => 7 | .ratingOk => 8 | .windowOk => 9 | .allowanceLeft => 10
  | .parentalOk => 11 | .unlocked => 12 | .scheduled => 13 | .standby => 14

/-- The value of a slot-bound source; the others read 0 here. -/
def SlotSources.get (v : SlotSources) : Source → Bool
  | .locked => v.locked | .signalOk => v.signalOk | .entitled => v.entitled
  | .preview => v.preview | .ratingOk => v.ratingOk | .windowOk => v.windowOk
  | .allowanceLeft => v.allowanceLeft | .parentalOk => v.parentalOk
  | .unlocked => v.unlocked | .scheduled => v.scheduled
  | _ => false

/-- A slot-bound source set; the others have no place here. -/
def SlotSources.put (v : SlotSources) (src : Source) (b : Bool) : SlotSources :=
  match src with
  | .locked => { v with locked := b } | .signalOk => { v with signalOk := b }
  | .entitled => { v with entitled := b } | .preview => { v with preview := b }
  | .ratingOk => { v with ratingOk := b } | .windowOk => { v with windowOk := b }
  | .allowanceLeft => { v with allowanceLeft := b } | .parentalOk => { v with parentalOk := b }
  | .unlocked => { v with unlocked := b } | .scheduled => { v with scheduled := b }
  | _ => v

/-- Whether a cell selects a source as any of its inputs (R151). -/
def GateCell.selects (c : GateCell) (src : Source) : Bool :=
  c.in0 == src || c.in1 == src || c.in2 == src

/-- What one input of a cell reads (R150). -/
def Gate.input (g : Gate) (c : GateCell) : Source → Bool
  | .zero => false
  | .one => true
  | .feedback => c.output
  | .link => match c.link with
    | some l => g.cells[l].enabled && g.cells[l].output
    | none => false
  | .standby => g.standby
  | src => (g.src[c.bound]).get src

/-- The index in0 + 2 × in1 + 4 × in2 (R150). -/
def truthIndex (b0 b1 b2 : Bool) : Fin 8 :=
  ⟨b0.toNat + 2 * b1.toNat + 4 * b2.toNat, by cases b0 <;> cases b1 <;> cases b2 <;> decide⟩

/-- The index a cell's inputs form (R150). -/
def Gate.index (g : Gate) (c : GateCell) : Fin 8 :=
  truthIndex (g.input c c.in0) (g.input c c.in1) (g.input c c.in2)

/-- The output an evaluation of a cell gives (R150). -/
def Gate.eval (g : Gate) (c : GateCell) : Bool := c.truth[g.index c]

end Sys2Proof.Machine
end

