-- ==== Sys2Proof/Machine/Gate.lean ====
section
/-! DEFINITION. The gate array: reports, passes and what the outputs do (chapter 7), with the slot moves
that a permit causes (R15, R17) and the SLOT notice (R29). -/

namespace Sys2Proof.Machine

open Sys2Proof

/-! ### The slot's moves between PRESENTING and HELD -/

/-- The service map entry of a slot's service. -/
def State.serviceOf (s : State) (k : Fin 5) : Option Service :=
  match (s.slot k).service with
  | some sid => keyFind (·.sid) sid s.services
  | none => none

/-- Whether a slot's service is SCRAMBLED. -/
def State.isScrambled (s : State) (k : Fin 5) : Bool := (s.serviceOf k).any (·.scrambled)

/-- Whether a slot's service is CLEAR. -/
def State.isClear (s : State) (k : Fin 5) : Bool := (s.serviceOf k).any (!·.scrambled)

/-- The fields of a SLOT notice (R29). -/
def slotNoticeBytes (k : Fin 5) (sl : Slot) : List Byte :=
  u8 k.val ++ u8 sl.state.code ++ u8 sl.reason.code ++ opt 2 u16 sl.service
    ++ opt 1 (fun l => u8 l.val) sl.lane ++ sl.origin.bytes

/-- Raises the SLOT notice of a slot (R29). -/
def State.slotNotice (k : Fin 5) (s : State) : State :=
  s.raise .slot (some k.val) (slotNoticeBytes k (s.slot k))

/-- A slot enters PRESENTING: reason NONE, retune count 0, PRESENTING since now (R7, R15 to R18). -/
def enterPresenting (k : Fin 5) (s : State) : State :=
  (s.modSlot k fun sl => { sl with
    state := .presenting, reason := .none, retune := 0,
    since := some s.clock.uptimeMs }).slotNotice k

/-- A slot enters HELD with a reason, or changes its HELD reason (R29). -/
def enterHeld (r : Reason) (k : Fin 5) (s : State) : State :=
  (s.modSlot k fun sl => { sl with state := .held, reason := r }).slotNotice k

/-- Whether a slot holds a valid key of either phase (R17). -/
def Slot.hasKey (sl : Slot) : Bool := sl.desc.keyA.isSome || sl.desc.keyB.isSome

/-- The present output of a slot's permit cell (R153). -/
def State.permit (s : State) (k : Fin 5) : Bool := (s.gate.cells[k.val]).output

/-- The choice between PRESENTING and HELD(PERMIT_OFF) by the permit (R15, R16, R18). -/
def chooseByPermit (k : Fin 5) (s : State) : State :=
  if s.permit k then enterPresenting k s else enterHeld .permitOff k s

/-- A change of a slot's permit output acts on the slot by its state (R17). -/
def permitChange (k : Fin 5) (v : Bool) (s : State) : State :=
  let sl := s.slot k
  if sl.state = .presenting ∧ !v then enterHeld .permitOff k s
  else if sl.state = .held ∧ sl.reason = .permitOff ∧ v ∧ (s.isClear k ∨ sl.hasKey) then
    enterPresenting k s
  else s

/-! ### A pass over the cells (R151) -/

/-- Changes one cell. -/
def Gate.modCell (n : Fin 8) (f : GateCell → GateCell) (g : Gate) : Gate :=
  { g with cells := g.cells.set n (f g.cells[n]) }

/-- The cells in descending number (R151). -/
def cellsDown : List (Fin 8) := [7, 6, 5, 4, 3, 2, 1, 0]

/-- A pass under way: the gate array, the marked cells, the output changes made so far in order. -/
structure Pass where
  gate : Gate
  marks : List (Fin 8)
  changes : List (Fin 8 × Bool) := []

/-- The enabled cells whose link field names a cell (R151). -/
def Gate.linkers (g : Gate) (n : Fin 8) : List (Fin 8) :=
  cellsDown.filter fun m => (g.cells[m]).enabled && (g.cells[m]).link == some n

/-- One cell of a pass: evaluated if it is marked and enabled; a change of its output marks the cells
linking to it (R150, R151). -/
def passCell (p : Pass) (n : Fin 8) : Pass :=
  let c := p.gate.cells[n]
  if p.marks.contains n ∧ c.enabled then
    let v := p.gate.eval c
    if v = c.output then p
    else
      { gate := p.gate.modCell n fun c => { c with output := v }
        marks := p.marks ++ p.gate.linkers n
        changes := p.changes ++ [(n, v)] }
  else p

/-- One pass over the cells, 7 to 0 (R151). -/
def Gate.pass (g : Gate) (marks : List (Fin 8)) : Pass :=
  cellsDown.foldl passCell { gate := g, marks := marks }

/-! ### Handing the changes over (R152 to R155) -/

/-- The fields of an AUX notice (R155). R155 numbers no edge: RISE is 1 and FALL is 2, as CELL_PUT's edge modes
number them, by the model's choice (log 10). -/
def auxNoticeBytes (n : Fin 8) (rise : Bool) (c : GateCell) : List Byte :=
  u8 n.val ++ u8 c.bound.val ++ u8 (if rise then 1 else 2) ++ flag c.output ++ w32 c.rises
    ++ w32 c.falls

/-- A cell's count of its rises or of its falls (R154). -/
def GateCell.count (v : Bool) (c : GateCell) : GateCell :=
  if v then { c with rises := c.rises + 1 } else { c with falls := c.falls + 1 }

/-- A rise is told to the schedule unit: it is under way until the schedule unit takes it (R154, log 7). -/
def tellRise (n : Fin 8) (v : Bool) (s : State) : State :=
  if v then { s with auxRises := s.auxRises ++ [n] } else s

/-- Whether a change of a cell's output raises an AUX notice, by its edge mode (R154). -/
def Edge.reports (v : Bool) (e : Edge) : Bool := e == .both || (v && e == .rise) || (!v && e == .fall)

/-- A change of an auxiliary cell's output: counted, told to the schedule unit if a rise, and noticed by
the edge mode (R154). -/
def auxChange (n : Fin 8) (v : Bool) (s : State) : State :=
  let s := tellRise n v (s.modGate (Gate.modCell n (GateCell.count v)))
  let c := s.gate.cells[n]
  if c.edge.reports v then s.raise .aux (some n.val) (auxNoticeBytes n v c) else s

/-- One output change handed over: a permit cell's to the switch engine, an auxiliary cell's counted and
reported (R152). -/
def handOverChange (ch : Fin 8 × Bool) (s : State) : State :=
  match toFin? 5 ch.1.val with
  | some k => permitChange k ch.2 s
  | none => auxChange ch.1 ch.2 s

/-- A pass with its marks, and the hand-over of its changes in order (R151, R152). -/
def gatePass (marks : List (Fin 8)) (s : State) : State :=
  let p := s.gate.pass marks
  forEach p.changes handOverChange { s with gate := p.gate }

/-! ### Reports (R149) -/

/-- One source a report gives a value. -/
inductive Change where
  | slot (k : Fin 5) (src : Source) (v : Bool)
  | standby (v : Bool)
deriving DecidableEq, Repr

/-- Whether a change names a source at the value it already holds (R149). -/
def Gate.already (g : Gate) : Change → Bool
  | .slot k src v => (g.src[k]).get src == v
  | .standby v => g.standby == v

/-- The sources with one of them given its value. -/
def Gate.takeChange (g : Gate) : Change → Gate
  | .slot k src v => { g with src := g.src.set k ((g.src[k]).put src v) }
  | .standby v => { g with standby := v }

/-- Whether a change bears on a cell: a source it selects, of its bound slot or STANDBY (R151). -/
def GateCell.readsChange (c : GateCell) : Change → Bool
  | .slot k src _ => c.bound == k && c.selects src
  | .standby _ => c.selects .standby

/-- The enabled cells that a set of real changes marks (R151). -/
def Gate.marked (g : Gate) (real : List Change) : List (Fin 8) :=
  cellsDown.filter fun n => (g.cells[n]).enabled && real.any (g.cells[n]).readsChange

/-- One report, taken whole in one pass (R149, R151). -/
def gateReport (chs : List Change) (s : State) : State :=
  let real := chs.filter fun c => !s.gate.already c
  if real.isEmpty then s
  else
    let g := real.foldl Gate.takeChange s.gate
    gatePass (g.marked real) { s with gate := g }

/-- Whether a slot is a user of a lane that is LOCKED (R148). -/
def State.slotLocked (s : State) (k : Fin 5) : Bool :=
  (s.slot k).lane.any fun l => (s.lane l).isLocked

/-- Whether a slot's lane is LOCKED with grade GOOD or MARGINAL (R148). -/
def State.slotSignalOk (s : State) (k : Fin 5) : Bool :=
  (s.slot k).lane.any fun l => (s.lane l).signalOk

/-- LOCKED, SIGNAL_OK and SCHEDULED of some slots as they now stand, in one report (R149). -/
def syncSlots (ks : List (Fin 5)) (s : State) : State :=
  gateReport (ks.flatMap fun k =>
    [.slot k .locked (s.slotLocked k), .slot k .signalOk (s.slotSignalOk k),
     .slot k .scheduled ((s.slot k).origin != .user)]) s

/-- ENTITLED and PREVIEW of every slot that one event of the access unit names, in one report (R84, R149). -/
def setEntitledAll (ks : List (Fin 5)) (e p : Bool) (s : State) : State :=
  gateReport (ks.flatMap fun k => [.slot k .entitled e, .slot k .preview p]) s

/-- ENTITLED and PREVIEW of a slot, in one report (R84, R149). -/
def setEntitled (k : Fin 5) (e p : Bool) (s : State) : State := setEntitledAll [k] e p s

end Sys2Proof.Machine
end

