-- ==== Sys2Proof/Machine/Parental.lean ====
section
/-! DEFINITION. The parental unit (chapter 6): the conditions of the slots, the PIN checker, the daily
allowance, unlock records, and the PROFILE notice. -/

namespace Sys2Proof.Machine

open Sys2Proof

/-! ### Conditions (R131 to R133) -/

/-- The profile a view slot is judged by (R7). -/
def State.profileOf (s : State) (k : Fin 5) : Profile := s.profile ((s.slot k).profile.getD 0)

/-- The rating in force on a slot: its current event's, or else its service's default (R131). -/
def State.ratingInForce (s : State) (k : Fin 5) : Nat :=
  match (s.slot k).cur with
  | some e => e.rating
  | none => ((s.serviceOf k).map (·.rating)).getD 0

/-- The value of one of a view slot's parental conditions as it is to be (R131). -/
def State.condition (s : State) (v : Fin 3) : Source → Bool
  | .ratingOk =>
    (s.slot (viewSlot v)).state == .free
      || s.ratingInForce (viewSlot v) ≤ (s.profileOf (viewSlot v)).ceiling
  | .windowOk => windowOk s.clock (s.profileOf (viewSlot v))
  | .allowanceLeft => allowanceLeft (s.profileOf (viewSlot v))
  | .unlocked => (s.parental.unlocks[v]).isSome
  | _ => false

/-- PARENTAL_OK of a slot from its three conditions as the gate array holds them (R131). -/
def SlotSources.parental (v : SlotSources) : Bool := v.ratingOk && v.windowOk && v.allowanceLeft

/-- Computes the conditions that one event bears on, each for its view slots, hands each condition over as a
report of its own for all of them, and then PARENTAL_OK (R131, R149). The order of the reports, that of the list
and PARENTAL_OK last, is the model's (log 39). -/
def reportConditions (told : List (Source × List (Fin 3))) (s : State) : State :=
  let reports := told.map fun x => x.2.map fun v => Change.slot (viewSlot v) x.1 (s.condition v x.1)
  let s := forEach reports gateReport s
  gateReport ((told.flatMap (·.2)).map fun v =>
    .slot (viewSlot v) .parentalOk (s.gate.src[viewSlot v]).parental) s

/-- RATING_OK of a slot computed afresh (R132); a record slot's reads 1 at all times. -/
def updateRating (k : Fin 5) (s : State) : State :=
  match asView k with
  | some v => reportConditions [(.ratingOk, [v])] s
  | none => s

/-- The conditions of some slots under their profiles, all computed at once and reported in the order of R148's
table, which is the model's choice (R140, R141, log 39). -/
def updateConditions (vs : List (Fin 3)) (s : State) : State :=
  reportConditions [(.ratingOk, vs), (.windowOk, vs), (.allowanceLeft, vs)] s

/-- The view slots whose profile is a given one, ascending. -/
def State.viewersOf (s : State) (p : Fin 8) : List (Fin 3) :=
  viewSlots.filter fun v => (s.slot (viewSlot v)).profile == some p

/-! ### The PROFILE notice (R145) -/

/-- The cause of a PROFILE notice; the numbers are the model's (log 10). -/
inductive ProfileCause where
  | low | out | lockout
deriving DecidableEq, Repr

/-- The number of a cause (log 10). -/
def ProfileCause.code : ProfileCause → Nat
  | .low => 0 | .out => 1 | .lockout => 2

/-- The fields of a PROFILE notice (R145). DESIGN CHOICE (log 10): remaining is a plain field after the
allowance-present flag, sent as it stands while the allowance is absent (R127), and not an optional field of R182. -/
def profileNoticeBytes (c : ProfileCause) (p : Fin 8) (s : State) : List Byte :=
  let r := s.profile p
  u8 c.code ++ u8 p.val ++ flag r.allowance.isSome ++ u32 r.remaining ++ u8 r.failures
    ++ u16 r.lockout ++ setByte (s.viewersOf p)
    ++ setByte ((s.viewersOf p).filter fun v => (s.slot (viewSlot v)).state == .presenting)

/-- Raises the PROFILE notice of a profile (R145). -/
def State.profileNotice (c : ProfileCause) (p : Fin 8) (s : State) : State :=
  s.raise .profile (some p.val) (profileNoticeBytes c p s)

/-- Marks a profile as changed since its unit was last handed over (R128). -/
def State.markDirty (p : Fin 8) (s : State) : State :=
  s.modParental fun q => { q with dirty := q.dirty.set p true }

/-! ### The PIN checker (R129) -/

/-- A PIN check: passed, LOCKED or DENIED. A failure count that changes and a lockout that starts hand the
profile unit over (R128, R129). -/
def pinCheck (p : Fin 8) (pin : Pin) (s : State) : Option Status × State :=
  let r := s.profile p
  if 0 < r.lockout then (some .locked, s)
  else if pin = r.pin then
    (none, if 0 < r.failures then
        (s.modProfile p fun r => { r with failures := 0 }).handProfile p
      else s)
  else if r.failures < 4 then
    (some .denied, (s.modProfile p fun r => { r with failures := r.failures + 1 }).handProfile p)
  else
    (some .denied,
      ((s.modProfile p fun r => { r with failures := 0, lockout := 900 }).handProfile p).profileNotice
        .lockout p)

/-! ### The daily allowance (R134 to R136) -/

/-- A profile's remaining set and tested against the two thresholds, with the notice and the hand-over that a
crossing makes (R128, R135). `hand` says whether the cause hands the unit over even when no threshold is crossed.
ALLOWANCE_LEFT is reported with whatever else the event changes (R149), after the notice by the model's choice
(log 45). -/
def setRemaining (hand : Bool) (p : Fin 8) (new : Nat) (s : State) : State :=
  let old := (s.profile p).remaining
  if new = old then (if hand then s.handProfile p else s)
  else
    let s := (s.modProfile p fun r => { r with remaining := new }).markDirty p
    if 0 < old ∧ new = 0 then (s.handProfile p).profileNotice .out p
    else if old = 0 then s.handProfile p
    else if 300 < old ∧ new ≤ 300 then (s.handProfile p).profileNotice .low p
    else if hand then s.handProfile p else s

/-- ALLOWANCE_LEFT of the view slots of a profile (R135). -/
def updateAllowance (p : Fin 8) (s : State) : State := reportConditions [(.allowanceLeft, s.viewersOf p)] s

/-- A profile's remaining changed by an event of its own: ALLOWANCE_LEFT of its slots is reported if remaining came
to 0 or left it (R135). -/
def changeRemaining (hand : Bool) (p : Fin 8) (new : Nat) (s : State) : State :=
  let t := setRemaining hand p new s
  if ((s.profile p).remaining = 0 ↔ new = 0) then t else updateAllowance p t

/-- Whether the second now passing counts against a profile: in use, with an allowance, remaining above 0,
and a view slot of it PRESENTING (R134). -/
def State.allowanceCounts (s : State) (p : Fin 8) : Bool :=
  (s.profile p).inUse && (s.profile p).allowance.isSome && 0 < (s.profile p).remaining
    && (s.viewersOf p).any fun v => (s.slot (viewSlot v)).state == .presenting

/-- The allowance counts of a second boundary, the profiles ascending (R134, log 31). Each profile's slots are
looked at as they stand before any report. -/
def countAllowances (s : State) : State :=
  forEach (allProfiles.filter s.allowanceCounts) (fun p s =>
    setRemaining false p ((s.profile p).remaining - 1) s) s

/-- The allowance count of one profile (R134). -/
def countAllowance (p : Fin 8) (s : State) : State :=
  if s.allowanceCounts p then changeRemaining false p ((s.profile p).remaining - 1) s else s

/-- The day-start reset of one profile (R136). -/
def resetAllowance (p : Fin 8) (s : State) : State :=
  match (s.profile p).inUse, (s.profile p).allowance with
  | true, some a => if a = (s.profile p).remaining then s else setRemaining true p a s
  | _, _ => s

/-- Records a household day; the household unit is handed over when it changes (R128, R136). -/
def recordDay (d : Int) (s : State) : State :=
  (s.modParental fun q => { q with household := { q.household with day := some d } }).handHousehold

/-- The household day that contains now (R127). -/
def State.householdDay (s : State) : Int := Machine.householdDay s.parental.household.dayStart s.clock

/-- Whether that day is later than the recorded one (R136). -/
def State.dayTurns (s : State) : Bool :=
  s.clock.known && s.parental.household.day.any fun r => r < s.householdDay

/-- The household day that contains now is compared with the recorded one (R136). A later day resets every
allowance, the profiles ascending (log 31); ALLOWANCE_LEFT is reported with whatever else the event changes.
DESIGN CHOICE (log 51): the profile units are handed over before the household unit. -/
def turnDay (s : State) : State :=
  if s.dayTurns then recordDay s.householdDay (forEach allProfiles resetAllowance s)
  else if s.clock.known ∧ s.parental.household.day = none then recordDay s.householdDay s
  else s

/-- The day compared by itself: a day that turns reports ALLOWANCE_LEFT of every view slot at once (R136, R149). -/
def compareDay (s : State) : State :=
  if s.dayTurns then reportConditions [(.allowanceLeft, viewSlots)] (turnDay s) else turnDay s

/-- What a moment of the clock bears on: the day is compared, and WINDOW_OK and ALLOWANCE_LEFT of every view slot
computed afresh and reported, so that no cell sees one slot's day begun and another's not (R133, R136, R149);
WINDOW_OK first is the model's choice (log 39). -/
def timeConditions (s : State) : State :=
  reportConditions [(.windowOk, viewSlots), (.allowanceLeft, viewSlots)] (turnDay s)

/-! ### Lockouts and unlocks (R130, R137, R138) -/

/-- One second of uptime of a lockout (R130). Its end hands the unit over (R128). -/
def countLockout (p : Fin 8) (s : State) : State :=
  let r := s.profile p
  if r.lockout = 0 then s
  else
    let s := (s.modProfile p fun r => { r with lockout := r.lockout - 1 }).markDirty p
    if r.lockout = 1 then s.handProfile p else s

/-- An unlock record ends: UNLOCKED falls to 0 (R138). -/
def endUnlock (v : Fin 3) (s : State) : State :=
  match s.parental.unlocks[v] with
  | none => s
  | some _ =>
    gateReport [.slot (viewSlot v) .unlocked false]
      (s.modParental fun q => { q with unlocks := q.unlocks.set v none })

/-- The unlock records of some view slots end in one event: UNLOCKED of each that had one falls, in one report
(R138, R141, R149). -/
def endUnlocks (vs : List (Fin 3)) (s : State) : State :=
  let held := vs.filter fun v => (s.parental.unlocks[v]).isSome
  gateReport (held.map fun v => .slot (viewSlot v) .unlocked false)
    (s.modParental fun q => { q with unlocks := vs.foldl (fun u (v : Fin 3) => u.set v none) q.unlocks })

/-- The unlock record of a slot ends, if the slot is a view slot and has one (R11, R24). -/
def endUnlockOf (k : Fin 5) (s : State) : State :=
  match asView k with
  | some v => endUnlock v s
  | none => s

/-- One second of uptime of the unlock records: those at their last second end together (R138, R149). -/
def countUnlocks (s : State) : State :=
  let done := viewSlots.filter fun v => (s.parental.unlocks[v]).any (·.remaining ≤ 1)
  endUnlocks done (s.modParental fun q => { q with
    unlocks := q.unlocks.map (Option.map fun u => { u with remaining := u.remaining - 1 }) })

/-- Some view slots take profiles (R140, R141, R143). -/
def assignProfiles (f : Fin 3 → Fin 8) (vs : List (Fin 3)) (s : State) : State :=
  forEach vs (fun v s => s.modSlot (viewSlot v) fun sl => { sl with profile := some (f v) }) s

/-- Some view slots take profiles, and their conditions are computed at once (R140, R141). -/
def takeProfiles (f : Fin 3 → Fin 8) (vs : List (Fin 3)) (s : State) : State :=
  updateConditions vs (assignProfiles f vs s)

/-- The 60-second hand-over: each profile whose remaining or lockout has changed since its unit was last
handed over (R128), ascending (log 31). -/
def writeDirtyProfiles (s : State) : State :=
  forEach allProfiles (fun p s => if s.parental.dirty[p] then s.handProfile p else s) s

end Sys2Proof.Machine
end

