-- ==== Sys2Proof/Machine/Access.lean ====
section
/-! DEFINITION. The access unit: the entitlement check, keys and held refused records, withdrawals
(sections 3.2 to 3.3, 4.1 to 4.4), expiries, the spend period (R89), entitlement records (section 4.3) and
the ACCESS notice (R101). -/

namespace Sys2Proof.Machine

open Sys2Proof

/-! ### Descrambler records by phase (R63) -/

/-- The key of a phase. -/
def Descrambler.key (d : Descrambler) : Phase → Option Key
  | .a => d.keyA
  | .b => d.keyB

/-- Sets the key of a phase. -/
def Descrambler.setKey (d : Descrambler) (p : Phase) (x : Option Key) : Descrambler :=
  match p with
  | .a => { d with keyA := x }
  | .b => { d with keyB := x }

/-- The held refused record of a phase. -/
def Descrambler.held (d : Descrambler) : Phase → Option Held
  | .a => d.heldA
  | .b => d.heldB

/-- Sets the held refused record of a phase. -/
def Descrambler.setHeld (d : Descrambler) (p : Phase) (x : Option Held) : Descrambler :=
  match p with
  | .a => { d with heldA := x }
  | .b => { d with heldB := x }

/-- Both keys discarded; the last decoded cell becomes absent (R63). -/
def Descrambler.dropKeys (d : Descrambler) : Descrambler :=
  { d with keyA := none, keyB := none, lastDecoded := none }

/-- Whether a valid key of either phase rests on a basis. -/
def Descrambler.restsOn (d : Descrambler) (b : Basis) : Bool :=
  d.keyA.any (·.basis == b) || d.keyB.any (·.basis == b)

/-! ### Withdrawals (R18, R85) -/

/-- A slot named by a withdrawal: both keys discarded and HELD(NOT_ENTITLED); its held refused records are kept
(R18, R85). -/
def withdrawKeys (k : Fin 5) (s : State) : State :=
  let sl := s.slot k
  let s := s.modSlot k fun sl => { sl with desc := sl.desc.dropKeys }
  if sl.state = .held ∧ sl.reason = .notEntitled then s
  else if sl.state = .acquiring ∨ sl.state = .presenting ∨ sl.state = .held then
    enterHeld .notEntitled k (s.modSlot k fun sl => { sl with keyTimer := none })
  else s

/-- A withdrawal names some slots: each loses its keys, and ENTITLED and PREVIEW of them all become 0 in one
report (R84, R85, R149). The slots move in ascending order (log 31) and before that report, by the model's choice
(log 42). -/
def withdrawFrom (ks : List (Fin 5)) (s : State) : State :=
  setEntitledAll ks false false (forEach ks withdrawKeys s)

/-- The slots that hold a valid key on a basis, ascending (R85). -/
def State.slotsOn (s : State) (b : Basis) : List (Fin 5) :=
  allSlots.filter fun k => (s.slot k).desc.restsOn b

/-- A withdrawal of TIER or GRANT names every slot whose keys rest on it (R85). -/
def withdraw (b : Basis) (s : State) : State := withdrawFrom (s.slotsOn b) s

/-- Whether an event is the slot's current event and now is in its preview window (R84). -/
def State.inPreview (s : State) (k : Fin 5) (id : Nat) : Bool :=
  match (s.slot k).cur, s.now? with
  | some e, some now => e.eid == id && now < e.start + 60 * e.preview
  | _, _ => false

/-- Whether a basis of one of a slot's keys is a preview window that has ended (R85). -/
def State.previewOver (s : State) (k : Fin 5) : Bool :=
  let ended (x : Option Key) : Bool := match x.map Key.basis with
    | some (Basis.preview id) => !s.inPreview k id
    | _ => false
  ended (s.slot k).desc.keyA || ended (s.slot k).desc.keyB

/-- The end of a slot's preview window withdraws PREVIEW from that slot (R85). -/
def endPreview (k : Fin 5) (s : State) : State :=
  if s.previewOver k then withdrawFrom [k] s else s

/-! ### The entitlement check (R66, R84) -/

/-- Whether a tier counts as held now (R74). -/
def State.tierHeld (s : State) (t : Fin 32) : Bool :=
  let x := s.access.tiers[t]
  x.held && match x.expiry, s.now? with
    | some e, some now => now < e
    | _, _ => true

/-- The basis on which a requirement is met for a slot, if it is (R84). -/
def State.basisOf (s : State) (k : Fin 5) : Requirement → Option Basis
  | .free => some .free
  | .tier t => if s.tierHeld t then some (.tier t) else none
  | .event id =>
    if s.access.grants.any (·.eid == id) then some (.grant id)
    else if s.inPreview k id then some (.preview id)
    else none

/-- Whether a basis is a preview window. -/
def Basis.isPreview : Basis → Bool
  | .preview _ => true
  | _ => false

/-- One check: the slot's conditions take the result, and a failure is counted (R64, R66). -/
def checkRequirement (k : Fin 5) (req : Requirement) (s : State) : Option Basis × State :=
  match s.basisOf k req with
  | some b => (some b, setEntitled k true b.isPreview s)
  | none =>
    (none, setEntitled k false (s.gate.src[k]).preview
      (s.modAccessCounters fun c => { c with notMet := c.notMet + 1 }))

/-- A control word accepted for a slot moves it by its state (R16, R18). -/
def acceptWord (k : Fin 5) (s : State) : State :=
  let sl := s.slot k
  if sl.state = .acquiring then
    chooseByPermit k (s.modSlot k fun sl => { sl with keyTimer := none })
  else if sl.state = .held ∧ (sl.reason = .notEntitled ∨ sl.reason = .keyLost) then
    chooseByPermit k s
  else s

/-- Stores a word as the key of its phase: it replaces any word, and discards the slot's held refused
record of the phase (R67). -/
def storeWord (k : Fin 5) (r : KeyRecord) (b : Basis) (w : KeyWord) (s : State) : State :=
  let s := s.modDesc k fun d =>
    (d.setKey r.phase (some { period := r.period, req := r.req, basis := b, word := w })).setHeld
      r.phase none
  acceptWord k (s.modAccessCounters fun c => { c with stored := c.stored + 1 })

/-- A met word compared with the key of its phase, modulo 65,536 (R67). -/
def takeWord (k : Fin 5) (r : KeyRecord) (b : Basis) (w : KeyWord) (s : State) : State :=
  match (s.slot k).desc.key r.phase with
  | none => storeWord k r b w s
  | some held =>
    let d := (r.period - held.period).toNat
    if d = 0 then s.modAccessCounters fun c => { c with duplicate := c.duplicate + 1 }
    else if d ≤ 32767 then storeWord k r b w s
    else s.modAccessCounters fun c => { c with stale := c.stale + 1 }

/-- A record whose requirement is not met becomes the slot's held refused record of its phase; in
ACQUIRING the slot enters HELD(NOT_ENTITLED) (R16, R68). -/
def refuseRecord (k : Fin 5) (h : Held) (s : State) : State :=
  let s := s.modDesc k fun d => d.setHeld h.record.phase (some h)
  if (s.slot k).state = .acquiring then
    enterHeld .notEntitled k (s.modSlot k fun sl => { sl with keyTimer := none })
  else s

/-- Opens a wrapped word with the device key; while the key is unusable every opening is REFUSED (R65). -/
def State.openWord (s : State) (w : KeyWord) : Option KeyWord :=
  if s.access.deviceKey = .unusable then none else Config.openWord w

/-- One opened record taken to one qualifying slot (R66). -/
def takeOpened (h : Held) (w : KeyWord) (k : Fin 5) (s : State) : State :=
  match checkRequirement k h.record.req s with
  | (some b, s) => takeWord k h.record b w s
  | (none, s) => refuseRecord k h s

/-- Whether a slot qualifies for a key record from a lane (R65). -/
def State.qualifies (s : State) (l : Fin 3) (sid : Nat) (k : Fin 5) : Bool :=
  let sl := s.slot k
  (sl.state == .acquiring || sl.state == .presenting || sl.state == .held)
    && sl.lane == some l && sl.service == some sid && s.isScrambled k

/-- A KEY record that passes R62: opened once and taken to each qualifying slot, in ascending order and each as it
stands when the record reaches it (R65, log 31). -/
def takeKeyRecord (l : Fin 3) (r : KeyRecord) (s : State) : State :=
  let ks := allSlots.filter (s.qualifies l r.sid)
  if ks.isEmpty then s.modAccessCounters fun c => { c with unclaimed := c.unclaimed + 1 }
  else match s.openWord r.wrapped with
    | none => s.modAccessCounters fun c => { c with openRefused := c.openRefused + 1 }
    | some w =>
      forEach ks (fun k s =>
        if s.qualifies l r.sid k then takeOpened { record := r, lane := l } w k s else s) s

/-! ### Re-examination and rebasing (R69, R86) -/

/-- The held refused record of one phase of one slot, re-examined (R69). It is opened first, and no check of the
requirement is made of one that is REFUSED (R66, log 33). -/
def reexaminePhase (k : Fin 5) (p : Phase) (s : State) : State :=
  match (s.slot k).desc.held p with
  | none => s
  | some h =>
    match s.openWord h.record.wrapped with
    | none =>
      (s.modDesc k fun d => d.setHeld p none).modAccessCounters fun c =>
        { c with openRefused := c.openRefused + 1 }
    | some w =>
      match checkRequirement k h.record.req s with
      | (some b, s) => takeWord k h.record b w (s.modDesc k fun d => d.setHeld p none)
      | (none, s) => s

/-- Every present held refused record of every slot, slots ascending and phases A then B (R69, R86). -/
def reexamine (s : State) : State :=
  forEach allSlots (fun k s => reexaminePhase k .b (reexaminePhase k .a s)) s

/-- A key of basis PREVIEW takes the basis GRANT of the same event (R86). -/
def Key.rebase (id : Nat) (x : Key) : Key :=
  if x.basis = .preview id then { x with basis := .grant id } else x

/-- A new grant rebases the keys of its event's preview; each slot so changed has PREVIEW 0 and ENTITLED 1, in
one report (R86, R149). -/
def rebase (id : Nat) (s : State) : State :=
  let ks := s.slotsOn (.preview id)
  setEntitledAll ks true false (forEach ks (fun k s => s.modDesc k fun d =>
    { d with keyA := d.keyA.map (Key.rebase id), keyB := d.keyB.map (Key.rebase id) }) s)

/-! ### The ACCESS notice (R101) -/

/-- The tiers, ascending. -/
def allTiers : List (Fin 32) := List.finRange 32

/-- The number of tiers that count as held (R99, R101). -/
def State.tiersHeld (s : State) : Nat := (allTiers.filter s.tierHeld).length

/-- The cause of an ACCESS notice, with the kind or sequence number that goes with it (log 10). -/
inductive AccessCause where
  | record (kind : Nat)
  | expiry
  | purchase (seq : Nat)
deriving DecidableEq, Repr

/-- A cause's bytes (log 10). -/
def AccessCause.bytes : AccessCause → List Byte
  | .record k => u8 0 ++ u32 k
  | .expiry => u8 1 ++ u32 0
  | .purchase n => u8 2 ++ u32 n

/-- The fields of an ACCESS notice (R101). -/
def accessNoticeBytes (c : AccessCause) (s : State) : List Byte :=
  c.bytes ++ i32 s.access.purse.balance ++ u16 s.access.purse.limit ++ u8 s.tiersHeld
    ++ u8 s.access.grants.length ++ u8 s.access.purchases.length ++ u32 s.access.purse.lastIssue

/-- Raises the ACCESS notice (R101). -/
def State.accessNotice (c : AccessCause) (s : State) : State :=
  s.raise .access none (accessNoticeBytes c s)

/-! ### Expiry at boundaries (R75, R76) -/

/-- Whether a tier has expired at a time (R75). -/
def Tier.expired (now : Nat) (t : Tier) : Bool := t.held && t.expiry.any (· ≤ now)

/-- The tiers that have expired now: cleared and withdrawn, one unit and one notice (R75), the notice after the
withdrawals by the model's choice (log 45). -/
def expireTiers (s : State) : State :=
  match s.now? with
  | none => s
  | some now =>
    let gone := allTiers.filter fun t => (s.access.tiers[t]).expired now
    if gone.isEmpty then s
    else
      let s := s.modAccess fun a => { a with
        tiers := a.tiers.map fun t => if t.expired now then {} else t }
      ((forEach gone (fun t => withdraw (.tier t)) s).handTiers).accessNotice .expiry

/-- The grants whose end time plus 300 s has come: removed and withdrawn, one unit and one notice (R76), the notice
after the withdrawals by the model's choice (log 45). -/
def expireGrants (s : State) : State :=
  match s.now? with
  | none => s
  | some now =>
    let gone := s.access.grants.filter fun g => g.endTime + 300 ≤ now
    if gone.isEmpty then s
    else
      let s := s.modAccess fun a => { a with
        grants := a.grants.filter fun g => now < g.endTime + 300 }
      ((forEach gone (fun g => withdraw (.grant g.eid)) s).handGrants).accessNotice .expiry

/-! ### The spend period (R89) -/

/-- The start of the spend period that contains a time (R89). -/
def Purse.periodAt (p : Purse) (now : Nat) : Int :=
  let len : Int := (p.period : Int) * 86400
  (p.anchor : Int) + ((now : Int) - (p.anchor : Int)) / len * len

/-- Sets a profile's period spend to 0, handing its unit over if it was above 0 (R82, R89). -/
def clearSpend (p : Fin 8) (s : State) : State :=
  if (s.profile p).spend = 0 then s
  else (s.modProfile p fun r => { r with spend := 0 }).handProfile p

/-- Whether the period that starts at a time is later than the recorded one, or none is recorded (R89; for
TERMS_SET log 35). -/
def Purse.newPeriod (p : Purse) (start : Int) : Bool :=
  match p.periodStart with
  | none => true
  | some r => r < start

/-- The spend-period rollover (R89). -/
def rollover (s : State) : State :=
  match s.now? with
  | none => s
  | some now =>
    let start := s.access.purse.periodAt now
    if s.access.purse.newPeriod start then
      ((forEach allProfiles clearSpend s).modPurse fun p =>
        { p with periodStart := some start }).handAccess
    else s

/-! ### Entitlement records (R77 to R83) -/

/-- The kinds of an ENTITLEMENT record with their fields (R77). -/
inductive EntKind where
  | tierSet (tier : Fin 32) (expiry : Option Nat)
  | tierClear (tier : Fin 32)
  | creditAdd (amount : Nat)
  | limitSet (limit : Nat)
  | termsSet (grace floor period anchor : Nat)
  | release (through : Nat)
deriving DecidableEq, Repr

/-- The number of an entitlement kind (R192). -/
def EntKind.code : EntKind → Nat
  | .tierSet _ _ => 0 | .tierClear _ => 1 | .creditAdd _ => 2 | .limitSet _ => 3
  | .termsSet _ _ _ _ => 4 | .release _ => 5

/-- CREDIT_ADD: the balance rises, held at 8,388,607, and what did not fit is counted (R81). -/
def Purse.credit (amount : Nat) (p : Purse) : Purse :=
  let sum := p.balance + (amount : Int)
  if 8388607 < sum then
    { p with balance := 8388607
             clipped := p.clipped + BitVec.ofNat 32 (sum - 8388607).toNat }
  else { p with balance := sum }

/-- LIMIT_SET: the larger of the record's limit and the present debt (R81). -/
def Purse.setLimit (limit : Nat) (p : Purse) : Purse :=
  { p with limit := max limit (-p.balance).toNat }

/-- TERMS_SET's change of the four terms (R82). -/
def Purse.setTerms (grace floor period anchor : Nat) (p : Purse) : Purse :=
  { p with grace := grace, floor := floor, period := period, anchor := anchor }

/-- The sum of some charges, modulo 2^32. -/
def chargeSum (l : List Purchase) : Word :=
  l.foldl (fun acc r => acc + BitVec.ofNat 32 r.charge) 0

/-- RELEASE: the records at or below the number leave, their charges are collected, and the released-
through number rises, held below the next sequence number (R83). -/
def Access.release (through : Nat) (a : Access) : Access :=
  { a with
    purchases := a.purchases.filter fun r => through < r.seq
    purse := { a.purse with
      collected := a.purse.collected + chargeSum (a.purchases.filter fun r => r.seq ≤ through)
      releasedThrough := max a.purse.releasedThrough (min through (a.purse.nextSeq - 1)) } }

/-- TERMS_SET: a later spend period clears the spends; the recorded start becomes the new period's, if the
clock is known (R82). With no start recorded it clears them too (log 35). -/
def applyTerms (grace floor period anchor : Nat) (s : State) : State :=
  let s := s.modPurse (Purse.setTerms grace floor period anchor)
  match s.now? with
  | none => s
  | some now =>
    let start := s.access.purse.periodAt now
    let s := if s.access.purse.newPeriod start then forEach allProfiles clearSpend s else s
    s.modPurse fun p => { p with periodStart := some start }

/-- The effect of an entitlement kind, with the units it touches but the access unit's (R79 to R83). -/
def applyKind (e : EntKind) (s : State) : State :=
  match e with
  | .tierSet t expiry =>
    reexamine ((s.modAccess fun a => { a with tiers := a.tiers.set t ⟨true, expiry⟩ }).handTiers)
  | .tierClear t =>
    let was := s.tierHeld t
    let s := (s.modAccess fun a => { a with tiers := a.tiers.set t ⟨false, none⟩ }).handTiers
    if was then withdraw (.tier t) s else s
  | .creditAdd n => s.modPurse (Purse.credit n)
  | .limitSet n => s.modPurse (Purse.setLimit n)
  | .termsSet g f p a => applyTerms g f p a s
  | .release n => s.modAccess (Access.release n)

/-- An ENTITLEMENT record applied: its issue number, its kind's effect, the access unit handed over last,
the ACCESS notice (R78, R79, R178). -/
def applyEntitlement (issue : Nat) (e : EntKind) (s : State) : State :=
  let s := (s.modPurse fun p => { p with lastIssue := issue }).modAccessCounters fun c =>
    { c with entApplied := c.entApplied + 1 }
  ((applyKind e s).handAccess).accessNotice (.record e.code)

/-- An ENTITLEMENT record as the access unit finds it: its address, issue number and fields if they pass
R77, and whether its authenticator verifies. -/
structure EntRecord where
  address : Word
  issue : Nat
  kind : Option EntKind
  authentic : Bool
deriving DecidableEq, Repr

/-- The examination of an ENTITLEMENT record in the order of R78. -/
def takeEntitlement (r : EntRecord) (s : State) : State :=
  if s.access.deviceKey = .unusable then
    s.modAccessCounters fun c => { c with entKeyOff := c.entKeyOff + 1 }
  else match r.kind with
    | none => s.streamRecordBad
    | some e =>
      if r.address ≠ Config.boxAddress then
        s.modAccessCounters fun c => { c with entOtherAddress := c.entOtherAddress + 1 }
      else if !r.authentic then
        s.modAccessCounters fun c => { c with entAuthFailed := c.entAuthFailed + 1 }
      else if r.issue ≤ s.access.purse.lastIssue then
        s.modAccessCounters fun c => { c with entStale := c.entStale + 1 }
      else applyEntitlement r.issue e s

/-! ### The charge (R90 to R92) -/

/-- The window in which an event may be bought (R90). Differences keep their sign. -/
def onAir (start duration now : Nat) : Bool :=
  (start : Int) - 86400 ≤ (now : Int) && now < start + 60 * duration

/-- The charge E of an event of a start, duration and price at a time (R91). -/
def chargeOf (start duration price : Nat) (prorate : Bool) (grace floor now : Nat) : Nat :=
  let ds := 60 * duration
  if !prorate ∨ (now : Int) - (start : Int) ≤ 60 * (grace : Int) then price
  else
    let r := start + ds - now
    min price (max ((price * r + ds - 1) / ds) floor)

/-- The cap test (R92). -/
def capExceeded (p : Profile) (e : Nat) : Bool := p.cap.any fun c => c < p.spend + e

/-- The purse test (R92). -/
def creditShort (p : Purse) (e : Nat) : Bool := p.balance - (e : Int) < -(p.limit : Int)

end Sys2Proof.Machine
end

