-- ==== Sys2Proof/Machine/Guide.lean ====
section
/-! DEFINITION. The guide store and its check unit (chapter 5), with what its reports do to the current
events of the slots (R26, R27) and to the orphan flags of the schedule (R165). -/

namespace Sys2Proof.Machine

open Sys2Proof

/-! ### Entries and places (R102) -/

/-- An event's end: start plus 60 times the duration (R102). -/
def GuideEvent.stop (e : GuideEvent) : Nat := e.start + 60 * e.duration

/-- Whether an event is on air at a time (R26, R102). -/
def GuideEvent.onAirAt (e : GuideEvent) (now : Nat) : Bool := e.start ≤ now && now < e.stop

/-- Two events overlap when each starts before the other ends (R102). -/
def GuideEvent.overlaps (a b : GuideEvent) : Bool := a.start < b.stop && b.start < a.stop

/-- The entry of a place as its fields are listed, in the order of GUIDE_PUT (R122). -/
def GuideEvent.bytes (e : GuideEvent) : List Byte :=
  u16 e.sid ++ u32 e.eid ++ u8 e.version ++ u32 e.start ++ u16 e.duration ++ u8 e.rating
    ++ opt 2 u16 e.price ++ flag e.purchasable ++ flag e.prorate ++ u8 e.preview ++ u32 e.title

/-- The places of a service, in order of start (R102). -/
def Guide.ofService (g : Guide) (sid : Nat) : List Place :=
  sortBy (·.ev.start) (g.places.filter fun p => p.ev.sid == sid)

/-- The place of an event of a service (R105). -/
def Guide.placeOf (g : Guide) (sid eid : Nat) : Option Place :=
  g.places.find? fun p => p.ev.sid == sid && p.ev.eid == eid

/-- The place of a service's event on air (R26). -/
def Guide.onAirOf (g : Guide) (sid now : Nat) : Option Place :=
  g.places.find? fun p => p.ev.sid == sid && p.ev.onAirAt now

/-- The services with entries, ascending. -/
def Guide.services (g : Guide) : List Nat :=
  g.places.foldl (fun l p => keyPut id p.ev.sid l) []

/-- The lowest-numbered empty place of an ascending list of occupied ones (R106). -/
def lowestFree : Nat → List Place → Nat
  | n, [] => n
  | n, p :: l => if p.num = n then lowestFree (n + 1) l else n

/-- The latest-starting entry, in the highest-numbered place among equals (R106). -/
def Guide.latest (g : Guide) : Option Place :=
  g.places.foldl (fun best p => match best with
    | none => some p
    | some b => if b.ev.start ≤ p.ev.start then some p else some b) none

/-- Empties a place: the entry leaves the directory, and a pending rewrite of it is cancelled (R108,
R113). -/
def Guide.remove (n : Nat) (g : Guide) : Guide :=
  { g with
    places := keyDrop (·.num) n g.places
    scrub := g.scrub.filter fun r => r.place != n }

/-- Writes an event in a place with a fresh check code (R106). -/
def Guide.write (n : Nat) (e : GuideEvent) (g : Guide) : Guide :=
  { g with places := keyPut (·.num) { num := n, ev := e } g.places }

/-! ### What a report does (R107) -/

/-- The slots, not FREE, whose service is a given one. -/
def State.slotsOf (s : State) (sid : Nat) : List (Fin 5) :=
  allSlots.filter fun k => (s.slot k).state != .free && (s.slot k).service == some sid

/-- The current event as the switch engine keeps it (R27). -/
def GuideEvent.current (e : GuideEvent) : CurEvent :=
  { eid := e.eid, version := e.version, start := e.start, duration := e.duration,
    rating := e.rating, price := e.price, preview := e.preview }

/-- A slot's current event becomes a given one. A change is handed to the parental unit, which judges the
rating, and to the access unit, where a preview may end (R27, R85), in that order by the model's choice (log 42). -/
def setCurrent (k : Fin 5) (e : Option CurEvent) (s : State) : State :=
  if (s.slot k).cur = e then s
  else endPreview k (updateRating k (s.modSlot k fun sl => { sl with cur := e }))

/-- What reads an entry through the check unit: a place number, to its contents if it can be used. -/
abbrev Reader := Nat → State → Option GuideEvent × State

/-- The current event of a slot determined afresh (R26). An entry that the read finds uncorrectable is
removed, and the determination that its report makes has then been made. -/
def determineWith (read : Reader) (k : Fin 5) (s : State) : State :=
  match (s.slot k).service, s.now? with
  | some sid, some now =>
    match s.guide.onAirOf sid now with
    | some p => match read p.num s with
      | (some e, s) => setCurrent k (some e.current) s
      | (none, s) => s
    | none => setCurrent k none s
  | _, _ => setCurrent k none s

/-- An ARMED or RUNNING entry tied to an event. -/
def Entry.tiedTo (sid eid : Nat) (e : Entry) : Bool :=
  (e.state == .armed || e.state == .running) && match e.trigger with
    | .atEvent s i _ => s == sid && i == eid
    | _ => false

/-- The schedule entries tied to a removed event become orphans (R165). -/
def orphanEntries (sid eid : Nat) (s : State) : State :=
  { s with schedule := s.schedule.map fun e => if e.tiedTo sid eid then { e with orphan := true } else e }

/-- A change of a service's entries reaches the switch engine: the current event of every slot on the
service is determined afresh, slots ascending (R26, R107, log 31). -/
def touchedWith (read : Reader) (sid : Nat) (s : State) : State :=
  forEach (s.slotsOf sid) (determineWith read) s

/-- The report of a removal, handed to the switch engine and the schedule unit (R107). -/
def reportRemovalWith (read : Reader) (e : GuideEvent) (s : State) : State :=
  orphanEntries e.sid e.eid (touchedWith read e.sid s)

/-! ### The GUIDE notice (R125) -/

/-- The cause of a GUIDE notice; the numbers are the model's (log 10). -/
inductive GuideCause where
  | damage | sweepDone
deriving DecidableEq, Repr

/-- The number of a cause (log 10). -/
def GuideCause.code : GuideCause → Nat
  | .damage => 0 | .sweepDone => 1

/-- The fields of a GUIDE notice (R125). -/
def guideNoticeBytes (c : GuideCause) (s : State) : List Byte :=
  u8 c.code ++ w32 s.guide.counters.damaged ++ w32 s.sweep.rounds
    ++ opt 6 (fun p => u16 p.1 ++ u32 p.2) s.guide.lastDamaged ++ u16 s.guide.places.length

/-- Raises the GUIDE notice (R125). -/
def State.guideNotice (c : GuideCause) (s : State) : State := s.raise .guide none (guideNoticeBytes c s)

/-! ### The check unit (R112 to R115) -/

/-- The three results of a read (R112). -/
inductive Read where
  | clean | corrected | uncorrectable
deriving DecidableEq, Repr

/-- What the check unit finds at a place. The pending place is served from the register (R113). -/
def Guide.check (g : Guide) (p : Place) : Read :=
  if g.scrub.any fun r => r.place == p.num then .clean
  else if p.disturbed = 0 then .clean
  else if p.disturbed = 1 then .corrected
  else .uncorrectable

/-- Counts a CORRECTED read in the fault summary (R113). -/
def State.countCorrected (s : State) : State :=
  s.setFault .guideCorrected fun f => { f with guideCorrected := bump f.guideCorrected }

/-- Records the place of a second correctable error (R114). -/
def State.guideSecond (n : Nat) (s : State) : State :=
  s.setFault .guideSecond fun f => { f with guideSecond := some n }

/-- Records a lost entry (R115). -/
def State.guideLost (n : Nat) (s : State) : State :=
  s.setFault .guideLostEntry fun f =>
    { f with guideLost := some (n, (f.guideLost.map (·.2)).getD 0 + 1) }

/-- A CORRECTED read: counted, and the rewrite posted, or a second error recorded (R113, R114). -/
def noteCorrected (p : Place) (s : State) : State :=
  let s := s.countCorrected
  match s.guide.scrub with
  | none => s.modGuide fun g =>
      { g with scrub := some { place := p.num, contents := p.ev, due := s.clock.uptimeMs + 1 } }
  | some _ => s.guideSecond p.num

/-- An UNCORRECTABLE read removes the entry: reported, recorded and noticed (R115). -/
def damageWith (read : Reader) (p : Place) (s : State) : State :=
  let s := s.modGuide fun g => { Guide.remove p.num g with
    counters := { g.counters with damaged := g.counters.damaged + 1 }
    lastDamaged := some (p.ev.sid, p.ev.eid) }
  ((reportRemovalWith read p.ev s).guideLost p.num).guideNotice .damage

/-- A read of a place through the check unit, with all it brings about (R112 to R115). The bound counts the
removals that a removal can bring about, of which there are no more than entries. -/
def readBound : Nat → Reader
  | 0, _, s => (none, s)
  | bound + 1, n, s =>
    match keyFind (·.num) n s.guide.places with
    | none => (none, s)
    | some p => match s.guide.check p with
      | .clean => (some p.ev, s)
      | .corrected => (some p.ev, noteCorrected p s)
      | .uncorrectable => (none, damageWith (readBound bound) p s)

/-- A read of a place through the check unit (R112). -/
def readPlace : Reader := fun n s => readBound (s.guide.places.length + 1) n s

/-- The current event of a slot determined afresh (R26). -/
def determine (k : Fin 5) (s : State) : State := determineWith readPlace k s

/-- The report of a removal (R107). -/
def reportRemoval (e : GuideEvent) (s : State) : State := reportRemovalWith readPlace e s

/-- A change of a service's entries reaches the switch engine (R26, R107). -/
def touched (sid : Nat) (s : State) : State := touchedWith readPlace sid s

/-- The pending rewrite completes (R113). -/
def Guide.scrubDone (g : Guide) : Guide :=
  match g.scrub with
  | none => g
  | some r => { Guide.write r.place r.contents g with scrub := none }

/-- A visit of the patrol (R116). -/
def patrol (s : State) : State :=
  let s := (readPlace s.guide.patrol s).2
  s.modGuide fun g =>
    { g with patrol := (g.patrol + 1) % 2048, patrolDue := some (s.clock.uptimeMs + 50) }

/-! ### Taking an event (R105, R106) -/

/-- What became of an event taken (R105, R106). Displaced events are named in order of start. -/
inductive Taken where
  | past
  | duplicate
  | placed (replaced : Bool) (displaced : List Nat) (evicted : Option (Nat × Nat))
  | dropped
deriving DecidableEq, Repr

/-- Adds one placing to the counters (R105, R106). -/
def GuideCounters.place (replaced : Bool) (displaced : Nat) (evicted : Bool) (c : GuideCounters) :
    GuideCounters :=
  { c with
    inserted := c.inserted + 1
    replaced := if replaced then c.replaced + 1 else c.replaced
    displaced := c.displaced + BitVec.ofNat 32 displaced
    evicted := if evicted then c.evicted + 1 else c.evicted }

/-- An event placed in the lowest empty place, some entries having been removed for it; their removals are
reported, then the placement to the switch engine (R106, R107, log 27). -/
def putEvent (e : GuideEvent) (old : Option Place) (hit : List Place) (out : Option Place)
    (s : State) : State :=
  let gone := old.toList ++ hit ++ out.toList
  let s := s.modGuide fun g =>
    let g := gone.foldl (fun g p => Guide.remove p.num g) g
    { Guide.write (lowestFree 0 g.places) e g with
      counters := g.counters.place old.isSome hit.length out.isSome }
  touched e.sid (forEach (gone.map (·.ev)) reportRemoval s)

/-- The placing of R106: the old version, if any, has been found different. -/
def placeEvent (e : GuideEvent) (old : Option Place) (s : State) : Taken × State :=
  let hit := (s.guide.ofService e.sid).filter fun p =>
    p.ev.overlaps e && !(old.any fun o => o.num == p.num)
  if old.isSome || !hit.isEmpty || s.guide.places.length < 2048 then
    (.placed old.isSome (hit.map (·.ev.eid)) none, putEvent e old hit none s)
  else match s.guide.latest with
    | some p =>
      if e.start < p.ev.start then
        (.placed false [] (some (p.ev.sid, p.ev.eid)), putEvent e none [] (some p) s)
      else (.dropped, s.modGuideCounters fun c => { c with droppedFull := c.droppedFull + 1 })
    | none => (.dropped, s.modGuideCounters fun c => { c with droppedFull := c.droppedFull + 1 })

/-- Whether an event that ended is already past (R105, R109). -/
def State.isPast (s : State) (e : GuideEvent) : Bool :=
  s.now?.any fun now => e.stop + 3600 ≤ now

/-- An event that has passed its checks, taken by the first case of R105 that applies. The schedule unit's
part of the placement's report is the schedule unit's. -/
def takeGuide (e : GuideEvent) (s : State) : Taken × State :=
  if s.isPast e then (.past, s.modGuideCounters fun c => { c with past := c.past + 1 })
  else match s.guide.placeOf e.sid e.eid with
    | none => placeEvent e none s
    | some p => match readPlace p.num s with
      | (none, s) => placeEvent e none s
      | (some old, s) =>
        if old.version = e.version then
          (.duplicate, s.modGuideCounters fun c => { c with duplicate := c.duplicate + 1 })
        else placeEvent e (some p) s

/-! ### Removing (R108, R109) -/

/-- Removes an entry by its names, without reading it; false if there is none (R108). -/
def cancelEvent (sid eid : Nat) (s : State) : Bool × State :=
  match s.guide.placeOf sid eid with
  | none => (false, s)
  | some p =>
    (true, reportRemoval p.ev (s.modGuide fun g => { Guide.remove p.num g with
      counters := { g.counters with cancelled := g.counters.cancelled + 1 } }))

/-- A GUIDE_CANCEL record (R108). -/
def takeCancel (sid eid : Nat) (s : State) : State :=
  match cancelEvent sid eid s with
  | (true, s) => s
  | (false, s) => s.modGuideCounters fun c => { c with cancelUnknown := c.cancelUnknown + 1 }

/-- A due entry pruned: read, removed and reported. A corrected read is counted and posts no rewrite
(R109). -/
def prunePlace (p : Place) (s : State) : State :=
  let drop (s : State) : State := reportRemoval p.ev (s.modGuide fun g => { Guide.remove p.num g with
    counters := { g.counters with pruned := g.counters.pruned + 1 } })
  match s.guide.check p with
  | .clean => drop s
  | .corrected =>
    let s := s.countCorrected
    drop (if s.guide.scrub.isSome then s.guideSecond p.num else s)
  | .uncorrectable => damageWith readPlace p s

/-- The pruning scan: for each service, its entries in order of start up to the first not yet due (R109). The
services are taken in ascending order (log 37). -/
def prune (s : State) : State :=
  forEach (s.guide.services.flatMap fun sid =>
    (s.guide.ofService sid).takeWhile fun p => s.isPast p.ev) prunePlace s

/-! ### Queries (R122, R123) -/

/-- Reads places in turn until a number of entries has been returned; what cannot be used is left out
(R122). -/
def readEntries : Nat → List Nat → State → List GuideEvent × State
  | 0, _, s => ([], s)
  | _, [], s => ([], s)
  | count + 1, n :: rest, s =>
    match readPlace n s with
    | (none, s) => readEntries (count + 1) rest s
    | (some e, s) =>
      let r := readEntries count rest s
      (e :: r.1, r.2)

/-- Reads the first of a service's entries that meets a test, the test being made again without an entry
found uncorrectable (R123). -/
def readFirst (sid : Nat) (test : GuideEvent → Bool) (s : State) : Option GuideEvent × State :=
  let r := readEntries 1 (((s.guide.ofService sid).filter fun p => test p.ev).map (·.num)) s
  (r.1.head?, r.2)

/-- Reads an event of a service by its names (R93, R167). -/
def readNamed (sid eid : Nat) (s : State) : Option GuideEvent × State :=
  match s.guide.placeOf sid eid with
  | none => (none, s)
  | some p => readPlace p.num s

end Sys2Proof.Machine
end

