-- ==== Sys2Proof/Machine/Lanes.lean ====
section
/-! DEFINITION. The filter table (section 3.1), the lane controllers (sections 2.2 to 2.5), the lane arbiter
(section 2.6), the guide sweep (section 5.4) and the home hold, with what their events do to the slots
(R13 to R16, R20 to R22). -/

namespace Sys2Proof.Machine

open Sys2Proof

/-! ### The filter table (R56, R57) -/

/-- The key of a filter entry: its lane and tag. -/
def Filter.key (f : Filter) : Nat := f.lane.val * 1024 + f.tag

/-- The four control entries of a lane (R56). -/
def controlFilters (l : Fin 3) : List Filter :=
  [{ lane := l, tag := 1, dest := .consumer .key },
   { lane := l, tag := 2, dest := .consumer .entitlement },
   { lane := l, tag := 3, dest := .consumer .guide },
   { lane := l, tag := 4, dest := .consumer .time }]

/-- Installs a lane's control entries (R57). -/
def Router.installControl (l : Fin 3) (r : Router) : Router :=
  { r with filters := (controlFilters l).foldl (fun fs f => keyPut Filter.key f fs) r.filters }

/-- Removes a lane's control entries (R57). -/
def Router.removeControl (l : Fin 3) (r : Router) : Router :=
  { r with filters := r.filters.filter fun f => !(f.lane == l && f.tag ≤ 4) }

/-- A slot set with a slot added, ascending. -/
def addSlot (k : Fin 5) (ks : List (Fin 5)) : List (Fin 5) :=
  if ks.contains k then ks else insertBy (·.val) k ks

/-- Adds a slot to the entry of a lane and component tag, installing the entry if there is none (R57). -/
def Router.installTag (k : Fin 5) (l : Fin 3) (tag : Nat) (r : Router) : Router :=
  match keyFind Filter.key (l.val * 1024 + tag) r.filters with
  | some { dest := .slots ks, last, .. } =>
    { r with filters := keyPut Filter.key { lane := l, tag, dest := .slots (addSlot k ks), last } r.filters }
  | _ => { r with filters := keyPut Filter.key { lane := l, tag, dest := .slots [k] } r.filters }

/-- One entry without a slot; none if its slot set becomes empty (R57). -/
def Filter.without (k : Fin 5) (f : Filter) : Option Filter :=
  match f.dest with
  | .consumer _ => some f
  | .slots ks =>
    let ks := ks.filter (· != k)
    if ks.isEmpty then none else some { f with dest := .slots ks }

/-- Removes a slot from every entry that names it and whose tag is not kept (R57). -/
def Router.removeSlot (k : Fin 5) (kept : List Nat) (r : Router) : Router :=
  { r with filters := r.filters.filterMap fun f =>
      if kept.contains f.tag then some f else f.without k }

/-- The tags of a slot's service, as the map lists them. -/
def State.tagsOf (s : State) (k : Fin 5) : List Nat :=
  ((s.serviceOf k).map fun v => v.comps.map (·.tag)).getD []

/-- Installs the component entries of a slot on its lane (R13, R14, R57). -/
def installSlot (k : Fin 5) (s : State) : State :=
  match (s.slot k).lane with
  | none => s
  | some l => s.modRouter fun r => (s.tagsOf k).foldl (fun r t => r.installTag k l t) r

/-! ### Slots and their lanes -/

/-- The slots that are users of a lane, ascending (R48). -/
def State.slotUsers (s : State) (l : Fin 3) : List (Fin 5) :=
  allSlots.filter fun k => (s.slot k).lane == some l

/-- Whether the home hold is a user of a lane. -/
def State.homeOn (s : State) (l : Fin 3) : Bool := s.arb.home == .holding l

/-- Whether the sweep is a user of a lane. -/
def State.sweepOn (s : State) (l : Fin 3) : Bool := s.sweep.lane == some l

/-- The user count of a lane (R48). -/
def State.userCount (s : State) (l : Fin 3) : Nat :=
  (s.slotUsers l).length + (s.homeOn l).toNat + (s.sweepOn l).toNat

/-- The priority of a slot (R48). -/
def slotPriority (k : Fin 5) : Nat := if k.val = 0 then 2 else if k.val ≤ 2 then 1 else 3

/-- The priority of a claimant that can wait (R48). -/
def Claimant.priority : Claimant → Nat
  | .slot k => slotPriority k
  | .home => 1

/-- The priority of a lane: the highest among its users (R48). -/
def State.lanePriority (s : State) (l : Fin 3) : Option Nat :=
  if s.userCount l = 0 then none
  else some (max ((s.slotUsers l).foldl (fun m k => max m (slotPriority k)) 0) (s.homeOn l).toNat)

/-- A slot leaves its filters: entries, keys, held refused records and key timer go (R11, R24, R57, R63). -/
def dropFilters (k : Fin 5) (s : State) : State :=
  (s.modRouter (Router.removeSlot k [])).modSlot k fun sl => { sl with desc := {}, keyTimer := none }

/-- The conditions that follow a slot's lane, origin and keys, after it left its keys (R84, R149). The switch
engine's LOCKED, SIGNAL_OK and SCHEDULED come before the access unit's ENTITLED and PREVIEW; the manual leaves the
order of different blocks open, and this is the model's choice (log 42). Where one step takes several slots off their
lanes, each slot has a report of its own, the model's choice too (log 47). -/
def reportLeft (k : Fin 5) (s : State) : State := setEntitled k false false (syncSlots [k] s)

/-- The RUNNING entry whose slot a slot is, under SCHEDULE origin (R164). -/
def State.runner (s : State) (k : Fin 5) : Option (Fin 24) :=
  match (s.slot k).origin with
  | .user => none
  | .schedule n => match (s.entry n).state, (s.entry n).action with
    | .running, .record j _ _ => if j = k then some n else none
    | _, _ => none

/-- The schedule unit is told that a slot has faulted or left: an interruption, and 30 s to the retry
(R164). -/
def tellInterrupted (k : Fin 5) (s : State) : State :=
  match s.runner k with
  | none => s
  | some n => s.modEntry n fun e => { e with
      interruptions := min 255 (e.interruptions + 1), retry := some (s.clock.uptimeMs + 30000) }

/-- A slot enters FAULTED with a reason. Its lane is left; the lane itself is the caller's (R16, R20, R21,
R6, R23). -/
def faultSlot (r : Reason) (k : Fin 5) (s : State) : State :=
  let s := (dropFilters k s).modSlot k fun sl =>
    { sl with state := .faulted, reason := r, lane := none }
  (tellInterrupted k (reportLeft k s)).slotNotice k

/-- A slot enters ACQUIRING and, on a CLEAR service, leaves it at once (R15, R16, R84). Its lane's conditions have
been reported, and ENTITLED comes after them by the model's choice (log 42). -/
def enterAcquiring (k : Fin 5) (s : State) : State :=
  let s := installSlot k (s.modSlot k fun sl => { sl with state := .acquiring })
  if s.isClear k then chooseByPermit k (setEntitled k true false s)
  else s.modSlot k fun sl => { sl with keyTimer := some (s.clock.uptimeMs + 3000) }

/-- A slot takes the grant of a lane (R13). -/
def joinSlot (k : Fin 5) (l : Fin 3) (s : State) : State :=
  if (s.lane l).isLocked then
    enterAcquiring k (syncSlots [k]
      (s.modSlot k fun sl => { sl with lane := some l, state := .acquiring }))
  else syncSlots [k] (s.modSlot k fun sl => { sl with lane := some l, state := .tuning })

/-! ### The lane controller (R36, R47) -/

/-- The entry of a carrier index. -/
def State.carrier? (s : State) (c : Nat) : Option Carrier := keyFind (·.index) c s.carriers

/-- The quality class of a lane's carrier (R42). A lane that a sweep has on a carrier no longer in the table, which no
rule gives a class, is graded by a class of default parameters, the model's choice (log 43). -/
def State.classOf (s : State) (l : Fin 3) : QClass :=
  match (s.lane l).carrier.bind s.carrier? with
  | some c => s.classes[c.cls]
  | none => {}

/-- Quality state cleared and timers stopped (R36, R45, R52). -/
def Lane.clear (x : Lane) : Lane :=
  { x with seekTimer := none, silenceTimer := none, accSum := 0, accCount := 0, accN := none,
           grade := none, lastAverage := none, poorRun := 0 }

/-- A lane starts a seek of a carrier (R36). The frequency of a carrier no longer in the table is 0, the model's
choice (log 43). -/
def startSeek (l : Fin 3) (c : Nat) (s : State) : State :=
  let s := s.modRouter (Router.removeControl l)
  let s := s.modLane l fun x => { x.clear with
    order := x.order + 1, state := .seeking, carrier := some c,
    seekTimer := some (s.clock.uptimeMs + 1500) }
  let s := s.emit (.tuneOrder l (((s.carrier? c).map (·.freq)).getD 0) (s.lane l).order)
  syncSlots (s.slotUsers l) s

/-- The event of a LANE notice; the numbers are the model's (log 10). -/
inductive LaneEvent where
  | locked
  | lost (cause : LossCause)
  | off
deriving DecidableEq, Repr

/-- The number of an event (log 10). -/
def LaneEvent.code : LaneEvent → Nat
  | .locked => 0 | .lost _ => 1 | .off => 2

/-- The cause of a loss. -/
def LaneEvent.cause : LaneEvent → Option LossCause
  | .lost c => some c
  | _ => none

/-- The fields of a LANE notice (R47). -/
def laneNoticeBytes (l : Fin 3) (e : LaneEvent) (s : State) : List Byte :=
  u8 l.val ++ u8 e.code ++ opt 1 u8 (if e = .off then none else (s.lane l).carrier)
    ++ opt 1 (fun c : LossCause => u8 c.code) e.cause ++ setByte (s.slotUsers l)

/-- Raises the LANE notice (R47). -/
def State.laneNotice (l : Fin 3) (e : LaneEvent) (s : State) : State :=
  s.raise .lane (some l.val) (laneNoticeBytes l e s)

/-! ### Lanes and the queue (R49, R51) -/

/-- The lane that is SEEKING or LOCKED on a carrier. -/
def State.servingLane (s : State) (c : Nat) : Option (Fin 3) :=
  allLanes.find? fun l => (s.lane l).serves c

/-- The lowest-numbered IDLE lane. -/
def State.idleLane (s : State) : Option (Fin 3) := allLanes.find? fun l => (s.lane l).state == .idle

/-- Enters the wait queue: after every waiter of its priority or above (R51). -/
def Arbiter.enqueue (w : Waiter) (a : Arbiter) : Arbiter :=
  { a with queue := insertBy (fun v => 3 - v.claimant.priority) w a.queue }

/-- Leaves the wait queue (R51). -/
def Arbiter.dequeue (c : Claimant) (a : Arbiter) : Arbiter :=
  { a with queue := a.queue.filter fun w => w.claimant != c }

/-- A claimant becomes a user of a lane (R13, R54). -/
def grantTo (c : Claimant) (l : Fin 3) (s : State) : State :=
  let s := s.modArb (Arbiter.dequeue c)
  match c with
  | .slot k => joinSlot k l s
  | .home => s.modArb fun a => { a with home := .holding l }

/-- Each waiter, in queue order, that meets a test and whose carrier a lane serves joins that lane (R52
step 1). -/
def joinWaiters (test : Waiter → Bool) (s : State) : State :=
  forEach s.arb.queue (fun w s =>
    if test w then match s.servingLane w.carrier with
      | some l => grantTo w.claimant l s
      | none => s
    else s) s

/-- A lane is given to a claimant on a new carrier: it seeks, the claimant joins, and every waiter for the
carrier joins (R49, R52 step 2). -/
def giveLane (c : Claimant) (carrier : Nat) (l : Fin 3) (s : State) : State :=
  joinWaiters (fun w => w.carrier == carrier) (grantTo c l (startSeek l carrier s))

/-! ### The sweep's walk (R118) -/

/-- The guide-bearing carriers, ascending. -/
def State.guideCarriers (s : State) : List Nat := (s.carriers.filter (·.guide)).map (·.index)

/-- The sweep starts its timer, in CYCLE alone (R118, R119). -/
def State.startDwell (s : State) : State :=
  if s.sweep.step then s
  else s.modSweep fun w => { w with timer := some (s.clock.uptimeMs + 1000 * w.dwell) }

/-- The sweep enters PAUSED; the arbiter notes it waiting for NO_LANE and PREEMPTED (R118, R119), and no more for
the other causes, ALL_SERVED and NO_CARRIER among them (R53, log 32). -/
def sweepPause (cause : PauseCause) (s : State) : State :=
  (s.modSweep fun w => { w with state := .paused, pause := some cause, lane := none }).modArb fun a =>
    { a with sweepWaiting := cause == .noLane || cause == .preempted }

/-- The sweep moves its position on; a move to the lowest is a wrap (R118). -/
def sweepAdvance (s : State) : State :=
  let above := s.guideCarriers.filter fun c => s.sweep.position.all (· < c)
  match above, s.guideCarriers with
  | c :: _, _ => s.modSweep fun w => { w with position := some c }
  | [], c :: _ =>
    (s.modSweep fun w => { w with position := some c, rounds := w.rounds + 1 }).guideNotice .sweepDone
  | [], [] => sweepPause .noCarrier (s.modSweep fun w => { w with position := none, timer := none })

/-- The sweep asks for a lane on its position (R53, R118). The bound counts the carriers passed over, of
which there are no more than guide-bearing ones. -/
def sweepClaim : Nat → State → State
  | 0, s => s
  | bound + 1, s =>
    match s.sweep.position with
    | none => s
    | some c =>
      match s.servingLane c with
      | some _ =>
        let s := s.modSweep fun w => { w with servedRun := w.servedRun + 1 }
        if s.guideCarriers.length ≤ s.sweep.servedRun then
          (sweepPause .allServed (s.modSweep fun w => { w with servedRun := 0 })).startDwell
        else sweepClaim bound (sweepAdvance s)
      | none =>
        match s.arb.queue, s.idleLane with
        | [], some l =>
          startSeek l c ((s.modSweep fun w => { w with
            state := .dwell, lane := some l, lockedVisit := false, pause := none,
            servedRun := 0, visits := w.visits + 1 }).modArb fun a => { a with sweepWaiting := false })
        | _, _ => sweepPause .noLane s

/-- The sweep claims its position (R118). -/
def sweepAsk (s : State) : State := sweepClaim (s.guideCarriers.length + 1) s

/-- The sweep advances and claims (R118). -/
def sweepGo (s : State) : State := sweepAsk (sweepAdvance s)

/-! ### Release and the queue pass (R52) -/

/-- One grant of step 2 of a queue pass, if there is a head and an IDLE lane. -/
def passGrant (s : State) : State :=
  match s.arb.queue, s.idleLane with
  | w :: _, some l => giveLane w.claimant w.carrier l s
  | _, _ => s

/-- The sweep is offered a lane (R52 step 3). -/
def passSweep (s : State) : State :=
  if s.arb.queue.isEmpty ∧ s.idleLane.isSome ∧ s.arb.sweepWaiting then sweepAsk s else s

/-- Every lane left IDLE is sent an idle order (R52, log 20). -/
def passIdle (s : State) : State :=
  forEach allLanes (fun l s => if (s.lane l).state = .idle then s.emit (.idleOrder l) else s) s

/-- A queue pass. Three grants use every lane (R52). -/
def queuePass (s : State) : State :=
  passIdle (passSweep (passGrant (passGrant (passGrant (joinWaiters (fun _ => true) s)))))

/-- A lane left with no users is released (R52). -/
def releaseIfEmpty (l : Fin 3) (s : State) : State :=
  if s.userCount l = 0 ∧ ((s.lane l).state = .seeking ∨ (s.lane l).state = .locked) then
    queuePass ((s.modRouter (Router.removeControl l)).modLane l fun x =>
      { x.clear with state := .idle, carrier := none })
  else s

/-- The lane a user left, if any, released if it was the last (R52). -/
def releaseLeft (l : Option (Fin 3)) (s : State) : State :=
  match l with
  | some l => releaseIfEmpty l s
  | none => s

/-! ### Preemption and claims (R49, R50, R53) -/

/-- A slot displaced from its lane (R22). -/
def displaceSlot (k : Fin 5) (s : State) : State :=
  let s := (dropFilters k s).modSlot k fun sl =>
    { sl with state := .waitLane, reason := .preempted, lane := none }
  let s := s.modArb (Arbiter.enqueue
    { claimant := .slot k, carrier := ((s.slot k).carrier).getD 0 })
  (reportLeft k s).slotNotice k

/-- The home carrier (R31). -/
def State.homeCarrier (s : State) : Option Nat := (s.carriers.find? (·.home)).map (·.index)

/-- The home condition, one lane being the home hold's own (R54). -/
def State.homeCondition (s : State) (own : Option (Fin 3)) : Bool :=
  s.mode == .standby && s.homeCarrier.isSome
    && allLanes.all fun l => own == some l || !(s.lane l).isLocked

/-- The home hold displaced from a lane: it waits while its condition holds (R54). -/
def displaceHome (l : Fin 3) (s : State) : State :=
  if s.homeOn l then
    match s.homeCondition (some l), s.homeCarrier with
    | true, some c => s.modArb fun a =>
        { Arbiter.enqueue { claimant := .home, carrier := c } a with home := .waiting }
    | _, _ => s.modArb fun a => { a with home := .inactive }
  else s

/-- The sweep displaced from a lane (R119). -/
def displaceSweep (l : Fin 3) (s : State) : State :=
  if s.sweepOn l then sweepPause .preempted (s.modSweep fun w => { w with timer := none }) else s

/-- Every user of a lane displaced: slots ascending, the home hold, the sweep (R50). -/
def displaceAll (l : Fin 3) (s : State) : State :=
  displaceSweep l (displaceHome l (forEach (s.slotUsers l) displaceSlot s))

/-- Of two lanes the one preempted: lowest priority, fewest users, highest number (R50). -/
def State.preferLane (s : State) (best : Option (Fin 3)) (l : Fin 3) : Option (Fin 3) :=
  match best with
  | none => some l
  | some b =>
    let p (x : Fin 3) := ((s.lanePriority x).getD 0, s.userCount x)
    if (p b).1 < (p l).1 ∨ ((p b).1 = (p l).1 ∧ (p b).2 < (p l).2) then some b else some l

/-- The lane that a claimant of a priority preempts, if any (R50). -/
def State.victim (s : State) (priority : Nat) : Option (Fin 3) :=
  (allLanes.filter fun l => (s.lane l).enabled && (s.lanePriority l).any (· < priority)).foldl
    s.preferLane none

/-- Preempts a lane for a claimant (R50). -/
def preempt (c : Claimant) (carrier : Nat) (l : Fin 3) (s : State) : State :=
  giveLane c carrier l ((displaceAll l s).modLane l fun x => { x with preemptions := x.preemptions + 1 })

/-- The step of a claim that waits (R49 step 4). -/
def waitFor (c : Claimant) (carrier : Nat) (s : State) : State :=
  let s := s.modArb (Arbiter.enqueue { claimant := c, carrier })
  match c with
  | .slot _ => s
  | .home => s.modArb fun a => { a with home := .waiting }

/-- The arbiter takes a claim of a slot or the home hold (R49). -/
def claim (c : Claimant) (carrier : Nat) (s : State) : State :=
  match s.servingLane carrier, s.idleLane, s.victim c.priority with
  | some l, _, _ => grantTo c l s
  | none, some l, _ => giveLane c carrier l s
  | none, none, some l => preempt c carrier l s
  | none, none, none => waitFor c carrier s

/-! ### The home hold (R54) -/

/-- The home hold claims the home carrier. -/
def homeClaim (s : State) : State :=
  match s.homeCarrier with
  | some c => claim .home c s
  | none => s

/-- The home hold leaves its lane, the queue or its retry wait (R54). -/
def homeLeave (s : State) : State :=
  let left := match s.arb.home with
    | .holding l => some l
    | _ => none
  releaseLeft left (s.modArb fun a => { a.dequeue .home with home := .inactive })

/-- The lane the home hold has for its own. -/
def State.homeLane (s : State) : Option (Fin 3) :=
  match s.arb.home with
  | .holding l => some l
  | _ => none

/-- Whether the home hold waits for, or holds, a carrier other than the home carrier (R54). -/
def State.homeMoved (s : State) : Bool :=
  match s.arb.home with
  | .waiting => s.arb.queue.any fun w => w.claimant == .home && some w.carrier != s.homeCarrier
  | .holding l => (s.lane l).carrier != s.homeCarrier
  | _ => false

/-- The home hold decides afresh, after whatever may have changed its condition. A home carrier changed to
another entry is claimed if, without the lane the hold left, the condition still holds (R54, log 8). -/
def homeRedecide (s : State) : State :=
  match s.arb.home with
  | .inactive => if s.homeCondition none then homeClaim s else s
  | .waiting | .holding _ =>
    if !s.homeCondition s.homeLane then homeLeave s
    else if s.homeMoved then
      let s := homeLeave s
      if s.homeCondition none then homeClaim s else s
    else s
  | .retry _ =>
    if s.mode = .standby ∧ s.homeCarrier.isSome then s
    else s.modArb fun a => { a with home := .inactive }

/-- RETRY expiry (R54). -/
def homeRetry (s : State) : State :=
  match s.arb.home with
  | .retry _ => homeRedecide (s.modArb fun a => { a with home := .inactive })
  | _ => s

/-! ### The sweep's other events (R119 to R121) -/

/-- The sweep leaves its lane, its timer stopped; a lane left empty is released (R119). -/
def sweepLeave (s : State) : State :=
  releaseLeft s.sweep.lane (s.modSweep fun w => { w with lane := none, timer := none })

/-- Timer expiry (R119). -/
def sweepTimer (s : State) : State :=
  match s.sweep.state, s.sweep.pause with
  | .dwell, _ => homeRedecide (sweepGo (sweepLeave s))
  | .paused, some .allServed => homeRedecide (sweepGo (s.modSweep fun w => { w with timer := none }))
  | _, _ => s

/-- Entry to CONFIG (R119). -/
def sweepEnterConfig (s : State) : State :=
  match s.sweep.state with
  | .off => s
  | .dwell => sweepPause .mode (sweepLeave s)
  | .paused => sweepPause .mode (s.modSweep fun w => { w with timer := none })

/-- The sweep's start at the lowest guide-bearing carrier (R119, R120). -/
def sweepFromLowest (s : State) : State :=
  match s.guideCarriers with
  | c :: _ => sweepAsk (s.modSweep fun w => { w with position := some c })
  | [] => sweepPause .noCarrier (s.modSweep fun w => { w with position := none })

/-- Entry to SERVICE or STANDBY from CONFIG (R119). A position whose carrier was dropped while ALL_SERVED kept it is
claimed as it stands, and a lane that seeks it is sent frequency 0: the manual does not say what such a claim sends,
and this is the model's choice (log 43). -/
def sweepLeaveConfig (s : State) : State :=
  match s.sweep.state, s.sweep.pause, s.sweep.position with
  | .paused, some .mode, some _ => sweepAsk s
  | .paused, some .mode, none => sweepFromLowest s
  | _, _, _ => s

/-- Whether a carrier bears guide records now. -/
def State.bearsGuide (s : State) (c : Nat) : Bool := (s.carrier? c).any (·.guide)

/-- The sweep takes a carrier's guide flag cleared, or the carrier dropped (R119). -/
def sweepLost (c : Nat) (s : State) : State :=
  if s.sweep.position = some c then
    match s.sweep.state, s.sweep.pause with
    | .dwell, _ => sweepGo (sweepLeave s)
    | .paused, some .allServed => s
    | .paused, _ => sweepAdvance s
    | .off, _ => s
  else s

/-- The sweep takes a carrier becoming guide-bearing. In CONFIG it does not claim, and waits for the mode
at that carrier (R118, R119, log 28). -/
def sweepFound (s : State) : State :=
  match s.sweep.state, s.sweep.pause with
  | .paused, some .noCarrier =>
    if s.mode = .config then
      sweepPause .mode (s.modSweep fun w => { w with position := s.guideCarriers.head? })
    else sweepFromLowest s
  | _, _ => s

/-! ### Lane events -/

/-- The parameters of a lane's entry to LOCKED (R37). -/
def Lane.enterLocked (c : QClass) (now : Nat) (x : Lane) : Lane :=
  { x with state := .locked, seekTimer := none, accSum := 0, accCount := 0, accN := some c.n,
           grade := some c.initial, poorRun := 0, silenceTimer := some (now + 1000),
           locks := x.locks + 1 }

/-- The sweep takes its lane's entry to LOCKED (R119). -/
def sweepLocked (l : Fin 3) (s : State) : State :=
  if s.sweepOn l ∧ !s.sweep.lockedVisit then
    (s.modSweep fun w => { w with lockedVisit := true }).startDwell
  else s

/-- A slot takes its lane's entry to LOCKED (R14). -/
def slotLockedEvent (k : Fin 5) (s : State) : State :=
  if (s.slot k).state = .tuning then enterAcquiring k s else s

/-- A lane enters LOCKED (R37). The manual lets the switch engine, the gate array and the sweep take the event in
whichever order it reaches them, and places the LANE notice nowhere among theirs. The model's choice: the notice
first, then the gate array's reports, the slots in ascending order (R14, log 31), the sweep, and the home hold's
decision (log 40). -/
def laneLocks (l : Fin 3) (s : State) : State :=
  let s := (s.modLane l (Lane.enterLocked (s.classOf l) s.clock.uptimeMs)).modRouter
    (Router.installControl l)
  let s := s.laneNotice l .locked
  let s := syncSlots (s.slotUsers l) s
  homeRedecide (sweepLocked l (forEach (s.slotUsers l) slotLockedEvent s))

/-- The loss counter of a cause (R35). -/
def Lane.countLoss (c : LossCause) (x : Lane) : Lane :=
  match c with
  | .unlock => { x with lossUnlock := x.lossUnlock + 1 }
  | .silent => { x with lossSilent := x.lossSilent + 1 }
  | .poorRun => { x with lossPoorRun := x.lossPoorRun + 1 }
  | .carrierEdit => { x with lossCarrierEdit := x.lossCarrierEdit + 1 }

/-- A slot takes the loss of its lane (R20). -/
def slotLaneLost (k : Fin 5) (s : State) : State :=
  let st := (s.slot k).state
  if st = .acquiring ∨ st = .presenting ∨ st = .held then
    let s := s.modSlot k fun sl => { sl with retune := sl.retune + 1 }
    if (s.slot k).retune < 3 then
      reportLeft k ((dropFilters k s).modSlot k fun sl =>
        { sl with state := .tuning, reason := .laneLost })
    else faultSlot .laneLost k s
  else s

/-- LANE_LOST on a LOCKED lane, in the order of R43. Its slots take it in ascending order (R20, log 31), and the
home hold decides last (log 45). -/
def laneLost (cause : LossCause) (l : Fin 3) (s : State) : State :=
  match (s.lane l).carrier, (s.lane l).isLocked with
  | some c, true =>
    let s := startSeek l c (s.modLane l (Lane.countLoss cause))
    let s := (forEach (s.slotUsers l) slotLaneLost s).laneNotice l (.lost cause)
    homeRedecide (releaseIfEmpty l s)
  | _, _ => s

/-- A slot takes a seek failure of its lane (R21). -/
def slotSeekFailed (k : Fin 5) (s : State) : State :=
  if (s.slot k).state = .tuning then
    let s := s.modSlot k fun sl => { sl with retune := sl.retune + 1 }
    if (s.slot k).retune < 3 then s.modSlot k fun sl => { sl with reason := .lockTimeout }
    else faultSlot .lockTimeout k s
  else s

/-- The seek timer expires (R38, R54, R119). The lane's slots take it in ascending order (R21, log 31), and then,
by the model's choice, the sweep and the home hold leave, the lane seeks again or is released, the sweep claims its
next carrier and the home hold decides (log 45). -/
def seekFails (l : Fin 3) (s : State) : State :=
  match (s.lane l).carrier, (s.lane l).state == .seeking with
  | some c, true =>
    let s := s.modLane l fun x => { x with seekFailures := x.seekFailures + 1, seekTimer := none }
    let s := forEach (s.slotUsers l) slotSeekFailed s
    let swept := s.sweepOn l
    let s := if swept then s.modSweep fun w =>
        { w with lane := none, timer := none, seekFailures := w.seekFailures + 1 }
      else s
    let s := if s.homeOn l then
        s.modArb fun a => { a with home := .retry (s.clock.uptimeMs + 10000) }
      else s
    let s := if s.userCount l = 0 then releaseIfEmpty l s else startSeek l c s
    homeRedecide (if swept then sweepGo s else s)
  | _, _ => s

/-- A sample added to the accumulator (R41). -/
def Lane.addSample (e now : Nat) (x : Lane) : Lane :=
  { x with accSum := x.accSum + e, accCount := x.accCount + 1, silenceTimer := some (now + 1000) }

/-- An average formed and graded (R41, R42). -/
def Lane.takeAverage (c : QClass) (a : Nat) (x : Lane) : Lane :=
  let g := gradeNext c (x.grade.getD .good) a
  { x with accSum := 0, accCount := 0, accN := some c.n, lastAverage := some a, grade := some g,
           poorRun := if g = .poor then x.poorRun + 1 else 0 }

/-- A SAMPLE taken in LOCKED: accumulated, and at N samples graded (R41, R42). An average that grades POOR and brings
the poor run to K is two events to the gate array, the grade's SIGNAL_OK first and then the loss: the manual does not
say whether it is one, and this is the model's choice (log 47). -/
def takeSample (e : Nat) (l : Fin 3) (s : State) : State :=
  let c := s.classOf l
  let s := s.modLane l (Lane.addSample e s.clock.uptimeMs)
  let n := ((s.lane l).accN).getD c.n
  if (s.lane l).accCount < n then s
  else
    let s := s.modLane l (Lane.takeAverage c ((s.lane l).accSum / n))
    let s := syncSlots (s.slotUsers l) s
    if (s.lane l).grade = some .poor ∧ c.k ≤ (s.lane l).poorRun then laneLost .poorRun l s else s

/-- LANE_ENABLE off on an enabled lane (R45). -/
def disableLane (l : Fin 3) (s : State) : State :=
  let gone := (s.slotUsers l).map Claimant.slot ++ (if s.homeOn l then [.home] else [])
  let s := displaceAll l s
  let s := ((s.modRouter (Router.removeControl l)).modLane l fun x =>
    { x.clear with state := .off, carrier := none }).emit (.idleOrder l)
  let s := queuePass (s.laneNotice l .off)
  homeRedecide (forEach (s.arb.queue.filter fun w => gone.contains w.claimant) (fun w s =>
    if s.arb.queue.contains w then match s.victim w.claimant.priority with
      | some v => preempt w.claimant w.carrier v s
      | none => s
    else s) s)

/-- LANE_ENABLE on for a lane in OFF (R45). -/
def enableLane (l : Fin 3) (s : State) : State :=
  homeRedecide (queuePass (s.modLane l fun x => { x with state := .idle }))

end Sys2Proof.Machine
end

