-- ==== Sys2Proof/Machine/Switch.lean ====
section
/-! DEFINITION. The switch engine's operations (chapter 1): the taking of a TUNE, the leaving actions, the
edits of the service map and the carrier table, and what a mode change does (R25, R172). -/

namespace Sys2Proof.Machine

open Sys2Proof

/-! ### Starting and stopping an operation (R9 to R13, R24) -/

/-- The host overrides the entry that a slot runs for: it becomes CANCELLED (R12, R24, R164). -/
def overrideEntry (k : Fin 5) (s : State) : State :=
  match s.runner k with
  | none => s
  | some n => s.modEntry n fun e => { e with state := .cancelled, retry := none }

/-- A slot's record at the start of an operation on a service (R3, R9, R11). -/
def Slot.begin (v : Service) (r : Reason) (now : Nat) (sl : Slot) : Slot :=
  { sl with state := .waitLane, reason := r, service := some v.sid, carrier := some v.carrier,
            lane := none, retune := 0, opStart := now }

/-- A slot leaves the wait queue, its lane and its filters, and its record stands in WAIT_LANE for an operation on
a service (R3, R9, R11). -/
def beginOn (v : Service) (r : Reason) (f : Slot → Slot) (k : Fin 5) (s : State) : State :=
  (dropFilters k (s.modArb (Arbiter.dequeue (.slot k)))).modSlot k fun sl => f (sl.begin v r s.uptimeS)

/-- A slot begun on a service is reported, and asks for a lane (R3, R9, R11, R13). The lane it left is released
before its claim is made, and RATING_OK is reported after what follows its lane and keys: both are the model's choice
(logs 42 and 45). -/
def claimOn (v : Service) (left : Option (Fin 3)) (k : Fin 5) (s : State) : State :=
  let s := updateRating k (determine k (reportLeft k s))
  homeRedecide (claim (.slot k) v.carrier (releaseLeft left s))

/-- An edit of the map restarts a slot on its service (R3). -/
def restartOn (v : Service) (k : Fin 5) (s : State) : State :=
  claimOn v (s.slot k).lane k (beginOn v .serviceChanged id k s)

/-- An accepted TUNE (R9, R11, R12). The unlock record ends when the slot has left its old operation, which
raises no SLOT notice (R11). -/
def acceptTune (v : Service) (o : Origin) (k : Fin 5) (s : State) : State :=
  claimOn v (s.slot k).lane k (endUnlockOf k (beginOn v .none (fun sl => { sl with
    origin := o, cellsOut := 0, unkeyed := 0, gaps := 0, cur := none }) k s))

/-- A slot that already holds the service takes the schedule unit's TUNE: its origin alone changes (R10). -/
def takeOverSlot (n : Fin 24) (k : Fin 5) (s : State) : State :=
  syncSlots [k] (s.modSlot k fun sl => { sl with origin := .schedule n })

/-- Whether a slot holds a service and is not FAULTED (R9 check 5). -/
def State.holdsService (s : State) (k : Fin 5) (sid : Nat) : Bool :=
  (s.slot k).service == some sid && (s.slot k).state != .faulted

/-- Whether the schedule unit's TUNE on a slot is taken in the present mode (R9 check 2). -/
def State.scheduleMayTune (s : State) (k : Fin 5) : Bool :=
  s.mode == .service || (s.mode == .standby && 3 ≤ k.val)

/-- A TUNE from the schedule unit, taken under R9: its reply, and the state after. -/
def tuneForEntry (n : Fin 24) (k : Fin 5) (sid : Nat) (s : State) : Status × State :=
  if !s.scheduleMayTune k then (.notInMode, s)
  else match keyFind (·.sid) sid s.services with
    | none => (.noSuch, s)
    | some v =>
      if (s.carrier? v.carrier).isNone then (.noSuch, s)
      else if s.holdsService k sid then (.ok, takeOverSlot n k s)
      else (.accepted, acceptTune v (.schedule n) k s)

/-- A slot enters FREE with a reason and the leaving actions (R24). UNLOCKED falls first, then what follows its lane
and keys, then RATING_OK, and the lane it left is released last: the model's choice (logs 42 and 45). -/
def freeSlot (r : Reason) (k : Fin 5) (s : State) : State :=
  let left := (s.slot k).lane
  let s := dropFilters k (s.modArb (Arbiter.dequeue (.slot k)))
  let s := s.modSlot k fun sl => { sl with
    state := .free, reason := r, service := none, carrier := none, lane := none, origin := .user,
    retune := 0, cur := none }
  releaseLeft left (updateRating k (reportLeft k (endUnlockOf k s)))

/-- A slot stopped, by STOP or at the end of a recording: no SLOT notice (R24). -/
def stopSlot (k : Fin 5) (s : State) : State := homeRedecide (freeSlot .stopped k s)

/-- A slot, not FREE, freed under SERVICE_DROP or by a mode: the schedule unit is told, and a SLOT notice is
raised (R4, R25), after the lane's release by the model's choice (log 45). -/
def sendFree (r : Reason) (k : Fin 5) (s : State) : State :=
  if (s.slot k).state = .free then s
  else (freeSlot r k (tellInterrupted k s)).slotNotice k

/-! ### Edits of the service map (R3) -/

/-- The component list of a slot's service edited: entries for tags no longer in the list go, entries for
new tags come, the others stay (R3, R57). -/
def editComponents (k : Fin 5) (s : State) : State :=
  let st := (s.slot k).state
  if st = .acquiring ∨ st = .presenting ∨ st = .held then
    installSlot k (s.modRouter (Router.removeSlot k (s.tagsOf k)))
  else s

/-- Whether an edit of a service restarts its slots (R3). -/
def Service.restarts (old new : Service) : Bool :=
  old.carrier != new.carrier || old.scrambled != new.scrambled

/-- A slot on an edited service (R3). The map holds the new entry. A restart leaves, releases and claims before the
next slot does (log 30). -/
def editSlot (old new : Service) (k : Fin 5) (s : State) : State :=
  let s :=
    if old.restarts new then restartOn new k s
    else if old.comps ≠ new.comps then editComponents k s
    else s
  if old.rating ≠ new.rating then updateRating k s else s

/-! ### Edits of the carrier table (R32, R33) -/

/-- The lane on an edited carrier (R32). -/
def editLane (old new : Carrier) (s : State) : State :=
  if old.freq = new.freq then s
  else match s.servingLane new.index with
    | none => s
    | some l => if (s.lane l).isLocked then laneLost .carrierEdit l s else startSeek l new.index s

/-- The sweep is told of a guide-bearing flag (R32, R119). -/
def editGuide (old : Option Carrier) (new : Carrier) (s : State) : State :=
  match old.any (·.guide), new.guide with
  | true, false => sweepLost new.index s
  | false, true => sweepFound s
  | _, _ => s

/-- The carrier table with an entry written; a new home flag clears the one there was (R32). -/
def withCarrier (new : Carrier) (cs : List Carrier) : List Carrier :=
  keyPut (·.index) new (if new.home then cs.map fun c => { c with home := false } else cs)

/-- A carrier entry written, with all it brings about (R32). Where it changes both the frequency and the guide-bearing
flag, the manual gives no order. The model's choice: the lane takes the edit first, with the home hold's decision after
a loss, then the sweep is told, and last the home hold decides (log 45). -/
def putCarrier (new : Carrier) (s : State) : State :=
  let old := s.carrier? new.index
  let s := s.modCarriers (withCarrier new)
  let s := match old with
    | some o => editLane o new s
    | none => s
  homeRedecide (editGuide old new s)

/-- The slots that a carrier drop sends to FAULTED: not FREE, not FAULTED, their service naming the index
(R6). -/
def State.slotsNaming (s : State) (c : Nat) : List (Fin 5) :=
  allSlots.filter fun k => (s.slot k).state != .free && (s.slot k).state != .faulted
    && (s.serviceOf k).any (·.carrier == c)

/-- A carrier entry emptied and the claims on it withdrawn. The lane left without users is released (R6, R33). The
manual orders none of this. The model's choice: the slots withdraw and go to FAULTED in ascending order (log 31),
then the home hold withdraws, then the sweep, then the lane is released, then the home hold decides (log 41). -/
def dropCarrier (c : Nat) (s : State) : List (Fin 3) × State :=
  let lane := s.servingLane c
  let s := s.modCarriers (keyDrop (·.index) c)
  let s := forEach (s.slotsNaming c) (fun k s =>
    faultSlot .serviceGone k (s.modArb (Arbiter.dequeue (.slot k)))) s
  let s := if s.homeCarrier.isNone then
      s.modArb fun a => { a.dequeue .home with home := .inactive }
    else s
  let empty := lane.toList.filter fun l => s.userCount l - (s.sweepOn l).toNat = 0
  (empty, homeRedecide (releaseLeft lane (sweepLost c s)))

/-! ### Mode changes (R25, R172) -/

/-- The cause of a MODE notice; the numbers are the model's (log 10). -/
inductive ModeCause where
  | request
  | wake (entry : Fin 24)
  | boot
deriving DecidableEq, Repr

/-- The bytes of a cause: its number, and the schedule entry of WAKE (log 10). -/
def ModeCause.bytes : ModeCause → List Byte
  | .request => u8 0 ++ opt 1 u8 none
  | .wake n => u8 1 ++ opt 1 u8 (some n.val)
  | .boot => u8 2 ++ opt 1 u8 none

/-- Raises the MODE notice (R172). -/
def State.modeNotice (c : ModeCause) (old new : Mode) (s : State) : State :=
  s.raise .mode none (u8 old.code ++ u8 new.code ++ c.bytes)

/-- The slots that entry to a mode frees (R25). -/
def slotsForMode : Mode → List (Fin 5)
  | .config => allSlots
  | .standby => viewSlots.map viewSlot
  | _ => []

/-- Some slots withdraw their claims from the wait queue (R25, R51). -/
def Arbiter.dequeueAll (ks : List (Fin 5)) (a : Arbiter) : Arbiter :=
  { a with queue := a.queue.filter fun w => !ks.any fun k => w.claimant == .slot k }

/-- The mode set and noticed, STANDBY reported, and the claims that the mode withdraws withdrawn (R25, R172). The
report comes before any slot is freed, so that a permit that reads STANDBY can move a view slot to HELD first
(log 6). -/
def announceMode (c : ModeCause) (m : Mode) (s : State) : State :=
  (gateReport [.standby (m == .standby)] ((s.setMode m).modeNotice c s.mode m)).modArb
    (Arbiter.dequeueAll (slotsForMode m))

/-- The sweep and the home hold on entry to CONFIG (R54, R119). -/
def laneWorkForMode (m : Mode) (s : State) : State :=
  if m = .config then homeRedecide (sweepEnterConfig s) else s

/-- The slots that entry to a mode frees, freed (R25). The manual gives no order of them: they leave in ascending
order, each slot's lane released, with its queue pass, before the next slot leaves (log 31). -/
def freeForMode (m : Mode) (s : State) : State := forEach (slotsForMode m) (sendFree .mode) s

/-- A mode change, handed to each block with mode-dependent work but the schedule unit. The claims that the
mode withdraws are withdrawn before any lane is released (R25, R172, log 6). -/
def changeMode (c : ModeCause) (m : Mode) (s : State) : State :=
  let old := s.mode
  let s := homeRedecide (freeForMode m (laneWorkForMode m (announceMode c m s)))
  if old = .config then homeRedecide (sweepLeaveConfig s) else s

end Sys2Proof.Machine
end

