-- ==== Sys2Proof/Machine/Schedule.lean ====
section
/-! DEFINITION. The schedule unit (chapter 8): evaluation and firing, recording runs and retries, retiming
by guide reports, AUX_RISE; and the guide events and mode changes that reach it. -/

namespace Sys2Proof.Machine

open Sys2Proof

/-! ### The SCHEDULE notice (R170) -/

/-- The cause of a SCHEDULE notice; the numbers are the model's (log 10). -/
inductive ScheduleCause where
  | fired | done | missed
deriving DecidableEq, Repr

/-- The number of a cause (log 10). -/
def ScheduleCause.code : ScheduleCause → Nat
  | .fired => 0 | .done => 1 | .missed => 2

/-- The entry states in the order of R160; the numbers are the model's (log 10). -/
def EntryState.code : EntryState → Nat
  | .empty => 0 | .armed => 1 | .running => 2 | .done => 3 | .missed => 4 | .cancelled => 5

/-- The outcomes of MISSED in the order of R160; the numbers are the model's (log 10). -/
def MissCause.code : MissCause → Nat
  | .late => 0 | .conflict => 1 | .mode => 2 | .refused => 3

/-- The outcome: why the entry missed, or the interruption count while DONE (R160). A DONE entry of REMIND, VIEW_TUNE
or WAKE, which counts no interruption, has the outcome 0 and not an absent one: the model's choice (log 10). -/
def Entry.outcome (e : Entry) : Option Nat :=
  match e.state with
  | .missed => e.missed.map MissCause.code
  | .done => some e.interruptions
  | _ => none

/-- The action's kind (08 section 8.5). -/
def Action.code : Action → Nat
  | .record _ _ _ => 0 | .viewTune _ => 1 | .remind => 2 | .wake => 3

/-- The slot of an action, for RECORD and VIEW_TUNE. -/
def Action.slot : Action → Option (Fin 5)
  | .record k _ _ => some k
  | .viewTune _ => some 0
  | _ => none

/-- A trigger time as four bytes (log 24). -/
def timeBytes (t : Option Int) : List Byte := opt 4 i32 t

/-- The fields of a SCHEDULE notice (R170). That the outcome and the slot go with a present flag, and the orphan flag and
the interruption count without one, as 0 where R160 does not give them to the entry, is the model's choice (log 10). -/
def scheduleNoticeBytes (c : ScheduleCause) (n : Fin 24) (e : Entry) : List Byte :=
  u8 c.code ++ u8 n.val ++ u8 e.state.code ++ opt 1 u8 e.outcome ++ u8 e.action.code
    ++ opt 1 (fun k : Fin 5 => u8 k.val) e.action.slot ++ opt 1 (fun x : Status => [x.code]) e.lastTune
    ++ timeBytes e.triggerTime ++ opt 4 u32 e.endTime ++ flag e.orphan ++ u8 e.interruptions

/-- Raises the SCHEDULE notice of an entry (R170). -/
def State.scheduleNotice (c : ScheduleCause) (n : Fin 24) (s : State) : State :=
  s.raise .schedule (some n.val) (scheduleNoticeBytes c n (s.entry n))

/-! ### Firing (R161 to R163) -/

/-- An entry becomes MISSED (R161). -/
def missEntry (c : MissCause) (n : Fin 24) (s : State) : State :=
  (s.modEntry n fun e => { e with state := .missed, missed := some c }).scheduleNotice .missed n

/-- An entry has acted (R162). -/
def doneEntry (n : Fin 24) (s : State) : State :=
  (s.modEntry n fun e => { e with state := .done }).scheduleNotice .fired n

/-- Whether a reply attaches a slot (R163, R164). -/
def Status.attaches (x : Status) : Bool := x == .accepted || x == .ok

/-- The retry timer as a tune's reply leaves it: stopped, or 30 s from now (R163, R164). -/
def retryAfter (x : Status) (s : State) : Option Nat :=
  if x.attaches then none else some (s.clock.uptimeMs + 30000)

/-- Whether another RUNNING entry records on a slot (R163). -/
def State.slotBusy (s : State) (n : Fin 24) (k : Fin 5) : Bool :=
  allEntries.any fun m => m != n && (s.entry m).state == .running && match (s.entry m).action with
    | .record j _ _ => j == k
    | _ => false

/-- The end time an entry has once it fires: an AUX_RISE recording takes it from the uptime (R163). -/
def Entry.endAtFiring (e : Entry) (uptime : Nat) : Option Nat :=
  match e.trigger, e.action with
  | .auxRise _, .record _ _ run => some (uptime + 60 * run)
  | _, _ => e.endTime

/-- A RECORD entry fires (R163). Its SCHEDULE notice is raised after all that its TUNE brings about, the model's choice
(log 45). -/
def fireRecord (n : Fin 24) (k : Fin 5) (sid : Nat) (s : State) : State :=
  if s.slotBusy n k then missEntry .conflict n s
  else
    let s := s.modEntry n fun e => { e with
      state := .running, interruptions := 0, retry := none, endTime := e.endAtFiring s.uptimeS }
    let r := tuneForEntry n k sid s
    (r.2.modEntry n fun e => { e with
      lastTune := some r.1, retry := retryAfter r.1 s }).scheduleNotice .fired n

/-- A VIEW_TUNE entry fires, and its slot is released at once (R162). Its SCHEDULE notice is raised after all that its
TUNE brings about, the model's choice (log 45). -/
def fireView (n : Fin 24) (sid : Nat) (s : State) : State :=
  let r := tuneForEntry n 0 sid s
  let s := r.2.modEntry n fun e => { e with lastTune := some r.1 }
  if r.1.attaches then
    doneEntry n (syncSlots [0] (s.modSlot 0 fun sl => { sl with origin := .user }))
  else missEntry .refused n s

/-- A WAKE entry fires (R162). Its SCHEDULE notice is raised after the mode change, the model's choice (log 45). -/
def fireWake (n : Fin 24) (s : State) : State :=
  doneEntry n (if s.mode = .standby then changeMode (.wake n) .service s else s)

/-- An entry fires by its action (R162, R163). -/
def fire (n : Fin 24) (s : State) : State :=
  match (s.entry n).action with
  | .record k sid _ => fireRecord n k sid s
  | .viewTune sid => fireView n sid s
  | .remind => doneEntry n s
  | .wake => fireWake n s

/-! ### Evaluation (R161) -/

/-- What becomes of a due entry (R161). -/
inductive Decision where
  | fire
  | miss (c : MissCause)
  | stay
deriving DecidableEq, Repr

/-- The decision on a due entry, from the mode, its action, now, its trigger and end times (R161). -/
def decideEntry (m : Mode) (a : Action) (now : Nat) (trigger : Int) (stop : Option Nat) : Decision :=
  let late := 60 < (now : Int) - trigger
  match a with
  | .record _ _ _ =>
    if stop.all fun t => t ≤ now then .miss .late
    else if m = .service ∨ m = .standby then .fire
    else .stay
  | .remind => if late then .miss .late else .fire
  | .viewTune _ => if late then .miss .late else if m = .service then .fire else .miss .mode
  | .wake =>
    if late then .miss .late
    else if m = .service ∨ m = .standby then .fire
    else .miss .mode

/-- Carries a decision out. -/
def applyDecision (d : Decision) (n : Fin 24) (s : State) : State :=
  match d with
  | .fire => fire n s
  | .miss c => missEntry c n s
  | .stay => s

/-- The evaluation of one entry, if it is ARMED and time-based and the clock is known (R161). -/
def evaluate (n : Fin 24) (s : State) : State :=
  match (s.entry n).state, (s.entry n).triggerTime, s.now? with
  | .armed, some t, some now =>
    if t ≤ (now : Int) then
      applyDecision (decideEntry s.mode (s.entry n).action now t (s.entry n).endTime) n s
    else s
  | _, _, _ => s

/-- The evaluation of every entry, ascending (R161). -/
def evaluateAll (s : State) : State := forEach allEntries evaluate s

/-! ### The end of a run, and retries (R163, R164) -/

/-- Whether a slot is held for an entry: its origin is SCHEDULE with the entry's number. -/
def State.heldFor (s : State) (n : Fin 24) (k : Fin 5) : Bool := (s.slot k).origin == .schedule n

/-- A run's slot is stopped, if it is still held for the entry (R163, R168). -/
def stopRun (n : Fin 24) (s : State) : State :=
  match (s.entry n).action with
  | .record k _ _ => if s.heldFor n k then stopSlot k s else s
  | _ => s

/-- A run ends (R163). -/
def endRun (n : Fin 24) (s : State) : State :=
  ((stopRun n s).modEntry n fun e => { e with state := .done, retry := none }).scheduleNotice .done n

/-- Whether a RUNNING entry has reached its end: a UTC time, or an uptime for AUX_RISE (R163). -/
def State.runOver (s : State) (e : Entry) : Bool :=
  e.state == .running && match e.trigger, e.endTime with
    | .auxRise _, some t => t ≤ s.uptimeS
    | _, some t => s.now?.any fun now => t ≤ now
    | _, none => false

/-- A RUNNING entry compares its end with the present time (R163). -/
def checkEnd (n : Fin 24) (s : State) : State := if s.runOver (s.entry n) then endRun n s else s

/-- Every RUNNING entry compares its end (R163). Runs that are over together end in ascending number, each slot stopped
with its queue pass before the next run ends, the model's choice (log 31). -/
def checkEnds (s : State) : State := forEach allEntries checkEnd s

/-- A RUNNING entry is attached while its slot is held for it and is not FAULTED (R164). -/
def State.attached (s : State) (n : Fin 24) (k : Fin 5) : Bool :=
  s.heldFor n k && (s.slot k).state != .faulted

/-- The retry timer of an entry expires (R164). -/
def retryExpires (n : Fin 24) (s : State) : State :=
  match (s.entry n).state, (s.entry n).action with
  | .running, .record k sid _ =>
    if s.attached n k then s.modEntry n fun e => { e with retry := none }
    else
      let r := tuneForEntry n k sid s
      r.2.modEntry n fun e => { e with lastTune := some r.1, retry := retryAfter r.1 s }
  | _, _ => s

/-! ### Guide events (R165) -/

/-- The record end in force for a new event end (R160). It has no bound above, the model's choice (log 24). -/
def Entry.endFor (stop : Nat) (e : Entry) : Option Nat :=
  match e.action with
  | .record _ _ trail => some (stop + trail)
  | _ => none

/-- The lead of an AT_EVENT trigger. -/
def Trigger.lead : Trigger → Nat
  | .atEvent _ _ lead => lead
  | _ => 0

/-- The times of an AT_EVENT entry from its event's (R160, R165). -/
def Entry.retime (start stop : Nat) (e : Entry) : Entry :=
  { e with lastStart := some start, lastEnd := some stop, orphan := false,
           triggerTime := some ((start : Int) - (e.trigger.lead : Int)), endTime := e.endFor stop }

/-- One entry takes an INSERTED or REPLACED report (R165). -/
def retimeEntry (ev : GuideEvent) (n : Fin 24) (s : State) : State :=
  if (s.entry n).tiedTo ev.sid ev.eid then
    let s := s.modEntry n (Entry.retime ev.start ev.stop)
    if (s.entry n).state = .armed then evaluate n s else checkEnd n s
  else s

/-- A guide event that has passed its checks is taken; a placement is reported to the schedule unit last
(R105, R107, R165). The entries tied to the event take the report in ascending number, RUNNING and ARMED ones alike,
the model's choice (log 31). -/
def takeEventRecord (e : GuideEvent) (s : State) : Taken × State :=
  match takeGuide e s with
  | (.placed r d o, s) => (.placed r d o, forEach allEntries (retimeEntry e) s)
  | t => t

/-! ### AUX_RISE (R166) -/

/-- What a rise does to an entry, by its action and the mode (R166). -/
def decideRise (m : Mode) : Action → Decision
  | .record _ _ _ => if m = .config then .miss .mode else .fire
  | .remind => .fire
  | .viewTune _ => if m = .service then .fire else .miss .mode
  | .wake => if m = .config then .miss .mode else .fire

/-- One entry takes an AUX_RISE (R166). -/
def riseEntry (c : Fin 8) (n : Fin 24) (s : State) : State :=
  if (s.entry n).state = .armed ∧ (s.entry n).trigger = .auxRise c then
    applyDecision (decideRise s.mode (s.entry n).action) n s
  else s

/-- The rises that await the schedule unit are taken, in order (R154, R166). -/
def takeRises (s : State) : State :=
  forEach s.auxRises (fun c => forEach allEntries (riseEntry c)) { s with auxRises := [] }

/-- Rises are taken until none is left. Each round but the last fires an ARMED entry, of which there are no
more than 24, so the bound is not met (log 7). -/
def settleRises : Nat → State → State
  | 0, s => { s with auxRises := [] }
  | bound + 1, s => if s.auxRises.isEmpty then s else settleRises bound (takeRises s)

/-- The rounds that leave no rise. -/
def settle (s : State) : State := settleRises 25 s

/-- A mode change handed to every block (R161, R172). -/
def modeChange (c : ModeCause) (m : Mode) (s : State) : State :=
  let fromConfig := s.mode = .config
  let s := changeMode c m s
  if fromConfig then evaluateAll s else s

/-! ### The taking of a command -/

/-- The taking of a request by its owner, with the rises it caused (R184). -/
def State.serve (kind tag : Byte) (f : Req) (s : State) : State :=
  s.takeRequest kind tag fun s => let r := f s; (r.1, settle r.2)

/-- The taking of an event, with the rises it caused. -/
def State.event (f : State → State) (s : State) : State := s.takeEvent fun s => settle (f s)

end Sys2Proof.Machine
end

