-- ==== Sys2Proof/Machine/Time.lean ====
section
/-! DEFINITION. The clock: its advance, second boundaries, steps (R174 to R176), and the order in which the
blocks take them (log 6). -/

namespace Sys2Proof.Machine

open Sys2Proof

/-! ### The CLOCK notice (R176) -/

/-- The cause of a CLOCK notice; the numbers are the model's (log 10). -/
inductive ClockCause where
  | known
  | step (old : Nat)
  | offset
deriving DecidableEq, Repr

/-- The number of a cause (log 10). -/
def ClockCause.code : ClockCause → Nat
  | .known => 0 | .step _ => 1 | .offset => 2

/-- The old time, absent for KNOWN and OFFSET (R176). -/
def ClockCause.old : ClockCause → Option Nat
  | .step old => some old
  | _ => none

/-- The sources in the order of R174; the numbers are the model's (log 10). -/
def TimeSource.code : TimeSource → Nat
  | .none => 0 | .link => 1 | .stream => 2

/-- Raises the CLOCK notice (R176). -/
def State.clockNotice (c : ClockCause) (s : State) : State :=
  s.raise .clock none (u8 c.code ++ opt 4 u32 c.old ++ u32 s.clock.utc ++ i16 s.clock.offset
    ++ u8 s.clock.source.code)

/-! ### Time-boundary work (R174, R176) -/

/-- Determines the current event of every slot not FREE, slots ascending (R26, log 31). -/
def determineAll (s : State) : State :=
  forEach allSlots (fun k s => if (s.slot k).state = .free then s else determine k s) s

/-- Whether a slot's current event ends at now, or an event of its service starts at it (R26). -/
def State.eventTurns (s : State) (k : Fin 5) : Bool :=
  match s.now? with
  | none => false
  | some now => (s.slot k).state != .free
      && (((s.slot k).cur.any fun e => e.start + 60 * e.duration ≤ now)
          || s.guide.places.any fun p => some p.ev.sid == (s.slot k).service && p.ev.start == now)

/-- The switch engine's part of a second boundary, slots ascending (R26, log 31). -/
def turnEvents (s : State) : State :=
  forEach allSlots (fun k s => if s.eventTurns k then determine k s else s) s

/-- The access unit's part of a boundary: tiers, grants, period, previews (R75, R76, R85, R89), in an order that is
the model's choice (log 45). -/
def accessBoundary (s : State) : State :=
  forEach allSlots endPreview (rollover (expireGrants (expireTiers s)))

/-- What counts each second of uptime, known time or not: lockouts and unlocks (R130, R138). -/
def uptimeCounts (s : State) : State :=
  countUnlocks (forEach allProfiles countLockout s)

/-- The parental unit's part of a second boundary (R130, R133, R134, R136, R138): the allowances count, then the
lockouts and unlocks, then comes the day, then the conditions that these leave are reported (log 38). -/
def parentalBoundary (s : State) : State := timeConditions (uptimeCounts (countAllowances s))

/-- The schedule unit's part of a boundary or step: ends, then triggers (R161, R163, log 19). -/
def scheduleBoundary (s : State) : State := evaluateAll (checkEnds s)

/-- A second boundary taken by every block (R174, log 6). -/
def boundaryWork (s : State) : State :=
  scheduleBoundary (parentalBoundary (accessBoundary (turnEvents (prune s))))

/-- A second of uptime at which UTC stands at its top and makes no boundary (R174). -/
def uptimeWork (s : State) : State := checkEnds (uptimeCounts s)

/-- A forward step, or the time becoming known, taken by every block (R176). -/
def forwardWork (s : State) : State :=
  scheduleBoundary (timeConditions (accessBoundary (determineAll (prune s))))

/-- A backward step taken by every block (R176). DESIGN CHOICE (log 52): the household day is compared at this step
too (R136), so a recorded day that is still behind resets the allowances, although R176's table has no reset. -/
def backwardWork (s : State) : State :=
  scheduleBoundary (timeConditions (determineAll s))

/-! ### The clock's advance and steps (R174, R176) -/

/-- The highest UTC (R174). -/
def utcTop : Nat := 4294967295

/-- UTC advances by 1, up to its top (R174). -/
def Clock.advance (c : Clock) : Clock := { c with utc := min utcTop (c.utc + 1) }

/-- The work of a whole second of uptime. The blocks take it outside BOOT and until RESTART is taken; every
60 s of uptime the profile units follow (R128, R173, R174, log 22). -/
def secondWork (s : State) : State :=
  let advanced := s.clock.utc < utcTop
  let s := s.modClock Clock.advance
  if s.awake then
    let s := if advanced then boundaryWork s else uptimeWork s
    if s.uptimeS % 60 = 0 then writeDirtyProfiles s else s
  else s

/-- The next whole second of uptime comes (R174, log 5). -/
def nextSecond (s : State) : State :=
  secondWork (s.modClock fun c => { c with uptimeMs := (c.uptimeMs / 1000 + 1) * 1000 })

/-- A step: UTC takes the new time, and every block takes the step (R176). The CLOCK notice is raised before any block
takes it, the model's choice (log 45). -/
def stepClock (t : Nat) (s : State) : State :=
  let old := s.clock.utc
  let known := s.clock.known
  let s := s.modClock fun c => { c with utc := t, known := true }
  let s := s.clockNotice (if known then .step old else .known)
  if known ∧ t < old then backwardWork s else forwardWork s

/-- The local offset is taken; a change is noticed and then handed to the parental unit, in that order by the model's
choice (R133, R136, R174, log 45). -/
def takeOffset (off : Int) (s : State) : State :=
  if s.clock.offset = off then s
  else timeConditions ((s.modClock fun c => { c with offset := off }).clockNotice .offset)

/-- A TIME record that passes its check (R174). -/
def takeTime (t : Nat) (off : Int) (s : State) : State :=
  let s := takeOffset off (s.modClock fun c => { c with source := .stream })
  if !s.clock.known ∨ t + 2 < s.clock.utc ∨ s.clock.utc + 2 < t then stepClock t s else s

/-- TIME_SET, the source not being STREAM: whether a step was made, and the state after (R175). -/
def setTime (t : Nat) (off : Int) (s : State) : Bool × State :=
  let s := takeOffset off (s.modClock fun c => { c with source := .link })
  if !s.clock.known ∨ t ≠ s.clock.utc then (true, stepClock t s) else (false, s)

end Sys2Proof.Machine
end

