-- ==== Sys2Proof/Machine/SlotRequests.lean ====
section
/-! DEFINITION. The meanings of the requests of chapter 1: the service map and the slots. -/

namespace Sys2Proof.Machine

open Sys2Proof

/-- The outcome of a command that a state completes: every command completes. -/
abbrev Result := Host.Outcome State Fault Refusal

/-! ### Naming a service (R4, R9) -/

/-- A selector and a number in the range of the field it selects (R4, R9). -/
def selectorOk (sel : Byte) (num : Half) : Bool :=
  (sel == 0 && 1 ≤ num.toNat && num.toNat ≤ 9999) || (sel == 1 && 1 ≤ num.toNat)

/-- The service that a selector and a number name (R4, R9). -/
def State.findService (s : State) (sel : Byte) (num : Half) : Option Service :=
  if sel = 0 then s.services.find? fun v => v.channel == num.toNat
  else keyFind (·.sid) num.toNat s.services

/-! ### The service map (R2 to R5) -/

/-- A component kind's code (01 section 1.1). -/
def CompKind.code : CompKind → Nat
  | .video => 0 | .audio => 1 | .data => 2

/-- The component kind of a code. -/
def compKindOf (b : Byte) : Option CompKind :=
  if b = 0 then some .video else if b = 1 then some .audio else if b = 2 then some .data else none

/-- A component, if its kind and tag are in range (R2). -/
def readComp (c : CompReq) : Option Component :=
  match compKindOf c.kind with
  | some k =>
    if 16 ≤ c.tag.toNat ∧ c.tag.toNat ≤ 1023 then some { kind := k, tag := c.tag.toNat } else none
  | none => none

/-- The components of a request, if each is in range, they are 1 to 6, and no two share a tag (R2). -/
def readComps (l : List CompReq) : Option (List Component) :=
  let cs := l.filterMap readComp
  if l.length = cs.length ∧ 1 ≤ l.length ∧ l.length ≤ 6 ∧ (cs.map (·.tag)).Nodup then some cs else none

/-- The entry of a SERVICE_PUT, if it passes check 1 of R2. The rating is clamped. -/
def readService (r : ServiceReq) : Option Service :=
  match readComps r.comps, flag? r.access with
  | some comps, some scrambled =>
    if 1 ≤ r.sid.toNat ∧ 1 ≤ r.channel.toNat ∧ r.channel.toNat ≤ 9999 ∧ r.carrier.toNat ≤ 63 then
      some { sid := r.sid.toNat, channel := r.channel.toNat, carrier := r.carrier.toNat, scrambled,
             rating := clamp 0 6 r.rating.toNat, comps }
    else none
  | _, _ => none

/-- The slots, not FREE, that an edit of a service restarts (R3). -/
def State.slotsRestarted (s : State) (old : Option Service) (new : Service) : List (Fin 5) :=
  match old with
  | some o => if o.restarts new then s.slotsOf new.sid else []
  | none => []

/-- A service entry written, with what an edit does to its slots (R2, R3). They take it in ascending order, each
one whole before the next (log 30). -/
def putService (new : Service) (s : State) : State :=
  match keyFind (·.sid) new.sid s.services with
  | none => s.modServices (keyPut (·.sid) new)
  | some old =>
    forEach (s.slotsOf new.sid) (editSlot old new) (s.modServices (keyPut (·.sid) new))

/-- SERVICE_PUT by its owner (R2, R3). -/
def servicePutReq (r : ServiceReq) : Req := fun s =>
  match readService r with
  | none => refuse .badField s
  | some v =>
    let old := keyFind (·.sid) v.sid s.services
    if (s.carrier? v.carrier).isNone then refuse .noSuch s
    else if s.services.any fun o => o.channel == v.channel && o.sid != v.sid then refuse .conflict s
    else if old.isNone ∧ 512 ≤ s.services.length then refuse .full s
    else
      (answer .ok (u16 v.sid ++ u8 v.rating ++ flag old.isSome ++ setByte (s.slotsRestarted old v)),
        putService v s)

/-- SERVICE_PUT (R2, R3). -/
def execServicePut (tag : Byte) (r : ServiceReq) (s : State) : Result :=
  .next (s.serve 0x10 tag (servicePutReq r))

/-- A service entry removed, its slots freed (R4). The manual gives no order of them: they leave in ascending order,
each slot's lane released, with its queue pass, before the next slot leaves (log 31). -/
def dropService (v : Service) (s : State) : State :=
  homeRedecide (forEach (s.slotsOf v.sid) (sendFree .serviceGone)
    (s.modServices (keyDrop (·.sid) v.sid)))

/-- SERVICE_DROP by its owner (R4). -/
def serviceDropReq (sel : Byte) (num : Half) : Req := fun s =>
  if !selectorOk sel num then refuse .badField s
  else match s.findService sel num with
    | none => refuse .noSuch s
    | some v => (answer .ok (u16 v.sid ++ setByte (s.slotsOf v.sid)), dropService v s)

/-- SERVICE_DROP (R4). -/
def execServiceDrop (tag : Byte) (sel : Byte) (num : Half) (s : State) : Result :=
  .next (s.serve 0x11 tag (serviceDropReq sel num))

/-- An entry in the field order of SERVICE_PUT (R5). -/
def Service.bytes (v : Service) : List Byte :=
  u16 v.channel ++ u16 v.sid ++ u8 v.carrier ++ flag v.scrambled ++ u8 v.rating ++ u8 v.comps.length
    ++ v.comps.flatMap fun c => u8 c.kind.code ++ u16 c.tag

/-- SERVICE_READ by its owner (R5). -/
def serviceReadReq (sel : Byte) (num : Half) : Req := fun s =>
  if !selectorOk sel num then refuse .badField s
  else match s.findService sel num with
    | none => refuse .noSuch s
    | some v => (answer .ok v.bytes, s)

/-- SERVICE_READ (R5). -/
def execServiceRead (tag : Byte) (sel : Byte) (num : Half) (s : State) : Result :=
  .next (s.serve 0x12 tag (serviceReadReq sel num))

/-! ### Slots (R9, R24, R28) -/

/-- The reply fields of TUNE: the slot and the service id (01 section 1.3). -/
def tuneFields (k : Fin 5) (v : Service) : List Byte := u8 k.val ++ u16 v.sid

/-- Checks 2 to 6 of R9 on a host TUNE, and its taking. -/
def hostTune (k : Fin 5) (sel : Byte) (num : Half) (force : Bool) : Req := fun s =>
  if s.mode ≠ .service then refuse .notInMode s
  else match s.findService sel num with
    | none => refuse .noSuch s
    | some v =>
      if (s.carrier? v.carrier).isNone then refuse .noSuch s
      else if s.holdsService k v.sid then (answer .ok (tuneFields k v), s)
      else if (s.slot k).origin ≠ .user ∧ !force then refuse .owned s
      else (answer .accepted (tuneFields k v), acceptTune v .user k (overrideEntry k s))

/-- TUNE by its owner (R9). -/
def tuneReq (slot sel : Byte) (num : Half) (force : Byte) : Req := fun s =>
  match toFin? 5 slot.toNat, flag? force, selectorOk sel num with
  | some k, some f, true => hostTune k sel num f s
  | _, _, _ => refuse .badField s

/-- TUNE (R9 to R13). -/
def execTune (tag : Byte) (slot sel : Byte) (num : Half) (force : Byte) (s : State) : Result :=
  .next (s.serve 0x14 tag (tuneReq slot sel num force))

/-- STOP by its owner (R24). -/
def stopReq (slot force : Byte) : Req := fun s =>
  match toFin? 5 slot.toNat, flag? force with
  | some k, some f =>
    if (s.slot k).state = .free then (answer .ok (u8 k.val), s)
    else if (s.slot k).origin ≠ .user ∧ !f then refuse .owned s
    else (answer .ok (u8 k.val), stopSlot k (overrideEntry k s))
  | _, _ => refuse .badField s

/-- STOP (R24). -/
def execStop (tag : Byte) (slot force : Byte) (s : State) : Result :=
  .next (s.serve 0x15 tag (stopReq slot force))

/-- Whether a slot has an unlock record (R28, R137). -/
def State.unlockedSlot (s : State) (k : Fin 5) : Bool :=
  match asView k with
  | some v => (s.parental.unlocks[v]).isSome
  | none => false

/-- The fields of SLOT_STATUS (R28). DESIGN CHOICE (log 10): the operation start, in seconds of uptime, takes four
bytes. -/
def slotStatusBytes (k : Fin 5) (s : State) : List Byte :=
  let sl := s.slot k
  u8 k.val ++ u8 (if k.val ≤ 2 then 0 else 1) ++ u8 sl.state.code ++ u8 sl.reason.code
    ++ opt 2 u16 sl.service ++ opt 1 u8 sl.carrier ++ opt 1 (fun l : Fin 3 => u8 l.val) sl.lane
    ++ sl.origin.bytes ++ opt 1 (fun p : Fin 8 => u8 p.val) sl.profile ++ u8 sl.retune
    ++ u32 sl.opStart ++ w32 sl.cellsOut ++ w32 sl.unkeyed ++ w32 sl.gaps
    ++ opt 4 u32 (sl.cur.map (·.eid)) ++ flag (s.unlockedSlot k)

/-- SLOT_STATUS by its owner (R28). -/
def slotStatusReq (slot : Byte) : Req := fun s =>
  match toFin? 5 slot.toNat with
  | some k => (answer .ok (slotStatusBytes k s), s)
  | none => refuse .badField s

/-- SLOT_STATUS (R28). -/
def execSlotStatus (tag : Byte) (slot : Byte) (s : State) : Result :=
  .next (s.serve 0x16 tag (slotStatusReq slot))

end Sys2Proof.Machine
end

