-- ==== Sys2Proof/Machine/AccessRequests.lean ====
section
/-! DEFINITION. The meanings of the requests of chapter 4: purchases, quotes, and the reads of the access
unit. -/

namespace Sys2Proof.Machine

open Sys2Proof

/-! ### The checks of a purchase (R93) -/

/-- What the checks find: the status, and the charge once check 10 has passed (R93, R96). -/
structure Verdict where
  status : Status
  charge : Option Nat := none
deriving DecidableEq, Repr

/-- Checks 2 to 6 of R93, against a profile. -/
def State.buyGate (s : State) (p : Fin 8) : Option Status :=
  if s.mode ≠ .service then some .notInMode
  else if !s.clock.known then some .noTime
  else if s.access.deviceKey = .unusable then some .accessOff
  else if !(s.profile p).inUse then some .noSuch
  else if 0 < (s.profile p).lockout then some .locked
  else none

/-- Check 13 of R93: the list is full, the record place is taken, or the numbers have run out. -/
def Access.listFull (a : Access) : Bool :=
  64 ≤ a.purchases.length
    || a.purchases.any (fun r => r.seq % 64 == a.purse.nextSeq % 64)
    || a.purse.nextSeq == 4294967295

/-- Checks 11 to 15 of R93, for a charge. -/
def State.buyRoom (s : State) (p : Fin 8) (eid charge : Nat) : Status :=
  if s.access.grants.any (·.eid == eid) then .alreadyHeld
  else if 32 ≤ s.access.grants.length then .full
  else if s.access.listFull then .listFull
  else if capExceeded (s.profile p) charge then .capExceeded
  else if creditShort s.access.purse charge then .creditShort
  else .ok

/-- Checks 9 to 15 of R93, on the event as the check unit read it. -/
def State.buyJudge (s : State) (p : Fin 8) (e : GuideEvent) : Verdict :=
  match e.price, s.now? with
  | some price, some now =>
    if !e.purchasable then { status := .notPurchasable }
    else if !onAir e.start e.duration now then { status := .notOnAir }
    else
      let c := chargeOf e.start e.duration price e.prorate s.access.purse.grace s.access.purse.floor now
      { status := s.buyRoom p e.eid c, charge := some c }
  | _, _ => { status := .notPurchasable }

/-! ### The commit (R94) -/

/-- The purse after a charge (R94). -/
def Purse.charged (c : Nat) (p : Purse) : Purse :=
  { p with balance := p.balance - (c : Int), debit := p.debit + BitVec.ofNat 32 c,
           nextSeq := p.nextSeq + 1 }

/-- The record of a purchase (R94, R97). -/
def purchaseOf (p : Fin 8) (slot : Option (Fin 5)) (e : GuideEvent) (c seq now : Nat) : Purchase :=
  { seq, eid := e.eid, sid := e.sid, profile := p, slot, charge := c, time := now }

/-- The grant of a purchase: it ends with the event (R76, R94). -/
def grantOf (e : GuideEvent) : Grant := { eid := e.eid, sid := e.sid, endTime := e.stop }

/-- The record place of a sequence number (R94). -/
def recordPlace (seq : Nat) : Fin 64 := ⟨seq % 64, by omega⟩

/-- The changes of a commit in the purse, the list, the grants and the profile (R94). The record stands last,
whatever numbers stand before it (log 36). -/
def commitTables (p : Fin 8) (r : Purchase) (g : Grant) (s : State) : State :=
  (s.modAccess fun a => { a with
    purse := a.purse.charged r.charge
    purchases := a.purchases ++ [r]
    grants := keyPut (·.eid) g a.grants }).modProfile p fun q =>
      { q with spend := min 16777215 (q.spend + r.charge) }

/-- The purchase unit of a commit handed over (R94, R177). -/
def handPurchase (p : Fin 8) (r : Purchase) (g : Grant) (s : State) : State :=
  s.handOver (.purchase (recordPlace r.seq)) (.purchase (some
    { purse := s.access.purse, record := r, grant := g, spend := (s.profile p).spend }))

/-- A BUY committed: the tables, the purchase unit, re-examination and then rebasing (log 34), the ACCESS notice (last
by the model's choice, log 45).
The reply waits for the unit (R86, R94). -/
def commitBuy (p : Fin 8) (slot : Option (Fin 5)) (e : GuideEvent) (c now : Nat) (s : State) :
    Answer × State :=
  let r := purchaseOf p slot e c s.access.purse.nextSeq now
  let s := handPurchase p r (grantOf e) (commitTables p r (grantOf e) s)
  let n := s.store.last
  let fields := u16 c ++ u32 r.seq ++ i32 s.access.purse.balance ++ u32 (s.profile p).spend
  let s := (rebase e.eid (reexamine s)).accessNotice (.purchase r.seq)
  ({ body := reply .ok fields, hold := .written (.purchase (recordPlace r.seq)) n }, s)

/-! ### BUY and QUOTE (R93, R96) -/

/-- The reply fields of a refused BUY: the charge, for CAP_EXCEEDED and CREDIT_SHORT (04 section 4.8). -/
def Verdict.fields (v : Verdict) : List Byte :=
  match v.status, v.charge with
  | .capExceeded, some c => u16 c
  | .creditShort, some c => u16 c
  | _, _ => []

/-- Checks 8 to 15 of a BUY, and its commit. -/
def buyEvent (p : Fin 8) (slot : Option (Fin 5)) (sid eid : Nat) : Req := fun s =>
  match readNamed sid eid s with
  | (none, s) => refuse .noSuch s
  | (some e, s) =>
    let v := s.buyJudge p e
    match v.status, v.charge, s.now? with
    | .ok, some c, some now => commitBuy p slot e c now s
    | st, _, _ => (answer st v.fields, s)

/-- Checks 2 to 7 of a BUY. -/
def buyChecked (p : Fin 8) (pin : Pin) (slot : Option (Fin 5)) (sid eid : Nat) : Req := fun s =>
  match s.buyGate p with
  | some st => refuse st s
  | none =>
    if (s.profile p).buyNeedsPin then match pinCheck p pin s with
      | (some st, s) => refuse st s
      | (none, s) => buyEvent p slot sid eid s
    else buyEvent p slot sid eid s

/-- The slot a BUY names: 0 to 4, or 255 for none (R93). -/
def buySlot (b : Byte) : Option (Option (Fin 5)) :=
  if b = 255 then some none else (toFin? 5 b.toNat).map some

/-- BUY by its owner (R93). -/
def buyReq (profile : Byte) (pin : Pin) (slot : Byte) (sid : Half) (eid : Word) : Req := fun s =>
  match toFin? 8 profile.toNat, buySlot slot with
  | some p, some k =>
    if !pinDigitsOk pin ∨ sid = 0 then refuse .badField s
    else buyChecked p pin k sid.toNat eid.toNat s
  | _, _ => refuse .badField s

/-- BUY (R93, R94). -/
def execBuy (tag : Byte) (profile : Byte) (pin : Pin) (slot : Byte) (sid : Half) (eid : Word)
    (s : State) : Result :=
  .next (s.serve 0x38 tag (buyReq profile pin slot sid eid))

/-- The verdict of a QUOTE, with the guide read's effects (R96). -/
def quoteVerdict (p : Fin 8) (sid eid : Nat) (s : State) : Verdict × State :=
  match s.buyGate p with
  | some st => ({ status := st }, s)
  | none => match readNamed sid eid s with
    | (none, s) => ({ status := .noSuch }, s)
    | (some e, s) => (s.buyJudge p e, s)

/-- The fields of QUOTE (R96). -/
def quoteBytes (p : Fin 8) (v : Verdict) (s : State) : List Byte :=
  let r := s.profile p
  [v.status.code] ++ flag (r.inUse && r.buyNeedsPin) ++ opt 2 u16 v.charge ++ u32 r.spend
    ++ opt 2 u16 r.cap ++ i32 s.access.purse.balance ++ u16 s.access.purse.limit

/-- QUOTE by its owner (R96). -/
def quoteReq (profile : Byte) (sid : Half) (eid : Word) : Req := fun s =>
  match toFin? 8 profile.toNat with
  | some p =>
    if sid = 0 then refuse .badField s
    else
      let r := quoteVerdict p sid.toNat eid.toNat s
      (answer .ok (quoteBytes p r.1 r.2), r.2)
  | none => refuse .badField s

/-- QUOTE (R96). -/
def execQuote (tag : Byte) (profile : Byte) (sid : Half) (eid : Word) (s : State) : Result :=
  .next (s.serve 0x39 tag (quoteReq profile sid eid))

/-! ### Reads (R98 to R100) -/

/-- A record in the order of R97, 18 bytes (R98). -/
def Purchase.bytes (r : Purchase) : List Byte :=
  u32 r.seq ++ u32 r.eid ++ u16 r.sid ++ u8 r.profile.val
    ++ u8 ((r.slot.map fun k => k.val).getD 255) ++ u16 r.charge ++ u32 r.time

/-- PURCHASES_READ by its owner, the records in ascending order (R98). -/
def purchasesReadReq (fromSeq : Word) (count : Byte) : Req := fun s =>
  let n := clamp 1 32 count.toNat
  let rs := (sortBy (·.seq) (s.access.purchases.filter fun r => fromSeq.toNat ≤ r.seq)).take n
  (answer .ok (u8 n ++ u8 rs.length ++ rs.flatMap Purchase.bytes), s)

/-- PURCHASES_READ (R98). -/
def execPurchasesRead (tag : Byte) (fromSeq : Word) (count : Byte) (s : State) : Result :=
  .next (s.serve 0x3A tag (purchasesReadReq fromSeq count))

/-- The device-key status (R191). -/
def KeyStatus.code : KeyStatus → Nat
  | .untested => 0 | .usable => 1 | .unusable => 2

/-- The purse in the order of R88 (R99). -/
def Purse.bytes (p : Purse) : List Byte :=
  i32 p.balance ++ u16 p.limit ++ w32 p.debit ++ w32 p.collected ++ w32 p.clipped ++ u32 p.nextSeq
    ++ u32 p.releasedThrough ++ u32 p.lastIssue ++ u8 p.grace ++ u16 p.floor ++ u8 p.period
    ++ u32 p.anchor ++ opt 4 i32 p.periodStart

/-- The fields of ACCESS_STATUS (R99). -/
def accessStatusBytes (s : State) : List Byte :=
  u8 s.access.deviceKey.code ++ s.access.purse.bytes ++ u8 s.tiersHeld ++ u8 s.access.grants.length
    ++ u8 s.access.purchases.length
    ++ w32 s.access.counters.entKeyOff ++ w32 s.access.counters.entOtherAddress
    ++ w32 s.access.counters.entAuthFailed ++ w32 s.access.counters.entStale
    ++ w32 s.access.counters.entApplied

/-- ACCESS_STATUS by its owner (R99). -/
def accessStatusReq : Req := fun s => (answer .ok (accessStatusBytes s), s)

/-- ACCESS_STATUS (R99). -/
def execAccessStatus (tag : Byte) (s : State) : Result := .next (s.serve 0x3B tag accessStatusReq)

/-- A tier in TIER_READ (R100). -/
def tierBytes (s : State) (t : Fin 32) : List Byte :=
  flag (s.access.tiers[t]).held ++ opt 4 u32 (s.access.tiers[t]).expiry ++ flag (s.tierHeld t)

/-- TIER_READ by its owner (R100). -/
def tierReadReq : Req := fun s => (answer .ok (allTiers.flatMap (tierBytes s)), s)

/-- TIER_READ (R100). -/
def execTierRead (tag : Byte) (s : State) : Result := .next (s.serve 0x3C tag tierReadReq)

/-- GRANT_READ by its owner (R100). -/
def grantReadReq : Req := fun s =>
  (answer .ok (u8 s.access.grants.length
    ++ s.access.grants.flatMap fun g => u32 g.eid ++ u16 g.sid ++ u32 g.endTime), s)

/-- GRANT_READ (R100). -/
def execGrantRead (tag : Byte) (s : State) : Result := .next (s.serve 0x3D tag grantReadReq)

end Sys2Proof.Machine
end

