-- ==== Sys2Proof/Machine/Boot.lean ====
section
/-! DEFINITION. The part's own transitions: power-on, power loss, RESTART's entry to BOOT, the end of BOOT
(R171, R173, R178), and what an idle millisecond does (log 2). -/

namespace Sys2Proof.Machine

open Sys2Proof

/-! ### Power (R171, R178) -/

/-- The part without power: the store alone keeps anything (R178, R185). -/
def unpowered (s : State) : State :=
  let keeps := Config.powerLossKeepsNew s.nature.drawn
  { pending := s.pending, power := false, nature := s.countDraw.nature,
    store := s.store.powerLoss keeps }

/-- The part as power is applied: every volatile item at its power-on value (R171). -/
def powered (s : State) : State := { pending := s.pending, nature := s.nature, store := s.store }

/-- A power-on, of a part that had power a power cycle (log 17). -/
def applyPower (s : State) : State := bootCheck (powered (if s.power then unpowered s else s))

/-- The guide store at RESTART: the pending rewrite and the patrol alone go (R103). -/
def Guide.restart (g : Guide) : Guide := { g with scrub := none, patrol := 0, patrolDue := none }

/-- The part as RESTART enters BOOT: what RESTART keeps, and everything else at its reset value (R173). -/
def restarted (s : State) : State :=
  { pending := s.pending, nature := s.nature, store := s.store, clock := s.clock, faults := s.faults,
    guide := s.guide.restart, access := { deviceKey := s.access.deviceKey } }

/-- Whether RESTART's wait is over: every unit written and every reply sent (R173). -/
def State.mayReboot (s : State) : Bool :=
  s.power && s.restarting && s.store.drained && s.link.replies.isEmpty && s.link.tx == .idle

/-! ### The end of BOOT (R127, R131, R147, R171) -/

/-- The default profile a view slot takes at the end of BOOT: profile 0 if the one named is not in use
(R127). -/
def State.defaultFor (s : State) (v : Fin 3) : Fin 8 :=
  let p := s.parental.household.defaults[v]
  if (s.profile p).inUse then p else 0

/-- The view slots take their default profiles, and defaults not in use become 0 (R127). -/
def takeDefaults (s : State) : State :=
  let d : Vector (Fin 8) 3 := Vector.ofFn s.defaultFor
  let changed := d ≠ s.parental.household.defaults
  let s := forEach viewSlots (fun v s =>
    s.modSlot (viewSlot v) fun sl => { sl with profile := some d[v] }) s
  if changed then
    (s.modParental fun q => { q with household := { q.household with defaults := d } }).handHousehold
  else s

/-- The conditions of a slot as the parental unit gives them in full (R131). -/
def State.fullConditions (s : State) (k : Fin 5) : SlotSources :=
  match asView k with
  | some v =>
    let x : SlotSources :=
      { ratingOk := s.condition v .ratingOk, windowOk := s.condition v .windowOk,
        allowanceLeft := s.condition v .allowanceLeft }
    { x with parentalOk := x.parental }
  | none => { ratingOk := true, windowOk := true, allowanceLeft := true, parentalOk := true }

/-- The gate array takes the full set and makes its end-of-BOOT pass, every enabled cell marked (R147). -/
def bootPass (s : State) : State :=
  let s := s.modGate fun g => { g with src := Vector.ofFn s.fullConditions }
  gatePass (cellsDown.filter fun n => (s.gate.cells[n]).enabled) s

/-- Whether BOOT may end: the boot check made and every unit it wrote written (R171, R179). -/
def State.mayEndBoot (s : State) : Bool :=
  s.power && s.mode == .boot && s.booted && s.store.drained

/-- BOOT ends: step 4 of R171, then CONFIG. The first patrol visit comes 50 ms later (R116). -/
def endBoot (s : State) : State :=
  let s := settle (bootPass (takeDefaults s))
  let s := s.modGuide fun g => { g with patrolDue := some (s.clock.uptimeMs + 50) }
  (s.setMode .config).modeNotice .boot .boot .config

/-! ### The expiries, each with the timer that must run -/

/-- KEY_TIMEOUT (R16). The lane is released after the slot's notice, the model's choice (log 45). -/
def keyTimeout (k : Fin 5) (s : State) : State :=
  if (s.slot k).state = .acquiring ∧ (s.slot k).keyTimer.isSome then
    homeRedecide (releaseLeft (s.slot k).lane (faultSlot .keyTimeout k s))
  else s

/-- SEEK_FAILED (R38). -/
def seekTimeout (l : Fin 3) (s : State) : State :=
  if (s.lane l).seekTimer.isSome then seekFails l s else s

/-- The silence timer expires: the lane is lost, and FRONTEND_SILENT names it (R44), after all that the loss brings
about by the model's choice (log 45). -/
def silenceTimeout (l : Fin 3) (s : State) : State :=
  if (s.lane l).isLocked ∧ (s.lane l).silenceTimer.isSome then
    (laneLost .silent l s).setFault .frontendSilent fun f => { f with silent := f.silent.set l true }
  else s

/-- The sweep's timer expires (R119). -/
def sweepTimeout (s : State) : State := if s.sweep.timer.isSome then sweepTimer s else s

/-- An entry's retry timer expires (R164). -/
def retryTimeout (n : Fin 24) (s : State) : State :=
  if (s.entry n).retry.isSome then retryExpires n s else s

/-- The pending rewrite completes (R113). -/
def scrubTimeout (s : State) : State := s.modGuide Guide.scrubDone

/-- More than 5 ms between two bytes of a frame (R183). -/
def byteTimeout (s : State) : State := if s.link.receiver = .hunt then s else s.frameError

/-! ### An idle millisecond (log 2) -/

/-- Whether a timer has come to its expiry. -/
def due (now : Nat) (t : Option Nat) : Bool := t.any (· ≤ now)

/-- The timers of the blocks that have come due, block by block (log 2). -/
def dueWork (s : State) : State :=
  let now := s.clock.uptimeMs
  let s := if due now (s.guide.scrub.map (·.due)) then scrubTimeout s else s
  let s := if due now s.guide.patrolDue then patrol s else s
  let s := forEach allLanes (fun l s =>
    if due now (s.lane l).seekTimer then seekTimeout l s else s) s
  let s := forEach allLanes (fun l s =>
    if due now (s.lane l).silenceTimer then silenceTimeout l s else s) s
  let s := forEach allSlots (fun k s => if due now (s.slot k).keyTimer then keyTimeout k s else s) s
  let s := match s.arb.home with
    | .retry e => if e ≤ now then homeRetry s else s
    | _ => s
  let s := if due now s.sweep.timer then sweepTimeout s else s
  forEach allEntries (fun n s => if due now (s.entry n).retry then retryTimeout n s else s) s

/-- The link port's inter-byte time, while it takes bytes (R183). -/
def dueByte (s : State) : State :=
  if s.linkOpen ∧ s.link.receiver ≠ .hunt ∧ s.link.lastByteMs + 5 < s.clock.uptimeMs then s.frameError
  else s

/-- The write in progress, if its 8 ms are over, completes (R178). -/
def dueWrite (s : State) : State :=
  match s.store.writing with
  | some (_, t) =>
    if t ≤ s.clock.uptimeMs then s.modStore (Store.writeComplete s.clock.uptimeMs) else s
  | none => s

/-- The frame being sent, if its time is over, ends (R182, R187, log 9). -/
def dueFrame (s : State) : State :=
  if s.link.tx ≠ .idle ∧ s.link.txDue ≤ s.clock.uptimeMs then s.modLink Link.frameEnd else s

/-- A bit of a guide place is disturbed at rest, if the free value says so (R112, log 15). -/
def disturb (s : State) : State :=
  match Config.guideDisturbance s.nature.drawn with
  | none => s
  | some n => s.modGuide fun g => { g with places := g.places.map fun p =>
      if p.num = n then { p with disturbed := p.disturbed + 1 } else p }

/-- The check of one retained unit spoilt. -/
def Units.spoil (i : UnitId) (u : Units) : Units :=
  match i with
  | .access => { u with access := { u.access with sound := false } }
  | .purchase n => { u with purchases := u.purchases.set n { u.purchases[n] with sound := false } }
  | .tiers => { u with tiers := { u.tiers with sound := false } }
  | .grants => { u with grants := { u.grants with sound := false } }
  | .profile n => { u with profiles := u.profiles.set n { u.profiles[n] with sound := false } }
  | .household => { u with household := { u.household with sound := false } }
  | .header => { u with formatted := false }

/-- The check of a retained unit is spoilt, if the free value says so (R179, log 15). -/
def decay (s : State) : State :=
  match (allUnits ++ [UnitId.header]).find? fun i =>
      Config.storeDecay s.nature.drawn == some i.number with
  | none => s
  | some i => s.modStore fun st => { st with units := st.units.spoil i }

/-- What nature does in a millisecond: free values alone (log 14, log 15). -/
def natureWork (s : State) : State :=
  let s := decay (disturb s)
  ({ s with nature := { s.nature with
      keySound := Config.keySound s.nature.drawn s.nature.keySound } }).countDraw

/-- BOOT, or RESTART's wait, ends once it may (R171, R173). -/
def dueBoot (s : State) : State :=
  if s.mayEndBoot then endBoot s
  else if s.mayReboot then bootCheck (restarted s)
  else s

/-- The clock a millisecond on, with the second's work at a whole second (R174). -/
def advanceMs (s : State) : State :=
  let s := s.modClock fun c => { c with uptimeMs := c.uptimeMs + 1 }
  if s.clock.uptimeMs % 1000 = 0 then secondWork s else s

/-- One millisecond of a part with power that has no command waiting (log 2). -/
def tick (s : State) : State :=
  let s := s.clearOut
  if s.power then
    let s := dueFrame (dueWrite (advanceMs (natureWork s)))
    let s := dueByte s
    let s := settle (if s.awake then dueWork s else s)
    (dueBoot s).startTx
  else s

end Sys2Proof.Machine
end

