-- ==== Sys2Proof/Machine/Operands.lean ====
section
/-! DEFINITION. The operand forms: fields of bytes most significant first (R182), the cell header, the
control records and their fields (R61, R62, R77, R104, R174, R192), and the ranges that requests clamp
their fields into (R186). -/

namespace Sys2Proof.Machine

open Sys2Proof

/-! ### Fields of bytes (R182) -/

/-- The number that some bytes hold, most significant first. -/
def beNat (l : List Byte) : Nat := l.foldl (fun n b => 256 * n + b.toNat) 0

/-- The bytes of a field at an offset. -/
def bytesAt (off width : Nat) (l : List Byte) : List Byte := (l.drop off).take width

/-- The number of a field at an offset. -/
def natAt (off width : Nat) (l : List Byte) : Nat := beNat (bytesAt off width l)

/-- The byte at an offset. -/
def byteAt (off : Nat) (l : List Byte) : Byte := l.getD off 0

/-- A 16-bit number in two's complement (R182). -/
def signed16 (n : Nat) : Int := (BitVec.ofNat 16 n).toInt

/-! ### The cell (R58, R192) -/

/-- The phase code of a cell. -/
inductive CellPhase where
  | clear | a | b | reserved
deriving DecidableEq, Repr

/-- A cell's header fields and payload. The unused field is not examined (R58). -/
structure CellView where
  tag : Nat
  phase : CellPhase
  seq : BitVec 6
  payload : List Byte

/-- The phase a code names (R192). -/
def cellPhase (code : Nat) : CellPhase :=
  match code with
  | 0 => .clear
  | 1 => .a
  | 2 => .b
  | _ => .reserved

/-- The fields of a cell as it arrives (R192). -/
def viewCellBytes (l : List Byte) : CellView :=
  let b0 := (byteAt 0 l).toNat
  let b1 := (byteAt 1 l).toNat
  let b2 := (byteAt 2 l).toNat
  { tag := 4 * b0 + b1 / 64
    phase := cellPhase (b1 / 16 % 4)
    seq := BitVec.ofNat 6 (4 * (b1 % 16) + b2 / 64)
    payload := l.drop 4 }

/-- A cell as it leaves a slot output port: phase CLEAR, the unused field 0 (R71, R192). -/
def outCellBytes (tag : Nat) (seq : BitVec 6) (payload : List Byte) : List Byte :=
  [BitVec.ofNat 8 (tag / 4), BitVec.ofNat 8 (64 * (tag % 4) + seq.toNat / 4),
   BitVec.ofNat 8 (64 * (seq.toNat % 4)), 0] ++ payload

/-! ### Control records (R61, R192) -/

/-- A control record that passed R61: its kind and its whole bytes. -/
structure RecordView where
  kind : Nat
  bytes : List Byte

/-- The record of a payload, if its length and check are right (R61 item 2). -/
def recordOf (payload : List Byte) : Option RecordView :=
  let len := natAt 1 1 payload
  if len < 4 ∨ payload.length < len then none
  else
    let r := payload.take len
    if natAt (len - 2) 2 r = (crc16 (r.take (len - 2))).toNat then
      some { kind := natAt 0 1 payload, bytes := r }
    else none

/-- The record kinds of a consumer (R61). -/
def Consumer.takes : Consumer → Nat → Bool
  | .key, n => n == 1
  | .entitlement, n => n == 2
  | .guide, n => n == 3 || n == 4
  | .time, n => n == 5

/-- A phase code of a KEY record (R192). -/
def phaseOf : Nat → Option Phase
  | 0 => some .a
  | 1 => some .b
  | _ => none

/-- A requirement of a KEY record (R62, R192). -/
def requirementOf (kind value : Nat) : Option Requirement :=
  match kind with
  | 0 => some .free
  | 1 => (toFin? 32 value).map .tier
  | 2 => some (.event value)
  | _ => none

/-- A KEY record, if it passes R62. -/
def keyRecordOf (r : List Byte) : Option KeyRecord :=
  match phaseOf (natAt 4 1 r), requirementOf (natAt 7 1 r) (natAt 8 4 r) with
  | some phase, some req =>
    if r.length = 30 ∧ natAt 2 2 r ≠ 0 then
      some { sid := natAt 2 2 r, phase, period := BitVec.ofNat 16 (natAt 5 2 r), req,
             wrapped := BitVec.ofNat 128 (natAt 12 16 r) }
    else none
  | _, _ => none

/-- The expiry of TIER_SET, if its present flag passes (R192). -/
def expiryOf (flag value : Nat) : Option (Option Nat) :=
  match flag with
  | 0 => some none
  | 1 => some (some value)
  | _ => none

/-- The fields of an entitlement kind, if they pass R77; `f` holds the eight bytes. -/
def entKindOf (kind : Nat) (f : List Byte) : Option EntKind :=
  match kind with
  | 0 => match toFin? 32 (natAt 0 1 f), expiryOf (natAt 1 1 f) (natAt 2 4 f) with
    | some t, some e => some (.tierSet t e)
    | _, _ => none
  | 1 => (toFin? 32 (natAt 0 1 f)).map .tierClear
  | 2 => if natAt 0 2 f = 0 then none else some (.creditAdd (natAt 0 2 f))
  | 3 => some (.limitSet (natAt 0 2 f))
  | 4 =>
    if natAt 0 1 f ≤ 60 ∧ 1 ≤ natAt 3 1 f ∧ natAt 3 1 f ≤ 31 then
      some (.termsSet (natAt 0 1 f) (natAt 1 2 f) (natAt 3 1 f) (natAt 4 4 f))
    else none
  | 5 => some (.release (natAt 0 4 f))
  | _ => none

/-- An ENTITLEMENT record as the access unit examines it (R78). -/
def entRecordOf (r : List Byte) : EntRecord :=
  { address := BitVec.ofNat 32 (natAt 2 4 r)
    issue := natAt 6 4 r
    kind := if r.length = 37 then entKindOf (natAt 10 1 r) (bytesAt 11 8 r) else none
    authentic := Config.authentic r }

/-- A flag of a control record: 0 or 1, else the record fails (R104). -/
def flagAt (off : Nat) (r : List Byte) : Option Bool := flag? (byteAt off r)

/-- A GUIDE_EVENT record, if it passes R104. A price that is absent is not examined. -/
def guideEventOf (r : List Byte) : Option GuideEvent :=
  match flagAt 16 r, flagAt 21 r, flagAt 22 r with
  | some priced, some purchasable, some prorate =>
    let e : GuideEvent :=
      { sid := natAt 2 2 r, eid := natAt 4 4 r, version := natAt 8 1 r, start := natAt 9 4 r,
        duration := natAt 13 2 r, rating := natAt 15 1 r,
        price := if priced then some (natAt 17 4 r) else none,
        purchasable, prorate, preview := natAt 23 1 r, title := natAt 24 4 r }
    if r.length = 30 ∧ e.sid ≠ 0 ∧ 1 ≤ e.duration ∧ e.duration ≤ 1440 ∧ e.rating ≤ 6
        ∧ e.preview ≤ 15 ∧ (e.price.all fun p => p ≤ 65535) ∧ e.start + 60 * e.duration ≤ 4294967295
    then some e
    else none
  | _, _, _ => none

/-- A GUIDE_CANCEL record, if it passes R104: its service id and event id. -/
def cancelOf (r : List Byte) : Option (Nat × Nat) :=
  if r.length = 10 ∧ natAt 2 2 r ≠ 0 then some (natAt 2 2 r, natAt 4 4 r) else none

/-- A TIME record, if it passes R174: its UTC seconds and local offset. -/
def timeOf (r : List Byte) : Option (Nat × Int) :=
  let off := signed16 (natAt 6 2 r)
  if r.length = 10 ∧ -720 ≤ off ∧ off ≤ 840 then some (natAt 2 4 r, off) else none

/-! ### Clamps of requests (R186) -/

/-- The local offset taken (R175). -/
def clampOffset (i : Int) : Int := max (-720) (min 840 i)

/-- The accumulation count taken: the largest allowed value not above the one asked, 0 as 1 (R40). -/
def clampN (n : Nat) : Nat :=
  if n < 2 then 1 else if n < 4 then 2 else if n < 8 then 4 else if n < 16 then 8
  else if n < 32 then 16 else 32

end Sys2Proof.Machine
end

