-- ==== Sys2Proof/Machine/Cells.lean ====
section
/-! DEFINITION. The routing of a cell: control records to their consumers, component cells through the
descramblers to the slot outputs (chapter 3). -/

namespace Sys2Proof.Machine

open Sys2Proof

/-! ### Router counters (R58) -/

/-- Counts a cell that no entry matches. -/
def Router.countUnmatched (l : Fin 3) (r : Router) : Router :=
  { r with cells := r.cells.set l { r.cells[l] with unmatched := r.cells[l].unmatched + 1 } }

/-- Counts a cell discarded for its phase (R58, R61, R70). -/
def Router.countPhase (l : Fin 3) (r : Router) : Router :=
  { r with cells := r.cells.set l { r.cells[l] with phaseDiscard := r.cells[l].phaseDiscard + 1 } }

/-! ### The descrambler and the output (R19, R70, R71) -/

/-- The phase that selects a key. -/
def CellPhase.key : CellPhase → Option Phase
  | .a => some .a
  | .b => some .b
  | _ => none

/-- A cell passed on leaves if the slot is PRESENTING (R71). -/
def outputCell (k : Fin 5) (tag : Nat) (seq : BitVec 6) (payload : List Byte) (s : State) : State :=
  if (s.slot k).state = .presenting then
    (s.modSlot k fun sl => { sl with cellsOut := sl.cellsOut + 1 }).emit
      (.cellOut k (outCellBytes tag seq payload))
  else s

/-- The starvation test: at least 2,000 ms since the later of the last decoded cell and the entry to
PRESENTING (R19). DESIGN CHOICE (log 50): a word accepted with no cell yet decoded under it does not start the time
afresh, although R19's last sentence measures from the first decoded cell under the new word. -/
def Slot.starved (now : Nat) (sl : Slot) : Bool :=
  sl.state == .presenting && max (sl.desc.lastDecoded.getD 0) (sl.since.getD 0) + 2000 ≤ now

/-- An unkeyed cell: counted, and in PRESENTING the starvation test (R19, R70). -/
def unkeyedCell (k : Fin 5) (s : State) : State :=
  let s := s.modSlot k fun sl => { sl with unkeyed := sl.unkeyed + 1 }
  if (s.slot k).starved s.clock.uptimeMs then enterHeld .keyLost k s else s

/-- A component cell handled by one slot's descrambler (R70). -/
def descrambleCell (l : Fin 3) (c : CellView) (k : Fin 5) (s : State) : State :=
  match c.phase.key with
  | none => outputCell k c.tag c.seq c.payload s
  | some p =>
    if s.isClear k then s.modRouter (Router.countPhase l)
    else match (s.slot k).desc.key p with
      | none => unkeyedCell k s
      | some x =>
        outputCell k c.tag c.seq (Config.descramble x.word c.payload)
          (s.modDesc k fun d => { d with lastDecoded := some s.clock.uptimeMs })

/-- Whether a cell makes a gap against its entry (R59). -/
def Filter.gap (seq : BitVec 6) (f : Filter) : Bool := f.last.any fun x => seq != x + 1

/-- A component cell: continuity, then each slot's descrambler (R58, R59). The manual gives the members of a slot
set no order, and they take the cell in ascending order, the model's choice (log 31). -/
def componentCell (l : Fin 3) (c : CellView) (f : Filter) (ks : List (Fin 5)) (s : State) : State :=
  let s := if f.gap c.seq then
      forEach ks (fun k s => s.modSlot k fun sl => { sl with gaps := sl.gaps + 1 }) s
    else s
  let s := s.modRouter fun r =>
    { r with filters := keyPut Filter.key { f with last := some c.seq } r.filters }
  forEach ks (descrambleCell l c) s

/-! ### Control records (R61) -/

/-- A record delivered to its consumer, which checks its length and fields (R61). -/
def deliver (l : Fin 3) (r : RecordView) (s : State) : State :=
  match r.kind with
  | 1 => match keyRecordOf r.bytes with
    | some x => takeKeyRecord l x s
    | none => s.streamRecordBad
  | 2 => takeEntitlement (entRecordOf r.bytes) s
  | 3 => match guideEventOf r.bytes with
    | some e => (takeEventRecord e s).2
    | none => s.streamRecordBad
  | 4 => match cancelOf r.bytes with
    | some (sid, eid) => takeCancel sid eid s
    | none => s.streamRecordBad
  | 5 => match timeOf r.bytes with
    | some (t, off) => takeTime t off s
    | none => s.streamRecordBad
  | _ => s.streamRecordBad

/-- A cell on a control entry (R61). -/
def controlCell (l : Fin 3) (c : CellView) (x : Consumer) (s : State) : State :=
  if c.phase ≠ .clear then s.modRouter (Router.countPhase l)
  else match recordOf c.payload with
    | none => s.streamRecordBad
    | some r => if x.takes r.kind then deliver l r s else s.streamRecordBad

/-- A cell that a LOCKED lane passes to the router (R58). -/
def routeCell (l : Fin 3) (c : CellView) (s : State) : State :=
  if c.phase = .reserved then s.modRouter (Router.countPhase l)
  else match keyFind Filter.key (l.val * 1024 + c.tag) s.router.filters with
    | none => s.modRouter (Router.countUnmatched l)
    | some f => match f.dest with
      | .consumer x => controlCell l c x s
      | .slots ks => componentCell l c f ks s

end Sys2Proof.Machine
end

