-- ==== Sys2Proof/Machine/Events.lean ====
section
/-! DEFINITION. The meanings of the rows that are no requests: power, the front ends' events, the expiries of
the part's timers, and the time-boundary work of single blocks (log 3, log 4). -/

namespace Sys2Proof.Machine

open Sys2Proof

/-! ### Power and BOOT -/

/-- POWER_ON (R171). -/
def execPowerOn (s : State) : Result := .next (applyPower s).startTx

/-- POWER_LOSS (R178). -/
def execPowerLoss (s : State) : Result := .next (if s.power then unpowered s else s.clearOut)

/-- BOOT_END (R171). -/
def execBootEnd (s : State) : Result :=
  .next (if s.mayEndBoot then (endBoot s.clearOut).startTx else s.clearOut)

/-- ENTER_BOOT (R173). -/
def execEnterBoot (s : State) : Result :=
  .next (if s.mayReboot then (bootCheck (restarted s)).startTx else s.clearOut)

/-! ### The link port -/

/-- An event of the link port, which the part takes in BOOT too (R183, R187). -/
def State.linkEvent (f : State → State) (s : State) : State :=
  if s.linkOpen then (f s.clearOut).startTx else s.clearOut

/-- LINK_FRAME: a frame error (R183). -/
def execLinkFrame (s : State) : Result := .next (s.linkEvent State.frameError)

/-- INTER_BYTE_TIMEOUT (R183). -/
def execInterByteTimeout (s : State) : Result := .next (s.linkEvent byteTimeout)

/-- TRANSMIT_FRAME_END: the transmitter goes on after RESTART is taken (R173, R187). -/
def execTransmitFrameEnd (s : State) : Result :=
  .next (if s.power then (s.clearOut.modLink Link.frameEnd).startTx else s.clearOut)

/-! ### The lanes -/

/-- LOCK: taken in SEEKING under the current order number alone (R37). -/
def lockEvent (l : Fin 3) (order : Byte) (s : State) : State :=
  if (s.lane l).state = .seeking ∧ (s.lane l).order = order then laneLocks l s else s

/-- LOCK (R37). -/
def execLock (l : Fin 3) (order : Byte) (s : State) : Result := .next (s.event (lockEvent l order))

/-- LANE_UNLOCK (R37, R43). -/
def execLaneUnlock (l : Fin 3) (s : State) : Result := .next (s.event (laneLost .unlock l))

/-- SAMPLE: in LOCKED it is graded (R37, R41). -/
def sampleEvent (l : Fin 3) (e : Nat) (s : State) : State :=
  if (s.lane l).isLocked then takeSample e l s else s

/-- A SAMPLE clears the FRONTEND_SILENT fault of its lane, whatever the lane's state (R44). -/
def clearSilent (l : Fin 3) (s : State) : State :=
  s.modFaults fun f => { f with silent := f.silent.set l false }

/-- SAMPLE (R41, R44). In BOOT too it clears its lane's fault. -/
def execSample (l : Fin 3) (errors : BitVec 12) (s : State) : Result :=
  .next ((if s.linkOpen then clearSilent l s else s).event (sampleEvent l errors.toNat))

/-- CELL: a cell of a lane that is not LOCKED is discarded and not counted (R37, R58). -/
def cellEvent (l : Fin 3) (bytes : List Byte) (s : State) : State :=
  if (s.lane l).isLocked then routeCell l (viewCellBytes bytes) s else s

/-- CELL (R58). -/
def execCell (l : Fin 3) (bytes : List Byte) (s : State) : Result := .next (s.event (cellEvent l bytes))

/-! ### Expiries -/

/-- SEEK_FAILED (R38). -/
def execSeekFailed (l : Fin 3) (s : State) : Result := .next (s.event (seekTimeout l))

/-- SILENCE_TIMER_EXPIRY (R44). -/
def execSilenceTimerExpiry (l : Fin 3) (s : State) : Result := .next (s.event (silenceTimeout l))

/-- KEY_TIMEOUT (R16). -/
def execKeyTimeout (k : Fin 5) (s : State) : Result := .next (s.event (keyTimeout k))

/-- HOME_RETRY_EXPIRY (R54). -/
def execHomeRetryExpiry (s : State) : Result := .next (s.event homeRetry)

/-- SWEEP_TIMER_EXPIRY (R119). -/
def execSweepTimerExpiry (s : State) : Result := .next (s.event sweepTimeout)

/-- SCHEDULE_RETRY_EXPIRY (R164). -/
def execScheduleRetryExpiry (n : Fin 24) (s : State) : Result := .next (s.event (retryTimeout n))

/-- PATROL_VISIT (R116). -/
def execPatrolVisit (s : State) : Result := .next (s.event patrol)

/-- SCRUB_REWRITE (R113). -/
def execScrubRewrite (s : State) : Result := .next (s.event scrubTimeout)

/-- STORE_WRITE_COMPLETE: the store writes on in BOOT and while RESTART waits (R173, R178). -/
def execStoreWriteComplete (s : State) : Result :=
  .next (if s.power then
      (s.clearOut.modStore (Store.writeComplete s.clock.uptimeMs)).startTx
    else s.clearOut)

/-! ### The clock -/

/-- SECOND_BOUNDARY: the clock advances in BOOT and while RESTART waits too (R174, log 5). -/
def execSecondBoundary (s : State) : Result :=
  .next (if s.power then (settle (nextSecond s.clearOut)).startTx else s.clearOut)

/-- TIER_EXPIRY (R75). -/
def execTierExpiry (s : State) : Result := .next (s.event expireTiers)

/-- GRANT_EXPIRY (R76). -/
def execGrantExpiry (s : State) : Result := .next (s.event expireGrants)

/-- PREVIEW_END (R85). -/
def execPreviewEnd (k : Fin 5) (s : State) : Result := .next (s.event (endPreview k))

/-- PERIOD_ROLLOVER (R89). -/
def execPeriodRollover (s : State) : Result := .next (s.event rollover)

/-- DAY_START_RESET (R136). -/
def execDayStartReset (s : State) : Result := .next (s.event compareDay)

/-- PRUNE (R109). -/
def execPrune (s : State) : Result := .next (s.event prune)

/-- SCHEDULE_TRIGGER (R161). -/
def execScheduleTrigger (n : Fin 24) (s : State) : Result := .next (s.event (evaluate n))

/-- RUN_END (R163). -/
def execRunEnd (n : Fin 24) (s : State) : Result := .next (s.event (checkEnd n))

/-- LOCKOUT_END: the last second of a lockout (R130). -/
def lockoutEnd (p : Fin 8) (s : State) : State :=
  if (s.profile p).lockout = 1 then countLockout p s else s

/-- LOCKOUT_END (R130). -/
def execLockoutEnd (p : Fin 8) (s : State) : Result := .next (s.event (lockoutEnd p))

/-- UNLOCK_END: the last second of an unlock record (R138). -/
def unlockEnd (v : Fin 3) (s : State) : State :=
  if (s.parental.unlocks[v]).any (·.remaining ≤ 1) then endUnlock v s else s

/-- UNLOCK_END (R138). -/
def execUnlockEnd (v : Fin 3) (s : State) : Result := .next (s.event (unlockEnd v))

/-- ALLOWANCE_OUT: the last second of an allowance (R134, R135). -/
def allowanceOut (p : Fin 8) (s : State) : State :=
  if (s.profile p).remaining = 1 then countAllowance p s else s

/-- ALLOWANCE_OUT (R135). -/
def execAllowanceOut (p : Fin 8) (s : State) : Result := .next (s.event (allowanceOut p))

/-- PROFILE_UNIT_WRITE (R128). -/
def execProfileUnitWrite (s : State) : Result := .next (s.event writeDirtyProfiles)

end Sys2Proof.Machine
end

