-- ==== Sys2Proof/Machine/ProfileRequests.lean ====
section
/-! DEFINITION. The meanings of the requests of chapter 6: unlocks, profiles and the household. -/

namespace Sys2Proof.Machine

open Sys2Proof

/-! ### Unlocks (R137, R139) -/

/-- An unlock record set (R137). -/
def setUnlock (v : Fin 3) (sid minutes : Nat) (s : State) : State :=
  gateReport [.slot (viewSlot v) .unlocked true] (s.modParental fun q =>
    { q with unlocks := q.unlocks.set v (some { sid, remaining := 60 * minutes }) })

/-- What the PIN check of profile 0 lets through (R129). -/
def withMaster (pin : Pin) (f : Req) : Req := fun s =>
  match pinCheck 0 pin s with
  | (some st, s) => refuse st s
  | (none, s) => f s

/-- UNLOCK by its owner (R137). -/
def unlockReq (slot : Byte) (pin : Pin) (minutes : Byte) : Req := fun s =>
  match toFin? 3 slot.toNat, pinDigitsOk pin with
  | some v, true =>
    if s.mode ≠ .service then refuse .notInMode s
    else if (s.slot (viewSlot v)).state = .free then refuse .noSuch s
    else match (s.slot (viewSlot v)).service with
      | none => refuse .noSuch s
      | some sid => withMaster pin (fun s =>
          let m := clamp 1 240 minutes.toNat
          (answer .ok (u8 v.val ++ u16 sid ++ u8 m), setUnlock v sid m s)) s
  | _, _ => refuse .badField s

/-- UNLOCK (R137). -/
def execUnlock (tag : Byte) (slot : Byte) (pin : Pin) (minutes : Byte) (s : State) : Result :=
  .next (s.serve 0x0C tag (unlockReq slot pin minutes))

/-- RELOCK by its owner (R139). -/
def relockReq (slot : Byte) : Req := fun s =>
  match toFin? 3 slot.toNat with
  | some v => (answer .ok (u8 v.val ++ flag (s.parental.unlocks[v]).isSome), endUnlock v s)
  | none => refuse .badField s

/-- RELOCK (R139). -/
def execRelock (tag : Byte) (slot : Byte) (s : State) : Result :=
  .next (s.serve 0x0D tag (relockReq slot))

/-! ### Selecting a profile (R140) -/

/-- A profile selected on a view slot: its unlock ends, then its conditions are computed (R140, log 39). -/
def selectProfile (v : Fin 3) (p : Fin 8) : Req := fun s =>
  (answer .ok (u8 v.val ++ u8 p.val), takeProfiles (fun _ => p) [v] (endUnlock v s))

/-- Checks 2 to 4 of R140. -/
def profileSelectChecked (v : Fin 3) (p : Fin 8) (pin : Pin) : Req := fun s =>
  if !(s.profile p).inUse then refuse .noSuch s
  else if 0 < (s.profile p).lockout then refuse .locked s
  else if (s.profile p).pinToSelect then match pinCheck p pin s with
    | (some st, s) => refuse st s
    | (none, s) => selectProfile v p s
  else selectProfile v p s

/-- PROFILE_SELECT by its owner (R140). -/
def profileSelectReq (slot profile : Byte) (pin : Pin) : Req := fun s =>
  match toFin? 3 slot.toNat, toFin? 8 profile.toNat, pinDigitsOk pin with
  | some v, some p, true => profileSelectChecked v p pin s
  | _, _, _ => refuse .badField s

/-- PROFILE_SELECT (R140). -/
def execProfileSelect (tag : Byte) (slot profile : Byte) (pin : Pin) (s : State) : Result :=
  .next (s.serve 0x0A tag (profileSelectReq slot profile pin))

/-! ### Writing a profile (R141) -/

/-- A window of a request, if it is in range (R141). -/
def readWindow (w : WindowReq) : Option Window :=
  if w.mask.toNat ≤ 127 ∧ w.start.toNat ≤ 1439 ∧ 1 ≤ w.stop.toNat ∧ w.stop.toNat ≤ 1440
      ∧ w.stop ≠ w.start then
    some { mask := w.mask, start := w.start.toNat, stop := w.stop.toNat }
  else none

/-- The windows of a request, if each is in range and they are no more than 4 (R141). -/
def readWindows (l : List WindowReq) : Option (List Window) :=
  let ws := l.filterMap readWindow
  if l.length = ws.length ∧ l.length ≤ 4 then some ws else none

/-- What a PROFILE_PUT that passes check 1 of R141 asks for: the profile's fields, with its own remaining,
spend, failures and lockout left out. -/
structure ProfileEdit where
  profile : Fin 8
  inUse : Bool
  pin : Pin
  pinToSelect : Bool
  buyNeedsPin : Bool
  ceiling : Nat
  outside : Bool
  windows : List Window
  allowance : Option Nat
  cap : Option Nat
deriving DecidableEq, Repr

/-- The six flags of a PROFILE_PUT, if each is 0 or 1: in use, PIN to select, buy needs PIN, window mode,
allowance present, cap present. -/
def profileFlags (r : ProfileReq) : Option (Vector Bool 6) :=
  match flag? r.inUse, flag? r.pinToSelect, flag? r.buyNeedsPin, flag? r.windowMode,
      flag? r.allowancePresent, flag? r.capPresent with
  | some a, some b, some c, some d, some e, some f => some #v[a, b, c, d, e, f]
  | _, _, _, _, _, _ => none

/-- The edit a PROFILE_PUT asks for, if it passes check 1 of R141. Ceiling and allowance are clamped. -/
def readProfile (r : ProfileReq) : Option ProfileEdit :=
  match toFin? 8 r.profile.toNat, profileFlags r, readWindows r.windows with
  | some p, some f, some ws =>
    if pinDigitsOk r.masterPin ∧ pinDigitsOk r.newPin ∧ (f[0] ∨ p ≠ 0) then
      some { profile := p, inUse := f[0], pin := r.newPin, pinToSelect := f[1], buyNeedsPin := f[2],
             ceiling := clamp 0 6 r.ceiling.toNat, outside := f[3], windows := ws,
             allowance := if f[4] then some (clamp 0 86400 r.allowance.toNat) else none,
             cap := if f[5] then some r.cap.toNat else none }
    else none
  | _, _, _ => none

/-- A record under an edit that keeps it in use (R141). Its remaining follows on its own. -/
def Profile.edit (e : ProfileEdit) (r : Profile) : Profile :=
  { r with
    inUse := true, pin := e.pin, pinToSelect := e.pinToSelect, buyNeedsPin := e.buyNeedsPin,
    ceiling := e.ceiling, outside := e.outside, windows := e.windows, allowance := e.allowance,
    cap := e.cap
    failures := if e.pin = r.pin then r.failures else 0
    lockout := if e.pin = r.pin then r.lockout else 0 }

/-- The remaining that an edit leaves (R141). -/
def remainingUnder (allowance : Option Nat) (remaining : Nat) : Nat :=
  match allowance with
  | none => 86400
  | some a => min remaining a

/-- A profile written in use: its remaining follows before the conditions are computed, all at once (R141). -/
def putProfile (e : ProfileEdit) (s : State) : State :=
  let p := e.profile
  let s := s.modProfile p (Profile.edit e)
  let s := setRemaining true p (remainingUnder e.allowance (s.profile p).remaining) s
  updateConditions (s.viewersOf p) s

/-- A record out of use: the format values, its period spend kept, its remaining following on its own
(R126, R141). -/
def Profile.retire (r : Profile) : Profile :=
  { ({} : Profile) with spend := r.spend, remaining := r.remaining }

/-- The defaults with a profile taken out (R141). -/
def Household.without (p : Fin 8) (h : Household) : Household :=
  { h with defaults := h.defaults.map fun d => if d = p then 0 else d }

/-- A profile taken out of use: its slots lose their unlocks and take their defaults, whose conditions are then
computed, all at once (R141, log 39). The household unit is handed over where a default named the profile, and then
before the profile unit: R141 can be read otherwise, and this is the model's choice (log 46). -/
def retireProfile (p : Fin 8) (s : State) : State :=
  let vs := s.viewersOf p
  let named := s.parental.household.defaults.contains p
  let s := s.modProfile p Profile.retire
  let s := s.modParental fun q => { q with household := q.household.without p }
  let s := if named then s.handHousehold else s
  let s := setRemaining true p 86400 s
  takeProfiles (fun v => s.parental.household.defaults[v]) vs (endUnlocks vs s)

/-- The answer of PROFILE_PUT (R141). The ceiling and the allowance taken are the request's, held in range, also where
the profile goes out of use and its record holds the format's: the model's choice (log 46). -/
def profilePutAnswer (e : ProfileEdit) (changed : List (Fin 3)) (s : State) : Answer :=
  answer .ok (u8 e.profile.val ++ u8 e.ceiling ++ opt 4 u32 e.allowance
    ++ u32 (s.profile e.profile).remaining ++ setByte changed)

/-- The effect of PROFILE_PUT (R141). -/
def profilePutTaken (e : ProfileEdit) : Req := fun s =>
  if e.inUse then
    let t := putProfile e s
    (profilePutAnswer e [] t, t)
  else
    let t := retireProfile e.profile s
    (profilePutAnswer e (s.viewersOf e.profile) t, t)

/-- PROFILE_PUT by its owner (R141). -/
def profilePutReq (r : ProfileReq) : Req := fun s =>
  match readProfile r with
  | none => refuse .badField s
  | some e => withMaster r.masterPin (profilePutTaken e) s

/-- PROFILE_PUT (R141). -/
def execProfilePut (tag : Byte) (r : ProfileReq) (s : State) : Result :=
  .next (s.serve 0x08 tag (profilePutReq r))

/-! ### ALLOWANCE_GRANT (R142) -/

/-- The effect of ALLOWANCE_GRANT (R142). A profile with no allowance has nothing to change. With one, a grant that
leaves remaining at 86,400 hands nothing over either, where R142 and R128 differ: the model's choice (log 49). -/
def grantAllowance (p : Fin 8) (seconds : Nat) (s : State) : State :=
  let new := min 86400 ((s.profile p).remaining + seconds)
  if new = (s.profile p).remaining then s else changeRemaining true p new s

/-- ALLOWANCE_GRANT by its owner (R142). -/
def allowanceGrantReq (profile : Byte) (seconds : Word) (pin : Pin) : Req := fun s =>
  match toFin? 8 profile.toNat, pinDigitsOk pin with
  | some p, true =>
    if !(s.profile p).inUse then refuse .noSuch s
    else withMaster pin (fun s =>
      let n := clamp 1 86400 seconds.toNat
      let t := grantAllowance p n s
      (answer .ok (u8 p.val ++ u32 n ++ u32 (t.profile p).remaining), t)) s
  | _, _ => refuse .badField s

/-- ALLOWANCE_GRANT (R142). -/
def execAllowanceGrant (tag : Byte) (profile : Byte) (seconds : Word) (pin : Pin) (s : State) : Result :=
  .next (s.serve 0x0B tag (allowanceGrantReq profile seconds pin))

/-! ### The household (R143, R144) -/

/-- The view slots whose profile new defaults change: those FREE under another (R143). -/
def State.slotsTaking (s : State) (d : Vector (Fin 8) 3) : List (Fin 3) :=
  viewSlots.filter fun v =>
    (s.slot (viewSlot v)).state == .free && (s.slot (viewSlot v)).profile != some d[v]

/-- The effect of HOUSEHOLD_SET: the conditions of the slots that take a default, and what a day that turns changes,
are reported together, RATING_OK first by the model's choice (R143, R149, log 39). -/
def setHousehold (hour : Nat) (d : Vector (Fin 8) 3) (s : State) : State :=
  let moved := s.parental.household.dayStart ≠ hour
  let s := (s.modParental fun q => { q with
    household := { q.household with dayStart := hour, defaults := d } }).handHousehold
  let vs := viewSlots.filter fun v => (s.slot (viewSlot v)).state == .free
  let s := assignProfiles (fun v => d[v]) vs s
  if moved then reportConditions [(.ratingOk, vs), (.windowOk, vs), (.allowanceLeft, viewSlots)] (turnDay s)
  else updateConditions vs s

/-- The three default profiles of a request, if each is in range (R143). -/
def readDefaults (d0 d1 d2 : Byte) : Option (Vector (Fin 8) 3) :=
  match toFin? 8 d0.toNat, toFin? 8 d1.toNat, toFin? 8 d2.toNat with
  | some a, some b, some c => some #v[a, b, c]
  | _, _, _ => none

/-- HOUSEHOLD_SET by its owner (R143). -/
def householdSetReq (pin : Pin) (hour d0 d1 d2 : Byte) : Req := fun s =>
  match readDefaults d0 d1 d2, pinDigitsOk pin with
  | some d, true =>
    if !(viewSlots.all fun v => (s.profile d[v]).inUse) then refuse .noSuch s
    else withMaster pin (fun s =>
      let h := clamp 0 23 hour.toNat
      (answer .ok (u8 h ++ setByte (s.slotsTaking d)), setHousehold h d s)) s
  | _, _ => refuse .badField s

/-- HOUSEHOLD_SET (R143). -/
def execHouseholdSet (tag : Byte) (pin : Pin) (hour d0 d1 d2 : Byte) (s : State) : Result :=
  .next (s.serve 0x0E tag (householdSetReq pin hour d0 d1 d2))

/-- A window's fields (06 section 6.8). -/
def Window.bytes (w : Window) : List Byte := [w.mask] ++ u16 w.start ++ u16 w.stop

/-- A record in the order of R126, its PIN left out (R144). -/
def Profile.bytes (r : Profile) : List Byte :=
  flag r.inUse ++ flag r.pinToSelect ++ flag r.buyNeedsPin ++ u8 r.ceiling ++ flag r.outside
    ++ u8 r.windows.length ++ r.windows.flatMap Window.bytes ++ opt 4 u32 r.allowance
    ++ u32 r.remaining ++ opt 2 u16 r.cap ++ u32 r.spend ++ u8 r.failures ++ u16 r.lockout

/-- PROFILE_READ by its owner (R144). -/
def profileReadReq (profile : Byte) : Req := fun s =>
  match toFin? 8 profile.toNat with
  | some p => (answer .ok ((s.profile p).bytes ++ setByte (s.viewersOf p)), s)
  | none => refuse .badField s

/-- PROFILE_READ (R144). -/
def execProfileRead (tag : Byte) (profile : Byte) (s : State) : Result :=
  .next (s.serve 0x09 tag (profileReadReq profile))

/-- A view slot in HOUSEHOLD_READ: its profile, which no view slot lacks (R7), the five conditions, the unlock
record with its present flag (R144). -/
def householdSlotBytes (s : State) (v : Fin 3) : List Byte :=
  let x := s.gate.src[viewSlot v]
  u8 ((s.slot (viewSlot v)).profile.getD 0).val
    ++ flag x.ratingOk ++ flag x.windowOk ++ flag x.allowanceLeft ++ flag x.parentalOk ++ flag x.unlocked
    ++ opt 6 (fun u : Unlock => u16 u.sid ++ u32 u.remaining) s.parental.unlocks[v]

/-- HOUSEHOLD_READ by its owner (R144). -/
def householdReadReq : Req := fun s =>
  let h := s.parental.household
  (answer .ok (u8 h.dayStart ++ h.defaults.toList.flatMap (fun p => u8 p.val) ++ opt 4 i32 h.day
    ++ viewSlots.flatMap (householdSlotBytes s)), s)

/-- HOUSEHOLD_READ (R144). -/
def execHouseholdRead (tag : Byte) (s : State) : Result :=
  .next (s.serve 0x0F tag householdReadReq)

end Sys2Proof.Machine
end

