-- ==== Sys2Proof/Machine/GateRequests.lean ====
section
/-! DEFINITION. The meanings of the requests of chapter 7: the gate cells. -/

namespace Sys2Proof.Machine

open Sys2Proof

/-! ### CELL_PUT (R156) -/

/-- The programming a CELL_PUT asks for. -/
structure CellEdit where
  cell : Fin 8
  bound : Fin 5
  in0 : Source
  in1 : Source
  in2 : Source
  truth : Vector Bool 8
  link : Option (Fin 8)
  edge : Edge

/-- The edge mode of a code (07 section 7.5). -/
def edgeOf : Nat → Option Edge
  | 0 => some .none
  | 1 => some .rise
  | 2 => some .fall
  | 3 => some .both
  | _ => none

/-- The code of an edge mode. -/
def Edge.code : Edge → Nat
  | .none => 0 | .rise => 1 | .fall => 2 | .both => 3

/-- The link of a request: absent, or a cell above its own (R156). The link cell of an absent link is not
examined. -/
def readLink (cell : Fin 8) (present link : Byte) : Option (Option (Fin 8)) :=
  match flag? present, toFin? 8 link.toNat with
  | some false, _ => some none
  | some true, some l => if cell.val < l.val then some (some l) else none
  | _, _ => none

/-- Whether a cell is a permit cell (R146). -/
def isPermit (n : Fin 8) : Bool := n.val < 5

/-- The truth list of a request, if each entry is 0 or 1. -/
def readTruth (t : Vector Byte 8) : Option (Vector Bool 8) :=
  if t.toList.all fun b => (flag? b).isSome then some (t.map fun b => b == 1) else none

/-- Whether an edit keeps the rules that bear on the cell's number and link (R156). -/
def CellEdit.fits (e : CellEdit) : Bool :=
  (!isPermit e.cell || (e.bound.val == e.cell.val && e.edge == .none))
    && (e.link.isSome || !(e.in0 == .link || e.in1 == .link || e.in2 == .link))

/-- The edit of a CELL_PUT with its cell, bound slot and sources in range. -/
def readCellWith (r : CellReq) (cell : Fin 8) (bound : Fin 5) (a b c : Source) : Option CellEdit :=
  match readTruth r.truth, readLink cell r.linkPresent r.link, edgeOf r.edge.toNat with
  | some truth, some link, some edge =>
    let e : CellEdit := { cell, bound, in0 := a, in1 := b, in2 := c, truth, link, edge }
    if e.fits then some e else none
  | _, _, _ => none

/-- The edit a CELL_PUT asks for, if it passes check 1 of R156. -/
def readCell (r : CellReq) : Option CellEdit :=
  match toFin? 8 r.cell.toNat, toFin? 5 r.bound.toNat, sourceOf r.in0.toNat, sourceOf r.in1.toNat,
      sourceOf r.in2.toNat with
  | some cell, some bound, some a, some b, some c => readCellWith r cell bound a b c
  | _, _, _, _, _ => none

/-- A disabled cell under its new programming, its output 0; an auxiliary cell's counts become 0 (R156). -/
def GateCell.edit (e : CellEdit) (c : GateCell) : GateCell :=
  { c with bound := e.bound, in0 := e.in0, in1 := e.in1, in2 := e.in2, truth := e.truth, link := e.link,
           edge := e.edge, output := false
           rises := if isPermit e.cell then c.rises else 0
           falls := if isPermit e.cell then c.falls else 0 }

/-- CELL_PUT by its owner (R156). -/
def cellPutReq (r : CellReq) : Req := fun s =>
  match readCell r with
  | none => refuse .badField s
  | some e =>
    if (s.gate.cells[e.cell]).enabled then refuse .protectedCell s
    else (answer .ok (u8 e.cell.val), s.modGate (Gate.modCell e.cell (GateCell.edit e)))

/-- CELL_PUT (R156). -/
def execCellPut (tag : Byte) (r : CellReq) (s : State) : Result :=
  .next (s.serve 0x34 tag (cellPutReq r))

/-! ### CELL_ENABLE (R157) -/

/-- A cell enabled, with a pass in which it is marked (R151, R157). -/
def enableCell (n : Fin 8) (s : State) : State :=
  gatePass [n] (s.modGate (Gate.modCell n fun c => { c with enabled := true }))

/-- A cell disabled: its output falls to 0, and the cells linking to it are marked by the fall (R151,
R157). -/
def disableCell (n : Fin 8) (s : State) : State :=
  let was := (s.gate.cells[n]).output
  let s := s.modGate (Gate.modCell n fun c => { c with enabled := false, output := false })
  if was then
    let p := s.gate.pass (s.gate.linkers n)
    forEach ((n, false) :: p.changes) handOverChange { s with gate := p.gate }
  else s

/-- A cell set to a state, and the answer (R157). The output in it is the one the pass left, also where a rise that the
pass made then fires an entry that lowers it: the model's choice (log 7). -/
def switchCell (n : Fin 8) (on : Bool) : Req := fun s =>
  let s := if on then enableCell n s else disableCell n s
  (answer .ok (u8 n.val ++ flag (s.gate.cells[n]).enabled ++ flag (s.gate.cells[n]).output), s)

/-- Checks 2 and 3 of R157. -/
def cellEnableChecked (n : Fin 8) (on : Bool) (pin : Pin) : Req := fun s =>
  if on = (s.gate.cells[n]).enabled then
    (answer .ok (u8 n.val ++ flag on ++ flag (s.gate.cells[n]).output), s)
  else if !on ∧ isPermit n ∧ s.mode ≠ .config then withMaster pin (switchCell n on) s
  else switchCell n on s

/-- CELL_ENABLE by its owner (R157). -/
def cellEnableReq (cell on : Byte) (pin : Pin) : Req := fun s =>
  match toFin? 8 cell.toNat, flag? on, pinDigitsOk pin with
  | some n, some o, true => cellEnableChecked n o pin s
  | _, _, _ => refuse .badField s

/-- CELL_ENABLE (R157). -/
def execCellEnable (tag : Byte) (cell on : Byte) (pin : Pin) (s : State) : Result :=
  .next (s.serve 0x35 tag (cellEnableReq cell on pin))

/-! ### CELL_READ (R158) -/

/-- The fields of CELL_READ (R158). -/
def cellReadBytes (n : Fin 8) (s : State) : List Byte :=
  let c := s.gate.cells[n]
  u8 n.val ++ u8 c.bound.val ++ u8 c.in0.code ++ u8 c.in1.code ++ u8 c.in2.code
    ++ c.truth.toList.flatMap flag ++ opt 1 (fun l : Fin 8 => u8 l.val) c.link ++ u8 c.edge.code
    ++ flag c.enabled
    ++ flag (s.gate.input c c.in0) ++ flag (s.gate.input c c.in1) ++ flag (s.gate.input c c.in2)
    ++ u8 (s.gate.index c).val ++ flag c.output
    ++ (if isPermit n then [] else w32 c.rises ++ w32 c.falls)

/-- CELL_READ by its owner (R158). -/
def cellReadReq (cell : Byte) : Req := fun s =>
  match toFin? 8 cell.toNat with
  | some n => (answer .ok (cellReadBytes n s), s)
  | none => refuse .badField s

/-- CELL_READ (R158). -/
def execCellRead (tag : Byte) (cell : Byte) (s : State) : Result :=
  .next (s.serve 0x36 tag (cellReadReq cell))

end Sys2Proof.Machine
end

