-- ==== Sys2Proof/Machine/GuideRequests.lean ====
section
/-! DEFINITION. The meanings of the requests of chapter 5: the guide and the sweep. -/

namespace Sys2Proof.Machine

open Sys2Proof

/-! ### Placing and dropping (R110, R111) -/

/-- The event of a GUIDE_PUT, if it passes check 1 of R110. Rating and preview are clamped. -/
def readGuide (r : GuideReq) : Option GuideEvent :=
  match flag? r.pricePresent, flag? r.purchasable, flag? r.prorate with
  | some priced, some purchasable, some prorate =>
    let e : GuideEvent :=
      { sid := r.sid.toNat, eid := r.eid.toNat, version := r.version.toNat, start := r.start.toNat,
        duration := r.duration.toNat, rating := clamp 0 6 r.rating.toNat,
        price := if priced then some r.price.toNat else none, purchasable, prorate,
        preview := clamp 0 15 r.preview.toNat, title := r.title.toNat }
    if e.sid ≠ 0 ∧ 1 ≤ e.duration ∧ e.duration ≤ 1440 ∧ e.stop ≤ 4294967295 then some e else none
  | _, _, _ => none

/-- The outcome field of GUIDE_PUT; the numbers are the model's (log 10). -/
def Taken.code : Taken → Nat
  | .placed false _ _ => 0
  | .placed true _ _ => 1
  | .duplicate => 2
  | .past => 3
  | .dropped => 4

/-- The events displaced. -/
def Taken.displaced : Taken → List Nat
  | .placed _ d _ => d
  | _ => []

/-- The entry evicted. -/
def Taken.evicted : Taken → Option (Nat × Nat)
  | .placed _ _ x => x
  | _ => none

/-- The answer of GUIDE_PUT: FULL has the status alone (R110). -/
def guidePutAnswer (e : GuideEvent) (t : Taken) : Answer :=
  if t = .dropped then answer .full
  else answer .ok (u8 t.code ++ u8 e.rating ++ u8 e.preview ++ u16 t.displaced.length
    ++ opt 6 (fun p : Nat × Nat => u16 p.1 ++ u32 p.2) t.evicted ++ (t.displaced.take 16).flatMap u32)

/-- GUIDE_PUT by its owner (R110). -/
def guidePutReq (r : GuideReq) : Req := fun s =>
  match readGuide r with
  | none => refuse .badField s
  | some e =>
    let t := takeEventRecord e s
    (guidePutAnswer e t.1, t.2)

/-- GUIDE_PUT (R110). -/
def execGuidePut (tag : Byte) (r : GuideReq) (s : State) : Result :=
  .next (s.serve 0x28 tag (guidePutReq r))

/-- GUIDE_DROP by its owner (R111). -/
def guideDropReq (sid : Half) (eid : Word) : Req := fun s =>
  if sid = 0 then refuse .badField s
  else match cancelEvent sid.toNat eid.toNat s with
    | (true, s) => (answer .ok, s)
    | (false, s) => refuse .noSuch s

/-- GUIDE_DROP (R111). -/
def execGuideDrop (tag : Byte) (sid : Half) (eid : Word) (s : State) : Result :=
  .next (s.serve 0x29 tag (guideDropReq sid eid))

/-! ### Queries (R122 to R124) -/

/-- GUIDE_LIST by its owner (R122). -/
def guideListReq (sid : Half) (fromTime : Word) (count : Byte) : Req := fun s =>
  if sid = 0 then refuse .badField s
  else
    let n := clamp 1 32 count.toNat
    let places := (s.guide.ofService sid.toNat).filter fun p => fromTime.toNat < p.ev.stop
    let r := readEntries n (places.map (·.num)) s
    (answer .ok (u8 n ++ u8 r.1.length ++ r.1.flatMap GuideEvent.bytes), r.2)

/-- GUIDE_LIST (R122). -/
def execGuideList (tag : Byte) (sid : Half) (fromTime : Word) (count : Byte) (s : State) : Result :=
  .next (s.serve 0x2A tag (guideListReq sid fromTime count))

/-- GUIDE_NOW by its owner (R123). The present entry is read before the next, the model's choice (log 45). -/
def guideNowReq (sid : Half) : Req := fun s =>
  if sid = 0 then refuse .badField s
  else match s.now? with
    | none => (answer .ok (flag false ++ opt 24 GuideEvent.bytes none ++ opt 24 GuideEvent.bytes none), s)
    | some now =>
      let a := readFirst sid.toNat (·.onAirAt now) s
      let b := readFirst sid.toNat (fun e => now < e.start) a.2
      (answer .ok (flag true ++ opt 24 GuideEvent.bytes a.1 ++ opt 24 GuideEvent.bytes b.1), b.2)

/-- GUIDE_NOW (R123). -/
def execGuideNow (tag : Byte) (sid : Half) (s : State) : Result :=
  .next (s.serve 0x2B tag (guideNowReq sid))

/-- The sweep states in the order of R117; the numbers are the model's (log 10). -/
def SweepState.code : SweepState → Nat
  | .off => 0 | .dwell => 1 | .paused => 2

/-- The pause causes in the order of R117; the numbers are the model's (log 10). -/
def PauseCause.code : PauseCause → Nat
  | .noLane => 0 | .preempted => 1 | .allServed => 2 | .noCarrier => 3 | .mode => 4

/-- The sweep's state, pause cause and position, as its requests report them (R120, R121). -/
def Sweep.whereBytes (w : Sweep) : List Byte :=
  u8 w.state.code ++ opt 1 (fun c : PauseCause => u8 c.code) w.pause ++ opt 1 u8 w.position

/-- The eleven counters of R103. -/
def GuideCounters.bytes (c : GuideCounters) : List Byte :=
  w32 c.inserted ++ w32 c.replaced ++ w32 c.duplicate ++ w32 c.past ++ w32 c.displaced ++ w32 c.evicted
    ++ w32 c.droppedFull ++ w32 c.cancelled ++ w32 c.cancelUnknown ++ w32 c.pruned ++ w32 c.damaged

/-- The fields of GUIDE_STATUS (R124). -/
def guideStatusBytes (s : State) : List Byte :=
  u16 s.guide.places.length ++ u16 s.guide.services.length ++ u16 (2048 - s.guide.places.length)
    ++ opt 4 u32 (s.guide.latest.map (·.ev.start)) ++ opt 2 u16 (s.guide.scrub.map (·.place))
    ++ u16 s.guide.patrol ++ s.guide.counters.bytes
    ++ flag s.sweep.on ++ flag s.sweep.step ++ u16 s.sweep.dwell ++ s.sweep.whereBytes
    ++ opt 1 (fun l : Fin 3 => u8 l.val) s.sweep.lane
    ++ w32 s.sweep.visits ++ w32 s.sweep.seekFailures ++ w32 s.sweep.rounds

/-- GUIDE_STATUS by its owner (R124). -/
def guideStatusReq : Req := fun s => (answer .ok (guideStatusBytes s), s)

/-- GUIDE_STATUS (R124). -/
def execGuideStatus (tag : Byte) (s : State) : Result := .next (s.serve 0x2C tag guideStatusReq)

/-! ### The sweep (R120, R121) -/

/-- The sweep turned off (R120). -/
def sweepOff (s : State) : State :=
  let s := if s.sweep.state = .dwell then sweepLeave s else s
  homeRedecide ((s.modSweep fun w => { w with
    on := false, state := .off, position := none, lane := none, timer := none, pause := none,
    servedRun := 0 }).modArb fun a => { a with sweepWaiting := false })

/-- The sweep turned on from OFF (R120). -/
def sweepStart (step : Bool) (dwell : Nat) (s : State) : State :=
  let s := s.modSweep fun w => { w with on := true, step, dwell }
  if s.mode = .config then
    sweepPause .mode (s.modSweep fun w => { w with position := s.guideCarriers.head? })
  else homeRedecide (sweepFromLowest s)

/-- Whether a change from STEP to CYCLE starts the timer (R120). -/
def Sweep.timed (w : Sweep) : Bool :=
  (w.state == .dwell && w.lockedVisit) || (w.state == .paused && w.pause == some .allServed)

/-- The sweep's mode and dwell changed while it is on (R120). -/
def sweepChange (step : Bool) (dwell : Nat) (s : State) : State :=
  let was := s.sweep.step
  let s := s.modSweep fun w => { w with step, dwell }
  if !was ∧ step then s.modSweep fun w => { w with timer := none }
  else if was ∧ !step ∧ s.sweep.timed then s.startDwell
  else s

/-- The effect of SWEEP_SET (R120). Off leaves the record's mode and dwell as they were: the manual does not say
whether a request that turns the sweep off takes them, and this is the model's choice (log 44). -/
def setSweep (on step : Bool) (dwell : Nat) (s : State) : State :=
  if !on then (if s.sweep.on then sweepOff s else s)
  else if s.sweep.on then sweepChange step dwell s
  else sweepStart step dwell s

/-- SWEEP_SET by its owner (R120). The reply reports the request's mode and its dwell in range, also where the
sweep goes off, by the model's choice (log 44). -/
def sweepSetReq (on mode : Byte) (dwell : Half) : Req := fun s =>
  match flag? on, flag? mode with
  | some o, some m =>
    let d := clamp 5 120 dwell.toNat
    let s := setSweep o m d s
    (answer .ok (flag o ++ flag m ++ u16 d ++ s.sweep.whereBytes), s)
  | _, _ => refuse .badField s

/-- SWEEP_SET (R120). -/
def execSweepSet (tag : Byte) (on mode : Byte) (dwell : Half) (s : State) : Result :=
  .next (s.serve 0x2D tag (sweepSetReq on mode dwell))

/-- The effect of SWEEP_STEP (R121). -/
def stepSweep (s : State) : State :=
  match s.sweep.state, s.sweep.pause with
  | .dwell, _ => homeRedecide (sweepGo (sweepLeave s))
  | .paused, some .noLane | .paused, some .preempted | .paused, some .allServed =>
    homeRedecide (sweepGo ((s.modSweep fun w => { w with timer := none, servedRun := 0 }).modArb fun a =>
      { a with sweepWaiting := false }))
  | _, _ => s

/-- SWEEP_STEP by its owner (R121). -/
def sweepStepReq : Req := fun s =>
  if s.mode = .config then refuse .notInMode s
  else
    let s := stepSweep s
    (answer .ok s.sweep.whereBytes, s)

/-- SWEEP_STEP (R121). -/
def execSweepStep (tag : Byte) (s : State) : Result := .next (s.serve 0x2E tag sweepStepReq)

end Sys2Proof.Machine
end

