-- ==== Sys2Proof/Machine/LaneRequests.lean ====
section
/-! DEFINITION. The meanings of the requests of chapters 2 and 3: carriers, quality classes, lanes, the
arbiter, the filter table and key status. -/

namespace Sys2Proof.Machine

open Sys2Proof

/-! ### The carrier table (R32 to R34) -/

/-- The entry of a CARRIER_PUT, if its fields are in range (R32). -/
def readCarrier (r : CarrierReq) : Option Carrier :=
  match toFin? 4 r.cls.toNat, flag? r.guide, flag? r.home with
  | some cls, some guide, some home =>
    if r.index.toNat ≤ 63 ∧ 48000 ≤ r.freq.toNat ∧ r.freq.toNat ≤ 1002000 then
      some { index := r.index.toNat, freq := r.freq.toNat, cls, guide, home }
    else none
  | _, _, _ => none

/-- The other entry whose home flag a new entry clears (R32). -/
def State.homeCleared (s : State) (c : Carrier) : Option Nat :=
  if c.home then s.homeCarrier.filter (· != c.index) else none

/-- CARRIER_PUT by its owner (R32). -/
def carrierPutReq (r : CarrierReq) : Req := fun s =>
  match readCarrier r with
  | none => refuse .badField s
  | some c =>
    if s.carriers.any fun o => o.freq == c.freq && o.index != c.index then refuse .conflict s
    else
      (answer .ok (u8 c.index ++ flag (s.carrier? c.index).isSome ++ opt 1 u8 (s.homeCleared c)),
        putCarrier c s)

/-- CARRIER_PUT (R32). -/
def execCarrierPut (tag : Byte) (r : CarrierReq) (s : State) : Result :=
  .next (s.serve 0x20 tag (carrierPutReq r))

/-- CARRIER_DROP by its owner (R33). -/
def carrierDropReq (index : Byte) : Req := fun s =>
  if 63 < index.toNat then refuse .badField s
  else if (s.carrier? index.toNat).isNone then refuse .noSuch s
  else
    let r := dropCarrier index.toNat s
    (answer .ok (setByte r.1), r.2)

/-- CARRIER_DROP (R33). -/
def execCarrierDrop (tag : Byte) (index : Byte) (s : State) : Result :=
  .next (s.serve 0x21 tag (carrierDropReq index))

/-- An entry in the field order of CARRIER_PUT (R34). -/
def Carrier.bytes (c : Carrier) : List Byte :=
  u8 c.index ++ u32 c.freq ++ u8 c.cls.val ++ flag c.guide ++ flag c.home

/-- CARRIER_READ by its owner (R34). -/
def carrierReadReq (index : Byte) : Req := fun s =>
  if 63 < index.toNat then refuse .badField s
  else match s.carrier? index.toNat with
    | none => refuse .noSuch s
    | some c => (answer .ok c.bytes, s)

/-- CARRIER_READ (R34). -/
def execCarrierRead (tag : Byte) (index : Byte) (s : State) : Result :=
  .next (s.serve 0x22 tag (carrierReadReq index))

/-! ### Quality classes (R40) -/

/-- The class a QUALITY_CLASS_SET asks for, clamped (R40). -/
def readClass (r : ClassReq) (initialMarginal : Bool) : QClass :=
  { n := clampN r.n.toNat, tl := min 4095 r.tl.toNat, th := min 4095 r.th.toNat, h := r.h.toNat,
    k := clamp 1 15 r.k.toNat, initialMarginal }

/-- A class in the field order of QUALITY_CLASS_SET (R40). -/
def classBytes (n : Fin 4) (c : QClass) : List Byte :=
  u8 n.val ++ u8 c.n ++ u16 c.tl ++ u16 c.th ++ u8 c.h ++ u8 c.k ++ flag c.initialMarginal

/-- QUALITY_CLASS_SET by its owner (R40). -/
def qualityClassSetReq (r : ClassReq) : Req := fun s =>
  match toFin? 4 r.cls.toNat, flag? r.initial with
  | some n, some m =>
    let c := readClass r m
    if c.th < c.tl then refuse .badField s
    else (answer .ok (classBytes n c), { s with classes := s.classes.set n c })
  | _, _ => refuse .badField s

/-- QUALITY_CLASS_SET (R40). -/
def execQualityClassSet (tag : Byte) (r : ClassReq) (s : State) : Result :=
  .next (s.serve 0x23 tag (qualityClassSetReq r))

/-- QUALITY_CLASS_READ by its owner (R40). -/
def qualityClassReadReq (cls : Byte) : Req := fun s =>
  match toFin? 4 cls.toNat with
  | some n => (answer .ok (classBytes n s.classes[n]), s)
  | none => refuse .badField s

/-- QUALITY_CLASS_READ (R40). -/
def execQualityClassRead (tag : Byte) (cls : Byte) (s : State) : Result :=
  .next (s.serve 0x24 tag (qualityClassReadReq cls))

/-! ### Lanes (R45, R46) -/

/-- LANE_ENABLE by its owner (R45). The reply names the slots displaced. -/
def laneEnableReq (lane on : Byte) : Req := fun s =>
  match toFin? 3 lane.toNat, flag? on with
  | some l, some o =>
    if o = (s.lane l).enabled then (answer .ok (u8 l.val ++ setByte ([] : List (Fin 5))), s)
    else if o then (answer .ok (u8 l.val ++ setByte ([] : List (Fin 5))), enableLane l s)
    else (answer .ok (u8 l.val ++ setByte (s.slotUsers l)), disableLane l s)
  | _, _ => refuse .badField s

/-- LANE_ENABLE (R45). -/
def execLaneEnable (tag : Byte) (lane on : Byte) (s : State) : Result :=
  .next (s.serve 0x25 tag (laneEnableReq lane on))

/-- The fields of LANE_STATUS (R46). -/
def laneStatusBytes (l : Fin 3) (s : State) : List Byte :=
  let x := s.lane l
  u8 l.val ++ u8 x.state.code ++ flag x.enabled ++ opt 1 u8 x.carrier ++ [x.order]
    ++ opt 1 (fun g : Grade => u8 g.code) x.grade ++ opt 2 u16 x.lastAverage
    ++ u8 x.accCount ++ opt 1 u8 x.accN ++ u8 x.poorRun
    ++ setByte (s.slotUsers l) ++ flag (s.sweepOn l) ++ flag (s.homeOn l)
    ++ opt 1 u8 (s.lanePriority l)
    ++ w32 x.locks ++ w32 x.seekFailures ++ w32 x.lossUnlock ++ w32 x.lossSilent ++ w32 x.lossPoorRun
    ++ w32 x.lossCarrierEdit ++ w32 x.preemptions

/-- LANE_STATUS by its owner (R46). -/
def laneStatusReq (lane : Byte) : Req := fun s =>
  match toFin? 3 lane.toNat with
  | some l => (answer .ok (laneStatusBytes l s), s)
  | none => refuse .badField s

/-- LANE_STATUS (R46). -/
def execLaneStatus (tag : Byte) (lane : Byte) (s : State) : Result :=
  .next (s.serve 0x26 tag (laneStatusReq lane))

/-- The number of a claimant: its slot, or 5 for the home hold (log 10). -/
def Claimant.code : Claimant → Nat
  | .slot k => k.val
  | .home => 5

/-- The number of the home hold's state, in the order of R54 (log 10). -/
def HomeHold.code : HomeHold → Nat
  | .inactive => 0 | .waiting => 1 | .holding _ => 2 | .retry _ => 3

/-- The seconds of a timer remaining, any part of one counted whole (log 10). -/
def secondsLeft (now t : Nat) : Nat := (t - now + 999) / 1000

/-- The seconds of the home hold's retry timer remaining. -/
def HomeHold.secondsLeft (now : Nat) : HomeHold → Option Nat
  | .retry t => some (Machine.secondsLeft now t)
  | _ => none

/-- A lane in ARBITER_READ: state, carrier, users (the slot set, the sweep and the home hold) and priority
(R55, log 10). -/
def arbiterLaneBytes (s : State) (l : Fin 3) : List Byte :=
  u8 (s.lane l).state.code ++ opt 1 u8 (s.lane l).carrier
    ++ setByte (s.slotUsers l)
    ++ flag (s.sweepOn l) ++ flag (s.homeOn l) ++ opt 1 u8 (s.lanePriority l)

/-- The fields of ARBITER_READ (R55). -/
def arbiterBytes (s : State) : List Byte :=
  allLanes.flatMap (arbiterLaneBytes s) ++ u8 s.arb.queue.length
    ++ s.arb.queue.flatMap (fun w => u8 w.claimant.code ++ u8 w.carrier ++ u8 w.claimant.priority)
    ++ u8 s.arb.home.code ++ opt 1 u8 (s.arb.home.secondsLeft s.clock.uptimeMs)
    ++ flag s.arb.sweepWaiting ++ opt 1 (fun l : Fin 3 => u8 l.val) s.sweep.lane

/-- ARBITER_READ by its owner (R55). -/
def arbiterReadReq : Req := fun s => (answer .ok (arbiterBytes s), s)

/-- ARBITER_READ (R55). -/
def execArbiterRead (tag : Byte) (s : State) : Result := .next (s.serve 0x27 tag arbiterReadReq)

/-! ### The filter table and keys (R60, R73) -/

/-- The number of a control consumer, in the order of R56 (log 10). -/
def Consumer.code : Consumer → Nat
  | .key => 0 | .entitlement => 1 | .guide => 2 | .time => 3

/-- A destination: a kind, the consumer, and the slot set, whose five membership flags are bits 0 to 4 of its
one byte (R60, R182; the kind's and the consumer's numbers are the model's, log 10). -/
def Dest.bytes : Dest → List Byte
  | .consumer c => u8 0 ++ u8 c.code ++ setByte ([] : List (Fin 5))
  | .slots ks => u8 1 ++ u8 0 ++ setByte ks

/-- The fields of FILTER_READ (R60). -/
def filterBytes (l : Fin 3) (s : State) : List Byte :=
  let fs := s.router.filters.filter fun f => f.lane == l
  u8 l.val ++ w32 (s.router.cells[l]).unmatched ++ w32 (s.router.cells[l]).phaseDiscard ++ u8 fs.length
    ++ fs.flatMap fun f => u16 f.tag ++ f.dest.bytes ++ opt 1 (fun x : BitVec 6 => u8 x.toNat) f.last

/-- FILTER_READ by its owner (R60). -/
def filterReadReq (lane : Byte) : Req := fun s =>
  match toFin? 3 lane.toNat with
  | some l => (answer .ok (filterBytes l s), s)
  | none => refuse .badField s

/-- FILTER_READ (R60). -/
def execFilterRead (tag : Byte) (lane : Byte) (s : State) : Result :=
  .next (s.serve 0x30 tag (filterReadReq lane))

/-- A requirement, numbered as a KEY record numbers it (R192). -/
def Requirement.bytes : Requirement → List Byte
  | .free => u8 0 ++ u32 0
  | .tier t => u8 1 ++ u32 t.val
  | .event id => u8 2 ++ u32 id

/-- A basis; the numbers are the model's (log 10). -/
def Basis.bytes : Basis → List Byte
  | .free => u8 0 ++ u32 0
  | .tier t => u8 1 ++ u32 t.val
  | .grant id => u8 2 ++ u32 id
  | .preview id => u8 3 ++ u32 id

/-- A key as KEY_STATUS reports it: never its word (R73). -/
def Key.bytes (x : Key) : List Byte := u16 x.period.toNat ++ x.req.bytes ++ x.basis.bytes

/-- A held refused record as KEY_STATUS reports it (R73). -/
def Held.bytes (h : Held) : List Byte := u16 h.record.period.toNat ++ h.record.req.bytes ++ u8 h.lane.val

/-- One phase of a descrambler (R73). -/
def Descrambler.phaseBytes (d : Descrambler) (p : Phase) : List Byte :=
  opt 12 Key.bytes (d.key p) ++ opt 8 Held.bytes (d.held p)

/-- The fields of KEY_STATUS (R73). -/
def keyStatusBytes (k : Fin 5) (s : State) : List Byte :=
  let d := (s.slot k).desc
  u8 k.val ++ d.phaseBytes .a ++ d.phaseBytes .b
    ++ opt 4 (fun t => u32 (s.clock.uptimeMs - t)) d.lastDecoded
    ++ flag (s.gate.src[k]).entitled ++ flag (s.gate.src[k]).preview
    ++ w32 s.access.counters.unclaimed ++ w32 s.access.counters.openRefused
    ++ w32 s.access.counters.notMet ++ w32 s.access.counters.stored
    ++ w32 s.access.counters.duplicate ++ w32 s.access.counters.stale

/-- KEY_STATUS by its owner (R73). -/
def keyStatusReq (slot : Byte) : Req := fun s =>
  match toFin? 5 slot.toNat with
  | some k => (answer .ok (keyStatusBytes k s), s)
  | none => refuse .badField s

/-- KEY_STATUS (R73). -/
def execKeyStatus (tag : Byte) (slot : Byte) (s : State) : Result :=
  .next (s.serve 0x31 tag (keyStatusReq slot))

end Sys2Proof.Machine
end

