-- ==== Sys2Proof/Machine/ModeRequests.lean ====
section
/-! DEFINITION. The meanings of the requests of chapters 9 and 10: modes, the clock, the fault summary,
notices and the part's identity. -/

namespace Sys2Proof.Machine

open Sys2Proof

/-! ### Modes (R172, R173) -/

/-- The mode a MODE_SET names (R172). -/
def modeOf (b : Byte) : Option Mode :=
  if b = 1 then some .config else if b = 2 then some .service else if b = 3 then some .standby else none

/-- MODE_SET by its owner (R172). The mode after is the one the request sets, also where a rise that the change
causes then fires a WAKE entry: the model's choice (log 7). -/
def modeSetReq (mode : Byte) : Req := fun s =>
  match modeOf mode with
  | none => refuse .badField s
  | some m =>
    if m = s.mode then (answer .ok (u8 s.mode.code ++ u8 m.code), s)
    else (answer .ok (u8 s.mode.code ++ u8 m.code), modeChange .request m s)

/-- MODE_SET (R172). -/
def execModeSet (tag : Byte) (mode : Byte) (s : State) : Result :=
  .next (s.serve 0x01 tag (modeSetReq mode))

/-- RESTART by its owner (R173). -/
def restartReq : Req := fun s => (answer .ok, { s with restarting := true })

/-- RESTART (R173). -/
def execRestart (tag : Byte) (s : State) : Result := .next (s.serve 0x02 tag restartReq)

/-! ### The clock (R175) -/

/-- TIME_SET by its owner (R175). -/
def timeSetReq (utc : Word) (offset : Half) : Req := fun s =>
  if s.clock.source = .stream then refuse .conflict s
  else
    let off := clampOffset offset.toInt
    let r := setTime utc.toNat off s
    (answer .ok (i16 off ++ flag r.1 ++ u8 r.2.clock.source.code), r.2)

/-- TIME_SET (R175). -/
def execTimeSet (tag : Byte) (utc : Word) (offset : Half) (s : State) : Result :=
  .next (s.serve 0x04 tag (timeSetReq utc offset))

/-- Every field of the clock, uptime in milliseconds as eight bytes (R175, log 10). -/
def Clock.bytes (c : Clock) : List Byte :=
  u32 c.utc ++ flag c.known ++ i16 c.offset ++ u8 c.source.code ++ u64 c.uptimeMs

/-- CLOCK_READ by its owner (R175). -/
def clockReadReq : Req := fun s => (answer .ok s.clock.bytes, s)

/-- CLOCK_READ (R175). -/
def execClockRead (tag : Byte) (s : State) : Result := .next (s.serve 0x05 tag clockReadReq)

/-! ### The fault summary (R181) -/

/-- FAULT_READ by its owner (R181). -/
def faultReadReq : Req := fun s => (answer .ok s.faults.bytes, s)

/-- FAULT_READ (R181). -/
def execFaultRead (tag : Byte) (s : State) : Result := .next (s.serve 0x06 tag faultReadReq)

/-- The faults that FAULT_CLEAR leaves: KEY_UNUSABLE and FRONTEND_SILENT (R181). -/
def clearedNames : Half := 0x02DF

/-- The summary with the named faults of class FAULT_CLEAR cleared (R181). -/
def Faults.clear (names : Half) (f : Faults) : Faults :=
  { guideCorrected := if names.getLsbD 0 then none else f.guideCorrected
    guideSecond := if names.getLsbD 1 then none else f.guideSecond
    guideLost := if names.getLsbD 2 then none else f.guideLost
    storeFormatted := f.storeFormatted && !names.getLsbD 3
    unitsLost := if names.getLsbD 4 then [] else f.unitsLost
    keyUnusable := f.keyUnusable
    linkFrame := if names.getLsbD 6 then none else f.linkFrame
    linkOverrun := if names.getLsbD 7 then none else f.linkOverrun
    silent := f.silent
    streamBad := if names.getLsbD 9 then none else f.streamBad }

/-- FAULT_CLEAR by its owner (R181). -/
def faultClearReq (names : Half) : Req := fun s =>
  if 1023 < names.toNat then refuse .badField s
  else
    (answer .ok (u16 (names &&& clearedNames).toNat ++ u16 (names &&& ~~~clearedNames).toNat),
      s.modFaults (Faults.clear names))

/-- FAULT_CLEAR (R181). -/
def execFaultClear (tag : Byte) (names : Half) (s : State) : Result :=
  .next (s.serve 0x07 tag (faultClearReq names))

/-! ### Notices (R189, R190) -/

/-- Ten flags as a two-byte set, flag n in bit n (R189). -/
def flagSet (v : Vector Bool 10) : Nat :=
  (List.finRange 10).foldl (fun n i => if v[i] then n + 2 ^ i.val else n) 0

/-- The ten flags of a two-byte set (R189). -/
def flagsOf (m : Half) : Vector Bool 10 := Vector.ofFn fun i => m.getLsbD i.val

/-- The masks replaced, and the notices of silent kinds gone (R189). -/
def Link.setMasks (m : Half) (l : Link) : Link :=
  let silent := flagsOf m
  { l with silent, notices := l.notices.filter fun n => !silent[n.kind.index] }

/-- NOTICE_MASK_SET by its owner (R189). -/
def noticeMaskSetReq (mask : Half) : Req := fun s =>
  if 1023 < mask.toNat then refuse .badField s
  else (answer .ok (u16 mask.toNat), s.modLink (Link.setMasks mask))

/-- NOTICE_MASK_SET (R189). -/
def execNoticeMaskSet (tag : Byte) (mask : Half) (s : State) : Result :=
  .next (s.serve 0x3E tag (noticeMaskSetReq mask))

/-- The pending flags without those named (R190). -/
def Link.clearFlags (m : Half) (l : Link) : Link :=
  { l with flags := Vector.ofFn fun i => l.flags[i] && !m.getLsbD i.val }

/-- NOTICE_FLAGS_READ by its owner (R190). -/
def noticeFlagsReadReq (clear : Half) : Req := fun s =>
  if 1023 < clear.toNat then refuse .badField s
  else
    (answer .ok (u16 (flagSet s.link.flags) ++ u8 s.link.notices.length ++ flag s.link.overflow),
      s.modLink (Link.clearFlags clear))

/-- NOTICE_FLAGS_READ (R190). -/
def execNoticeFlagsRead (tag : Byte) (clear : Half) (s : State) : Result :=
  .next (s.serve 0x3F tag (noticeFlagsReadReq clear))

/-! ### IDENTIFY (R191) -/

/-- The part number: the characters of "BF-4420" and a zero byte (R191). -/
def partNumber : List Byte := [0x42, 0x46, 0x2D, 0x34, 0x34, 0x32, 0x30, 0x00]

/-- The fields of IDENTIFY after the status (R191). -/
def identifyBytes (s : State) : List Byte :=
  partNumber ++ u8 1 ++ w32 Config.boxAddress ++ u8 s.mode.code ++ u8 s.access.deviceKey.code
    ++ w32 s.link.goodFrames ++ w32 s.link.frameErrors ++ w32 s.link.overruns
    ++ w32 s.link.repliesSent ++ w32 s.link.noticesSent ++ w32 s.link.noticesDropped

/-- IDENTIFY by its owner (R191). -/
def identifyReq : Req := fun s => (answer .ok (identifyBytes s), s)

/-- IDENTIFY (R191). -/
def execIdentify (tag : Byte) (s : State) : Result := .next (s.serve 0x00 tag identifyReq)

end Sys2Proof.Machine
end

