-- ==== Sys2Proof/Machine/ScheduleRequests.lean ====
section
/-! DEFINITION. The meanings of the requests of chapter 8: the schedule table. -/

namespace Sys2Proof.Machine

open Sys2Proof

/-! ### SCHEDULE_PUT (R167) -/

/-- A trigger, if it is in range; the lead is clamped (R167). -/
def readTrigger : TrigReq → Option Trigger
  | .atTime t => some (.atTime t.toNat)
  | .atEvent sid eid lead =>
    if sid = 0 then none else some (.atEvent sid.toNat eid.toNat (clamp 0 600 lead.toNat))
  | .auxRise c => match toFin? 8 c.toNat with
    | some n => if 5 ≤ n.val then some (.auxRise n) else none
    | none => none
  | .other _ => none

/-- The record end taken: an end time, a trail, or a run length in minutes (R160, R167). -/
def recordEnd (t : Trigger) (n : Nat) : Nat :=
  match t with
  | .atTime _ => n
  | .atEvent _ _ _ => clamp 0 600 n
  | .auxRise _ => clamp 1 1440 n

/-- Whether an action of a service goes with a trigger: under AT_EVENT they name one service (R167). -/
def Trigger.fits (t : Trigger) (sid : Nat) : Bool :=
  match t with
  | .atEvent x _ _ => x == sid
  | _ => true

/-- Whether the end of a recording lies after its trigger, for AT_TIME (R167). -/
def Trigger.endsAfter (t : Trigger) (stop : Nat) : Bool :=
  match t with
  | .atTime x => x < stop
  | _ => true

/-- An action, if it is in range and goes with its trigger (R167). -/
def readAction (t : Trigger) : ActReq → Option Action
  | .record slot sid stop => match toFin? 5 slot.toNat with
    | some k =>
      if 3 ≤ k.val ∧ sid ≠ 0 ∧ t.fits sid.toNat ∧ t.endsAfter stop.toNat then
        some (.record k sid.toNat (recordEnd t stop.toNat))
      else none
    | none => none
  | .viewTune slot sid =>
    if slot = 0 ∧ sid ≠ 0 ∧ t.fits sid.toNat then some (.viewTune sid.toNat) else none
  | .remind => some .remind
  | .wake => some .wake
  | .other _ => none

/-- The service an action names. -/
def Action.service : Action → Option Nat
  | .record _ sid _ => some sid
  | .viewTune sid => some sid
  | _ => none

/-- An entry as SCHEDULE_PUT writes it: ARMED, with its times (R160, R167). -/
def newEntry (t : Trigger) (a : Action) (ev : Option GuideEvent) : Entry :=
  let e : Entry := { state := .armed, trigger := t, action := a }
  match t, ev with
  | .atTime x, _ => { e with
      triggerTime := some (x : Int)
      endTime := match a with
        | .record _ _ stop => some stop
        | _ => none }
  | .atEvent _ _ _, some v => e.retime v.start v.stop
  | _, _ => e

/-- The record end of an action, where it is a trail or a run length (08 section 8.5). -/
def Entry.spanTaken (e : Entry) : Option Nat :=
  match e.trigger, e.action with
  | .atEvent _ _ _, .record _ _ n => some n
  | .auxRise _, .record _ _ n => some n
  | _, _ => none

/-- The lead of an AT_EVENT entry. -/
def Entry.leadTaken (e : Entry) : Option Nat :=
  match e.trigger with
  | .atEvent _ _ lead => some lead
  | _ => none

/-- The fields of SCHEDULE_PUT's reply (R167). Which of them go with a present flag is the model's choice (log 10). -/
def schedulePutBytes (n : Fin 24) (e : Entry) : List Byte :=
  u8 n.val ++ u8 e.state.code ++ opt 1 u8 e.outcome ++ opt 2 u16 e.leadTaken ++ opt 2 u16 e.spanTaken
    ++ timeBytes e.triggerTime ++ opt 4 u32 e.endTime ++ flag e.orphan

/-- Check 4 of R167, and the writing of the entry with its evaluation. -/
def writeEntry (n : Fin 24) (e : Entry) : Req := fun s =>
  if (s.entry n).state = .running then refuse .conflict s
  else
    let s := evaluate n (s.modEntry n fun _ => e)
    (answer .ok (schedulePutBytes n (s.entry n)), s)

/-- Checks 2 to 4 of R167. -/
def schedulePutChecked (n : Fin 24) (t : Trigger) (a : Action) : Req := fun s =>
  if a.service.any fun sid => (keyFind (·.sid) sid s.services).isNone then refuse .noSuch s
  else match t with
    | .atEvent sid eid _ => match readNamed sid eid s with
      | (none, s) => refuse .noSuch s
      | (some v, s) => writeEntry n (newEntry t a (some v)) s
    | _ => writeEntry n (newEntry t a none) s

/-- SCHEDULE_PUT by its owner (R167). -/
def schedulePutReq (entry : Byte) (trig : TrigReq) (act : ActReq) : Req := fun s =>
  match toFin? 24 entry.toNat, readTrigger trig with
  | some n, some t => match readAction t act with
    | some a => schedulePutChecked n t a s
    | none => refuse .badField s
  | _, _ => refuse .badField s

/-- SCHEDULE_PUT (R167). -/
def execSchedulePut (tag : Byte) (entry : Byte) (trig : TrigReq) (act : ActReq) (s : State) : Result :=
  .next (s.serve 0x18 tag (schedulePutReq entry trig act))

/-! ### SCHEDULE_DROP (R168) -/

/-- Whether a drop stops a slot: the entry runs and its slot is held for it (R168). -/
def State.dropStops (s : State) (n : Fin 24) : Bool :=
  (s.entry n).state == .running && match (s.entry n).action with
    | .record k _ _ => s.heldFor n k
    | _ => false

/-- SCHEDULE_DROP by its owner (R168). -/
def scheduleDropReq (entry : Byte) : Req := fun s =>
  match toFin? 24 entry.toNat with
  | none => refuse .badField s
  | some n =>
    let e := s.entry n
    if e.state = .empty then refuse .noSuch s
    else
      (answer .ok (u8 n.val ++ u8 e.state.code ++ flag (s.dropStops n)),
        (if e.state = .running then stopRun n s else s).modEntry n fun _ => {})

/-- SCHEDULE_DROP (R168). -/
def execScheduleDrop (tag : Byte) (entry : Byte) (s : State) : Result :=
  .next (s.serve 0x19 tag (scheduleDropReq entry))

/-! ### SCHEDULE_READ (R169) -/

/-- A trigger in the field order of SCHEDULE_PUT (R169). -/
def Trigger.bytes : Trigger → List Byte
  | .atTime t => u8 0 ++ u32 t
  | .atEvent sid eid lead => u8 1 ++ u16 sid ++ u32 eid ++ u16 lead
  | .auxRise c => u8 2 ++ u8 c.val

/-- An action in the field order of SCHEDULE_PUT (R169). -/
def Action.bytes (t : Trigger) : Action → List Byte
  | .record k sid n => u8 0 ++ u8 k.val ++ u16 sid ++ match t with
    | .atTime _ => u32 n
    | _ => u16 n
  | .viewTune sid => u8 1 ++ u8 0 ++ u16 sid
  | .remind => u8 2
  | .wake => u8 3

/-- Every field of an entry in the order of R160; an EMPTY one with its state alone (R169). R169 gives a present flag to
a field that may be absent and does not say which may. The model's choice (log 10): the times, the outcome, the retry
and the last tune status have one; the orphan flag, AT_EVENT's alone, and the interruption count, RECORD's alone, have
none and are 0 for other entries; the record end stands within the action. -/
def entryBytes (now : Nat) (n : Fin 24) (e : Entry) : List Byte :=
  if e.state = .empty then u8 e.state.code
  else
    u8 n.val ++ u8 e.state.code ++ e.trigger.bytes ++ e.action.bytes e.trigger
      ++ timeBytes e.triggerTime ++ opt 4 u32 e.endTime ++ flag e.orphan
      ++ opt 4 u32 e.lastStart ++ opt 4 u32 e.lastEnd ++ opt 1 u8 e.outcome ++ u8 e.interruptions
      ++ opt 1 (fun t => u8 (secondsLeft now t)) e.retry ++ opt 1 (fun x : Status => [x.code]) e.lastTune

/-- An entry in the reading of all 24; an EMPTY one with its state alone (R169). That the outcome goes with a present
flag and the orphan flag without one is the model's choice (log 10). -/
def entryShortBytes (e : Entry) : List Byte :=
  if e.state = .empty then u8 e.state.code
  else u8 e.state.code ++ opt 1 u8 e.outcome ++ flag e.orphan

/-- SCHEDULE_READ by its owner (R169). -/
def scheduleReadReq (entry : Byte) : Req := fun s =>
  if entry = 255 then (answer .ok (allEntries.flatMap fun n => entryShortBytes (s.entry n)), s)
  else match toFin? 24 entry.toNat with
    | some n => (answer .ok (entryBytes s.clock.uptimeMs n (s.entry n)), s)
    | none => refuse .badField s

/-- SCHEDULE_READ (R169). -/
def execScheduleRead (tag : Byte) (entry : Byte) (s : State) : Result :=
  .next (s.serve 0x1A tag (scheduleReadReq entry))

end Sys2Proof.Machine
end

