-- ==== Sys2Proof/Machine/Frames.lean ====
section
/-! DEFINITION. The receiver, byte by byte (R183), and what a good frame spells: the length its body calls
for and the request it makes (R184). -/

namespace Sys2Proof.Machine

open Sys2Proof

/-! ### Bodies (R182) -/

/-- Two bytes of a body. -/
def halfAt (off : Nat) (l : List Byte) : Half := BitVec.ofNat 16 (natAt off 2 l)

/-- Four bytes of a body. -/
def wordAt (off : Nat) (l : List Byte) : Word := BitVec.ofNat 32 (natAt off 4 l)

/-- Four PIN digits of a body. -/
def pinAt (off : Nat) (l : List Byte) : Pin :=
  ⟨byteAt off l, byteAt (off + 1) l, byteAt (off + 2) l, byteAt (off + 3) l⟩

/-- The body of CARRIER_PUT (02 section 2.1). -/
def carrierBody (b : List Byte) : CarrierReq :=
  { index := byteAt 0 b, freq := wordAt 1 b, cls := byteAt 5 b, guide := byteAt 6 b, home := byteAt 7 b }

/-- The body of QUALITY_CLASS_SET (02 section 2.3). -/
def classBody (b : List Byte) : ClassReq :=
  { cls := byteAt 0 b, n := byteAt 1 b, tl := halfAt 2 b, th := halfAt 4 b, h := byteAt 6 b,
    k := byteAt 7 b, initial := byteAt 8 b }

/-- The body of GUIDE_PUT (05 section 5.2). -/
def guideBody (b : List Byte) : GuideReq :=
  { sid := halfAt 0 b, eid := wordAt 2 b, version := byteAt 6 b, start := wordAt 7 b,
    duration := halfAt 11 b, rating := byteAt 13 b, pricePresent := byteAt 14 b, price := halfAt 15 b,
    purchasable := byteAt 17 b, prorate := byteAt 18 b, preview := byteAt 19 b, title := wordAt 20 b }

/-- The body of CELL_PUT (07 section 7.5). -/
def cellBody (b : List Byte) : CellReq :=
  { cell := byteAt 0 b, bound := byteAt 1 b, in0 := byteAt 2 b, in1 := byteAt 3 b, in2 := byteAt 4 b,
    truth := Vector.ofFn fun i => byteAt (5 + i.val) b,
    linkPresent := byteAt 13 b, link := byteAt 14 b, edge := byteAt 15 b }

/-- The body of SERVICE_PUT with its count of components (01 section 1.1). -/
def serviceBody (b : List Byte) : ServiceReq :=
  { channel := halfAt 0 b, sid := halfAt 2 b, carrier := byteAt 4 b, access := byteAt 5 b,
    rating := byteAt 6 b,
    comps := (List.range (natAt 7 1 b)).map fun i =>
      { kind := byteAt (8 + 3 * i) b, tag := halfAt (9 + 3 * i) b } }

/-- The body of PROFILE_PUT with its count of windows (06 section 6.8). -/
def profileBody (b : List Byte) : ProfileReq :=
  let o := 15 + 5 * natAt 14 1 b
  { profile := byteAt 0 b, masterPin := pinAt 1 b, inUse := byteAt 5 b, newPin := pinAt 6 b,
    pinToSelect := byteAt 10 b, buyNeedsPin := byteAt 11 b, ceiling := byteAt 12 b,
    windowMode := byteAt 13 b,
    windows := (List.range (natAt 14 1 b)).map fun i =>
      { mask := byteAt (15 + 5 * i) b, start := halfAt (16 + 5 * i) b, stop := halfAt (18 + 5 * i) b }
    allowancePresent := byteAt o b, allowance := wordAt (o + 1) b,
    capPresent := byteAt (o + 5) b, cap := halfAt (o + 6) b }

/-! ### What a good frame spells (R184) -/

/-- Tests 3 and 4 of R184: no request's kind, a wrong body length, or a request. -/
inductive Spelt where
  | unknown
  | badLength
  | request (i : Instr)
deriving DecidableEq, Repr

/-- The requests of one body length, with the length (R184 test 4). -/
def fixedRequest (tag : Byte) (b : List Byte) : Nat → Option (Nat × Instr)
  | 0x00 => some (0, .identify tag)
  | 0x01 => some (1, .modeSet tag (byteAt 0 b))
  | 0x02 => some (0, .restart tag)
  | 0x04 => some (6, .timeSet tag (wordAt 0 b) (halfAt 4 b))
  | 0x05 => some (0, .clockRead tag)
  | 0x06 => some (0, .faultRead tag)
  | 0x07 => some (2, .faultClear tag (halfAt 0 b))
  | 0x09 => some (1, .profileRead tag (byteAt 0 b))
  | 0x0A => some (6, .profileSelect tag (byteAt 0 b) (byteAt 1 b) (pinAt 2 b))
  | 0x0B => some (9, .allowanceGrant tag (byteAt 0 b) (wordAt 1 b) (pinAt 5 b))
  | 0x0C => some (6, .unlock tag (byteAt 0 b) (pinAt 1 b) (byteAt 5 b))
  | 0x0D => some (1, .relock tag (byteAt 0 b))
  | 0x0E => some (8, .householdSet tag (pinAt 0 b) (byteAt 4 b) (byteAt 5 b) (byteAt 6 b) (byteAt 7 b))
  | 0x0F => some (0, .householdRead tag)
  | 0x11 => some (3, .serviceDrop tag (byteAt 0 b) (halfAt 1 b))
  | 0x12 => some (3, .serviceRead tag (byteAt 0 b) (halfAt 1 b))
  | 0x14 => some (5, .tune tag (byteAt 0 b) (byteAt 1 b) (halfAt 2 b) (byteAt 4 b))
  | 0x15 => some (2, .stop tag (byteAt 0 b) (byteAt 1 b))
  | 0x16 => some (1, .slotStatus tag (byteAt 0 b))
  | 0x19 => some (1, .scheduleDrop tag (byteAt 0 b))
  | 0x1A => some (1, .scheduleRead tag (byteAt 0 b))
  | 0x20 => some (8, .carrierPut tag (carrierBody b))
  | 0x21 => some (1, .carrierDrop tag (byteAt 0 b))
  | 0x22 => some (1, .carrierRead tag (byteAt 0 b))
  | 0x23 => some (9, .qualityClassSet tag (classBody b))
  | 0x24 => some (1, .qualityClassRead tag (byteAt 0 b))
  | 0x25 => some (2, .laneEnable tag (byteAt 0 b) (byteAt 1 b))
  | 0x26 => some (1, .laneStatus tag (byteAt 0 b))
  | 0x27 => some (0, .arbiterRead tag)
  | 0x28 => some (24, .guidePut tag (guideBody b))
  | 0x29 => some (6, .guideDrop tag (halfAt 0 b) (wordAt 2 b))
  | 0x2A => some (7, .guideList tag (halfAt 0 b) (wordAt 2 b) (byteAt 6 b))
  | 0x2B => some (2, .guideNow tag (halfAt 0 b))
  | 0x2C => some (0, .guideStatus tag)
  | 0x2D => some (4, .sweepSet tag (byteAt 0 b) (byteAt 1 b) (halfAt 2 b))
  | 0x2E => some (0, .sweepStep tag)
  | 0x30 => some (1, .filterRead tag (byteAt 0 b))
  | 0x31 => some (1, .keyStatus tag (byteAt 0 b))
  | 0x34 => some (16, .cellPut tag (cellBody b))
  | 0x35 => some (6, .cellEnable tag (byteAt 0 b) (byteAt 1 b) (pinAt 2 b))
  | 0x36 => some (1, .cellRead tag (byteAt 0 b))
  | 0x38 => some (12, .buy tag (byteAt 0 b) (pinAt 1 b) (byteAt 5 b) (halfAt 6 b) (wordAt 8 b))
  | 0x39 => some (7, .quote tag (byteAt 0 b) (halfAt 1 b) (wordAt 3 b))
  | 0x3A => some (5, .purchasesRead tag (wordAt 0 b) (byteAt 4 b))
  | 0x3B => some (0, .accessStatus tag)
  | 0x3C => some (0, .tierRead tag)
  | 0x3D => some (0, .grantRead tag)
  | 0x3E => some (2, .noticeMaskSet tag (halfAt 0 b))
  | 0x3F => some (2, .noticeFlagsRead tag (halfAt 0 b))
  | _ => none

/-- The trigger of a SCHEDULE_PUT of a kind in range: its fields, and where its action begins. -/
def triggerAt (b : List Byte) : Nat → Option (TrigReq × Nat)
  | 0 => some (.atTime (wordAt 2 b), 6)
  | 1 => some (.atEvent (halfAt 2 b) (wordAt 4 b) (halfAt 8 b), 10)
  | 2 => some (.auxRise (byteAt 2 b), 3)
  | _ => none

/-- The action of a SCHEDULE_PUT at an offset, of a kind in range: its fields, and the body's length. -/
def actionAt (t : TrigReq) (o : Nat) (b : List Byte) : Nat → Option (ActReq × Nat)
  | 0 => match t with
    | .atTime _ => some (.record (byteAt (o + 1) b) (halfAt (o + 2) b) (wordAt (o + 4) b), o + 8)
    | _ => some (.record (byteAt (o + 1) b) (halfAt (o + 2) b)
        ((halfAt (o + 4) b).zeroExtend 32), o + 6)
  | 1 => some (.viewTune (byteAt (o + 1) b) (halfAt (o + 2) b), o + 4)
  | 2 => some (.remind, o + 1)
  | 3 => some (.wake, o + 1)
  | _ => none

/-- SCHEDULE_PUT: the length called for follows its kinds; a kind out of range calls for none (R184). -/
def scheduleSpelt (tag : Byte) (b : List Byte) : Spelt :=
  if b.length < 2 then .badLength
  else match triggerAt b (natAt 1 1 b) with
    | none => .request (.schedulePut tag (byteAt 0 b) (.other (byteAt 1 b)) .remind)
    | some (t, o) =>
      if b.length ≤ o then .badLength
      else match actionAt t o b (natAt o 1 b) with
        | none => .request (.schedulePut tag (byteAt 0 b) t (.other (byteAt o b)))
        | some (a, n) =>
          if b.length = n then .request (.schedulePut tag (byteAt 0 b) t a) else .badLength

/-- A request of a length that its count calls for (R184). -/
def countedSpelt (least count each rest : Nat) (i : Instr) (b : List Byte) : Spelt :=
  if b.length < least then .badLength
  else if b.length = least + each * count + rest then .request i
  else .badLength

/-- What the kind and body of a good frame spell, by tests 3 and 4 of R184. -/
def spell (kind tag : Byte) (b : List Byte) : Spelt :=
  match kind.toNat with
  | 0x08 => countedSpelt 15 (natAt 14 1 b) 5 8 (.profilePut tag (profileBody b)) b
  | 0x10 => countedSpelt 8 (natAt 7 1 b) 3 0 (.servicePut tag (serviceBody b)) b
  | 0x18 => scheduleSpelt tag b
  | k => match fixedRequest tag b k with
    | none => .unknown
    | some (n, i) => if b.length = n then .request i else .badLength

/-! ### The taking of a good frame (R184) -/

/-- The state a result holds, or else the one it came from. -/
def Result.orElse (s : State) : Result → State
  | .next t => t
  | _ => s

/-- The outcome of a request; a row that is no request is none. -/
def requestResult (i : Instr) (s : State) : Result :=
  match i with
  | .identify t => execIdentify t s
  | .modeSet t a => execModeSet t a s
  | .restart t => execRestart t s
  | .timeSet t a b => execTimeSet t a b s
  | .clockRead t => execClockRead t s
  | .faultRead t => execFaultRead t s
  | .faultClear t a => execFaultClear t a s
  | .profileRead t a => execProfileRead t a s
  | .profileSelect t a b c => execProfileSelect t a b c s
  | .allowanceGrant t a b c => execAllowanceGrant t a b c s
  | .unlock t a b c => execUnlock t a b c s
  | .relock t a => execRelock t a s
  | .householdSet t a b c d e => execHouseholdSet t a b c d e s
  | .householdRead t => execHouseholdRead t s
  | .serviceDrop t a b => execServiceDrop t a b s
  | .serviceRead t a b => execServiceRead t a b s
  | .tune t a b c d => execTune t a b c d s
  | .stop t a b => execStop t a b s
  | .slotStatus t a => execSlotStatus t a s
  | .scheduleDrop t a => execScheduleDrop t a s
  | .scheduleRead t a => execScheduleRead t a s
  | .carrierPut t a => execCarrierPut t a s
  | .carrierDrop t a => execCarrierDrop t a s
  | .carrierRead t a => execCarrierRead t a s
  | .qualityClassSet t a => execQualityClassSet t a s
  | .qualityClassRead t a => execQualityClassRead t a s
  | .laneEnable t a b => execLaneEnable t a b s
  | .laneStatus t a => execLaneStatus t a s
  | .arbiterRead t => execArbiterRead t s
  | .guidePut t a => execGuidePut t a s
  | .guideDrop t a b => execGuideDrop t a b s
  | .guideList t a b c => execGuideList t a b c s
  | .guideNow t a => execGuideNow t a s
  | .guideStatus t => execGuideStatus t s
  | .sweepSet t a b c => execSweepSet t a b c s
  | .sweepStep t => execSweepStep t s
  | .filterRead t a => execFilterRead t a s
  | .keyStatus t a => execKeyStatus t a s
  | .cellPut t a => execCellPut t a s
  | .cellEnable t a b c => execCellEnable t a b c s
  | .cellRead t a => execCellRead t a s
  | .buy t a b c d e => execBuy t a b c d e s
  | .quote t a b c => execQuote t a b c s
  | .purchasesRead t a b => execPurchasesRead t a b s
  | .accessStatus t => execAccessStatus t s
  | .tierRead t => execTierRead t s
  | .grantRead t => execGrantRead t s
  | .noticeMaskSet t a => execNoticeMaskSet t a s
  | .noticeFlagsRead t a => execNoticeFlagsRead t a s
  | .servicePut t a => execServicePut t a s
  | .profilePut t a => execProfilePut t a s
  | .schedulePut t a b c => execSchedulePut t a b c s
  | _ => .next s

/-- A reply of the status alone to a frame that fails test 3 or 4: the mode is not tested (R184). -/
def State.takeBad (kind tag : Byte) (st : Status) (s : State) : State :=
  let s := s.clearOut
  if s.linkOpen then
    if 8 ≤ s.link.replies.length then s.overrun.startTx
    else (s.countGood.answerWith kind tag (refuse st)).startTx
  else s

/-- A good frame taken (R184). -/
def takeFrame (kind tag : Byte) (b : List Byte) (s : State) : State :=
  if 8 ≤ s.link.replies.length then s.overrun
  else if 0x40 ≤ kind.toNat then s.frameError
  else match spell kind tag b with
    | .unknown => s.takeBad kind tag .unknownKind
    | .badLength => s.takeBad kind tag .badLength
    | .request i => (requestResult i s).orElse s

/-- UNKNOWN_KIND: a good frame whose kind names no request (R184 test 3). -/
def execUnknownKind (tag kind : Byte) (s : State) : Result :=
  .next (s.takeBad kind tag .unknownKind)

/-! ### The receiver (R183) -/

/-- The receiver set to a state. -/
def State.receiver (r : Receiver) (s : State) : State := s.modLink fun l => { l with receiver := r }

/-- The receiver after the tag: CHECK if the body is empty, else BODY (R183). -/
def afterTag (len1 len2 kind tag : Byte) : Receiver :=
  if len1 = 0 ∧ len2 = 0 then .check len1 len2 kind tag [] none else .body len1 len2 kind tag []

/-- A byte with its stop bit, taken by the receiver's state (R183). -/
def takeByte (b : Byte) (s : State) : State :=
  match s.link.receiver with
  | .hunt => if b = 0xA5 then s.receiver (.length none) else s
  | .length none => s.receiver (.length (some b))
  | .length (some a) =>
    if 1020 < 256 * a.toNat + b.toNat then s.frameError else s.receiver (.header a b none)
  | .header a c none => s.receiver (.header a c (some b))
  | .header a c (some kind) => s.receiver (afterTag a c kind b)
  | .body a c kind tag got =>
    if got.length + 1 = 256 * a.toNat + c.toNat then s.receiver (.check a c kind tag (got ++ [b]) none)
    else s.receiver (.body a c kind tag (got ++ [b]))
  | .check a c kind tag got none => s.receiver (.check a c kind tag got (some b))
  | .check a c kind tag got (some x) =>
    if (crc16 ([a, c, kind, tag] ++ got)).toNat = 256 * x.toNat + b.toNat then
      takeFrame kind tag got (s.receiver .hunt)
    else s.frameError

/-- A byte without its stop bit: an error in any state but HUNT (R183). -/
def takeBroken (s : State) : State := if s.link.receiver = .hunt then s else s.frameError

/-- The time of the last byte, from which the inter-byte time runs (R183). -/
def State.noteByte (s : State) : State := s.modLink fun l => { l with lastByteMs := s.clock.uptimeMs }

/-- RECEIVED_BYTE (R183). DESIGN CHOICE (log 5): a byte next in the queue is in time, whatever uptime a
SECOND_BOUNDARY row before it has jumped. -/
def execReceivedByte (b : Byte) (stop : Bool) (s : State) : Result :=
  .next (s.linkEvent fun s => if stop then takeByte b s.noteByte else takeBroken s.noteByte)

end Sys2Proof.Machine
end

