-- ==== Sys2Proof/Machine/Dispatch.lean ====
section
/-! DEFINITION. The dispatch: one arm per constructor of Instr. -/

namespace Sys2Proof.Machine

open Sys2Proof

def exec (i : Instr) (s : State) : Host.Outcome State Fault Refusal :=
  match i with
  | .powerOn => Sys2Proof.Machine.execPowerOn s
  | .powerLoss => Sys2Proof.Machine.execPowerLoss s
  | .bootEnd => Sys2Proof.Machine.execBootEnd s
  | .enterBoot => Sys2Proof.Machine.execEnterBoot s
  | .identify tag => Sys2Proof.Machine.execIdentify tag s
  | .modeSet tag mode => Sys2Proof.Machine.execModeSet tag mode s
  | .restart tag => Sys2Proof.Machine.execRestart tag s
  | .timeSet tag utc offset => Sys2Proof.Machine.execTimeSet tag utc offset s
  | .clockRead tag => Sys2Proof.Machine.execClockRead tag s
  | .faultRead tag => Sys2Proof.Machine.execFaultRead tag s
  | .faultClear tag names => Sys2Proof.Machine.execFaultClear tag names s
  | .servicePut tag r => Sys2Proof.Machine.execServicePut tag r s
  | .serviceDrop tag sel num => Sys2Proof.Machine.execServiceDrop tag sel num s
  | .serviceRead tag sel num => Sys2Proof.Machine.execServiceRead tag sel num s
  | .tune tag slot sel num force => Sys2Proof.Machine.execTune tag slot sel num force s
  | .stop tag slot force => Sys2Proof.Machine.execStop tag slot force s
  | .slotStatus tag slot => Sys2Proof.Machine.execSlotStatus tag slot s
  | .carrierPut tag r => Sys2Proof.Machine.execCarrierPut tag r s
  | .carrierDrop tag index => Sys2Proof.Machine.execCarrierDrop tag index s
  | .carrierRead tag index => Sys2Proof.Machine.execCarrierRead tag index s
  | .qualityClassSet tag r => Sys2Proof.Machine.execQualityClassSet tag r s
  | .qualityClassRead tag cls => Sys2Proof.Machine.execQualityClassRead tag cls s
  | .laneEnable tag lane on => Sys2Proof.Machine.execLaneEnable tag lane on s
  | .laneStatus tag lane => Sys2Proof.Machine.execLaneStatus tag lane s
  | .arbiterRead tag => Sys2Proof.Machine.execArbiterRead tag s
  | .filterRead tag lane => Sys2Proof.Machine.execFilterRead tag lane s
  | .keyStatus tag slot => Sys2Proof.Machine.execKeyStatus tag slot s
  | .buy tag profile pin slot sid eid => Sys2Proof.Machine.execBuy tag profile pin slot sid eid s
  | .quote tag profile sid eid => Sys2Proof.Machine.execQuote tag profile sid eid s
  | .purchasesRead tag fromSeq count => Sys2Proof.Machine.execPurchasesRead tag fromSeq count s
  | .accessStatus tag => Sys2Proof.Machine.execAccessStatus tag s
  | .tierRead tag => Sys2Proof.Machine.execTierRead tag s
  | .grantRead tag => Sys2Proof.Machine.execGrantRead tag s
  | .guidePut tag r => Sys2Proof.Machine.execGuidePut tag r s
  | .guideDrop tag sid eid => Sys2Proof.Machine.execGuideDrop tag sid eid s
  | .guideList tag sid fromTime count => Sys2Proof.Machine.execGuideList tag sid fromTime count s
  | .guideNow tag sid => Sys2Proof.Machine.execGuideNow tag sid s
  | .guideStatus tag => Sys2Proof.Machine.execGuideStatus tag s
  | .sweepSet tag on mode dwell => Sys2Proof.Machine.execSweepSet tag on mode dwell s
  | .sweepStep tag => Sys2Proof.Machine.execSweepStep tag s
  | .unlock tag slot pin minutes => Sys2Proof.Machine.execUnlock tag slot pin minutes s
  | .relock tag slot => Sys2Proof.Machine.execRelock tag slot s
  | .profileSelect tag slot profile pin => Sys2Proof.Machine.execProfileSelect tag slot profile pin s
  | .profilePut tag r => Sys2Proof.Machine.execProfilePut tag r s
  | .allowanceGrant tag profile seconds pin => Sys2Proof.Machine.execAllowanceGrant tag profile seconds pin s
  | .householdSet tag pin hour d0 d1 d2 => Sys2Proof.Machine.execHouseholdSet tag pin hour d0 d1 d2 s
  | .profileRead tag profile => Sys2Proof.Machine.execProfileRead tag profile s
  | .householdRead tag => Sys2Proof.Machine.execHouseholdRead tag s
  | .cellPut tag r => Sys2Proof.Machine.execCellPut tag r s
  | .cellEnable tag cell on pin => Sys2Proof.Machine.execCellEnable tag cell on pin s
  | .cellRead tag cell => Sys2Proof.Machine.execCellRead tag cell s
  | .schedulePut tag entry trig act => Sys2Proof.Machine.execSchedulePut tag entry trig act s
  | .scheduleDrop tag entry => Sys2Proof.Machine.execScheduleDrop tag entry s
  | .scheduleRead tag entry => Sys2Proof.Machine.execScheduleRead tag entry s
  | .noticeMaskSet tag mask => Sys2Proof.Machine.execNoticeMaskSet tag mask s
  | .noticeFlagsRead tag clear => Sys2Proof.Machine.execNoticeFlagsRead tag clear s
  | .unknownKind tag kind => Sys2Proof.Machine.execUnknownKind tag kind s
  | .linkFrame => Sys2Proof.Machine.execLinkFrame s
  | .interByteTimeout => Sys2Proof.Machine.execInterByteTimeout s
  | .transmitFrameEnd => Sys2Proof.Machine.execTransmitFrameEnd s
  | .lock lane order => Sys2Proof.Machine.execLock lane order s
  | .laneUnlock lane => Sys2Proof.Machine.execLaneUnlock lane s
  | .sample lane errors => Sys2Proof.Machine.execSample lane errors s
  | .cell lane bytes => Sys2Proof.Machine.execCell lane bytes s
  | .seekFailed lane => Sys2Proof.Machine.execSeekFailed lane s
  | .silenceTimerExpiry lane => Sys2Proof.Machine.execSilenceTimerExpiry lane s
  | .keyTimeout slot => Sys2Proof.Machine.execKeyTimeout slot s
  | .homeRetryExpiry => Sys2Proof.Machine.execHomeRetryExpiry s
  | .sweepTimerExpiry => Sys2Proof.Machine.execSweepTimerExpiry s
  | .scheduleRetryExpiry entry => Sys2Proof.Machine.execScheduleRetryExpiry entry s
  | .patrolVisit => Sys2Proof.Machine.execPatrolVisit s
  | .scrubRewrite => Sys2Proof.Machine.execScrubRewrite s
  | .storeWriteComplete => Sys2Proof.Machine.execStoreWriteComplete s
  | .secondBoundary => Sys2Proof.Machine.execSecondBoundary s
  | .tierExpiry => Sys2Proof.Machine.execTierExpiry s
  | .grantExpiry => Sys2Proof.Machine.execGrantExpiry s
  | .previewEnd slot => Sys2Proof.Machine.execPreviewEnd slot s
  | .periodRollover => Sys2Proof.Machine.execPeriodRollover s
  | .dayStartReset => Sys2Proof.Machine.execDayStartReset s
  | .prune => Sys2Proof.Machine.execPrune s
  | .scheduleTrigger entry => Sys2Proof.Machine.execScheduleTrigger entry s
  | .runEnd entry => Sys2Proof.Machine.execRunEnd entry s
  | .lockoutEnd profile => Sys2Proof.Machine.execLockoutEnd profile s
  | .unlockEnd slot => Sys2Proof.Machine.execUnlockEnd slot s
  | .allowanceOut profile => Sys2Proof.Machine.execAllowanceOut profile s
  | .profileUnitWrite => Sys2Proof.Machine.execProfileUnitWrite s
  | .receivedByte b stop => Sys2Proof.Machine.execReceivedByte b stop s

end Sys2Proof.Machine
end

