-- ==== Sys2Proof/Machine/Bodies.lean ====
section
/-! DEFINITION. The frame a host sends for each request: its kind, its tag and its body, written from the
Body heads of the chapters (R182). The receiver's side is in Machine/Frames.lean. -/

namespace Sys2Proof.Machine

open Sys2Proof

/-- Two bytes of a field. -/
def half (h : Half) : List Byte := u16 h.toNat

/-- Four bytes of a field. -/
def word (w : Word) : List Byte := u32 w.toNat

/-- The digits of a PIN, one byte each. -/
def pinBytes (p : Pin) : List Byte := [p.d0, p.d1, p.d2, p.d3]

/-- The body of SERVICE_PUT (01 section 1.1). -/
def serviceFields (r : ServiceReq) : List Byte :=
  half r.channel ++ half r.sid ++ [r.carrier, r.access, r.rating] ++ u8 r.comps.length
    ++ r.comps.flatMap fun c => [c.kind] ++ half c.tag

/-- The body of CARRIER_PUT (02 section 2.1). -/
def carrierFields (r : CarrierReq) : List Byte :=
  [r.index] ++ word r.freq ++ [r.cls, r.guide, r.home]

/-- The body of QUALITY_CLASS_SET (02 section 2.3). -/
def classFields (r : ClassReq) : List Byte :=
  [r.cls, r.n] ++ half r.tl ++ half r.th ++ [r.h, r.k, r.initial]

/-- The body of GUIDE_PUT (05 section 5.2). -/
def guideFields (r : GuideReq) : List Byte :=
  half r.sid ++ word r.eid ++ [r.version] ++ word r.start ++ half r.duration
    ++ [r.rating, r.pricePresent] ++ half r.price ++ [r.purchasable, r.prorate, r.preview] ++ word r.title

/-- The body of PROFILE_PUT (06 section 6.8). -/
def profileFields (r : ProfileReq) : List Byte :=
  [r.profile] ++ pinBytes r.masterPin ++ [r.inUse] ++ pinBytes r.newPin
    ++ [r.pinToSelect, r.buyNeedsPin, r.ceiling, r.windowMode] ++ u8 r.windows.length
    ++ (r.windows.flatMap fun w => [w.mask] ++ half w.start ++ half w.stop)
    ++ [r.allowancePresent] ++ word r.allowance ++ [r.capPresent] ++ half r.cap

/-- The body of CELL_PUT (07 section 7.5). -/
def cellFields (r : CellReq) : List Byte :=
  [r.cell, r.bound, r.in0, r.in1, r.in2] ++ r.truth.toList ++ [r.linkPresent, r.link, r.edge]

/-- The trigger fields of SCHEDULE_PUT (08 section 8.5). -/
def triggerFields : TrigReq → List Byte
  | .atTime t => [0] ++ word t
  | .atEvent sid eid lead => [1] ++ half sid ++ word eid ++ half lead
  | .auxRise c => [2, c]
  | .other k => [k]

/-- The action fields of SCHEDULE_PUT after a trigger (08 section 8.5). After a trigger of a kind out of
range nothing is read. -/
def actionFields (t : TrigReq) (a : ActReq) : List Byte :=
  match t, a with
  | .other _, _ => []
  | .atTime _, .record k sid e => [0, k] ++ half sid ++ word e
  | _, .record k sid e => [0, k] ++ half sid ++ u16 e.toNat
  | _, .viewTune k sid => [1, k] ++ half sid
  | _, .remind => [2]
  | _, .wake => [3]
  | _, .other k => [k]

/-- The kind, the tag and the body of a request's frame; a row that is no request has none (R182, R184). -/
def requestFrame : Instr → Option (Byte × Byte × List Byte)
  | .identify t => some (0x00, t, [])
  | .modeSet t m => some (0x01, t, [m])
  | .restart t => some (0x02, t, [])
  | .timeSet t u o => some (0x04, t, word u ++ half o)
  | .clockRead t => some (0x05, t, [])
  | .faultRead t => some (0x06, t, [])
  | .faultClear t n => some (0x07, t, half n)
  | .profilePut t r => some (0x08, t, profileFields r)
  | .profileRead t p => some (0x09, t, [p])
  | .profileSelect t k p n => some (0x0A, t, [k, p] ++ pinBytes n)
  | .allowanceGrant t p n m => some (0x0B, t, [p] ++ word n ++ pinBytes m)
  | .unlock t k n m => some (0x0C, t, [k] ++ pinBytes n ++ [m])
  | .relock t k => some (0x0D, t, [k])
  | .householdSet t n h a b c => some (0x0E, t, pinBytes n ++ [h, a, b, c])
  | .householdRead t => some (0x0F, t, [])
  | .servicePut t r => some (0x10, t, serviceFields r)
  | .serviceDrop t s n => some (0x11, t, [s] ++ half n)
  | .serviceRead t s n => some (0x12, t, [s] ++ half n)
  | .tune t k s n f => some (0x14, t, [k, s] ++ half n ++ [f])
  | .stop t k f => some (0x15, t, [k, f])
  | .slotStatus t k => some (0x16, t, [k])
  | .schedulePut t n g a => some (0x18, t, [n] ++ triggerFields g ++ actionFields g a)
  | .scheduleDrop t n => some (0x19, t, [n])
  | .scheduleRead t n => some (0x1A, t, [n])
  | .carrierPut t r => some (0x20, t, carrierFields r)
  | .carrierDrop t c => some (0x21, t, [c])
  | .carrierRead t c => some (0x22, t, [c])
  | .qualityClassSet t r => some (0x23, t, classFields r)
  | .qualityClassRead t c => some (0x24, t, [c])
  | .laneEnable t l o => some (0x25, t, [l, o])
  | .laneStatus t l => some (0x26, t, [l])
  | .arbiterRead t => some (0x27, t, [])
  | .guidePut t r => some (0x28, t, guideFields r)
  | .guideDrop t s e => some (0x29, t, half s ++ word e)
  | .guideList t s f n => some (0x2A, t, half s ++ word f ++ [n])
  | .guideNow t s => some (0x2B, t, half s)
  | .guideStatus t => some (0x2C, t, [])
  | .sweepSet t o m d => some (0x2D, t, [o, m] ++ half d)
  | .sweepStep t => some (0x2E, t, [])
  | .filterRead t l => some (0x30, t, [l])
  | .keyStatus t k => some (0x31, t, [k])
  | .cellPut t r => some (0x34, t, cellFields r)
  | .cellEnable t n o m => some (0x35, t, [n, o] ++ pinBytes m)
  | .cellRead t n => some (0x36, t, [n])
  | .buy t p n k s e => some (0x38, t, [p] ++ pinBytes n ++ [k] ++ half s ++ word e)
  | .quote t p s e => some (0x39, t, [p] ++ half s ++ word e)
  | .purchasesRead t f n => some (0x3A, t, word f ++ [n])
  | .accessStatus t => some (0x3B, t, [])
  | .tierRead t => some (0x3C, t, [])
  | .grantRead t => some (0x3D, t, [])
  | .noticeMaskSet t m => some (0x3E, t, half m)
  | .noticeFlagsRead t c => some (0x3F, t, half c)
  | _ => none

/-- The bytes of a request's frame as they come to the receiver (R182). -/
def requestBytes (i : Instr) : Option (List Byte) :=
  (requestFrame i).map fun f => frameBytes f.1 f.2.1 f.2.2

end Sys2Proof.Machine
end

