-- ==== Sys2Proof/Safety.lean ====
section
/-! DEFINITION. The terms the statements use: when the part takes a command and what answering a request is,
what a command leaves unchanged, and what the rules keep in form and in range. -/

namespace Sys2Proof.Machine

open Sys2Proof

/-! ### Commands and their outcomes -/

/-- Some commands taken one after another, up to the first that does not answer a next state. -/
def execAll : List Instr → State → Host.Outcome State Fault Refusal
  | [], s => .next s
  | i :: rest, s => match exec i s with
    | .next t => execAll rest t
    | o => o

/-- The part takes events: it has power, is not in BOOT, has not taken RESTART (R171, R173), and no rise is
under way between two blocks. -/
structure State.live (s : State) : Prop where
  power : s.power = true
  running : s.restarting = false
  mode : s.mode ≠ .boot
  rises : s.auxRises = []

/-- The part takes requests: as for events, and the reply queue has room (R184 test 1). -/
structure State.ready (s : State) : Prop extends s.live where
  room : s.link.replies.length < 8

/-! ### An idle millisecond (log 2) -/

/-- The part a millisecond on, before anything that falls due in it: nature's free values drawn, the uptime moved. -/
def State.passed (s : State) : State :=
  (natureWork s.clearOut).modClock fun c => { c with uptimeMs := c.uptimeMs + 1 }

/-- The rows of the timers, writes and frames whose set time has come: the write under way (R178), the frame being
sent (R187), the 5 ms between bytes (R183), the pending rewrite (R113), the patrol (R116), the seek and silence timers
of the lanes (R38, R44), the key timers of the slots (R16), the home hold's retry (R54), the sweep's timer (R119) and
the retries of the schedule (R164). -/
def State.dueRows (s : State) : List Instr :=
  let now := s.clock.uptimeMs
  let come (t : Option Nat) : Bool := t.any (· ≤ now)
  (if come (s.store.writing.map (·.2)) then [.storeWriteComplete] else [])
    ++ (if s.link.tx ≠ .idle ∧ s.link.txDue ≤ now then [.transmitFrameEnd] else [])
    ++ (if s.link.receiver ≠ .hunt ∧ s.link.lastByteMs + 5 < now then [.interByteTimeout] else [])
    ++ (if come (s.guide.scrub.map (·.due)) then [.scrubRewrite] else [])
    ++ (if come s.guide.patrolDue then [.patrolVisit] else [])
    ++ (allLanes.filter fun l => come (s.lane l).seekTimer).map .seekFailed
    ++ (allLanes.filter fun l => come (s.lane l).silenceTimer).map .silenceTimerExpiry
    ++ (allSlots.filter fun k => come (s.slot k).keyTimer).map .keyTimeout
    ++ (match s.arb.home with
      | .retry e => if e ≤ now then [.homeRetryExpiry] else []
      | _ => [])
    ++ (if come s.sweep.timer then [.sweepTimerExpiry] else [])
    ++ (allEntries.filter fun n => come (s.entry n).retry).map .scheduleRetryExpiry

/-- The step to come assembles the state from the retained store (R179): POWER_ON's, ENTER_BOOT's, or an idle one
while RESTART waits. -/
def State.assembles (s : State) : Prop :=
  match s.pending with
  | [] => s.restarting = true
  | .powerOn :: _ => True
  | .enterBoot :: _ => True
  | _ => False

/-- A second boundary in which nothing but the counts of seconds comes due: UTC below its top, no guide entry and no
current event, no tier or grant that ends, no key on a preview, and the household day not over. -/
structure State.quietSecond (s : State) : Prop where
  live : s.live
  utc : s.clock.utc < 4294967295
  guide : s.guide.places = []
  events : ∀ k, (s.slot k).cur = none
  tiers : ∀ i : Fin 32, (s.access.tiers[i]).expiry = none
  grants : s.access.grants = []
  keys : ∀ k x, (s.slot k).desc.keyA = some x ∨ (s.slot k).desc.keyB = some x → ∀ id, x.basis ≠ .preview id
  day : s.clock.known = true → ∀ d, s.parental.household.day = some d →
    s.clock.utc + 1 + 60 * s.clock.offset - 3600 * s.parental.household.dayStart < 86400 * (d + 1)

/-- A second counts against a profile's allowance (R134). -/
def State.spends (s : State) (p : Fin 8) : Prop :=
  (s.profile p).inUse = true ∧ (s.profile p).allowance.isSome = true ∧ 0 < (s.profile p).remaining
    ∧ ∃ v : Fin 3, (s.slot (viewSlot v)).profile = some p ∧ (s.slot (viewSlot v)).state = .presenting

/-! ### Replies (R184, R185) -/

/-- A reply's kind, tag and body. -/
def Reply.content (r : Reply) : Byte × Byte × List Byte := (r.kind, r.tag, r.body)

/-- The replies that are queued, without what they wait for. -/
def State.queued (s : State) : List (Byte × Byte × List Byte) := s.link.replies.map Reply.content

/-- A request's frame is counted and its reply stands last in the queue (R184, R185, R191). -/
structure State.answered (s t : State) (kind tag : Byte) (body : List Byte) : Prop where
  queued : t.queued = s.queued ++ [(kind, tag, body)]
  counted : t.link.goodFrames = s.link.goodFrames + 1

/-- No request is answered or counted. -/
structure State.unanswered (s t : State) : Prop where
  queued : t.queued = s.queued
  counted : t.link.goodFrames = s.link.goodFrames

/-- A reply waits: for units it handed over to enter the write queue, or for its purchase unit to be written
(R178, R185). -/
def State.keepsWaiting (s : State) (r : Reply) : Prop :=
  (∃ us, r.hold = .entered us ∧ ∃ u ∈ us, ∃ h ∈ s.store.waiting, h.unit = u.1)
    ∨ ∃ u m, r.hold = .written u m ∧ s.store.holds u m = true

/-! ### What a command leaves -/

/-- The transmitter as it stands, or begun: with a reply, or with the first notice (R187, R188). -/
def Link.onward (l m : Link) : Prop :=
  (m.tx = l.tx ∧ m.txDue = l.txDue ∧ m.notices = l.notices ∧ m.overflow = l.overflow)
    ∨ (l.tx = .idle ∧ m.tx ≠ .idle
        ∧ ((m.notices = l.notices ∧ m.overflow = l.overflow)
          ∨ (m.notices = l.notices.tail ∧ m.overflow = false)))

/-- The link port without its reply queue, its count of good frames and what the transmitter takes. -/
def Link.ports (l : Link) : Link :=
  { l with replies := [], notices := [], overflow := false, tx := .idle, txDue := 0, goodFrames := 0 }

/-- The state without those, and without what left at the ports. -/
def State.bare (s : State) : State := { s with out := [], link := s.link.ports }

/-- A command does nothing but be answered: nothing leaves at the ports, the transmitter goes on, and all else
is as it was. -/
structure State.unmoved (s t : State) : Prop where
  bare : t.bare = s.bare
  onward : s.link.onward t.link
  out : t.out = []

/-- A request refused with a status alone: the reply carries it and nothing else changes (R186). -/
def State.refused (s t : State) (kind tag : Byte) (st : Status) : Prop :=
  s.answered t kind tag [st.code] ∧ s.unmoved t

/-- A request stopped by its PIN check (R129): the reply carries the check's result alone, and what the PIN
checker counts is all that changes. -/
def State.pinStops (s : State) (i : Instr) (kind tag : Byte) (p : Fin 8) (pin : Pin) : Prop :=
  ∀ st, (pinCheck p pin s).1 = some st →
    ∃ t, exec i s = .next t ∧ s.answered t kind tag [st.code] ∧ (pinCheck p pin s).2.unmoved t

/-- What of a slot follows an operation on the slot alone: service, carrier, origin, profile, start and
counters. -/
def Slot.core (x : Slot) : Slot :=
  { x with state := .free, reason := .none, lane := none, retune := 0, keyTimer := none, since := none,
           cur := none, desc := {} }

/-- What of a schedule entry the interruptions, retries and orphaning leave. -/
def Entry.core (e : Entry) : Entry := { e with interruptions := 0, retry := none, orphan := false }

/-- What of the link port the raising of notices leaves. -/
def Link.core (l : Link) : Link :=
  { l with notices := [], flags := Vector.replicate 10 false, overflow := false, noticesDropped := 0 }

/-- What of the link port the raising of notices and the answering of a request leave. -/
def Link.rest (l : Link) : Link := l.core.ports

/-- What of the state the movement of slots and lanes leaves. -/
def State.still (s : State) : State :=
  { s with
    link := s.link.core, faults := {}, lanes := Vector.replicate 3 {}, arb := {}, sweep := {},
    slots := s.slots.map Slot.core, router := {}, access := { s.access with counters := {} }, guide := {},
    gate := {}, schedule := s.schedule.map Entry.core, auxRises := [], out := [] }

/-- What of the state tuning, stopping and the schedule unit leave. -/
def State.calm (s : State) : State :=
  { s.still with
    mode := .boot
    slots := s.slots.map fun x => { profile := x.profile }
    parental := { s.parental with unlocks := Vector.replicate 3 none }
    schedule := s.schedule.map fun e => { trigger := e.trigger, action := e.action } }

/-- What a request or event that moves slots and lanes alone leaves: the modes, the clock, the tables, the
access unit but its counters, the store, the profiles, and of each slot and entry its core. -/
def State.cores (s : State) : State := { s.still with link := s.link.rest }

/-- What a request or event that tunes and stops slots, or lets the schedule unit do so, leaves: the clock, the
tables, the access unit but its counters, the store, the profiles, each slot's profile and each entry's
trigger and action. -/
def State.tables (s : State) : State := { s.calm with link := s.link.rest }

/-- What the work of a time boundary leaves: carriers, classes, services, each entry's trigger and action,
the part's power and what waits. -/
def State.ground (s : State) : State :=
  { s.tables with
    clock := {}, access := {}, parental := {}, store := {}, slots := Vector.replicate 5 {} }

/-- What a command that sets a fault or raises a notice alone leaves: everything but the fault summary, the
notices and what the transmitter takes. -/
def State.noted (s : State) : State := { s with link := s.link.rest, faults := {}, out := [] }

/-- A frame error: counted at the link port and under LINK_FRAME, noticed, and the receiver in HUNT (R183). -/
structure State.spoiled (s t : State) : Prop extends s.unanswered t where
  noted : t.noted = ({ s with link := { s.link with
    receiver := .hunt, frameErrors := s.link.frameErrors + 1 } }).noted
  faults : t.faults = { s.faults with linkFrame := some (s.faults.linkFrame.getD 0 + 1) }
  flag : t.link.flags[9] = true

/-- The link port with its receiver in a state after a byte that came now. -/
def State.heard (s : State) (r : Receiver) : State :=
  { s with link := { s.link with receiver := r, lastByteMs := s.clock.uptimeMs } }

/-- A byte takes the receiver to a state and does nothing else (R183). -/
def State.hears (s t : State) (r : Receiver) : Prop := s.unanswered t ∧ (s.heard r).unmoved t

/-- The body lengths of the requests of one length, from the chapters' Body heads. -/
def bodyLengths : List (Nat × Nat) :=
  [(0x00, 0), (0x01, 1), (0x02, 0), (0x04, 6), (0x05, 0), (0x06, 0), (0x07, 2), (0x09, 1), (0x0A, 6), (0x0B, 9),
   (0x0C, 6), (0x0D, 1), (0x0E, 8), (0x0F, 0), (0x11, 3), (0x12, 3), (0x14, 5), (0x15, 2), (0x16, 1), (0x19, 1),
   (0x1A, 1), (0x20, 8), (0x21, 1), (0x22, 1), (0x23, 9), (0x24, 1), (0x25, 2), (0x26, 1), (0x27, 0), (0x28, 24),
   (0x29, 6), (0x2A, 7), (0x2B, 2), (0x2C, 0), (0x2D, 4), (0x2E, 0), (0x30, 1), (0x31, 1), (0x34, 16), (0x35, 6),
   (0x36, 1), (0x38, 12), (0x39, 7), (0x3A, 5), (0x3B, 0), (0x3C, 0), (0x3D, 0), (0x3E, 2), (0x3F, 2)]

/-- The fields of SCHEDULE_PUT before its action, by the trigger's kind, and the lengths of the action by the action's
kind (08 section 8.5). -/
def schedulePutLengths (trigger action : Nat) : Option Nat × Option Nat :=
  ([6, 10, 3][trigger]?, [if trigger = 0 then 8 else 6, 4, 1, 1][action]?)

/-- A body's length is not the one its request calls for, by its kind or by the count or kinds it holds; a kind that
selects fields and is out of its range calls for none (R184 test 4). -/
def wrongLength (kind : Byte) (body : List Byte) : Prop :=
  let at' (i : Nat) : Nat := ((body[i]?).getD 0).toNat
  let n := body.length
  (∃ m, (kind.toNat, m) ∈ bodyLengths ∧ n ≠ m)
    ∨ (kind = 0x08 ∧ (n < 15 ∨ n ≠ 23 + 5 * at' 14))
    ∨ (kind = 0x10 ∧ (n < 8 ∨ n ≠ 8 + 3 * at' 7))
    ∨ (kind = 0x18 ∧ (n < 2 ∨ ∃ o, (schedulePutLengths (at' 1) 0).1 = some o
        ∧ (n ≤ o ∨ ∃ m, (schedulePutLengths (at' 1) (at' o)).2 = some m ∧ n ≠ o + m)))

/-- No ARMED entry wakes the part. -/
def State.noWake (s : State) : Prop := ∀ n, (s.entry n).state = .armed → (s.entry n).action ≠ .wake

/-- No ARMED entry awaits the rise of a cell. -/
def State.noRise (s : State) : Prop :=
  ∀ n c, (s.entry n).state = .armed → (s.entry n).trigger ≠ .auxRise c

/-- The counters of a lane that only its own events change (R35). -/
def Lane.tally (x : Lane) : Word × Word × Word × Word × Word × Word :=
  (x.locks, x.seekFailures, x.lossUnlock, x.lossSilent, x.lossPoorRun, x.lossCarrierEdit)

/-- What of a slot a claimant's lane decides. -/
def Slot.view (x : Slot) : SlotState × Reason × Option (Fin 3) × Nat := (x.state, x.reason, x.lane, x.retune)

/-- A slot without a lane and not waiting: FREE or FAULTED, and in no place of the wait queue. -/
def State.outSlot (s : State) (k : Fin 5) : Prop :=
  (s.slot k).lane = none ∧ ((s.slot k).state = .free ∨ (s.slot k).state = .faulted)
    ∧ ∀ w ∈ s.arb.queue, w.claimant ≠ .slot k

/-! ### Slots on their lanes (chapters 1 and 2) -/

/-- A slot is in no place of the wait queue. -/
def State.unqueued (s : State) (k : Fin 5) : Prop := ∀ w ∈ s.arb.queue, w.claimant ≠ .slot k

/-- A slot has left its filter entries, its keys and held refused records, and its key timer (R11, R20, R22, R24). -/
structure State.cleared (t : State) (k : Fin 5) : Prop where
  desc : (t.slot k).desc = {}
  timer : (t.slot k).keyTimer = none
  filters : ∀ f ∈ t.router.filters, ∀ ks, f.dest = .slots ks → k ∉ ks

/-- LOCKED, SIGNAL_OK and SCHEDULED of a slot read what the gate array's table says of the slot's lane and origin
(R148, R149). -/
structure State.laneTold (t : State) (k : Fin 5) : Prop where
  locked : (t.gate.src[k]).locked = true ↔ ∃ l, (t.slot k).lane = some l ∧ (t.lane l).state = .locked
  signalOk : (t.gate.src[k]).signalOk = true ↔ ∃ l, (t.slot k).lane = some l ∧ (t.lane l).state = .locked
    ∧ ((t.lane l).grade = some .good ∨ (t.lane l).grade = some .marginal)
  scheduled : (t.gate.src[k]).scheduled = true ↔ ∃ n, (t.slot k).origin = .schedule n

/-- A lane begins a seek of a carrier: SEEKING under its next order number, 1,500 ms to run, the tune order sent with
the frequency of the carrier's entry (R36). -/
structure State.seeks (s t : State) (l : Fin 3) (c : Nat) : Prop where
  state : (t.lane l).state = .seeking
  carrier : (t.lane l).carrier = some c
  order : (t.lane l).order = (s.lane l).order + 1
  timer : (t.lane l).seekTimer = some (s.clock.uptimeMs + 1500)
  sent : ∀ x, s.carrier? c = some x → .tuneOrder l x.freq ((s.lane l).order + 1) ∈ t.out

/-- A lane is released: IDLE, its carrier absent, an idle order sent (R52). -/
structure State.releases (t : State) (l : Fin 3) : Prop where
  state : (t.lane l).state = .idle
  carrier : (t.lane l).carrier = none
  sent : .idleOrder l ∈ t.out

/-- A retune count as an event finds it: the slot's, or 0 where a permit that rises in the event takes the slot, held for
its permit before the event or by it, to PRESENTING first (R17). A slot PRESENTING has a count of 0 by itself (R21). -/
def State.countFound (s : State) (k : Fin 5) (r : Nat) : Prop :=
  r = (s.slot k).retune
    ∨ (r = 0 ∧ ((s.slot k).state = .presenting ∨ ((s.slot k).state = .held ∧ (s.slot k).reason = .permitOff)))

/-- What the loss of a lane does to its slots and to itself (R20, R43): each slot in ACQUIRING, PRESENTING or HELD is
TUNING(LANE_LOST) on the lane, or FAULTED(LANE_LOST) without it when its retune count reaches 3, and a lane on which a
slot stays seeks its carrier again. The gate array's sources follow (R149). -/
structure State.loses (s t : State) (l : Fin 3) (c : Nat) : Prop where
  slots : ∀ k, (s.slot k).lane = some l → (s.slot k).state ∈ [SlotState.acquiring, .presenting, .held] →
    s.unqueued k → t.cleared k ∧ ∃ r, s.countFound k r
      ∧ (t.slot k).view = if r + 1 < 3 then (.tuning, .laneLost, some l, r + 1)
          else (.faulted, .laneLost, none, r + 1)
  told : ∀ k, (s.slot k).lane = some l → s.unqueued k → t.laneTold k
  lane : (∃ k, (s.slot k).lane = some l ∧ (s.slot k).retune < 2) → s.seeks t l c

/-- What a seek failure does to a lane's slots and to the lane (R21, R38, R52): each slot in TUNING stays with reason
LOCK_TIMEOUT, or is FAULTED(LOCK_TIMEOUT) when its retune count reaches 3; the lane seeks again if a slot stays, and
is released if none does, with no other user, none waiting and the part in SERVICE. The gate array's sources follow
(R149). -/
structure State.failsSeek (s t : State) (l : Fin 3) (c : Nat) : Prop where
  slots : ∀ k, (s.slot k).lane = some l → (s.slot k).state = .tuning → s.unqueued k →
    (t.slot k).view = if (s.slot k).retune + 1 < 3 then (.tuning, .lockTimeout, some l, (s.slot k).retune + 1)
      else (.faulted, .lockTimeout, none, (s.slot k).retune + 1)
  told : ∀ k, (s.slot k).lane = some l → s.unqueued k → t.laneTold k
  again : (∃ k, (s.slot k).lane = some l ∧ (s.slot k).retune < 2) → s.seeks t l c
  idle : (∀ k, (s.slot k).lane = some l → (s.slot k).state = .tuning ∧ 2 ≤ (s.slot k).retune) →
    s.arb.home = .inactive → s.mode = .service → s.sweep.lane = none → s.arb.queue = [] →
    s.arb.sweepWaiting = false → t.releases l

/-- A slot displaced from its lane waits for its carrier with reason PREEMPTED (R22). -/
structure State.displaced (s t : State) (k : Fin 5) (c : Nat) : Prop where
  view : ∃ r, s.countFound k r ∧ (t.slot k).view = (.waitLane, .preempted, none, r)
  cleared : t.cleared k
  waits : { claimant := .slot k, carrier := c } ∈ t.arb.queue
  told : t.laneTold k

/-- A slot on a CLEAR service stands by its permit output: PRESENTING with a retune count of 0, or HELD(PERMIT_OFF)
(R15, R17). -/
def State.byPermit (t : State) (k : Fin 5) : Prop :=
  if t.permit k then (t.slot k).state = .presenting ∧ (t.slot k).reason = .none ∧ (t.slot k).retune = 0
  else (t.slot k).state = .held ∧ (t.slot k).reason = .permitOff

/-- A TUNE of the host passes every check of R9 on a service the slot does not hold, with the home hold at rest. -/
structure State.tuneTaken (s : State) (slot sel force : Byte) (num : Half) (k : Fin 5) (v : Service) : Prop where
  mode : s.mode = .service
  number : slot.toNat = k.val
  flag : force.toNat ≤ 1
  named : (sel = 0 ∧ 1 ≤ num.toNat ∧ num.toNat ≤ 9999) ∨ (sel = 1 ∧ 1 ≤ num.toNat)
  service : s.findService sel num = some v
  carrier : (s.carrier? v.carrier).isSome
  other : (s.slot k).service ≠ some v.sid ∨ (s.slot k).state = .faulted
  owned : (s.slot k).origin = .user ∨ force = 1
  home : s.arb.home = .inactive
  rise : s.noRise

/-- A slot's record set up afresh for an operation on a service: what it had is left, its unlock record has ended, and
the entry it ran for is CANCELLED; the gate array's sources follow its lane and origin (R9, R11, R12, R149). -/
structure State.begun (s t : State) (k : Fin 5) (v : Service) : Prop where
  service : (t.slot k).service = some v.sid
  carrier : (t.slot k).carrier = some v.carrier
  origin : (t.slot k).origin = .user
  start : (t.slot k).opStart = s.clock.uptimeMs / 1000
  retune : (t.slot k).retune = 0
  counts : (t.slot k).cellsOut = 0 ∧ (t.slot k).unkeyed = 0 ∧ (t.slot k).gaps = 0
  keys : (t.slot k).desc = {}
  unlock : ∀ u : Fin 3, viewSlot u = k → t.parental.unlocks[u] = none
  cancelled : ∀ n, s.runner k = some n → (t.entry n).state = .cancelled
  told : t.laneTold k

/-- A slot's lane, if it has one, keeps a user when the slot leaves. -/
def State.keepsUser (s : State) (k : Fin 5) : Prop := ∀ m, (s.slot k).lane = some m → 1 < s.userCount m

/-- A slot is the only user of its lane, which seeks or is LOCKED: the lane is released when the slot leaves (R52). -/
structure State.sole (s : State) (k : Fin 5) (m : Fin 3) : Prop where
  lane : (s.slot k).lane = some m
  count : s.userCount m = 1
  used : (s.lane m).state = .seeking ∨ (s.lane m).state = .locked

/-- Those that wait, without a slot that leaves the queue. -/
def State.waitersBut (s : State) (k : Fin 5) : List Waiter := s.arb.queue.filter fun w => w.claimant != .slot k

/-- A slot joins a lane on its service's carrier: TUNING while the lane seeks; on a LOCKED lane ACQUIRING with its key
timer, or by its permit on a CLEAR service. No lane is disturbed (R13 to R16, R49 step 1). -/
structure State.joins (s t : State) (k : Fin 5) (v : Service) (l : Fin 3) : Prop where
  lane : (t.slot k).lane = some l
  lanes : t.lanes = s.lanes
  queue : t.arb.queue = s.waitersBut k
  seeking : (s.lane l).state = .seeking → (t.slot k).state = .tuning ∧ (t.slot k).reason = .none
  scrambled : (s.lane l).state = .locked → v.scrambled = true → (t.slot k).state = .acquiring
    ∧ (t.slot k).reason = .none ∧ (t.slot k).keyTimer = some (s.clock.uptimeMs + 3000)
  clear : (s.lane l).state = .locked → v.scrambled = false → t.byPermit k

/-- A slot is granted a lane that seeks its service's carrier (R13, R49). -/
structure State.granted (s t : State) (k : Fin 5) (v : Service) (l : Fin 3) : Prop where
  view : (t.slot k).view = (.tuning, .none, some l, 0)
  lane : s.seeks t l v.carrier

/-- What the preemption of a lane does to its users and to those who wait for the new carrier: every slot on it is
displaced, the sweep is PAUSED(PREEMPTED) and noted waiting, its counter rises by 1, and each waiter for the carrier
joins (R22, R49, R50, R119). -/
structure State.preempts (s t : State) (l : Fin 3) (c : Nat) : Prop where
  slots : ∀ j d, (s.slot j).lane = some l → (s.slot j).carrier = some d → d ≠ c → s.unqueued j → s.displaced t j d
  sweep : s.sweep.lane = some l → t.sweep.state = .paused ∧ t.sweep.pause = some .preempted ∧ t.sweep.lane = none
    ∧ t.arb.sweepWaiting = true
  count : (t.lane l).preemptions = (s.lane l).preemptions + 1

/-- Some waiters for a carrier join a lane that seeks it, and wait no more (R52). -/
structure State.joinedBy (t : State) (ws : List Waiter) (c : Nat) (l : Fin 3) : Prop where
  slots : ∀ w ∈ ws, ∀ j, w.claimant = .slot j → w.carrier = c →
    (t.slot j).state = .tuning ∧ (t.slot j).lane = some l ∧ t.laneTold j
  queue : ∀ w ∈ t.arb.queue, w.carrier ≠ c

/-- The home hold is at rest, and stays so: out of STANDBY, or with no home carrier (R54). -/
structure State.homeRests (s : State) : Prop where
  home : s.arb.home = .inactive
  stays : s.mode = .standby → s.homeCarrier = none

/-- No lane but one can take the slots on it, or any waiter: none is IDLE, none serves a carrier that one of them
claims, and each that is enabled has a priority as high as theirs (R49). -/
structure State.stranded (s : State) (l : Fin 3) : Prop where
  busy : ∀ m, m ≠ l → (s.lane m).state ≠ .idle
  apart : ∀ m c, m ≠ l → (s.lane m).serves c = true →
    (∀ k, (s.slot k).lane = some l → (s.slot k).carrier ≠ some c) ∧ ∀ w ∈ s.arb.queue, w.carrier ≠ c
  strong : ∀ m r k, m ≠ l → (s.lane m).state ≠ .off → s.lanePriority m = some r → (s.slot k).lane = some l →
    slotPriority k ≤ r

/-- The sweep displaced from a lane pauses, without its timer, and is noted waiting (R53, R119). -/
structure State.sweepHalts (t : State) : Prop where
  state : t.sweep.state = .paused ∧ t.sweep.pause = some .preempted
  lane : t.sweep.lane = none ∧ t.sweep.timer = none
  noted : t.arb.sweepWaiting = true

/-- The slots of a lane, all on one carrier, none in the queue, and no other lane on the carrier (R48). -/
structure State.slotsAt (s : State) (l : Fin 3) (c : Nat) : Prop where
  used : ∃ k, (s.slot k).lane = some l
  carrier : ∀ k, (s.slot k).lane = some l → (s.slot k).carrier = some c
  queue : s.arb.queue = []
  apart : ∀ m, m ≠ l → (s.lane m).serves c = false

/-- The slots of a lane that is gone have another, which seeks their carrier: TUNING, with reason PREEMPTED and their
retune count kept (R13, R22, R36). -/
structure State.resettled (s t : State) (l m : Fin 3) (c : Nat) : Prop where
  slots : ∀ k, (s.slot k).lane = some l → ∃ r, s.countFound k r
    ∧ (t.slot k).view = (.tuning, .preempted, some m, r) ∧ t.laneTold k
  lane : s.seeks t m c
  queue : ∀ w ∈ t.arb.queue, w.carrier ≠ c

/-- The queue once its head has a lane, and with it every waiter for the head's carrier (R51, R52). -/
def restOf (w : Waiter) (rest : List Waiter) : List Waiter :=
  rest.filter fun x => !(w :: rest).any fun y => y.carrier == w.carrier && y.claimant == x.claimant

/-- A slot's place in the filter table is that of its service: no entry but one of its lane and of a tag of the service
names it, and none while it holds no entries; in ACQUIRING, PRESENTING and HELD each tag of the service has its entry
on its lane (R3, R13, R14, R57). -/
structure State.filtered (t : State) (k : Fin 5) (v : Service) : Prop where
  only : ∀ f ∈ t.router.filters, ∀ ks, f.dest = .slots ks → k ∈ ks → (t.slot k).lane = some f.lane
    ∧ (t.slot k).state ∈ [SlotState.acquiring, .presenting, .held] ∧ ∃ c ∈ v.comps, c.tag = f.tag
  each : ∀ l, (t.slot k).lane = some l → (t.slot k).state ∈ [SlotState.acquiring, .presenting, .held] →
    ∀ c ∈ v.comps, ∃ f ∈ t.router.filters, f.lane = l ∧ f.tag = c.tag ∧ ∃ ks, f.dest = .slots ks ∧ k ∈ ks

/-- A slot that an edit of its service has restarted on it: its record begins anew but for its origin, profile,
counters and unlock record, its keys are gone, and its filter entries are those of the new list. It waits in
WAIT_LANE(SERVICE_CHANGED) for the new carrier, or has a lane on it: TUNING while the lane seeks, and on a LOCKED lane
ACQUIRING with its key timer, or by its permit on a CLEAR service (R3, R13 to R16). -/
structure State.restarted (s t : State) (k : Fin 5) (v : Service) : Prop where
  begun : (t.slot k).service = some v.sid ∧ (t.slot k).carrier = some v.carrier
    ∧ (t.slot k).opStart = s.clock.uptimeMs / 1000 ∧ (t.slot k).retune = 0 ∧ (t.slot k).desc = {}
  kept : (t.slot k).origin = (s.slot k).origin ∧ (t.slot k).profile = (s.slot k).profile
    ∧ (t.slot k).cellsOut = (s.slot k).cellsOut ∧ (t.slot k).unkeyed = (s.slot k).unkeyed
    ∧ (t.slot k).gaps = (s.slot k).gaps ∧ t.parental.unlocks = s.parental.unlocks
  filters : t.filtered k v
  timer : (t.slot k).state ≠ .acquiring → (t.slot k).keyTimer = none
  waits : (t.slot k).lane = none → (t.slot k).view = (.waitLane, .serviceChanged, none, 0)
    ∧ { claimant := .slot k, carrier := v.carrier } ∈ t.arb.queue
  served : ∀ l, (t.slot k).lane = some l → t.unqueued k ∧ (t.lane l).carrier = some v.carrier
    ∧ (((t.lane l).state = .seeking ∧ (t.slot k).view = (.tuning, .serviceChanged, some l, 0))
      ∨ ((t.lane l).state = .locked ∧ v.scrambled = true
        ∧ (t.slot k).view = (.acquiring, .serviceChanged, some l, 0)
        ∧ (t.slot k).keyTimer = some (s.clock.uptimeMs + 3000))
      ∨ ((t.lane l).state = .locked ∧ v.scrambled = false ∧ t.byPermit k))
  told : t.laneTold k

/-- The entry of the filter table at a key names a slot (R56). -/
def State.filterNames (s : State) (k : Fin 5) (key : Nat) : Prop :=
  ∃ f ks, keyFind Filter.key key s.router.filters = some f ∧ f.dest = .slots ks ∧ k ∈ ks

/-- The filter table after the edit of a component list: the slots of the service have the entries of the new list, no
other slot's entries change, an entry of a kept tag or of another slot keeps its sequence count, and a new one has none
(R3, R57, R59). -/
structure State.relisted (s t : State) (v : Service) : Prop where
  slots : ∀ old, ∀ k ∈ s.slotsOf v.sid, s.filtered k old → t.filtered k v
  others : ∀ k, k ∉ s.slotsOf v.sid → ∀ key, t.filterNames k key ↔ s.filterNames k key
  kept : ∀ f ∈ s.router.filters, ∀ ks, f.dest = .slots ks →
    ((∃ c ∈ v.comps, c.tag = f.tag) ∨ ∃ k ∈ ks, k ∉ s.slotsOf v.sid) →
    ∃ g, keyFind Filter.key f.key t.router.filters = some g ∧ g.last = f.last
  fresh : ∀ g ∈ t.router.filters, keyFind Filter.key g.key s.router.filters = none → g.last = none
  cells : t.router.cells = s.router.cells

/-- A slot sent to FREE with its service gone: the leaving actions of R24, and the entry it ran for told of an
interruption, its retry 30 s on (R4, R164). -/
structure State.serviceGone (s t : State) (k : Fin 5) : Prop where
  view : (t.slot k).view = (.free, .serviceGone, none, 0)
  record : (t.slot k).service = none ∧ (t.slot k).carrier = none ∧ (t.slot k).origin = .user
    ∧ (t.slot k).cur = none
  kept : (t.slot k).profile = (s.slot k).profile ∧ (t.slot k).cellsOut = (s.slot k).cellsOut
    ∧ (t.slot k).unkeyed = (s.slot k).unkeyed ∧ (t.slot k).gaps = (s.slot k).gaps
  cleared : t.cleared k
  unqueued : t.unqueued k
  unlock : ∀ u : Fin 3, viewSlot u = k → t.parental.unlocks[u] = none
  told : ∀ n, s.runner k = some n → (t.entry n).state = .running
    ∧ (t.entry n).interruptions = min 255 ((s.entry n).interruptions + 1)
    ∧ (t.entry n).retry = some (s.clock.uptimeMs + 30000)
  sources : t.laneTold k

/-! ### The reads (chapters 1 to 10) -/

/-- A reply that reports fields if its operand is in range. -/
def fieldsOf {α : Type} (f : α → List Byte) : Option α → List Byte
  | some a => reply .ok (f a)
  | none => reply .badField

/-- The reply of SERVICE_READ (R5). -/
def State.serviceReply (s : State) (sel : Byte) (num : Half) : List Byte :=
  if (sel = 0 ∧ 1 ≤ num.toNat ∧ num.toNat ≤ 9999) ∨ (sel = 1 ∧ 1 ≤ num.toNat) then
    match s.findService sel num with
    | some v => reply .ok v.bytes
    | none => reply .noSuch
  else reply .badField

/-- The reply of CARRIER_READ (R34). -/
def State.carrierReply (s : State) (index : Byte) : List Byte :=
  if 63 < index.toNat then reply .badField
  else match s.carrier? index.toNat with
    | some c => reply .ok c.bytes
    | none => reply .noSuch

/-- The reply of SCHEDULE_READ (R169). -/
def State.scheduleReply (s : State) (entry : Byte) : List Byte :=
  if entry = 255 then reply .ok (allEntries.flatMap fun n => entryShortBytes (s.entry n))
  else fieldsOf (fun n => entryBytes s.clock.uptimeMs n (s.entry n)) (toFin? 24 entry.toNat)

/-- The reply of PURCHASES_READ: 1 to 32 records from a sequence number on, ascending (R98). -/
def State.purchasesReply (s : State) (fromSeq : Word) (count : Byte) : List Byte :=
  let n := max 1 (min 32 count.toNat)
  let rs := (sortBy (·.seq) (s.access.purchases.filter fun r => fromSeq.toNat ≤ r.seq)).take n
  reply .ok (u8 n ++ u8 rs.length ++ rs.flatMap Purchase.bytes)

/-- The requests that read and change nothing: each one's kind and tag, and the reply the state gives. -/
def State.reads (s : State) : Instr → Option (Byte × Byte × List Byte)
  | .clockRead t => some (0x05, t, reply .ok s.clock.bytes)
  | .faultRead t => some (0x06, t, reply .ok s.faults.bytes)
  | .profileRead t p => some (0x09, t,
      fieldsOf (fun n => (s.profile n).bytes ++ setByte (s.viewersOf n)) (toFin? 8 p.toNat))
  | .householdRead t => some (0x0F, t, reply .ok (u8 s.parental.household.dayStart
      ++ s.parental.household.defaults.toList.flatMap (fun p => u8 p.val)
      ++ opt 4 i32 s.parental.household.day ++ viewSlots.flatMap (householdSlotBytes s)))
  | .serviceRead t sel num => some (0x12, t, s.serviceReply sel num)
  | .slotStatus t k => some (0x16, t, fieldsOf (fun n => slotStatusBytes n s) (toFin? 5 k.toNat))
  | .scheduleRead t n => some (0x1A, t, s.scheduleReply n)
  | .carrierRead t i => some (0x22, t, s.carrierReply i)
  | .qualityClassRead t c => some (0x24, t,
      fieldsOf (fun n => classBytes n s.classes[n]) (toFin? 4 c.toNat))
  | .laneStatus t l => some (0x26, t, fieldsOf (fun n => laneStatusBytes n s) (toFin? 3 l.toNat))
  | .arbiterRead t => some (0x27, t, reply .ok (arbiterBytes s))
  | .guideStatus t => some (0x2C, t, reply .ok (guideStatusBytes s))
  | .filterRead t l => some (0x30, t, fieldsOf (fun n => filterBytes n s) (toFin? 3 l.toNat))
  | .keyStatus t k => some (0x31, t, fieldsOf (fun n => keyStatusBytes n s) (toFin? 5 k.toNat))
  | .cellRead t c => some (0x36, t, fieldsOf (fun n => cellReadBytes n s) (toFin? 8 c.toNat))
  | .purchasesRead t f n => some (0x3A, t, s.purchasesReply f n)
  | .accessStatus t => some (0x3B, t, reply .ok (accessStatusBytes s))
  | .tierRead t => some (0x3C, t, reply .ok (allTiers.flatMap (tierBytes s)))
  | .grantRead t => some (0x3D, t, reply .ok (u8 s.access.grants.length
      ++ s.access.grants.flatMap fun g => u32 g.eid ++ u16 g.sid ++ u32 g.endTime))
  | _ => none

/-! ### What the rules keep in form -/

/-- A gate cell as R146, R150 and R156 have it: a disabled cell's output is 0, a link names a higher cell,
and a permit cell is bound to its own slot without an edge mode. -/
def GateCell.ok (n : Fin 8) (c : GateCell) : Prop :=
  (c.enabled = false → c.output = false) ∧ (∀ l, c.link = some l → n < l)
    ∧ (n.val < 5 → c.bound.val = n.val ∧ c.edge = .none)

/-- Every cell is as the rules have it. -/
def Gate.ok (g : Gate) : Prop := ∀ n : Fin 8, (g.cells[n]).ok n

/-- The wait queue stands in order of priority (R51). -/
def Arbiter.ok (a : Arbiter) : Prop :=
  a.queue.Pairwise fun v w => w.claimant.priority ≤ v.claimant.priority

/-- Two guide entries that may both be in the store: not one event of one service, and not two events of a
service that overlap (R102). -/
def GuideEvent.apart (a b : GuideEvent) : Prop :=
  a.sid = b.sid → a.eid ≠ b.eid ∧ a.overlaps b = false

/-- The guide store as R102, R106 and R113 have it: 2,048 places, each with one entry at most, the entries
apart; and the pending rewrite is of an occupied place, with its contents. -/
def Guide.ok (g : Guide) : Prop :=
  KeySorted (·.num) g.places ∧ (∀ p ∈ g.places, p.num < 2048)
    ∧ g.places.Pairwise (fun p q => p.ev.apart q.ev)
    ∧ ∀ r ∈ g.scrub, ∃ p ∈ g.places, p.num = r.place ∧ p.ev = r.contents

/-- Each held refused record is one of the phase that it is held for (R68). -/
def Descrambler.placed (d : Descrambler) : Prop := ∀ p h, d.held p = some h → h.record.phase = p

/-- The form that the rules keep: the gate cells (R146, R156), the wait queue (R51), the filter table with one entry
for a lane and tag and no slot twice in a slot set (R56), 8 replies (R185) and 32 notices (R188) at most, 16 queued
writes at most (R178), the guide store (R102, R106, R113), each held refused record under its own phase (R68), and no
rise left between two blocks (R154). -/
structure State.sound (s : State) : Prop where
  gate : s.gate.ok
  queue : s.arb.ok
  filters : KeySorted Filter.key s.router.filters
  slotSets : ∀ f ∈ s.router.filters, ∀ ks, f.dest = .slots ks → ks.Nodup
  replies : s.link.replies.length ≤ 8
  notices : s.link.notices.length ≤ 32
  writes : s.store.queue.length ≤ 16
  guide : s.guide.ok
  held : ∀ k, (s.slot k).desc.placed
  rises : s.auxRises = []

/-! ### What the rules keep in range -/

/-- A service entry in the ranges of R1. -/
structure Service.ok (v : Service) : Prop where
  sid : 1 ≤ v.sid ∧ v.sid ≤ 65535
  channel : 1 ≤ v.channel ∧ v.channel ≤ 9999
  carrier : v.carrier ≤ 63
  rating : v.rating ≤ 6
  count : 1 ≤ v.comps.length ∧ v.comps.length ≤ 6
  tags : ∀ c ∈ v.comps, 16 ≤ c.tag ∧ c.tag ≤ 1023
  nodup : (v.comps.map (·.tag)).Nodup

/-- A carrier entry in the ranges of R31. -/
structure Carrier.ok (c : Carrier) : Prop where
  index : c.index ≤ 63
  freq : 48000 ≤ c.freq ∧ c.freq ≤ 1002000

/-- A quality class in the ranges of R39. -/
structure QClass.ok (c : QClass) : Prop where
  n : c.n = 1 ∨ c.n = 2 ∨ c.n = 4 ∨ c.n = 8 ∨ c.n = 16 ∨ c.n = 32
  thresholds : c.tl ≤ c.th ∧ c.th ≤ 4095
  h : c.h ≤ 255
  k : 1 ≤ c.k ∧ c.k ≤ 15

/-- The clock in the ranges of R174: UTC up to its top, the local offset −720 to +840 minutes. -/
structure Clock.ok (c : Clock) : Prop where
  utc : c.utc ≤ 4294967295
  offset : -720 ≤ c.offset ∧ c.offset ≤ 840

/-- The purse as R88 has it: the balance between the negative of the limit and 8,388,607, and the terms in
their ranges. -/
structure Purse.ok (p : Purse) : Prop where
  low : -(p.limit : Int) ≤ p.balance
  high : p.balance ≤ 8388607
  limit : p.limit ≤ 65535
  grace : p.grace ≤ 60
  period : 1 ≤ p.period ∧ p.period ≤ 31

/-- A profile record in the ranges of R126. -/
structure Profile.ok (p : Profile) : Prop where
  ceiling : p.ceiling ≤ 6
  windows : p.windows.length ≤ 4
  allowance : ∀ a ∈ p.allowance, a ≤ 86400
  remaining : p.remaining ≤ 86400
  spend : p.spend ≤ 16777215
  failures : p.failures ≤ 4
  lockout : p.lockout ≤ 900

/-- The image of a write unit in its ranges (R177): what it holds of the purse and of profiles, profile 0 in
use. -/
def UnitImage.ok (u : UnitId) : UnitImage → Prop
  | .access p => p.ok
  | .purchase (some i) => i.purse.ok ∧ i.spend ≤ 16777215
  | .profile p => p.ok ∧ (u = .profile 0 → p.inUse = true)
  | _ => True

/-- The retained store in its ranges: every image stored, being written, queued or waiting. -/
structure Store.ok (st : Store) : Prop where
  access : (UnitImage.access st.units.access.image).ok .access
  purchases : ∀ n : Fin 64, (UnitImage.purchase (st.units.purchases[n]).image).ok (.purchase n)
  profiles : ∀ p : Fin 8, (UnitImage.profile (st.units.profiles[p]).image).ok (.profile p)
  writing : ∀ w ∈ st.writing, w.1.image.ok w.1.unit
  queue : ∀ h ∈ st.queue, h.image.ok h.unit
  waiting : ∀ h ∈ st.waiting, h.image.ok h.unit

/-- The parental unit in its ranges, profile 0 in use (R126). -/
structure Parental.ok (q : Parental) : Prop where
  profiles : ∀ p : Fin 8, (q.profiles[p]).ok
  master : (q.profiles[(0 : Fin 8)]).inUse = true

/-- The service map as R1 has it: up to 512 entries in order of service id, none of them sharing a channel. -/
structure ServicesOk (l : List Service) : Prop where
  sorted : KeySorted (·.sid) l
  count : l.length ≤ 512
  channels : l.Pairwise fun a b => a.channel ≠ b.channel
  entries : ∀ v ∈ l, v.ok

/-- The carrier table as R31 has it: in order of index, no two of one frequency, one home carrier at most. -/
structure CarriersOk (l : List Carrier) : Prop where
  sorted : KeySorted (·.index) l
  freqs : l.Pairwise fun a b => a.freq ≠ b.freq
  home : l.Pairwise fun a b => a.home = false ∨ b.home = false
  entries : ∀ c ∈ l, c.ok

/-- The ranges that the rules keep: the service map (R1), the carrier table (R31), the quality classes (R39),
the clock (R174), the purse (R88), the profiles (R126), and the images of the retained store (R177). -/
structure State.ranged (s : State) : Prop where
  services : ServicesOk s.services
  carriers : CarriersOk s.carriers
  classes : ∀ n : Fin 4, (s.classes[n]).ok
  clock : s.clock.ok
  purse : s.access.purse.ok
  parental : s.parental.ok
  store : s.store.ok

/-! ### Key records (R65, R84) -/

/-- A slot qualifies for a KEY record from a lane (R65). -/
structure State.takesKeys (s : State) (l : Fin 3) (sid : Nat) (k : Fin 5) : Prop where
  state : (s.slot k).state ∈ [SlotState.acquiring, .presenting, .held]
  lane : (s.slot k).lane = some l
  service : (s.slot k).service = some sid
  scrambled : s.isScrambled k = true

/-- A requirement is met for a slot on a basis (R84). -/
inductive State.meets (s : State) (k : Fin 5) : Requirement → Basis → Prop
  | free : s.meets k .free .free
  | tier (t : Fin 32) (held : (s.access.tiers[t]).held = true)
      (runs : ∀ e now, (s.access.tiers[t]).expiry = some e → s.now? = some now → now < e) :
      s.meets k (.tier t) (.tier t)
  | grant (g : Grant) (held : g ∈ s.access.grants) : s.meets k (.event g.eid) (.grant g.eid)
  | preview (e : CurEvent) (now : Nat) (none : ∀ g ∈ s.access.grants, g.eid ≠ e.eid)
      (cur : (s.slot k).cur = some e) (known : s.now? = some now) (early : now < e.start + 60 * e.preview) :
      s.meets k (.event e.eid) (.preview e.eid)

/-- No basis meets a requirement for a slot (R84). -/
def State.unmet (s : State) (k : Fin 5) (req : Requirement) : Prop := ∀ b, ¬ s.meets k req b

/-- A record's period is newer than that of a slot's key of its phase, or there is no such key (R67). -/
def Descrambler.outdated (d : Descrambler) (r : KeyRecord) : Prop :=
  ∀ old, d.key r.phase = some old →
    let gap := (r.period.toNat + 65536 - old.period.toNat) % 65536
    1 ≤ gap ∧ gap ≤ 32767

/-- The descrambler with a record's word stored, and the held refused record of its phase gone (R67). -/
def Descrambler.stores (d : Descrambler) (r : KeyRecord) (b : Basis) (w : KeyWord) : Descrambler :=
  (d.setKey r.phase (some { period := r.period, req := r.req, basis := b, word := w })).setHeld r.phase none

/-! ### Component cells (R19, R59, R70, R71) -/

/-- What a slot's descrambler passes on of a component cell: a CLEAR cell as it is; one of PHASE_A or PHASE_B
descrambled with the key of its phase, on a service that is not CLEAR; nothing otherwise (R70). -/
def State.passes (s : State) (k : Fin 5) (c : CellView) : Option (List Byte) :=
  match c.phase with
  | .clear => some c.payload
  | .reserved => none
  | .a => if s.isClear k then none else (s.slot k).desc.keyA.map fun x => Config.descramble x.word c.payload
  | .b => if s.isClear k then none else (s.slot k).desc.keyB.map fun x => Config.descramble x.word c.payload

/-- A scrambled cell finds no key of its phase (R70). -/
def State.unkeyed (s : State) (k : Fin 5) (c : CellView) : Bool :=
  c.phase != .clear && !s.isClear k && (s.passes k c).isNone

/-- An unkeyed cell starves a PRESENTING slot: 2,000 ms or more have passed since its last decoded cell and since it
entered PRESENTING (R19). -/
def State.starves (s : State) (k : Fin 5) (c : CellView) : Bool :=
  s.unkeyed k c && (s.slot k).state == .presenting
    && (s.slot k).desc.lastDecoded.getD 0 + 2000 ≤ s.clock.uptimeMs
    && (s.slot k).since.getD 0 + 2000 ≤ s.clock.uptimeMs

/-- A slot's record after a component cell (R19, R59, R70, R71). -/
def State.slotAfter (s : State) (k : Fin 5) (c : CellView) (gap : Bool) : Slot :=
  let x := s.slot k
  { x with
    gaps := if gap then x.gaps + 1 else x.gaps
    unkeyed := if s.unkeyed k c then x.unkeyed + 1 else x.unkeyed
    cellsOut := if x.state = .presenting ∧ (s.passes k c).isSome then x.cellsOut + 1 else x.cellsOut
    desc := if c.phase ≠ .clear ∧ (s.passes k c).isSome then
        { x.desc with lastDecoded := some s.clock.uptimeMs } else x.desc
    state := if s.starves k c then .held else x.state
    reason := if s.starves k c then .keyLost else x.reason }

/-- What leaves the part for a slot that takes a component cell (R71). -/
def State.cellOutOf (s : State) (k : Fin 5) (c : CellView) : List PortOut :=
  if (s.slot k).state = .presenting then
    ((s.passes k c).map fun p => PortOut.cellOut k (outCellBytes c.tag c.seq p)).toList
  else []

/-! ### The guide (R105, R106) -/

/-- No slot stands on a service, and no ARMED or RUNNING entry of the schedule is tied to one of some events of it. -/
def State.unwatched (s : State) (sid : Nat) (eids : List Nat) : Prop :=
  s.slotsOf sid = [] ∧ ∀ i, ∀ x ∈ eids, (s.entry i).tiedTo sid x = false

/-- What a placement removes: the version of the event held, and the service's entries that overlap it (R105, R106). -/
def GuideEvent.ousts (e : GuideEvent) (p : Place) : Bool :=
  p.ev.sid == e.sid && (p.ev.eid == e.eid || p.ev.overlaps e)

/-- The event of a service on air, as a current event; none while the clock is not known (R26, R27). -/
def Guide.currentAt (places : List Place) (sid : Nat) (now : Option Nat) : Option CurEvent :=
  now.bind fun n => (places.find? fun p => p.ev.sid == sid && p.ev.start ≤ n && n < p.ev.stop).map (·.ev.current)

/-- An ARMED or RUNNING entry as a placement of the event it is tied to leaves it, before it acts: the last known start
and end are the event's, the orphan flag is 0, the trigger time is the start less the lead, and a recording's end time
is the end plus the trail (R165). -/
def Entry.follows (x : Entry) (e : GuideEvent) : Entry :=
  { x with
    lastStart := some e.start, lastEnd := some e.stop, orphan := false
    triggerTime := some ((e.start : Int) - (match x.trigger with
      | .atEvent _ _ lead => (lead : Int)
      | _ => 0))
    endTime := match x.action with
      | .record _ _ trail => some (e.stop + trail)
      | _ => none }

/-- What the reports of a placement do before any entry of the schedule acts (R26, R107, R165): each entry tied to the
event follows it, and one tied to an event that goes becomes an orphan; each slot on a service concerned has the event
of the new store on air for its current event, and no other slot has another; and where that changes, RATING_OK is
found afresh. No lane and no waiter changes, and what movement does not touch is as it was. -/
structure State.placedInto (s t : State) (e : GuideEvent) (gone : List GuideEvent) (g : Guide) : Prop where
  guide : t.guide = g
  quiet : t.auxRises = []
  entries : ∀ i, t.entry i = if (s.entry i).tiedTo e.sid e.eid then (s.entry i).follows e
    else { s.entry i with orphan := (s.entry i).orphan || gone.any fun x => (s.entry i).tiedTo x.sid x.eid }
  current : ∀ x ∈ e :: gone, ∀ k ∈ s.slotsOf x.sid, (t.slot k).cur = Guide.currentAt g.places x.sid s.now?
  others : ∀ k, (∀ x ∈ e :: gone, k ∉ s.slotsOf x.sid) → (t.slot k).cur = (s.slot k).cur
  rating : ∀ u : Fin 3, (t.slot (viewSlot u)).cur ≠ (s.slot (viewSlot u)).cur →
    (t.gate.src[viewSlot u]).ratingOk
      = decide (t.ratingInForce (viewSlot u) ≤ (s.profileOf (viewSlot u)).ceiling)
  lanes : t.lanes = s.lanes ∧ t.arb = s.arb ∧ t.sweep = s.sweep ∧ ∀ k, (t.slot k).lane = (s.slot k).lane
  cores : ({ t with schedule := s.schedule }).cores = s.cores

/-- The rows that the placement of an event brings on: each entry tied to it, ascending, is evaluated if it is ARMED,
and if it is RUNNING its end is compared (R165; the order among them is the model's, log 31). -/
def State.followers (s : State) (e : GuideEvent) : List Instr :=
  (allEntries.filter fun i => (s.entry i).tiedTo e.sid e.eid).map fun i =>
    if (s.entry i).state = .armed then .scheduleTrigger i else .runEnd i

/-- Every place of a service reads clean. -/
def State.intact (s : State) (sid : Nat) : Prop := ∀ p ∈ s.guide.places, p.ev.sid = sid → p.disturbed = 0

/-! ### The reads of a query (R112 to R115, R122, R123) -/

/-- The pending rewrite serves a place, whatever its bits (R113). -/
def Guide.serves (g : Guide) (p : Place) : Bool := g.scrub.any fun r => r.place == p.num

/-- A read of a place gives contents that can be used: it is CLEAN or CORRECTED (R112). -/
def Guide.usable (g : Guide) (p : Place) : Bool := g.serves p || p.disturbed ≤ 1

/-- A read of a place is CORRECTED (R112). -/
def Guide.amends (g : Guide) (p : Place) : Bool := !g.serves p && p.disturbed == 1

/-- The places read in turn until a number of entries can be returned: up to the last of them (R122). -/
def Guide.readsFor (g : Guide) : Nat → List Place → List Place
  | _, [] => []
  | 0, _ => []
  | n + 1, p :: rest => p :: g.readsFor (if g.usable p then n else n + 1) rest

/-- Of some places, those that a read finds past correction (R115). -/
def Guide.lostOf (g : Guide) (ps : List Place) : List Place := ps.filter fun p => !g.usable p

/-- What the reads of some places of a service do, where no slot follows a removal: each CORRECTED read is counted, the
first posts a rewrite if none was pending, and every other records a second error; each place past correction is
emptied and counted, its event the last damaged one, the entries tied to it are orphans, and it is recorded as lost and
noticed (R113 to R115, R165). -/
structure State.readsThrough (s t : State) (ps : List Place) : Prop where
  places : t.guide = { s.guide with
    places := s.guide.places.filter fun p => !(s.guide.lostOf ps).any fun x => x.num == p.num
    scrub := s.guide.scrub.or ((ps.filter s.guide.amends).head?.map fun p =>
      { place := p.num, contents := p.ev, due := s.clock.uptimeMs + 1 })
    counters := { s.guide.counters with
      damaged := s.guide.counters.damaged + BitVec.ofNat 32 (s.guide.lostOf ps).length }
    lastDamaged := ((s.guide.lostOf ps).getLast?.map fun p => (p.ev.sid, p.ev.eid)).or s.guide.lastDamaged }
  orphans : ∀ i, t.entry i = { s.entry i with
    orphan := (s.entry i).orphan || (s.guide.lostOf ps).any fun p => (s.entry i).tiedTo p.ev.sid p.ev.eid }
  faults : t.faults = { s.faults with
    guideCorrected := if ps.any s.guide.amends then
        some (s.faults.guideCorrected.getD 0 + BitVec.ofNat 32 (ps.filter s.guide.amends).length)
      else s.faults.guideCorrected
    guideSecond := ((if s.guide.scrub.isSome then ps.filter s.guide.amends
        else (ps.filter s.guide.amends).tail).getLast?.map (·.num)).or s.faults.guideSecond
    guideLost := ((s.guide.lostOf ps).getLast?.map fun p =>
        (p.num, (s.faults.guideLost.map (·.2)).getD 0 + BitVec.ofNat 32 (s.guide.lostOf ps).length)).or
      s.faults.guideLost }
  rest : ({ t with guide := s.guide, schedule := s.schedule }).noted = s.noted
  damage : s.guide.lostOf ps ≠ [] → t.link.flags[3] = true ∧ t.link.flags[9] = true
  counted : ps.any s.guide.amends = true → t.link.flags[9] = true

/-- What a query of a service does beside its reply, which reads some places: nothing if each is clean; what its reads
do, if none is past correction or no slot is on the service; and in every case a place past correction that it read is
empty after, every place that can be read stays, and the slots on the service have their current events found afresh
where a place went (R26, R107, R112 to R115). -/
structure State.queried (s t : State) (sid : Nat) (ps : List Place) : Prop where
  clean : (∀ p ∈ ps, s.guide.serves p = true ∨ p.disturbed = 0) → s.unmoved t
  effects : (∀ p ∈ ps, s.guide.usable p = true) ∨ s.slotsOf sid = [] → s.readsThrough t ps
  tables : t.tables = s.tables
  places : t.guide.places.Sublist s.guide.places
  gone : ∀ p ∈ s.guide.lostOf ps, p ∉ t.guide.places
  stay : ∀ p ∈ s.guide.places, s.guide.usable p = true → p ∈ t.guide.places
  current : s.noRise → s.guide.lostOf ps ≠ [] → ∀ k ∈ s.slotsOf sid,
    (t.slot k).cur = Guide.currentAt (s.guide.places.filter s.guide.usable) sid s.now?

/-- The latest-starting entry, in the highest-numbered place among equals (R106). -/
structure Guide.last (g : Guide) (x : Place) : Prop where
  held : x ∈ g.places
  latest : ∀ p ∈ g.places, p.ev.start < x.ev.start ∨ (p.ev.start = x.ev.start ∧ p.num ≤ x.num)

/-- The record kinds of a control entry's consumer: KEY; ENTITLEMENT; GUIDE_EVENT and GUIDE_CANCEL; TIME (R61, 10
section 10.7). -/
def Consumer.kinds : Consumer → List Nat
  | .key => [1]
  | .entitlement => [2]
  | .guide => [3, 4]
  | .time => [5]

/-- A record of a kind comes to its consumer: a CLEAR cell of a LOCKED lane, on a control entry that takes records of
the kind, its record's check good (R56, R61). -/
structure State.brings (s : State) (l : Fin 3) (bytes : List Byte) (kind : Nat) (record : List Byte) : Prop where
  locked : (s.lane l).state = .locked
  clear : (viewCellBytes bytes).phase = .clear
  entry : ∃ f x, keyFind Filter.key (l.val * 1024 + (viewCellBytes bytes).tag) s.router.filters = some f
    ∧ f.dest = .consumer x ∧ x.takes kind = true
  record : recordOf (viewCellBytes bytes).payload = some { kind, bytes := record }

/-- A record that fails a check is discarded: it is counted under STREAM_RECORD_BAD, whose notice is raised, and does
nothing else (R61). -/
structure State.discards (s t : State) : Prop extends s.unanswered t where
  noted : t.noted = s.noted
  faults : t.faults = { s.faults with streamBad := some (s.faults.streamBad.getD 0 + 1) }
  flag : t.link.flags[9] = true

/-- The clock as a TIME record leaves it: its offset taken, and its time if the clock was not known or is more than 2 s
away (R175). -/
def Clock.streamed (c : Clock) (time : Nat) (offset : Int) : Clock :=
  { c with
    utc := if c.known = true ∧ time ≤ c.utc + 2 ∧ c.utc ≤ time + 2 then c.utc else time
    known := true, source := .stream, offset := offset }

/-- A command that has no reply does to the blocks what a request does. -/
def State.likewise (t u : State) : Prop :=
  { t with link := t.link.rest, out := [] } = { u with link := u.link.rest, out := [] }

/-! ### A purchase that every check passes (R93) -/

/-- Of checks made in order, the first that fails, with its status. -/
def firstFails (checks : List (Prop × Status)) (st : Status) : Prop :=
  ∃ before check after, checks = before ++ (check, st) :: after ∧ check ∧ ∀ c ∈ before, ¬ c.1

/-- Checks 2 to 6 of R93 on a profile: how each fails, and the status. -/
def State.buyerChecks (s : State) (p : Fin 8) : List (Prop × Status) :=
  [(s.mode ≠ .service, .notInMode), (s.now? = none, .noTime), (s.access.deviceKey = .unusable, .accessOff),
   ((s.profile p).inUse = false, .noSuch), (0 < (s.profile p).lockout, .locked)]

/-- Checks 9 to 13 of R93 on an event at a time: how each fails, and the status. -/
def State.eventChecks (s : State) (e : GuideEvent) (now : Nat) : List (Prop × Status) :=
  [(e.purchasable = false ∨ e.price = none, .notPurchasable),
   (¬ ((e.start : Int) - 86400 ≤ now ∧ now < e.start + 60 * e.duration), .notOnAir),
   (∃ g ∈ s.access.grants, g.eid = e.eid, .alreadyHeld), (32 ≤ s.access.grants.length, .full),
   (64 ≤ s.access.purchases.length ∨ (∃ r ∈ s.access.purchases, r.seq % 64 = s.access.purse.nextSeq % 64)
      ∨ s.access.purse.nextSeq = 4294967295, .listFull)]

/-- Checks 14 and 15 of R93 for a charge, the tests of R92: how each fails, and the status. -/
def State.chargeChecks (s : State) (p : Fin 8) (c : Nat) : List (Prop × Status) :=
  [(∃ cap ∈ (s.profile p).cap, cap < (s.profile p).spend + c, .capExceeded),
   (s.access.purse.balance - (c : Int) < -(s.access.purse.limit : Int), .creditShort)]

/-- An event stands readable in the guide store, whose form is as the rules have it. -/
def State.listed (s : State) (e : GuideEvent) : Prop :=
  s.guide.ok ∧ ∃ p ∈ s.guide.places, p.ev = e ∧ p.disturbed = 0

/-- What checks 2 to 6 and 8 to 13 of R93 ask of a purchase of an event for a profile at a time. -/
structure State.sells (s : State) (p : Fin 8) (e : GuideEvent) (now : Nat) : Prop where
  mode : s.mode = .service
  known : s.now? = some now
  key : s.access.deviceKey ≠ .unusable
  inUse : (s.profile p).inUse = true
  free : (s.profile p).lockout = 0
  listed : s.listed e
  purchasable : e.purchasable = true
  onAir : (e.start : Int) - 86400 ≤ now ∧ now < e.stop
  fresh : ∀ g ∈ s.access.grants, g.eid ≠ e.eid
  room : s.access.grants.length < 32 ∧ s.access.purchases.length < 64
  place : ∀ r ∈ s.access.purchases, r.seq % 64 ≠ s.access.purse.nextSeq % 64
  number : s.access.purse.nextSeq ≠ 4294967295

/-- What checks 14 and 15 of R93 ask of a charge: the cap and the purse (R92). -/
def State.affords (s : State) (p : Fin 8) (c : Nat) : Prop :=
  (∀ cap ∈ (s.profile p).cap, (s.profile p).spend + c ≤ cap)
    ∧ -(s.access.purse.limit : Int) ≤ s.access.purse.balance - (c : Int)

/-- The charge of an event at a time, under the present grace and floor (R91). -/
def State.charge (s : State) (e : GuideEvent) (price now : Nat) : Nat :=
  chargeOf e.start e.duration price e.prorate s.access.purse.grace s.access.purse.floor now

/-- The lifetime debit is the collected sum and the charges of the purchase list, modulo 2^32 (R83). -/
def Access.balanced (a : Access) : Prop :=
  a.purse.debit = a.purse.collected + chargeSum a.purchases

/-- The key of a phase once a grant for an event is made: one on the event's preview rests on the grant (R86). -/
def Descrambler.rebased (d : Descrambler) (p : Phase) (eid : Nat) : Option Key :=
  (d.key p).map fun x => if x.basis = .preview eid then { x with basis := .grant eid } else x

/-- What a re-examination of the held refused records does, from a state in which the grant or the tier is in place
(R69, R86). A record that cannot be opened now goes; one still not met stays; one that is met goes too, and its word is
stored if it is newer than the key of its phase, a slot in HELD(NOT_ENTITLED) or HELD(KEY_LOST) then standing by its
permit. Every other key is what it is given as kept. -/
structure State.reexamined (u t : State) (kept : Fin 5 → Phase → Option Key) : Prop where
  unheld : ∀ k p, (u.slot k).desc.held p = none →
    (t.slot k).desc.held p = none ∧ (t.slot k).desc.key p = kept k p
  unopened : ∀ k p h, (u.slot k).desc.held p = some h → u.openWord h.record.wrapped = none →
    (t.slot k).desc.held p = none ∧ (t.slot k).desc.key p = kept k p
  unmet : ∀ k p h, (u.slot k).desc.held p = some h → (u.openWord h.record.wrapped).isSome →
    u.unmet k h.record.req → (t.slot k).desc.held p = some h ∧ (t.slot k).desc.key p = kept k p
  met : ∀ k p h w b, (u.slot k).desc.held p = some h → u.openWord h.record.wrapped = some w →
    u.meets k h.record.req b →
    (t.slot k).desc.held p = none
      ∧ (¬ (u.slot k).desc.outdated h.record → (t.slot k).desc.key p = kept k p)
      ∧ ((u.slot k).desc.outdated h.record →
        (t.slot k).desc.key p = some { period := h.record.period, req := h.record.req, basis := b, word := w }
        ∧ ((u.slot k).state = .held → (u.slot k).reason = .notEntitled ∨ (u.slot k).reason = .keyLost →
          t.byPermit k))

/-- What a re-examination reports of a slot: by the record of phase B, if it is held and opened, and else by that of
phase A, ENTITLED is 1 with PREVIEW by the basis, or 0 (R66, R69, R84, R86). -/
def State.retold (u t : State) (k : Fin 5) : Prop :=
  ∀ p h, (u.slot k).desc.held p = some h → (u.openWord h.record.wrapped).isSome →
    (p = .a → ∀ g, (u.slot k).desc.held .b = some g → u.openWord g.record.wrapped = none) →
    (u.unmet k h.record.req → (t.gate.src[k]).entitled = false)
    ∧ ∀ b, u.meets k h.record.req b → (t.gate.src[k]).entitled = true ∧ (t.gate.src[k]).preview = b.isPreview

/-- What a new grant does to the keys and the held refused records of the slots: a re-examination with the grant in
place, and a key on the event's preview rests on the grant, its slot with ENTITLED 1 and PREVIEW 0 (R69, R86; that the
records are re-examined before the keys are rebased is the model's, log 34). -/
structure State.regranted (s t : State) (eid : Nat) : Prop where
  records : ({ s with access := { s.access with grants := t.access.grants } }).reexamined t fun k p =>
    (s.slot k).desc.rebased p eid
  rebased : ∀ k p x, (s.slot k).desc.held p = none → (s.slot k).desc.key p = some x → x.basis = .preview eid →
    (t.gate.src[k]).entitled = true ∧ (t.gate.src[k]).preview = false
  told : ∀ k, (∀ p x, (s.slot k).desc.key p = some x → x.basis ≠ .preview eid) →
    ({ s with access := { s.access with grants := t.access.grants } }).retold t k

/-- The sweep stands on a carrier with a lane that seeks it, one visit on (R118). -/
structure State.visits (s t : State) (c : Nat) (l : Fin 3) : Prop where
  state : t.sweep.state = .dwell
  position : t.sweep.position = some c
  lane : t.sweep.lane = some l
  locked : t.sweep.lockedVisit = false
  count : t.sweep.visits = s.sweep.visits + 1
  seeking : (t.lane l).state = .seeking
  carrier : (t.lane l).carrier = some c

/-- The sweep's next claim would be served at once: a guide-bearing carrier that no lane serves, a lane IDLE,
none waiting, the mode SERVICE and the home hold at rest (R53, R118). -/
structure State.sweepServed (s : State) (c : Nat) (l : Fin 3) : Prop where
  mode : s.mode = .service
  home : s.arb.home = .inactive
  unserved : s.servingLane c = none
  idle : s.idleLane = some l
  queue : s.arb.queue = []
  rise : s.noRise

/-- The lanes that are IDLE once the sweep has left its own: those IDLE before, and its own if it had no slot on it
(R52, R119). -/
def State.idleOnceLeft (s : State) (m : Fin 3) : Prop :=
  (s.lane m).state = .idle
    ∨ (s.sweep.lane = some m ∧ s.slotUsers m = [] ∧ ((s.lane m).state = .seeking ∨ (s.lane m).state = .locked))

/-- The sweep, in DWELL, has a next guide-bearing carrier that no other lane serves, with none waiting, the mode
SERVICE and the home hold at rest (R53, R118, R119). -/
structure State.sweepMay (s : State) (q c : Nat) : Prop where
  dwell : s.sweep.state = .dwell
  position : s.sweep.position = some q
  next : ((s.guideCarriers.filter (q < ·)).head?.or s.guideCarriers.head?) = some c
  mode : s.mode = .service
  home : s.arb.home = .inactive
  queue : s.arb.queue = []
  unnoted : s.arb.sweepWaiting = false
  unserved : ∀ l, (s.lane l).serves c = true → s.sweep.lane = some l ∧ s.slotUsers l = []
  rise : s.noRise

/-- The sweep has moved on from a carrier: its timer is stopped, a wrap is counted, and a lane with slots stays with
them (R118, R119, R121). -/
structure State.movedOn (s t : State) (q c : Nat) : Prop where
  position : t.sweep.position = some c
  timer : t.sweep.timer = none
  rounds : t.sweep.rounds = s.sweep.rounds + (if (s.guideCarriers.filter (q < ·)) = [] then 1 else 0)
  tables : t.tables = s.tables
  stays : ∀ l, s.sweep.lane = some l → s.slotUsers l ≠ [] → (s.lane l).state ≠ .idle → t.lane l = s.lane l

/-- What CARRIER_DROP leaves without users: the lane on the carrier, if every slot on it is one that the drop faults,
and the home hold is not on it or loses its home carrier (R6, R33). -/
structure State.emptiedBy (s : State) (c : Nat) (l : Fin 3) : Prop where
  serving : s.servingLane c = some l
  slots : ∀ k, (s.slot k).lane = some l → (s.slot k).state ≠ .free ∧ (s.slot k).state ≠ .faulted
    ∧ ∃ v, s.serviceOf k = some v ∧ v.carrier = c
  home : s.arb.home = .holding l → ∀ o ∈ s.carriers, o.home = true → o.index = c

end Sys2Proof.Machine

namespace Sys2Proof

open Sys2Proof.Machine

/-! ### Bodies in range -/

/-- The body of a SERVICE_PUT that passes check 1 of R2. -/
structure ServiceReq.inRange (r : ServiceReq) : Prop where
  sid : r.sid ≠ 0
  channel : 1 ≤ r.channel.toNat ∧ r.channel.toNat ≤ 9999
  carrier : r.carrier.toNat ≤ 63
  access : r.access = 0 ∨ r.access = 1
  count : 1 ≤ r.comps.length ∧ r.comps.length ≤ 6
  comps : ∀ c ∈ r.comps, c.kind.toNat ≤ 2 ∧ 16 ≤ c.tag.toNat ∧ c.tag.toNat ≤ 1023
  nodup : (r.comps.map (·.tag)).Nodup

/-- The entry that such a body writes, its rating clamped (R2). -/
structure ServiceReq.writes (r : ServiceReq) (v : Service) : Prop where
  sid : v.sid = r.sid.toNat
  channel : v.channel = r.channel.toNat
  carrier : v.carrier = r.carrier.toNat
  scrambled : v.scrambled = true ↔ r.access = 1
  rating : v.rating = min 6 r.rating.toNat
  comps : v.comps.map (fun c => (c.kind.code, c.tag)) = r.comps.map fun c => (c.kind.toNat, c.tag.toNat)

/-- The body of a CARRIER_PUT with every field in range (R31, R32). -/
structure CarrierReq.inRange (r : CarrierReq) : Prop where
  index : r.index.toNat ≤ 63
  freq : 48000 ≤ r.freq.toNat ∧ r.freq.toNat ≤ 1002000
  cls : r.cls.toNat ≤ 3
  guide : r.guide = 0 ∨ r.guide = 1
  home : r.home = 0 ∨ r.home = 1

/-- The entry that such a body writes (R31). -/
structure CarrierReq.writes (r : CarrierReq) (c : Carrier) : Prop where
  index : c.index = r.index.toNat
  freq : c.freq = r.freq.toNat
  cls : c.cls.val = r.cls.toNat
  guide : c.guide = true ↔ r.guide = 1
  home : c.home = true ↔ r.home = 1

/-- The body of a GUIDE_PUT that passes check 1 of R110. -/
structure GuideReq.inRange (r : GuideReq) : Prop where
  sid : r.sid ≠ 0
  duration : 1 ≤ r.duration.toNat ∧ r.duration.toNat ≤ 1440
  price : r.pricePresent = 0 ∨ r.pricePresent = 1
  purchasable : r.purchasable = 0 ∨ r.purchasable = 1
  prorate : r.prorate = 0 ∨ r.prorate = 1
  stop : r.start.toNat + 60 * r.duration.toNat ≤ 4294967295

/-- The event that such a body gives, its rating and preview clamped (R110). -/
structure GuideReq.writes (r : GuideReq) (e : GuideEvent) : Prop where
  sid : e.sid = r.sid.toNat
  eid : e.eid = r.eid.toNat
  version : e.version = r.version.toNat
  start : e.start = r.start.toNat
  duration : e.duration = r.duration.toNat
  rating : e.rating = min 6 r.rating.toNat
  price : e.price = if r.pricePresent = 1 then some r.price.toNat else none
  purchasable : e.purchasable = true ↔ r.purchasable = 1
  prorate : e.prorate = true ↔ r.prorate = 1
  preview : e.preview = min 15 r.preview.toNat
  title : e.title = r.title.toNat

/-- Four decimal digits (R137, R186). -/
structure Pin.ok (p : Pin) : Prop where
  d0 : p.d0.toNat ≤ 9
  d1 : p.d1.toNat ≤ 9
  d2 : p.d2.toNat ≤ 9
  d3 : p.d3.toNat ≤ 9

/-- The body of a BUY that passes check 1 of R93. -/
structure BuyInRange (profile slot : Byte) (pin : Pin) (sid : Half) : Prop where
  who : profile.toNat ≤ 7
  digits : pin.ok
  place : slot.toNat ≤ 4 ∨ slot = 255
  service : sid ≠ 0

/-- A viewing window in range (R141). -/
structure WindowReq.inRange (w : WindowReq) : Prop where
  mask : w.mask.toNat ≤ 127
  start : w.start.toNat ≤ 1439
  stop : 1 ≤ w.stop.toNat ∧ w.stop.toNat ≤ 1440
  apart : w.stop ≠ w.start

/-- The body of a PROFILE_PUT that passes check 1 of R141. -/
structure ProfileReq.inRange (r : ProfileReq) : Prop where
  profile : r.profile.toNat ≤ 7
  masterPin : r.masterPin.ok
  newPin : r.newPin.ok
  inUse : r.inUse = 0 ∨ r.inUse = 1
  pinToSelect : r.pinToSelect = 0 ∨ r.pinToSelect = 1
  buyNeedsPin : r.buyNeedsPin = 0 ∨ r.buyNeedsPin = 1
  windowMode : r.windowMode = 0 ∨ r.windowMode = 1
  allowance : r.allowancePresent = 0 ∨ r.allowancePresent = 1
  cap : r.capPresent = 0 ∨ r.capPresent = 1
  count : r.windows.length ≤ 4
  windows : ∀ w ∈ r.windows, w.inRange
  master : r.profile = 0 → r.inUse = 1

/-- The allowance that such a body takes: absent, or 86,400 seconds at most (R141). -/
def ProfileReq.allowanceTaken (r : ProfileReq) : Option Nat :=
  if r.allowancePresent = 1 then some (min 86400 r.allowance.toNat) else none

/-- The record that such a body, in use, makes of an old one (R141). -/
structure ProfileReq.writes (r : ProfileReq) (old new : Profile) : Prop where
  inUse : new.inUse = true
  pin : new.pin = r.newPin
  pinToSelect : new.pinToSelect = true ↔ r.pinToSelect = 1
  buyNeedsPin : new.buyNeedsPin = true ↔ r.buyNeedsPin = 1
  ceiling : new.ceiling = min 6 r.ceiling.toNat
  outside : new.outside = true ↔ r.windowMode = 1
  windows : new.windows = r.windows.map fun w =>
    { mask := w.mask, start := w.start.toNat, stop := w.stop.toNat }
  allowance : new.allowance = r.allowanceTaken
  remaining : new.remaining = (match r.allowanceTaken with
    | none => 86400
    | some a => min old.remaining a)
  cap : new.cap = if r.capPresent = 1 then some r.cap.toNat else none
  spend : new.spend = old.spend
  failures : new.failures = if r.newPin = old.pin then old.failures else 0
  lockout : new.lockout = if r.newPin = old.pin then old.lockout else 0

/-- The body of a CELL_PUT that passes check 1 of R156. -/
structure CellReq.inRange (r : CellReq) : Prop where
  cell : r.cell.toNat ≤ 7
  bound : r.bound.toNat ≤ 4
  inputs : r.in0.toNat ≤ 14 ∧ r.in1.toNat ≤ 14 ∧ r.in2.toNat ≤ 14
  truth : ∀ i : Fin 8, r.truth[i] = 0 ∨ r.truth[i] = 1
  present : r.linkPresent = 0 ∨ r.linkPresent = 1
  link : r.linkPresent = 1 → r.cell.toNat < r.link.toNat ∧ r.link.toNat ≤ 7
  needed : r.in0 = 3 ∨ r.in1 = 3 ∨ r.in2 = 3 → r.linkPresent = 1
  edge : r.edge.toNat ≤ 3
  permit : r.cell.toNat ≤ 4 → r.bound = r.cell ∧ r.edge = 0

/-- The disabled cell that such a body makes of an old one (R156). -/
structure CellReq.writes (r : CellReq) (old new : GateCell) : Prop where
  enabled : new.enabled = false
  bound : new.bound.val = r.bound.toNat
  in0 : new.in0.code = r.in0.toNat
  in1 : new.in1.code = r.in1.toNat
  in2 : new.in2.code = r.in2.toNat
  truth : ∀ i : Fin 8, new.truth[i] = true ↔ r.truth[i] = 1
  link : new.link.map (fun l => l.val) = if r.linkPresent = 1 then some r.link.toNat else none
  edge : new.edge.code = r.edge.toNat
  output : new.output = false
  rises : new.rises = if r.cell.toNat ≤ 4 then old.rises else 0
  falls : new.falls = if r.cell.toNat ≤ 4 then old.falls else 0

namespace Machine

/-- A PIN passes the check of the master PIN; a run of failures that it ends is in `State.checked` (R129). -/
structure State.master (s : State) (pin : Pin) : Prop where
  digits : pin.ok
  free : (s.profile 0).lockout = 0
  right : pin = (s.profile 0).pin

/-- The state that a PIN check leaves, where one is made: the effect of a request whose PIN is correct starts from it,
a run of failures being over (R129). -/
def State.checked (s : State) (asked : Bool) (p : Fin 8) (pin : Pin) : State :=
  if asked then (pinCheck p pin s).2 else s

/-- UNLOCKED of a view slot is reported, and no other source is (R137, R138). -/
def State.unlockTold (s t : State) (v : Fin 3) (on : Bool) : Prop :=
  t.gate.src = s.gate.src.set (viewSlot v) { s.gate.src[viewSlot v] with unlocked := on }

/-- A view slot's conditions are those that a profile gives it (R131, R140, R141). -/
structure State.judged (s t : State) (v : Fin 3) (x : Profile) : Prop where
  rating : (t.gate.src[viewSlot v]).ratingOk
    = (decide ((s.slot (viewSlot v)).state = .free) || decide (s.ratingInForce (viewSlot v) ≤ x.ceiling))
  window : (t.gate.src[viewSlot v]).windowOk = windowOk s.clock x
  allowance : (t.gate.src[viewSlot v]).allowanceLeft = allowanceLeft x
  parental : (t.gate.src[viewSlot v]).parentalOk = ((t.gate.src[viewSlot v]).ratingOk
    && (t.gate.src[viewSlot v]).windowOk && (t.gate.src[viewSlot v]).allowanceLeft)

/-- A cell's programming: all but its output and counts (R146). -/
def GateCell.program (c : GateCell) : GateCell := { c with output := false, rises := 0, falls := 0 }

/-- What the changes of the cells' outputs do (R17, R29, R153, R154). A fall of a permit takes a PRESENTING slot to
HELD(PERMIT_OFF), and a rise takes one in HELD(PERMIT_OFF), on a CLEAR service or with a valid key, to PRESENTING; no
other slot moves, and one that moves is noticed. A rise of an auxiliary cell is counted and told to the schedule unit,
a fall is counted, and either raises the AUX notice where the cell's edge mode asks for it. All else is as it was. -/
structure State.gateActs (s t : State) : Prop where
  still : ∀ k, t.permit k = s.permit k → t.slot k = s.slot k
  off : ∀ k, s.permit k = true → t.permit k = false → t.slot k =
    if (s.slot k).state = .presenting then { s.slot k with state := .held, reason := .permitOff } else s.slot k
  on : ∀ k, s.permit k = false → t.permit k = true → t.slot k =
    if (s.slot k).state = .held ∧ (s.slot k).reason = .permitOff
        ∧ (s.isClear k = true ∨ (s.slot k).desc.keyA.isSome ∨ (s.slot k).desc.keyB.isSome) then
      { s.slot k with state := .presenting, reason := .none, retune := 0, since := some s.clock.uptimeMs }
    else s.slot k
  rises : ∀ n : Fin 8, (t.gate.cells[n]).rises = (s.gate.cells[n]).rises
    + if 5 ≤ n.val ∧ (s.gate.cells[n]).output = false ∧ (t.gate.cells[n]).output = true then 1 else 0
  falls : ∀ n : Fin 8, (t.gate.cells[n]).falls = (s.gate.cells[n]).falls
    + if 5 ≤ n.val ∧ (s.gate.cells[n]).output = true ∧ (t.gate.cells[n]).output = false then 1 else 0
  told : t.auxRises = s.auxRises ++ ([7, 6, 5] : List (Fin 8)).filter fun n =>
    !(s.gate.cells[n]).output && (t.gate.cells[n]).output
  slotFlag : t.link.flags[0] = true ↔ s.link.flags[0] = true ∨ t.slots ≠ s.slots
  auxFlag : t.link.flags[6] = true ↔ s.link.flags[6] = true ∨ ∃ n : Fin 8, 5 ≤ n.val
    ∧ ((s.gate.cells[n]).output = false ∧ (t.gate.cells[n]).output = true ∧ (t.gate.cells[n]).edge ∈ [.rise, .both]
      ∨ (s.gate.cells[n]).output = true ∧ (t.gate.cells[n]).output = false ∧ (t.gate.cells[n]).edge ∈ [.fall, .both])
  flags : ∀ i : Fin 10, i ≠ 0 → i ≠ 6 → t.link.flags[i] = s.link.flags[i]
  rest : { t with gate := s.gate, slots := s.slots, auxRises := s.auxRises, link := t.link.core }
    = { s with link := s.link.core }

/-- Each enabled cell that reads no FEEDBACK holds the output that its inputs give (R158). -/
def Gate.settled (g : Gate) : Prop :=
  ∀ n : Fin 8, (g.cells[n]).enabled = true → (g.cells[n]).selects .feedback = false →
    (g.cells[n]).output = g.eval g.cells[n]

/-- A TUNE of a slot would be granted at once: no lane on the carrier, a lane IDLE, none waiting and the home
hold at rest (R49). -/
structure State.lends (s : State) (carrier : Nat) (l : Fin 3) : Prop where
  unserved : s.servingLane carrier = none
  idle : s.idleLane = some l
  queue : s.arb.queue = []
  home : s.arb.home = .inactive

/-- A TUNE of the schedule unit on a slot out of every lane and of the queue, for a service of the map that the slot
does not hold, would be granted a lane at once (R9, R49). -/
structure State.mayTune (s : State) (k : Fin 5) (v : Service) (l : Fin 3) : Prop extends s.lends v.carrier l where
  service : keyFind (·.sid) v.sid s.services = some v
  known : (s.carrier? v.carrier).isSome
  out : s.outSlot k
  other : (s.slot k).service ≠ some v.sid ∨ (s.slot k).state = .faulted

/-- A slot is TUNING, under an origin, on a lane that seeks its service's carrier (R9, R13). -/
structure State.tuned (t : State) (k : Fin 5) (v : Service) (l : Fin 3) (o : Origin) : Prop where
  slot : (t.slot k).view = (.tuning, .none, some l, 0)
  service : (t.slot k).service = some v.sid
  carrier : (t.slot k).carrier = some v.carrier
  origin : (t.slot k).origin = o
  seeking : (t.lane l).state = .seeking
  onCarrier : (t.lane l).carrier = some v.carrier
  told : t.laneTold k

/-- A slot that holds a service and is not FAULTED is tuned to it by the schedule unit: its operation, its lane, its
filters and its keys are kept, and no other slot, lane or entry of the wait queue is touched (R10). -/
structure State.heldOn (s t : State) (k : Fin 5) (o : Origin) : Prop where
  origin : (t.slot k).origin = o
  kept : (t.slot k).service = (s.slot k).service ∧ (t.slot k).carrier = (s.slot k).carrier
    ∧ (t.slot k).lane = (s.slot k).lane ∧ (t.slot k).desc = (s.slot k).desc
    ∧ (t.slot k).keyTimer = (s.slot k).keyTimer ∧ (t.slot k).opStart = (s.slot k).opStart
  lanes : t.lanes = s.lanes
  router : t.router = s.router
  queue : t.arb = s.arb
  told : t.laneTold k

/-! ### The entries of the schedule (R160, R163, R167) -/

/-- A trigger that a request's trigger is taken as: a service id, and a cell of 5 to 7, in range, and a lead of 600 s
at most (R167). -/
inductive TrigTaken : TrigReq → Trigger → Prop
  | atTime (t : Word) : TrigTaken (.atTime t) (.atTime t.toNat)
  | atEvent (sid lead : Half) (eid : Word) (real : sid ≠ 0) :
      TrigTaken (.atEvent sid eid lead) (.atEvent sid.toNat eid.toNat (min 600 lead.toNat))
  | auxRise (cell : Byte) (c : Fin 8) (same : cell.toNat = c.val) (aux : 5 ≤ c.val) :
      TrigTaken (.auxRise cell) (.auxRise c)

/-- A record end that goes with a trigger, and what it is taken as: an end after an AT_TIME trigger, a trail of 600 s
at most, or a run of 1 to 1,440 minutes (R160, R167). -/
inductive EndTaken : Trigger → Nat → Nat → Prop
  | atTime (t stop : Nat) (after : t < stop) : EndTaken (.atTime t) stop stop
  | atEvent (sid eid lead n : Nat) : EndTaken (.atEvent sid eid lead) n (min 600 n)
  | auxRise (c : Fin 8) (n : Nat) : EndTaken (.auxRise c) n (max 1 (min 1440 n))

/-- An action that a request's action is taken as under a trigger: a record slot of 3 or 4, a view slot of 0, and a
service id in range that under AT_EVENT is the trigger's (R167). -/
inductive ActTaken : ActReq → Trigger → Action → Prop
  | record (slot : Byte) (sid : Half) (stop : Word) (g : Trigger) (k : Fin 5) (n : Nat) (same : slot.toNat = k.val)
      (rec : 3 ≤ k.val) (real : sid ≠ 0) (one : ∀ x y z, g = .atEvent x y z → x = sid.toNat)
      (stops : EndTaken g stop.toNat n) : ActTaken (.record slot sid stop) g (.record k sid.toNat n)
  | view (sid : Half) (g : Trigger) (real : sid ≠ 0) (one : ∀ x y z, g = .atEvent x y z → x = sid.toNat) :
      ActTaken (.viewTune 0 sid) g (.viewTune sid.toNat)
  | remind (g : Trigger) : ActTaken .remind g .remind
  | wake (g : Trigger) : ActTaken .wake g .wake

/-- The service that an action names (R160). -/
def Action.names (a : Action) (sid : Nat) : Prop := (∃ k n, a = .record k sid n) ∨ a = .viewTune sid

/-- The end field of a recording (R160). -/
def Action.span : Action → Option Nat
  | .record _ _ n => some n
  | _ => none

/-- Another RUNNING entry records on a slot (R163). -/
def State.slotRuns (s : State) (n : Fin 24) (k : Fin 5) : Prop :=
  ∃ i, i ≠ n ∧ (s.entry i).state = .running ∧ ∃ sid m, (s.entry i).action = .record k sid m

/-- A service that the schedule unit cannot tune: it, or its carrier, has no entry (R9). -/
def State.untunable (s : State) (sid : Nat) : Prop :=
  ∀ v, keyFind (·.sid) sid s.services = some v → s.carrier? v.carrier = none

/-- A slot holds a service of the map, whose carrier has an entry, and is not FAULTED: a TUNE of the schedule unit for
the service takes it over (R9, R10). -/
structure State.holdsOn (s : State) (k : Fin 5) (v : Service) : Prop where
  service : keyFind (·.sid) v.sid s.services = some v
  known : (s.carrier? v.carrier).isSome
  held : (s.slot k).service = some v.sid
  sound : (s.slot k).state ≠ .faulted

/-- An entry stands otherwise, its SCHEDULE notice is raised, and nothing else has changed (R161, R170). -/
structure State.turned (s t : State) (n : Fin 24) (e : Entry) : Prop where
  noted : t.noted = ({ s with schedule := s.schedule.set n e }).noted
  faults : t.faults = s.faults
  flag : t.link.flags[5] = true

/-- An entry stands as given but for its orphan flag. A TUNE reads the guide for the current event of its slot, and an
entry that it finds past correction goes: the flag can rise by that, and does not where no event that the entry is tied
to is disturbed past correction (R26, R115, R165). -/
structure State.entryAs (s t : State) (n : Fin 24) (e : Entry) : Prop where
  fields : t.entry n = { e with orphan := (t.entry n).orphan }
  rises : e.orphan = true → (t.entry n).orphan = true
  sound : (∀ p ∈ s.guide.places, (∃ lead, e.trigger = .atEvent p.ev.sid p.ev.eid lead) → p.disturbed ≤ 1) →
    t.entry n = e

/-! ### The rise of an auxiliary cell (R154, R166) -/

/-- An entry is ARMED on the rise of a cell (R160). -/
def State.waitsRise (s : State) (c : Fin 8) (n : Fin 24) : Prop :=
  (s.entry n).state = .armed ∧ (s.entry n).trigger = .auxRise c

/-- An entry as it stands once a rise has set its recording running: its end is its minutes from now, in seconds of
uptime (R163). -/
def State.runsFrom (s : State) (x : Entry) (m : Nat) : Entry :=
  { x with state := .running, interruptions := 0, retry := none
           endTime := some (s.clock.uptimeMs / 1000 + 60 * m) }

/-- An entry fires on a rise, by its action and the mode as it stands (R162, R163, R166): a reminder acts; a wake acts,
and takes STANDBY to SERVICE; a view tune in SERVICE tunes slot 0, or is missed where the service is gone; a recording
in SERVICE or STANDBY is missed where another run has its slot, and runs otherwise. What the mode forbids is missed. The
SCHEDULE notice is raised, the other entries keep all but what interruptions and damage leave on them, and what tuning
does not touch is as it was. -/
structure State.takesRise (s t : State) (n : Fin 24) : Prop where
  left : (t.entry n).state ≠ .armed
  others : ∀ i, i ≠ n → (t.entry i).core = (s.entry i).core
  tables : t.tables = s.tables
  flag : t.link.flags[5] = true
  forbidden : (s.mode = .config ∧ (s.entry n).action ≠ .remind)
      ∨ (s.mode ≠ .service ∧ ∃ sid, (s.entry n).action = .viewTune sid) →
    s.turned t n { s.entry n with state := .missed, missed := some .mode }
  reminds : (s.entry n).action = .remind ∨ (s.mode = .service ∧ (s.entry n).action = .wake) →
    s.turned t n { s.entry n with state := .done }
  wakes : s.mode = .standby → (s.entry n).action = .wake → t.entry n = { s.entry n with state := .done }
    ∧ t.mode = .service ∧ t.gate.standby = false ∧ t.link.flags[8] = true
  viewGone : ∀ sid, s.mode = .service → (s.entry n).action = .viewTune sid → s.untunable sid →
    s.turned t n { s.entry n with state := .missed, missed := some .refused, lastTune := some .noSuch }
  viewTunes : ∀ v l, s.mode = .service → (s.entry n).action = .viewTune v.sid → s.mayTune 0 v l →
    t.tuned 0 v l .user ∧ t.entry n = { s.entry n with state := .done, lastTune := some .accepted }
  viewHeld : ∀ v, s.mode = .service → (s.entry n).action = .viewTune v.sid → s.holdsOn 0 v →
    s.heldOn t 0 .user ∧ t.entry n = { s.entry n with state := .done, lastTune := some .ok }
  busy : ∀ k sid m, s.mode = .service ∨ s.mode = .standby → (s.entry n).action = .record k sid m →
    s.slotRuns n k → s.turned t n { s.entry n with state := .missed, missed := some .conflict }
  records : ∀ k v m, s.mode = .service ∨ (s.mode = .standby ∧ 3 ≤ k.val) →
    (s.entry n).action = .record k v.sid m → ¬ s.slotRuns n k →
    let runs := s.runsFrom (s.entry n) m
    (s.untunable v.sid →
      s.turned t n { runs with retry := some (s.clock.uptimeMs + 30000), lastTune := some .noSuch })
    ∧ (∀ l, s.mayTune k v l →
      t.tuned k v l (.schedule n) ∧ t.entry n = { runs with lastTune := some .accepted })
    ∧ (s.holdsOn k v → s.heldOn t k (.schedule n) ∧ t.entry n = { runs with lastTune := some .ok })

/-- The entries of a list take the rise of a cell one after another: each that is ARMED on it when its turn comes fires
in the mode as it then stands (R166). -/
inductive State.risesThrough (c : Fin 8) : State → List (Fin 24) → State → Prop
  | done (s : State) : risesThrough c s [] s
  | fires {s t u : State} {n : Fin 24} {rest : List (Fin 24)} (waits : s.waitsRise c n) (takes : s.takesRise t n)
      (on : risesThrough c t rest u) : risesThrough c s (n :: rest) u
  | passes {s u : State} {n : Fin 24} {rest : List (Fin 24)} (waits : ¬ s.waitsRise c n)
      (on : risesThrough c s rest u) : risesThrough c s (n :: rest) u

/-- Some rises are taken in order, each by the entries in ascending number (R152, R166). -/
inductive State.takesRises : State → List (Fin 8) → State → Prop
  | done (s : State) : takesRises s [] s
  | rise {s t u : State} {c : Fin 8} {rest : List (Fin 8)} (first : State.risesThrough c s allEntries t)
      (on : takesRises t rest u) : takesRises s (c :: rest) u

/-- The rises under way are taken, and then those that this made, until none is left (log 7). -/
inductive State.settlesTo : State → State → Prop
  | done {s : State} (quiet : s.auxRises = []) : settlesTo s s
  | round {s t u : State} (waiting : s.auxRises ≠ []) (taken : State.takesRises { s with auxRises := [] } s.auxRises t)
      (on : settlesTo t u) : settlesTo s u

/-- A run of an entry has come to its end: in UTC, or for AUX_RISE in seconds of uptime (R163). -/
def State.runEnded (s : State) (e : Entry) (stop : Nat) : Prop :=
  e.state = .running ∧ e.endTime = some stop
    ∧ ((∃ c, e.trigger = .auxRise c) ∧ stop ≤ s.clock.uptimeMs / 1000
      ∨ (∀ c, e.trigger ≠ .auxRise c) ∧ ∃ now, s.now? = some now ∧ stop ≤ now)

end Machine

end Sys2Proof
end

