-- ==== Sys2Proof/Certificates/Slice0/Obligations.lean ====
section
/-! DEFINITION. The statements about the part, for the provers: the taking of commands, the link and its frames,
power and the retained store, modes and the clock, and then chapter by chapter what each command does, what
it leaves, and the forms and ranges that every step keeps. A hypothesis `s.live` or `s.ready` says that the
part has power, is out of BOOT, has not taken RESTART, and for a request that the reply queue has room. -/

open Sys2Proof Sys2Proof.Machine

/-! ### The taking of commands -/

/-- A step takes the command at the front of the queue and runs it with the rest waiting (log 1). -/
def Obligations.StepTakesFront : Prop :=
  ∀ (c : Instr) (rest : List Instr) (s : State), s.pending = c :: rest →
    step s = exec c { s with pending := rest }

/-- Every command completes, and leaves the queue of commands as it was (log 1). With no command waiting, a part
with power goes one millisecond of uptime on, and none waits after. Out of BOOT, a millisecond in which nothing falls
due lets the transmitter go on and no more; one in which a single timer, store write, frame or rewrite falls due does
what that row's command does; and one that ends a second, with nothing else due, does what SECOND_BOUNDARY does
(what an idle step is is the model's choice, log 2). -/
def Obligations.CommandsComplete : Prop :=
  (∀ (c : Instr) (s : State), ∃ t, exec c s = .next t ∧ t.pending = s.pending)
  ∧ (∀ s : State, s.pending = [] → s.power = true →
        ∃ t, step s = .next t ∧ t.clock.uptimeMs = s.clock.uptimeMs + 1 ∧ t.pending = [] ∧ t.power = true)
  ∧ (∀ s : State, s.pending = [] → s.live → 1 ≤ s.sweep.dwell →
        let second := (s.clock.uptimeMs + 1) % 1000 = 0
        (¬ second → s.passed.dueRows = [] → step s = .next s.passed.startTx)
        ∧ (∀ c, ¬ second → s.passed.dueRows = [c] → step s = exec c s.passed)
        ∧ (second → s.passed.dueRows = [] → step s = exec .secondBoundary (natureWork s.clearOut)))

/-! ### Chapter 10: frames, requests and replies -/

/-- The body written for a well-formed request, received whole under its kind, spells that request (R182, R184
tests 3 and 4): no field of any body is dropped or misplaced. -/
def Obligations.BodySpellsRequest : Prop :=
  ∀ (i : Instr) (kind tag : Byte) (body : List Byte), i.wf = true →
    requestFrame i = some (kind, tag, body) → spell kind tag body = .request i

/-- The bytes of a well-formed request's frame, received one after another with their stop bits by a receiver in
HUNT, do what the request does (R183, R184). Between them nothing moves the state but the frame: the last byte before
came in the present millisecond (lastByteMs is the uptime), nothing stands at the ports (out = []), and the
transmitter has nothing to begin. -/
def Obligations.FrameBytesMakeRequest : Prop :=
  ∀ (i : Instr) (bytes : List Byte) (s : State), i.wf = true → requestBytes i = some bytes →
    s.linkOpen = true → s.link.receiver = .hunt → s.link.lastByteMs = s.clock.uptimeMs → s.out = [] →
    s.startTx = s →
    execAll (bytes.map fun b => .receivedByte b true) s = exec i s

/-- What one byte does in each of the receiver's five states (R183): the state it leads to, or a frame error.
LINK_FRAME is a frame error: counted, noticed, the receiver in HUNT. INTER_BYTE_TIMEOUT is one while a frame is
being received, and nothing otherwise (R183). That LINK_FRAME is one in every state of the receiver, HUNT among them,
is the model's choice (log 3). What a good frame's last byte does stands in FrameBytesMakeRequest. -/
def Obligations.ReceiverTakesByte : Prop :=
  (∀ (b : Byte) (s : State), s.linkOpen = true →
      (s.link.receiver = .hunt → ∃ t, exec (.receivedByte b true) s = .next t
        ∧ s.hears t (if b = 0xA5 then .length none else .hunt))
      ∧ (s.link.receiver = .length none → ∃ t, exec (.receivedByte b true) s = .next t
        ∧ s.hears t (.length (some b)))
      ∧ (∀ a, s.link.receiver = .length (some a) → 256 * a.toNat + b.toNat ≤ 1020 →
        ∃ t, exec (.receivedByte b true) s = .next t ∧ s.hears t (.header a b none))
      ∧ (∀ a, s.link.receiver = .length (some a) → 1020 < 256 * a.toNat + b.toNat →
        ∃ t, exec (.receivedByte b true) s = .next t ∧ (s.heard (.length (some a))).spoiled t)
      ∧ (∀ a c, s.link.receiver = .header a c none →
        ∃ t, exec (.receivedByte b true) s = .next t ∧ s.hears t (.header a c (some b)))
      ∧ (∀ a c k, s.link.receiver = .header a c (some k) →
        ∃ t, exec (.receivedByte b true) s = .next t
          ∧ s.hears t (if 256 * a.toNat + c.toNat = 0 then .check a c k b [] none else .body a c k b []))
      ∧ (∀ a c k g l, s.link.receiver = .body a c k g l →
        ∃ t, exec (.receivedByte b true) s = .next t
          ∧ s.hears t (if l.length + 1 = 256 * a.toNat + c.toNat then .check a c k g (l ++ [b]) none
              else .body a c k g (l ++ [b])))
      ∧ (∀ a c k g l, s.link.receiver = .check a c k g l none →
        ∃ t, exec (.receivedByte b true) s = .next t ∧ s.hears t (.check a c k g l (some b)))
      ∧ (∀ a c k g l x, s.link.receiver = .check a c k g l (some x) →
        u16 (crc16 ([a, c, k, g] ++ l)).toNat ≠ [x, b] →
        ∃ t, exec (.receivedByte b true) s = .next t ∧ (s.heard s.link.receiver).spoiled t)
      ∧ (s.link.receiver = .hunt → ∃ t, exec (.receivedByte b false) s = .next t ∧ s.hears t .hunt)
      ∧ (s.link.receiver ≠ .hunt → ∃ t, exec (.receivedByte b false) s = .next t
        ∧ (s.heard s.link.receiver).spoiled t))
  ∧ (∀ s : State, s.linkOpen = true →
        (∃ t, exec .linkFrame s = .next t ∧ s.spoiled t)
        ∧ (s.link.receiver ≠ .hunt → ∃ t, exec .interByteTimeout s = .next t ∧ s.spoiled t)
        ∧ (s.link.receiver = .hunt → ∃ t, exec .interByteTimeout s = .next t ∧ s.unanswered t ∧ s.unmoved t))

/-- A good frame that finds eight replies queued is discarded without a reply: LINK_OVERRUN is counted in the
fault summary with its notice, the overrun counter and the count of good frames rise, and nothing else changes
(R184 test 1, R191). In BOOT every request but IDENTIFY is answered NOT_IN_MODE, with the status alone, and
changes nothing (R171, R184 test 5). A frame whose kind names no request is answered UNKNOWN_KIND, in BOOT too,
and changes nothing (R184 test 3). A received byte that makes a frame's check right ends the frame: of a kind of 0x40
or above it is a frame error without a reply (R184 test 2), and one whose body's length is not what its kind, or the
count or kinds in it, call for is answered BAD_LENGTH with the status alone, in BOOT too, and changes nothing else
(R184 test 4). -/
def Obligations.FramesTurnedAway : Prop :=
  (∀ (i : Instr) (s : State), ((requestFrame i).isSome ∨ ∃ tag k, i = .unknownKind tag k) →
      s.linkOpen = true → 8 ≤ s.link.replies.length →
      ∃ t, exec i s = .next t ∧ t.queued = s.queued ∧ t.link.goodFrames = s.link.goodFrames + 1
        ∧ t.noted = ({ s with link := { s.link with overruns := s.link.overruns + 1 } }).noted
        ∧ t.faults = { s.faults with linkOverrun := some (s.faults.linkOverrun.getD 0 + 1) }
        ∧ t.link.flags[9] = true)
  ∧ (∀ (i : Instr) (kind tag : Byte) (body : List Byte) (s : State),
        requestFrame i = some (kind, tag, body) → kind ≠ 0x00 → s.linkOpen = true → s.mode = .boot →
        s.link.replies.length < 8 → ∃ t, exec i s = .next t ∧ s.refused t kind tag .notInMode)
  ∧ (∀ (tag kind : Byte) (s : State), s.linkOpen = true → s.link.replies.length < 8 →
        ∃ t, exec (.unknownKind tag kind) s = .next t ∧ s.refused t kind tag .unknownKind)
  ∧ (∀ (a c kind tag x b : Byte) (body : List Byte) (s : State), s.linkOpen = true → s.link.replies.length < 8 →
        s.link.receiver = .check a c kind tag body (some x) →
        u16 (crc16 ([a, c, kind, tag] ++ body)).toNat = [x, b] →
        (0x40 ≤ kind.toNat → ∃ t, exec (.receivedByte b true) s = .next t ∧ (s.heard .hunt).spoiled t)
        ∧ (wrongLength kind body →
          ∃ t, exec (.receivedByte b true) s = .next t ∧ (s.heard .hunt).refused t kind tag .badLength))

/-- Every request taken, in any mode, queues one reply at the tail, of its kind and tag, whose body begins with
a status, and leaves the replies queued before it (R184, R185). -/
def Obligations.OneReplyEach : Prop :=
  ∀ (i : Instr) (kind tag : Byte) (body : List Byte) (s : State),
    requestFrame i = some (kind, tag, body) → s.linkOpen = true → s.link.replies.length < 8 →
    ∃ t st fields, exec i s = .next t ∧ s.answered t kind tag (Status.code st :: fields)

/-- TRANSMIT_FRAME_END: a reply whose last byte is sent leaves the head of the queue and is counted, a notice is
counted, and the transmitter goes on as an idle one does from there; an idle one only goes on (R185, R187, R191). What
an idle transmitter sends next, as a frame ends: the head reply if what it waits for is over, as it then is if its units
have entered the write queue or its purchase unit is written; otherwise the first notice, with the overflow indication;
otherwise nothing. A waiting head stops no notice. So it is while RESTART waits too, until no reply is left: then
nothing is sent (R173, R178, R185, R187, R188, R192). -/
def Obligations.TransmitterRuns : Prop :=
  (∀ s : State, s.power = true →
      (∀ f, s.link.tx = .reply f →
        let sent := { s with link := { s.link with tx := .idle, repliesSent := s.link.repliesSent + 1 } }
        exec .transmitFrameEnd s = exec .transmitFrameEnd
            { sent with link := { sent.link with replies := s.link.replies.tail } }
        ∧ ∃ t, exec .transmitFrameEnd s = .next t ∧ t.queued = s.queued.tail
          ∧ t.link.goodFrames = s.link.goodFrames ∧ sent.unmoved t)
      ∧ (∀ f, s.link.tx = .notice f →
        let sent := { s with link := { s.link with tx := .idle, noticesSent := s.link.noticesSent + 1 } }
        exec .transmitFrameEnd s = exec .transmitFrameEnd sent
        ∧ ∃ t, exec .transmitFrameEnd s = .next t ∧ s.unanswered t ∧ sent.unmoved t)
      ∧ (s.link.tx = .idle → ∃ t, exec .transmitFrameEnd s = .next t ∧ s.unanswered t ∧ s.unmoved t))
  ∧ (∀ s : State, s.power = true → s.link.tx = .idle →
        let waits := ∀ r ∈ s.link.replies.head?, s.keepsWaiting r
        let silent := s.restarting = true ∧ s.link.replies = []
        (∀ r ∈ s.link.replies.head?, ¬ s.keepsWaiting r →
          ∃ t, exec .transmitFrameEnd s = .next t ∧ t.queued = s.queued
            ∧ t.link.tx = .reply (frameBytes (r.kind + 0x80) r.tag r.body)
            ∧ t.link.notices = s.link.notices ∧ t.link.overflow = s.link.overflow)
        ∧ (∀ n rest, s.link.notices = n :: rest → waits → ¬ silent →
          ∃ t, exec .transmitFrameEnd s = .next t ∧ t.link.notices = rest ∧ t.link.overflow = false
            ∧ t.link.tx = .notice (frameBytes (BitVec.ofNat 8 (0xC0 + n.kind.index.val)) 0
                (u8 n.repeats ++ flag s.link.overflow ++ u8 (n.subject.getD 255) ++ n.contents)))
        ∧ (waits → s.link.notices = [] ∨ silent →
          ∃ t, exec .transmitFrameEnd s = .next t ∧ t.link.tx = .idle ∧ t.queued = s.queued
            ∧ t.link.notices = s.link.notices))

/-- What the raising of a notice does at the link port, steps 1 to 5 of R188. NOTICE_MASK_SET and
NOTICE_FLAGS_READ: a bit among 10 to 15 is refused; otherwise every mask is replaced and the notices of silenced
kinds go, and the named flags are cleared after they were reported. The transmitter, free to choose, may begin
its next frame (R187, R189, R190; that NOTICE_FLAGS_READ counts the notices in one byte is the model's, log 10). -/
def Obligations.NoticesRaisedAndMasked : Prop :=
  (∀ (k : NoticeKind) (sub : Option Nat) (c : List Byte) (l : Link),
      (l.raise k sub c).flags[k.index] = true
      ∧ (∀ i : Fin 10, i ≠ k.index → (l.raise k sub c).flags[i] = l.flags[i])
      ∧ (l.silent[k.index] = true → l.raise k sub c = { l with flags := (l.raise k sub c).flags })
      ∧ (∀ pre n post, l.silent[k.index] = false → l.notices = pre ++ n :: post →
          n.kind = k → n.subject = sub → (∀ m ∈ pre ++ post, ¬(m.kind = k ∧ m.subject = sub)) →
          l.raise k sub c = { l with
            flags := (l.raise k sub c).flags
            notices := pre ++ { n with contents := c, repeats := min 255 (n.repeats + 1) } :: post })
      ∧ (l.silent[k.index] = false → (∀ m ∈ l.notices, ¬(m.kind = k ∧ m.subject = sub)) →
          l.notices.length < 32 → l.raise k sub c = { l with
            flags := (l.raise k sub c).flags
            notices := l.notices ++ [{ kind := k, subject := sub, contents := c, repeats := 1 }] })
      ∧ (l.silent[k.index] = false → (∀ m ∈ l.notices, ¬(m.kind = k ∧ m.subject = sub)) →
          32 ≤ l.notices.length → l.raise k sub c = { l with
            flags := (l.raise k sub c).flags, overflow := true, noticesDropped := l.noticesDropped + 1 }))
  ∧ (∀ (tag : Byte) (m : Half) (s : State), s.ready →
        (1023 < m.toNat →
          (∃ t, exec (.noticeMaskSet tag m) s = .next t ∧ s.refused t 0x3E tag .badField)
          ∧ ∃ t, exec (.noticeFlagsRead tag m) s = .next t ∧ s.refused t 0x3F tag .badField)
        ∧ (m.toNat ≤ 1023 → ∃ t, exec (.noticeMaskSet tag m) s = .next t
          ∧ s.answered t 0x3E tag (reply .ok (half m))
          ∧ ({ s with link := { s.link with
                silent := Vector.ofFn fun i => m.getLsbD i.val
                notices := s.link.notices.filter fun n => !m.getLsbD n.kind.index.val } }).unmoved t)
        ∧ (m.toNat ≤ 1023 → ∃ t, exec (.noticeFlagsRead tag m) s = .next t
          ∧ s.answered t 0x3F tag (reply .ok (u16 (flagSet s.link.flags) ++ u8 s.link.notices.length
              ++ flag s.link.overflow))
          ∧ ({ s with link := { s.link with
                flags := Vector.ofFn fun i => s.link.flags[i] && !m.getLsbD i.val } }).unmoved t))

/-- IDENTIFY in every mode, BOOT included: the part number "BF-4420", the revision, the box address, the mode,
the device-key status and the six counters as they stand when the request is taken. The good-frame count has by
then the request's own frame in it (R191; that the count comes first is the model's reading, log 29). -/
def Obligations.IdentifyReports : Prop :=
  ∀ (tag : Byte) (s : State), s.linkOpen = true → s.link.replies.length < 8 → s.auxRises = [] →
    ∃ t, exec (.identify tag) s = .next t ∧ s.unmoved t
      ∧ s.answered t 0x00 tag (reply .ok (([0x42, 0x46, 0x2D, 0x34, 0x34, 0x32, 0x30, 0x00, 0x01] : List Byte)
          ++ u32 Config.boxAddress.toNat
          ++ u8 (match s.mode with
              | .boot => 0 | .config => 1 | .service => 2 | .standby => 3)
          ++ u8 (match s.access.deviceKey with
              | .untested => 0 | .usable => 1 | .unusable => 2)
          ++ u32 (s.link.goodFrames + 1).toNat ++ u32 s.link.frameErrors.toNat
          ++ u32 s.link.overruns.toNat ++ u32 s.link.repliesSent.toNat
          ++ u32 s.link.noticesSent.toNat ++ u32 s.link.noticesDropped.toNat))

/-! ### Chapter 9: the retained store and power -/

/-- A hand-over to the store: stamped one above the last, it replaces an image of its unit not yet being written and
stands last; at most 16 stand in the queue, the rest wait behind, and an idle store begins the first write, 8 ms long
(R178). That the write under way is not one of the 16, and that a replacing image goes to the very end of the queue
and the waiting line, is the model's reading (log 11, log 26). STORE_WRITE_COMPLETE: the unit under way is written
whole and the next in line begins, 8 ms long, one waiting unit entering the queue; with none under way nothing happens
(R178). -/
def Obligations.StoreQueuesWrites : Prop :=
  (∀ (now : Nat) (u : UnitId) (img : UnitImage) (st : Store),
      let line := (st.queue ++ st.waiting).filter (fun h => h.unit ≠ u)
        ++ [{ unit := u, number := st.last + 1, image := img }]
      let after := st.handOver now u img
      after.last = st.last + 1 ∧ after.units = st.units ∧ after.queue.length ≤ 16
        ∧ (after.waiting ≠ [] → after.queue.length = 16)
        ∧ (∀ w, st.writing = some w → after.writing = some w ∧ after.queue ++ after.waiting = line)
        ∧ (st.writing = none → ∃ h rest, line = h :: rest ∧ after.writing = some (h, now + 8)
          ∧ after.queue ++ after.waiting = rest))
  ∧ (∀ s : State, s.power = true →
        (∀ h d, s.store.writing = some (h, d) → ∃ t, exec .storeWriteComplete s = .next t
          ∧ s.unanswered t ∧ ({ s with store := t.store }).unmoved t
          ∧ t.store.units = s.store.units.write h ∧ t.store.last = s.store.last
          ∧ (s.store.queue ++ s.store.waiting = [] →
            t.store.writing = none ∧ t.store.queue = [] ∧ t.store.waiting = [])
          ∧ (∀ x rest, s.store.queue ++ s.store.waiting = x :: rest →
            t.store.writing = some (x, s.clock.uptimeMs + 8)
              ∧ t.store.queue = rest.take 16 ∧ t.store.waiting = rest.drop 16))
        ∧ (s.store.writing = none → ∃ t, exec .storeWriteComplete s = .next t
          ∧ s.unanswered t ∧ s.unmoved t))

/-- POWER_LOSS: the unit being written keeps its old contents or has its new ones, queued and waiting units are
lost, and nothing volatile is left (R173, R178, R185). A part without power is not touched (the model's reading,
log 18). -/
def Obligations.PowerLossKeepsStore : Prop :=
  ∀ s : State,
    (s.power = true → ∃ t, exec .powerLoss s = .next t
      ∧ (t.store.units = s.store.units
        ∨ ∃ w, s.store.writing = some w ∧ t.store.units = s.store.units.write w.1)
      ∧ t.store = { s.store with units := t.store.units, writing := none, queue := [], waiting := [] }
      ∧ { t with store := {}, nature := {} } = ({ pending := s.pending, power := false } : State))
    ∧ (s.power = false → exec .powerLoss s = .next { s with out := [] })

/-- POWER_ON of a part without power: BOOT begins with everything volatile at its power-on value, the retained state
assembled from the store or formatted, the device key tested, and the faults that boot sets (R87, R171, R179, R180).
That the view slots stand under profile 0 until BOOT ends is the model's choice (log 17), as is POWER_ON of a part that
has power. -/
def Obligations.PowerOnBoots : Prop :=
  ∀ s : State, s.power = false →
    let u := s.store.units
    let key := if s.nature.keySound then KeyStatus.usable else .unusable
    ∃ t, exec .powerOn s = .next t
      ∧ { t.noted with access := {}, parental := {}, store := {} }
        = ({ pending := s.pending, booted := true, nature := s.nature } : State).noted
      ∧ t.queued = [] ∧ t.link.goodFrames = 0 ∧ t.store.units = u
      ∧ (u.formatted = true →
        t.access = { purse := u.purse, tiers := u.tiers.get (Vector.replicate 32 {}),
                     grants := u.grantTable, purchases := u.purchaseList, deviceKey := key }
        ∧ t.parental = { profiles := u.profileTable, household := u.household.get {} })
      ∧ (u.formatted = false → t.access = { deviceKey := key } ∧ t.parental = {})
      ∧ t.faults = { storeFormatted := !u.formatted, unitsLost := if u.formatted then u.lost else [],
                     keyUnusable := !s.nature.keySound }

/-- BOOT_END, once the boot check is made and every unit it wrote is written: the mode is CONFIG with its
notice, each view slot has its default profile, profile 0 for one not in use, the record slots have their
parental conditions at 1 and the view slots all four of theirs by profile, and the first patrol visit is 50 ms away
(R116, R127, R131, R147, R171). Before that BOOT_END does nothing (the model's reading, log 18). -/
def Obligations.BootEnds : Prop :=
  ∀ s : State,
    (s.mayEndBoot = true → s.restarting = false → s.noRise → ∃ t, exec .bootEnd s = .next t
      ∧ t.mode = .config ∧ t.link.flags[8] = true ∧ s.unanswered t
      ∧ t.guide.patrolDue = some (s.clock.uptimeMs + 50)
      ∧ (∀ v : Fin 3, (t.slot (viewSlot v)).profile
        = some (if (s.profile s.parental.household.defaults[v]).inUse then
            s.parental.household.defaults[v] else 0))
      ∧ (∀ v : Fin 3, s.judged t v (t.profileOf (viewSlot v)))
      ∧ (∀ k : Fin 5, 3 ≤ k.val → (t.gate.src[k]).parentalOk = true ∧ (t.gate.src[k]).ratingOk = true
        ∧ (t.gate.src[k]).windowOk = true ∧ (t.gate.src[k]).allowanceLeft = true)
      ∧ t.parental.profiles = s.parental.profiles ∧ t.clock = s.clock
      ∧ { t.tables with parental := {}, store := {}, slots := s.tables.slots }
        = { s.tables with parental := {}, store := {} })
    ∧ (s.mayEndBoot = false → exec .bootEnd s = .next { s with out := [] })

/-- RESTART is answered OK and nothing else changes. From then on no request, front-end event, cell, timer expiry or
boundary of a single block is taken, and SECOND_BOUNDARY moves the clock alone; power, the store's writes, the
transmitter and ENTER_BOOT go on (R173; one more second of uptime by log 5). ENTER_BOOT,
once every unit is written and every reply sent, enters BOOT with the clock, the guide's entries and counters,
the device-key status and the fault summary but its boot-set faults kept, and all else at its RESTART value
(R103, R173, R179, R180). Before that it does nothing (the model's reading, log 18), and the view slots stand under
profile 0 in BOOT (the model's choice, log 17). -/
def Obligations.RestartReboots : Prop :=
  (∀ (tag : Byte) (s : State), s.ready → ∃ t, exec (.restart tag) s = .next t
    ∧ s.answered t 0x02 tag [0] ∧ ({ s with restarting := true }).unmoved t)
  ∧ (∀ (c : Instr) (s : State), s.restarting = true →
    c ∉ [Instr.powerOn, .powerLoss, .enterBoot, .storeWriteComplete, .transmitFrameEnd, .secondBoundary] →
    exec c s = .next { s with out := [] })
  ∧ (∀ s : State, s.power = true → s.restarting = true → s.auxRises = [] →
    ∃ t, exec .secondBoundary s = .next t ∧ s.unanswered t
      ∧ ({ s with clock := { s.clock with
            uptimeMs := (s.clock.uptimeMs / 1000 + 1) * 1000, utc := min 4294967295 (s.clock.utc + 1) } }).unmoved t)
  ∧ (∀ s : State, s.mayReboot = true →
    let u := s.store.units
    let dead := s.access.deviceKey = .unusable ∨ s.nature.keySound = false
    ∃ t, exec .enterBoot s = .next t
      ∧ { t.noted with access := {}, parental := {}, store := {} }
        = ({ pending := s.pending, booted := true, nature := s.nature, clock := s.clock
             guide := { s.guide with scrub := none, patrol := 0, patrolDue := none } } : State).noted
      ∧ t.queued = [] ∧ t.link.goodFrames = 0 ∧ t.store.units = u
      ∧ t.access.deviceKey = (if dead then .unusable else .usable)
      ∧ t.access.counters = {} ∧ t.parental.unlocks = Vector.replicate 3 none
      ∧ (u.formatted = true → t.access.purse = u.purse ∧ t.access.grants = u.grantTable
        ∧ t.access.purchases = u.purchaseList ∧ t.parental.profiles = u.profileTable)
      ∧ t.faults = { s.faults with
          storeFormatted := !u.formatted, unitsLost := if u.formatted then u.lost else []
          keyUnusable := dead })
  ∧ (∀ s : State, s.mayReboot = false → exec .enterBoot s = .next { s with out := [] })

/-- The access image that a boot takes (R179): that of the access unit or of the purchase unit with the highest
hand-over number; the purse of a store format if the access unit's check failed. -/
def Obligations.BootTakesLatestPurse : Prop :=
  ∀ u : Units,
    (u.access.sound = false → u.purse = {})
    ∧ (u.access.sound = true → (∀ c ∈ u.commits, c.1 ≤ u.access.number.toNat) →
      u.purse = u.access.image)
    ∧ (∀ c ∈ u.commits, u.access.sound = true → u.access.number.toNat < c.1 →
      (∀ d ∈ u.commits, d.1 < c.1 ∨ d = c) → u.purse = c.2.purse)

/-! ### Chapter 9: modes, the clock and the fault summary -/

/-- MODE_SET: a number that names no mode is refused; the present mode changes nothing; another is entered, with
its notice, and the tables, the clock, the access unit, the profiles and the store are left. Entry to CONFIG
frees every slot and entry to STANDBY from SERVICE every view slot, with reason MODE (R25, R172). An ARMED WAKE
entry is set aside: it could move the mode on. -/
def Obligations.ModeSetMoves : Prop :=
  ∀ (tag b : Byte) (s : State), s.ready →
    (b ≠ 1 → b ≠ 2 → b ≠ 3 → ∃ t, exec (.modeSet tag b) s = .next t ∧ s.refused t 0x01 tag .badField)
    ∧ (∀ m, (b, m) ∈ [(1, Mode.config), (2, Mode.service), (3, Mode.standby)] →
      (m = s.mode → ∃ t, exec (.modeSet tag b) s = .next t ∧ s.unmoved t
        ∧ s.answered t 0x01 tag (reply .ok [b, b]))
      ∧ (m ≠ s.mode → s.noWake → ∃ t, exec (.modeSet tag b) s = .next t
        ∧ s.answered t 0x01 tag (reply .ok (u8 s.mode.code ++ [b]))
        ∧ t.mode = m ∧ t.link.flags[8] = true ∧ t.tables = s.tables
        ∧ (s.noRise → (∀ k, (s.slot k).state = .free → (s.slot k).lane = none) →
          ∀ k : Fin 5, m = .config ∨ (m = .standby ∧ s.mode = .service ∧ k.val ≤ 2) →
            (t.slot k).state = .free
              ∧ ((s.slot k).state ≠ .free → (t.slot k).reason = .mode ∧ (t.slot k).service = none))))

/-- While no ARMED entry is a WAKE, no command but MODE_SET, a received byte that may end its frame, a WAKE
entry's SCHEDULE_PUT and the coming and going of power moves the mode of a part out of BOOT (R171 to R173). -/
def Obligations.OnlyModeSetMovesMode : Prop :=
  ∀ (c : Instr) (s t : State), s.live → s.noWake → exec c s = .next t →
    (∀ tag m, c ≠ .modeSet tag m) → (∀ b p, c ≠ .receivedByte b p) →
    (∀ tag n g, c ≠ .schedulePut tag n g .wake) → c ≠ .powerOn → c ≠ .powerLoss → t.mode = s.mode

/-- TIME_SET is refused with CONFLICT under source STREAM; otherwise the time and the offset, held in its range, are
taken, the source is LINK and the clock known, and the reply says whether a step was made. What the work of a time
boundary does not touch is left. A cell that brings a TIME record takes its offset, and its time if the clock was not
known or is more than 2 s away, and does what takeTime does, where no ARMED entry awaits a rise; a record that fails
its fields is counted under STREAM_RECORD_BAD (R61, R174 to R176; the number of a source is the model's, log 10). -/
def Obligations.TimeSetSteps : Prop :=
  (∀ (tag : Byte) (utc : Word) (offset : Half) (s : State), s.ready →
    (s.clock.source = .stream →
      ∃ t, exec (.timeSet tag utc offset) s = .next t ∧ s.refused t 0x04 tag .conflict)
    ∧ (s.clock.source ≠ .stream → ∃ t, exec (.timeSet tag utc offset) s = .next t
      ∧ t.clock = { s.clock with
          utc := utc.toNat, known := true, source := .link, offset := max (-720) (min 840 offset.toInt) }
      ∧ s.answered t 0x04 tag (reply .ok (i16 (max (-720) (min 840 offset.toInt))
          ++ flag (!s.clock.known || utc.toNat != s.clock.utc) ++ u8 1))
      ∧ t.ground = s.ground))
  ∧ (∀ (time : Nat) (offset : Int) (s : State), (takeTime time offset s).clock = s.clock.streamed time offset)
  ∧ ∀ (l : Fin 3) (bytes record : List Byte) (s : State), s.live → s.brings l bytes 5 record →
    (∀ time offset, timeOf record = some (time, offset) →
      ∃ t, exec (.cell l bytes) s = .next t ∧ s.unanswered t ∧ t.ground = s.ground
        ∧ t.clock = s.clock.streamed time offset
        ∧ (s.noRise → ({ takeTime time offset s with auxRises := [] }).likewise t))
    ∧ (timeOf record = none → ∃ t, exec (.cell l bytes) s = .next t ∧ s.discards t)

/-- SECOND_BOUNDARY: uptime comes to its next whole second and UTC goes 1 on up to its top, the rest of the
clock kept. Out of BOOT every lockout goes down by 1, and with no schedule entry ARMED or RUNNING every unlock record
goes down by 1 and ends at its last second. In a second in which nothing else comes due, and no other profile's
allowance runs out, the remaining of a profile goes down by 1 if a view slot presents under it, and stays otherwise.
What the work of a time boundary does not touch is left (R130, R134, R138, R174; that the row moves the uptime is the
model's choice, log 5, and the order of the counts, log 38). -/
def Obligations.SecondBoundaryAdvances : Prop :=
  ∀ s : State, s.power = true → ∃ t, exec .secondBoundary s = .next t
    ∧ t.clock = { s.clock with
        utc := min 4294967295 (s.clock.utc + 1), uptimeMs := (s.clock.uptimeMs / 1000 + 1) * 1000 }
    ∧ s.unanswered t ∧ t.ground = s.ground
    ∧ (s.live → ∀ p : Fin 8, (t.profile p).lockout = (s.profile p).lockout - 1)
    ∧ (s.live → (∀ n, (s.entry n).state ≠ .armed ∧ (s.entry n).state ≠ .running) → ∀ v : Fin 3,
      (s.parental.unlocks[v] = none → t.parental.unlocks[v] = none)
      ∧ ∀ u, s.parental.unlocks[v] = some u →
        (1 < u.remaining → t.parental.unlocks[v] = some { u with remaining := u.remaining - 1 }
          ∧ (t.gate.src[viewSlot v]).unlocked = (s.gate.src[viewSlot v]).unlocked)
        ∧ (u.remaining ≤ 1 → t.parental.unlocks[v] = none ∧ (t.gate.src[viewSlot v]).unlocked = false))
    ∧ (s.quietSecond → ∀ p : Fin 8, (∀ q, q ≠ p → (s.profile q).remaining ≠ 1) →
      (s.spends p → (t.profile p).remaining = (s.profile p).remaining - 1)
      ∧ (¬ s.spends p → (t.profile p).remaining = (s.profile p).remaining))

/-- FAULT_READ reports the summary as it stands, and changes nothing. FAULT_CLEAR: a flag among the six unused is
refused with BAD_FIELD and nothing is cleared; otherwise each named fault of class FAULT_CLEAR is cleared and
reported, KEY_UNUSABLE and FRONTEND_SILENT are left and reported so, and no notice is raised. The reply is OK, and the
blocks' own counters are left. A later occurrence sets its fault and raises a notice (R180, R181; the layout of the
summary and of the two sets of flags in the replies is the model's, log 10). -/
def Obligations.FaultClearClears : Prop :=
  (∀ (tag : Byte) (s : State), s.ready →
    ∃ t, exec (.faultRead tag) s = .next t ∧ s.answered t 0x06 tag (reply .ok s.faults.bytes) ∧ s.unmoved t)
  ∧ (∀ (tag : Byte) (n : Half) (s : State), s.ready →
    (1023 < n.toNat → ∃ t, exec (.faultClear tag n) s = .next t ∧ s.refused t 0x07 tag .badField)
    ∧ (n.toNat ≤ 1023 → ∃ t, exec (.faultClear tag n) s = .next t
      ∧ s.answered t 0x07 tag (reply .ok (u16 (n &&& 0x02DF).toNat ++ u16 (n &&& 0x0120).toNat))
      ∧ ({ s with faults := { s.faults with
            guideCorrected := if n.getLsbD 0 then none else s.faults.guideCorrected
            guideSecond := if n.getLsbD 1 then none else s.faults.guideSecond
            guideLost := if n.getLsbD 2 then none else s.faults.guideLost
            storeFormatted := s.faults.storeFormatted && !n.getLsbD 3
            unitsLost := if n.getLsbD 4 then [] else s.faults.unitsLost
            linkFrame := if n.getLsbD 6 then none else s.faults.linkFrame
            linkOverrun := if n.getLsbD 7 then none else s.faults.linkOverrun
            streamBad := if n.getLsbD 9 then none else s.faults.streamBad } }).unmoved t))
  ∧ (∀ (name : FaultName) (f : Faults → Faults) (s : State), s.restarting = false →
    (s.setFault name f).faults = f s.faults
      ∧ ∃ c, (s.setFault name f).link = s.link.raise .fault none c)

/-! ### The reads of every chapter -/

/-- Each of the nineteen requests that read and change nothing, CLOCK_READ, FAULT_READ, PROFILE_READ, HOUSEHOLD_READ,
SERVICE_READ, SLOT_STATUS, SCHEDULE_READ, CARRIER_READ, QUALITY_CLASS_READ, LANE_STATUS, ARBITER_READ, GUIDE_STATUS,
FILTER_READ, KEY_STATUS, CELL_READ, PURCHASES_READ, ACCESS_STATUS, TIER_READ and GRANT_READ, is answered with what the
state gives, in range or refused, and nothing else changes (R5, R28, R34, R40, R46, R55, R60, R73, R98 to R100, R124,
R144, R158, R169, R175, R181; unnumbered codes, unstated widths, and which fields of SCHEDULE_READ have a present
flag are the model's, log 10). -/
def Obligations.ReadsChangeNothing : Prop :=
  ∀ (i : Instr) (kind tag : Byte) (body : List Byte) (s : State), s.ready →
    s.reads i = some (kind, tag, body) →
    ∃ t, exec i s = .next t ∧ s.answered t kind tag body ∧ s.unmoved t

/-! ### Chapter 1: the service map and the slots -/

/-- SERVICE_PUT: the checks of R2 in their order; a new entry goes into the map and nothing else changes; an entry of
the same service id is replaced whole, the slots that the edit restarts are named (R3), and what movement does not
touch is left. A change of carrier or access kind restarts each slot of the service, one that is FAULTED too: it
leaves its lane or the queue, its filter entries and keys, and is served anew on the new carrier or waits in
WAIT_LANE(SERVICE_CHANGED) (R3, R13 to R16). A change of the component list alone changes nothing but the filter
entries of those slots, and entries of kept tags keep their counts; one of the default rating has RATING_OK found anew
for each view slot of the service without a current event; one of the channel alone changes nothing (R3, R57, R59).
SERVICE_DROP: the checks of R4; the entry leaves the map, the reply names its slots, and each goes to
FREE(SERVICE_GONE) with the leaving actions and a SLOT notice, the entry it ran for being told (R4, R24, R164). What
movement does not touch is left. What an edit or a drop does to its slots is said where no ARMED entry awaits a rise.
(The outcome's numbers in SERVICE_PUT's reply, 0 ADDED and 1 REPLACED, are the model's, log 10.) -/
def Obligations.ServicesEdited : Prop :=
  (∀ (tag : Byte) (r : ServiceReq) (s : State), s.ready →
      (¬ r.inRange → ∃ t, exec (.servicePut tag r) s = .next t ∧ s.refused t 0x10 tag .badField)
      ∧ (∀ v, r.inRange → r.writes v →
        (s.carrier? v.carrier = none →
          ∃ t, exec (.servicePut tag r) s = .next t ∧ s.refused t 0x10 tag .noSuch)
        ∧ ((s.carrier? v.carrier).isSome → (∃ o ∈ s.services, o.channel = v.channel ∧ o.sid ≠ v.sid) →
          ∃ t, exec (.servicePut tag r) s = .next t ∧ s.refused t 0x10 tag .conflict)
        ∧ ((s.carrier? v.carrier).isSome → (∀ o ∈ s.services, o.channel = v.channel → o.sid = v.sid) →
          (∀ o ∈ s.services, o.sid ≠ v.sid) → 512 ≤ s.services.length →
          ∃ t, exec (.servicePut tag r) s = .next t ∧ s.refused t 0x10 tag .full)
        ∧ ((s.carrier? v.carrier).isSome → (∀ o ∈ s.services, o.channel = v.channel → o.sid = v.sid) →
          (∀ o ∈ s.services, o.sid ≠ v.sid) → s.services.length < 512 →
          ∃ t, exec (.servicePut tag r) s = .next t
            ∧ s.answered t 0x10 tag (reply .ok (u16 v.sid ++ u8 v.rating ++ [0, 0]))
            ∧ ({ s with services := keyPut (·.sid) v s.services }).unmoved t)
        ∧ (∀ old, (s.carrier? v.carrier).isSome →
          (∀ o ∈ s.services, o.channel = v.channel → o.sid = v.sid) →
          keyFind (·.sid) v.sid s.services = some old →
          ∃ t, exec (.servicePut tag r) s = .next t
            ∧ s.answered t 0x10 tag (reply .ok (u16 v.sid ++ u8 v.rating ++ [1]
                ++ setByte (if old.carrier ≠ v.carrier ∨ old.scrambled ≠ v.scrambled then
                  s.slotsOf v.sid else [])))
            ∧ t.tables = ({ s with services := keyPut (·.sid) v s.services }).tables
            ∧ (old.carrier ≠ v.carrier ∨ old.scrambled ≠ v.scrambled →
              KeySorted Filter.key s.router.filters → s.noRise → ∀ k ∈ s.slotsOf v.sid, s.restarted t k v)
            ∧ (old.carrier = v.carrier → old.scrambled = v.scrambled → KeySorted Filter.key s.router.filters →
              old.rating = v.rating →
              s.relisted t v ∧ ({ s with services := keyPut (·.sid) v s.services, router := t.router }).unmoved t
              ∧ (old.comps = v.comps → t.router = s.router))
            ∧ (old.carrier = v.carrier → old.scrambled = v.scrambled → old.rating ≠ v.rating → s.noRise →
              ∀ u : Fin 3, viewSlot u ∈ s.slotsOf v.sid → (s.slot (viewSlot u)).cur = none →
                (t.gate.src[viewSlot u]).ratingOk = decide (v.rating ≤ (s.profileOf (viewSlot u)).ceiling)))))
  ∧ (∀ (tag sel : Byte) (num : Half) (s : State), s.ready →
        let named := (sel = 0 ∧ 1 ≤ num.toNat ∧ num.toNat ≤ 9999) ∨ (sel = 1 ∧ 1 ≤ num.toNat)
        (¬ named → ∃ t, exec (.serviceDrop tag sel num) s = .next t ∧ s.refused t 0x11 tag .badField)
        ∧ (named → s.findService sel num = none →
          ∃ t, exec (.serviceDrop tag sel num) s = .next t ∧ s.refused t 0x11 tag .noSuch)
        ∧ (∀ v, named → s.findService sel num = some v → ∃ t, exec (.serviceDrop tag sel num) s = .next t
          ∧ s.answered t 0x11 tag (reply .ok (u16 v.sid ++ setByte (s.slotsOf v.sid)))
          ∧ t.tables = ({ s with services := s.services.filter fun o => o.sid ≠ v.sid }).tables
          ∧ ((∀ k, (s.slot k).state = .free → (s.slot k).service = none) →
            ∀ k, (t.slot k).service ≠ some v.sid)
          ∧ (s.noRise → ∀ k ∈ s.slotsOf v.sid, s.serviceGone t k ∧ t.link.flags[0] = true)))

/-- The checks of a TUNE from the host, in the order of R9, up to the holding of the service (R10) and the ownership of
the slot: each but the holding is refused with its status, and none changes anything. A TUNE that passes them, with the
home hold at rest, is accepted: whatever the slot did before is abandoned, its record is set up afresh, an entry it ran
for is CANCELLED, LOCKED, SIGNAL_OK and SCHEDULED follow its lane and origin (R148, R149), and its claim is taken by the
first step that serves it (R9, R11, R12, R49). It joins a lane on the carrier, without disturbing it; or it is granted
the lowest IDLE lane, which seeks; or it preempts the lane that R50 chooses, whose slots are displaced, whose sweep
pauses, and which seeks; those who wait for the carrier join. Otherwise it waits after those of its priority or above,
and no lane changes (R13 to R16, R22, R36, R50 to R52). A slot that was its lane's only user first has the lane
released, with none waiting, and may be granted it anew (that the release comes first is the model's choice, log 45). -/
def Obligations.TunesTaken : Prop :=
  (∀ (tag slot sel force : Byte) (num : Half) (s : State), s.ready →
      let named := (sel = 0 ∧ 1 ≤ num.toNat ∧ num.toNat ≤ 9999) ∨ (sel = 1 ∧ 1 ≤ num.toNat)
      (5 ≤ slot.toNat ∨ ¬ named ∨ 2 ≤ force.toNat →
        ∃ t, exec (.tune tag slot sel num force) s = .next t ∧ s.refused t 0x14 tag .badField)
      ∧ (∀ k : Fin 5, slot.toNat = k.val → named → force.toNat ≤ 1 →
        (s.mode ≠ .service →
          ∃ t, exec (.tune tag slot sel num force) s = .next t ∧ s.refused t 0x14 tag .notInMode)
        ∧ (s.mode = .service → s.findService sel num = none →
          ∃ t, exec (.tune tag slot sel num force) s = .next t ∧ s.refused t 0x14 tag .noSuch)
        ∧ (∀ v, s.mode = .service → s.findService sel num = some v → s.carrier? v.carrier = none →
          ∃ t, exec (.tune tag slot sel num force) s = .next t ∧ s.refused t 0x14 tag .noSuch)
        ∧ (∀ v, s.mode = .service → s.findService sel num = some v → (s.carrier? v.carrier).isSome →
          (s.slot k).service = some v.sid → (s.slot k).state ≠ .faulted →
          ∃ t, exec (.tune tag slot sel num force) s = .next t ∧ s.unmoved t
            ∧ s.answered t 0x14 tag (reply .ok (u8 k.val ++ u16 v.sid)))
        ∧ (∀ v n, s.mode = .service → s.findService sel num = some v → (s.carrier? v.carrier).isSome →
          (s.slot k).service ≠ some v.sid ∨ (s.slot k).state = .faulted →
          (s.slot k).origin = .schedule n → force = 0 →
          ∃ t, exec (.tune tag slot sel num force) s = .next t ∧ s.refused t 0x14 tag .owned)))
  ∧ (∀ (tag slot sel force : Byte) (num : Half) (k : Fin 5) (v : Service) (s : State),
        s.ready → s.tuneTaken slot sel force num k v →
        let unserved := s.servingLane v.carrier = none
        ∃ t, exec (.tune tag slot sel num force) s = .next t
          ∧ s.answered t 0x14 tag (reply .accepted (u8 k.val ++ u16 v.sid)) ∧ t.tables = s.tables ∧ s.begun t k v
          ∧ (∀ l, s.keepsUser k → s.servingLane v.carrier = some l → s.joins t k v l)
          ∧ (∀ l, s.keepsUser k → unserved → s.idleLane = some l → s.granted t k v l
            ∧ t.joinedBy (s.waitersBut k) v.carrier l ∧ ∀ m, m ≠ l → t.lane m = s.lane m)
          ∧ (∀ m l, s.sole k m → s.waitersBut k = [] → s.arb.sweepWaiting = false →
            (∀ j, j ≠ m → (s.lane j).serves v.carrier = false) → l = m ∨ (s.lane l).state = .idle →
            (∀ j, j < l → j ≠ m ∧ (s.lane j).state ≠ .idle) →
            s.granted t k v l ∧ .idleOrder m ∈ t.out ∧ (l ≠ m → t.releases m))
          ∧ (∀ l, (s.slot k).lane = none → unserved → s.idleLane = none → s.victim (slotPriority k) = some l →
            s.granted t k v l ∧ s.preempts t l v.carrier ∧ t.joinedBy (s.waitersBut k) v.carrier l
              ∧ ∀ m, m ≠ l → t.lane m = s.lane m)
          ∧ ((s.slot k).lane = none → unserved → s.idleLane = none → s.victim (slotPriority k) = none →
            s.arb.ok → (t.slot k).view = (.waitLane, .none, none, 0) ∧ t.lanes = s.lanes
              ∧ ∃ pre post, s.waitersBut k = pre ++ post
                ∧ t.arb.queue = pre ++ { claimant := .slot k, carrier := v.carrier } :: post
                ∧ (∀ w ∈ pre, slotPriority k ≤ w.claimant.priority)
                ∧ ∀ w ∈ post, w.claimant.priority < slotPriority k))

/-- STOP: its checks; a FREE slot is left; any other slot, of USER origin or forced, enters FREE(STOPPED) with service,
carrier, lane and current event absent, origin USER and retune count 0, its counters and profile kept. It is out of the
wait queue and of every filter entry, its keys and held refused records are gone, its key timer is stopped and its
unlock record has ended; LOCKED, SIGNAL_OK and SCHEDULED read 0; and the entry it ran for becomes CANCELLED (R12, R24,
R63, R138, R149). Where it was the only user of its lane, the home hold at rest and the part not in STANDBY, the lane is
released: IDLE with none waiting; and with waiters, none of whose carriers another lane serves, and no lane IDLE, it
seeks the carrier of the head of the queue, whose waiters all join and wait no more, while the others stay in their
order (the queue pass of R52). -/
def Obligations.StopFrees : Prop :=
  ∀ (tag slot force : Byte) (s : State), s.ready →
    (5 ≤ slot.toNat ∨ 2 ≤ force.toNat →
      ∃ t, exec (.stop tag slot force) s = .next t ∧ s.refused t 0x15 tag .badField)
    ∧ (∀ k : Fin 5, slot.toNat = k.val → force.toNat ≤ 1 →
      ((s.slot k).state = .free → ∃ t, exec (.stop tag slot force) s = .next t ∧ s.unmoved t
        ∧ s.answered t 0x15 tag (reply .ok (u8 k.val)))
      ∧ (∀ n, (s.slot k).state ≠ .free → (s.slot k).origin = .schedule n → force = 0 →
        ∃ t, exec (.stop tag slot force) s = .next t ∧ s.refused t 0x15 tag .owned)
      ∧ ((s.slot k).state ≠ .free → (s.slot k).origin = .user ∨ force = 1 → s.noRise →
        ∃ t, exec (.stop tag slot force) s = .next t
          ∧ s.answered t 0x15 tag (reply .ok (u8 k.val)) ∧ t.tables = s.tables
          ∧ (t.slot k).view = (.free, .stopped, none, 0) ∧ (t.slot k).service = none
          ∧ (t.slot k).carrier = none ∧ (t.slot k).origin = .user ∧ (t.slot k).cur = none
          ∧ t.cleared k ∧ t.unqueued k ∧ (∀ u : Fin 3, viewSlot u = k → t.parental.unlocks[u] = none) ∧ t.laneTold k
          ∧ (t.slot k).cellsOut = (s.slot k).cellsOut ∧ (t.slot k).unkeyed = (s.slot k).unkeyed
          ∧ (t.slot k).gaps = (s.slot k).gaps
          ∧ (∀ n, s.runner k = some n → (t.entry n).state = .cancelled)
          ∧ (∀ m, s.sole k m → s.arb.home = .inactive → s.mode ≠ .standby →
            (s.waitersBut k = [] → s.arb.sweepWaiting = false → t.releases m)
            ∧ (∀ w rest, s.waitersBut k = w :: rest → s.idleLane = none →
              (∀ x ∈ w :: rest, x.claimant ≠ .home ∧ ∀ l, l ≠ m → (s.lane l).serves x.carrier = false) →
              s.seeks t m w.carrier ∧ t.joinedBy (w :: rest) w.carrier m
                ∧ t.arb.queue = restOf w rest))))

/-! ### Chapter 2: carriers, lanes and the arbiter -/

/-- CARRIER_PUT: the checks of R32; the entry is written whole, a new home flag clears the one there was, and a changed
frequency loses the lane LOCKED on the carrier, with cause CARRIER_EDIT, a LANE notice and what a loss does to its slots
(R20, R43), the seek under the new frequency. A lane SEEKING on the carrier, with a slot on it or untouched by the home
hold and the sweep, seeks afresh under the new frequency, and its TUNING slots stay as they are (R32, R36). What
movement does not touch is left. CARRIER_DROP: the checks of R33; the entry is emptied, and each slot, not FREE and not
FAULTED, whose service names it stands in FAULTED(SERVICE_GONE) without a lane, the gate array told (R6, R149). The
reply lists the lane on the carrier if no slot and no home hold stays on it, and the sweep leaves it too; a lane so left
is released, and with none waiting and the home hold at rest it is IDLE, or the sweep's on another carrier. What
movement does not touch is left. (That a home flag is reported cleared of another entry alone is the model's reading,
log 21, and the numbers of CARRIER_PUT's outcome are the model's, log 10.) -/
def Obligations.CarriersEdited : Prop :=
  (∀ (tag : Byte) (r : CarrierReq) (s : State), s.ready →
      (¬ r.inRange → ∃ t, exec (.carrierPut tag r) s = .next t ∧ s.refused t 0x20 tag .badField)
      ∧ (∀ c, r.inRange → r.writes c →
        ((∃ o ∈ s.carriers, o.freq = c.freq ∧ o.index ≠ c.index) →
          ∃ t, exec (.carrierPut tag r) s = .next t ∧ s.refused t 0x20 tag .conflict)
        ∧ ((∀ o ∈ s.carriers, o.freq = c.freq → o.index = c.index) →
          let cleared := if c.home then (s.carriers.map fun o => { o with home := false }) else s.carriers
          ∃ t, exec (.carrierPut tag r) s = .next t
            ∧ s.answered t 0x20 tag (reply .ok (u8 c.index ++ flag (s.carrier? c.index).isSome
                ++ opt 1 u8 (if c.home then s.homeCarrier.filter (· ≠ c.index) else none)))
            ∧ t.tables = ({ s with carriers := keyPut (·.index) c cleared }).tables
            ∧ ∀ old l, s.carrier? c.index = some old → old.freq ≠ c.freq → s.servingLane c.index = some l →
              let u := { s with carriers := keyPut (·.index) c cleared }
              ((s.lane l).state = .locked →
                (t.lane l).lossCarrierEdit = (s.lane l).lossCarrierEdit + 1 ∧ t.link.flags[1] = true
                ∧ (s.noRise → u.loses t l c.index))
              ∧ ((s.lane l).state = .seeking → s.noRise →
                ((∃ k, (s.slot k).lane = some l)
                  ∨ (s.arb.home = .inactive ∧ s.mode ≠ .standby ∧ old.guide = c.guide) → u.seeks t l c.index)
                ∧ ∀ k, (s.slot k).lane = some l → s.unqueued k → t.laneTold k
                  ∧ ((s.slot k).state = .tuning → (t.slot k).view = (s.slot k).view)))))
  ∧ (∀ (tag index : Byte) (s : State), s.ready →
        (63 < index.toNat →
          ∃ t, exec (.carrierDrop tag index) s = .next t ∧ s.refused t 0x21 tag .badField)
        ∧ (index.toNat ≤ 63 → s.carrier? index.toNat = none →
          ∃ t, exec (.carrierDrop tag index) s = .next t ∧ s.refused t 0x21 tag .noSuch)
        ∧ (index.toNat ≤ 63 → (s.carrier? index.toNat).isSome →
          ∃ t, exec (.carrierDrop tag index) s = .next t
            ∧ (∀ lanes : List (Fin 3), (∀ l, l ∈ lanes ↔ s.emptiedBy index.toNat l) →
              s.answered t 0x21 tag (reply .ok (setByte lanes)))
            ∧ (∀ l, s.emptiedBy index.toNat l → s.mode ≠ .standby → s.arb.home = .inactive → s.arb.queue = [] →
              s.arb.sweepWaiting = false → s.noRise →
              (s.sweep.lane = some l → s.sweep.state = .dwell ∧ s.sweep.position = some index.toNat) →
              (t.lane l).state ≠ .locked ∧ (t.lane l).carrier ≠ some index.toNat
                ∧ ((t.lane l).state = .idle ∨ t.sweep.lane = some l))
            ∧ t.tables = ({ s with carriers := s.carriers.filter fun c => c.index ≠ index.toNat }).tables
            ∧ (s.noRise → ∀ k v, (s.slot k).state ≠ .free → (s.slot k).state ≠ .faulted →
              s.serviceOf k = some v → v.carrier = index.toNat →
              (t.slot k).state = .faulted ∧ (t.slot k).reason = .serviceGone ∧ (t.slot k).lane = none
                ∧ t.laneTold k)))

/-- QUALITY_CLASS_SET: N is taken as the largest allowed value not above the one asked, 0 as 1; thresholds and K
are held in their ranges; a lower threshold above the upper one, a class or an initial grade out of range are
refused; the class alone changes, the reply carries the values taken, and a lane whose carrier selects the class is
graded by it from then on. QUALITY_CLASS_READ reports a class and changes nothing, and refuses a class above 3
(R40). -/
def Obligations.QualityClassSetClamps : Prop :=
  ∀ (tag : Byte) (r : ClassReq) (s : State), s.ready →
    (4 ≤ r.cls.toNat ∨ 2 ≤ r.initial.toNat ∨ min 4095 r.th.toNat < min 4095 r.tl.toNat →
      ∃ t, exec (.qualityClassSet tag r) s = .next t ∧ s.refused t 0x23 tag .badField)
    ∧ (∀ n : Fin 4, r.cls.toNat = n.val → r.initial.toNat ≤ 1 →
      min 4095 r.tl.toNat ≤ min 4095 r.th.toNat →
      ∃ t c, exec (.qualityClassSet tag r) s = .next t
        ∧ c.n ∈ [1, 2, 4, 8, 16, 32] ∧ c.n ≤ max 1 r.n.toNat
        ∧ (∀ m ∈ [1, 2, 4, 8, 16, 32], m ≤ max 1 r.n.toNat → m ≤ c.n)
        ∧ c.tl = min 4095 r.tl.toNat ∧ c.th = min 4095 r.th.toNat ∧ c.h = r.h.toNat
        ∧ c.k = max 1 (min 15 r.k.toNat) ∧ (c.initialMarginal = true ↔ r.initial = 1)
        ∧ s.answered t 0x23 tag (reply .ok (u8 n.val ++ u8 c.n ++ u16 c.tl ++ u16 c.th ++ u8 c.h
            ++ u8 c.k ++ flag c.initialMarginal))
        ∧ ({ s with classes := s.classes.set n c }).unmoved t
        ∧ ∀ l i x, (s.lane l).carrier = some i → s.carrier? i = some x → x.cls = n → t.classOf l = c)
    ∧ (4 ≤ r.cls.toNat →
      ∃ t, exec (.qualityClassRead tag r.cls) s = .next t ∧ s.refused t 0x24 tag .badField)
    ∧ (∀ n : Fin 4, r.cls.toNat = n.val →
      let c := s.classes[n]
      ∃ t, exec (.qualityClassRead tag r.cls) s = .next t ∧ s.unmoved t
        ∧ s.answered t 0x24 tag (reply .ok (u8 n.val ++ u8 c.n ++ u16 c.tl ++ u16 c.th ++ u8 c.h ++ u8 c.k
            ++ flag c.initialMarginal)))

/-- LANE_ENABLE: its checks; a lane already so is left; off, the lane is OFF, and no slot, nor the sweep, nor the
home hold is a user of it, and the reply names the slots displaced; on, the lane is enabled. What movement does not
touch is left. With the home hold at rest: slots that no other lane can take stand in WAIT_LANE(PREEMPTED) in the
queue, and the sweep waits; else the lowest IDLE lane takes them or the sweep, or a slot's lane preempts the lane that
R50 chooses. A lane switched on is left IDLE with an idle order, or takes the head of the queue and all who wait for
its carrier, or with none waiting the sweep (R22, R45, R49 to R53). That a lane IDLE before is then sent another idle
order, which R52 does not say, is the model's choice (log 20). -/
def Obligations.LaneEnableSwitches : Prop :=
  ∀ (tag lane on : Byte) (s : State), s.ready →
    (3 ≤ lane.toNat ∨ 2 ≤ on.toNat →
      ∃ t, exec (.laneEnable tag lane on) s = .next t ∧ s.refused t 0x25 tag .badField)
    ∧ (∀ l : Fin 3, lane.toNat = l.val →
      ((on = 1 ∧ (s.lane l).state ≠ .off) ∨ (on = 0 ∧ (s.lane l).state = .off) →
        ∃ t, exec (.laneEnable tag lane on) s = .next t ∧ s.unmoved t
          ∧ s.answered t 0x25 tag (reply .ok (u8 l.val ++ [0])))
      ∧ (on = 0 → (s.lane l).state ≠ .off → ∃ t, exec (.laneEnable tag lane on) s = .next t
        ∧ s.answered t 0x25 tag (reply .ok (u8 l.val ++ setByte (s.slotUsers l)))
        ∧ (t.lane l).state = .off ∧ (∀ m, m ≠ l → ((t.lane m).state = .off ↔ (s.lane m).state = .off))
        ∧ (∀ k, (t.slot k).lane ≠ some l) ∧ t.sweep.lane ≠ some l ∧ t.arb.home ≠ .holding l
        ∧ t.link.flags[1] = true ∧ t.tables = s.tables
        ∧ (s.homeRests → s.noRise →
          let next (m : Fin 3) := m ≠ l ∧ (s.lane m).state = .idle ∧ ∀ j, j < m → j ≠ l → (s.lane j).state ≠ .idle
          (s.stranded l →
            (∀ k c, (s.slot k).lane = some l → (s.slot k).carrier = some c → s.unqueued k → s.displaced t k c)
            ∧ (∀ w ∈ s.arb.queue, w ∈ t.arb.queue) ∧ (s.sweep.lane = some l → t.sweepHalts)
            ∧ ∀ m, m ≠ l → t.lane m = s.lane m)
          ∧ (∀ m c, next m → s.slotsAt l c → s.sweep.lane ≠ some l → s.arb.sweepWaiting = false →
            s.resettled t l m c ∧ ∀ j, j ≠ l → j ≠ m → t.lane j = s.lane j)
          ∧ (∀ m c p, (∀ j, j ≠ l → (s.lane j).state ≠ .idle) → s.slotsAt l c → s.lanePriority l = some p →
            s.victim p = some m →
            s.resettled t l m c ∧ s.preempts t m c ∧ ∀ j, j ≠ l → j ≠ m → t.lane j = s.lane j)
          ∧ (∀ m c, next m → s.slotUsers l = [] → s.sweep.lane = some l → s.arb.queue = [] →
            s.sweep.position = some c → (∀ j, j ≠ l → (s.lane j).serves c = false) →
            s.visits t c m ∧ ∀ j, j ≠ l → j ≠ m → t.lane j = s.lane j)))
      ∧ (on = 1 → (s.lane l).state = .off → ∃ t, exec (.laneEnable tag lane on) s = .next t
        ∧ s.answered t 0x25 tag (reply .ok (u8 l.val ++ [0]))
        ∧ (t.lane l).state ≠ .off ∧ (∀ m, m ≠ l → ((t.lane m).state = .off ↔ (s.lane m).state = .off))
        ∧ t.tables = s.tables
        ∧ (s.homeRests → s.noRise →
          (s.arb.queue = [] → s.arb.sweepWaiting = false →
            t.bare = (s.modLane l fun x => { x with state := .idle }).bare
            ∧ ∀ m, (t.lane m).state = .idle → .idleOrder m ∈ t.out)
          ∧ (∀ w rest, s.arb.queue = w :: rest → s.idleLane = none →
            (∀ x ∈ w :: rest, x.claimant ≠ .home ∧ ∀ m, (s.lane m).serves x.carrier = false) →
            s.seeks t l w.carrier ∧ t.joinedBy (w :: rest) w.carrier l ∧ t.arb.queue = restOf w rest
              ∧ ∀ m, m ≠ l → t.lane m = s.lane m)
          ∧ (∀ c, s.arb.queue = [] → s.arb.sweepWaiting = true → s.sweep.position = some c →
            s.servingLane c = none → s.idleLane = none →
            s.visits t c l ∧ ∀ m, m ≠ l → t.lane m = s.lane m))))

/-- LOCK under the current order number of a SEEKING lane, the home hold at rest: the lane is LOCKED with the parameters
of its carrier's class, its TUNING slots on SCRAMBLED services are ACQUIRING with 3,000 ms to their first key, those on
CLEAR services PRESENTING, with ENTITLED at 1 and a retune count of 0, or HELD(PERMIT_OFF), as their permit output reads
after, and the LANE notice is raised. LOCKED and SIGNAL_OK read 1 for every slot on the lane (R37, R149). The lane has
its four control entries in the filter table, each of those slots joins the entry of each tag of its service on the
lane, a new one having no sequence count, and no other slot's entries change. In any other state, or under any other
number, nothing happens (R14 to R16, R37, R57, R84). -/
def Obligations.LockEntersLocked : Prop :=
  ∀ (l : Fin 3) (order : Byte) (s : State), s.live →
    ((s.lane l).state ≠ .seeking ∨ (s.lane l).order ≠ order →
      ∃ t, exec (.lock l order) s = .next t ∧ s.unanswered t ∧ s.unmoved t)
    ∧ ((s.lane l).state = .seeking → (s.lane l).order = order → s.arb.home = .inactive → s.noRise →
      ∃ t, exec (.lock l order) s = .next t ∧ s.unanswered t ∧ t.tables = s.tables
        ∧ t.lane l = { s.lane l with
            state := .locked, seekTimer := none, accSum := 0, accCount := 0
            accN := some (s.classOf l).n
            grade := some (if (s.classOf l).initialMarginal then .marginal else .good)
            poorRun := 0, silenceTimer := some (s.clock.uptimeMs + 1000), locks := (s.lane l).locks + 1 }
        ∧ t.link.flags[1] = true
        ∧ (∀ k, (s.slot k).lane = some l → t.laneTold k
          ∧ (t.gate.src[k]).locked = true ∧ (t.gate.src[k]).signalOk = true)
        ∧ (∀ k, (s.slot k).lane = some l → (s.slot k).state = .tuning →
          (s.isScrambled k = true →
            (t.slot k).state = .acquiring ∧ (t.slot k).keyTimer = some (s.clock.uptimeMs + 3000))
          ∧ (s.isClear k = true → t.byPermit k ∧ (t.gate.src[k]).entitled = true))
        ∧ (KeySorted Filter.key s.router.filters → (∀ v ∈ s.services, v.ok) →
          let found (u : State) (key : Nat) := keyFind Filter.key key u.router.filters
          (∀ p ∈ [(1, Consumer.key), (2, .entitlement), (3, .guide), (4, .time)],
            found t (l.val * 1024 + p.1) = some { lane := l, tag := p.1, dest := .consumer p.2 })
          ∧ (∀ k key, 5 ≤ key % 1024 → (t.filterNames k key ↔ s.filterNames k key
            ∨ ((s.slot k).lane = some l ∧ (s.slot k).state = .tuning
              ∧ ∃ v, s.serviceOf k = some v ∧ ∃ c ∈ v.comps, key = l.val * 1024 + c.tag)))
          ∧ (∀ key g, found s key = none → found t key = some g → g.last = none)
          ∧ (∀ key f ks, found s key = some f → f.dest = .slots ks → 5 ≤ key % 1024 →
            ∃ g, found t key = some g ∧ g.last = f.last)
          ∧ ∀ key, key / 1024 ≠ l.val → found t key = found s key))

/-- The losses of a lane: LANE_UNLOCK and SILENCE_TIMER_EXPIRY on a LOCKED lane, and SEEK_FAILED on a SEEKING one whose
seek timer runs, each add 1 to the counter of its own and to no other counter of any lane, and the silence sets
FRONTEND_SILENT with its FAULT notice. In other states nothing happens (R35, R37, R38, R43, R44). A loss takes each slot
in ACQUIRING, PRESENTING or HELD on the lane out of its filters and keys and into TUNING(LANE_LOST), its retune count
one higher, or at a count of 3 off the lane into FAULTED(LANE_LOST); a seek failure leaves each TUNING slot
TUNING(LOCK_TIMEOUT), or at 3 FAULTED(LOCK_TIMEOUT); and the lane seeks the carrier again for the slots that stay (R20,
R21). LOCKED and SIGNAL_OK fall to 0 for the slots of the lane, and SCHEDULED follows their origin (R148, R149). A lane
that a seek failure leaves without users is IDLE, with none waiting in SERVICE (R38, R52). -/
def Obligations.LaneLossesCount : Prop :=
  ∀ (l : Fin 3) (s : State), s.live →
    ((s.lane l).state ≠ .locked → (∃ t, exec (.laneUnlock l) s = .next t ∧ s.unanswered t ∧ s.unmoved t)
      ∧ ∃ t, exec (.silenceTimerExpiry l) s = .next t ∧ s.unanswered t ∧ s.unmoved t)
    ∧ ((s.lane l).state ≠ .seeking ∨ (s.lane l).seekTimer = none →
      ∃ t, exec (.seekFailed l) s = .next t ∧ s.unanswered t ∧ s.unmoved t)
    ∧ (∀ c, (s.lane l).state = .locked → (s.lane l).carrier = some c →
      (∃ t, exec (.laneUnlock l) s = .next t ∧ s.unanswered t ∧ t.tables = s.tables
        ∧ (∀ m, m ≠ l → (t.lane m).tally = (s.lane m).tally) ∧ t.link.flags[1] = true
        ∧ (t.lane l).tally = ({ s.lane l with lossUnlock := (s.lane l).lossUnlock + 1 }).tally
        ∧ (s.noRise → s.loses t l c))
      ∧ ((s.lane l).silenceTimer.isSome → s.noRise →
        ∃ t, exec (.silenceTimerExpiry l) s = .next t ∧ s.unanswered t ∧ t.tables = s.tables
          ∧ (∀ m, m ≠ l → (t.lane m).tally = (s.lane m).tally) ∧ t.link.flags[1] = true
          ∧ (t.lane l).tally = ({ s.lane l with lossSilent := (s.lane l).lossSilent + 1 }).tally
          ∧ t.faults.silent[l] = true ∧ t.link.flags[9] = true ∧ s.loses t l c))
    ∧ (∀ c, (s.lane l).state = .seeking → (s.lane l).carrier = some c → (s.lane l).seekTimer.isSome →
      ∃ t, exec (.seekFailed l) s = .next t ∧ s.unanswered t ∧ t.tables = s.tables
        ∧ (∀ m, m ≠ l → (t.lane m).tally = (s.lane m).tally)
        ∧ (t.lane l).tally = ({ s.lane l with seekFailures := (s.lane l).seekFailures + 1 }).tally
        ∧ (s.noRise → s.failsSeek t l c))

/-- SAMPLE: on a lane not LOCKED it clears the lane's FRONTEND_SILENT fault and does nothing else. On a LOCKED lane it
is accumulated; the last of an accumulation forms the average, which is graded by the table of R42, and the poor run and
the next accumulation's N follow, and SIGNAL_OK of every slot on the lane follows the grade (R148, R149); a poor run
that reaches K loses the lane, with what a loss does to its slots (R20, R37, R41 to R44). -/
def Obligations.SampleGrades : Prop :=
  ∀ (l : Fin 3) (e : BitVec 12) (n : Nat) (g : Grade) (s : State), s.live →
    let clear := { s with faults := { s.faults with silent := s.faults.silent.set l false } }
    let c := s.classOf l
    let a := ((s.lane l).accSum + e.toNat) / n
    let next := match g with
      | .good => if a > c.th + c.h then Grade.poor else if a > c.tl + c.h then .marginal else .good
      | .marginal => if a > c.th + c.h then .poor else if a + c.h ≤ c.tl then .good else .marginal
      | .poor => if a + c.h ≤ c.tl then .good else if a + c.h ≤ c.th then .marginal else .poor
    let run := if next = .poor then (s.lane l).poorRun + 1 else 0
    ((s.lane l).state ≠ .locked →
      ∃ t, exec (.sample l e) s = .next t ∧ s.unanswered t ∧ clear.unmoved t)
    ∧ ((s.lane l).state = .locked → (s.lane l).accN = some n → (s.lane l).grade = some g →
      ((s.lane l).accCount + 1 < n →
        ∃ t, exec (.sample l e) s = .next t ∧ s.unanswered t
          ∧ (clear.modLane l fun x => { x with
              accSum := x.accSum + e.toNat, accCount := x.accCount + 1
              silenceTimer := some (s.clock.uptimeMs + 1000) }).unmoved t)
      ∧ ((s.lane l).accCount + 1 = n → next ≠ .poor ∨ run < c.k → s.noRise →
        ∃ t, exec (.sample l e) s = .next t ∧ s.unanswered t ∧ t.tables = s.tables
          ∧ t.lane l = { s.lane l with
              accSum := 0, accCount := 0, accN := some c.n, lastAverage := some a, grade := some next
              poorRun := run, silenceTimer := some (s.clock.uptimeMs + 1000) }
          ∧ ∀ k, (s.slot k).lane = some l → (t.slot k).lane = some l ∧ t.laneTold k
            ∧ (t.gate.src[k]).signalOk = decide (next ≠ .poor))
      ∧ (∀ i, (s.lane l).accCount + 1 = n → next = .poor → c.k ≤ run → (s.lane l).carrier = some i →
        ∃ t, exec (.sample l e) s = .next t ∧ s.unanswered t ∧ t.tables = s.tables
          ∧ (∀ m, m ≠ l → (t.lane m).tally = (s.lane m).tally)
          ∧ (t.lane l).tally = ({ s.lane l with lossPoorRun := (s.lane l).lossPoorRun + 1 }).tally
          ∧ (s.noRise → s.loses t l i)))

/-- HOME_RETRY_EXPIRY: a home hold that is not in RETRY is left; in RETRY, with its condition not holding it
becomes INACTIVE and nothing else changes; with the condition holding and an IDLE lane, no lane on the home
carrier and none waiting, it holds that lane, which seeks the home carrier (R54). -/
def Obligations.HomeRetryDecides : Prop :=
  ∀ s : State, s.live →
    ((∀ e, s.arb.home ≠ .retry e) →
      ∃ t, exec .homeRetryExpiry s = .next t ∧ s.unanswered t ∧ s.unmoved t)
    ∧ (∀ e, s.arb.home = .retry e →
      (s.mode ≠ .standby ∨ s.homeCarrier = none ∨ (∃ l, (s.lane l).state = .locked) →
        ∃ t, exec .homeRetryExpiry s = .next t ∧ s.unanswered t
          ∧ ({ s with arb := { s.arb with home := .inactive } }).unmoved t)
      ∧ (∀ c l, s.mode = .standby → s.homeCarrier = some c → (∀ m, (s.lane m).state ≠ .locked) →
        s.servingLane c = none → s.idleLane = some l → s.arb.queue = [] → s.noRise →
        ∃ t, exec .homeRetryExpiry s = .next t ∧ s.unanswered t ∧ t.tables = s.tables
          ∧ t.arb.home = .holding l ∧ (t.lane l).state = .seeking ∧ (t.lane l).carrier = some c
          ∧ (t.lane l).order = (s.lane l).order + 1))

/-- Which lane is preempted for a claimant of a priority: an enabled lane in use of lower priority, such that no
other such lane has a lower priority, or the same with fewer users, or the same of both and a higher number; and
none only where no such lane is (R48, R50). -/
def Obligations.PreemptionChooses : Prop :=
  ∀ (s : State) (p : Nat),
    (∀ l, s.victim p = some l → ∃ q, s.lanePriority l = some q ∧ q < p ∧ (s.lane l).state ≠ .off
      ∧ ∀ m r, m ≠ l → s.lanePriority m = some r → r < p → (s.lane m).state ≠ .off →
        q < r ∨ (q = r ∧ s.userCount l < s.userCount m)
          ∨ (q = r ∧ s.userCount l = s.userCount m ∧ m < l))
    ∧ (s.victim p = none → ∀ m r, s.lanePriority m = some r → (s.lane m).state ≠ .off → p ≤ r)

/-! ### Chapter 3: cells and keys -/

/-- CELL: on a lane not LOCKED it is discarded and not counted; of the reserved phase, or scrambled on a control entry,
it is counted as a phase discard; matching no entry, as unmatched; a control cell whose record fails its check, or is of
a kind that does not belong to its tag, is counted under STREAM_RECORD_BAD. A component cell is counted in its entry,
and goes to every slot of the entry's slot set: a break of sequence counts a gap for each. A CLEAR cell passes; one of
PHASE_A or PHASE_B is descrambled under the key of its phase, setting the last decoded cell, or without that key counted
as unkeyed, which after 2,000 ms starves a PRESENTING slot into HELD(KEY_LOST); on a CLEAR service it is a phase
discard. What passes leaves the part for each slot PRESENTING, slots ascending (R19, R37, R58, R59, R61, R70, R71; the
order among the slots is that of the set, which the model keeps ascending, log 31). -/
def Obligations.CellsRouted : Prop :=
  ∀ (l : Fin 3) (bytes : List Byte) (s : State), s.live →
    let c := viewCellBytes bytes
    let counts := s.router.cells[l]
    let phased := s.modRouter fun r =>
      { r with cells := r.cells.set l { counts with phaseDiscard := counts.phaseDiscard + 1 } }
    let entry := keyFind Filter.key (l.val * 1024 + c.tag) s.router.filters
    ((s.lane l).state ≠ .locked →
      ∃ t, exec (.cell l bytes) s = .next t ∧ s.unanswered t ∧ s.unmoved t)
    ∧ ((s.lane l).state = .locked →
      (c.phase = .reserved →
        ∃ t, exec (.cell l bytes) s = .next t ∧ s.unanswered t ∧ phased.unmoved t)
      ∧ (c.phase ≠ .reserved → entry = none →
        ∃ t, exec (.cell l bytes) s = .next t ∧ s.unanswered t
          ∧ (s.modRouter fun r =>
              { r with cells := r.cells.set l { counts with unmatched := counts.unmatched + 1 } }).unmoved t)
      ∧ (∀ f x, c.phase = .a ∨ c.phase = .b → entry = some f → f.dest = .consumer x →
        ∃ t, exec (.cell l bytes) s = .next t ∧ s.unanswered t ∧ phased.unmoved t)
      ∧ (∀ f x, c.phase = .clear → entry = some f → f.dest = .consumer x →
        recordOf c.payload = none ∨ (∃ r, recordOf c.payload = some r ∧ r.kind ∉ x.kinds) →
        ∃ t, exec (.cell l bytes) s = .next t ∧ s.discards t)
      ∧ (∀ f ks, c.phase ≠ .reserved → entry = some f → f.dest = .slots ks → ks.Nodup →
        let gap := f.last.any fun x => c.seq ≠ x + 1
        let discards := (ks.filter fun k => c.phase ≠ .clear && s.isClear k).length
        ∃ t, exec (.cell l bytes) s = .next t ∧ s.unanswered t
          ∧ (∀ k, t.slot k = if k ∈ ks then s.slotAfter k c gap else s.slot k)
          ∧ t.out = ks.flatMap (fun k => s.cellOutOf k c)
          ∧ t.noted = ({ s with slots := t.slots, router := { s.router with
              filters := keyPut Filter.key { f with last := some c.seq } s.router.filters
              cells := s.router.cells.set l { counts with
                phaseDiscard := counts.phaseDiscard + BitVec.ofNat 32 discards } } }).noted
          ∧ t.faults = s.faults
          ∧ ((∃ k ∈ ks, s.starves k c = true) → t.link.flags[0] = true)
          ∧ ((∀ k ∈ ks, s.starves k c = false) → s.link.onward t.link ∧ t.link.ports = s.link.ports)))

/-- A cell that brings a KEY record does what takeKeyRecord does, where no ARMED entry awaits a rise, and one whose
record fails R62 is counted under STREAM_RECORD_BAD (R61, R62). A KEY record that passes R62: with no slot that
qualifies it is counted as unclaimed, and one that cannot be opened as refused. Opened, it is checked for each slot that
qualifies, whatever the others do: met, on the basis that the table of R84 gives, ENTITLED is 1 and PREVIEW follows the
basis, and its word is stored if it is newer than the key of its phase, and else ignored; not met, ENTITLED is 0, the
record is held for the slot, and a slot in ACQUIRING stands in HELD(NOT_ENTITLED). A held record re-examined is
discarded if it cannot be opened now (that no check is made of it then is the model's choice, log 33), stays if it is
still not met, and otherwise goes, its word taken as if it had just come (R65, R66, R68, R69, R84). A met control word
against the key of its phase, by the difference of their periods modulo 65,536: stored where there is no key or the
difference is 1 to 32,767, a duplicate at 0, stale above. Storing sets the key and discards the held refused record of
the phase; the other phase is not changed (R67). KEY_TIMEOUT: a slot ACQUIRING with its key timer running, and in no
place of the wait queue, enters FAULTED(KEY_TIMEOUT) without its lane, its filter entries and its keys, its SLOT notice
raised and the gate array told; in any other state, or with the timer stopped, nothing happens (R16, R149). -/
def Obligations.KeysComparedAndTimed : Prop :=
  (∀ (l : Fin 3) (bytes record : List Byte) (s : State), s.live → s.brings l bytes 1 record →
      (∀ r, keyRecordOf record = some r → s.noRise → ∃ t, exec (.cell l bytes) s = .next t ∧ s.unanswered t
        ∧ ({ takeKeyRecord l r s with auxRises := [] }).likewise t)
      ∧ (keyRecordOf record = none → ∃ t, exec (.cell l bytes) s = .next t ∧ s.discards t))
  ∧ (∀ (l : Fin 3) (r : KeyRecord) (s : State),
      let t := takeKeyRecord l r s
      let counts := s.access.counters
      ((∀ k, ¬ s.takesKeys l r.sid k) → t = { s with access := { s.access with
        counters := { counts with unclaimed := counts.unclaimed + 1 } } })
      ∧ ((∃ k, s.takesKeys l r.sid k) → s.openWord r.wrapped = none → t = { s with access := { s.access with
        counters := { counts with openRefused := counts.openRefused + 1 } } })
      ∧ (∀ k w, s.takesKeys l r.sid k → s.openWord r.wrapped = some w →
        let d := (s.slot k).desc
        (s.unmet k r.req → (t.gate.src[k]).entitled = false ∧ (t.gate.src[k]).preview = (s.gate.src[k]).preview
          ∧ (t.slot k).desc = d.setHeld r.phase (some { record := r, lane := l })
          ∧ ((s.slot k).state = .acquiring → (t.slot k).state = .held ∧ (t.slot k).reason = .notEntitled
            ∧ (t.slot k).keyTimer = none))
        ∧ (∀ b, s.meets k r.req b → (t.gate.src[k]).entitled = true ∧ (t.gate.src[k]).preview = b.isPreview
          ∧ (d.outdated r → (t.slot k).desc = d.stores r b w) ∧ (¬ d.outdated r → (t.slot k).desc = d))))
  ∧ (∀ (k : Fin 5) (p : Phase) (s : State),
      let t := reexaminePhase k p s
      let d := (s.slot k).desc
      (d.held p = none → t = s)
      ∧ (∀ h, d.held p = some h → h.record.phase = p →
        (s.openWord h.record.wrapped = none → (t.slot k).desc = d.setHeld p none ∧ t.gate = s.gate
          ∧ t.access.counters = { s.access.counters with openRefused := s.access.counters.openRefused + 1 })
        ∧ (∀ w, s.openWord h.record.wrapped = some w →
          (s.unmet k h.record.req → (t.slot k).desc = d ∧ (t.gate.src[k]).entitled = false
            ∧ t.access.counters = { s.access.counters with notMet := s.access.counters.notMet + 1 })
          ∧ (∀ b, s.meets k h.record.req b →
            (t.gate.src[k]).entitled = true ∧ (t.gate.src[k]).preview = b.isPreview
              ∧ (d.outdated h.record → (t.slot k).desc = d.stores h.record b w)
              ∧ (¬ d.outdated h.record → (t.slot k).desc = d.setHeld p none)))))
  ∧ (∀ (k : Fin 5) (r : KeyRecord) (b : Basis) (w : KeyWord) (s : State),
      let t := takeWord k r b w s
      let stored := (t.slot k).desc.key r.phase
          = some { period := r.period, req := r.req, basis := b, word := w }
        ∧ (t.slot k).desc.held r.phase = none
        ∧ t.access.counters = { s.access.counters with stored := s.access.counters.stored + 1 }
        ∧ (∀ p, p ≠ r.phase → (t.slot k).desc.key p = (s.slot k).desc.key p
          ∧ (t.slot k).desc.held p = (s.slot k).desc.held p)
      ((s.slot k).desc.key r.phase = none → stored)
      ∧ (∀ old, (s.slot k).desc.key r.phase = some old →
        let d := (r.period.toNat + 65536 - old.period.toNat) % 65536
        (1 ≤ d → d ≤ 32767 → stored)
        ∧ (d = 0 → t = { s with access := { s.access with
            counters := { s.access.counters with duplicate := s.access.counters.duplicate + 1 } } })
        ∧ (32768 ≤ d → t = { s with access := { s.access with
            counters := { s.access.counters with stale := s.access.counters.stale + 1 } } })))
  ∧ (∀ (k : Fin 5) (s : State), s.live →
        ((s.slot k).state ≠ .acquiring ∨ (s.slot k).keyTimer = none →
          ∃ t, exec (.keyTimeout k) s = .next t ∧ s.unanswered t ∧ s.unmoved t)
        ∧ ((s.slot k).state = .acquiring → (s.slot k).keyTimer.isSome →
          (∀ w ∈ s.arb.queue, w.claimant ≠ .slot k) → s.noRise →
          ∃ t, exec (.keyTimeout k) s = .next t ∧ s.unanswered t ∧ t.tables = s.tables
            ∧ (t.slot k).state = .faulted ∧ (t.slot k).reason = .keyTimeout ∧ (t.slot k).lane = none
            ∧ (t.slot k).service = (s.slot k).service ∧ t.link.flags[0] = true ∧ t.cleared k ∧ t.laneTold k))

/-! ### Chapter 4: purchases and entitlements -/

/-- A BUY that passes every check is committed at once: balance, lifetime debit, next sequence number, the record at the
tail of the list, the grant to the event's end, the profile's spend, and the purchase unit of the record's place handed
over. The reply waits for that unit to be written. The other profiles and what the work of a time boundary does not
touch are left (R92 to R94, R97, R178). At the commit each held refused record is examined anew, and each key on the
event's preview comes to rest on the grant, where each held record is one of its own phase, as O59 has it (R69, R86, log
34). The first of the checks of R93 that fails decides the reply of a BUY that is refused, with the charge for
CAP_EXCEEDED and CREDIT_SHORT and else the status alone; nothing changes but what the PIN checker counts at check 7. A
correct PIN ends a run of failures there, and what follows, a commit or a refusal, starts from the state that this
leaves (an event is read as clean or absent; R90 to R93, R129). -/
def Obligations.BuyCommits : Prop :=
  (∀ (tag profile slot : Byte) (pin : Pin) (p : Fin 8) (k : Option (Fin 5)) (e : GuideEvent) (price now : Nat)
    (sid : Half) (eid : Word) (s : State), s.ready → profile.toNat = p.val →
    (∀ j, k = some j → slot.toNat = j.val) → (k = none → slot = 255) →
    pin.d0.toNat ≤ 9 → pin.d1.toNat ≤ 9 → pin.d2.toNat ≤ 9 → pin.d3.toNat ≤ 9 →
    ((s.profile p).buyNeedsPin = true → pin = (s.profile p).pin) →
    sid ≠ 0 → e.sid = sid.toNat → e.eid = eid.toNat → e.price = some price → s.sells p e now →
    s.affords p (s.charge e price now) →
    let u := s.checked (s.profile p).buyNeedsPin p pin
    let c := s.charge e price now
    let old := s.access.purse
    let place : UnitId := .purchase ⟨old.nextSeq % 64, Nat.mod_lt _ (by decide)⟩
    ∃ t, exec (.buy tag profile pin slot sid eid) s = .next t
      ∧ s.answered t 0x38 tag (reply .ok (u16 c ++ u32 old.nextSeq ++ i32 (old.balance - c)
          ++ u32 (min 16777215 ((s.profile p).spend + c))))
      ∧ t.access.purse = { old with
          balance := old.balance - c, debit := old.debit + BitVec.ofNat 32 c, nextSeq := old.nextSeq + 1 }
      ∧ t.access.purchases = s.access.purchases
          ++ [{ seq := old.nextSeq, eid := e.eid, sid := e.sid, profile := p, slot := k, charge := c, time := now }]
      ∧ t.access.grants = keyPut (·.eid) { eid := e.eid, sid := e.sid, endTime := e.start + 60 * e.duration }
          s.access.grants
      ∧ t.access.tiers = s.access.tiers
      ∧ t.profile p = { u.profile p with spend := min 16777215 ((s.profile p).spend + c) }
      ∧ (∀ q, q ≠ p → t.profile q = s.profile q)
      ∧ t.store.last = u.store.last + 1 ∧ t.store.holds place t.store.last = true
      ∧ (∃ r, t.link.replies.getLast? = some r ∧ r.hold = .written place t.store.last)
      ∧ t.link.flags[2] = true ∧ t.clock = s.clock ∧ t.ground = s.ground
      ∧ (s.noRise → (∀ j, (s.slot j).desc.placed) → s.regranted t e.eid))
  ∧ (∀ (tag profile slot : Byte) (pin : Pin) (sid : Half) (eid : Word) (s : State), s.ready →
    let buy := Instr.buy tag profile pin slot sid eid
    let stopsFrom (u : State) (body : List Byte) :=
      ∃ t, exec buy s = .next t ∧ u.unmoved t ∧ s.answered t 0x38 tag body
    let stops := stopsFrom s
    (¬ BuyInRange profile slot pin sid → stops (reply .badField))
    ∧ (∀ p : Fin 8, profile.toNat = p.val → BuyInRange profile slot pin sid →
      (∀ st, firstFails (s.buyerChecks p) st → stops (reply st))
      ∧ ((∀ c ∈ s.buyerChecks p, ¬ c.1) →
        ((s.profile p).buyNeedsPin = true → s.pinStops buy 0x38 tag p pin)
        ∧ (((s.profile p).buyNeedsPin = true → pin = (s.profile p).pin) →
          let stopsNow := stopsFrom (s.checked (s.profile p).buyNeedsPin p pin)
          ((∀ x ∈ s.guide.places, ¬ (x.ev.sid = sid.toNat ∧ x.ev.eid = eid.toNat)) → stopsNow (reply .noSuch))
          ∧ (∀ e now, s.listed e → e.sid = sid.toNat → e.eid = eid.toNat → s.now? = some now →
            let c := s.charge e (e.price.getD 0) now
            (∀ st, firstFails (s.eventChecks e now) st → stopsNow (reply st))
            ∧ ((∀ x ∈ s.eventChecks e now, ¬ x.1) →
              ∀ st, firstFails (s.chargeChecks p c) st → stopsNow (reply st (u16 c))))))))

/-- The charge of R91: the full price without the prorate flag or up to the grace; otherwise the price's share
of the remaining time, rounded up, no lower than the floor and no higher than the price. QUOTE: its fields, whose
verdict is that of the first of the checks 2 to 15 of R93 that fails, check 7 passed over, or OK; the charge is present
once check 10 has passed. The event is read as clean or absent. It changes nothing (R92, R93, R96; the widths of the
fields that the manual does not give, the credit limit's two bytes among them, are the model's, log 10). -/
def Obligations.ChargesQuoted : Prop :=
  (∀ (start duration price grace floor now : Nat) (prorate : Bool), now < start + 60 * duration →
      let c := chargeOf start duration price prorate grace floor now
      (prorate = false ∨ (now : Int) - start ≤ 60 * (grace : Int) → c = price)
      ∧ (prorate = true → (now : Int) - start > 60 * (grace : Int) →
        ∃ q, c = min price (max q floor)
          ∧ price * (start + 60 * duration - now) ≤ q * (60 * duration)
          ∧ q * (60 * duration) < price * (start + 60 * duration - now) + 60 * duration)
      ∧ c ≤ price)
  ∧ (∀ (tag profile : Byte) (sid : Half) (eid : Word) (s : State), s.ready →
        (8 ≤ profile.toNat ∨ sid = 0 →
          ∃ t, exec (.quote tag profile sid eid) s = .next t ∧ s.refused t 0x39 tag .badField)
        ∧ (∀ p : Fin 8, profile.toNat = p.val → sid ≠ 0 →
          let r := s.profile p
          let body (st : Status) (c : Option Nat) := reply .ok ([st.code] ++ flag (r.inUse && r.buyNeedsPin)
            ++ opt 2 u16 c ++ u32 r.spend ++ opt 2 u16 r.cap ++ i32 s.access.purse.balance
            ++ u16 s.access.purse.limit)
          let gives (st : Status) (c : Option Nat) := ∃ t, exec (.quote tag profile sid eid) s = .next t
            ∧ s.unmoved t ∧ s.answered t 0x39 tag (body st c)
          (∀ st, firstFails (s.buyerChecks p) st → gives st none)
          ∧ ((∀ c ∈ s.buyerChecks p, ¬ c.1) →
            ((∀ x ∈ s.guide.places, ¬ (x.ev.sid = sid.toNat ∧ x.ev.eid = eid.toNat)) → gives .noSuch none)
            ∧ (∀ e now, s.listed e → e.sid = sid.toNat → e.eid = eid.toNat → s.now? = some now →
              let c := s.charge e (e.price.getD 0) now
              let checks := s.eventChecks e now ++ s.chargeChecks p c
              (∀ st, firstFails checks st →
                gives st (if st = .notPurchasable ∨ st = .notOnAir then none else some c))
              ∧ ((∀ x ∈ checks, ¬ x.1) → gives .ok (some c))))))

/-- A cell that brings an ENTITLEMENT record does what takeEntitlement does, where no ARMED entry awaits a rise; with
the device key unusable it is counted alone, and else one that fails its fields is counted under STREAM_RECORD_BAD (R61,
R77, R78). Such a record with the device key usable and its fields passed, in the order of R78: for another box, not
verified, or stale, it is counted and ignored; otherwise its issue number is taken and its effect made: the credit held
at 8,388,607 with the excess counted, the limit no lower than the debt, a tier set, and with it in place every held
refused record re-examined, each being one of its own phase, as O59 has it (R69, R80, R86), a tier cleared with the keys
that rest on it if it counted as held, the terms replaced with a later spend period clearing the spends, or the records
up to a number released and their charges collected. The access unit stands handed over last, behind the tier table or
the profile units that the record touched (R178), with the ACCESS notice (R78 to R83; that a period with no start
recorded clears the spends is the model's choice, log 35). -/
def Obligations.EntitlementApplied : Prop :=
  (∀ (r : EntRecord) (x : EntKind) (s : State), s.restarting = false → s.access.deviceKey ≠ .unusable →
      r.kind = some x →
      let t := takeEntitlement r s
      let old := s.access.purse
      let counted (f : AccessCounters → AccessCounters) :=
        t = { s with access := { s.access with counters := f s.access.counters } }
      (r.address ≠ Config.boxAddress → counted fun c => { c with entOtherAddress := c.entOtherAddress + 1 })
      ∧ (r.address = Config.boxAddress → r.authentic = false →
        counted fun c => { c with entAuthFailed := c.entAuthFailed + 1 })
      ∧ (r.address = Config.boxAddress → r.authentic = true → r.issue ≤ old.lastIssue →
        counted fun c => { c with entStale := c.entStale + 1 })
      ∧ (r.address = Config.boxAddress → r.authentic = true → old.lastIssue < r.issue →
        t.access.counters.entApplied = s.access.counters.entApplied + 1 ∧ t.link.flags[2] = true
        ∧ t.store.holds .access t.store.last = true
        ∧ (∀ n, x = .creditAdd n →
          t.access.purse = { old with
            lastIssue := r.issue, balance := min 8388607 (old.balance + n)
            clipped := old.clipped + BitVec.ofNat 32 (old.balance + n - 8388607).toNat }
          ∧ t.store.last = s.store.last + 1)
        ∧ (∀ n, x = .limitSet n → t.access.purse = { old with
            lastIssue := r.issue, limit := if old.balance < 0 ∧ (n : Int) < -old.balance then
              (-old.balance).toNat else n }
          ∧ t.store.last = s.store.last + 1)
        ∧ (∀ i e, x = .tierSet i e → t.access.tiers = s.access.tiers.set i { held := true, expiry := e }
          ∧ t.access.purse = { old with lastIssue := r.issue }
          ∧ t.store.last = s.store.last + 2 ∧ t.store.holds .tiers (s.store.last + 1) = true
          ∧ ((∀ k, (s.slot k).desc.placed) →
            let u := { s with access := { s.access with tiers := s.access.tiers.set i { held := true, expiry := e } } }
            u.reexamined t (fun k p => (s.slot k).desc.key p) ∧ ∀ k, u.retold t k))
        ∧ (∀ i, x = .tierClear i → t.access.tiers = s.access.tiers.set i { held := false, expiry := none }
          ∧ t.access.purse = { old with lastIssue := r.issue }
          ∧ t.store.last = s.store.last + 2 ∧ t.store.holds .tiers (s.store.last + 1) = true
          ∧ ∀ k, (s.slot k).desc.restsOn (.tier i) = true →
            ((s.access.tiers[i]).held = true → (∀ e now, (s.access.tiers[i]).expiry = some e → s.now? = some now →
                now < e) → (t.slot k).desc.keyA = none ∧ (t.slot k).desc.keyB = none)
            ∧ ((s.access.tiers[i]).held = false ∨ (∃ e now, (s.access.tiers[i]).expiry = some e ∧ s.now? = some now
                ∧ e ≤ now) → (t.slot k).desc = (s.slot k).desc))
        ∧ (∀ grace floor period anchor, x = .termsSet grace floor period anchor →
          let terms : Purse := { old with
            lastIssue := r.issue, grace := grace, floor := floor, period := period, anchor := anchor }
          (s.now? = none → t.access.purse = terms ∧ (∀ p, t.profile p = s.profile p)
            ∧ t.store.last = s.store.last + 1)
          ∧ (∀ (now : Nat) (n : Int), s.now? = some now →
            let len : Int := period * 86400
            let start : Int := anchor + n * len
            start ≤ now → now < start + len → t.access.purse = { terms with periodStart := some start }
              ∧ ((∀ b, old.periodStart = some b → b < start) → (∀ p, t.profile p = { s.profile p with spend := 0 })
                ∧ ∀ p, 0 < (s.profile p).spend → ∃ m, t.store.holds (.profile p) m = true)
              ∧ (∀ b, old.periodStart = some b → start ≤ b → (∀ p, t.profile p = s.profile p)
                ∧ t.store.last = s.store.last + 1)))
        ∧ (∀ n, x = .release n → t.store.last = s.store.last + 1
          ∧ t.access.purchases = s.access.purchases.filter (fun q => n < q.seq)
          ∧ t.access.purse = { old with
              lastIssue := r.issue
              collected := old.collected + chargeSum (s.access.purchases.filter fun q => q.seq ≤ n)
              releasedThrough := max old.releasedThrough (min n (old.nextSeq - 1)) })))
  ∧ ∀ (l : Fin 3) (bytes record : List Byte) (s : State), s.live → s.brings l bytes 2 record →
    let counts := s.access.counters
    (s.noRise → ∃ t, exec (.cell l bytes) s = .next t ∧ s.unanswered t
      ∧ ({ takeEntitlement (entRecordOf record) s with auxRises := [] }).likewise t)
    ∧ (s.access.deviceKey = .unusable → ∃ t, exec (.cell l bytes) s = .next t ∧ s.unanswered t
      ∧ ({ s with access := { s.access with
            counters := { counts with entKeyOff := counts.entKeyOff + 1 } } }).unmoved t)
    ∧ (s.access.deviceKey ≠ .unusable → (entRecordOf record).kind = none →
      ∃ t, exec (.cell l bytes) s = .next t ∧ s.discards t)

/-- The expiries of the access unit. TIER_EXPIRY clears every tier expired now and GRANT_EXPIRY removes every grant
300 s past its end, and a slot whose key rests on one that goes loses both keys; each raises the ACCESS notice. The
table as it then stands is handed over to the store, once. With the clock not known, or none expired, nothing happens.
What the work of a time boundary does not touch is left (R75, R76, R85). PREVIEW_END: a slot with a key on a preview
window that is over loses both keys and, if it was ACQUIRING, PRESENTING or HELD, stands HELD(NOT_ENTITLED); otherwise
nothing happens (R18, R85). -/
def Obligations.RightsExpire : Prop :=
  (∀ s : State, s.live →
      (s.now? = none → (∃ t, exec .tierExpiry s = .next t ∧ s.unanswered t ∧ s.unmoved t)
        ∧ ∃ t, exec .grantExpiry s = .next t ∧ s.unanswered t ∧ s.unmoved t)
      ∧ (∀ now, s.now? = some now →
        let gone (x : Tier) := x.held && x.expiry.any (· ≤ now)
        ((∀ i : Fin 32, gone s.access.tiers[i] = false) →
          ∃ t, exec .tierExpiry s = .next t ∧ s.unanswered t ∧ s.unmoved t)
        ∧ ((∃ i : Fin 32, gone s.access.tiers[i] = true) → s.noRise →
          ∃ t, exec .tierExpiry s = .next t ∧ s.unanswered t ∧ t.ground = s.ground ∧ t.link.flags[2] = true
            ∧ t.access.tiers = s.access.tiers.map (fun x => if gone x then {} else x)
            ∧ t.access.purse = s.access.purse ∧ t.access.grants = s.access.grants
            ∧ t.store = s.store.handOver s.clock.uptimeMs .tiers (.tiers t.access.tiers)
            ∧ ∀ k i, gone s.access.tiers[(i : Fin 32)] = true → (s.slot k).desc.restsOn (.tier i) = true →
              (t.slot k).desc.keyA = none ∧ (t.slot k).desc.keyB = none)
        ∧ ((∀ g ∈ s.access.grants, now < g.endTime + 300) →
          ∃ t, exec .grantExpiry s = .next t ∧ s.unanswered t ∧ s.unmoved t)
        ∧ ((∃ g ∈ s.access.grants, g.endTime + 300 ≤ now) → s.noRise →
          ∃ t, exec .grantExpiry s = .next t ∧ s.unanswered t ∧ t.ground = s.ground ∧ t.link.flags[2] = true
            ∧ t.access.grants = s.access.grants.filter (fun g => now < g.endTime + 300)
            ∧ t.access.purse = s.access.purse ∧ t.access.tiers = s.access.tiers
            ∧ t.store = s.store.handOver s.clock.uptimeMs .grants (.grants t.access.grants)
            ∧ ∀ k, ∀ g ∈ s.access.grants, g.endTime + 300 ≤ now → (s.slot k).desc.restsOn (.grant g.eid) = true →
              (t.slot k).desc.keyA = none ∧ (t.slot k).desc.keyB = none)))
  ∧ (∀ (k : Fin 5) (s : State), s.live →
        (s.previewOver k = false → ∃ t, exec (.previewEnd k) s = .next t ∧ s.unanswered t ∧ s.unmoved t)
        ∧ (s.previewOver k = true → s.noRise →
          ∃ t, exec (.previewEnd k) s = .next t ∧ s.unanswered t ∧ t.tables = s.tables
            ∧ (t.slot k).desc.keyA = none ∧ (t.slot k).desc.keyB = none
            ∧ (t.slot k).desc.heldA = (s.slot k).desc.heldA ∧ (t.slot k).desc.heldB = (s.slot k).desc.heldB
            ∧ ((s.slot k).state ∈ [SlotState.acquiring, .presenting, .held] →
              (t.slot k).state = .held ∧ (t.slot k).reason = .notEntitled)))

/-- PERIOD_ROLLOVER: with the clock known, the period that contains now starts at the anchor and a whole number
of periods; if its start is later than the recorded one, or none is recorded, every spend becomes 0 and the
start is recorded; otherwise nothing happens. The unit of each profile whose spend was above 0 is handed over, and the
access unit's for the start; that the profiles' come first, in ascending order, is the model's choice (log 31). The
rest of the purse and of each profile is left (R89). -/
def Obligations.PeriodRollsOver : Prop :=
  ∀ (s : State) (now : Nat) (n : Int), s.live → s.now? = some now →
    let len : Int := s.access.purse.period * 86400
    let start : Int := s.access.purse.anchor + n * len
    let moved := allProfiles.filter fun p => (s.profile p).spend != 0
    start ≤ now → now < start + len →
    ((∀ r, s.access.purse.periodStart = some r → r < start) →
      ∃ t, exec .periodRollover s = .next t ∧ s.unanswered t ∧ t.ground = s.ground
        ∧ t.parental = { s.parental with
            profiles := s.parental.profiles.map fun x => { x with spend := 0 }
            dirty := Vector.ofFn fun p => s.parental.dirty[p] && (s.profile p).spend == 0 }
        ∧ t.access = { s.access with purse := { s.access.purse with periodStart := some start } }
        ∧ t.store = (moved.foldl (fun st p => st.handOver s.clock.uptimeMs (.profile p)
            (.profile { s.profile p with spend := 0 })) s.store).handOver s.clock.uptimeMs .access
              (.access t.access.purse))
    ∧ (∀ r, s.access.purse.periodStart = some r → start ≤ r →
      ∃ t, exec .periodRollover s = .next t ∧ s.unanswered t ∧ s.unmoved t)

/-- The law of the purchase list: the lifetime debit is the collected sum and the charges of the records in the
list, modulo 2^32. Every step keeps it so, an idle millisecond among them, but POWER_ON's, ENTER_BOOT's and an idle
one while RESTART waits, which assemble the state from the store (R83). -/
def Obligations.PurchasesBalance : Prop :=
  ∀ s t : State, ¬ s.assembles → step s = .next t → s.access.balanced → t.access.balanced

/-! ### Chapter 5: the guide and the sweep -/

/-- GUIDE_PUT: a body out of range is refused; an event past by an hour, with the clock known, and one of a version held
readable are counted alone. Otherwise the event is placed: another version of it and the entries of its service that
overlap it go, counted as a replacement and as displaced, and it takes the lowest empty place. With nothing to remove
and every place occupied, it takes the place of the latest-starting entry if it starts before it, counted as an
eviction, and else is dropped and answered FULL. In each case nothing else changes, where no slot and no schedule entry
watches what comes or goes (R105, R106, R110; the reply's numbers and widths are the model's, log 10). Where they do,
the places of the services concerned being clean and no ARMED entry awaiting a rise: every slot on such a service has
its current event found afresh, with RATING_OK by the rating in force; the entries tied to what goes become orphans; the
ARMED and RUNNING entries tied to the event follow its new times; and then each of them, ascending, does what
SCHEDULE_TRIGGER or RUN_END does with it (R26, R27, R107, R165; the order is the model's, logs 27 and 31). A GUIDE_EVENT
record does what the GUIDE_PUT of its event does, and one that fails its fields is counted under STREAM_RECORD_BAD
(R104). -/
def Obligations.GuidePutPlaces : Prop :=
  (∀ (tag : Byte) (r : GuideReq) (s : State), s.ready →
    let tail (e : GuideEvent) (gone : List Nat) (out : Option (Nat × Nat)) := u8 e.rating ++ u8 e.preview
      ++ u16 gone.length ++ opt 6 (fun p : Nat × Nat => u16 p.1 ++ u32 p.2) out ++ (gone.take 16).flatMap u32
    let counts := s.guide.counters
    (¬ r.inRange → ∃ t, exec (.guidePut tag r) s = .next t ∧ s.refused t 0x28 tag .badField)
    ∧ (∀ e, r.inRange → r.writes e →
      let puts (body : List Byte) (g : Guide) := ∃ t, exec (.guidePut tag r) s = .next t
        ∧ s.answered t 0x28 tag body ∧ ({ s with guide := g }).unmoved t
      let tells (body : List Byte) (g : Guide) (gone : List GuideEvent) := s.noRise →
        (∀ x ∈ e :: gone, s.intact x.sid) → ∃ t t0 u, exec (.guidePut tag r) s = .next t ∧ s.answered t 0x28 tag body
          ∧ s.placedInto t0 e gone g ∧ execAll (s.followers e) t0 = .next u ∧ t.likewise u
      (∀ now, s.now? = some now → e.stop + 3600 ≤ now →
        puts (reply .ok (u8 3 ++ tail e [] none)) { s.guide with counters := { counts with past := counts.past + 1 } })
      ∧ ((∀ now, s.now? = some now → now < e.stop + 3600) →
        (∀ old, s.listed old → old.sid = e.sid → old.eid = e.eid → old.version = e.version →
          puts (reply .ok (u8 2 ++ tail e [] none))
            { s.guide with counters := { counts with duplicate := counts.duplicate + 1 } })
        ∧ (∀ n, s.guide.ok → (∀ p ∈ s.guide.places, p.ev.sid = e.sid → p.ev.eid = e.eid →
            p.ev.version ≠ e.version ∧ p.disturbed = 0) →
          let gone := (s.guide.ofService e.sid).filter e.ousts
          let hit := (gone.map (·.ev.eid)).filter (· ≠ e.eid)
          let replaces := gone.any fun p => p.ev.eid == e.eid
          let kept := s.guide.places.filter fun p => !e.ousts p
          let g := { s.guide with
            places := keyPut (·.num) { num := n, ev := e } kept
            scrub := s.guide.scrub.filter fun x => kept.any fun p => p.num == x.place
            counters := { counts with
              inserted := counts.inserted + 1
              replaced := if replaces then counts.replaced + 1 else counts.replaced
              displaced := counts.displaced + BitVec.ofNat 32 hit.length } }
          let body := reply .ok (u8 (if replaces then 1 else 0) ++ tail e hit none)
          n < 2048 → (∀ p ∈ kept, p.num ≠ n) → (∀ m, m < n → ∃ p ∈ kept, p.num = m) →
          (s.unwatched e.sid (e.eid :: hit) → puts body g) ∧ tells body g (gone.map (·.ev)))
        ∧ (∀ x, s.guide.ok → (∀ p ∈ s.guide.places, e.apart p.ev) → 2048 ≤ s.guide.places.length →
          s.guide.last x →
          (x.ev.start ≤ e.start → puts (reply .full)
            { s.guide with counters := { counts with droppedFull := counts.droppedFull + 1 } })
          ∧ (e.start < x.ev.start →
            let g := { s.guide with
              places := keyPut (·.num) { num := x.num, ev := e } s.guide.places
              scrub := s.guide.scrub.filter fun y => y.place != x.num
              counters := { counts with
                inserted := counts.inserted + 1, evicted := counts.evicted + 1 } }
            let body := reply .ok (u8 0 ++ tail e [] (some (x.ev.sid, x.ev.eid)))
            (s.unwatched e.sid [e.eid] → s.unwatched x.ev.sid [x.ev.eid] → puts body g) ∧ tells body g [x.ev])))))
  ∧ (∀ (l : Fin 3) (bytes record : List Byte) (s : State), s.ready → s.brings l bytes 3 record →
    (∀ e, guideEventOf record = some e → ∀ (tag : Byte) (r : GuideReq), r.inRange → r.writes e →
      ∃ t u, exec (.cell l bytes) s = .next t ∧ exec (.guidePut tag r) s = .next u ∧ s.unanswered t ∧ t.likewise u)
    ∧ (guideEventOf record = none → ∃ t, exec (.cell l bytes) s = .next t ∧ s.discards t))

/-- GUIDE_DROP: service 0 is refused, an event that is not held gives NO_SUCH, and one that is held is in the
store no more, whatever its bits. It is counted as CANCELLED, the schedule's entries tied to it become orphans, and
every other entry that can be read stays; with no slot on the service nothing else changes. What tuning and stopping
do not touch is left (R103, R108, R111, R165). A GUIDE_CANCEL record
does what the GUIDE_DROP of its event does, counts one that names nothing as unknown, and is counted under
STREAM_RECORD_BAD if it fails its fields (R104, R108). PRUNE with the
clock known leaves no entry whose end is 3,600 s past and takes no other that can be read, counting as PRUNED each
that can; with the clock not known it does nothing (R103, R109). Entries have at least a minute's length. -/
def Obligations.GuideEntriesLeave : Prop :=
  (∀ (tag : Byte) (sid : Half) (eid : Word) (s : State), s.ready →
      (sid = 0 → ∃ t, exec (.guideDrop tag sid eid) s = .next t ∧ s.refused t 0x29 tag .badField)
      ∧ (sid ≠ 0 → (∀ p ∈ s.guide.places, ¬(p.ev.sid = sid.toNat ∧ p.ev.eid = eid.toNat)) →
        ∃ t, exec (.guideDrop tag sid eid) s = .next t ∧ s.refused t 0x29 tag .noSuch)
      ∧ (sid ≠ 0 → s.guide.ok → (∃ p ∈ s.guide.places, p.ev.sid = sid.toNat ∧ p.ev.eid = eid.toNat) →
        ∃ t, exec (.guideDrop tag sid eid) s = .next t ∧ s.answered t 0x29 tag [0] ∧ t.tables = s.tables
          ∧ t.guide.places.Sublist s.guide.places
          ∧ (∀ p ∈ t.guide.places, ¬(p.ev.sid = sid.toNat ∧ p.ev.eid = eid.toNat))
          ∧ (∀ p ∈ s.guide.places, ¬(p.ev.sid = sid.toNat ∧ p.ev.eid = eid.toNat) → p.disturbed ≤ 1 →
            p ∈ t.guide.places)
          ∧ t.guide.counters.cancelled = s.guide.counters.cancelled + 1
          ∧ (∀ i, (s.entry i).tiedTo sid.toNat eid.toNat = true → (t.entry i).orphan = true)
          ∧ (s.slotsOf sid.toNat = [] → ∀ x ∈ s.guide.places, x.ev.sid = sid.toNat → x.ev.eid = eid.toNat →
            ({ s with
                guide := { s.guide with
                  places := s.guide.places.filter fun p => p.num != x.num
                  scrub := s.guide.scrub.filter fun r => r.place != x.num
                  counters := { s.guide.counters with cancelled := s.guide.counters.cancelled + 1 } }
                schedule := s.schedule.map fun (e : Entry) =>
                  if e.tiedTo sid.toNat eid.toNat then { e with orphan := true } else e }).unmoved t)))
  ∧ (∀ (l : Fin 3) (bytes record : List Byte) (s : State), s.ready → s.brings l bytes 4 record →
      (∀ sid eid, cancelOf record = some (sid, eid) →
        ((∀ p ∈ s.guide.places, ¬(p.ev.sid = sid ∧ p.ev.eid = eid)) →
          ∃ t, exec (.cell l bytes) s = .next t ∧ s.unanswered t
            ∧ ({ s with guide := { s.guide with counters := { s.guide.counters with
                cancelUnknown := s.guide.counters.cancelUnknown + 1 } } }).unmoved t)
        ∧ ((∃ p ∈ s.guide.places, p.ev.sid = sid ∧ p.ev.eid = eid) →
          ∀ tag : Byte, ∃ t u, exec (.cell l bytes) s = .next t
            ∧ exec (.guideDrop tag (BitVec.ofNat 16 sid) (BitVec.ofNat 32 eid)) s = .next u
            ∧ s.unanswered t ∧ t.likewise u))
      ∧ (cancelOf record = none → ∃ t, exec (.cell l bytes) s = .next t ∧ s.discards t))
  ∧ (∀ s : State, s.live →
        (s.now? = none → ∃ t, exec .prune s = .next t ∧ s.unanswered t ∧ s.unmoved t)
        ∧ (∀ now, s.now? = some now → s.guide.ok → (∀ p ∈ s.guide.places, 1 ≤ p.ev.duration) →
          ∃ t, exec .prune s = .next t ∧ s.unanswered t ∧ t.tables = s.tables
            ∧ t.guide.places.Sublist s.guide.places
            ∧ (∀ p ∈ t.guide.places, now < p.ev.stop + 3600)
            ∧ (∀ p ∈ s.guide.places, now < p.ev.stop + 3600 → p.disturbed ≤ 1 → p ∈ t.guide.places)
            ∧ ((∀ p ∈ s.guide.places, p.disturbed ≤ 1) → t.guide.counters = { s.guide.counters with
                pruned := s.guide.counters.pruned + BitVec.ofNat 32
                  (s.guide.places.filter fun p => p.ev.stop + 3600 ≤ now).length })))

/-- GUIDE_LIST and GUIDE_NOW, the guide store in its form: of the entries of the service that can be read, those that
end after the time, in order of start, up to the count held in 1 to 32; and, with the clock known, the one on air and
the first to start after now, else neither. Places are read in order up to the last entry returned. Clean reads change
nothing. A CORRECTED read is counted, and the first posts a rewrite, or a second error is recorded; a place past
correction is left out of the reply, its entry goes, counted, recorded and noticed, and the slots on the service have
their current events found afresh (R26, R107, R112 to R115, R122, R123). Service 0 is refused. (That GUIDE_LIST gives
its numbers of entries in one byte each is the model's, log 10, and that GUIDE_NOW reads the present entry first, log
45.) -/
def Obligations.GuideQueriesReport : Prop :=
  ∀ (tag count : Byte) (sid : Half) (fromTime : Word) (s : State), s.ready →
    let g := s.guide
    let held := g.ofService sid.toNat
    let n := max 1 (min 32 count.toNat)
    let wanted := held.filter fun p => fromTime.toNat < p.ev.stop
    let found := (wanted.filter g.usable).take n
    let given (ps : List Place) := opt 24 GuideEvent.bytes ((ps.find? g.usable).map (·.ev))
    (sid = 0 → (∃ t, exec (.guideList tag sid fromTime count) s = .next t ∧ s.refused t 0x2A tag .badField)
      ∧ ∃ t, exec (.guideNow tag sid) s = .next t ∧ s.refused t 0x2B tag .badField)
    ∧ (sid ≠ 0 → s.now? = none → ∃ t, exec (.guideNow tag sid) s = .next t ∧ s.unmoved t
      ∧ s.answered t 0x2B tag (reply .ok (List.replicate 51 0)))
    ∧ (sid ≠ 0 → g.ok →
      (∃ t, exec (.guideList tag sid fromTime count) s = .next t ∧ s.queried t sid.toNat (g.readsFor n wanted)
        ∧ s.answered t 0x2A tag (reply .ok (u8 n ++ u8 found.length ++ found.flatMap fun p => p.ev.bytes)))
      ∧ (∀ now, s.now? = some now →
        let onAir := held.filter fun p => p.ev.start ≤ now && now < p.ev.stop
        let later := held.filter fun p => now < p.ev.start
        ∃ t, exec (.guideNow tag sid) s = .next t
          ∧ s.queried t sid.toNat (g.readsFor 1 onAir ++ g.readsFor 1 later)
          ∧ s.answered t 0x2B tag (reply .ok ([1] ++ given onAir ++ given later))))

/-- PATROL_VISIT moves on one place, to come again 50 ms later. At an empty or a clean place, and at the place
whose rewrite is pending, which the register serves, it does nothing else. A single disturbed bit is counted, and a
rewrite posted to complete in 1 ms, or, with one pending at another place, a second error recorded. An entry past
correction goes, recorded as lost with the place visited and the count raised by 1 for it and for each entry that its
removal found lost too, and noticed (R112 to R116). SCRUB_REWRITE writes the pending place with the register's
contents, its bits no longer disturbed, and empties the register; with none pending nothing happens. A place disturbed
by a single bit is thus made clean and changed in nothing else (R113). -/
def Obligations.PatrolAndScrub : Prop :=
  (∀ s : State, s.live → s.guide.ok →
      let n := s.guide.patrol
      let on := { s with guide := { s.guide with
        patrol := (n + 1) % 2048, patrolDue := some (s.clock.uptimeMs + 50) } }
      let counted := some (s.faults.guideCorrected.getD 0 + 1)
      ((∀ p ∈ s.guide.places, p.num ≠ n ∨ p.disturbed = 0) →
        ∃ t, exec .patrolVisit s = .next t ∧ s.unanswered t ∧ on.unmoved t)
      ∧ (∀ r, s.guide.scrub = some r → r.place = n →
        ∃ t, exec .patrolVisit s = .next t ∧ s.unanswered t ∧ on.unmoved t)
      ∧ (∀ p ∈ s.guide.places, p.num = n → p.disturbed = 1 →
        (s.guide.scrub = none → ∃ t, exec .patrolVisit s = .next t ∧ s.unanswered t
          ∧ t.faults = { s.faults with guideCorrected := counted } ∧ t.link.flags[9] = true
          ∧ t.noted = ({ on with guide := { on.guide with
              scrub := some { place := n, contents := p.ev, due := s.clock.uptimeMs + 1 } } }).noted)
        ∧ (∀ r, s.guide.scrub = some r → r.place ≠ n → ∃ t, exec .patrolVisit s = .next t ∧ s.unanswered t
          ∧ t.faults = { s.faults with guideCorrected := counted, guideSecond := some n }
          ∧ t.link.flags[9] = true ∧ t.noted = on.noted))
      ∧ (∀ p ∈ s.guide.places, p.num = n → 2 ≤ p.disturbed →
        (∀ r, s.guide.scrub = some r → r.place ≠ n) → ∃ t, exec .patrolVisit s = .next t ∧ s.unanswered t
          ∧ t.tables = s.tables ∧ t.guide.places.Sublist s.guide.places
          ∧ (∀ q ∈ t.guide.places, q.num ≠ n) ∧ t.link.flags[3] = true ∧ t.link.flags[9] = true
          ∧ (s.noRise → t.faults.guideLost = some (n, (s.faults.guideLost.map (·.2)).getD 0
              + BitVec.ofNat 32 (s.guide.places.length - t.guide.places.length))
            ∧ t.guide.counters.damaged = s.guide.counters.damaged
              + BitVec.ofNat 32 (s.guide.places.length - t.guide.places.length))))
  ∧ (∀ s : State, s.live →
        (s.guide.scrub = none → ∃ t, exec .scrubRewrite s = .next t ∧ s.unanswered t ∧ s.unmoved t)
        ∧ (∀ r, s.guide.scrub = some r → s.guide.ok → ∃ t, exec .scrubRewrite s = .next t ∧ s.unanswered t
          ∧ ({ s with guide := { s.guide with
                scrub := none
                places := s.guide.places.map fun p : Place =>
                  if p.num = r.place then { p with disturbed := 0 } else p } }).unmoved t))

/-- SWEEP_SET: its fields; off from OFF nothing changes; off from PAUSED the sweep is OFF and no more noted as
waiting; off from DWELL it leaves its lane too, which is IDLE if it had no other user and stays with its slots
otherwise. With off, its record keeps the mode and dwell it had while the reply gives the request's: the model's
choice (log 44). On in CONFIG it waits for the mode at the lowest guide-bearing carrier; on in SERVICE it visits that
carrier with the lowest IDLE lane, none being served or waiting, or pauses where there is none; on while on, mode and
dwell change, STEP stops the timer, and CYCLE starts one where a visit has locked or all is served (R117, R118, R120).
SWEEP_STEP is refused in CONFIG and changes nothing with the sweep OFF. From DWELL, SWEEP_STEP and the timer's expiry
alike leave the lane and visit the next guide-bearing carrier, a wrap counted, with the lowest lane then IDLE, or
pause where there is none; from PAUSED, SWEEP_STEP, and from ALL_SERVED the expiry too, visit the next carrier in
reach. That the lane left is released before the next claim, and so may be the lowest IDLE one, is the model's choice
(log 23). SWEEP_TIMER_EXPIRY does nothing with the timer stopped (R118, R119, R121; the codes in the replies are the
model's, log 10). -/
def Obligations.SweepMoves : Prop :=
  (∀ (tag on mode : Byte) (dwell : Half) (s : State), s.ready →
      let d := max 5 (min 120 dwell.toNat)
      let said (t : State) : Prop := s.answered t 0x2D tag (reply .ok ([on, mode] ++ u16 d ++ t.sweep.whereBytes))
      let off : Sweep := { s.sweep with
        on := false, state := .off, position := none, lane := none, timer := none, pause := none, servedRun := 0 }
      (2 ≤ on.toNat ∨ 2 ≤ mode.toNat →
        ∃ t, exec (.sweepSet tag on mode dwell) s = .next t ∧ s.refused t 0x2D tag .badField)
      ∧ (mode.toNat ≤ 1 →
        (on = 0 → s.sweep.on = false → ∃ t, exec (.sweepSet tag on mode dwell) s = .next t ∧ s.unmoved t ∧ said t)
        ∧ (on = 0 → s.sweep.on = true → s.sweep.state = .paused → s.mode = .service → s.arb.home = .inactive →
          ∃ t, exec (.sweepSet tag on mode dwell) s = .next t ∧ said t
            ∧ ({ s with sweep := off, arb := { s.arb with sweepWaiting := false } }).unmoved t)
        ∧ (∀ l, on = 0 → s.sweep.on = true → s.sweep.state = .dwell → s.sweep.lane = some l →
          (s.lane l).state = .seeking ∨ (s.lane l).state = .locked → s.mode = .service → s.arb.home = .inactive →
          s.arb.queue = [] → s.arb.sweepWaiting = false →
          ∃ t, exec (.sweepSet tag on mode dwell) s = .next t ∧ said t ∧ t.sweep = off ∧ t.arb = s.arb
            ∧ t.slots = s.slots ∧ (∀ m, m ≠ l → t.lane m = s.lane m) ∧ t.tables = s.tables
            ∧ (s.slotUsers l ≠ [] → t.lane l = s.lane l)
            ∧ (s.slotUsers l = [] → (t.lane l).state = .idle ∧ (t.lane l).carrier = none))
        ∧ (on = 1 → s.sweep.on = false → s.mode = .config →
          ∃ t, exec (.sweepSet tag on mode dwell) s = .next t ∧ said t
            ∧ ({ s with
                  sweep := { s.sweep with
                    on := true, step := mode == 1, dwell := d, state := .paused, pause := some .mode, lane := none
                    position := s.guideCarriers.head? }
                  arb := { s.arb with sweepWaiting := false } }).unmoved t)
        ∧ (∀ c l, on = 1 → s.sweep.on = false → s.guideCarriers.head? = some c → s.sweepServed c l →
          ∃ t, exec (.sweepSet tag on mode dwell) s = .next t ∧ said t
            ∧ s.visits t c l ∧ t.sweep.on = true ∧ t.sweep.dwell = d ∧ t.tables = s.tables)
        ∧ (on = 1 → s.sweep.on = false → s.guideCarriers = [] → s.mode = .service → s.arb.home = .inactive →
          ∃ t, exec (.sweepSet tag on mode dwell) s = .next t ∧ said t
            ∧ ({ s with
                  sweep := { s.sweep with
                    on := true, step := mode == 1, dwell := d, state := .paused, pause := some .noCarrier
                    lane := none, position := none }
                  arb := { s.arb with sweepWaiting := false } }).unmoved t)
        ∧ (on = 1 → s.sweep.on = true →
          let waits := (s.sweep.state = .dwell ∧ s.sweep.lockedVisit = true)
            ∨ (s.sweep.state = .paused ∧ s.sweep.pause = some .allServed)
          ∃ t w, exec (.sweepSet tag on mode dwell) s = .next t ∧ said t
            ∧ ({ s with sweep := { s.sweep with step := mode == 1, dwell := d, timer := w } }).unmoved t
            ∧ (mode = 1 → s.sweep.step = false → w = none)
            ∧ (mode = 0 → s.sweep.step = true → waits → w = some (s.clock.uptimeMs + 1000 * d))
            ∧ ((mode = 1 ↔ s.sweep.step = true) ∨ (mode = 0 ∧ ¬ waits) → w = s.sweep.timer))))
  ∧ (∀ (tag : Byte) (s : State),
        let step := Instr.sweepStep tag
        let said (t : State) : Prop := s.answered t 0x2E tag (reply .ok t.sweep.whereBytes)
        (s.ready → s.mode = .config → ∃ t, exec step s = .next t ∧ s.refused t 0x2E tag .notInMode)
        ∧ (s.ready → s.mode ≠ .config → s.sweep.state = .off ∨ (s.sweep.state = .paused
            ∧ s.sweep.pause = some .noCarrier) → ∃ t, exec step s = .next t ∧ s.unmoved t ∧ said t)
        ∧ (s.live → s.sweep.timer = none →
          ∃ t, exec .sweepTimerExpiry s = .next t ∧ s.unanswered t ∧ s.unmoved t)
        ∧ (∀ q c, s.sweepMay q c →
          let visited (t : State) : Prop := s.movedOn t q c
            ∧ (∀ m, s.idleOnceLeft m → (∀ l, s.idleOnceLeft l → m ≤ l) → s.visits t c m)
            ∧ ((∀ m, ¬ s.idleOnceLeft m) → t.sweep.state = .paused ∧ t.sweep.pause = some .noLane
              ∧ t.sweep.lane = none ∧ t.arb.sweepWaiting = true)
          (s.ready → ∃ t, exec step s = .next t ∧ said t ∧ visited t)
          ∧ (s.live → s.sweep.timer.isSome → ∃ t, exec .sweepTimerExpiry s = .next t ∧ s.unanswered t ∧ visited t))
        ∧ (∀ q c l cause, s.sweep.state = .paused → s.sweep.pause = some cause →
          cause ∈ [PauseCause.noLane, .preempted, .allServed] → s.sweep.position = some q →
          (s.guideCarriers.filter (q < ·)).head? = some c → s.sweepServed c l →
          (s.ready → ∃ t, exec step s = .next t ∧ said t
            ∧ s.visits t c l ∧ t.sweep.timer = none ∧ t.tables = s.tables)
          ∧ (s.live → cause = .allServed → s.sweep.timer.isSome → ∃ t, exec .sweepTimerExpiry s = .next t
            ∧ s.unanswered t ∧ s.visits t c l ∧ t.sweep.timer = none ∧ t.tables = s.tables)))

/-! ### Chapter 6: the parental unit -/

/-- UNLOCK and RELOCK with their checks. An unlock sets the slot's record for 60 times the minutes taken and UNLOCKED;
RELOCK, in every mode but BOOT and without a PIN, refuses a slot number above 2, ends a record with UNLOCKED at 0 and
the ended flag at 1, and changes nothing where there is none, with the flag at 0. An unlock starts from the
state that its PIN check leaves, in which a run of failures is over (R129). Where no ARMED entry awaits a rise, nothing
else of the parental unit changes, no other source does, and what movement does not touch is left (R137 to R139). -/
def Obligations.UnlocksSetAndEnd : Prop :=
  ∀ (tag slot minutes : Byte) (pin : Pin) (s : State),
    let checked := s.checked true 0 pin
    let unlocked (b : State) (v : Fin 3) (u : Option Unlock) : Parental :=
      { b.parental with unlocks := s.parental.unlocks.set v u }
    s.ready →
      (3 ≤ slot.toNat ∨ ¬ pin.ok →
        ∃ t, exec (.unlock tag slot pin minutes) s = .next t ∧ s.refused t 0x0C tag .badField)
      ∧ (3 ≤ slot.toNat → ∃ t, exec (.relock tag slot) s = .next t ∧ s.refused t 0x0D tag .badField)
      ∧ (∀ v : Fin 3, slot.toNat = v.val → pin.ok → s.mode ≠ .service →
        ∃ t, exec (.unlock tag slot pin minutes) s = .next t ∧ s.refused t 0x0C tag .notInMode)
      ∧ (∀ v : Fin 3, slot.toNat = v.val → pin.ok → s.mode = .service → (s.slot (viewSlot v)).state = .free →
        ∃ t, exec (.unlock tag slot pin minutes) s = .next t ∧ s.refused t 0x0C tag .noSuch)
      ∧ (∀ (v : Fin 3) (sid : Nat), slot.toNat = v.val → pin.ok → s.mode = .service →
        (s.slot (viewSlot v)).state ≠ .free → (s.slot (viewSlot v)).service = some sid →
        s.pinStops (.unlock tag slot pin minutes) 0x0C tag 0 pin
        ∧ (s.master pin → s.noRise →
          let m := max 1 (min 240 minutes.toNat)
          ∃ t, exec (.unlock tag slot pin minutes) s = .next t
            ∧ s.answered t 0x0C tag (reply .ok (u8 v.val ++ u16 sid ++ u8 m))
            ∧ t.parental = unlocked checked v (some { sid, remaining := 60 * m }) ∧ s.unlockTold t v true
            ∧ t.tables = checked.tables))
      ∧ (∀ v : Fin 3, slot.toNat = v.val →
        (s.parental.unlocks[v] = none → ∃ t, exec (.relock tag slot) s = .next t ∧ s.unmoved t
          ∧ s.answered t 0x0D tag (reply .ok (u8 v.val ++ [0])))
        ∧ (∀ u, s.parental.unlocks[v] = some u → ∃ t, exec (.relock tag slot) s = .next t
          ∧ s.answered t 0x0D tag (reply .ok (u8 v.val ++ [1]))
          ∧ t.parental.unlocks[v] = none ∧ (t.gate.src[viewSlot v]).unlocked = false ∧ t.tables = s.tables
          ∧ (s.noRise → t.parental = unlocked s v none ∧ s.unlockTold t v false)))

/-- The PIN checker: LOCKED in a lockout, and nothing examined; a correct PIN passes and ends a run of failures;
a wrong one is DENIED and counted, the fifth starting a lockout of 900 s with the PROFILE notice. Each change of
the count hands the profile unit over. LOCKOUT_END, at the last second of a lockout, ends it and hands the unit
over (R128 to R130), and UNLOCK_END ends an unlock record whose last second is over, with UNLOCKED at 0 (R138). That
LOCKOUT_END acts at exactly 1 second left, and UNLOCK_END at 1 at most, is the model's choice (log 4). -/
def Obligations.PinsChecked : Prop :=
  ∀ (p : Fin 8) (pin : Pin) (s : State),
    let r := s.profile p
    let out := (pinCheck p pin s).1
    let t := (pinCheck p pin s).2
    let written (x : Profile) : State := { s with
      parental := { s.parental with
        profiles := s.parental.profiles.set p x, dirty := s.parental.dirty.set p false }
      store := s.store.handOver s.clock.uptimeMs (.profile p) (.profile x) }
    (0 < r.lockout → out = some .locked ∧ t = s)
    ∧ (r.lockout = 0 → pin = r.pin → out = none
      ∧ (r.failures = 0 → t = s) ∧ (0 < r.failures → t = written { r with failures := 0 }))
    ∧ (r.lockout = 0 → pin ≠ r.pin → r.failures < 4 →
      out = some .denied ∧ t = written { r with failures := r.failures + 1 })
    ∧ (r.lockout = 0 → pin ≠ r.pin → 4 ≤ r.failures → out = some .denied
      ∧ t.noted = (written { r with failures := 0, lockout := 900 }).noted
      ∧ (s.restarting = false → ∃ c,
        t.link = s.link.raise .profile (some p.val) (u8 ProfileCause.lockout.code ++ c)))
    ∧ (s.live → (r.lockout = 1 → ∃ t, exec (.lockoutEnd p) s = .next t ∧ s.unanswered t
        ∧ (written { r with lockout := 0 }).unmoved t)
      ∧ (r.lockout ≠ 1 → ∃ t, exec (.lockoutEnd p) s = .next t ∧ s.unanswered t ∧ s.unmoved t))
    ∧ (s.live → ∀ v : Fin 3,
      ((∀ u, s.parental.unlocks[v] = some u → 1 < u.remaining) →
        ∃ t, exec (.unlockEnd v) s = .next t ∧ s.unanswered t ∧ s.unmoved t)
      ∧ (∀ u, s.parental.unlocks[v] = some u → u.remaining ≤ 1 → s.noRise →
        ∃ t, exec (.unlockEnd v) s = .next t ∧ s.unanswered t ∧ s.unlockTold t v false ∧ t.tables = s.tables
          ∧ t.parental = { s.parental with unlocks := s.parental.unlocks.set v none }))

/-- PROFILE_SELECT and HOUSEHOLD_SET with their checks. A profile selected is the slot's at once, whose unlock
record ends and whose conditions are those of the profile. New settings are recorded, with the household unit
handed over, and each FREE view slot takes its default at once, the others keeping theirs; a day-start hour that
stays resets no allowance. Either starts from the state that its PIN check leaves, where it makes one, in which a run of
failures is over (R129, R140, R143). -/
def Obligations.ProfilesTaken : Prop :=
  ∀ (tag slot profile : Byte) (pin : Pin) (d : Vector Byte 3) (hour : Byte) (s : State), s.ready →
    let select := Instr.profileSelect tag slot profile pin
    let house := Instr.householdSet tag pin hour d[0] d[1] d[2]
    (3 ≤ slot.toNat ∨ 8 ≤ profile.toNat ∨ ¬ pin.ok → ∃ t, exec select s = .next t ∧ s.refused t 0x0A tag .badField)
    ∧ (∀ (v : Fin 3) (p : Fin 8), slot.toNat = v.val → profile.toNat = p.val → pin.ok →
      let x := s.profile p
      (x.inUse = false → ∃ t, exec select s = .next t ∧ s.refused t 0x0A tag .noSuch)
      ∧ (x.inUse = true → 0 < x.lockout → ∃ t, exec select s = .next t ∧ s.refused t 0x0A tag .locked)
      ∧ (x.inUse = true → x.pinToSelect = true → s.pinStops select 0x0A tag p pin)
      ∧ (x.inUse = true → x.lockout = 0 → (x.pinToSelect = true → pin = x.pin) → s.noRise →
        let u := s.checked x.pinToSelect p pin
        ∃ t, exec select s = .next t ∧ s.answered t 0x0A tag (reply .ok (u8 v.val ++ u8 p.val))
          ∧ t.tables = (u.modSlot (viewSlot v) fun y => { y with profile := some p }).tables
          ∧ t.parental = { u.parental with unlocks := s.parental.unlocks.set v none } ∧ s.judged t v x))
    ∧ (¬ pin.ok ∨ (∃ i : Fin 3, 8 ≤ d[i].toNat) →
      ∃ t, exec house s = .next t ∧ s.refused t 0x0E tag .badField)
    ∧ (∀ e : Vector (Fin 8) 3, (∀ i : Fin 3, d[i].toNat = e[i].val) → pin.ok →
      ((∃ i : Fin 3, (s.profile e[i]).inUse = false) →
        ∃ t, exec house s = .next t ∧ s.refused t 0x0E tag .noSuch)
      ∧ ((∀ i : Fin 3, (s.profile e[i]).inUse = true) → s.pinStops house 0x0E tag 0 pin)
      ∧ ((∀ i : Fin 3, (s.profile e[i]).inUse = true) → s.master pin → s.noRise →
        let h := min 23 hour.toNat
        let u := s.checked true 0 pin
        ∃ t, exec house s = .next t
          ∧ s.answered t 0x0E tag (reply .ok (u8 h ++ setByte (viewSlots.filter fun v =>
              (s.slot (viewSlot v)).state == .free && (s.slot (viewSlot v)).profile != some e[v])))
          ∧ t.parental.household.dayStart = h ∧ t.parental.household.defaults = e
          ∧ (∀ v : Fin 3, (t.slot (viewSlot v)).profile
            = if (s.slot (viewSlot v)).state = .free then some e[v] else (s.slot (viewSlot v)).profile)
          ∧ t.parental.unlocks = s.parental.unlocks ∧ t.ground = s.ground
          ∧ (h = s.parental.household.dayStart → t.parental = { u.parental with
              household := { s.parental.household with defaults := e } }
            ∧ t.store = u.store.handOver s.clock.uptimeMs .household
                (.household { s.parental.household with defaults := e }))))

/-- PROFILE_PUT with its checks: in use, the record is the request's, its remaining, failures and lockout as R141 has
them, and the conditions of its slots follow; out of use, it holds the format values but its spend, its slots take
their defaults and lose their unlock records, and defaults that named it become 0. The profile unit is handed over,
and the reply names the slots whose profile changed. The write starts from the state that the PIN check leaves, in which
a run of failures of profile 0 is over (R129). What movement does not touch is left. (R141; that the reply gives
the remaining seconds in four bytes is the model's, log 10. Out of use, that the reply gives the ceiling and allowance
of the request, and that the household unit is handed over before the profile's, which thus holds the last number, are
the model's choice, log 46.) -/
def Obligations.ProfilePutWrites : Prop :=
  ∀ (tag : Byte) (r : ProfileReq) (s : State), s.ready →
    (¬ r.inRange → ∃ t, exec (.profilePut tag r) s = .next t ∧ s.refused t 0x08 tag .badField)
    ∧ (r.inRange → s.pinStops (.profilePut tag r) 0x08 tag 0 r.masterPin)
    ∧ (∀ p : Fin 8, r.inRange → r.profile.toNat = p.val → s.master r.masterPin → s.noRise →
      let u := s.checked true 0 r.masterPin
      let viewers := viewSlots.filter fun v => (s.slot (viewSlot v)).profile == some p
      let said (x : Profile) := u8 p.val ++ u8 (min 6 r.ceiling.toNat) ++ opt 4 u32 r.allowanceTaken
        ++ u32 x.remaining
      (∀ x, r.inUse = 1 → r.writes (u.profile p) x → ∃ t, exec (.profilePut tag r) s = .next t
        ∧ s.answered t 0x08 tag (reply .ok (said x ++ [0]))
        ∧ t.parental = { u.parental with
            profiles := u.parental.profiles.set p x, dirty := u.parental.dirty.set p false }
        ∧ t.store = u.store.handOver s.clock.uptimeMs (.profile p) (.profile x)
        ∧ t.tables = ({ s with parental := t.parental, store := t.store }).tables
        ∧ ∀ v ∈ viewers, s.judged t v x)
      ∧ (r.inUse = 0 →
        let x : Profile := { spend := (s.profile p).spend }
        let h : Household := { s.parental.household with
          defaults := s.parental.household.defaults.map fun q => if q = p then 0 else q }
        ∃ t, exec (.profilePut tag r) s = .next t
          ∧ s.answered t 0x08 tag (reply .ok (said x ++ setByte viewers))
          ∧ t.parental = { u.parental with
              profiles := u.parental.profiles.set p x, dirty := u.parental.dirty.set p false, household := h
              unlocks := Vector.ofFn fun v => if v ∈ viewers then none else s.parental.unlocks[v] }
          ∧ (t.store.holds (.profile p) t.store.last = true)
          ∧ (∀ v : Fin 3, (t.slot (viewSlot v)).profile
            = if v ∈ viewers then some h.defaults[v] else (s.slot (viewSlot v)).profile)
          ∧ { t.tables with parental := {}, store := {}, slots := s.tables.slots }
            = { s.tables with parental := {}, store := {} }))

/-- ALLOWANCE_GRANT and ALLOWANCE_OUT. A grant adds its seconds to remaining, up to 86,400, hands the unit over
if remaining changes, and raises ALLOWANCE_LEFT from 0; at the last second that counts remaining falls to 0, the
PROFILE notice is raised and ALLOWANCE_LEFT of the profile's slots falls. Where nothing counts, nothing happens. A
grant starts from the state that its PIN check leaves, in which a run of failures of profile 0 is over (R129, R134,
R135, R142). That a grant that leaves remaining at 86,400 hands no unit over, where the profile has an allowance and
R142 says that the unit is handed over, is the model's choice (log 49). That ALLOWANCE_OUT acts at exactly 1 second
left, and does nothing with more, is the model's choice (log 4), and that the reply gives the remaining seconds in four
bytes is the model's (log 10). -/
def Obligations.AllowanceMoves : Prop :=
  ∀ (tag profile : Byte) (seconds : Word) (pin : Pin) (s : State),
    let written (b : State) (p : Fin 8) (n : Nat) (t : State) : Prop :=
      let x : Profile := { b.profile p with remaining := n }
      t.parental = { b.parental with
        profiles := b.parental.profiles.set p x, dirty := b.parental.dirty.set p false }
      ∧ t.store = b.store.handOver s.clock.uptimeMs (.profile p) (.profile x)
      ∧ t.tables = ({ s with parental := t.parental, store := t.store }).tables
    (s.ready →
      (8 ≤ profile.toNat ∨ ¬ pin.ok →
        ∃ t, exec (.allowanceGrant tag profile seconds pin) s = .next t ∧ s.refused t 0x0B tag .badField)
      ∧ (∀ p : Fin 8, profile.toNat = p.val → pin.ok →
        ((s.profile p).inUse = false →
          ∃ t, exec (.allowanceGrant tag profile seconds pin) s = .next t ∧ s.refused t 0x0B tag .noSuch)
        ∧ ((s.profile p).inUse = true → s.pinStops (.allowanceGrant tag profile seconds pin) 0x0B tag 0 pin)
        ∧ ((s.profile p).inUse = true → s.master pin → s.noRise →
          let n := max 1 (min 86400 seconds.toNat)
          let new := min 86400 ((s.profile p).remaining + n)
          let u := s.checked true 0 pin
          ∃ t, exec (.allowanceGrant tag profile seconds pin) s = .next t
            ∧ s.answered t 0x0B tag (reply .ok (u8 p.val ++ u32 n ++ u32 new))
            ∧ (new = (s.profile p).remaining → u.unmoved t)
            ∧ (new ≠ (s.profile p).remaining → written u p new t)
            ∧ ((s.profile p).remaining = 0 → ∀ v : Fin 3, (s.slot (viewSlot v)).profile = some p →
              (t.gate.src[viewSlot v]).allowanceLeft = true))))
    ∧ (s.live → ∀ p : Fin 8,
      let x := s.profile p
      let counts := x.remaining = 1 ∧ x.inUse = true ∧ x.allowance.isSome = true
        ∧ ∃ v : Fin 3, (s.slot (viewSlot v)).profile = some p ∧ (s.slot (viewSlot v)).state = .presenting
      (¬ counts → ∃ t, exec (.allowanceOut p) s = .next t ∧ s.unanswered t ∧ s.unmoved t)
      ∧ (counts → s.noRise → ∃ t, exec (.allowanceOut p) s = .next t ∧ s.unanswered t
        ∧ written s p 0 t ∧ t.link.flags[4] = true
        ∧ ∀ v : Fin 3, (s.slot (viewSlot v)).profile = some p →
          (t.gate.src[viewSlot v]).allowanceLeft = false))

/-- DAY_START_RESET: with the clock known, the household day that contains now is recorded where none was, and where
it is later than the recorded one, every profile in use with an allowance has its remaining set to it, and no other
changes; otherwise nothing happens. PROFILE_UNIT_WRITE hands over each profile changed since its unit was last, and
changes nothing else (R127, R128, R136). That the row hands them over at once, and in ascending order, is the model's
choice (logs 4 and 31). -/
def Obligations.DaysAndUnits : Prop :=
  ∀ (s : State) (d : Int), s.live →
    let day := s.clock.utc + 60 * s.clock.offset - 3600 * s.parental.household.dayStart
    let recorded : Household := { s.parental.household with day := some d }
    let moved := allProfiles.filter fun p => s.parental.dirty[p]
    (s.clock.known = false → ∃ t, exec .dayStartReset s = .next t ∧ s.unanswered t ∧ s.unmoved t)
    ∧ (s.clock.known = true → 86400 * d ≤ day → day < 86400 * d + 86400 →
      (s.parental.household.day = none → ∃ t, exec .dayStartReset s = .next t ∧ s.unanswered t
        ∧ ({ s with
              parental := { s.parental with household := recorded }
              store := s.store.handOver s.clock.uptimeMs .household (.household recorded) }).unmoved t)
      ∧ (∀ r, s.parental.household.day = some r → d ≤ r →
        ∃ t, exec .dayStartReset s = .next t ∧ s.unanswered t ∧ s.unmoved t)
      ∧ (∀ r, s.parental.household.day = some r → r < d → s.noRise →
        ∃ t, exec .dayStartReset s = .next t ∧ s.unanswered t ∧ t.parental.household = recorded
          ∧ t.store.holds .household t.store.last = true
          ∧ (∀ p, t.profile p = if (s.profile p).inUse then
              { s.profile p with remaining := (s.profile p).allowance.getD (s.profile p).remaining }
            else s.profile p)
          ∧ t.parental.unlocks = s.parental.unlocks
          ∧ t.tables = ({ s with parental := t.parental, store := t.store }).tables))
    ∧ ∃ t, exec .profileUnitWrite s = .next t ∧ s.unanswered t
      ∧ ({ s with
            parental := { s.parental with dirty := Vector.replicate 8 false }
            store := moved.foldl (fun st p =>
              st.handOver s.clock.uptimeMs (.profile p) (.profile (s.profile p))) s.store }).unmoved t

/-! ### Chapter 7: the gate array -/

/-- CELL_PUT and CELL_ENABLE with their checks. A write replaces the programming of a disabled cell and changes
no other thing; enabling a cell gives it the output its inputs give, and disabling it the output 0, with the
programming of every cell and every source kept. A permit cell is disabled outside CONFIG under the master PIN
alone, from the state that its check leaves, in which a run of failures is over (R129). What movement does not touch is
left (R156, R157). -/
def Obligations.CellsWritten : Prop :=
  ∀ (tag cell on : Byte) (r : CellReq) (pin : Pin) (s : State), s.ready →
    let switch := Instr.cellEnable tag cell on pin
    (¬ r.inRange → ∃ t, exec (.cellPut tag r) s = .next t ∧ s.refused t 0x34 tag .badField)
    ∧ (∀ n : Fin 8, r.inRange → r.cell.toNat = n.val →
      ((s.gate.cells[n]).enabled = true →
        ∃ t, exec (.cellPut tag r) s = .next t ∧ s.refused t 0x34 tag .protectedCell)
      ∧ (∀ c, (s.gate.cells[n]).enabled = false → r.writes s.gate.cells[n] c →
        ∃ t, exec (.cellPut tag r) s = .next t ∧ s.answered t 0x34 tag (reply .ok (u8 n.val))
          ∧ ({ s with gate := { s.gate with cells := s.gate.cells.set n c } }).unmoved t))
    ∧ (8 ≤ cell.toNat ∨ 2 ≤ on.toNat ∨ ¬ pin.ok →
      ∃ t, exec switch s = .next t ∧ s.refused t 0x35 tag .badField)
    ∧ (∀ n : Fin 8, cell.toNat = n.val → pin.ok →
      let now := s.gate.cells[n]
      ((on = 1 ∧ now.enabled = true) ∨ (on = 0 ∧ now.enabled = false) → ∃ t, exec switch s = .next t
        ∧ s.unmoved t ∧ s.answered t 0x35 tag (reply .ok (u8 n.val ++ [on] ++ flag now.output)))
      ∧ (on = 0 → now.enabled = true → n.val ≤ 4 → s.mode ≠ .config → s.pinStops switch 0x35 tag 0 pin)
      ∧ (on = 1 → now.enabled = false → s.noRise →
        let g := { s.gate with cells := s.gate.cells.set n { now with enabled := true } }
        ∃ t, exec switch s = .next t
          ∧ s.answered t 0x35 tag (reply .ok (u8 n.val ++ [1] ++ flag (g.eval g.cells[n])))
          ∧ (t.gate.cells[n]).output = g.eval g.cells[n]
          ∧ t.gate.cells.map GateCell.program = g.cells.map GateCell.program
          ∧ t.gate.src = s.gate.src ∧ t.gate.standby = s.gate.standby ∧ t.tables = s.tables)
      ∧ (on = 0 → now.enabled = true → 5 ≤ n.val ∨ s.mode = .config ∨ s.master pin → s.noRise →
        let u := s.checked (n.val ≤ 4 && s.mode != .config) 0 pin
        ∃ t, exec switch s = .next t
          ∧ s.answered t 0x35 tag (reply .ok (u8 n.val ++ [0, 0]))
          ∧ (t.gate.cells[n]).output = false
          ∧ t.gate.cells.map GateCell.program
            = (s.gate.cells.set n { now with enabled := false }).map GateCell.program
          ∧ t.gate.src = s.gate.src ∧ t.gate.standby = s.gate.standby ∧ t.tables = u.tables))

/-- A report to the gate array is taken whole: after it, each enabled cell that reads no FEEDBACK holds the
output its inputs give, as before it; a slot's source has the value reported and no other source changes; the
programming stays (R149 to R151, R158). What the changes of the outputs then do, of a report and of a cell switched on
or off alike: a permit moves its slot between PRESENTING and HELD(PERMIT_OFF), and an auxiliary cell's rises and falls
are counted, told and noticed as its edge mode says (R17, R153, R154). CELL_ENABLE does so, of a permit cell outside CONFIG from the
state that its PIN check leaves (R129, R157). -/
def Obligations.GateFollowsReports : Prop :=
  (∀ (chs : List Change) (s : State), s.gate.ok → s.gate.settled → (gateReport chs s).gate.settled)
  ∧ (∀ (chs : List Change) (s : State),
    (gateReport chs s).gate.cells.map GateCell.program = s.gate.cells.map GateCell.program)
  ∧ (∀ (k : Fin 5) (src : Source) (on : Bool) (s : State),
    (gateReport [.slot k src on] s).gate.src = s.gate.src.set k ((s.gate.src[k]).put src on)
    ∧ (gateReport [.slot k src on] s).gate.standby = s.gate.standby)
  ∧ (∀ (chs : List Change) (n : Fin 8) (s : State), s.restarting = false →
    s.gateActs (gateReport chs s) ∧ s.gateActs (enableCell n s) ∧ s.gateActs (disableCell n s))
  ∧ (∀ (tag cell : Byte) (pin : Pin) (n : Fin 8) (s : State), s.ready → s.noRise → cell.toNat = n.val → pin.ok →
    let does (on : Byte) (u : State) := ∃ t, exec (.cellEnable tag cell on pin) s = .next t
      ∧ ({ u with auxRises := [] }).likewise t ∧ t.link.flags = u.link.flags
    ((s.gate.cells[n]).enabled = false → does 1 (enableCell n s))
    ∧ ((s.gate.cells[n]).enabled = true → 5 ≤ n.val ∨ s.mode = .config ∨ s.master pin →
      does 0 (disableCell n (s.checked (n.val ≤ 4 && s.mode != .config) 0 pin))))

/-! ### Chapter 8: the schedule unit -/

/-- SCHEDULE_PUT with its checks, in their order, for every trigger with every action. Put before its trigger time, with
the clock not known, or on a rise, an entry is ARMED with the times R160 gives, and nothing else changes. Put due, it is
evaluated at once: the part does what SCHEDULE_TRIGGER of the entry so written does, and the reply reports the entry as
it then stands. SCHEDULE_DROP with its checks: the entry becomes EMPTY, and a slot held for its run is stopped (R160,
R161, R167, R168). The numbers of states and outcomes in the replies, and which of their fields have a present flag, are
the model's (log 10), and a trigger time below 0 is sent modulo 2^32, as is an end above it (log 24). A guide entry is
read as clean or absent. -/
def Obligations.ScheduleTable : Prop :=
  ∀ (tag entry : Byte) (n : Fin 24) (s : State), s.ready →
    let put (g : TrigReq) (a : ActReq) := Instr.schedulePut tag entry g a
    let refused (g : TrigReq) (a : ActReq) (st : Status) :=
      ∃ t, exec (put g a) s = .next t ∧ s.refused t 0x18 tag st
    let said (e : Entry) (lead span : Option Nat) := reply .ok (u8 n.val ++ u8 e.state.code ++ opt 1 u8 e.outcome
      ++ opt 2 u16 lead ++ opt 2 u16 span ++ opt 4 i32 e.triggerTime ++ opt 4 u32 e.endTime ++ flag e.orphan)
    let writes (g : TrigReq) (a : ActReq) (e : Entry) (lead span : Option Nat) :=
      ((∀ now time, s.now? = some now → e.triggerTime = some time → (now : Int) < time) →
        ∃ t, exec (put g a) s = .next t ∧ s.answered t 0x18 tag (said e lead span)
          ∧ ({ s with schedule := s.schedule.set n e }).unmoved t)
      ∧ (∀ now time, s.now? = some now → e.triggerTime = some time → time ≤ (now : Int) → s.noRise →
        ∃ t u, exec (put g a) s = .next t
          ∧ exec (.scheduleTrigger n) { s with schedule := s.schedule.set n e } = .next u
          ∧ s.answered t 0x18 tag (said (u.entry n) lead span) ∧ t.likewise u ∧ t.link.flags = u.link.flags)
    (∀ g a, 24 ≤ entry.toNat ∨ (∀ trig act, TrigTaken g trig → ¬ ActTaken a trig act) → refused g a .badField)
    ∧ (∀ g a trig act, entry.toNat = n.val → TrigTaken g trig → ActTaken a trig act →
      ((∃ sid, act.names sid ∧ keyFind (·.sid) sid s.services = none) → refused g a .noSuch)
      ∧ ((∀ sid, act.names sid → (keyFind (·.sid) sid s.services).isSome) →
        (∀ time : Nat, trig = .atTime time →
          ((s.entry n).state = .running → refused g a .conflict)
          ∧ ((s.entry n).state ≠ .running → writes g a
            { state := .armed, trigger := trig, action := act, triggerTime := some time, endTime := act.span }
            none none))
        ∧ (∀ sid eid lead, trig = .atEvent sid eid lead →
          ((∀ p ∈ s.guide.places, ¬ (p.ev.sid = sid ∧ p.ev.eid = eid)) → refused g a .noSuch)
          ∧ (∀ e : GuideEvent, s.listed e → e.sid = sid → e.eid = eid →
            ((s.entry n).state = .running → refused g a .conflict)
            ∧ ((s.entry n).state ≠ .running → writes g a
              { state := .armed, trigger := trig, action := act, lastStart := some e.start, lastEnd := some e.stop
                triggerTime := some (e.start - lead), endTime := act.span.map (e.stop + ·) }
              (some lead) act.span)))
        ∧ (∀ c, trig = .auxRise c →
          ((s.entry n).state = .running → refused g a .conflict)
          ∧ ((s.entry n).state ≠ .running → writes g a { state := .armed, trigger := trig, action := act }
            none act.span))))
    ∧ (24 ≤ entry.toNat → ∃ t, exec (.scheduleDrop tag entry) s = .next t ∧ s.refused t 0x19 tag .badField)
    ∧ (entry.toNat = n.val →
      let x := s.entry n
      let freed := s.schedule.set n {}
      (x.state = .empty → ∃ t, exec (.scheduleDrop tag entry) s = .next t ∧ s.refused t 0x19 tag .noSuch)
      ∧ (x.state ≠ .empty → (x.state = .running → ∀ j sid m, x.action = .record j sid m →
          (s.slot j).origin ≠ .schedule n) →
        ∃ t, exec (.scheduleDrop tag entry) s = .next t
          ∧ s.answered t 0x19 tag (reply .ok (u8 n.val ++ u8 x.state.code ++ [0]))
          ∧ ({ s with schedule := freed }).unmoved t)
      ∧ (∀ j sid m, x.state = .running → x.action = .record j sid m → (s.slot j).origin = .schedule n → s.noRise →
        ∃ t, exec (.scheduleDrop tag entry) s = .next t
          ∧ s.answered t 0x19 tag (reply .ok (u8 n.val ++ [2, 1]))
          ∧ t.entry n = {} ∧ (t.slot j).state = .free ∧ (t.slot j).reason = .stopped
          ∧ (t.slot j).origin = .user ∧ t.tables = ({ s with schedule := freed }).tables))

/-- SCHEDULE_TRIGGER. Before its trigger time, or with the clock not known, or out of ARMED, an entry is left. Due: a
reminder acts; a wake acts, and in STANDBY does what a MODE_SET to SERVICE does; a view tune in SERVICE tunes slot 0 and
leaves it to the host, and is missed if the TUNE is refused; any of the three is missed 60 s late, and a wake in CONFIG
or a view tune out of SERVICE is missed too. A recording whose end is past is missed, one in CONFIG waits, and one in
SERVICE or STANDBY fires: missed if another run has the slot; otherwise RUNNING, its slot TUNING for it on an IDLE lane
at once, or taken over if it holds the service, or left if the service is gone, with 30 s to the retry. Each but
the waiting raises the SCHEDULE notice (R9, R10, R161 to R163). What a TUNE reads of the guide can raise an entry's
orphan flag, and that alone (R26, R115, R165). The rises of auxiliary cells are taken in order, and each fires every
entry ARMED on its cell in ascending number, by the entry's action and the mode as it stands when its turn comes (R154,
R166). That the rises are taken once the effect that made them has run out, those that a firing makes in the next round,
and that a reply is made up before them, so that CELL_ENABLE reports the output its cell rose to although a firing may
lower it again, is the model's choice (log 7). It is so of the rises that LOCK, LANE_UNLOCK, UNLOCK, RELOCK, UNLOCK_END,
MODE_SET and CELL_ENABLE make. -/
def Obligations.TriggersFire : Prop :=
  (∀ (n : Fin 24) (s : State), s.live →
    let x := s.entry n
    let runs : Entry := { x with state := .running, interruptions := 0, retry := none }
    let does (t : State) := exec (.scheduleTrigger n) s = .next t ∧ s.unanswered t
    let turned (e : Entry) : Prop := ∃ t, does t ∧ s.turned t n e
    let missed (c : MissCause) := turned { x with state := .missed, missed := some c }
    let becomes (t : State) (e : Entry) := t.entry n = e ∧ t.link.flags[5] = true ∧ t.tables = s.tables
    let tuned (t : State) (e : Entry) := s.entryAs t n e ∧ t.link.flags[5] = true ∧ t.tables = s.tables
    (x.state ≠ .armed ∨ s.now? = none ∨ x.triggerTime = none
        ∨ (∃ now time, s.now? = some now ∧ x.triggerTime = some time ∧ (now : Int) < time) →
      ∃ t, does t ∧ s.unmoved t)
    ∧ (∀ (now : Nat) (time : Int), x.state = .armed → s.now? = some now → x.triggerTime = some time → time ≤ now →
      let late := 60 < (now : Int) - time
      (x.action = .remind → ¬ late → turned { x with state := .done })
      ∧ (x.action = .remind ∨ x.action = .wake ∨ (∃ sid, x.action = .viewTune sid) → late → missed .late)
      ∧ (x.action = .wake → ¬ late → (s.mode = .config → missed .mode)
        ∧ (s.mode = .service → turned { x with state := .done })
        ∧ (s.mode = .standby → s.noRise → ∃ t, does t ∧ becomes t { x with state := .done }
          ∧ t.mode = .service ∧ t.gate.standby = false ∧ t.link.flags[8] = true
          ∧ ∀ tag, s.link.replies.length < 8 → ∃ u, exec (.modeSet tag 2) s = .next u
            ∧ ({ t with schedule := u.schedule }).likewise u ∧ ∀ i, i ≠ n → t.entry i = u.entry i))
      ∧ (∀ sid, x.action = .viewTune sid → ¬ late → s.mode ≠ .service → missed .mode)
      ∧ (∀ sid, x.action = .viewTune sid → ¬ late → s.mode = .service →
        (s.untunable sid →
          turned { x with state := .missed, missed := some .refused, lastTune := some .noSuch })
        ∧ (∀ v l, v.sid = sid → s.mayTune 0 v l → s.noRise → ∃ t, does t ∧ t.tuned 0 v l .user
          ∧ tuned t { x with state := .done, lastTune := some .accepted })
        ∧ (∀ v, v.sid = sid → s.holdsOn 0 v → s.noRise →
          ∃ t, does t ∧ s.heldOn t 0 .user ∧ becomes t { x with state := .done, lastTune := some .ok }))
      ∧ (∀ k sid m stop, x.action = .record k sid m → x.endTime = some stop →
        (stop ≤ now → missed .late)
        ∧ (now < stop → s.mode = .config → ∃ t, does t ∧ s.unmoved t)
        ∧ (now < stop → s.mode = .service ∨ s.mode = .standby → s.slotRuns n k → missed .conflict)
        ∧ (now < stop → s.mode = .service ∨ (s.mode = .standby ∧ 3 ≤ k.val) → ¬ s.slotRuns n k →
          (∀ c, x.trigger ≠ .auxRise c) →
          (s.untunable sid →
            turned { runs with retry := some (s.clock.uptimeMs + 30000), lastTune := some .noSuch })
          ∧ (∀ v l, v.sid = sid → s.mayTune k v l → s.noRise → ∃ t, does t ∧ t.tuned k v l (.schedule n)
            ∧ tuned t { runs with lastTune := some .accepted })
          ∧ (∀ v, v.sid = sid → s.holdsOn k v → s.noRise →
            ∃ t, does t ∧ s.heldOn t k (.schedule n) ∧ becomes t { runs with lastTune := some .ok })))))
  ∧ (∀ (tag cell : Byte) (pin : Pin) (c : Fin 8) (s : State), s.ready → cell.toNat = c.val → 5 ≤ c.val → pin.ok →
    let was := s.gate.cells[c]
    let g := { s.gate with cells := s.gate.cells.set c { was with enabled := true } }
    was.enabled = false → was.output = false → g.eval g.cells[c] = true →
    let waits (i : Fin 24) (d : Fin 8) := (s.entry i).state = .armed ∧ (s.entry i).trigger = .auxRise d
    ∃ t, exec (.cellEnable tag cell 1 pin) s = .next t ∧ s.answered t 0x35 tag (reply .ok (u8 c.val ++ [1, 1]))
      ∧ (∀ i, waits i c → (t.entry i).state ≠ .armed)
      ∧ (∀ n, waits n c → (∀ i d, waits i d → i = n) →
        let x := s.entry n
        let gone := t.entry n = { x with state := .missed, missed := some .mode }
        let acted := t.entry n = { x with state := .done }
        t.link.flags[5] = true
        ∧ (x.action = .remind → acted)
        ∧ (x.action = .wake → (s.mode = .config → gone) ∧ (s.mode ≠ .config → acted ∧ t.mode = .service))
        ∧ (∀ sid, x.action = .viewTune sid → s.mode ≠ .service → gone)
        ∧ (∀ v l, x.action = .viewTune v.sid → s.mode = .service → s.mayTune 0 v l →
          t.tuned 0 v l .user ∧ t.entry n = { x with state := .done, lastTune := some .accepted })
        ∧ (∀ k sid m, x.action = .record k sid m → s.mode = .config → gone)
        ∧ (∀ k v m l, x.action = .record k v.sid m → s.mode = .service ∨ (s.mode = .standby ∧ 3 ≤ k.val) →
          ¬ s.slotRuns n k → s.mayTune k v l →
          t.tuned k v l (.schedule n) ∧ t.entry n = { x with
            state := .running, interruptions := 0, retry := none, lastTune := some .accepted
            endTime := some (s.clock.uptimeMs / 1000 + 60 * m) })))
  ∧ (∀ s : State, s.restarting = false → s.settlesTo (settle s))
  ∧ (∀ (tag : Byte) (s : State),
    let after (i : Instr) (u : State) := ∃ t, exec i s = .next t
      ∧ (settle u).likewise t ∧ t.link.flags = (settle u).link.flags
    let heard := s.clearOut
    let taken := heard.countGood
    (s.live → ∀ l : Fin 3, (s.lane l).state = .seeking → after (.lock l (s.lane l).order) (laneLocks l heard))
    ∧ (s.live → ∀ l : Fin 3, after (.laneUnlock l) (laneLost .unlock l heard))
    ∧ (s.live → ∀ v u, s.parental.unlocks[v] = some u → u.remaining ≤ 1 → after (.unlockEnd v) (endUnlock v heard))
    ∧ (s.ready →
      (∀ (slot : Byte) (v : Fin 3), slot.toNat = v.val → after (.relock tag slot) (endUnlock v taken))
      ∧ (∀ (slot minutes : Byte) (pin : Pin) (v : Fin 3) (sid : Nat), slot.toNat = v.val → s.mode = .service →
        (s.slot (viewSlot v)).state ≠ .free → (s.slot (viewSlot v)).service = some sid → s.master pin →
        after (.unlock tag slot pin minutes)
          (setUnlock v sid (max 1 (min 240 minutes.toNat)) (taken.checked true 0 pin)))
      ∧ (∀ mode : Byte, (mode = 1 → s.mode ≠ .config → after (.modeSet tag mode) (modeChange .request .config taken))
        ∧ (mode = 2 → s.mode ≠ .service → after (.modeSet tag mode) (modeChange .request .service taken))
        ∧ (mode = 3 → s.mode ≠ .standby → after (.modeSet tag mode) (modeChange .request .standby taken)))
      ∧ (∀ (cell : Byte) (pin : Pin) (n : Fin 8), cell.toNat = n.val → pin.ok →
        ((s.gate.cells[n]).enabled = false → after (.cellEnable tag cell 1 pin) (enableCell n taken))
        ∧ ((s.gate.cells[n]).enabled = true → 5 ≤ n.val ∨ s.mode = .config ∨ s.master pin →
          after (.cellEnable tag cell 0 pin)
            (disableCell n (taken.checked (n.val ≤ 4 && s.mode != .config) 0 pin))))))

/-- RUN_END and SCHEDULE_RETRY_EXPIRY. A run whose end is not reached goes on; at its end the entry is DONE, its slot,
if held for it, FREE(STOPPED), the gate array told of lane and origin (R149), the notice raised. A retry with no timer
running does nothing; of an attached entry it stops the timer alone; of a detached one whose service or carrier is gone
it notes NO_SUCH and runs 30 s more; and of one whose slot a lane can take at once it has the slot TUNING for the entry,
whose orphan flag alone can rise by what the TUNE reads of the guide (R26, R115, R163 to R165). -/
def Obligations.RunsEndAndRetry : Prop :=
  ∀ (n : Fin 24) (s : State), s.live →
    let x := s.entry n
    let ended : Entry := { x with state := .done, retry := none }
    ((∀ stop, ¬ s.runEnded x stop) → ∃ t, exec (.runEnd n) s = .next t ∧ s.unanswered t ∧ s.unmoved t)
    ∧ (∀ stop, s.runEnded x stop →
      ((∀ k sid m, x.action = .record k sid m → (s.slot k).origin ≠ .schedule n) →
        ∃ t, exec (.runEnd n) s = .next t ∧ s.unanswered t
          ∧ t.noted = ({ s with schedule := s.schedule.set n ended }).noted ∧ t.link.flags[5] = true)
      ∧ (∀ k sid m, x.action = .record k sid m → (s.slot k).origin = .schedule n → s.noRise →
        ∃ t, exec (.runEnd n) s = .next t ∧ s.unanswered t ∧ t.entry n = ended
          ∧ (t.slot k).state = .free ∧ (t.slot k).reason = .stopped ∧ (t.slot k).service = none
          ∧ (t.slot k).origin = .user ∧ t.link.flags[5] = true ∧ t.tables = s.tables ∧ t.laneTold k))
    ∧ (x.retry = none → ∃ t, exec (.scheduleRetryExpiry n) s = .next t ∧ s.unanswered t ∧ s.unmoved t)
    ∧ (∀ k sid m, x.retry.isSome → x.state = .running → x.action = .record k sid m →
      let attached := (s.slot k).origin = .schedule n ∧ (s.slot k).state ≠ .faulted
      (attached → ∃ t, exec (.scheduleRetryExpiry n) s = .next t ∧ s.unanswered t
        ∧ ({ s with schedule := s.schedule.set n { x with retry := none } }).unmoved t)
      ∧ (¬ attached → s.mode = .service ∨ (s.mode = .standby ∧ 3 ≤ k.val) → s.untunable sid →
        ∃ t, exec (.scheduleRetryExpiry n) s = .next t ∧ s.unanswered t
          ∧ ({ s with schedule := s.schedule.set n { x with
                retry := some (s.clock.uptimeMs + 30000), lastTune := some .noSuch } }).unmoved t)
      ∧ (∀ v l, ¬ attached → s.mode = .service ∨ (s.mode = .standby ∧ 3 ≤ k.val) → v.sid = sid → s.mayTune k v l →
        s.noRise →
        ∃ t, exec (.scheduleRetryExpiry n) s = .next t ∧ s.unanswered t ∧ t.tuned k v l (.schedule n)
          ∧ s.entryAs t n { x with retry := none, lastTune := some .accepted } ∧ t.tables = s.tables))

/-! ### What every step keeps -/

/-- After reset the form and the ranges hold (R1, R31, R39, R88, R102, R126, R146, R174, R177, R178, R185,
R188). That the part has just been powered, its store never formatted, and the purse, the profiles and the images of
the store the format's until POWER_ON reads it, is the model's choice (log 17), and their ranges rest on it. -/
def Obligations.ResetKeepsRules : Prop :=
  State.reset.sound ∧ State.reset.ranged

/-- Every step, a command's or an idle millisecond's, keeps the form: the gate cells (R146, R156), the wait queue (R51),
the filter table (R56), the bounds of the replies (R185), of the notices (R188) and of the write queue (R178), the guide
store (R102, R106, R113), each held refused record under its own phase (R68), and no rise left over. -/
def Obligations.StepKeepsForm : Prop :=
  ∀ s t : State, s.sound → step s = .next t → t.sound

/-- Every step keeps the ranges of the service map (R1), the carrier table (R31), the quality classes (R39), the
clock (R174), the purse (R88), the profiles with profile 0 in use (R126), and the images of the retained store
(R177). -/
def Obligations.StepKeepsRanges : Prop :=
  ∀ s t : State, s.ranged → step s = .next t → t.ranged
end

