-- ==== Sys2Proof/Laws/State.lean ====
section
/-! SUPPORT. One lemma for each field under each update of the state. -/

namespace Sys2Proof.Machine

open Sys2Proof

/-! ### modSlot -/

@[simp] theorem State.modSlot_pending (k : Fin 5) (f : Slot → Slot) (s : State) :
    (s.modSlot k f).pending = s.pending := rfl
@[simp] theorem State.modSlot_power (k : Fin 5) (f : Slot → Slot) (s : State) :
    (s.modSlot k f).power = s.power := rfl
@[simp] theorem State.modSlot_booted (k : Fin 5) (f : Slot → Slot) (s : State) :
    (s.modSlot k f).booted = s.booted := rfl
@[simp] theorem State.modSlot_restarting (k : Fin 5) (f : Slot → Slot) (s : State) :
    (s.modSlot k f).restarting = s.restarting := rfl
@[simp] theorem State.modSlot_mode (k : Fin 5) (f : Slot → Slot) (s : State) :
    (s.modSlot k f).mode = s.mode := rfl
@[simp] theorem State.modSlot_clock (k : Fin 5) (f : Slot → Slot) (s : State) :
    (s.modSlot k f).clock = s.clock := rfl
@[simp] theorem State.modSlot_link (k : Fin 5) (f : Slot → Slot) (s : State) :
    (s.modSlot k f).link = s.link := rfl
@[simp] theorem State.modSlot_faults (k : Fin 5) (f : Slot → Slot) (s : State) :
    (s.modSlot k f).faults = s.faults := rfl
@[simp] theorem State.modSlot_store (k : Fin 5) (f : Slot → Slot) (s : State) :
    (s.modSlot k f).store = s.store := rfl
@[simp] theorem State.modSlot_carriers (k : Fin 5) (f : Slot → Slot) (s : State) :
    (s.modSlot k f).carriers = s.carriers := rfl
@[simp] theorem State.modSlot_classes (k : Fin 5) (f : Slot → Slot) (s : State) :
    (s.modSlot k f).classes = s.classes := rfl
@[simp] theorem State.modSlot_lanes (k : Fin 5) (f : Slot → Slot) (s : State) :
    (s.modSlot k f).lanes = s.lanes := rfl
@[simp] theorem State.modSlot_arb (k : Fin 5) (f : Slot → Slot) (s : State) :
    (s.modSlot k f).arb = s.arb := rfl
@[simp] theorem State.modSlot_sweep (k : Fin 5) (f : Slot → Slot) (s : State) :
    (s.modSlot k f).sweep = s.sweep := rfl
@[simp] theorem State.modSlot_services (k : Fin 5) (f : Slot → Slot) (s : State) :
    (s.modSlot k f).services = s.services := rfl
@[simp] theorem State.modSlot_slots (k : Fin 5) (f : Slot → Slot) (s : State) :
    (s.modSlot k f).slots = s.slots.set k (f s.slots[k]) := rfl
@[simp] theorem State.modSlot_router (k : Fin 5) (f : Slot → Slot) (s : State) :
    (s.modSlot k f).router = s.router := rfl
@[simp] theorem State.modSlot_access (k : Fin 5) (f : Slot → Slot) (s : State) :
    (s.modSlot k f).access = s.access := rfl
@[simp] theorem State.modSlot_guide (k : Fin 5) (f : Slot → Slot) (s : State) :
    (s.modSlot k f).guide = s.guide := rfl
@[simp] theorem State.modSlot_parental (k : Fin 5) (f : Slot → Slot) (s : State) :
    (s.modSlot k f).parental = s.parental := rfl
@[simp] theorem State.modSlot_gate (k : Fin 5) (f : Slot → Slot) (s : State) :
    (s.modSlot k f).gate = s.gate := rfl
@[simp] theorem State.modSlot_schedule (k : Fin 5) (f : Slot → Slot) (s : State) :
    (s.modSlot k f).schedule = s.schedule := rfl
@[simp] theorem State.modSlot_auxRises (k : Fin 5) (f : Slot → Slot) (s : State) :
    (s.modSlot k f).auxRises = s.auxRises := rfl
@[simp] theorem State.modSlot_out (k : Fin 5) (f : Slot → Slot) (s : State) :
    (s.modSlot k f).out = s.out := rfl
@[simp] theorem State.modSlot_nature (k : Fin 5) (f : Slot → Slot) (s : State) :
    (s.modSlot k f).nature = s.nature := rfl

/-! ### modLane -/

@[simp] theorem State.modLane_pending (l : Fin 3) (f : Lane → Lane) (s : State) :
    (s.modLane l f).pending = s.pending := rfl
@[simp] theorem State.modLane_power (l : Fin 3) (f : Lane → Lane) (s : State) :
    (s.modLane l f).power = s.power := rfl
@[simp] theorem State.modLane_booted (l : Fin 3) (f : Lane → Lane) (s : State) :
    (s.modLane l f).booted = s.booted := rfl
@[simp] theorem State.modLane_restarting (l : Fin 3) (f : Lane → Lane) (s : State) :
    (s.modLane l f).restarting = s.restarting := rfl
@[simp] theorem State.modLane_mode (l : Fin 3) (f : Lane → Lane) (s : State) :
    (s.modLane l f).mode = s.mode := rfl
@[simp] theorem State.modLane_clock (l : Fin 3) (f : Lane → Lane) (s : State) :
    (s.modLane l f).clock = s.clock := rfl
@[simp] theorem State.modLane_link (l : Fin 3) (f : Lane → Lane) (s : State) :
    (s.modLane l f).link = s.link := rfl
@[simp] theorem State.modLane_faults (l : Fin 3) (f : Lane → Lane) (s : State) :
    (s.modLane l f).faults = s.faults := rfl
@[simp] theorem State.modLane_store (l : Fin 3) (f : Lane → Lane) (s : State) :
    (s.modLane l f).store = s.store := rfl
@[simp] theorem State.modLane_carriers (l : Fin 3) (f : Lane → Lane) (s : State) :
    (s.modLane l f).carriers = s.carriers := rfl
@[simp] theorem State.modLane_classes (l : Fin 3) (f : Lane → Lane) (s : State) :
    (s.modLane l f).classes = s.classes := rfl
@[simp] theorem State.modLane_lanes (l : Fin 3) (f : Lane → Lane) (s : State) :
    (s.modLane l f).lanes = s.lanes.set l (f s.lanes[l]) := rfl
@[simp] theorem State.modLane_arb (l : Fin 3) (f : Lane → Lane) (s : State) :
    (s.modLane l f).arb = s.arb := rfl
@[simp] theorem State.modLane_sweep (l : Fin 3) (f : Lane → Lane) (s : State) :
    (s.modLane l f).sweep = s.sweep := rfl
@[simp] theorem State.modLane_services (l : Fin 3) (f : Lane → Lane) (s : State) :
    (s.modLane l f).services = s.services := rfl
@[simp] theorem State.modLane_slots (l : Fin 3) (f : Lane → Lane) (s : State) :
    (s.modLane l f).slots = s.slots := rfl
@[simp] theorem State.modLane_router (l : Fin 3) (f : Lane → Lane) (s : State) :
    (s.modLane l f).router = s.router := rfl
@[simp] theorem State.modLane_access (l : Fin 3) (f : Lane → Lane) (s : State) :
    (s.modLane l f).access = s.access := rfl
@[simp] theorem State.modLane_guide (l : Fin 3) (f : Lane → Lane) (s : State) :
    (s.modLane l f).guide = s.guide := rfl
@[simp] theorem State.modLane_parental (l : Fin 3) (f : Lane → Lane) (s : State) :
    (s.modLane l f).parental = s.parental := rfl
@[simp] theorem State.modLane_gate (l : Fin 3) (f : Lane → Lane) (s : State) :
    (s.modLane l f).gate = s.gate := rfl
@[simp] theorem State.modLane_schedule (l : Fin 3) (f : Lane → Lane) (s : State) :
    (s.modLane l f).schedule = s.schedule := rfl
@[simp] theorem State.modLane_auxRises (l : Fin 3) (f : Lane → Lane) (s : State) :
    (s.modLane l f).auxRises = s.auxRises := rfl
@[simp] theorem State.modLane_out (l : Fin 3) (f : Lane → Lane) (s : State) :
    (s.modLane l f).out = s.out := rfl
@[simp] theorem State.modLane_nature (l : Fin 3) (f : Lane → Lane) (s : State) :
    (s.modLane l f).nature = s.nature := rfl

/-! ### modEntry -/

@[simp] theorem State.modEntry_pending (n : Fin 24) (f : Entry → Entry) (s : State) :
    (s.modEntry n f).pending = s.pending := rfl
@[simp] theorem State.modEntry_power (n : Fin 24) (f : Entry → Entry) (s : State) :
    (s.modEntry n f).power = s.power := rfl
@[simp] theorem State.modEntry_booted (n : Fin 24) (f : Entry → Entry) (s : State) :
    (s.modEntry n f).booted = s.booted := rfl
@[simp] theorem State.modEntry_restarting (n : Fin 24) (f : Entry → Entry) (s : State) :
    (s.modEntry n f).restarting = s.restarting := rfl
@[simp] theorem State.modEntry_mode (n : Fin 24) (f : Entry → Entry) (s : State) :
    (s.modEntry n f).mode = s.mode := rfl
@[simp] theorem State.modEntry_clock (n : Fin 24) (f : Entry → Entry) (s : State) :
    (s.modEntry n f).clock = s.clock := rfl
@[simp] theorem State.modEntry_link (n : Fin 24) (f : Entry → Entry) (s : State) :
    (s.modEntry n f).link = s.link := rfl
@[simp] theorem State.modEntry_faults (n : Fin 24) (f : Entry → Entry) (s : State) :
    (s.modEntry n f).faults = s.faults := rfl
@[simp] theorem State.modEntry_store (n : Fin 24) (f : Entry → Entry) (s : State) :
    (s.modEntry n f).store = s.store := rfl
@[simp] theorem State.modEntry_carriers (n : Fin 24) (f : Entry → Entry) (s : State) :
    (s.modEntry n f).carriers = s.carriers := rfl
@[simp] theorem State.modEntry_classes (n : Fin 24) (f : Entry → Entry) (s : State) :
    (s.modEntry n f).classes = s.classes := rfl
@[simp] theorem State.modEntry_lanes (n : Fin 24) (f : Entry → Entry) (s : State) :
    (s.modEntry n f).lanes = s.lanes := rfl
@[simp] theorem State.modEntry_arb (n : Fin 24) (f : Entry → Entry) (s : State) :
    (s.modEntry n f).arb = s.arb := rfl
@[simp] theorem State.modEntry_sweep (n : Fin 24) (f : Entry → Entry) (s : State) :
    (s.modEntry n f).sweep = s.sweep := rfl
@[simp] theorem State.modEntry_services (n : Fin 24) (f : Entry → Entry) (s : State) :
    (s.modEntry n f).services = s.services := rfl
@[simp] theorem State.modEntry_slots (n : Fin 24) (f : Entry → Entry) (s : State) :
    (s.modEntry n f).slots = s.slots := rfl
@[simp] theorem State.modEntry_router (n : Fin 24) (f : Entry → Entry) (s : State) :
    (s.modEntry n f).router = s.router := rfl
@[simp] theorem State.modEntry_access (n : Fin 24) (f : Entry → Entry) (s : State) :
    (s.modEntry n f).access = s.access := rfl
@[simp] theorem State.modEntry_guide (n : Fin 24) (f : Entry → Entry) (s : State) :
    (s.modEntry n f).guide = s.guide := rfl
@[simp] theorem State.modEntry_parental (n : Fin 24) (f : Entry → Entry) (s : State) :
    (s.modEntry n f).parental = s.parental := rfl
@[simp] theorem State.modEntry_gate (n : Fin 24) (f : Entry → Entry) (s : State) :
    (s.modEntry n f).gate = s.gate := rfl
@[simp] theorem State.modEntry_schedule (n : Fin 24) (f : Entry → Entry) (s : State) :
    (s.modEntry n f).schedule = s.schedule.set n (f s.schedule[n]) := rfl
@[simp] theorem State.modEntry_auxRises (n : Fin 24) (f : Entry → Entry) (s : State) :
    (s.modEntry n f).auxRises = s.auxRises := rfl
@[simp] theorem State.modEntry_out (n : Fin 24) (f : Entry → Entry) (s : State) :
    (s.modEntry n f).out = s.out := rfl
@[simp] theorem State.modEntry_nature (n : Fin 24) (f : Entry → Entry) (s : State) :
    (s.modEntry n f).nature = s.nature := rfl

/-! ### modLink -/

@[simp] theorem State.modLink_pending (f : Link → Link) (s : State) :
    (s.modLink f).pending = s.pending := rfl
@[simp] theorem State.modLink_power (f : Link → Link) (s : State) :
    (s.modLink f).power = s.power := rfl
@[simp] theorem State.modLink_booted (f : Link → Link) (s : State) :
    (s.modLink f).booted = s.booted := rfl
@[simp] theorem State.modLink_restarting (f : Link → Link) (s : State) :
    (s.modLink f).restarting = s.restarting := rfl
@[simp] theorem State.modLink_mode (f : Link → Link) (s : State) :
    (s.modLink f).mode = s.mode := rfl
@[simp] theorem State.modLink_clock (f : Link → Link) (s : State) :
    (s.modLink f).clock = s.clock := rfl
@[simp] theorem State.modLink_link (f : Link → Link) (s : State) :
    (s.modLink f).link = f s.link := rfl
@[simp] theorem State.modLink_faults (f : Link → Link) (s : State) :
    (s.modLink f).faults = s.faults := rfl
@[simp] theorem State.modLink_store (f : Link → Link) (s : State) :
    (s.modLink f).store = s.store := rfl
@[simp] theorem State.modLink_carriers (f : Link → Link) (s : State) :
    (s.modLink f).carriers = s.carriers := rfl
@[simp] theorem State.modLink_classes (f : Link → Link) (s : State) :
    (s.modLink f).classes = s.classes := rfl
@[simp] theorem State.modLink_lanes (f : Link → Link) (s : State) :
    (s.modLink f).lanes = s.lanes := rfl
@[simp] theorem State.modLink_arb (f : Link → Link) (s : State) :
    (s.modLink f).arb = s.arb := rfl
@[simp] theorem State.modLink_sweep (f : Link → Link) (s : State) :
    (s.modLink f).sweep = s.sweep := rfl
@[simp] theorem State.modLink_services (f : Link → Link) (s : State) :
    (s.modLink f).services = s.services := rfl
@[simp] theorem State.modLink_slots (f : Link → Link) (s : State) :
    (s.modLink f).slots = s.slots := rfl
@[simp] theorem State.modLink_router (f : Link → Link) (s : State) :
    (s.modLink f).router = s.router := rfl
@[simp] theorem State.modLink_access (f : Link → Link) (s : State) :
    (s.modLink f).access = s.access := rfl
@[simp] theorem State.modLink_guide (f : Link → Link) (s : State) :
    (s.modLink f).guide = s.guide := rfl
@[simp] theorem State.modLink_parental (f : Link → Link) (s : State) :
    (s.modLink f).parental = s.parental := rfl
@[simp] theorem State.modLink_gate (f : Link → Link) (s : State) :
    (s.modLink f).gate = s.gate := rfl
@[simp] theorem State.modLink_schedule (f : Link → Link) (s : State) :
    (s.modLink f).schedule = s.schedule := rfl
@[simp] theorem State.modLink_auxRises (f : Link → Link) (s : State) :
    (s.modLink f).auxRises = s.auxRises := rfl
@[simp] theorem State.modLink_out (f : Link → Link) (s : State) :
    (s.modLink f).out = s.out := rfl
@[simp] theorem State.modLink_nature (f : Link → Link) (s : State) :
    (s.modLink f).nature = s.nature := rfl

/-! ### modClock -/

@[simp] theorem State.modClock_pending (f : Clock → Clock) (s : State) :
    (s.modClock f).pending = s.pending := rfl
@[simp] theorem State.modClock_power (f : Clock → Clock) (s : State) :
    (s.modClock f).power = s.power := rfl
@[simp] theorem State.modClock_booted (f : Clock → Clock) (s : State) :
    (s.modClock f).booted = s.booted := rfl
@[simp] theorem State.modClock_restarting (f : Clock → Clock) (s : State) :
    (s.modClock f).restarting = s.restarting := rfl
@[simp] theorem State.modClock_mode (f : Clock → Clock) (s : State) :
    (s.modClock f).mode = s.mode := rfl
@[simp] theorem State.modClock_clock (f : Clock → Clock) (s : State) :
    (s.modClock f).clock = f s.clock := rfl
@[simp] theorem State.modClock_link (f : Clock → Clock) (s : State) :
    (s.modClock f).link = s.link := rfl
@[simp] theorem State.modClock_faults (f : Clock → Clock) (s : State) :
    (s.modClock f).faults = s.faults := rfl
@[simp] theorem State.modClock_store (f : Clock → Clock) (s : State) :
    (s.modClock f).store = s.store := rfl
@[simp] theorem State.modClock_carriers (f : Clock → Clock) (s : State) :
    (s.modClock f).carriers = s.carriers := rfl
@[simp] theorem State.modClock_classes (f : Clock → Clock) (s : State) :
    (s.modClock f).classes = s.classes := rfl
@[simp] theorem State.modClock_lanes (f : Clock → Clock) (s : State) :
    (s.modClock f).lanes = s.lanes := rfl
@[simp] theorem State.modClock_arb (f : Clock → Clock) (s : State) :
    (s.modClock f).arb = s.arb := rfl
@[simp] theorem State.modClock_sweep (f : Clock → Clock) (s : State) :
    (s.modClock f).sweep = s.sweep := rfl
@[simp] theorem State.modClock_services (f : Clock → Clock) (s : State) :
    (s.modClock f).services = s.services := rfl
@[simp] theorem State.modClock_slots (f : Clock → Clock) (s : State) :
    (s.modClock f).slots = s.slots := rfl
@[simp] theorem State.modClock_router (f : Clock → Clock) (s : State) :
    (s.modClock f).router = s.router := rfl
@[simp] theorem State.modClock_access (f : Clock → Clock) (s : State) :
    (s.modClock f).access = s.access := rfl
@[simp] theorem State.modClock_guide (f : Clock → Clock) (s : State) :
    (s.modClock f).guide = s.guide := rfl
@[simp] theorem State.modClock_parental (f : Clock → Clock) (s : State) :
    (s.modClock f).parental = s.parental := rfl
@[simp] theorem State.modClock_gate (f : Clock → Clock) (s : State) :
    (s.modClock f).gate = s.gate := rfl
@[simp] theorem State.modClock_schedule (f : Clock → Clock) (s : State) :
    (s.modClock f).schedule = s.schedule := rfl
@[simp] theorem State.modClock_auxRises (f : Clock → Clock) (s : State) :
    (s.modClock f).auxRises = s.auxRises := rfl
@[simp] theorem State.modClock_out (f : Clock → Clock) (s : State) :
    (s.modClock f).out = s.out := rfl
@[simp] theorem State.modClock_nature (f : Clock → Clock) (s : State) :
    (s.modClock f).nature = s.nature := rfl

/-! ### modFaults -/

@[simp] theorem State.modFaults_pending (f : Faults → Faults) (s : State) :
    (s.modFaults f).pending = s.pending := rfl
@[simp] theorem State.modFaults_power (f : Faults → Faults) (s : State) :
    (s.modFaults f).power = s.power := rfl
@[simp] theorem State.modFaults_booted (f : Faults → Faults) (s : State) :
    (s.modFaults f).booted = s.booted := rfl
@[simp] theorem State.modFaults_restarting (f : Faults → Faults) (s : State) :
    (s.modFaults f).restarting = s.restarting := rfl
@[simp] theorem State.modFaults_mode (f : Faults → Faults) (s : State) :
    (s.modFaults f).mode = s.mode := rfl
@[simp] theorem State.modFaults_clock (f : Faults → Faults) (s : State) :
    (s.modFaults f).clock = s.clock := rfl
@[simp] theorem State.modFaults_link (f : Faults → Faults) (s : State) :
    (s.modFaults f).link = s.link := rfl
@[simp] theorem State.modFaults_faults (f : Faults → Faults) (s : State) :
    (s.modFaults f).faults = f s.faults := rfl
@[simp] theorem State.modFaults_store (f : Faults → Faults) (s : State) :
    (s.modFaults f).store = s.store := rfl
@[simp] theorem State.modFaults_carriers (f : Faults → Faults) (s : State) :
    (s.modFaults f).carriers = s.carriers := rfl
@[simp] theorem State.modFaults_classes (f : Faults → Faults) (s : State) :
    (s.modFaults f).classes = s.classes := rfl
@[simp] theorem State.modFaults_lanes (f : Faults → Faults) (s : State) :
    (s.modFaults f).lanes = s.lanes := rfl
@[simp] theorem State.modFaults_arb (f : Faults → Faults) (s : State) :
    (s.modFaults f).arb = s.arb := rfl
@[simp] theorem State.modFaults_sweep (f : Faults → Faults) (s : State) :
    (s.modFaults f).sweep = s.sweep := rfl
@[simp] theorem State.modFaults_services (f : Faults → Faults) (s : State) :
    (s.modFaults f).services = s.services := rfl
@[simp] theorem State.modFaults_slots (f : Faults → Faults) (s : State) :
    (s.modFaults f).slots = s.slots := rfl
@[simp] theorem State.modFaults_router (f : Faults → Faults) (s : State) :
    (s.modFaults f).router = s.router := rfl
@[simp] theorem State.modFaults_access (f : Faults → Faults) (s : State) :
    (s.modFaults f).access = s.access := rfl
@[simp] theorem State.modFaults_guide (f : Faults → Faults) (s : State) :
    (s.modFaults f).guide = s.guide := rfl
@[simp] theorem State.modFaults_parental (f : Faults → Faults) (s : State) :
    (s.modFaults f).parental = s.parental := rfl
@[simp] theorem State.modFaults_gate (f : Faults → Faults) (s : State) :
    (s.modFaults f).gate = s.gate := rfl
@[simp] theorem State.modFaults_schedule (f : Faults → Faults) (s : State) :
    (s.modFaults f).schedule = s.schedule := rfl
@[simp] theorem State.modFaults_auxRises (f : Faults → Faults) (s : State) :
    (s.modFaults f).auxRises = s.auxRises := rfl
@[simp] theorem State.modFaults_out (f : Faults → Faults) (s : State) :
    (s.modFaults f).out = s.out := rfl
@[simp] theorem State.modFaults_nature (f : Faults → Faults) (s : State) :
    (s.modFaults f).nature = s.nature := rfl

/-! ### modStore -/

@[simp] theorem State.modStore_pending (f : Store → Store) (s : State) :
    (s.modStore f).pending = s.pending := rfl
@[simp] theorem State.modStore_power (f : Store → Store) (s : State) :
    (s.modStore f).power = s.power := rfl
@[simp] theorem State.modStore_booted (f : Store → Store) (s : State) :
    (s.modStore f).booted = s.booted := rfl
@[simp] theorem State.modStore_restarting (f : Store → Store) (s : State) :
    (s.modStore f).restarting = s.restarting := rfl
@[simp] theorem State.modStore_mode (f : Store → Store) (s : State) :
    (s.modStore f).mode = s.mode := rfl
@[simp] theorem State.modStore_clock (f : Store → Store) (s : State) :
    (s.modStore f).clock = s.clock := rfl
@[simp] theorem State.modStore_link (f : Store → Store) (s : State) :
    (s.modStore f).link = s.link := rfl
@[simp] theorem State.modStore_faults (f : Store → Store) (s : State) :
    (s.modStore f).faults = s.faults := rfl
@[simp] theorem State.modStore_store (f : Store → Store) (s : State) :
    (s.modStore f).store = f s.store := rfl
@[simp] theorem State.modStore_carriers (f : Store → Store) (s : State) :
    (s.modStore f).carriers = s.carriers := rfl
@[simp] theorem State.modStore_classes (f : Store → Store) (s : State) :
    (s.modStore f).classes = s.classes := rfl
@[simp] theorem State.modStore_lanes (f : Store → Store) (s : State) :
    (s.modStore f).lanes = s.lanes := rfl
@[simp] theorem State.modStore_arb (f : Store → Store) (s : State) :
    (s.modStore f).arb = s.arb := rfl
@[simp] theorem State.modStore_sweep (f : Store → Store) (s : State) :
    (s.modStore f).sweep = s.sweep := rfl
@[simp] theorem State.modStore_services (f : Store → Store) (s : State) :
    (s.modStore f).services = s.services := rfl
@[simp] theorem State.modStore_slots (f : Store → Store) (s : State) :
    (s.modStore f).slots = s.slots := rfl
@[simp] theorem State.modStore_router (f : Store → Store) (s : State) :
    (s.modStore f).router = s.router := rfl
@[simp] theorem State.modStore_access (f : Store → Store) (s : State) :
    (s.modStore f).access = s.access := rfl
@[simp] theorem State.modStore_guide (f : Store → Store) (s : State) :
    (s.modStore f).guide = s.guide := rfl
@[simp] theorem State.modStore_parental (f : Store → Store) (s : State) :
    (s.modStore f).parental = s.parental := rfl
@[simp] theorem State.modStore_gate (f : Store → Store) (s : State) :
    (s.modStore f).gate = s.gate := rfl
@[simp] theorem State.modStore_schedule (f : Store → Store) (s : State) :
    (s.modStore f).schedule = s.schedule := rfl
@[simp] theorem State.modStore_auxRises (f : Store → Store) (s : State) :
    (s.modStore f).auxRises = s.auxRises := rfl
@[simp] theorem State.modStore_out (f : Store → Store) (s : State) :
    (s.modStore f).out = s.out := rfl
@[simp] theorem State.modStore_nature (f : Store → Store) (s : State) :
    (s.modStore f).nature = s.nature := rfl

/-! ### modArb -/

@[simp] theorem State.modArb_pending (f : Arbiter → Arbiter) (s : State) :
    (s.modArb f).pending = s.pending := rfl
@[simp] theorem State.modArb_power (f : Arbiter → Arbiter) (s : State) :
    (s.modArb f).power = s.power := rfl
@[simp] theorem State.modArb_booted (f : Arbiter → Arbiter) (s : State) :
    (s.modArb f).booted = s.booted := rfl
@[simp] theorem State.modArb_restarting (f : Arbiter → Arbiter) (s : State) :
    (s.modArb f).restarting = s.restarting := rfl
@[simp] theorem State.modArb_mode (f : Arbiter → Arbiter) (s : State) :
    (s.modArb f).mode = s.mode := rfl
@[simp] theorem State.modArb_clock (f : Arbiter → Arbiter) (s : State) :
    (s.modArb f).clock = s.clock := rfl
@[simp] theorem State.modArb_link (f : Arbiter → Arbiter) (s : State) :
    (s.modArb f).link = s.link := rfl
@[simp] theorem State.modArb_faults (f : Arbiter → Arbiter) (s : State) :
    (s.modArb f).faults = s.faults := rfl
@[simp] theorem State.modArb_store (f : Arbiter → Arbiter) (s : State) :
    (s.modArb f).store = s.store := rfl
@[simp] theorem State.modArb_carriers (f : Arbiter → Arbiter) (s : State) :
    (s.modArb f).carriers = s.carriers := rfl
@[simp] theorem State.modArb_classes (f : Arbiter → Arbiter) (s : State) :
    (s.modArb f).classes = s.classes := rfl
@[simp] theorem State.modArb_lanes (f : Arbiter → Arbiter) (s : State) :
    (s.modArb f).lanes = s.lanes := rfl
@[simp] theorem State.modArb_arb (f : Arbiter → Arbiter) (s : State) :
    (s.modArb f).arb = f s.arb := rfl
@[simp] theorem State.modArb_sweep (f : Arbiter → Arbiter) (s : State) :
    (s.modArb f).sweep = s.sweep := rfl
@[simp] theorem State.modArb_services (f : Arbiter → Arbiter) (s : State) :
    (s.modArb f).services = s.services := rfl
@[simp] theorem State.modArb_slots (f : Arbiter → Arbiter) (s : State) :
    (s.modArb f).slots = s.slots := rfl
@[simp] theorem State.modArb_router (f : Arbiter → Arbiter) (s : State) :
    (s.modArb f).router = s.router := rfl
@[simp] theorem State.modArb_access (f : Arbiter → Arbiter) (s : State) :
    (s.modArb f).access = s.access := rfl
@[simp] theorem State.modArb_guide (f : Arbiter → Arbiter) (s : State) :
    (s.modArb f).guide = s.guide := rfl
@[simp] theorem State.modArb_parental (f : Arbiter → Arbiter) (s : State) :
    (s.modArb f).parental = s.parental := rfl
@[simp] theorem State.modArb_gate (f : Arbiter → Arbiter) (s : State) :
    (s.modArb f).gate = s.gate := rfl
@[simp] theorem State.modArb_schedule (f : Arbiter → Arbiter) (s : State) :
    (s.modArb f).schedule = s.schedule := rfl
@[simp] theorem State.modArb_auxRises (f : Arbiter → Arbiter) (s : State) :
    (s.modArb f).auxRises = s.auxRises := rfl
@[simp] theorem State.modArb_out (f : Arbiter → Arbiter) (s : State) :
    (s.modArb f).out = s.out := rfl
@[simp] theorem State.modArb_nature (f : Arbiter → Arbiter) (s : State) :
    (s.modArb f).nature = s.nature := rfl

/-! ### modSweep -/

@[simp] theorem State.modSweep_pending (f : Sweep → Sweep) (s : State) :
    (s.modSweep f).pending = s.pending := rfl
@[simp] theorem State.modSweep_power (f : Sweep → Sweep) (s : State) :
    (s.modSweep f).power = s.power := rfl
@[simp] theorem State.modSweep_booted (f : Sweep → Sweep) (s : State) :
    (s.modSweep f).booted = s.booted := rfl
@[simp] theorem State.modSweep_restarting (f : Sweep → Sweep) (s : State) :
    (s.modSweep f).restarting = s.restarting := rfl
@[simp] theorem State.modSweep_mode (f : Sweep → Sweep) (s : State) :
    (s.modSweep f).mode = s.mode := rfl
@[simp] theorem State.modSweep_clock (f : Sweep → Sweep) (s : State) :
    (s.modSweep f).clock = s.clock := rfl
@[simp] theorem State.modSweep_link (f : Sweep → Sweep) (s : State) :
    (s.modSweep f).link = s.link := rfl
@[simp] theorem State.modSweep_faults (f : Sweep → Sweep) (s : State) :
    (s.modSweep f).faults = s.faults := rfl
@[simp] theorem State.modSweep_store (f : Sweep → Sweep) (s : State) :
    (s.modSweep f).store = s.store := rfl
@[simp] theorem State.modSweep_carriers (f : Sweep → Sweep) (s : State) :
    (s.modSweep f).carriers = s.carriers := rfl
@[simp] theorem State.modSweep_classes (f : Sweep → Sweep) (s : State) :
    (s.modSweep f).classes = s.classes := rfl
@[simp] theorem State.modSweep_lanes (f : Sweep → Sweep) (s : State) :
    (s.modSweep f).lanes = s.lanes := rfl
@[simp] theorem State.modSweep_arb (f : Sweep → Sweep) (s : State) :
    (s.modSweep f).arb = s.arb := rfl
@[simp] theorem State.modSweep_sweep (f : Sweep → Sweep) (s : State) :
    (s.modSweep f).sweep = f s.sweep := rfl
@[simp] theorem State.modSweep_services (f : Sweep → Sweep) (s : State) :
    (s.modSweep f).services = s.services := rfl
@[simp] theorem State.modSweep_slots (f : Sweep → Sweep) (s : State) :
    (s.modSweep f).slots = s.slots := rfl
@[simp] theorem State.modSweep_router (f : Sweep → Sweep) (s : State) :
    (s.modSweep f).router = s.router := rfl
@[simp] theorem State.modSweep_access (f : Sweep → Sweep) (s : State) :
    (s.modSweep f).access = s.access := rfl
@[simp] theorem State.modSweep_guide (f : Sweep → Sweep) (s : State) :
    (s.modSweep f).guide = s.guide := rfl
@[simp] theorem State.modSweep_parental (f : Sweep → Sweep) (s : State) :
    (s.modSweep f).parental = s.parental := rfl
@[simp] theorem State.modSweep_gate (f : Sweep → Sweep) (s : State) :
    (s.modSweep f).gate = s.gate := rfl
@[simp] theorem State.modSweep_schedule (f : Sweep → Sweep) (s : State) :
    (s.modSweep f).schedule = s.schedule := rfl
@[simp] theorem State.modSweep_auxRises (f : Sweep → Sweep) (s : State) :
    (s.modSweep f).auxRises = s.auxRises := rfl
@[simp] theorem State.modSweep_out (f : Sweep → Sweep) (s : State) :
    (s.modSweep f).out = s.out := rfl
@[simp] theorem State.modSweep_nature (f : Sweep → Sweep) (s : State) :
    (s.modSweep f).nature = s.nature := rfl

/-! ### modRouter -/

@[simp] theorem State.modRouter_pending (f : Router → Router) (s : State) :
    (s.modRouter f).pending = s.pending := rfl
@[simp] theorem State.modRouter_power (f : Router → Router) (s : State) :
    (s.modRouter f).power = s.power := rfl
@[simp] theorem State.modRouter_booted (f : Router → Router) (s : State) :
    (s.modRouter f).booted = s.booted := rfl
@[simp] theorem State.modRouter_restarting (f : Router → Router) (s : State) :
    (s.modRouter f).restarting = s.restarting := rfl
@[simp] theorem State.modRouter_mode (f : Router → Router) (s : State) :
    (s.modRouter f).mode = s.mode := rfl
@[simp] theorem State.modRouter_clock (f : Router → Router) (s : State) :
    (s.modRouter f).clock = s.clock := rfl
@[simp] theorem State.modRouter_link (f : Router → Router) (s : State) :
    (s.modRouter f).link = s.link := rfl
@[simp] theorem State.modRouter_faults (f : Router → Router) (s : State) :
    (s.modRouter f).faults = s.faults := rfl
@[simp] theorem State.modRouter_store (f : Router → Router) (s : State) :
    (s.modRouter f).store = s.store := rfl
@[simp] theorem State.modRouter_carriers (f : Router → Router) (s : State) :
    (s.modRouter f).carriers = s.carriers := rfl
@[simp] theorem State.modRouter_classes (f : Router → Router) (s : State) :
    (s.modRouter f).classes = s.classes := rfl
@[simp] theorem State.modRouter_lanes (f : Router → Router) (s : State) :
    (s.modRouter f).lanes = s.lanes := rfl
@[simp] theorem State.modRouter_arb (f : Router → Router) (s : State) :
    (s.modRouter f).arb = s.arb := rfl
@[simp] theorem State.modRouter_sweep (f : Router → Router) (s : State) :
    (s.modRouter f).sweep = s.sweep := rfl
@[simp] theorem State.modRouter_services (f : Router → Router) (s : State) :
    (s.modRouter f).services = s.services := rfl
@[simp] theorem State.modRouter_slots (f : Router → Router) (s : State) :
    (s.modRouter f).slots = s.slots := rfl
@[simp] theorem State.modRouter_router (f : Router → Router) (s : State) :
    (s.modRouter f).router = f s.router := rfl
@[simp] theorem State.modRouter_access (f : Router → Router) (s : State) :
    (s.modRouter f).access = s.access := rfl
@[simp] theorem State.modRouter_guide (f : Router → Router) (s : State) :
    (s.modRouter f).guide = s.guide := rfl
@[simp] theorem State.modRouter_parental (f : Router → Router) (s : State) :
    (s.modRouter f).parental = s.parental := rfl
@[simp] theorem State.modRouter_gate (f : Router → Router) (s : State) :
    (s.modRouter f).gate = s.gate := rfl
@[simp] theorem State.modRouter_schedule (f : Router → Router) (s : State) :
    (s.modRouter f).schedule = s.schedule := rfl
@[simp] theorem State.modRouter_auxRises (f : Router → Router) (s : State) :
    (s.modRouter f).auxRises = s.auxRises := rfl
@[simp] theorem State.modRouter_out (f : Router → Router) (s : State) :
    (s.modRouter f).out = s.out := rfl
@[simp] theorem State.modRouter_nature (f : Router → Router) (s : State) :
    (s.modRouter f).nature = s.nature := rfl

/-! ### modAccess -/

@[simp] theorem State.modAccess_pending (f : Access → Access) (s : State) :
    (s.modAccess f).pending = s.pending := rfl
@[simp] theorem State.modAccess_power (f : Access → Access) (s : State) :
    (s.modAccess f).power = s.power := rfl
@[simp] theorem State.modAccess_booted (f : Access → Access) (s : State) :
    (s.modAccess f).booted = s.booted := rfl
@[simp] theorem State.modAccess_restarting (f : Access → Access) (s : State) :
    (s.modAccess f).restarting = s.restarting := rfl
@[simp] theorem State.modAccess_mode (f : Access → Access) (s : State) :
    (s.modAccess f).mode = s.mode := rfl
@[simp] theorem State.modAccess_clock (f : Access → Access) (s : State) :
    (s.modAccess f).clock = s.clock := rfl
@[simp] theorem State.modAccess_link (f : Access → Access) (s : State) :
    (s.modAccess f).link = s.link := rfl
@[simp] theorem State.modAccess_faults (f : Access → Access) (s : State) :
    (s.modAccess f).faults = s.faults := rfl
@[simp] theorem State.modAccess_store (f : Access → Access) (s : State) :
    (s.modAccess f).store = s.store := rfl
@[simp] theorem State.modAccess_carriers (f : Access → Access) (s : State) :
    (s.modAccess f).carriers = s.carriers := rfl
@[simp] theorem State.modAccess_classes (f : Access → Access) (s : State) :
    (s.modAccess f).classes = s.classes := rfl
@[simp] theorem State.modAccess_lanes (f : Access → Access) (s : State) :
    (s.modAccess f).lanes = s.lanes := rfl
@[simp] theorem State.modAccess_arb (f : Access → Access) (s : State) :
    (s.modAccess f).arb = s.arb := rfl
@[simp] theorem State.modAccess_sweep (f : Access → Access) (s : State) :
    (s.modAccess f).sweep = s.sweep := rfl
@[simp] theorem State.modAccess_services (f : Access → Access) (s : State) :
    (s.modAccess f).services = s.services := rfl
@[simp] theorem State.modAccess_slots (f : Access → Access) (s : State) :
    (s.modAccess f).slots = s.slots := rfl
@[simp] theorem State.modAccess_router (f : Access → Access) (s : State) :
    (s.modAccess f).router = s.router := rfl
@[simp] theorem State.modAccess_access (f : Access → Access) (s : State) :
    (s.modAccess f).access = f s.access := rfl
@[simp] theorem State.modAccess_guide (f : Access → Access) (s : State) :
    (s.modAccess f).guide = s.guide := rfl
@[simp] theorem State.modAccess_parental (f : Access → Access) (s : State) :
    (s.modAccess f).parental = s.parental := rfl
@[simp] theorem State.modAccess_gate (f : Access → Access) (s : State) :
    (s.modAccess f).gate = s.gate := rfl
@[simp] theorem State.modAccess_schedule (f : Access → Access) (s : State) :
    (s.modAccess f).schedule = s.schedule := rfl
@[simp] theorem State.modAccess_auxRises (f : Access → Access) (s : State) :
    (s.modAccess f).auxRises = s.auxRises := rfl
@[simp] theorem State.modAccess_out (f : Access → Access) (s : State) :
    (s.modAccess f).out = s.out := rfl
@[simp] theorem State.modAccess_nature (f : Access → Access) (s : State) :
    (s.modAccess f).nature = s.nature := rfl

/-! ### modGuide -/

@[simp] theorem State.modGuide_pending (f : Guide → Guide) (s : State) :
    (s.modGuide f).pending = s.pending := rfl
@[simp] theorem State.modGuide_power (f : Guide → Guide) (s : State) :
    (s.modGuide f).power = s.power := rfl
@[simp] theorem State.modGuide_booted (f : Guide → Guide) (s : State) :
    (s.modGuide f).booted = s.booted := rfl
@[simp] theorem State.modGuide_restarting (f : Guide → Guide) (s : State) :
    (s.modGuide f).restarting = s.restarting := rfl
@[simp] theorem State.modGuide_mode (f : Guide → Guide) (s : State) :
    (s.modGuide f).mode = s.mode := rfl
@[simp] theorem State.modGuide_clock (f : Guide → Guide) (s : State) :
    (s.modGuide f).clock = s.clock := rfl
@[simp] theorem State.modGuide_link (f : Guide → Guide) (s : State) :
    (s.modGuide f).link = s.link := rfl
@[simp] theorem State.modGuide_faults (f : Guide → Guide) (s : State) :
    (s.modGuide f).faults = s.faults := rfl
@[simp] theorem State.modGuide_store (f : Guide → Guide) (s : State) :
    (s.modGuide f).store = s.store := rfl
@[simp] theorem State.modGuide_carriers (f : Guide → Guide) (s : State) :
    (s.modGuide f).carriers = s.carriers := rfl
@[simp] theorem State.modGuide_classes (f : Guide → Guide) (s : State) :
    (s.modGuide f).classes = s.classes := rfl
@[simp] theorem State.modGuide_lanes (f : Guide → Guide) (s : State) :
    (s.modGuide f).lanes = s.lanes := rfl
@[simp] theorem State.modGuide_arb (f : Guide → Guide) (s : State) :
    (s.modGuide f).arb = s.arb := rfl
@[simp] theorem State.modGuide_sweep (f : Guide → Guide) (s : State) :
    (s.modGuide f).sweep = s.sweep := rfl
@[simp] theorem State.modGuide_services (f : Guide → Guide) (s : State) :
    (s.modGuide f).services = s.services := rfl
@[simp] theorem State.modGuide_slots (f : Guide → Guide) (s : State) :
    (s.modGuide f).slots = s.slots := rfl
@[simp] theorem State.modGuide_router (f : Guide → Guide) (s : State) :
    (s.modGuide f).router = s.router := rfl
@[simp] theorem State.modGuide_access (f : Guide → Guide) (s : State) :
    (s.modGuide f).access = s.access := rfl
@[simp] theorem State.modGuide_guide (f : Guide → Guide) (s : State) :
    (s.modGuide f).guide = f s.guide := rfl
@[simp] theorem State.modGuide_parental (f : Guide → Guide) (s : State) :
    (s.modGuide f).parental = s.parental := rfl
@[simp] theorem State.modGuide_gate (f : Guide → Guide) (s : State) :
    (s.modGuide f).gate = s.gate := rfl
@[simp] theorem State.modGuide_schedule (f : Guide → Guide) (s : State) :
    (s.modGuide f).schedule = s.schedule := rfl
@[simp] theorem State.modGuide_auxRises (f : Guide → Guide) (s : State) :
    (s.modGuide f).auxRises = s.auxRises := rfl
@[simp] theorem State.modGuide_out (f : Guide → Guide) (s : State) :
    (s.modGuide f).out = s.out := rfl
@[simp] theorem State.modGuide_nature (f : Guide → Guide) (s : State) :
    (s.modGuide f).nature = s.nature := rfl

/-! ### modParental -/

@[simp] theorem State.modParental_pending (f : Parental → Parental) (s : State) :
    (s.modParental f).pending = s.pending := rfl
@[simp] theorem State.modParental_power (f : Parental → Parental) (s : State) :
    (s.modParental f).power = s.power := rfl
@[simp] theorem State.modParental_booted (f : Parental → Parental) (s : State) :
    (s.modParental f).booted = s.booted := rfl
@[simp] theorem State.modParental_restarting (f : Parental → Parental) (s : State) :
    (s.modParental f).restarting = s.restarting := rfl
@[simp] theorem State.modParental_mode (f : Parental → Parental) (s : State) :
    (s.modParental f).mode = s.mode := rfl
@[simp] theorem State.modParental_clock (f : Parental → Parental) (s : State) :
    (s.modParental f).clock = s.clock := rfl
@[simp] theorem State.modParental_link (f : Parental → Parental) (s : State) :
    (s.modParental f).link = s.link := rfl
@[simp] theorem State.modParental_faults (f : Parental → Parental) (s : State) :
    (s.modParental f).faults = s.faults := rfl
@[simp] theorem State.modParental_store (f : Parental → Parental) (s : State) :
    (s.modParental f).store = s.store := rfl
@[simp] theorem State.modParental_carriers (f : Parental → Parental) (s : State) :
    (s.modParental f).carriers = s.carriers := rfl
@[simp] theorem State.modParental_classes (f : Parental → Parental) (s : State) :
    (s.modParental f).classes = s.classes := rfl
@[simp] theorem State.modParental_lanes (f : Parental → Parental) (s : State) :
    (s.modParental f).lanes = s.lanes := rfl
@[simp] theorem State.modParental_arb (f : Parental → Parental) (s : State) :
    (s.modParental f).arb = s.arb := rfl
@[simp] theorem State.modParental_sweep (f : Parental → Parental) (s : State) :
    (s.modParental f).sweep = s.sweep := rfl
@[simp] theorem State.modParental_services (f : Parental → Parental) (s : State) :
    (s.modParental f).services = s.services := rfl
@[simp] theorem State.modParental_slots (f : Parental → Parental) (s : State) :
    (s.modParental f).slots = s.slots := rfl
@[simp] theorem State.modParental_router (f : Parental → Parental) (s : State) :
    (s.modParental f).router = s.router := rfl
@[simp] theorem State.modParental_access (f : Parental → Parental) (s : State) :
    (s.modParental f).access = s.access := rfl
@[simp] theorem State.modParental_guide (f : Parental → Parental) (s : State) :
    (s.modParental f).guide = s.guide := rfl
@[simp] theorem State.modParental_parental (f : Parental → Parental) (s : State) :
    (s.modParental f).parental = f s.parental := rfl
@[simp] theorem State.modParental_gate (f : Parental → Parental) (s : State) :
    (s.modParental f).gate = s.gate := rfl
@[simp] theorem State.modParental_schedule (f : Parental → Parental) (s : State) :
    (s.modParental f).schedule = s.schedule := rfl
@[simp] theorem State.modParental_auxRises (f : Parental → Parental) (s : State) :
    (s.modParental f).auxRises = s.auxRises := rfl
@[simp] theorem State.modParental_out (f : Parental → Parental) (s : State) :
    (s.modParental f).out = s.out := rfl
@[simp] theorem State.modParental_nature (f : Parental → Parental) (s : State) :
    (s.modParental f).nature = s.nature := rfl

/-! ### modGate -/

@[simp] theorem State.modGate_pending (f : Gate → Gate) (s : State) :
    (s.modGate f).pending = s.pending := rfl
@[simp] theorem State.modGate_power (f : Gate → Gate) (s : State) :
    (s.modGate f).power = s.power := rfl
@[simp] theorem State.modGate_booted (f : Gate → Gate) (s : State) :
    (s.modGate f).booted = s.booted := rfl
@[simp] theorem State.modGate_restarting (f : Gate → Gate) (s : State) :
    (s.modGate f).restarting = s.restarting := rfl
@[simp] theorem State.modGate_mode (f : Gate → Gate) (s : State) :
    (s.modGate f).mode = s.mode := rfl
@[simp] theorem State.modGate_clock (f : Gate → Gate) (s : State) :
    (s.modGate f).clock = s.clock := rfl
@[simp] theorem State.modGate_link (f : Gate → Gate) (s : State) :
    (s.modGate f).link = s.link := rfl
@[simp] theorem State.modGate_faults (f : Gate → Gate) (s : State) :
    (s.modGate f).faults = s.faults := rfl
@[simp] theorem State.modGate_store (f : Gate → Gate) (s : State) :
    (s.modGate f).store = s.store := rfl
@[simp] theorem State.modGate_carriers (f : Gate → Gate) (s : State) :
    (s.modGate f).carriers = s.carriers := rfl
@[simp] theorem State.modGate_classes (f : Gate → Gate) (s : State) :
    (s.modGate f).classes = s.classes := rfl
@[simp] theorem State.modGate_lanes (f : Gate → Gate) (s : State) :
    (s.modGate f).lanes = s.lanes := rfl
@[simp] theorem State.modGate_arb (f : Gate → Gate) (s : State) :
    (s.modGate f).arb = s.arb := rfl
@[simp] theorem State.modGate_sweep (f : Gate → Gate) (s : State) :
    (s.modGate f).sweep = s.sweep := rfl
@[simp] theorem State.modGate_services (f : Gate → Gate) (s : State) :
    (s.modGate f).services = s.services := rfl
@[simp] theorem State.modGate_slots (f : Gate → Gate) (s : State) :
    (s.modGate f).slots = s.slots := rfl
@[simp] theorem State.modGate_router (f : Gate → Gate) (s : State) :
    (s.modGate f).router = s.router := rfl
@[simp] theorem State.modGate_access (f : Gate → Gate) (s : State) :
    (s.modGate f).access = s.access := rfl
@[simp] theorem State.modGate_guide (f : Gate → Gate) (s : State) :
    (s.modGate f).guide = s.guide := rfl
@[simp] theorem State.modGate_parental (f : Gate → Gate) (s : State) :
    (s.modGate f).parental = s.parental := rfl
@[simp] theorem State.modGate_gate (f : Gate → Gate) (s : State) :
    (s.modGate f).gate = f s.gate := rfl
@[simp] theorem State.modGate_schedule (f : Gate → Gate) (s : State) :
    (s.modGate f).schedule = s.schedule := rfl
@[simp] theorem State.modGate_auxRises (f : Gate → Gate) (s : State) :
    (s.modGate f).auxRises = s.auxRises := rfl
@[simp] theorem State.modGate_out (f : Gate → Gate) (s : State) :
    (s.modGate f).out = s.out := rfl
@[simp] theorem State.modGate_nature (f : Gate → Gate) (s : State) :
    (s.modGate f).nature = s.nature := rfl

/-! ### modCarriers -/

@[simp] theorem State.modCarriers_pending (f : List Carrier → List Carrier) (s : State) :
    (s.modCarriers f).pending = s.pending := rfl
@[simp] theorem State.modCarriers_power (f : List Carrier → List Carrier) (s : State) :
    (s.modCarriers f).power = s.power := rfl
@[simp] theorem State.modCarriers_booted (f : List Carrier → List Carrier) (s : State) :
    (s.modCarriers f).booted = s.booted := rfl
@[simp] theorem State.modCarriers_restarting (f : List Carrier → List Carrier) (s : State) :
    (s.modCarriers f).restarting = s.restarting := rfl
@[simp] theorem State.modCarriers_mode (f : List Carrier → List Carrier) (s : State) :
    (s.modCarriers f).mode = s.mode := rfl
@[simp] theorem State.modCarriers_clock (f : List Carrier → List Carrier) (s : State) :
    (s.modCarriers f).clock = s.clock := rfl
@[simp] theorem State.modCarriers_link (f : List Carrier → List Carrier) (s : State) :
    (s.modCarriers f).link = s.link := rfl
@[simp] theorem State.modCarriers_faults (f : List Carrier → List Carrier) (s : State) :
    (s.modCarriers f).faults = s.faults := rfl
@[simp] theorem State.modCarriers_store (f : List Carrier → List Carrier) (s : State) :
    (s.modCarriers f).store = s.store := rfl
@[simp] theorem State.modCarriers_carriers (f : List Carrier → List Carrier) (s : State) :
    (s.modCarriers f).carriers = f s.carriers := rfl
@[simp] theorem State.modCarriers_classes (f : List Carrier → List Carrier) (s : State) :
    (s.modCarriers f).classes = s.classes := rfl
@[simp] theorem State.modCarriers_lanes (f : List Carrier → List Carrier) (s : State) :
    (s.modCarriers f).lanes = s.lanes := rfl
@[simp] theorem State.modCarriers_arb (f : List Carrier → List Carrier) (s : State) :
    (s.modCarriers f).arb = s.arb := rfl
@[simp] theorem State.modCarriers_sweep (f : List Carrier → List Carrier) (s : State) :
    (s.modCarriers f).sweep = s.sweep := rfl
@[simp] theorem State.modCarriers_services (f : List Carrier → List Carrier) (s : State) :
    (s.modCarriers f).services = s.services := rfl
@[simp] theorem State.modCarriers_slots (f : List Carrier → List Carrier) (s : State) :
    (s.modCarriers f).slots = s.slots := rfl
@[simp] theorem State.modCarriers_router (f : List Carrier → List Carrier) (s : State) :
    (s.modCarriers f).router = s.router := rfl
@[simp] theorem State.modCarriers_access (f : List Carrier → List Carrier) (s : State) :
    (s.modCarriers f).access = s.access := rfl
@[simp] theorem State.modCarriers_guide (f : List Carrier → List Carrier) (s : State) :
    (s.modCarriers f).guide = s.guide := rfl
@[simp] theorem State.modCarriers_parental (f : List Carrier → List Carrier) (s : State) :
    (s.modCarriers f).parental = s.parental := rfl
@[simp] theorem State.modCarriers_gate (f : List Carrier → List Carrier) (s : State) :
    (s.modCarriers f).gate = s.gate := rfl
@[simp] theorem State.modCarriers_schedule (f : List Carrier → List Carrier) (s : State) :
    (s.modCarriers f).schedule = s.schedule := rfl
@[simp] theorem State.modCarriers_auxRises (f : List Carrier → List Carrier) (s : State) :
    (s.modCarriers f).auxRises = s.auxRises := rfl
@[simp] theorem State.modCarriers_out (f : List Carrier → List Carrier) (s : State) :
    (s.modCarriers f).out = s.out := rfl
@[simp] theorem State.modCarriers_nature (f : List Carrier → List Carrier) (s : State) :
    (s.modCarriers f).nature = s.nature := rfl

/-! ### modServices -/

@[simp] theorem State.modServices_pending (f : List Service → List Service) (s : State) :
    (s.modServices f).pending = s.pending := rfl
@[simp] theorem State.modServices_power (f : List Service → List Service) (s : State) :
    (s.modServices f).power = s.power := rfl
@[simp] theorem State.modServices_booted (f : List Service → List Service) (s : State) :
    (s.modServices f).booted = s.booted := rfl
@[simp] theorem State.modServices_restarting (f : List Service → List Service) (s : State) :
    (s.modServices f).restarting = s.restarting := rfl
@[simp] theorem State.modServices_mode (f : List Service → List Service) (s : State) :
    (s.modServices f).mode = s.mode := rfl
@[simp] theorem State.modServices_clock (f : List Service → List Service) (s : State) :
    (s.modServices f).clock = s.clock := rfl
@[simp] theorem State.modServices_link (f : List Service → List Service) (s : State) :
    (s.modServices f).link = s.link := rfl
@[simp] theorem State.modServices_faults (f : List Service → List Service) (s : State) :
    (s.modServices f).faults = s.faults := rfl
@[simp] theorem State.modServices_store (f : List Service → List Service) (s : State) :
    (s.modServices f).store = s.store := rfl
@[simp] theorem State.modServices_carriers (f : List Service → List Service) (s : State) :
    (s.modServices f).carriers = s.carriers := rfl
@[simp] theorem State.modServices_classes (f : List Service → List Service) (s : State) :
    (s.modServices f).classes = s.classes := rfl
@[simp] theorem State.modServices_lanes (f : List Service → List Service) (s : State) :
    (s.modServices f).lanes = s.lanes := rfl
@[simp] theorem State.modServices_arb (f : List Service → List Service) (s : State) :
    (s.modServices f).arb = s.arb := rfl
@[simp] theorem State.modServices_sweep (f : List Service → List Service) (s : State) :
    (s.modServices f).sweep = s.sweep := rfl
@[simp] theorem State.modServices_services (f : List Service → List Service) (s : State) :
    (s.modServices f).services = f s.services := rfl
@[simp] theorem State.modServices_slots (f : List Service → List Service) (s : State) :
    (s.modServices f).slots = s.slots := rfl
@[simp] theorem State.modServices_router (f : List Service → List Service) (s : State) :
    (s.modServices f).router = s.router := rfl
@[simp] theorem State.modServices_access (f : List Service → List Service) (s : State) :
    (s.modServices f).access = s.access := rfl
@[simp] theorem State.modServices_guide (f : List Service → List Service) (s : State) :
    (s.modServices f).guide = s.guide := rfl
@[simp] theorem State.modServices_parental (f : List Service → List Service) (s : State) :
    (s.modServices f).parental = s.parental := rfl
@[simp] theorem State.modServices_gate (f : List Service → List Service) (s : State) :
    (s.modServices f).gate = s.gate := rfl
@[simp] theorem State.modServices_schedule (f : List Service → List Service) (s : State) :
    (s.modServices f).schedule = s.schedule := rfl
@[simp] theorem State.modServices_auxRises (f : List Service → List Service) (s : State) :
    (s.modServices f).auxRises = s.auxRises := rfl
@[simp] theorem State.modServices_out (f : List Service → List Service) (s : State) :
    (s.modServices f).out = s.out := rfl
@[simp] theorem State.modServices_nature (f : List Service → List Service) (s : State) :
    (s.modServices f).nature = s.nature := rfl

/-! ### setMode -/

@[simp] theorem State.setMode_pending (m : Mode) (s : State) :
    (s.setMode m).pending = s.pending := rfl
@[simp] theorem State.setMode_power (m : Mode) (s : State) :
    (s.setMode m).power = s.power := rfl
@[simp] theorem State.setMode_booted (m : Mode) (s : State) :
    (s.setMode m).booted = s.booted := rfl
@[simp] theorem State.setMode_restarting (m : Mode) (s : State) :
    (s.setMode m).restarting = s.restarting := rfl
@[simp] theorem State.setMode_mode (m : Mode) (s : State) :
    (s.setMode m).mode = m := rfl
@[simp] theorem State.setMode_clock (m : Mode) (s : State) :
    (s.setMode m).clock = s.clock := rfl
@[simp] theorem State.setMode_link (m : Mode) (s : State) :
    (s.setMode m).link = s.link := rfl
@[simp] theorem State.setMode_faults (m : Mode) (s : State) :
    (s.setMode m).faults = s.faults := rfl
@[simp] theorem State.setMode_store (m : Mode) (s : State) :
    (s.setMode m).store = s.store := rfl
@[simp] theorem State.setMode_carriers (m : Mode) (s : State) :
    (s.setMode m).carriers = s.carriers := rfl
@[simp] theorem State.setMode_classes (m : Mode) (s : State) :
    (s.setMode m).classes = s.classes := rfl
@[simp] theorem State.setMode_lanes (m : Mode) (s : State) :
    (s.setMode m).lanes = s.lanes := rfl
@[simp] theorem State.setMode_arb (m : Mode) (s : State) :
    (s.setMode m).arb = s.arb := rfl
@[simp] theorem State.setMode_sweep (m : Mode) (s : State) :
    (s.setMode m).sweep = s.sweep := rfl
@[simp] theorem State.setMode_services (m : Mode) (s : State) :
    (s.setMode m).services = s.services := rfl
@[simp] theorem State.setMode_slots (m : Mode) (s : State) :
    (s.setMode m).slots = s.slots := rfl
@[simp] theorem State.setMode_router (m : Mode) (s : State) :
    (s.setMode m).router = s.router := rfl
@[simp] theorem State.setMode_access (m : Mode) (s : State) :
    (s.setMode m).access = s.access := rfl
@[simp] theorem State.setMode_guide (m : Mode) (s : State) :
    (s.setMode m).guide = s.guide := rfl
@[simp] theorem State.setMode_parental (m : Mode) (s : State) :
    (s.setMode m).parental = s.parental := rfl
@[simp] theorem State.setMode_gate (m : Mode) (s : State) :
    (s.setMode m).gate = s.gate := rfl
@[simp] theorem State.setMode_schedule (m : Mode) (s : State) :
    (s.setMode m).schedule = s.schedule := rfl
@[simp] theorem State.setMode_auxRises (m : Mode) (s : State) :
    (s.setMode m).auxRises = s.auxRises := rfl
@[simp] theorem State.setMode_out (m : Mode) (s : State) :
    (s.setMode m).out = s.out := rfl
@[simp] theorem State.setMode_nature (m : Mode) (s : State) :
    (s.setMode m).nature = s.nature := rfl

/-! ### emit -/

@[simp] theorem State.emit_pending (o : PortOut) (s : State) :
    (s.emit o).pending = s.pending := rfl
@[simp] theorem State.emit_power (o : PortOut) (s : State) :
    (s.emit o).power = s.power := rfl
@[simp] theorem State.emit_booted (o : PortOut) (s : State) :
    (s.emit o).booted = s.booted := rfl
@[simp] theorem State.emit_restarting (o : PortOut) (s : State) :
    (s.emit o).restarting = s.restarting := rfl
@[simp] theorem State.emit_mode (o : PortOut) (s : State) :
    (s.emit o).mode = s.mode := rfl
@[simp] theorem State.emit_clock (o : PortOut) (s : State) :
    (s.emit o).clock = s.clock := rfl
@[simp] theorem State.emit_link (o : PortOut) (s : State) :
    (s.emit o).link = s.link := rfl
@[simp] theorem State.emit_faults (o : PortOut) (s : State) :
    (s.emit o).faults = s.faults := rfl
@[simp] theorem State.emit_store (o : PortOut) (s : State) :
    (s.emit o).store = s.store := rfl
@[simp] theorem State.emit_carriers (o : PortOut) (s : State) :
    (s.emit o).carriers = s.carriers := rfl
@[simp] theorem State.emit_classes (o : PortOut) (s : State) :
    (s.emit o).classes = s.classes := rfl
@[simp] theorem State.emit_lanes (o : PortOut) (s : State) :
    (s.emit o).lanes = s.lanes := rfl
@[simp] theorem State.emit_arb (o : PortOut) (s : State) :
    (s.emit o).arb = s.arb := rfl
@[simp] theorem State.emit_sweep (o : PortOut) (s : State) :
    (s.emit o).sweep = s.sweep := rfl
@[simp] theorem State.emit_services (o : PortOut) (s : State) :
    (s.emit o).services = s.services := rfl
@[simp] theorem State.emit_slots (o : PortOut) (s : State) :
    (s.emit o).slots = s.slots := rfl
@[simp] theorem State.emit_router (o : PortOut) (s : State) :
    (s.emit o).router = s.router := rfl
@[simp] theorem State.emit_access (o : PortOut) (s : State) :
    (s.emit o).access = s.access := rfl
@[simp] theorem State.emit_guide (o : PortOut) (s : State) :
    (s.emit o).guide = s.guide := rfl
@[simp] theorem State.emit_parental (o : PortOut) (s : State) :
    (s.emit o).parental = s.parental := rfl
@[simp] theorem State.emit_gate (o : PortOut) (s : State) :
    (s.emit o).gate = s.gate := rfl
@[simp] theorem State.emit_schedule (o : PortOut) (s : State) :
    (s.emit o).schedule = s.schedule := rfl
@[simp] theorem State.emit_auxRises (o : PortOut) (s : State) :
    (s.emit o).auxRises = s.auxRises := rfl
@[simp] theorem State.emit_out (o : PortOut) (s : State) :
    (s.emit o).out = s.out ++ [o] := rfl
@[simp] theorem State.emit_nature (o : PortOut) (s : State) :
    (s.emit o).nature = s.nature := rfl

/-! ### clearOut -/

@[simp] theorem State.clearOut_pending (s : State) :
    (s.clearOut).pending = s.pending := rfl
@[simp] theorem State.clearOut_power (s : State) :
    (s.clearOut).power = s.power := rfl
@[simp] theorem State.clearOut_booted (s : State) :
    (s.clearOut).booted = s.booted := rfl
@[simp] theorem State.clearOut_restarting (s : State) :
    (s.clearOut).restarting = s.restarting := rfl
@[simp] theorem State.clearOut_mode (s : State) :
    (s.clearOut).mode = s.mode := rfl
@[simp] theorem State.clearOut_clock (s : State) :
    (s.clearOut).clock = s.clock := rfl
@[simp] theorem State.clearOut_link (s : State) :
    (s.clearOut).link = s.link := rfl
@[simp] theorem State.clearOut_faults (s : State) :
    (s.clearOut).faults = s.faults := rfl
@[simp] theorem State.clearOut_store (s : State) :
    (s.clearOut).store = s.store := rfl
@[simp] theorem State.clearOut_carriers (s : State) :
    (s.clearOut).carriers = s.carriers := rfl
@[simp] theorem State.clearOut_classes (s : State) :
    (s.clearOut).classes = s.classes := rfl
@[simp] theorem State.clearOut_lanes (s : State) :
    (s.clearOut).lanes = s.lanes := rfl
@[simp] theorem State.clearOut_arb (s : State) :
    (s.clearOut).arb = s.arb := rfl
@[simp] theorem State.clearOut_sweep (s : State) :
    (s.clearOut).sweep = s.sweep := rfl
@[simp] theorem State.clearOut_services (s : State) :
    (s.clearOut).services = s.services := rfl
@[simp] theorem State.clearOut_slots (s : State) :
    (s.clearOut).slots = s.slots := rfl
@[simp] theorem State.clearOut_router (s : State) :
    (s.clearOut).router = s.router := rfl
@[simp] theorem State.clearOut_access (s : State) :
    (s.clearOut).access = s.access := rfl
@[simp] theorem State.clearOut_guide (s : State) :
    (s.clearOut).guide = s.guide := rfl
@[simp] theorem State.clearOut_parental (s : State) :
    (s.clearOut).parental = s.parental := rfl
@[simp] theorem State.clearOut_gate (s : State) :
    (s.clearOut).gate = s.gate := rfl
@[simp] theorem State.clearOut_schedule (s : State) :
    (s.clearOut).schedule = s.schedule := rfl
@[simp] theorem State.clearOut_auxRises (s : State) :
    (s.clearOut).auxRises = s.auxRises := rfl
@[simp] theorem State.clearOut_out (s : State) :
    (s.clearOut).out = [] := rfl
@[simp] theorem State.clearOut_nature (s : State) :
    (s.clearOut).nature = s.nature := rfl

/-! ### countDraw -/

@[simp] theorem State.countDraw_pending (s : State) :
    (s.countDraw).pending = s.pending := rfl
@[simp] theorem State.countDraw_power (s : State) :
    (s.countDraw).power = s.power := rfl
@[simp] theorem State.countDraw_booted (s : State) :
    (s.countDraw).booted = s.booted := rfl
@[simp] theorem State.countDraw_restarting (s : State) :
    (s.countDraw).restarting = s.restarting := rfl
@[simp] theorem State.countDraw_mode (s : State) :
    (s.countDraw).mode = s.mode := rfl
@[simp] theorem State.countDraw_clock (s : State) :
    (s.countDraw).clock = s.clock := rfl
@[simp] theorem State.countDraw_link (s : State) :
    (s.countDraw).link = s.link := rfl
@[simp] theorem State.countDraw_faults (s : State) :
    (s.countDraw).faults = s.faults := rfl
@[simp] theorem State.countDraw_store (s : State) :
    (s.countDraw).store = s.store := rfl
@[simp] theorem State.countDraw_carriers (s : State) :
    (s.countDraw).carriers = s.carriers := rfl
@[simp] theorem State.countDraw_classes (s : State) :
    (s.countDraw).classes = s.classes := rfl
@[simp] theorem State.countDraw_lanes (s : State) :
    (s.countDraw).lanes = s.lanes := rfl
@[simp] theorem State.countDraw_arb (s : State) :
    (s.countDraw).arb = s.arb := rfl
@[simp] theorem State.countDraw_sweep (s : State) :
    (s.countDraw).sweep = s.sweep := rfl
@[simp] theorem State.countDraw_services (s : State) :
    (s.countDraw).services = s.services := rfl
@[simp] theorem State.countDraw_slots (s : State) :
    (s.countDraw).slots = s.slots := rfl
@[simp] theorem State.countDraw_router (s : State) :
    (s.countDraw).router = s.router := rfl
@[simp] theorem State.countDraw_access (s : State) :
    (s.countDraw).access = s.access := rfl
@[simp] theorem State.countDraw_guide (s : State) :
    (s.countDraw).guide = s.guide := rfl
@[simp] theorem State.countDraw_parental (s : State) :
    (s.countDraw).parental = s.parental := rfl
@[simp] theorem State.countDraw_gate (s : State) :
    (s.countDraw).gate = s.gate := rfl
@[simp] theorem State.countDraw_schedule (s : State) :
    (s.countDraw).schedule = s.schedule := rfl
@[simp] theorem State.countDraw_auxRises (s : State) :
    (s.countDraw).auxRises = s.auxRises := rfl
@[simp] theorem State.countDraw_out (s : State) :
    (s.countDraw).out = s.out := rfl
@[simp] theorem State.countDraw_nature (s : State) :
    (s.countDraw).nature = { s.nature with drawn := s.nature.drawn + 1 } := rfl

/-! ### countGood -/

@[simp] theorem State.countGood_pending (s : State) :
    s.countGood.pending = s.pending := rfl
@[simp] theorem State.countGood_power (s : State) :
    s.countGood.power = s.power := rfl
@[simp] theorem State.countGood_booted (s : State) :
    s.countGood.booted = s.booted := rfl
@[simp] theorem State.countGood_restarting (s : State) :
    s.countGood.restarting = s.restarting := rfl
@[simp] theorem State.countGood_mode (s : State) :
    s.countGood.mode = s.mode := rfl
@[simp] theorem State.countGood_clock (s : State) :
    s.countGood.clock = s.clock := rfl
@[simp] theorem State.countGood_faults (s : State) :
    s.countGood.faults = s.faults := rfl
@[simp] theorem State.countGood_store (s : State) :
    s.countGood.store = s.store := rfl
@[simp] theorem State.countGood_carriers (s : State) :
    s.countGood.carriers = s.carriers := rfl
@[simp] theorem State.countGood_classes (s : State) :
    s.countGood.classes = s.classes := rfl
@[simp] theorem State.countGood_lanes (s : State) :
    s.countGood.lanes = s.lanes := rfl
@[simp] theorem State.countGood_arb (s : State) :
    s.countGood.arb = s.arb := rfl
@[simp] theorem State.countGood_sweep (s : State) :
    s.countGood.sweep = s.sweep := rfl
@[simp] theorem State.countGood_services (s : State) :
    s.countGood.services = s.services := rfl
@[simp] theorem State.countGood_slots (s : State) :
    s.countGood.slots = s.slots := rfl
@[simp] theorem State.countGood_router (s : State) :
    s.countGood.router = s.router := rfl
@[simp] theorem State.countGood_access (s : State) :
    s.countGood.access = s.access := rfl
@[simp] theorem State.countGood_guide (s : State) :
    s.countGood.guide = s.guide := rfl
@[simp] theorem State.countGood_parental (s : State) :
    s.countGood.parental = s.parental := rfl
@[simp] theorem State.countGood_gate (s : State) :
    s.countGood.gate = s.gate := rfl
@[simp] theorem State.countGood_schedule (s : State) :
    s.countGood.schedule = s.schedule := rfl
@[simp] theorem State.countGood_auxRises (s : State) :
    s.countGood.auxRises = s.auxRises := rfl
@[simp] theorem State.countGood_out (s : State) :
    s.countGood.out = s.out := rfl
@[simp] theorem State.countGood_nature (s : State) :
    s.countGood.nature = s.nature := rfl

/-! ### startTx -/

@[simp] theorem State.startTx_pending (s : State) :
    s.startTx.pending = s.pending := rfl
@[simp] theorem State.startTx_power (s : State) :
    s.startTx.power = s.power := rfl
@[simp] theorem State.startTx_booted (s : State) :
    s.startTx.booted = s.booted := rfl
@[simp] theorem State.startTx_restarting (s : State) :
    s.startTx.restarting = s.restarting := rfl
@[simp] theorem State.startTx_mode (s : State) :
    s.startTx.mode = s.mode := rfl
@[simp] theorem State.startTx_clock (s : State) :
    s.startTx.clock = s.clock := rfl
@[simp] theorem State.startTx_faults (s : State) :
    s.startTx.faults = s.faults := rfl
@[simp] theorem State.startTx_store (s : State) :
    s.startTx.store = s.store := rfl
@[simp] theorem State.startTx_carriers (s : State) :
    s.startTx.carriers = s.carriers := rfl
@[simp] theorem State.startTx_classes (s : State) :
    s.startTx.classes = s.classes := rfl
@[simp] theorem State.startTx_lanes (s : State) :
    s.startTx.lanes = s.lanes := rfl
@[simp] theorem State.startTx_arb (s : State) :
    s.startTx.arb = s.arb := rfl
@[simp] theorem State.startTx_sweep (s : State) :
    s.startTx.sweep = s.sweep := rfl
@[simp] theorem State.startTx_services (s : State) :
    s.startTx.services = s.services := rfl
@[simp] theorem State.startTx_slots (s : State) :
    s.startTx.slots = s.slots := rfl
@[simp] theorem State.startTx_router (s : State) :
    s.startTx.router = s.router := rfl
@[simp] theorem State.startTx_access (s : State) :
    s.startTx.access = s.access := rfl
@[simp] theorem State.startTx_guide (s : State) :
    s.startTx.guide = s.guide := rfl
@[simp] theorem State.startTx_parental (s : State) :
    s.startTx.parental = s.parental := rfl
@[simp] theorem State.startTx_gate (s : State) :
    s.startTx.gate = s.gate := rfl
@[simp] theorem State.startTx_schedule (s : State) :
    s.startTx.schedule = s.schedule := rfl
@[simp] theorem State.startTx_auxRises (s : State) :
    s.startTx.auxRises = s.auxRises := rfl
@[simp] theorem State.startTx_out (s : State) :
    s.startTx.out = s.out := rfl
@[simp] theorem State.startTx_nature (s : State) :
    s.startTx.nature = s.nature := rfl

end Sys2Proof.Machine
end

