-- ==== Sys2Proof/Laws/Tables.lean ====
section
/-! SUPPORT. The keyed tables: what each operation does to the canonical form and to a lookup, and what a
loop over a list keeps. -/

namespace Sys2Proof.Machine

open Sys2Proof

variable {α : Type}

/-- The keys of a table after an insertion: the key inserted, and those that were there. -/
theorem mem_keyPut {key : α → Nat} {a b : α} {l : List α} (h : b ∈ keyPut key a l) : b = a ∨ b ∈ l := by
  induction l with
  | nil => simpa [keyPut] using h
  | cons c l ih =>
    unfold keyPut at h
    split at h
    · simpa using h
    · split at h
      · rcases List.mem_cons.1 h with h | h
        · exact .inl h
        · exact .inr (List.mem_cons_of_mem _ h)
      · rcases List.mem_cons.1 h with h | h
        · exact .inr (by simp [h])
        · exact (ih h).imp id (List.mem_cons_of_mem _)

theorem keySorted_keyPut {key : α → Nat} (a : α) {l : List α} (h : KeySorted key l) :
    KeySorted key (keyPut key a l) := by
  induction l with
  | nil => simp [keyPut, KeySorted]
  | cons b l ih =>
    obtain ⟨hb, hl⟩ := List.pairwise_cons.1 h
    unfold keyPut
    split
    · rename_i hlt
      refine List.pairwise_cons.2 ⟨fun c hc => ?_, h⟩
      rcases List.mem_cons.1 hc with rfl | hc
      · exact hlt
      · exact hlt.trans (hb c hc)
    · split
      · rename_i heq
        exact List.pairwise_cons.2 ⟨fun c hc => heq ▸ hb c hc, hl⟩
      · refine List.pairwise_cons.2 ⟨fun c hc => ?_, ih hl⟩
        rcases mem_keyPut hc with rfl | hc
        · omega
        · exact hb c hc

theorem keySorted_keyDrop {key : α → Nat} (n : Nat) {l : List α} (h : KeySorted key l) :
    KeySorted key (keyDrop key n l) := List.Pairwise.filter _ h

theorem keyFind_keyPut {key : α → Nat} (a : α) (n : Nat) {l : List α} (h : KeySorted key l) :
    keyFind key n (keyPut key a l) = if key a = n then some a else keyFind key n l := by
  induction l with
  | nil => by_cases ha : key a = n <;> simp [keyPut, keyFind, ha]
  | cons b l ih =>
    obtain ⟨hb, hl⟩ := List.pairwise_cons.1 h
    have ih := ih hl
    simp only [keyFind] at ih ⊢
    unfold keyPut
    split
    · by_cases ha : key a = n <;> simp [List.find?_cons, ha]
    · split
      · rename_i heq
        by_cases ha : key a = n
        · simp [ha]
        · have : ¬ key b = n := fun hbn => ha (heq.trans hbn)
          simp [ha, this]
      · rename_i hne
        by_cases hbn : key b = n
        · have : ¬ key a = n := fun han => hne (han.trans hbn.symm)
          simp [hbn, this]
        · simp [hbn, ih]

theorem keyFind_keyDrop {key : α → Nat} (n m : Nat) (l : List α) :
    keyFind key m (keyDrop key n l) = if m = n then none else keyFind key m l := by
  induction l with
  | nil => simp [keyFind, keyDrop]
  | cons b l ih =>
    simp only [keyFind, keyDrop] at ih ⊢
    by_cases hbn : key b = n <;> by_cases hbm : key b = m <;> by_cases hmn : m = n <;>
      simp_all

theorem keyFind_some {key : α → Nat} {n : Nat} {l : List α} {a : α} (h : keyFind key n l = some a) :
    a ∈ l ∧ key a = n := by
  refine ⟨List.mem_of_find?_eq_some h, ?_⟩
  simpa using List.find?_some h

/-- In a keyed table two entries of one key are one. -/
theorem keySorted_unique {key : α → Nat} {l : List α} (h : KeySorted key l) {a b : α}
    (ha : a ∈ l) (hb : b ∈ l) (e : key a = key b) : a = b :=
  List.inj_on_of_nodup_map (List.pairwise_map.2 (h.imp fun hlt => Nat.ne_of_lt hlt)) ha hb e

theorem mem_insertBy {m : α → Nat} {a b : α} {l : List α} : b ∈ insertBy m a l ↔ b = a ∨ b ∈ l := by
  induction l with
  | nil => simp [insertBy]
  | cons c l ih =>
    unfold insertBy
    split
    · simp
    · simp only [List.mem_cons, ih]; tauto

/-- A loop keeps what each of its rounds keeps. -/
theorem forEach_keeps {P : State → Prop} {l : List α} {f : α → State → State}
    (h : ∀ a ∈ l, ∀ s, P s → P (f a s)) {s : State} (hs : P s) : P (forEach l f s) := by
  induction l generalizing s with
  | nil => exact hs
  | cons a l ih =>
    exact ih (fun b hb => h b (List.mem_cons_of_mem _ hb)) (h a (by simp) s hs)

@[simp] theorem forEach_nil (f : α → State → State) (s : State) : forEach [] f s = s := rfl

@[simp] theorem forEach_cons (a : α) (l : List α) (f : α → State → State) (s : State) :
    forEach (a :: l) f s = forEach l f (f a s) := rfl

end Sys2Proof.Machine
end

