-- ==== Sys2Proof/Laws/Flow.lean ====
section
/-! SUPPORT. What the operations of slots, lanes, gates and the guide's reads can do, said once: the relation
`Flow` between a state and one they lead to. They touch no table, clock, purse, store, profile, mode or
reply; they keep what the spec says of the gate array, the wait queue, the filter table, the notice queue
and the guide; and a slot that is out of it all stays as it is. -/

namespace Sys2Proof.Machine

open Sys2Proof

/-- What a state and one that movement leads to have in common. `k` names a slot that is watched, if one
is: the movement is none of its own. -/
structure Flow (k : Option (Fin 5)) (s t : State) : Prop where
  still : t.still = s.still
  off : ∀ l, (t.lane l).state = .off ↔ (s.lane l).state = .off
  tally : ∀ l, (t.lane l).tally = (s.lane l).tally
  gate : s.gate.ok → t.gate.ok
  queue : s.arb.ok → t.arb.ok
  filters : KeySorted Filter.key s.router.filters → KeySorted Filter.key t.router.filters
  notices : s.link.notices.length ≤ 32 → t.link.notices.length ≤ 32
  flags : ∀ i : Fin 10, s.link.flags[i] = true → t.link.flags[i] = true
  guide : s.guide.ok → t.guide.ok
  out : ∀ j ∈ k, s.outSlot j → t.outSlot j ∧ (t.slot j).view = (s.slot j).view
  sheds : t.guide.places.Sublist s.guide.places
  stays : KeySorted (·.num) s.guide.places →
    ∀ p ∈ s.guide.places, p.disturbed ≤ 1 → p ∈ t.guide.places

theorem Flow.refl (k : Option (Fin 5)) (s : State) : Flow k s s :=
  ⟨rfl, fun _ => .rfl, fun _ => rfl, id, id, id, id, fun _ => id, id, fun _ _ h => ⟨h, rfl⟩, .refl _,
   fun _ _ h _ => h⟩

theorem Flow.trans {k : Option (Fin 5)} {s t u : State} (h : Flow k s t) (g : Flow k t u) : Flow k s u :=
  ⟨g.still.trans h.still, fun l => (g.off l).trans (h.off l), fun l => (g.tally l).trans (h.tally l),
   g.gate ∘ h.gate, g.queue ∘ h.queue, g.filters ∘ h.filters, g.notices ∘ h.notices,
   fun i => g.flags i ∘ h.flags i, g.guide ∘ h.guide, fun j hj ho =>
     have ⟨h1, h2⟩ := h.out j hj ho
     have ⟨g1, g2⟩ := g.out j hj h1
     ⟨g1, g2.trans h2⟩, g.sheds.trans h.sheds,
   fun hs p hp hd => g.stays (hs.sublist h.sheds) p (h.stays hs p hp hd) hd⟩

variable {k : Option (Fin 5)} {s t : State}

/-! ### The single changes -/

/-- A slot changed, its own service and counters left: if the slot is watched, its view is left too. -/
theorem Flow.modSlot (j : Fin 5) (f : Slot → Slot) (hc : (f (t.slot j)).core = (t.slot j).core)
    (hk : j ∈ k → t.outSlot j → (f (t.slot j)).view = (t.slot j).view) (h : Flow k s t) :
    Flow k s (t.modSlot j f) := by
  refine h.trans ⟨?_, fun _ => .rfl, fun _ => rfl, id, id, id, id, fun _ => id, id, fun i hi ho => ?_,
    .refl _, fun _ _ h _ => h⟩
  · have : (t.modSlot j f).slots.map Slot.core = t.slots.map Slot.core := by
      ext i hi
      simp only [State.modSlot_slots, Vector.getElem_map, Fin.getElem_fin, Vector.getElem_set]
      split
      · subst_vars; exact hc
      · rfl
    exact (congrArg (fun v => { t.still with slots := v }) this :)
  · have hv : ((t.modSlot j f).slot i).view = (t.slot i).view := by
      by_cases hij : j = i
      · subst hij
        simpa [State.slot, State.modSlot] using hk hi ho
      · have : (j : Nat) ≠ i := fun e => hij (Fin.ext e)
        simp [State.slot, State.modSlot, this]
    refine ⟨⟨?_, ?_, ho.2.2⟩, hv⟩
    · have := congrArg (·.2.2.1) hv
      exact this.trans ho.1
    · have := congrArg (·.1) hv
      exact ho.2.1.imp this.trans this.trans

/-- A lane changed, neither switched off nor on and its counters left. -/
theorem Flow.modLane (l : Fin 3) (f : Lane → Lane)
    (ho : (f (t.lane l)).state = .off ↔ (t.lane l).state = .off)
    (ht : (f (t.lane l)).tally = (t.lane l).tally) (h : Flow k s t) : Flow k s (t.modLane l f) := by
  refine h.trans ⟨rfl, fun i => ?_, fun i => ?_, id, id, id, id, fun _ => id, id, fun i hi ho => ⟨ho, rfl⟩,
    .refl _, fun _ _ h _ => h⟩
  · by_cases hij : l = i
    · subst hij; simpa [State.lane, State.modLane] using ho
    · have : (l : Nat) ≠ i := fun e => hij (Fin.ext e)
      simp [State.lane, State.modLane, this]
  · by_cases hij : l = i
    · subst hij; simpa [State.lane, State.modLane] using ht
    · have : (l : Nat) ≠ i := fun e => hij (Fin.ext e)
      simp [State.lane, State.modLane, this]

/-- A schedule entry's interruptions, retry or orphan flag changed. -/
theorem Flow.modEntry (n : Fin 24) (f : Entry → Entry) (hf : (f (t.entry n)).core = (t.entry n).core)
    (h : Flow k s t) : Flow k s (t.modEntry n f) := by
  refine h.trans ⟨?_, fun _ => .rfl, fun _ => rfl, id, id, id, id, fun _ => id, id, fun i hi ho => ⟨ho, rfl⟩,
    .refl _, fun _ _ h _ => h⟩
  have : (t.modEntry n f).schedule.map Entry.core = t.schedule.map Entry.core := by
    ext i hi
    simp only [State.modEntry_schedule, Vector.getElem_map, Fin.getElem_fin, Vector.getElem_set]
    split
    · subst_vars; exact hf
    · rfl
  exact (congrArg (fun v => { t.still with schedule := v }) this :)

theorem Flow.orphan (sid eid : Nat) (h : Flow k s t) : Flow k s (orphanEntries sid eid t) := by
  refine h.trans ⟨?_, fun _ => .rfl, fun _ => rfl, id, id, id, id, fun _ => id, id, fun i hi ho => ⟨ho, rfl⟩,
    .refl _, fun _ _ h _ => h⟩
  have : (orphanEntries sid eid t).schedule.map Entry.core = t.schedule.map Entry.core := by
    ext i hi
    simp only [orphanEntries, Vector.getElem_map]
    split <;> rfl
  exact (congrArg (fun v => { t.still with schedule := v }) this :)

theorem Flow.modSweep (f : Sweep → Sweep) (h : Flow k s t) : Flow k s (t.modSweep f) :=
  h.trans ⟨rfl, fun _ => .rfl, fun _ => rfl, id, id, id, id, fun _ => id, id, fun _ _ ho => ⟨ho, rfl⟩,
    .refl _, fun _ _ h _ => h⟩

theorem Flow.modFaults (f : Faults → Faults) (h : Flow k s t) : Flow k s (t.modFaults f) :=
  h.trans ⟨rfl, fun _ => .rfl, fun _ => rfl, id, id, id, id, fun _ => id, id, fun _ _ ho => ⟨ho, rfl⟩,
    .refl _, fun _ _ h _ => h⟩

theorem Flow.emit (o : PortOut) (h : Flow k s t) : Flow k s (t.emit o) :=
  h.trans ⟨rfl, fun _ => .rfl, fun _ => rfl, id, id, id, id, fun _ => id, id, fun _ _ ho => ⟨ho, rfl⟩,
    .refl _, fun _ _ h _ => h⟩

theorem Flow.accessCounters (f : AccessCounters → AccessCounters) (h : Flow k s t) :
    Flow k s (t.modAccessCounters f) :=
  h.trans ⟨rfl, fun _ => .rfl, fun _ => rfl, id, id, id, id, fun _ => id, id, fun _ _ ho => ⟨ho, rfl⟩,
    .refl _, fun _ _ h _ => h⟩

theorem Flow.auxRises (l : List (Fin 8)) (h : Flow k s t) : Flow k s { t with auxRises := l } :=
  h.trans ⟨rfl, fun _ => .rfl, fun _ => rfl, id, id, id, id, fun _ => id, id, fun _ _ ho => ⟨ho, rfl⟩,
    .refl _, fun _ _ h _ => h⟩

theorem Flow.modGate (f : Gate → Gate) (hf : t.gate.ok → (f t.gate).ok) (h : Flow k s t) :
    Flow k s (t.modGate f) :=
  h.trans ⟨rfl, fun _ => .rfl, fun _ => rfl, hf, id, id, id, fun _ => id, id, fun _ _ ho => ⟨ho, rfl⟩,
    .refl _, fun _ _ h _ => h⟩

theorem Flow.modRouter (f : Router → Router)
    (hf : KeySorted Filter.key t.router.filters → KeySorted Filter.key (f t.router).filters)
    (h : Flow k s t) : Flow k s (t.modRouter f) :=
  h.trans ⟨rfl, fun _ => .rfl, fun _ => rfl, id, id, hf, id, fun _ => id, id, fun _ _ ho => ⟨ho, rfl⟩,
    .refl _, fun _ _ h _ => h⟩

theorem Flow.modGuide (f : Guide → Guide) (hf : t.guide.ok → (f t.guide).ok)
    (hd : (f t.guide).places.Sublist t.guide.places)
    (hs : KeySorted (·.num) t.guide.places →
      ∀ p ∈ t.guide.places, p.disturbed ≤ 1 → p ∈ (f t.guide).places)
    (h : Flow k s t) : Flow k s (t.modGuide f) :=
  h.trans ⟨rfl, fun _ => .rfl, fun _ => rfl, id, id, id, id, fun _ => id, hf, fun _ _ ho => ⟨ho, rfl⟩, hd, hs⟩

/-- The guide changed in its counters, patrol or pending rewrite alone. -/
theorem Flow.guideAside (f : Guide → Guide) (hf : t.guide.ok → (f t.guide).ok)
    (hp : (f t.guide).places = t.guide.places) (h : Flow k s t) : Flow k s (t.modGuide f) :=
  h.modGuide f hf (hp ▸ .refl _) fun _ _ hm _ => hp ▸ hm

/-- The arbiter changed: the queue keeps its order and takes in no watched slot that is out. -/
theorem Flow.modArb (f : Arbiter → Arbiter) (hf : t.arb.ok → (f t.arb).ok)
    (hk : ∀ j ∈ k, t.outSlot j → ∀ w ∈ (f t.arb).queue, w.claimant ≠ .slot j) (h : Flow k s t) :
    Flow k s (t.modArb f) :=
  h.trans ⟨rfl, fun _ => .rfl, fun _ => rfl, id, hf, id, id, fun _ => id, id,
    fun j hj ho => ⟨⟨ho.1, ho.2.1, hk j hj ho⟩, rfl⟩, .refl _, fun _ _ h _ => h⟩

/-! ### Notices (R188) -/

theorem Link.raise_core (x : NoticeKind) (sub : Option Nat) (b : List Byte) (l : Link) :
    (l.raise x sub b).core = l.core := by
  unfold Link.raise
  simp only
  split
  · rfl
  · split
    · rfl
    · split <;> rfl

theorem Link.raise_notices (x : NoticeKind) (sub : Option Nat) (b : List Byte) (l : Link)
    (h : l.notices.length ≤ 32) : (l.raise x sub b).notices.length ≤ 32 := by
  unfold Link.raise
  simp only
  split
  · exact h
  · split
    · simpa using h
    · split
      · simp only [List.length_append, List.length_cons, List.length_nil]; omega
      · exact h

theorem Link.raise_flags (x : NoticeKind) (sub : Option Nat) (b : List Byte) (l : Link) :
    (l.raise x sub b).flags = l.flags.set x.index true := by
  unfold Link.raise
  simp only
  split
  · rfl
  · split
    · rfl
    · split <;> rfl

theorem Flow.raise (x : NoticeKind) (sub : Option Nat) (b : List Byte) (h : Flow k s t) :
    Flow k s (t.raise x sub b) := by
  unfold State.raise
  split
  · exact h
  · refine h.trans ⟨?_, fun _ => .rfl, fun _ => rfl, id, id, id, Link.raise_notices x sub b t.link,
      fun i hi => ?_, id, fun i hi ho => ⟨ho, rfl⟩,
    .refl _, fun _ _ h _ => h⟩
    · simp only [State.still, State.modLink, Link.raise_core]
    · simp only [State.modLink_link, Link.raise_flags, Fin.getElem_fin, Vector.getElem_set]
      split
      · rfl
      · exact hi

theorem Flow.setFault (n : FaultName) (f : Faults → Faults) (h : Flow k s t) : Flow k s (t.setFault n f) :=
  (h.modFaults f).raise _ _ _

theorem Flow.streamRecordBad (h : Flow k s t) : Flow k s t.streamRecordBad := h.setFault _ _

theorem Flow.slotNotice (j : Fin 5) (h : Flow k s t) : Flow k s (t.slotNotice j) := h.raise _ _ _

/-- A loop flows if each of its rounds does. -/
theorem Flow.forEach {α : Type} {l : List α} {f : α → State → State}
    (hf : ∀ a ∈ l, ∀ u, Flow k s u → Flow k s (f a u)) (h : Flow k s t) : Flow k s (forEach l f t) :=
  forEach_keeps (P := Flow k s) hf h

end Sys2Proof.Machine
end

