-- ==== Sys2Proof/Laws/FlowGate.lean ====
section
/-! SUPPORT. What the gate array's passes, the conditions reported to it, the entitlement check and the guide's
reads can do: each is a `Flow` (chapters 4, 5, 6 and 7). -/

namespace Sys2Proof.Machine

open Sys2Proof

variable {k : Option (Fin 5)} {s t : State}

theorem not_outSlot_of_state {j : Fin 5} (h1 : (t.slot j).state ≠ .free) (h2 : (t.slot j).state ≠ .faulted) :
    ¬ t.outSlot j := fun h => h.2.1.elim h1 h2

theorem not_outSlot_of_lane {j : Fin 5} {l : Fin 3} (h : (t.slot j).lane = some l) : ¬ t.outSlot j :=
  fun ho => by simp [ho.1] at h

/-! ### Slots moved by a permit -/

theorem Flow.enterPresenting {j : Fin 5} (hj : j ∈ k → ¬ t.outSlot j) (h : Flow k s t) :
    Flow k s (enterPresenting j t) :=
  (h.modSlot j _ rfl fun hk ho => absurd ho (hj hk)).slotNotice j

theorem Flow.enterHeld {r : Reason} {j : Fin 5} (hj : j ∈ k → ¬ t.outSlot j) (h : Flow k s t) :
    Flow k s (enterHeld r j t) :=
  (h.modSlot j _ rfl fun hk ho => absurd ho (hj hk)).slotNotice j

theorem Flow.chooseByPermit {j : Fin 5} (hj : j ∈ k → ¬ t.outSlot j) (h : Flow k s t) :
    Flow k s (chooseByPermit j t) := by
  unfold Machine.chooseByPermit
  split
  · exact h.enterPresenting hj
  · exact h.enterHeld hj

theorem Flow.permitChange (j : Fin 5) (v : Bool) (h : Flow k s t) : Flow k s (permitChange j v t) := by
  unfold Machine.permitChange
  dsimp only
  split
  · rename_i hc
    exact h.enterHeld fun _ => not_outSlot_of_state (by simp [hc.1]) (by simp [hc.1])
  · split
    · rename_i hc
      exact h.enterPresenting fun _ => not_outSlot_of_state (by simp [hc.1]) (by simp [hc.1])
    · exact h

/-! ### Passes (R150 to R155) -/

/-- A cell changed to one that is as the rules have it. -/
theorem Gate.ok_modCell {g : Gate} {n : Fin 8} {f : GateCell → GateCell} (h : g.ok)
    (hf : (g.cells[n]).ok n → (f g.cells[n]).ok n) : (g.modCell n f).ok := by
  intro i
  by_cases hi : n = i
  · subst hi; simpa [Gate.modCell] using hf (h n)
  · have : (n : Nat) ≠ i := fun e => hi (Fin.ext e)
    simpa [Gate.modCell, Vector.getElem_set, this] using h i

theorem passCell_ok {p : Pass} {n : Fin 8} (h : p.gate.ok) : (passCell p n).gate.ok := by
  unfold passCell
  dsimp only
  split
  · rename_i hc
    split
    · exact h
    · exact Gate.ok_modCell h fun ho => ⟨fun he => by have := hc.2; simp_all, ho.2⟩
  · exact h

theorem foldl_passCell_ok (l : List (Fin 8)) {p : Pass} (h : p.gate.ok) : (l.foldl passCell p).gate.ok := by
  induction l generalizing p with
  | nil => exact h
  | cons n l ih => exact ih (passCell_ok h)

/-- A pass leaves every cell as the rules have it. -/
theorem Gate.pass_ok {g : Gate} {marks : List (Fin 8)} (h : g.ok) : (g.pass marks).gate.ok :=
  foldl_passCell_ok _ h

theorem Flow.tellRise (n : Fin 8) (v : Bool) (h : Flow k s t) : Flow k s (tellRise n v t) := by
  unfold Machine.tellRise
  split
  · exact h.auxRises _
  · exact h

theorem Flow.auxChange (n : Fin 8) (v : Bool) (h : Flow k s t) : Flow k s (auxChange n v t) := by
  unfold Machine.auxChange
  have h1 := (h.modGate (Gate.modCell n (GateCell.count v)) fun hg => Gate.ok_modCell hg fun ho => by
    unfold GateCell.count; split <;> exact ho).tellRise n v
  dsimp only
  split
  · exact h1.raise _ _ _
  · exact h1

theorem Flow.handOverChange (c : Fin 8 × Bool) (h : Flow k s t) : Flow k s (handOverChange c t) := by
  unfold Machine.handOverChange
  split
  · exact h.permitChange _ _
  · exact h.auxChange _ _

theorem Flow.gateSet {g : Gate} (hg : t.gate.ok → g.ok) (h : Flow k s t) : Flow k s { t with gate := g } :=
  h.modGate (fun _ => g) hg

theorem Flow.gatePass (m : List (Fin 8)) (h : Flow k s t) : Flow k s (gatePass m t) := by
  unfold Machine.gatePass
  exact (h.gateSet Gate.pass_ok).forEach fun c _ _ hu => hu.handOverChange c

theorem Gate.takeChange_cells (g : Gate) (c : Change) : (g.takeChange c).cells = g.cells := by
  cases c <;> rfl

theorem Gate.foldl_takeChange_cells (l : List Change) (g : Gate) :
    (l.foldl Gate.takeChange g).cells = g.cells := by
  induction l generalizing g with
  | nil => rfl
  | cons c l ih => exact (ih _).trans (g.takeChange_cells c)

theorem Gate.ok_congr {g g' : Gate} (h : g'.cells = g.cells) (hg : g.ok) : g'.ok := by
  intro n; rw [h]; exact hg n

theorem Flow.gateReport (l : List Change) (h : Flow k s t) : Flow k s (gateReport l t) := by
  unfold Machine.gateReport
  dsimp only
  split
  · exact h
  · exact (h.gateSet (Gate.ok_congr (Gate.foldl_takeChange_cells _ _))).gatePass _

theorem Flow.syncSlots (ks : List (Fin 5)) (h : Flow k s t) : Flow k s (syncSlots ks t) := h.gateReport _

theorem Flow.setEntitledAll (js : List (Fin 5)) (e p : Bool) (h : Flow k s t) :
    Flow k s (setEntitledAll js e p t) := h.gateReport _

theorem Flow.setEntitled (j : Fin 5) (e p : Bool) (h : Flow k s t) : Flow k s (setEntitled j e p t) :=
  h.setEntitledAll _ _ _

/-! ### Conditions (R131 to R133) -/

theorem Flow.reportConditions (told : List (Source × List (Fin 3))) (h : Flow k s t) :
    Flow k s (reportConditions told t) := by
  unfold Machine.reportConditions
  exact (h.forEach fun _ _ _ hu => hu.gateReport _).gateReport _

theorem Flow.updateRating (j : Fin 5) (h : Flow k s t) : Flow k s (updateRating j t) := by
  unfold Machine.updateRating
  split
  · exact h.reportConditions _
  · exact h

theorem Flow.updateConditions (vs : List (Fin 3)) (h : Flow k s t) : Flow k s (updateConditions vs t) :=
  h.reportConditions _

theorem Flow.profileNotice (c : ProfileCause) (p : Fin 8) (h : Flow k s t) :
    Flow k s (t.profileNotice c p) := h.raise _ _ _

/-! ### Keys and withdrawals (R18, R66 to R69, R84 to R86) -/

theorem Flow.modDesc (j : Fin 5) (f : Descrambler → Descrambler) (h : Flow k s t) :
    Flow k s (t.modDesc j f) := h.modSlot j _ rfl fun _ _ => rfl

theorem Flow.withdrawKeys (j : Fin 5) (h : Flow k s t) : Flow k s (withdrawKeys j t) := by
  unfold Machine.withdrawKeys
  dsimp only
  have h1 := h.modSlot j (fun sl => { sl with desc := sl.desc.dropKeys }) rfl fun _ _ => rfl
  split
  · exact h1
  · split
    · rename_i hc
      have hst : ∀ u : State, (u.slot j).state = (t.slot j).state → ¬ u.outSlot j := fun u hu =>
        not_outSlot_of_state (by rw [hu]; rcases hc with h | h | h <;> simp [h])
          (by rw [hu]; rcases hc with h | h | h <;> simp [h])
      refine Flow.enterHeld (fun _ => hst _ ?_) (h1.modSlot j _ rfl fun _ _ => rfl)
      simp [State.slot, State.modSlot]
    · exact h1

theorem Flow.withdrawFrom (js : List (Fin 5)) (h : Flow k s t) : Flow k s (withdrawFrom js t) :=
  (h.forEach fun j _ _ hu => hu.withdrawKeys j).setEntitledAll _ _ _

theorem Flow.withdraw (b : Basis) (h : Flow k s t) : Flow k s (withdraw b t) := h.withdrawFrom _

theorem Flow.endPreview (j : Fin 5) (h : Flow k s t) : Flow k s (endPreview j t) := by
  unfold Machine.endPreview
  split
  · exact h.withdrawFrom _
  · exact h

theorem Flow.checkRequirement (j : Fin 5) (r : Requirement) (h : Flow k s t) :
    Flow k s (checkRequirement j r t).2 := by
  unfold Machine.checkRequirement
  split
  · exact h.setEntitled _ _ _
  · exact (h.accessCounters _).setEntitled _ _ _

theorem Flow.acceptWord (j : Fin 5) (h : Flow k s t) : Flow k s (acceptWord j t) := by
  unfold Machine.acceptWord
  dsimp only
  split
  · rename_i hc
    refine Flow.chooseByPermit (fun _ => not_outSlot_of_state ?_ ?_) (h.modSlot j _ rfl fun _ _ => rfl) <;>
      · simp [State.slot, State.modSlot]; simp [State.slot] at hc; simp [hc]
  · split
    · rename_i hc
      exact h.chooseByPermit fun _ => not_outSlot_of_state (by simp [hc.1]) (by simp [hc.1])
    · exact h

theorem Flow.storeWord (j : Fin 5) (r : KeyRecord) (b : Basis) (w : KeyWord) (h : Flow k s t) :
    Flow k s (storeWord j r b w t) := ((h.modDesc _ _).accessCounters _).acceptWord j

theorem Flow.takeWord (j : Fin 5) (r : KeyRecord) (b : Basis) (w : KeyWord) (h : Flow k s t) :
    Flow k s (takeWord j r b w t) := by
  unfold Machine.takeWord
  split
  · exact h.storeWord _ _ _ _
  · dsimp only
    split
    · exact h.accessCounters _
    · split
      · exact h.storeWord _ _ _ _
      · exact h.accessCounters _

theorem Flow.refuseRecord (j : Fin 5) (r : Held) (h : Flow k s t) : Flow k s (refuseRecord j r t) := by
  unfold Machine.refuseRecord
  dsimp only
  split
  · rename_i hc
    refine Flow.enterHeld (fun _ => not_outSlot_of_state ?_ ?_)
      ((h.modDesc _ _).modSlot j _ rfl fun _ _ => rfl) <;>
      · simp [State.slot, State.modSlot, State.modDesc] at hc ⊢; simp [hc]
  · exact h.modDesc _ _

theorem Flow.takeOpened (r : Held) (w : KeyWord) (j : Fin 5) (h : Flow k s t) :
    Flow k s (takeOpened r w j t) := by
  unfold Machine.takeOpened
  have h1 := h.checkRequirement j r.record.req
  split <;> rename_i e <;> rw [e] at h1
  · exact h1.takeWord _ _ _ _
  · exact h1.refuseRecord _ _

theorem Flow.takeKeyRecord (l : Fin 3) (r : KeyRecord) (h : Flow k s t) :
    Flow k s (takeKeyRecord l r t) := by
  unfold Machine.takeKeyRecord
  dsimp only
  split
  · exact h.accessCounters _
  · split
    · exact h.accessCounters _
    · refine h.forEach fun j _ u hu => ?_
      split
      · exact hu.takeOpened _ _ _
      · exact hu

theorem Flow.reexaminePhase (j : Fin 5) (p : Phase) (h : Flow k s t) : Flow k s (reexaminePhase j p t) := by
  unfold Machine.reexaminePhase
  split
  · exact h
  · rename_i r hr
    split
    · exact (h.modDesc _ _).accessCounters _
    · have h1 := h.checkRequirement j r.record.req
      split <;> rename_i e <;> rw [e] at h1
      · exact (h1.modDesc _ _).takeWord _ _ _ _
      · exact h1

theorem Flow.reexamine (h : Flow k s t) : Flow k s (reexamine t) :=
  h.forEach fun j _ _ hu => (hu.reexaminePhase j .a).reexaminePhase j .b

theorem Flow.rebase (id : Nat) (h : Flow k s t) : Flow k s (rebase id t) :=
  (h.forEach fun j _ _ hu => hu.modDesc j _).setEntitledAll _ _ _

theorem Flow.accessNotice (c : AccessCause) (h : Flow k s t) : Flow k s (t.accessNotice c) :=
  h.raise _ _ _

/-! ### The guide's reads (R26, R27, R112 to R115) -/

theorem Flow.setCurrent (j : Fin 5) (e : Option CurEvent) (h : Flow k s t) :
    Flow k s (setCurrent j e t) := by
  unfold Machine.setCurrent
  split
  · exact h
  · exact ((h.modSlot j _ rfl fun _ _ => rfl).updateRating j).endPreview j

/-- A reader that flows. -/
def ReaderFlows (k : Option (Fin 5)) (read : Reader) : Prop :=
  ∀ n s t, Flow k s t → Flow k s (read n t).2

theorem Flow.determineWith {read : Reader} (hr : ReaderFlows k read) (j : Fin 5) (h : Flow k s t) :
    Flow k s (determineWith read j t) := by
  unfold Machine.determineWith
  split
  · split
    · rename_i p _
      have h1 := hr p.num s t h
      split <;> rename_i e <;> rw [e] at h1
      · exact h1.setCurrent _ _
      · exact h1
    · exact h.setCurrent _ _
  · exact h.setCurrent _ _

theorem Flow.touchedWith {read : Reader} (hr : ReaderFlows k read) (sid : Nat) (h : Flow k s t) :
    Flow k s (touchedWith read sid t) := h.forEach fun j _ _ hu => hu.determineWith hr j

theorem Flow.reportRemovalWith {read : Reader} (hr : ReaderFlows k read) (e : GuideEvent)
    (h : Flow k s t) : Flow k s (reportRemovalWith read e t) := (h.touchedWith hr _).orphan _ _

theorem Flow.guideNotice (c : GuideCause) (h : Flow k s t) : Flow k s (t.guideNotice c) := h.raise _ _ _

theorem Flow.guideLost (n : Nat) (h : Flow k s t) : Flow k s (t.guideLost n) := h.setFault _ _

theorem Flow.guideSecond (n : Nat) (h : Flow k s t) : Flow k s (t.guideSecond n) := h.setFault _ _

theorem Flow.countCorrected (h : Flow k s t) : Flow k s t.countCorrected := h.setFault _ _

/-- A removal leaves the guide as the rules have it. -/
theorem Guide.ok_remove {g : Guide} (n : Nat) (h : g.ok) : (g.remove n).ok := by
  obtain ⟨h1, h2, h3, h4⟩ := h
  refine ⟨keySorted_keyDrop n h1, fun p hp => h2 p (List.mem_filter.1 hp).1, h3.filter _, fun r hr => ?_⟩
  obtain ⟨hr1, hr2⟩ := (Option.mem_filter_iff.1 hr : _ ∧ _)
  obtain ⟨p, hp, e1, e2⟩ := h4 r hr1
  exact ⟨p, List.mem_filter.2 ⟨hp, by simpa [e1] using hr2⟩, e1, e2⟩

/-- The guide is as the rules have it whatever its counters, its patrol and what it last lost. -/
theorem Guide.ok_of {g g' : Guide} (h1 : g'.places = g.places) (h2 : g'.scrub = g.scrub) (h : g.ok) :
    g'.ok := by
  unfold Guide.ok
  rw [h1, h2]
  exact h

theorem Flow.noteCorrected {p : Place} (hp : p ∈ t.guide.places) (h : Flow k s t) :
    Flow k s (noteCorrected p t) := by
  unfold Machine.noteCorrected
  dsimp only
  have hg : t.countCorrected.guide = t.guide := by
    unfold State.countCorrected State.setFault State.raise
    dsimp only
    split <;> rfl
  split
  · exact h.countCorrected.guideAside (fun g =>
        { g with scrub := some { place := p.num, contents := p.ev, due := t.countCorrected.clock.uptimeMs + 1 } })
      (fun hg' => ⟨hg'.1, hg'.2.1, hg'.2.2.1, fun r hr => ⟨p, hg ▸ hp, by cases hr; exact ⟨rfl, rfl⟩⟩⟩) rfl
  · exact h.countCorrected.guideSecond _

theorem Flow.damageWith {read : Reader} (hr : ReaderFlows k read) {p : Place}
    (hd : KeySorted (·.num) t.guide.places → ∀ q ∈ t.guide.places, q.num = p.num → 2 ≤ q.disturbed)
    (h : Flow k s t) : Flow k s (damageWith read p t) := by
  unfold Machine.damageWith
  refine Flow.guideNotice _ (Flow.guideLost _ (Flow.reportRemovalWith hr _
    (h.modGuide _ (fun hg => ?_) List.filter_sublist fun hs q hq hq1 => ?_)))
  · exact Guide.ok_of (g := Guide.remove p.num t.guide) rfl rfl (Guide.ok_remove p.num hg)
  · refine List.mem_filter.2 ⟨hq, ?_⟩
    simp only [bne_iff_ne, ne_eq]
    intro e
    have := hd hs q hq e
    omega

theorem readBound_flows (k : Option (Fin 5)) (n : Nat) : ReaderFlows k (readBound n) := by
  induction n with
  | zero => intro m s t h; exact h
  | succ n ih =>
    intro m s t h
    unfold readBound
    split
    · exact h
    · rename_i p hp
      split
      · exact h
      · exact h.noteCorrected (keyFind_some hp).1
      · rename_i hc
        refine h.damageWith ih fun hs q hq e => ?_
        have hq' := keySorted_unique hs hq (keyFind_some hp).1 (e.trans rfl)
        subst hq'
        unfold Guide.check at hc
        split at hc
        · cases hc
        · split at hc
          · cases hc
          · split at hc
            · cases hc
            · omega

theorem readPlace_flows (k : Option (Fin 5)) : ReaderFlows k readPlace := fun n s t h =>
  readBound_flows k _ n s t h

theorem Flow.readPlace (n : Nat) (h : Flow k s t) : Flow k s (readPlace n t).2 := readPlace_flows k n s t h

theorem Flow.determine (j : Fin 5) (h : Flow k s t) : Flow k s (determine j t) :=
  h.determineWith (readPlace_flows k) j

theorem Flow.reportRemoval (e : GuideEvent) (h : Flow k s t) : Flow k s (reportRemoval e t) :=
  h.reportRemovalWith (readPlace_flows k) e

theorem Flow.touched (sid : Nat) (h : Flow k s t) : Flow k s (touched sid t) :=
  h.touchedWith (readPlace_flows k) sid

theorem Flow.readEntries (n : Nat) (l : List Nat) (h : Flow k s t) : Flow k s (readEntries n l t).2 := by
  induction l generalizing n t with
  | nil => cases n <;> exact h
  | cons m l ih =>
    cases n with
    | zero => exact h
    | succ n =>
      unfold Machine.readEntries
      have h1 := h.readPlace m
      split <;> rename_i e <;> rw [e] at h1
      · exact ih _ h1
      · exact ih _ h1

theorem Flow.readFirst (sid : Nat) (f : GuideEvent → Bool) (h : Flow k s t) :
    Flow k s (readFirst sid f t).2 := h.readEntries _ _

theorem Flow.readNamed (sid eid : Nat) (h : Flow k s t) : Flow k s (readNamed sid eid t).2 := by
  unfold Machine.readNamed
  split
  · exact h
  · exact h.readPlace _

end Sys2Proof.Machine
end

