-- ==== Sys2Proof/Laws/FlowLanes.lean ====
section
/-! SUPPORT. What the lanes, the arbiter, the sweep, the home hold and the slots on them can do: each operation
is a `Flow` (chapters 1, 2 and 5). A watched slot is one that is out of it (`State.outSlot`). -/

namespace Sys2Proof.Machine

open Sys2Proof

variable {k : Option (Fin 5)} {s t : State}

/-- A watched slot that is out stays out. -/
theorem Flow.outs (W : ∀ j ∈ k, s.outSlot j) (h : Flow k s t) : ∀ j ∈ k, t.outSlot j :=
  fun j hj => (h.out j hj (W j hj)).1

/-! ### The filter table (R56, R57) -/

theorem Filter.without_key {j : Fin 5} {f g : Filter} (h : g ∈ f.without j) : g.key = f.key := by
  unfold Filter.without at h
  split at h
  · cases h; rfl
  · dsimp only at h
    split at h
    · cases h
    · cases h; rfl

/-- One entry as `Router.removeSlot` takes it. -/
theorem Filter.kept_key {j : Fin 5} {kept : List Nat} {f g : Filter}
    (h : (if kept.contains f.tag then some f else f.without j) = some g) : g.key = f.key := by
  split at h
  · cases h; rfl
  · exact Filter.without_key h

theorem Router.sorted_removeSlot {r : Router} (j : Fin 5) (kept : List Nat)
    (h : KeySorted Filter.key r.filters) : KeySorted Filter.key (r.removeSlot j kept).filters := by
  unfold Router.removeSlot KeySorted
  rw [List.pairwise_filterMap]
  refine List.Pairwise.imp (fun {a b} hab c hc d hd => ?_) h
  rw [Filter.kept_key hc, Filter.kept_key hd]
  exact hab

theorem Router.sorted_installTag {r : Router} (j : Fin 5) (l : Fin 3) (tag : Nat)
    (h : KeySorted Filter.key r.filters) : KeySorted Filter.key (r.installTag j l tag).filters := by
  unfold Router.installTag
  split <;> exact keySorted_keyPut _ h

theorem Router.sorted_installTags (j : Fin 5) (l : Fin 3) (tags : List Nat) {r : Router}
    (h : KeySorted Filter.key r.filters) :
    KeySorted Filter.key (tags.foldl (fun r t => r.installTag j l t) r).filters := by
  induction tags generalizing r with
  | nil => exact h
  | cons t tags ih => exact ih (Router.sorted_installTag j l t h)

theorem Router.sorted_installControl {r : Router} (l : Fin 3) (h : KeySorted Filter.key r.filters) :
    KeySorted Filter.key (r.installControl l).filters :=
  keySorted_keyPut _ (keySorted_keyPut _ (keySorted_keyPut _ (keySorted_keyPut _ h)))

theorem Router.sorted_removeControl {r : Router} (l : Fin 3) (h : KeySorted Filter.key r.filters) :
    KeySorted Filter.key (r.removeControl l).filters := List.Pairwise.filter _ h

/-! ### The wait queue (R51) -/

theorem Claimant.priority_le (c : Claimant) : c.priority ≤ 3 := by
  cases c with
  | slot j => unfold Claimant.priority slotPriority; dsimp only; split <;> (try split) <;> omega
  | home => decide

theorem pairwise_insertBy {α : Type} (m : α → Nat) (a : α) {l : List α}
    (h : l.Pairwise fun x y => m x ≤ m y) : (insertBy m a l).Pairwise fun x y => m x ≤ m y := by
  induction l with
  | nil => simp [insertBy]
  | cons b l ih =>
    obtain ⟨hb, hl⟩ := List.pairwise_cons.1 h
    unfold insertBy
    split
    · rename_i hlt
      refine List.pairwise_cons.2 ⟨fun c hc => ?_, h⟩
      rcases List.mem_cons.1 hc with rfl | hc
      · exact hlt.le
      · exact hlt.le.trans (hb c hc)
    · refine List.pairwise_cons.2 ⟨fun c hc => ?_, ih hl⟩
      rcases mem_insertBy.1 hc with rfl | hc
      · omega
      · exact hb c hc

theorem Arbiter.ok_enqueue {a : Arbiter} (w : Waiter) (h : a.ok) : (a.enqueue w).ok := by
  have h' : a.queue.Pairwise fun x y => 3 - x.claimant.priority ≤ 3 - y.claimant.priority :=
    List.Pairwise.imp (fun hxy => by omega) h
  refine List.Pairwise.imp (fun {x y} hxy => ?_) (pairwise_insertBy _ w h')
  have := x.claimant.priority_le
  have := y.claimant.priority_le
  omega

theorem Arbiter.ok_dequeue {a : Arbiter} (c : Claimant) (h : a.ok) : (a.dequeue c).ok :=
  List.Pairwise.filter _ h

theorem Arbiter.ok_of {a b : Arbiter} (e : b.queue = a.queue) (h : a.ok) : b.ok := by
  unfold Arbiter.ok; rw [e]; exact h

/-- The arbiter changed, its queue left or shortened. -/
theorem Flow.arbLess (f : Arbiter → Arbiter) (hf : (f t.arb).queue.Sublist t.arb.queue) (h : Flow k s t) :
    Flow k s (t.modArb f) :=
  h.modArb f (fun ho => List.Pairwise.sublist hf ho) fun _ _ ho w hw => ho.2.2 w (hf.subset hw)

theorem Flow.dequeue (c : Claimant) (h : Flow k s t) : Flow k s (t.modArb (Arbiter.dequeue c)) :=
  h.arbLess _ List.filter_sublist

theorem Flow.enqueue (w : Waiter) (hw : ∀ j ∈ k, w.claimant ≠ .slot j) (h : Flow k s t) :
    Flow k s (t.modArb (Arbiter.enqueue w)) :=
  h.modArb _ (Arbiter.ok_enqueue w) fun j hj ho v hv => by
    rcases mem_insertBy.1 hv with rfl | hv
    · exact hw j hj
    · exact ho.2.2 v hv

/-! ### Slots (R13 to R16) -/

theorem Flow.installSlot (j : Fin 5) (h : Flow k s t) : Flow k s (installSlot j t) := by
  unfold Machine.installSlot
  split
  · exact h
  · exact h.modRouter _ (Router.sorted_installTags _ _ _)

theorem Flow.dropFilters (j : Fin 5) (h : Flow k s t) : Flow k s (dropFilters j t) :=
  (h.modRouter _ (Router.sorted_removeSlot _ _)).modSlot j _ rfl fun _ _ => rfl

theorem Flow.reportLeft (j : Fin 5) (h : Flow k s t) : Flow k s (reportLeft j t) :=
  (h.syncSlots _).setEntitled _ _ _

theorem Flow.tellInterrupted (j : Fin 5) (h : Flow k s t) : Flow k s (tellInterrupted j t) := by
  unfold Machine.tellInterrupted
  split
  · exact h
  · exact h.modEntry _ _ rfl

/-- A slot's record changed, its own service and counters left, the slot not watched. -/
theorem Flow.setSlot {j : Fin 5} {f : Slot → Slot} (hj : j ∉ k) (hc : (f (t.slot j)).core = (t.slot j).core)
    (h : Flow k s t) : Flow k s (t.modSlot j f) := h.modSlot j f hc fun hk => absurd hk hj

theorem Flow.faultSlot {r : Reason} {j : Fin 5} (hj : j ∉ k) (h : Flow k s t) :
    Flow k s (faultSlot r j t) :=
  ((((h.dropFilters j).setSlot hj rfl).reportLeft j).tellInterrupted j).slotNotice j

theorem Flow.enterAcquiring {j : Fin 5} (hj : j ∉ k) (h : Flow k s t) : Flow k s (enterAcquiring j t) := by
  unfold Machine.enterAcquiring
  have h1 := Flow.installSlot j (h.setSlot (f := fun sl => { sl with state := .acquiring }) hj rfl)
  dsimp only
  split
  · exact (h1.setEntitled _ _ _).chooseByPermit fun hk => absurd hk hj
  · exact h1.setSlot hj rfl

theorem Flow.joinSlot {j : Fin 5} (l : Fin 3) (hj : j ∉ k) (h : Flow k s t) : Flow k s (joinSlot j l t) := by
  unfold Machine.joinSlot
  split
  · exact ((h.setSlot hj rfl).syncSlots _).enterAcquiring hj
  · exact (h.setSlot hj rfl).syncSlots _

theorem mem_slotUsers {l : Fin 3} {j : Fin 5} : j ∈ t.slotUsers l ↔ (t.slot j).lane = some l := by
  simp only [State.slotUsers, List.mem_filter, beq_iff_eq, and_iff_right_iff_imp]
  intro _; fin_cases j <;> decide

/-- A slot on a lane is no watched slot that is out. -/
theorem not_watched_of_user (W : ∀ j ∈ k, s.outSlot j) (h : Flow k s t) {l : Fin 3} {j : Fin 5}
    (hj : j ∈ t.slotUsers l) : j ∉ k := fun hk =>
  not_outSlot_of_lane (mem_slotUsers.1 hj) (h.outs W j hk)

/-! ### The lane controller (R36, R47) -/

theorem Lane.clear_tally (x : Lane) : x.clear.tally = x.tally := rfl

theorem Flow.startSeek {l : Fin 3} (c : Nat) (hl : (t.lane l).state ≠ .off) (h : Flow k s t) :
    Flow k s (startSeek l c t) := by
  unfold Machine.startSeek
  refine Flow.syncSlots _ (Flow.emit _ (Flow.modLane l _ ?_ rfl
    (h.modRouter _ (Router.sorted_removeControl l))))
  exact ⟨fun e => (by cases e), fun e => absurd e hl⟩

theorem Flow.laneNotice (l : Fin 3) (e : LaneEvent) (h : Flow k s t) : Flow k s (t.laneNotice l e) :=
  h.raise _ _ _

theorem servingLane_spec {c : Nat} {l : Fin 3} (h : t.servingLane c = some l) :
    (t.lane l).state = .seeking ∨ (t.lane l).state = .locked := by
  have := List.find?_some h
  simp [Lane.serves] at this
  exact this.1

theorem idleLane_spec {l : Fin 3} (h : t.idleLane = some l) : (t.lane l).state = .idle := by
  simpa using List.find?_some h

/-! ### Lanes and the queue (R49, R51, R52) -/

theorem Flow.grantTo {c : Claimant} (l : Fin 3) (hc : ∀ j ∈ k, c ≠ .slot j) (h : Flow k s t) :
    Flow k s (grantTo c l t) := by
  unfold Machine.grantTo
  cases c with
  | slot j => exact (h.dequeue _).joinSlot l fun hj => hc j hj rfl
  | home => exact (h.dequeue _).arbLess _ (List.Sublist.refl _)

/-- The claimants in the queue are none of the watched slots that are out. -/
theorem not_watched_of_waiter (W : ∀ j ∈ k, s.outSlot j) (h : Flow k s t) {w : Waiter}
    (hw : w ∈ t.arb.queue) : ∀ j ∈ k, w.claimant ≠ .slot j := fun j hj => (h.outs W j hj).2.2 w hw

theorem Flow.joinWaiters (W : ∀ j ∈ k, s.outSlot j) (f : Waiter → Bool) (h : Flow k s t) :
    Flow k s (joinWaiters f t) := by
  unfold Machine.joinWaiters
  refine h.forEach fun w hw u hu => ?_
  split
  · split
    · exact hu.grantTo _ (not_watched_of_waiter W h hw)
    · exact hu
  · exact hu

theorem Flow.giveLane (W : ∀ j ∈ k, s.outSlot j) {c : Claimant} {l : Fin 3} (n : Nat)
    (hc : ∀ j ∈ k, c ≠ .slot j) (hl : (t.lane l).state ≠ .off) (h : Flow k s t) :
    Flow k s (giveLane c n l t) := ((h.startSeek n hl).grantTo l hc).joinWaiters W _

/-! ### The sweep's walk (R118, R119) -/

theorem Flow.startDwell (h : Flow k s t) : Flow k s t.startDwell := by
  unfold State.startDwell
  split
  · exact h
  · exact h.modSweep _

theorem Flow.sweepWaiting (b : Bool) (h : Flow k s t) :
    Flow k s (t.modArb fun a => { a with sweepWaiting := b }) := h.arbLess _ (List.Sublist.refl _)

theorem Flow.sweepPause (c : PauseCause) (h : Flow k s t) : Flow k s (sweepPause c t) :=
  (h.modSweep _).sweepWaiting _

theorem Flow.sweepAdvance (h : Flow k s t) : Flow k s (sweepAdvance t) := by
  unfold Machine.sweepAdvance
  dsimp only
  split
  · exact h.modSweep _
  · exact (h.modSweep _).guideNotice _
  · exact (h.modSweep _).sweepPause _

theorem Flow.sweepClaim (n : Nat) (h : Flow k s t) : Flow k s (sweepClaim n t) := by
  induction n generalizing t with
  | zero => exact h
  | succ n ih =>
    unfold Machine.sweepClaim
    split
    · exact h
    · split
      · dsimp only
        split
        · exact (((h.modSweep _).modSweep _).sweepPause _).startDwell
        · exact ih (h.modSweep _).sweepAdvance
      · split
        · rename_i l _ hl
          refine Flow.startSeek _ ?_ ((h.modSweep _).sweepWaiting _)
          have := idleLane_spec hl
          exact fun e => by have := this.symm.trans e; cases this
        · exact h.sweepPause _

theorem Flow.sweepAsk (h : Flow k s t) : Flow k s (sweepAsk t) := h.sweepClaim _

theorem Flow.sweepGo (h : Flow k s t) : Flow k s (sweepGo t) := h.sweepAdvance.sweepAsk

/-! ### Release and the queue pass (R52) -/

theorem Flow.passGrant (W : ∀ j ∈ k, s.outSlot j) (h : Flow k s t) : Flow k s (passGrant t) := by
  unfold Machine.passGrant
  split
  · rename_i w _ l hq hl
    exact h.giveLane W _ (not_watched_of_waiter W h (by simp [hq])) (by simp [idleLane_spec hl])
  · exact h

theorem Flow.passSweep (h : Flow k s t) : Flow k s (passSweep t) := by
  unfold Machine.passSweep
  split
  · exact h.sweepAsk
  · exact h

theorem Flow.passIdle (h : Flow k s t) : Flow k s (passIdle t) := by
  refine h.forEach fun l _ u hu => ?_
  split
  · exact hu.emit _
  · exact hu

theorem Flow.queuePass (W : ∀ j ∈ k, s.outSlot j) (h : Flow k s t) : Flow k s (queuePass t) :=
  (((((h.joinWaiters W _).passGrant W).passGrant W).passGrant W).passSweep).passIdle

theorem Flow.releaseIfEmpty (W : ∀ j ∈ k, s.outSlot j) (l : Fin 3) (h : Flow k s t) :
    Flow k s (releaseIfEmpty l t) := by
  unfold Machine.releaseIfEmpty
  split
  · rename_i hc
    refine Flow.queuePass W (Flow.modLane l _ ?_ rfl (h.modRouter _ (Router.sorted_removeControl l)))
    refine ⟨fun e => (by cases e), fun e => ?_⟩
    have e : (t.lane l).state = .off := e
    simp [e] at hc
  · exact h

theorem Flow.releaseLeft (W : ∀ j ∈ k, s.outSlot j) (l : Option (Fin 3)) (h : Flow k s t) :
    Flow k s (releaseLeft l t) := by
  unfold Machine.releaseLeft
  split
  · exact h.releaseIfEmpty W _
  · exact h

/-! ### Preemption and claims (R49, R50) -/

theorem Flow.displaceSlot {j : Fin 5} (hj : j ∉ k) (h : Flow k s t) : Flow k s (displaceSlot j t) := by
  unfold Machine.displaceSlot
  refine Flow.slotNotice j (Flow.reportLeft j (Flow.enqueue _ (fun i hi e => ?_)
    ((h.dropFilters j).setSlot hj rfl)))
  cases e; exact hj hi

theorem Flow.displaceHome (l : Fin 3) (h : Flow k s t) : Flow k s (displaceHome l t) := by
  unfold Machine.displaceHome
  split
  · split
    · exact (h.enqueue _ fun _ _ e => by cases e).arbLess (fun a => { a with home := .waiting })
        (List.Sublist.refl _)
    · exact h.arbLess _ (List.Sublist.refl _)
  · exact h

theorem Flow.displaceSweep (l : Fin 3) (h : Flow k s t) : Flow k s (displaceSweep l t) := by
  unfold Machine.displaceSweep
  split
  · exact (h.modSweep _).sweepPause _
  · exact h

theorem Flow.displaceAll (W : ∀ j ∈ k, s.outSlot j) (l : Fin 3) (h : Flow k s t) :
    Flow k s (displaceAll l t) :=
  ((h.forEach fun _ hj _ hu => hu.displaceSlot (not_watched_of_user W h hj)).displaceHome l).displaceSweep l

theorem Flow.preempt (W : ∀ j ∈ k, s.outSlot j) {c : Claimant} {l : Fin 3} (n : Nat)
    (hc : ∀ j ∈ k, c ≠ .slot j) (hl : (t.lane l).state ≠ .off) (h : Flow k s t) :
    Flow k s (preempt c n l t) := by
  have h1 := h.displaceAll W l
  have h2 : ((Machine.displaceAll l t).lane l).state ≠ .off := by
    have h0 := (Flow.displaceAll (k := none) (by simp) l (Flow.refl none t)).off l
    exact fun e => hl (h0.1 e)
  refine Flow.giveLane W n hc ?_ (h1.modLane l _ Iff.rfl rfl)
  simpa [State.lane, State.modLane] using h2

theorem Flow.waitFor {c : Claimant} (n : Nat) (hc : ∀ j ∈ k, c ≠ .slot j) (h : Flow k s t) :
    Flow k s (waitFor c n t) := by
  unfold Machine.waitFor
  have h1 := h.enqueue { claimant := c, carrier := n } hc
  cases c with
  | slot j => exact h1
  | home => exact h1.arbLess _ (List.Sublist.refl _)

/-- The lane that a claimant preempts is enabled and of lower priority (R50). -/
theorem victim_spec {p : Nat} {l : Fin 3} (h : t.victim p = some l) :
    (t.lane l).enabled = true ∧ (t.lanePriority l).any (· < p) = true := by
  unfold State.victim at h
  have key : ∀ (ls : List (Fin 3)) (b : Option (Fin 3)),
      (∀ x ∈ b, (t.lane x).enabled = true ∧ (t.lanePriority x).any (· < p) = true) →
      (∀ x ∈ ls, (t.lane x).enabled = true ∧ (t.lanePriority x).any (· < p) = true) →
      ∀ x ∈ ls.foldl t.preferLane b, (t.lane x).enabled = true ∧ (t.lanePriority x).any (· < p) = true := by
    intro ls
    induction ls with
    | nil => intro b hb _; exact hb
    | cons a ls ih =>
      intro b hb hl
      refine ih _ (fun x hx => ?_) (fun x hx => hl x (List.mem_cons_of_mem _ hx))
      unfold State.preferLane at hx
      split at hx
      · cases hx; exact hl _ (by simp)
      · dsimp only at hx
        split at hx
        · cases hx; exact hb _ rfl
        · cases hx; exact hl _ (by simp)
  refine key _ none (by simp) (fun x hx => ?_) l h
  have := (List.mem_filter.1 hx).2
  simpa only [Bool.and_eq_true] using this

theorem Flow.claim (W : ∀ j ∈ k, s.outSlot j) {c : Claimant} (n : Nat) (hc : ∀ j ∈ k, c ≠ .slot j)
    (h : Flow k s t) : Flow k s (claim c n t) := by
  unfold Machine.claim
  split
  · exact h.grantTo _ hc
  · rename_i hl
    exact h.giveLane W n hc (by simp [idleLane_spec hl])
  · rename_i hl
    exact h.preempt W n hc (by have := (victim_spec hl).1; simpa [Lane.enabled] using this)
  · exact h.waitFor n hc

/-! ### The home hold (R54) -/

theorem Flow.homeClaim (W : ∀ j ∈ k, s.outSlot j) (h : Flow k s t) : Flow k s (homeClaim t) := by
  unfold Machine.homeClaim
  split
  · exact h.claim W _ fun _ _ e => by cases e
  · exact h

theorem Flow.homeLeave (W : ∀ j ∈ k, s.outSlot j) (h : Flow k s t) : Flow k s (homeLeave t) := by
  unfold Machine.homeLeave
  exact (h.arbLess (fun a => { a.dequeue .home with home := .inactive }) List.filter_sublist).releaseLeft W _

theorem Flow.homeRedecide (W : ∀ j ∈ k, s.outSlot j) (h : Flow k s t) : Flow k s (homeRedecide t) := by
  have again : ∀ {u}, Flow k s u → Flow k s (if u.homeCondition none then Machine.homeClaim u else u) :=
    fun hu => by split <;> [exact hu.homeClaim W; exact hu]
  have moved : Flow k s (if !t.homeCondition t.homeLane then Machine.homeLeave t
      else if t.homeMoved then
        if (Machine.homeLeave t).homeCondition none then Machine.homeClaim (Machine.homeLeave t)
        else Machine.homeLeave t
      else t) := by
    split
    · exact h.homeLeave W
    · split <;> [exact again (h.homeLeave W); exact h]
  unfold Machine.homeRedecide
  split
  · exact again h
  · exact moved
  · exact moved
  · split <;> [exact h; exact h.arbLess _ (List.Sublist.refl _)]

theorem Flow.homeRetry (W : ∀ j ∈ k, s.outSlot j) (h : Flow k s t) : Flow k s (homeRetry t) := by
  unfold Machine.homeRetry
  split
  · exact (h.arbLess _ (List.Sublist.refl _)).homeRedecide W
  · exact h

/-! ### The sweep's events (R119 to R121) -/

theorem Flow.sweepLeave (W : ∀ j ∈ k, s.outSlot j) (h : Flow k s t) : Flow k s (sweepLeave t) :=
  (h.modSweep _).releaseLeft W _

theorem Flow.sweepTimer (W : ∀ j ∈ k, s.outSlot j) (h : Flow k s t) : Flow k s (sweepTimer t) := by
  unfold Machine.sweepTimer
  split
  · exact (h.sweepLeave W).sweepGo.homeRedecide W
  · exact (h.modSweep _).sweepGo.homeRedecide W
  · exact h

theorem Flow.sweepEnterConfig (W : ∀ j ∈ k, s.outSlot j) (h : Flow k s t) :
    Flow k s (sweepEnterConfig t) := by
  unfold Machine.sweepEnterConfig
  split
  · exact h
  · exact (h.sweepLeave W).sweepPause _
  · exact (h.modSweep _).sweepPause _

theorem Flow.sweepFromLowest (h : Flow k s t) : Flow k s (sweepFromLowest t) := by
  unfold Machine.sweepFromLowest
  split
  · exact (h.modSweep _).sweepAsk
  · exact (h.modSweep _).sweepPause _

theorem Flow.sweepLeaveConfig (h : Flow k s t) : Flow k s (sweepLeaveConfig t) := by
  unfold Machine.sweepLeaveConfig
  split
  · exact h.sweepAsk
  · exact h.sweepFromLowest
  · exact h

theorem Flow.sweepLost (W : ∀ j ∈ k, s.outSlot j) (c : Nat) (h : Flow k s t) : Flow k s (sweepLost c t) := by
  unfold Machine.sweepLost
  split
  · split
    · exact (h.sweepLeave W).sweepGo
    · exact h
    · exact h.sweepAdvance
    · exact h
  · exact h

theorem Flow.sweepFound (h : Flow k s t) : Flow k s (sweepFound t) := by
  unfold Machine.sweepFound
  split
  · split
    · exact (h.modSweep _).sweepPause _
    · exact h.sweepFromLowest
  · exact h

/-! ### Lane events: what follows the lane's own change (R14, R20, R21, R37, R43) -/

theorem Flow.sweepLocked (l : Fin 3) (h : Flow k s t) : Flow k s (sweepLocked l t) := by
  unfold Machine.sweepLocked
  split
  · exact (h.modSweep _).startDwell
  · exact h

theorem Flow.slotLockedEvent {j : Fin 5} (hj : j ∉ k) (h : Flow k s t) : Flow k s (slotLockedEvent j t) := by
  unfold Machine.slotLockedEvent
  split
  · exact h.enterAcquiring hj
  · exact h

theorem Flow.slotLaneLost {j : Fin 5} (hj : j ∉ k) (h : Flow k s t) : Flow k s (slotLaneLost j t) := by
  unfold Machine.slotLaneLost
  dsimp only
  have h1 := h.setSlot (f := fun sl => { sl with retune := sl.retune + 1 }) hj rfl
  split
  · split
    · exact ((h1.dropFilters j).setSlot hj rfl).reportLeft j
    · exact h1.faultSlot hj
  · exact h

theorem Flow.slotSeekFailed {j : Fin 5} (hj : j ∉ k) (h : Flow k s t) : Flow k s (slotSeekFailed j t) := by
  unfold Machine.slotSeekFailed
  dsimp only
  have h1 := h.setSlot (f := fun sl => { sl with retune := sl.retune + 1 }) hj rfl
  split
  · split
    · exact h1.setSlot hj rfl
    · exact h1.faultSlot hj
  · exact h

/-! ### The switch engine's operations that leave a slot's service (R3, R6, R27) -/

theorem Flow.editComponents (j : Fin 5) (h : Flow k s t) : Flow k s (editComponents j t) := by
  unfold Machine.editComponents
  dsimp only
  split
  · exact (h.modRouter _ (Router.sorted_removeSlot _ _)).installSlot j
  · exact h

end Sys2Proof.Machine
end

