-- ==== Sys2Proof/Laws/Acts.lean ====
section
/-! SUPPORT. What tuning, stopping, the schedule unit and a mode change can do, said once: the relation `Acts`.
They touch no table, clock, purse, purchase, store, profile record or reply; they write no schedule entry
and arm none; and only a WAKE entry, fired in STANDBY, changes the mode of itself. -/

namespace Sys2Proof.Machine

open Sys2Proof

/-- What a state and one that the schedule unit or the switch engine leads to have in common. -/
structure Acts (s t : State) : Prop where
  calm : t.calm = s.calm
  off : ∀ l, (t.lane l).state = .off ↔ (s.lane l).state = .off
  tally : ∀ l, (t.lane l).tally = (s.lane l).tally
  gate : s.gate.ok → t.gate.ok
  queue : s.arb.ok → t.arb.ok
  filters : KeySorted Filter.key s.router.filters → KeySorted Filter.key t.router.filters
  notices : s.link.notices.length ≤ 32 → t.link.notices.length ≤ 32
  flags : ∀ i : Fin 10, s.link.flags[i] = true → t.link.flags[i] = true
  guide : s.guide.ok → t.guide.ok
  armed : ∀ n, (t.entry n).state = .armed → (s.entry n).state = .armed
  mode : s.noWake → t.mode = s.mode
  sheds : t.guide.places.Sublist s.guide.places
  stays : KeySorted (·.num) s.guide.places →
    ∀ p ∈ s.guide.places, p.disturbed ≤ 1 → p ∈ t.guide.places

theorem Acts.refl (s : State) : Acts s s :=
  ⟨rfl, fun _ => .rfl, fun _ => rfl, id, id, id, id, fun _ => id, id, fun _ => id, fun _ => rfl,
    .refl _, fun _ _ h _ => h⟩

theorem calm_entry {s t : State} (h : t.calm = s.calm) (n : Fin 24) :
    (t.entry n).trigger = (s.entry n).trigger ∧ (t.entry n).action = (s.entry n).action := by
  have h1 : (t.calm.schedule)[n] = (s.calm.schedule)[n] := by rw [h]
  simp only [State.calm, Fin.getElem_fin, Vector.getElem_map] at h1
  exact ⟨(congrArg Entry.trigger h1 :), (congrArg Entry.action h1 :)⟩

theorem Acts.noWake {s t : State} (h : Acts s t) (w : s.noWake) : t.noWake := fun n hn => by
  rw [(calm_entry h.calm n).2]; exact w n (h.armed n hn)

theorem Acts.noRise {s t : State} (h : Acts s t) (w : s.noRise) : t.noRise := fun n c hn => by
  rw [(calm_entry h.calm n).1]; exact w n c (h.armed n hn)

theorem Acts.trans {s t u : State} (h : Acts s t) (g : Acts t u) : Acts s u :=
  ⟨g.calm.trans h.calm, fun l => (g.off l).trans (h.off l), fun l => (g.tally l).trans (h.tally l),
   g.gate ∘ h.gate, g.queue ∘ h.queue, g.filters ∘ h.filters, g.notices ∘ h.notices,
   fun i => g.flags i ∘ h.flags i, g.guide ∘ h.guide, fun n => h.armed n ∘ g.armed n,
   fun w => (g.mode (h.noWake w)).trans (h.mode w),
   g.sheds.trans h.sheds, fun hs p hp hd => g.stays (hs.sublist h.sheds) p (h.stays hs p hp hd) hd⟩

variable {s t : State}

theorem still_entry (h : t.still = s.still) (n : Fin 24) : (t.entry n).core = (s.entry n).core := by
  have h1 : (t.still.schedule)[n] = (s.still.schedule)[n] := by rw [h]
  simpa only [State.still, State.entry, Fin.getElem_fin, Vector.getElem_map] using h1

theorem still_slot (h : t.still = s.still) (j : Fin 5) : (t.slot j).core = (s.slot j).core := by
  have h1 : (t.still.slots)[j] = (s.still.slots)[j] := by rw [h]
  simpa only [State.still, State.slot, Fin.getElem_fin, Vector.getElem_map] using h1

theorem calm_of_still (h : t.still = s.still) : t.calm = s.calm := by
  have e1 : t.slots.map (fun x : Slot => ({ profile := x.profile } : Slot))
      = s.slots.map fun x => { profile := x.profile } := by
    ext1 i hi
    simp only [Vector.getElem_map]
    have := congrArg Slot.profile (still_slot h ⟨i, hi⟩)
    exact congrArg (fun p => ({ profile := p } : Slot)) this
  have e2 : t.schedule.map (fun e : Entry => ({ trigger := e.trigger, action := e.action } : Entry))
      = s.schedule.map fun e => { trigger := e.trigger, action := e.action } := by
    ext1 i hi
    simp only [Vector.getElem_map]
    have h1 := congrArg Entry.trigger (still_entry h ⟨i, hi⟩)
    have h2 := congrArg Entry.action (still_entry h ⟨i, hi⟩)
    have h1 : t.schedule[i].trigger = s.schedule[i].trigger := h1
    have h2 : t.schedule[i].action = s.schedule[i].action := h2
    rw [h1, h2]
  have e3 : t.parental = s.parental := (congrArg State.parental h :)
  unfold State.calm
  rw [e1, e2, e3, h]

/-- What movement does, the schedule unit may. -/
theorem Flow.acts {k : Option (Fin 5)} (h : Flow k s t) : Acts s t :=
  ⟨calm_of_still h.still, h.off, h.tally, h.gate, h.queue, h.filters, h.notices, h.flags, h.guide,
   fun n hn => by rw [← hn]; exact (congrArg Entry.state (still_entry h.still n)).symm,
   fun _ => (congrArg State.mode h.still :), h.sheds, h.stays⟩

theorem Acts.flow {u : State} (h : Acts s t) (g : Flow none t u) : Acts s u := h.trans g.acts

/-! ### The single changes -/

/-- A slot changed, its profile left. -/
theorem Acts.modSlot (j : Fin 5) (f : Slot → Slot) (hf : (f (t.slot j)).profile = (t.slot j).profile)
    (h : Acts s t) : Acts s (t.modSlot j f) := by
  refine h.trans ⟨?_, fun _ => .rfl, fun _ => rfl, id, id, id, id, fun _ => id, id, fun _ => id,
    fun _ => rfl, .refl _, fun _ _ h _ => h⟩
  have : (t.modSlot j f).slots.map (fun x : Slot => ({ profile := x.profile } : Slot))
      = t.slots.map fun x => { profile := x.profile } := by
    ext1 i hi
    simp only [State.modSlot_slots, Vector.getElem_map, Fin.getElem_fin, Vector.getElem_set]
    split
    · subst_vars; exact (congrArg (fun p => ({ profile := p } : Slot)) hf :)
    · rfl
  exact (congrArg (fun v => { t.calm with slots := v }) this :)

/-- A schedule entry changed, its trigger and action left, and not armed. -/
theorem Acts.modEntry (n : Fin 24) (f : Entry → Entry) (h1 : (f (t.entry n)).trigger = (t.entry n).trigger)
    (h2 : (f (t.entry n)).action = (t.entry n).action)
    (h3 : (f (t.entry n)).state = .armed → (t.entry n).state = .armed) (h : Acts s t) :
    Acts s (t.modEntry n f) := by
  refine h.trans ⟨?_, fun _ => .rfl, fun _ => rfl, id, id, id, id, fun _ => id, id, fun i => ?_,
    fun _ => rfl, .refl _, fun _ _ h _ => h⟩
  · have : (t.modEntry n f).schedule.map (fun e : Entry => ({ trigger := e.trigger, action := e.action } : Entry))
        = t.schedule.map fun e => { trigger := e.trigger, action := e.action } := by
      ext1 i hi
      simp only [State.modEntry_schedule, Vector.getElem_map, Fin.getElem_fin, Vector.getElem_set]
      split
      · subst_vars
        have h1 : (f t.schedule[n]).trigger = t.schedule[n].trigger := h1
        have h2 : (f t.schedule[n]).action = t.schedule[n].action := h2
        simp only [Fin.getElem_fin] at h1 h2 ⊢
        rw [h1, h2]
      · rfl
    exact (congrArg (fun v => { t.calm with schedule := v }) this :)
  · by_cases hi : n = i
    · subst hi; simpa [State.entry, State.modEntry] using h3
    · have : (n : Nat) ≠ i := fun e => hi (Fin.ext e)
      simp [State.entry, State.modEntry, this]

theorem Acts.unlocks (f : Parental → Parental)
    (hf : { f t.parental with unlocks := Vector.replicate 3 none }
      = { t.parental with unlocks := Vector.replicate 3 none }) (h : Acts s t) :
    Acts s (t.modParental f) :=
  h.trans ⟨(congrArg (fun v => { t.calm with parental := v }) hf :), fun _ => .rfl, fun _ => rfl, id, id, id, id,
    fun _ => id, id, fun _ => id, fun _ => rfl,
    .refl _, fun _ _ h _ => h⟩

theorem Acts.endUnlock (v : Fin 3) (h : Acts s t) : Acts s (endUnlock v t) := by
  unfold Machine.endUnlock
  split
  · exact h
  · exact (h.unlocks _ rfl).flow ((Flow.refl none _).gateReport _)

theorem Acts.endUnlockOf (j : Fin 5) (h : Acts s t) : Acts s (endUnlockOf j t) := by
  unfold Machine.endUnlockOf
  split
  · exact h.endUnlock _
  · exact h

theorem Acts.forEach {α : Type} {l : List α} {f : α → State → State}
    (hf : ∀ a ∈ l, ∀ u, Acts s u → Acts s (f a u)) (h : Acts s t) : Acts s (forEach l f t) :=
  forEach_keeps (P := Acts s) hf h

theorem nobody (s : State) : ∀ j ∈ (none : Option (Fin 5)), s.outSlot j := by simp

/-! ### Tuning and stopping (R9 to R13, R24, R25) -/

theorem Acts.overrideEntry (j : Fin 5) (h : Acts s t) : Acts s (overrideEntry j t) := by
  unfold Machine.overrideEntry
  split
  · exact h
  · exact h.modEntry _ _ rfl rfl (fun e => by cases e)

theorem Acts.beginOn (v : Service) (r : Reason) (f : Slot → Slot) (j : Fin 5)
    (hf : ∀ x : Slot, (f x).profile = x.profile) (h : Acts s t) : Acts s (beginOn v r f j t) := by
  unfold Machine.beginOn
  exact (h.flow (((Flow.refl none t).dequeue _).dropFilters j)).modSlot j _ (by rw [hf]; rfl)

theorem Acts.claimOn (v : Service) (l : Option (Fin 3)) (j : Fin 5) (h : Acts s t) :
    Acts s (claimOn v l j t) :=
  h.flow ((((((Flow.refl none _).reportLeft j).determine j).updateRating j).releaseLeft (nobody _) _).claim
    (nobody _) _ (by simp) |>.homeRedecide (nobody _))

theorem Acts.restartOn (v : Service) (j : Fin 5) (h : Acts s t) : Acts s (restartOn v j t) :=
  (h.beginOn _ _ _ _ fun _ => rfl).claimOn _ _ _

theorem Acts.acceptTune (v : Service) (o : Origin) (j : Fin 5) (h : Acts s t) :
    Acts s (acceptTune v o j t) := by
  unfold Machine.acceptTune
  have h1 := h.beginOn v .none (fun sl : Slot => { sl with
    origin := o, cellsOut := 0, unkeyed := 0, gaps := 0, cur := none }) j fun _ => rfl
  exact (h1.endUnlockOf j).claimOn v _ j

theorem Acts.takeOverSlot (n : Fin 24) (j : Fin 5) (h : Acts s t) : Acts s (takeOverSlot n j t) :=
  (h.modSlot j (fun sl => { sl with origin := .schedule n }) rfl).flow ((Flow.refl none _).syncSlots _)

theorem Acts.tuneForEntry (n : Fin 24) (j : Fin 5) (sid : Nat) (h : Acts s t) :
    Acts s (tuneForEntry n j sid t).2 := by
  unfold Machine.tuneForEntry
  split
  · exact h
  · split
    · exact h
    · split
      · exact h
      · split
        · exact h.takeOverSlot _ _
        · exact h.acceptTune _ _ _

theorem Acts.freeSlot (r : Reason) (j : Fin 5) (h : Acts s t) : Acts s (freeSlot r j t) := by
  unfold Machine.freeSlot
  have h1 : Acts s (dropFilters j (t.modArb (Arbiter.dequeue (.slot j)))) :=
    h.flow (((Flow.refl none t).dequeue _).dropFilters j)
  have h2 := (h1.modSlot j (fun sl => { sl with
    state := .free, reason := r, service := none, carrier := none, lane := none, origin := .user,
    retune := 0, cur := none }) rfl).endUnlockOf j
  exact h2.flow ((((Flow.refl none _).reportLeft j).updateRating j).releaseLeft (nobody _) _)

theorem Acts.homeRedecide (h : Acts s t) : Acts s (homeRedecide t) :=
  h.flow ((Flow.refl none t).homeRedecide (nobody _))

theorem Acts.stopSlot (j : Fin 5) (h : Acts s t) : Acts s (stopSlot j t) := (h.freeSlot _ j).homeRedecide

theorem Acts.sendFree (r : Reason) (j : Fin 5) (h : Acts s t) : Acts s (sendFree r j t) := by
  unfold Machine.sendFree
  split
  · exact h
  · exact ((h.flow ((Flow.refl none t).tellInterrupted j)).freeSlot r j).flow
      ((Flow.refl none _).slotNotice j)

theorem Flow.mode {k : Option (Fin 5)} (h : Flow k s t) : t.mode = s.mode := (congrArg State.mode h.still :)

theorem endUnlock_mode (v : Fin 3) (s : State) : (endUnlock v s).mode = s.mode := by
  unfold endUnlock
  split
  · rfl
  · exact ((Flow.refl none _).gateReport _).mode

theorem freeSlot_mode (r : Reason) (j : Fin 5) (s : State) : (freeSlot r j s).mode = s.mode := by
  unfold freeSlot
  dsimp only
  refine ((((Flow.refl none _).reportLeft j).updateRating j).releaseLeft (nobody _) _).mode.trans ?_
  unfold endUnlockOf
  split
  · exact endUnlock_mode _ _
  · rfl

theorem sendFree_mode (r : Reason) (j : Fin 5) (s : State) : (sendFree r j s).mode = s.mode := by
  unfold sendFree
  split
  · rfl
  · exact ((Flow.refl none _).slotNotice j).mode.trans
      ((freeSlot_mode _ _ _).trans ((Flow.refl none s).tellInterrupted j).mode)

theorem freeForMode_mode (m : Mode) (s : State) : (freeForMode m s).mode = s.mode :=
  forEach_keeps (P := fun u => u.mode = s.mode) (fun j _ u hu => (sendFree_mode .mode j u).trans hu) rfl

theorem Acts.freeForMode (m : Mode) (h : Acts s t) : Acts s (freeForMode m t) :=
  h.forEach fun j _ _ hu => hu.sendFree _ j

theorem Flow.announceMode (c : ModeCause) (m : Mode) (s : State) :
    Flow none (s.setMode m) (announceMode c m s) :=
  (((Flow.refl none (s.setMode m)).raise _ _ _).gateReport _).arbLess _ List.filter_sublist

theorem Flow.laneWorkForMode {k : Option (Fin 5)} (W : ∀ j ∈ k, s.outSlot j) (m : Mode) (h : Flow k s t) :
    Flow k s (laneWorkForMode m t) := by
  unfold Machine.laneWorkForMode
  split
  · exact (h.sweepEnterConfig W).homeRedecide W
  · exact h

/-- A mode change does to everything but the mode what the schedule unit may. -/
theorem changeMode_acts (c : ModeCause) (m : Mode) (s : State) : Acts (s.setMode m) (changeMode c m s) := by
  unfold changeMode
  have h := (((Flow.announceMode c m s).laneWorkForMode (nobody _) m).acts.freeForMode m).homeRedecide
  dsimp only
  split
  · exact (h.flow (Flow.refl none _).sweepLeaveConfig).homeRedecide
  · exact h

theorem changeMode_mode (c : ModeCause) (m : Mode) (s : State) : (changeMode c m s).mode = m := by
  unfold changeMode
  have h : (homeRedecide (freeForMode m (laneWorkForMode m (announceMode c m s)))).mode = m :=
    ((Flow.refl none _).homeRedecide (nobody _)).mode.trans ((freeForMode_mode _ _).trans
      ((Flow.announceMode c m s).laneWorkForMode (nobody _) m).mode)
  dsimp only
  split
  · exact ((Flow.refl none _).sweepLeaveConfig.homeRedecide (nobody _)).mode.trans h
  · exact h

/-! ### The schedule unit (R161 to R166) -/

/-- A mode change that a wake entry makes. -/
theorem Acts.wakes (c : ModeCause) (m : Mode) (hw : ¬ t.noWake) (h : Acts s t) :
    Acts s (changeMode c m t) := by
  have g := changeMode_acts c m t
  exact h.trans ⟨g.calm, g.off, g.tally, g.gate, g.queue, g.filters, g.notices, g.flags, g.guide, g.armed,
    fun w => absurd w hw, g.sheds, g.stays⟩

theorem Acts.scheduleNotice (c : ScheduleCause) (n : Fin 24) (h : Acts s t) :
    Acts s (t.scheduleNotice c n) := h.flow ((Flow.refl none t).raise _ _ _)

theorem Acts.missEntry (c : MissCause) (n : Fin 24) (h : Acts s t) : Acts s (missEntry c n t) :=
  (h.modEntry n (fun e => { e with state := .missed, missed := some c }) rfl rfl
    (fun e => by cases e)).scheduleNotice _ _

theorem Acts.doneEntry (n : Fin 24) (h : Acts s t) : Acts s (doneEntry n t) :=
  (h.modEntry n (fun e => { e with state := .done }) rfl rfl (fun e => by cases e)).scheduleNotice _ _

theorem Acts.fireRecord (n : Fin 24) (j : Fin 5) (sid : Nat) (h : Acts s t) :
    Acts s (fireRecord n j sid t) := by
  unfold Machine.fireRecord
  split
  · exact h.missEntry _ _
  · dsimp only
    exact (((h.modEntry n _ rfl rfl (fun e => by cases e)).tuneForEntry n j sid).modEntry n _ rfl rfl
      id).scheduleNotice _ _

theorem Acts.fireView (n : Fin 24) (sid : Nat) (h : Acts s t) : Acts s (fireView n sid t) := by
  unfold Machine.fireView
  dsimp only
  have h1 := (h.tuneForEntry n 0 sid).modEntry n
    (fun e => { e with lastTune := some (Machine.tuneForEntry n 0 sid t).1 }) rfl rfl id
  split
  · exact Acts.doneEntry n (Acts.flow (Acts.modSlot 0 (fun sl => { sl with origin := .user }) rfl h1)
      (Flow.syncSlots _ (Flow.refl none _)))
  · exact h1.missEntry _ _

theorem Acts.fireWake (n : Fin 24) (hw : ¬ t.noWake) (h : Acts s t) : Acts s (fireWake n t) := by
  unfold Machine.fireWake
  refine Acts.doneEntry n ?_
  split
  · exact h.wakes _ _ hw
  · exact h

theorem Acts.fire (n : Fin 24) (hn : (t.entry n).state = .armed) (h : Acts s t) : Acts s (fire n t) := by
  unfold Machine.fire
  split
  · exact h.fireRecord _ _ _
  · exact h.fireView _ _
  · exact h.doneEntry n
  · rename_i ha
    exact h.fireWake n fun w => w n hn ha

theorem Acts.applyDecision (d : Decision) (n : Fin 24) (hn : (t.entry n).state = .armed) (h : Acts s t) :
    Acts s (applyDecision d n t) := by
  unfold Machine.applyDecision
  split
  · exact h.fire n hn
  · exact h.missEntry _ _
  · exact h

theorem Acts.evaluate (n : Fin 24) (h : Acts s t) : Acts s (evaluate n t) := by
  unfold Machine.evaluate
  split
  · rename_i hn _ _
    split
    · exact h.applyDecision _ _ hn
    · exact h
  · exact h

theorem Acts.evaluateAll (h : Acts s t) : Acts s (evaluateAll t) := h.forEach fun n _ _ hu => hu.evaluate n

theorem Acts.stopRun (n : Fin 24) (h : Acts s t) : Acts s (stopRun n t) := by
  unfold Machine.stopRun
  split
  · split
    · exact h.stopSlot _
    · exact h
  · exact h

theorem Acts.endRun (n : Fin 24) (h : Acts s t) : Acts s (endRun n t) :=
  ((h.stopRun n).modEntry n (fun e => { e with state := .done, retry := none }) rfl rfl
    (fun e => by cases e)).scheduleNotice _ _

theorem Acts.checkEnd (n : Fin 24) (h : Acts s t) : Acts s (checkEnd n t) := by
  unfold Machine.checkEnd
  split
  · exact h.endRun n
  · exact h

theorem Acts.checkEnds (h : Acts s t) : Acts s (checkEnds t) := h.forEach fun n _ _ hu => hu.checkEnd n

theorem Acts.scheduleBoundary (h : Acts s t) : Acts s (scheduleBoundary t) := h.checkEnds.evaluateAll

theorem Acts.retryExpires (n : Fin 24) (h : Acts s t) : Acts s (retryExpires n t) := by
  unfold Machine.retryExpires
  split
  · split
    · exact h.modEntry _ _ rfl rfl id
    · exact (h.tuneForEntry _ _ _).modEntry _ _ rfl rfl id
  · exact h

theorem Acts.retryTimeout (n : Fin 24) (h : Acts s t) : Acts s (retryTimeout n t) := by
  unfold Machine.retryTimeout
  split
  · exact h.retryExpires n
  · exact h

theorem Acts.retimeEntry (e : GuideEvent) (n : Fin 24) (h : Acts s t) : Acts s (retimeEntry e n t) := by
  unfold Machine.retimeEntry
  split
  · have h1 := h.modEntry n (Entry.retime e.start e.stop) rfl rfl id
    dsimp only
    split
    · exact h1.evaluate n
    · exact h1.checkEnd n
  · exact h

theorem Acts.riseEntry (c : Fin 8) (n : Fin 24) (h : Acts s t) : Acts s (riseEntry c n t) := by
  unfold Machine.riseEntry
  split
  · rename_i hn
    exact h.applyDecision _ _ hn.1
  · exact h

theorem Acts.auxRises (l : List (Fin 8)) (h : Acts s t) : Acts s { t with auxRises := l } :=
  h.flow ((Flow.refl none t).auxRises l)

theorem Acts.takeRises (h : Acts s t) : Acts s (takeRises t) :=
  (h.auxRises []).forEach fun c _ _ hu => hu.forEach fun n _ _ hv => hv.riseEntry c n

theorem Acts.settleRises (n : Nat) (h : Acts s t) : Acts s (settleRises n t) := by
  induction n generalizing t with
  | zero => exact h.auxRises []
  | succ n ih =>
    unfold Machine.settleRises
    split
    · exact h
    · exact ih h.takeRises

/-- What the rises of a command bring about, the schedule unit does. -/
theorem Acts.settle (h : Acts s t) : Acts s (settle t) := h.settleRises 25

/-- After the rises are taken none awaits. -/
theorem settle_auxRises (s : State) : (settle s).auxRises = [] := by
  have : ∀ n s, (settleRises n s).auxRises = [] := by
    intro n
    induction n with
    | zero => intro s; rfl
    | succ n ih =>
      intro s
      unfold settleRises
      split
      · rename_i h; simpa using h
      · exact ih _
  exact this 25 s

theorem riseEntry_noRise (c : Fin 8) (n : Fin 24) (h : s.noRise) : riseEntry c n s = s := by
  unfold riseEntry
  exact if_neg fun hc => h n c hc.1 hc.2

theorem takeRises_noRise (h : s.noRise) : takeRises s = { s with auxRises := [] } := by
  unfold takeRises
  refine forEach_keeps (P := fun u => u = { s with auxRises := [] }) (fun c _ u hu => ?_) rfl
  subst hu
  refine forEach_keeps (P := fun u => u = { s with auxRises := [] }) (fun n _ v hv => ?_) rfl
  subst hv
  exact riseEntry_noRise c n h

/-- Where no entry awaits a rise, the rises are dropped and that is all. -/
theorem settle_noRise (h : s.noRise) : settle s = { s with auxRises := [] } := by
  unfold settle settleRises
  split
  · rename_i he
    have : s.auxRises = [] := by simpa using he
    rw [← this]
  · rw [takeRises_noRise h]
    unfold settleRises
    simp

@[simp] theorem settle_none (h : s.auxRises = []) : settle s = s := by
  unfold settle settleRises
  simp [h]

end Sys2Proof.Machine
end

