-- ==== Sys2Proof/Laws/Runs.lean ====
section
/-! SUPPORT. What any work of the blocks can do, said once: `Keeps`, that the form and the ranges of the rules
stay, and `Runs`, which adds what no block's work touches: carriers, classes, services, the part's power, the
queue of commands, the replies, and each schedule entry's trigger and action. -/

namespace Sys2Proof.Machine

open Sys2Proof

/-- What of the state no work of a time boundary touches, the link port's replies and receiver included. -/
def State.hull (s : State) : State :=
  { s.calm with
    clock := {}, access := {}, parental := {}, store := {}, slots := Vector.replicate 5 {} }

/-- The purse, the profiles and the store in their ranges. -/
structure State.held (s : State) : Prop where
  purse : s.access.purse.ok
  parental : s.parental.ok
  store : s.store.ok

/-- The forms and ranges of the rules that hold of one state hold of another. -/
structure Keeps (s t : State) : Prop where
  gate : s.gate.ok → t.gate.ok
  queue : s.arb.ok → t.arb.ok
  filters : KeySorted Filter.key s.router.filters → KeySorted Filter.key t.router.filters
  notices : s.link.notices.length ≤ 32 → t.link.notices.length ≤ 32
  guide : s.guide.ok → t.guide.ok
  writes : s.store.queue.length ≤ 16 → t.store.queue.length ≤ 16
  held : s.held → t.held
  clock : s.clock.ok → t.clock.ok
  services : ServicesOk s.services → ServicesOk t.services
  carriers : CarriersOk s.carriers → CarriersOk t.carriers
  classes : (∀ n : Fin 4, (s.classes[n]).ok) → ∀ n : Fin 4, (t.classes[n]).ok

theorem Keeps.refl (s : State) : Keeps s s := ⟨id, id, id, id, id, id, id, id, id, id, id⟩

theorem Keeps.trans {s t u : State} (h : Keeps s t) (g : Keeps t u) : Keeps s u :=
  ⟨g.gate ∘ h.gate, g.queue ∘ h.queue, g.filters ∘ h.filters, g.notices ∘ h.notices, g.guide ∘ h.guide,
   g.writes ∘ h.writes, g.held ∘ h.held, g.clock ∘ h.clock, g.services ∘ h.services,
   g.carriers ∘ h.carriers, g.classes ∘ h.classes⟩

/-- What a state and one that the blocks' work leads to have in common. -/
structure Runs (s t : State) : Prop where
  hull : t.hull = s.hull
  keeps : Keeps s t
  flags : ∀ i : Fin 10, s.link.flags[i] = true → t.link.flags[i] = true
  wake : s.noWake → t.noWake ∧ t.mode = s.mode
  rise : s.noRise → t.noRise

theorem Runs.refl (s : State) : Runs s s := ⟨rfl, .refl s, fun _ => id, fun h => ⟨h, rfl⟩, id⟩

theorem Runs.trans {s t u : State} (h : Runs s t) (g : Runs t u) : Runs s u :=
  ⟨g.hull.trans h.hull, h.keeps.trans g.keeps, fun i => g.flags i ∘ h.flags i,
   fun w => have a := h.wake w; have b := g.wake a.1; ⟨b.1, b.2.trans a.2⟩, g.rise ∘ h.rise⟩

variable {s t u : State}

theorem hull_of_calm (h : t.calm = s.calm) : t.hull = s.hull := by unfold State.hull; rw [h]

/-- What the schedule unit and the switch engine do, the blocks' work may. -/
theorem Acts.runs (h : Acts s t) : Runs s t := by
  have e1 : t.store = s.store := (congrArg State.store h.calm :)
  have e2 : t.access.purse = s.access.purse := (congrArg (·.access.purse) h.calm :)
  have e3 : t.parental.profiles = s.parental.profiles := (congrArg (·.parental.profiles) h.calm :)
  have e4 : t.clock = s.clock := (congrArg State.clock h.calm :)
  have e5 : t.services = s.services := (congrArg State.services h.calm :)
  have e6 : t.carriers = s.carriers := (congrArg State.carriers h.calm :)
  have e7 : t.classes = s.classes := (congrArg State.classes h.calm :)
  refine ⟨hull_of_calm h.calm, ⟨h.gate, h.queue, h.filters, h.notices, h.guide, by rw [e1]; exact id,
    fun x => ⟨by rw [e2]; exact x.purse, ⟨by rw [e3]; exact x.parental.profiles, by
      rw [e3]; exact x.parental.master⟩, by rw [e1]; exact x.store⟩, by rw [e4]; exact id,
      by rw [e5]; exact id, by rw [e6]; exact id, by rw [e7]; exact id⟩, h.flags,
      fun w => ⟨h.noWake w, h.mode w⟩, h.noRise⟩

theorem Runs.acts (h : Runs s t) (g : Acts t u) : Runs s u := h.trans g.runs

theorem Runs.flow (h : Runs s t) (g : Flow none t u) : Runs s u := h.trans g.acts.runs

theorem Runs.forEach {α : Type} {l : List α} {f : α → State → State}
    (hf : ∀ a ∈ l, ∀ u, Runs s u → Runs s (f a u)) (h : Runs s t) : Runs s (forEach l f t) :=
  forEach_keeps (P := Runs s) hf h

/-! ### The single changes -/

theorem Runs.raise (x : NoticeKind) (sub : Option Nat) (b : List Byte) (h : Runs s t) :
    Runs s (t.raise x sub b) := h.flow ((Flow.refl none t).raise _ _ _)

theorem Runs.setFault (n : FaultName) (f : Faults → Faults) (h : Runs s t) : Runs s (t.setFault n f) :=
  h.flow ((Flow.refl none t).setFault _ _)

theorem Runs.modSlot (j : Fin 5) (f : Slot → Slot) (h : Runs s t) : Runs s (t.modSlot j f) :=
  h.trans ⟨rfl, ⟨id, id, id, id, id, id, fun x => ⟨x.1, x.2, x.3⟩, id, id, id, id⟩, fun _ => id,
    fun w => ⟨w, rfl⟩, id⟩

theorem Runs.modLane (l : Fin 3) (f : Lane → Lane) (h : Runs s t) : Runs s (t.modLane l f) :=
  h.trans ⟨rfl, ⟨id, id, id, id, id, id, fun x => ⟨x.1, x.2, x.3⟩, id, id, id, id⟩, fun _ => id,
    fun w => ⟨w, rfl⟩, id⟩

theorem Runs.modSweep (f : Sweep → Sweep) (h : Runs s t) : Runs s (t.modSweep f) :=
  h.flow ((Flow.refl none t).modSweep f)

theorem Runs.modFaults (f : Faults → Faults) (h : Runs s t) : Runs s (t.modFaults f) :=
  h.flow ((Flow.refl none t).modFaults f)

theorem Runs.modArb (f : Arbiter → Arbiter) (hf : t.arb.ok → (f t.arb).ok) (h : Runs s t) :
    Runs s (t.modArb f) := h.flow ((Flow.refl none t).modArb f hf (by simp))

theorem Runs.modRouter (f : Router → Router)
    (hf : KeySorted Filter.key t.router.filters → KeySorted Filter.key (f t.router).filters)
    (h : Runs s t) : Runs s (t.modRouter f) := h.flow ((Flow.refl none t).modRouter f hf)

/-- The guide changed, as the rules have it if it was so to begin with. -/
theorem Runs.modGuide (f : Guide → Guide) (hf : s.guide.ok → (f t.guide).ok) (h : Runs s t) :
    Runs s (t.modGuide f) :=
  ⟨h.hull, { h.keeps with guide := hf, held := fun x => have y := h.keeps.held x; ⟨y.1, y.2, y.3⟩ },
   h.flags, h.wake, h.rise⟩

theorem Runs.modGate (f : Gate → Gate) (hf : t.gate.ok → (f t.gate).ok) (h : Runs s t) :
    Runs s (t.modGate f) := h.flow ((Flow.refl none t).modGate f hf)

/-- The access unit changed, its purse staying in range. -/
theorem Runs.modAccess (f : Access → Access) (hf : t.access.purse.ok → (f t.access).purse.ok)
    (h : Runs s t) : Runs s (t.modAccess f) :=
  h.trans ⟨rfl, ⟨id, id, id, id, id, id, fun x => ⟨hf x.1, x.2, x.3⟩, id, id, id, id⟩, fun _ => id,
    fun w => ⟨w, rfl⟩, id⟩

theorem Runs.modPurse (f : Purse → Purse) (hf : t.access.purse.ok → (f t.access.purse).ok)
    (h : Runs s t) : Runs s (t.modPurse f) := h.modAccess _ hf

theorem Runs.modAccessCounters (f : AccessCounters → AccessCounters) (h : Runs s t) :
    Runs s (t.modAccessCounters f) := h.modAccess _ id

/-- The parental unit changed, its profiles staying in range. -/
theorem Runs.modParental (f : Parental → Parental) (hf : t.parental.ok → (f t.parental).ok)
    (h : Runs s t) : Runs s (t.modParental f) :=
  h.trans ⟨rfl, ⟨id, id, id, id, id, id, fun x => ⟨x.1, hf x.2, x.3⟩, id, id, id, id⟩, fun _ => id,
    fun w => ⟨w, rfl⟩, id⟩

theorem Parental.ok_of {q r : Parental} (h : r.profiles = q.profiles) (hq : q.ok) : r.ok :=
  ⟨by rw [h]; exact hq.profiles, by rw [h]; exact hq.master⟩

/-- A profile changed, staying in range, and the master profile in use. -/
theorem Runs.modProfile (p : Fin 8) (f : Profile → Profile) (hf : (t.profile p).ok → (f (t.profile p)).ok)
    (hu : p = 0 → (t.profile p).inUse = true → (f (t.profile p)).inUse = true) (h : Runs s t) :
    Runs s (t.modProfile p f) := by
  refine h.modParental _ fun q => ⟨fun i => ?_, ?_⟩
  · simp only [Fin.getElem_fin, Vector.getElem_set]
    split
    · rename_i e
      have : p = i := Fin.ext e
      subst this
      exact hf (q.profiles p)
    · exact q.profiles i
  · have hm := q.master
    simp only [Fin.getElem_fin, Vector.getElem_set] at hm ⊢
    split
    · rename_i e
      have : p = 0 := Fin.ext e
      subst this
      exact hu rfl hm
    · exact hm

theorem Runs.markDirty (p : Fin 8) (h : Runs s t) : Runs s (t.markDirty p) :=
  h.modParental _ (Parental.ok_of rfl)

/-- The clock changed, staying in range. -/
theorem Runs.modClock (f : Clock → Clock) (hf : t.clock.ok → (f t.clock).ok) (h : Runs s t) :
    Runs s (t.modClock f) :=
  h.trans ⟨rfl, ⟨id, id, id, id, id, id, fun x => ⟨x.1, x.2, x.3⟩, hf, id, id, id⟩, fun _ => id,
    fun w => ⟨w, rfl⟩, id⟩

theorem Runs.auxRises (l : List (Fin 8)) (h : Runs s t) : Runs s { t with auxRises := l } :=
  h.flow ((Flow.refl none t).auxRises l)

/-! ### Handing over (R178) -/

/-- What the write queue holds, the write under way and what waits, and that it stands in its bound. -/
structure Store.kept (st : Store) (l : List HandOver) : Prop where
  writes : st.queue.length ≤ 16
  writing : ∀ w ∈ st.writing, w.1 ∈ l
  queue : ∀ h ∈ st.queue, h ∈ l
  waiting : ∀ h ∈ st.waiting, h ∈ l

theorem Store.fill_units (now : Nat) (line : List HandOver) (st : Store) :
    (Store.fill now line st).units = st.units := by
  unfold Store.fill; split <;> rfl

theorem Store.fill_last (now : Nat) (line : List HandOver) (st : Store) :
    (Store.fill now line st).last = st.last := by
  unfold Store.fill; split <;> rfl

/-- The line taken up: at most 16 stand in the queue, and all that is held was in line or under way. -/
theorem Store.fill_kept (now : Nat) (line : List HandOver) (st : Store) :
    (Store.fill now line st).kept (line ++ (st.writing.map (·.1)).toList) := by
  unfold Store.fill
  split
  · rename_i h rest hw
    refine ⟨by simp, fun w hm => ?_, fun x hx => ?_, fun x hx => ?_⟩
    · simp only [Option.mem_def, Option.some.injEq] at hm; subst hm; simp
    · have := List.mem_of_mem_take hx; simp [this]
    · have := List.mem_of_mem_drop hx; simp [this]
  · refine ⟨by simp, fun w hm => ?_, fun x hx => ?_, fun x hx => ?_⟩
    · simp only [Option.mem_def] at hm; simp [hm]
    · have := List.mem_of_mem_take hx; simp [this]
    · have := List.mem_of_mem_drop hx; simp [this]

theorem Store.ok_of_kept {st st' : Store} {l : List HandOver} (hu : st'.units = st.units)
    (hk : st'.kept l) (hl : ∀ h ∈ l, h.image.ok h.unit) (h : st.ok) : st'.ok :=
  ⟨by rw [hu]; exact h.access, by rw [hu]; exact h.purchases, by rw [hu]; exact h.profiles,
   fun w hw => hl _ (hk.writing w hw), fun x hx => hl _ (hk.queue x hx), fun x hx => hl _ (hk.waiting x hx)⟩

theorem Store.handOver_ok {st : Store} (now : Nat) {u : UnitId} {im : UnitImage} (hi : im.ok u) (h : st.ok) :
    (Store.handOver now u im st).ok := by
  unfold Store.handOver
  refine Store.ok_of_kept (st := st) (Store.fill_units _ _ _) (Store.fill_kept _ _ _) (fun x hx => ?_) h
  simp only [List.append_assoc, List.mem_append, List.mem_filter, List.mem_singleton, Option.mem_toList,
    Option.map_eq_some_iff] at hx
  rcases hx with ⟨hx | hx, -⟩ | hx | ⟨w, hw, rfl⟩
  · exact h.queue x hx
  · exact h.waiting x hx
  · subst hx; exact hi
  · exact h.writing w hw

theorem Store.handOver_writes (now : Nat) (u : UnitId) (im : UnitImage) (st : Store) :
    (Store.handOver now u im st).queue.length ≤ 16 := by
  unfold Store.handOver
  exact (Store.fill_kept _ _ _).writes

/-- A unit handed over, its image in range. -/
theorem Runs.handOver (i : UnitId) (im : UnitImage) (hi : t.held → im.ok i) (h : Runs s t) :
    Runs s (t.handOver i im) :=
  h.trans ⟨rfl, ⟨id, id, id, id, id, fun _ => Store.handOver_writes _ _ _ _,
    fun x => ⟨x.1, x.2, Store.handOver_ok _ (hi x) x.3⟩, id, id, id, id⟩, fun _ => id,
    fun w => ⟨w, rfl⟩, id⟩

theorem Runs.handAccess (h : Runs s t) : Runs s t.handAccess := h.handOver _ _ fun x => x.purse

theorem Runs.handTiers (h : Runs s t) : Runs s t.handTiers := h.handOver _ _ fun _ => trivial

theorem Runs.handGrants (h : Runs s t) : Runs s t.handGrants := h.handOver _ _ fun _ => trivial

theorem Runs.handHousehold (h : Runs s t) : Runs s t.handHousehold := h.handOver _ _ fun _ => trivial

theorem Runs.handProfile (p : Fin 8) (h : Runs s t) : Runs s (t.handProfile p) := by
  refine (h.handOver (.profile p) (.profile (t.profile p)) fun x => ⟨x.parental.profiles p, fun e => ?_⟩).modParental
    _ (Parental.ok_of rfl)
  cases e
  exact x.parental.master

/-- The write in progress completes. -/
theorem Runs.writeComplete (now : Nat) (h : Runs s t) : Runs s (t.modStore (Store.writeComplete now)) := by
  refine h.trans ⟨rfl, ⟨id, id, id, id, id, fun hq => ?_, fun x => ⟨x.1, x.2, ?_⟩, id, id, id, id⟩,
    fun _ => id, fun w => ⟨w, rfl⟩, id⟩
  · simp only [State.modStore_store, Store.writeComplete]
    split
    · exact hq
    · exact (Store.fill_kept _ _ _).writes
  · have x := x.store
    simp only [State.modStore_store, Store.writeComplete]
    split
    · exact x
    · rename_i w d hw
      have hwo := x.writing (w, d) hw
      have hu : (t.store.units.write w).access.image.ok
          ∧ (∀ n : Fin 64, (UnitImage.purchase ((t.store.units.write w).purchases[n]).image).ok (.purchase n))
          ∧ ∀ p : Fin 8, (UnitImage.profile ((t.store.units.write w).profiles[p]).image).ok (.profile p) := by
        unfold Units.write
        split
        · rename_i e1 e2
          exact ⟨by simpa [e2, UnitImage.ok] using hwo, x.purchases, x.profiles⟩
        · rename_i n i e1 e2
          refine ⟨x.access, fun m => ?_, x.profiles⟩
          simp only [Fin.getElem_fin, Vector.getElem_set]
          split
          · rw [e2] at hwo
            cases i <;> exact hwo
          · exact x.purchases m
        · exact ⟨x.access, x.purchases, x.profiles⟩
        · exact ⟨x.access, x.purchases, x.profiles⟩
        · rename_i n i e1 e2
          refine ⟨x.access, x.purchases, fun m => ?_⟩
          simp only [Fin.getElem_fin, Vector.getElem_set]
          split
          · rename_i e
            have : n = m := Fin.ext e
            subst this
            rw [e2, e1] at hwo
            exact hwo
          · exact x.profiles m
        · exact ⟨x.access, x.purchases, x.profiles⟩
        · exact ⟨x.access, x.purchases, x.profiles⟩
        · exact ⟨x.access, x.purchases, x.profiles⟩
      refine Store.ok_of_kept (Store.fill_units _ _ _) (Store.fill_kept _ _ _) (fun y hy => ?_)
        ⟨hu.1, hu.2.1, hu.2.2, by simp, x.queue, x.waiting⟩
      simp only [Option.map_none, Option.toList_none, List.append_nil, List.mem_append] at hy
      exact hy.elim (x.queue y) (x.waiting y)

end Sys2Proof.Machine
end

