-- ==== Sys2Proof/Laws/GuideFlow.lean ====
section
/-! SUPPORT. What the guide store does when it takes, removes and reads events (R105 to R116): the store stays as
the rules have it. -/

namespace Sys2Proof.Machine

open Sys2Proof

variable {k : Option (Fin 5)} {s t : State}

/-! ### The table of places -/

/-- A table with an entry of a new key put in has the old entries and the new one. -/
theorem keyPut_perm {α : Type} {key : α → Nat} (a : α) {l : List α} (h : ∀ b ∈ l, key b ≠ key a) :
    (keyPut key a l).Perm (a :: l) := by
  induction l with
  | nil => exact .refl _
  | cons b l ih =>
    unfold keyPut
    split
    · exact .refl _
    · split
      · rename_i e; exact absurd e.symm (h b (by simp))
      · exact ((ih fun c hc => h c (List.mem_cons_of_mem _ hc)).cons b).trans (.swap a b l)

/-- An entry put in the place of one that looks the same leaves how the table looks. -/
theorem map_keyPut_same {α β : Type} {key : α → Nat} (f : α → β) {a p : α} {l : List α}
    (hs : KeySorted key l) (hp : p ∈ l) (hk : key p = key a) (hf : f p = f a) :
    (keyPut key a l).map f = l.map f := by
  induction l with
  | nil => cases hp
  | cons b l ih =>
    obtain ⟨hb, hl⟩ := List.pairwise_cons.1 hs
    have hmin : key b ≤ key a := by
      rcases List.mem_cons.1 hp with rfl | hp
      · exact hk.le
      · exact hk ▸ (hb p hp).le
    unfold keyPut
    split
    · omega
    · split
      · rename_i e
        have : p = b := by
          rcases List.mem_cons.1 hp with rfl | hp
          · rfl
          · have := hb p hp; omega
        subst this
        simp [hf]
      · rename_i e
        have : p ∈ l := by
          rcases List.mem_cons.1 hp with rfl | hp
          · exact absurd hk.symm e
          · exact hp
        simp [ih hl this]

theorem lowestFree_spec {l : List Place} (n : Nat) (hs : KeySorted (·.num) l) (hn : ∀ p ∈ l, n ≤ p.num) :
    n ≤ lowestFree n l ∧ lowestFree n l ≤ n + l.length ∧ ∀ p ∈ l, p.num ≠ lowestFree n l := by
  induction l generalizing n with
  | nil => simp [lowestFree]
  | cons q l ih =>
    obtain ⟨hq, hl⟩ := List.pairwise_cons.1 hs
    have hn0 := hn q (by simp)
    unfold lowestFree
    split
    · rename_i e
      have := ih (n + 1) hl fun p hp => by have : q.num < p.num := hq p hp; omega
      refine ⟨by omega, by simp only [List.length_cons]; omega, fun p hp => ?_⟩
      rcases List.mem_cons.1 hp with rfl | hp
      · omega
      · exact this.2.2 p hp
    · rename_i e
      refine ⟨le_refl _, by omega, fun p hp => ?_⟩
      rcases List.mem_cons.1 hp with rfl | hp
      · exact e
      · have : q.num < p.num := hq p hp
        omega

theorem GuideEvent.apart_symm {a b : GuideEvent} (h : a.apart b) : b.apart a := fun e => by
  obtain ⟨h1, h2⟩ := h e.symm
  refine ⟨fun e' => h1 e'.symm, ?_⟩
  unfold GuideEvent.overlaps at h2 ⊢
  rw [Bool.and_comm]
  exact h2

/-- An event put in an empty place, apart from every other entry, leaves the store as the rules have it. -/
theorem Guide.ok_write {g : Guide} {n : Nat} {e : GuideEvent} (hn : n < 2048)
    (hf : ∀ p ∈ g.places, p.num ≠ n) (ha : ∀ p ∈ g.places, p.ev.apart e) (h : g.ok) :
    (g.write n e).ok := by
  obtain ⟨h1, h2, h3, h4⟩ := h
  have hp := keyPut_perm (key := fun p : Place => p.num) ({ num := n, ev := e } : Place) hf
  refine ⟨keySorted_keyPut _ h1, fun p hm => ?_, ?_, fun r hr => ?_⟩
  · rcases mem_keyPut hm with rfl | hm
    · exact hn
    · exact h2 p hm
  · refine (hp.pairwise_iff fun {x y} hxy => GuideEvent.apart_symm hxy).2
      (List.pairwise_cons.2 ⟨fun p hm => GuideEvent.apart_symm (ha p hm), h3⟩)
  · obtain ⟨p, hm, e1, e2⟩ := h4 r hr
    exact ⟨p, hp.mem_iff.2 (List.mem_cons_of_mem _ hm), e1, e2⟩

/-- The rewrite of an occupied place with its own contents. -/
theorem Guide.ok_scrubDone {g : Guide} (h : g.ok) : g.scrubDone.ok := by
  unfold Guide.scrubDone
  split
  · exact h
  · rename_i r hr
    obtain ⟨h1, h2, h3, h4⟩ := h
    obtain ⟨p, hp, e1, e2⟩ := h4 r hr
    refine ⟨keySorted_keyPut _ h1, fun q hm => ?_, ?_, by simp⟩
    · rcases mem_keyPut hm with rfl | hm
      · exact e1 ▸ h2 p hp
      · exact h2 q hm
    · have hmap := map_keyPut_same (key := fun p : Place => p.num) Place.ev
        (a := { num := r.place, ev := r.contents }) h1 hp e1 e2
      have h3' : (g.places.map Place.ev).Pairwise GuideEvent.apart := List.pairwise_map.2 h3
      exact List.pairwise_map.1 (hmap ▸ h3')

/-- The places without those of some entries. -/
theorem foldl_remove_places (l : List Place) (g : Guide) :
    (l.foldl (fun g p => Guide.remove p.num g) g).places
      = g.places.filter fun q => !(l.any fun p => p.num == q.num) := by
  induction l generalizing g with
  | nil => simp
  | cons p l ih =>
    rw [List.foldl_cons, ih]
    simp only [Guide.remove, keyDrop, List.filter_filter, List.any_cons]
    refine List.filter_congr fun q _ => ?_
    rw [Bool.not_or, Bool.and_comm, bne, Bool.beq_comm (a := q.num)]

theorem foldl_remove_ok (l : List Place) {g : Guide} (h : g.ok) :
    (l.foldl (fun g p => Guide.remove p.num g) g).ok := by
  induction l generalizing g with
  | nil => exact h
  | cons p l ih => exact ih (Guide.ok_remove _ h)

/-! ### Taking an event (R105, R106) -/

theorem Flow.guideCounters (f : GuideCounters → GuideCounters) (h : Flow k s t) :
    Flow k s (t.modGuideCounters f) := h.guideAside _ (Guide.ok_of rfl rfl) rfl

theorem Runs.guideCounters (f : GuideCounters → GuideCounters) (h : Runs s t) :
    Runs s (t.modGuideCounters f) := h.flow ((Flow.refl none t).guideCounters f)

theorem Runs.putEvent (e : GuideEvent) (old : Option Place) (hit : List Place) (out : Option Place)
    (hr : s.guide.ok → t.guide.places.length < 2048 ∨ ∃ p ∈ old.toList ++ hit ++ out.toList, p ∈ t.guide.places)
    (ha : s.guide.ok → ∀ p ∈ t.guide.places, p.ev.sid = e.sid → (p.ev.eid = e.eid ∨ p.ev.overlaps e = true) →
      ∃ q ∈ old.toList ++ hit ++ out.toList, q.num = p.num)
    (h : Runs s t) : Runs s (putEvent e old hit out t) := by
  unfold Machine.putEvent
  refine Runs.flow (h.modGuide _ fun hs0 => ?_)
    (Flow.touched _ (Flow.forEach (fun a _ u hu => hu.reportRemoval a) (Flow.refl none _)))
  have hg := h.keeps.guide hs0
  have hp := foldl_remove_places (old.toList ++ hit ++ out.toList) t.guide
  have hk := foldl_remove_ok (old.toList ++ hit ++ out.toList) hg
  have hlt : ((old.toList ++ hit ++ out.toList).foldl (fun g p => Guide.remove p.num g) t.guide).places.length
      < 2048 := by
    rw [hp]
    rcases hr hs0 with hr | ⟨p, hp1, hp2⟩
    · exact lt_of_le_of_lt (List.length_filter_le _ _) hr
    · have hle : t.guide.places.length ≤ 2048 := by
        have hs := hg.1
        have : (t.guide.places.map (·.num)).Nodup := by
          refine List.pairwise_map.2 (List.Pairwise.imp (fun h => ?_) hs)
          exact Nat.ne_of_lt h
        have h2 := List.Nodup.subperm this (l₂ := List.range 2048) fun x hx => by
          obtain ⟨q, hq, rfl⟩ := List.mem_map.1 hx
          exact List.mem_range.2 (hg.2.1 q hq)
        simpa using h2.length_le
      refine lt_of_lt_of_le (List.length_filter_lt_length_iff_exists.2 ⟨p, hp2, ?_⟩) hle
      simp only [Bool.not_eq_eq_eq_not, Bool.not_true, Bool.not_eq_false]
      exact List.any_eq_true.2 ⟨p, hp1, by simp⟩
  have hf := lowestFree_spec 0 hk.1 (fun _ _ => Nat.zero_le _)
  refine Guide.ok_of (g := Guide.write (lowestFree 0 _) e _) rfl rfl
    (Guide.ok_write (by omega) hf.2.2 (fun p hpm hsid => ?_) hk)
  rw [hp] at hpm
  obtain ⟨hpm, hno⟩ := List.mem_filter.1 hpm
  have hno' : ∀ q ∈ old.toList ++ hit ++ out.toList, q.num ≠ p.num := by
    simpa only [Bool.not_eq_eq_eq_not, Bool.not_true, List.any_eq_false, beq_iff_eq] using hno
  constructor
  · intro he
    obtain ⟨q, hq, e1⟩ := ha hs0 p hpm hsid (.inl he)
    exact hno' q hq e1
  · by_contra ho
    obtain ⟨q, hq, e1⟩ := ha hs0 p hpm hsid (.inr (by simpa using ho))
    exact hno' q hq e1

theorem mem_sortBy {α : Type} {m : α → Nat} {a : α} {l : List α} : a ∈ sortBy m l ↔ a ∈ l := by
  have : ∀ (l acc : List α), a ∈ l.foldl (fun acc a => insertBy m a acc) acc ↔ a ∈ acc ∨ a ∈ l := by
    intro l
    induction l with
    | nil => simp
    | cons b l ih => intro acc; simp only [List.foldl_cons, ih, mem_insertBy, List.mem_cons]; tauto
  unfold sortBy
  simpa using this l []

theorem latest_mem {g : Guide} {p : Place} (h : g.latest = some p) : p ∈ g.places := by
  have : ∀ (l : List Place) (best : Option Place) (p : Place),
      l.foldl (fun best p => match best with
        | none => some p
        | some b => if b.ev.start ≤ p.ev.start then some p else some b) best = some p →
      best = some p ∨ p ∈ l := by
    intro l
    induction l with
    | nil => intro best p h; exact .inl h
    | cons q l ih =>
      intro best p h
      rcases ih _ p h with h | h
      · cases best with
        | none => simp only [Option.some.injEq] at h; subst h; exact .inr (by simp)
        | some b =>
          simp only at h
          split at h
          · simp only [Option.some.injEq] at h; subst h; exact .inr (by simp)
          · exact .inl h
      · exact .inr (List.mem_cons_of_mem _ h)
  rcases this _ _ _ h with h | h
  · cases h
  · exact h

theorem Runs.placeEvent (e : GuideEvent) (old : Option Place)
    (ho : ∀ o ∈ old, o ∈ t.guide.places)
    (hu : s.guide.ok → ∀ p ∈ t.guide.places, p.ev.sid = e.sid → p.ev.eid = e.eid → ∃ o ∈ old, o.num = p.num)
    (h : Runs s t) : Runs s (placeEvent e old t).2 := by
  unfold Machine.placeEvent
  dsimp only
  have hhit : ∀ p ∈ t.guide.places, p.ev.sid = e.sid → p.ev.overlaps e = true →
      ∃ q ∈ old.toList ++ (t.guide.ofService e.sid).filter (fun p =>
        p.ev.overlaps e && !(old.any fun o => o.num == p.num)), q.num = p.num := by
    intro p hp hs hov
    by_cases hold : old.any (fun o => o.num == p.num) = true
    · obtain ⟨o, ho1, ho2⟩ : ∃ o, o ∈ old ∧ o.num = p.num := by
        cases old with
        | none => simp at hold
        | some o => exact ⟨o, rfl, by simpa using hold⟩
      exact ⟨o, List.mem_append_left _ (Option.mem_toList.2 ho1), ho2⟩
    · refine ⟨p, List.mem_append_right _ (List.mem_filter.2 ⟨mem_sortBy.2 (List.mem_filter.2 ⟨hp, by simpa using hs⟩),
        ?_⟩), rfl⟩
      simp only [Bool.not_eq_true] at hold
      simp [hov, hold]
  split
  · rename_i hc
    refine h.putEvent _ _ _ _ (fun hg => ?_) (fun hg p hp hs hc => ?_)
    · simp only [Bool.or_eq_true, Bool.not_eq_eq_eq_not, Bool.not_true, decide_eq_true_eq] at hc
      rcases hc with (hc | hc) | hc
      · obtain ⟨o, ho'⟩ := Option.isSome_iff_exists.1 hc
        exact .inr ⟨o, by simp [ho'], ho o ho'⟩
      · obtain ⟨q, hq⟩ := List.isEmpty_eq_false_iff_exists_mem.1 hc
        refine .inr ⟨q, by simp only [List.mem_append]; exact .inl (.inr hq), ?_⟩
        exact (List.mem_filter.1 (mem_sortBy.1 (List.mem_filter.1 hq).1)).1
      · exact .inl hc
    · rcases hc with hc | hc
      · obtain ⟨o, ho1, ho2⟩ := hu hg p hp hs hc
        exact ⟨o, by simp [Option.mem_def.1 ho1], ho2⟩
      · obtain ⟨q, hq, e1⟩ := hhit p hp hs hc
        exact ⟨q, List.mem_append_left _ hq, e1⟩
  · rename_i hc
    simp only [Bool.or_eq_true, Bool.not_eq_eq_eq_not, Bool.not_true, decide_eq_true_eq, not_or,
      Bool.not_eq_true, Bool.not_eq_false] at hc
    obtain ⟨⟨hold, hempty⟩, -⟩ := hc
    have hold : old = none := by simpa using hold
    subst hold
    split
    · rename_i p hp
      split
      · have hempty' := List.isEmpty_iff.1 hempty
        refine h.putEvent _ _ _ _ (fun _ => .inr ⟨p, by simp, latest_mem hp⟩) (fun hg q hq hs hc => ?_)
        rcases hc with hc | hc
        · obtain ⟨o, ho1, -⟩ := hu hg q hq hs hc
          cases ho1
        · obtain ⟨x, hx, -⟩ := hhit q hq hs hc
          rw [hempty'] at hx
          simp at hx
      · dsimp only; exact h.guideCounters _
    · dsimp only; exact h.guideCounters _

@[simp] theorem State.raise_guide (x : NoticeKind) (sub : Option Nat) (b : List Byte) (s : State) :
    (s.raise x sub b).guide = s.guide := by
  unfold State.raise; split <;> rfl

@[simp] theorem State.setFault_guide (n : FaultName) (f : Faults → Faults) (s : State) :
    (s.setFault n f).guide = s.guide := by simp [State.setFault]

/-- What a read of an occupied place leaves: the places, if the read gave contents, else fewer, that one not
among them. -/
theorem readPlace_some {n : Nat} {e : GuideEvent} (h : (readPlace n t).1 = some e) :
    (readPlace n t).2.guide.places = t.guide.places := by
  revert h
  unfold readPlace readBound
  split
  · intro h; cases h
  · split
    · intro _; rfl
    · intro _
      unfold noteCorrected State.countCorrected State.guideSecond
      dsimp only
      split <;> simp
    · intro h; cases h

theorem readPlace_none {n : Nat} (h : (readPlace n t).1 = none) :
    ∀ q ∈ (readPlace n t).2.guide.places, q.num ≠ n := by
  unfold readPlace readBound at h ⊢
  split
  · rename_i hp
    intro q hq e
    exact absurd (List.find?_eq_none.1 hp q hq) (by simpa using e)
  · rename_i p hp
    rw [hp] at h
    simp only at h ⊢
    split
    · rename_i hc; rw [hc] at h; cases h
    · rename_i hc; rw [hc] at h; cases h
    · intro q hq
      have hf : Flow none (t.modGuide fun g => { Guide.remove p.num g with
            counters := { g.counters with damaged := g.counters.damaged + 1 }
            lastDamaged := some (p.ev.sid, p.ev.eid) })
          (damageWith (readBound t.guide.places.length) p t) :=
        Flow.guideNotice _ (Flow.guideLost _ (Flow.reportRemovalWith (readBound_flows none _) _
          (Flow.refl none _)))
      have := (List.mem_filter.1 (hf.sheds.subset hq)).2
      have hn := (keyFind_some hp).2
      simp only [bne_iff_ne] at this
      omega

theorem placeOf_spec {g : Guide} {sid eid : Nat} {p : Place} (h : g.placeOf sid eid = some p) :
    p ∈ g.places ∧ p.ev.sid = sid ∧ p.ev.eid = eid := by
  have := List.find?_some h
  simp only [Bool.and_eq_true, beq_iff_eq] at this
  exact ⟨List.mem_of_find?_eq_some h, this.1, this.2⟩

/-- In a store as the rules have it one place at most holds an event of a service. -/
theorem Guide.ok_unique {g : Guide} (h : g.ok) {p q : Place} (hp : p ∈ g.places) (hq : q ∈ g.places)
    (h1 : p.ev.sid = q.ev.sid) (h2 : p.ev.eid = q.ev.eid) : p = q := by
  by_contra hne
  have : Std.Symm fun p q : Place => p.ev.apart q.ev := ⟨fun _ _ => GuideEvent.apart_symm⟩
  have := h.2.2.1.forall hp hq hne
  exact (this h1).1 h2

theorem Runs.takeGuide (e : GuideEvent) (h : Runs s t) : Runs s (takeGuide e t).2 := by
  refine h.trans ?_
  unfold Machine.takeGuide
  split
  · dsimp only; exact (Runs.refl t).guideCounters _
  · split
    · rename_i hp
      refine (Runs.refl t).placeEvent e none (by simp) fun _ p hpm h1 h2 => ?_
      exact absurd (List.find?_eq_none.1 hp p hpm) (by simp [h1, h2])
    · rename_i p hp
      obtain ⟨hpm, hp1, hp2⟩ := placeOf_spec hp
      have hf := (Runs.refl t).flow ((Flow.refl none t).readPlace p.num)
      have hs := ((Flow.refl none t).readPlace p.num).sheds
      split
      · rename_i u he
        have hn := readPlace_none (congrArg Prod.fst he)
        rw [he] at hf hn hs
        dsimp only at hf hn hs
        refine hf.placeEvent e none (by simp) fun hg q hqm h1 h2 => ?_
        have := Guide.ok_unique hg (hs.subset hqm) hpm (h1.trans hp1.symm) (h2.trans hp2.symm)
        exact absurd (congrArg Place.num this) (hn q hqm)
      · rename_i old u he
        have hn := readPlace_some (congrArg Prod.fst he)
        rw [he] at hf hn
        dsimp only at hf hn
        split
        · dsimp only; exact hf.guideCounters _
        · refine hf.placeEvent e (some p) (by simpa [hn] using hpm) fun hg q hqm h1 h2 => ?_
          have hqm' : q ∈ t.guide.places := by simpa [hn] using hqm
          have := Guide.ok_unique hg hqm' hpm (h1.trans hp1.symm) (h2.trans hp2.symm)
          exact ⟨p, rfl, congrArg Place.num this.symm⟩

theorem Runs.takeEventRecord (e : GuideEvent) (h : Runs s t) : Runs s (takeEventRecord e t).2 := by
  unfold Machine.takeEventRecord
  have hg := h.takeGuide e
  split
  · rename_i he
    rw [he] at hg
    dsimp only at hg ⊢
    exact Runs.acts hg (Acts.forEach (fun n _ _ hu => hu.retimeEntry e n) (Acts.refl _))
  · exact hg

/-! ### Removing and reading (R108, R109, R113, R116) -/

theorem Runs.removed (e : GuideEvent) (n : Nat) (f : Guide → Guide)
    (hp : (f t.guide).places = (Guide.remove n t.guide).places)
    (hs : (f t.guide).scrub = (Guide.remove n t.guide).scrub) (h : Runs s t) :
    Runs s (reportRemoval e (t.modGuide f)) :=
  (h.modGuide f fun hg => Guide.ok_of hp hs (Guide.ok_remove n (h.keeps.guide hg))).flow
    ((Flow.refl none _).reportRemoval e)

theorem Runs.cancelEvent (sid eid : Nat) (h : Runs s t) : Runs s (cancelEvent sid eid t).2 := by
  unfold Machine.cancelEvent
  split
  · exact h
  · rename_i p _
    exact h.removed _ p.num _ rfl rfl

theorem Runs.takeCancel (sid eid : Nat) (h : Runs s t) : Runs s (takeCancel sid eid t) := by
  unfold Machine.takeCancel
  have hc := h.cancelEvent sid eid
  split
  · rename_i he; rw [he] at hc; exact hc
  · rename_i he; rw [he] at hc; exact hc.guideCounters _

theorem Runs.damageWith {read : Reader} (hr : ReaderFlows none read) (p : Place) (h : Runs s t) :
    Runs s (damageWith read p t) := by
  unfold Machine.damageWith
  dsimp only
  refine Runs.flow (h.modGuide _ fun hg => ?_)
    (Flow.guideNotice _ (Flow.guideLost _ (Flow.reportRemovalWith hr _ (Flow.refl none _))))
  exact Guide.ok_of (g := Guide.remove p.num t.guide) rfl rfl (Guide.ok_remove p.num (h.keeps.guide hg))

theorem Runs.prunePlace (p : Place) (h : Runs s t) : Runs s (prunePlace p t) := by
  unfold Machine.prunePlace
  dsimp only
  split
  · exact h.removed _ p.num _ rfl rfl
  · refine Runs.removed _ p.num _ rfl rfl ?_
    split
    · exact h.flow (((Flow.refl none t).countCorrected).guideSecond _)
    · exact h.flow ((Flow.refl none t).countCorrected)
  · exact h.damageWith (readPlace_flows none) p

theorem Runs.prune (h : Runs s t) : Runs s (prune t) := h.forEach fun p _ _ hu => hu.prunePlace p

theorem Runs.readPlace (n : Nat) (h : Runs s t) : Runs s (readPlace n t).2 :=
  h.flow ((Flow.refl none t).readPlace n)

theorem Runs.patrol (h : Runs s t) : Runs s (patrol t) := by
  unfold Machine.patrol
  exact (h.readPlace _).flow (Flow.guideAside _ (Guide.ok_of rfl rfl) rfl (Flow.refl none _))

theorem Runs.scrubTimeout (h : Runs s t) : Runs s (scrubTimeout t) :=
  h.modGuide _ fun hg => Guide.ok_scrubDone (h.keeps.guide hg)

end Sys2Proof.Machine
end

