-- ==== Sys2Proof/Laws/Work.lean ====
section
/-! SUPPORT. What the parental unit, the access unit and the clock can do: each operation is a `Runs`
(chapters 4, 6 and 9), so it keeps the forms and ranges of the rules. -/

namespace Sys2Proof.Machine

open Sys2Proof

variable {s t : State}

/-! ### The parental unit (chapter 6) -/

theorem Runs.pinCheck (p : Fin 8) (pin : Pin) (h : Runs s t) : Runs s (pinCheck p pin t).2 := by
  unfold Machine.pinCheck
  dsimp only
  split
  · exact h
  · split
    · dsimp only
      split
      · exact (h.modProfile p _ (fun o => { o with failures := Nat.zero_le _ }) fun _ => id).handProfile p
      · exact h
    · split
      · rename_i hf
        exact (h.modProfile p (fun r => { r with failures := r.failures + 1 })
          (fun o => { o with failures := hf }) fun _ => id).handProfile p
      · exact ((h.modProfile p _ (fun o => { o with failures := Nat.zero_le _, lockout := le_refl _ })
          fun _ => id).handProfile p).raise _ _ _

theorem Runs.reportConditions (told : List (Source × List (Fin 3))) (h : Runs s t) :
    Runs s (reportConditions told t) :=
  h.flow ((Flow.refl none t).reportConditions told)

theorem Runs.setRemaining (hand : Bool) (p : Fin 8) {new : Nat} (hn : (t.profile p).ok → new ≤ 86400)
    (h : Runs s t) : Runs s (setRemaining hand p new t) := by
  unfold Machine.setRemaining
  dsimp only
  have h1 := (h.modProfile p (fun r => { r with remaining := new })
    (fun o => { o with remaining := hn o }) fun _ => id).markDirty p
  split
  · split
    · exact h.handProfile p
    · exact h
  · split
    · exact Runs.raise _ _ _ (h1.handProfile p)
    · split
      · exact h1.handProfile p
      · split
        · exact Runs.raise _ _ _ (h1.handProfile p)
        · split
          · exact h1.handProfile p
          · exact h1

theorem Runs.changeRemaining (hand : Bool) (p : Fin 8) {new : Nat} (hn : (t.profile p).ok → new ≤ 86400)
    (h : Runs s t) : Runs s (changeRemaining hand p new t) := by
  unfold Machine.changeRemaining
  dsimp only
  split
  · exact h.setRemaining hand p hn
  · exact (h.setRemaining hand p hn).reportConditions _

theorem Runs.countAllowances (h : Runs s t) : Runs s (countAllowances t) :=
  h.forEach fun _ _ _ hu => hu.setRemaining _ _ fun o => (Nat.sub_le _ _).trans o.remaining

theorem Runs.countAllowance (p : Fin 8) (h : Runs s t) : Runs s (countAllowance p t) := by
  unfold Machine.countAllowance
  split
  · exact h.changeRemaining _ _ fun o => (Nat.sub_le _ _).trans o.remaining
  · exact h

theorem Runs.allowanceOut (p : Fin 8) (h : Runs s t) : Runs s (allowanceOut p t) := by
  unfold Machine.allowanceOut
  split
  · exact h.countAllowance p
  · exact h

theorem Runs.resetAllowance (p : Fin 8) (h : Runs s t) : Runs s (resetAllowance p t) := by
  unfold Machine.resetAllowance
  split
  · rename_i a _ ha
    split
    · exact h
    · exact h.setRemaining _ _ fun o => o.allowance a ha
  · exact h

theorem Runs.household (f : Household → Household) (h : Runs s t) :
    Runs s (t.modParental fun q => { q with household := f q.household }) :=
  h.modParental _ (Parental.ok_of rfl)

theorem Runs.recordDay (d : Int) (h : Runs s t) : Runs s (recordDay d t) :=
  (h.household fun x => { x with day := some d }).handHousehold

theorem Runs.turnDay (h : Runs s t) : Runs s (turnDay t) := by
  unfold Machine.turnDay
  split
  · exact Runs.recordDay _ (h.forEach fun p _ _ hu => hu.resetAllowance p)
  · split
    · exact h.recordDay _
    · exact h

theorem Runs.compareDay (h : Runs s t) : Runs s (compareDay t) := by
  unfold Machine.compareDay
  split
  · exact h.turnDay.reportConditions _
  · exact h.turnDay

theorem Runs.timeConditions (h : Runs s t) : Runs s (timeConditions t) := h.turnDay.reportConditions _

theorem Runs.countLockout (p : Fin 8) (h : Runs s t) : Runs s (countLockout p t) := by
  unfold Machine.countLockout
  dsimp only
  split
  · exact h
  · have h1 := (h.modProfile p (fun r => { r with lockout := r.lockout - 1 })
      (fun o => { o with lockout := (Nat.sub_le _ _).trans o.lockout }) fun _ => id).markDirty p
    split
    · exact h1.handProfile p
    · exact h1

theorem Runs.lockoutEnd (p : Fin 8) (h : Runs s t) : Runs s (lockoutEnd p t) := by
  unfold Machine.lockoutEnd
  split
  · exact h.countLockout p
  · exact h

theorem Runs.endUnlock (v : Fin 3) (h : Runs s t) : Runs s (endUnlock v t) := h.acts ((Acts.refl t).endUnlock v)

theorem Runs.unlockEnd (v : Fin 3) (h : Runs s t) : Runs s (unlockEnd v t) := by
  unfold Machine.unlockEnd
  split
  · exact h.endUnlock v
  · exact h

theorem Runs.setUnlock (v : Fin 3) (sid m : Nat) (h : Runs s t) : Runs s (setUnlock v sid m t) :=
  (h.modParental _ (Parental.ok_of rfl)).flow (Flow.gateReport _ (Flow.refl none _))

theorem Runs.endUnlocks (vs : List (Fin 3)) (h : Runs s t) : Runs s (endUnlocks vs t) :=
  (h.modParental _ (Parental.ok_of rfl)).flow (Flow.gateReport _ (Flow.refl none _))

theorem Runs.countUnlocks (h : Runs s t) : Runs s (countUnlocks t) :=
  (h.modParental _ (Parental.ok_of rfl)).endUnlocks _

theorem Runs.assignProfiles (f : Fin 3 → Fin 8) (vs : List (Fin 3)) (h : Runs s t) :
    Runs s (assignProfiles f vs t) := Runs.forEach (fun _ _ _ hu => hu.modSlot _ _) h

theorem Runs.takeProfiles (f : Fin 3 → Fin 8) (vs : List (Fin 3)) (h : Runs s t) :
    Runs s (takeProfiles f vs t) := (h.assignProfiles f vs).reportConditions _

theorem Runs.writeDirtyProfiles (h : Runs s t) : Runs s (writeDirtyProfiles t) := by
  refine h.forEach fun p _ u hu => ?_
  split
  · exact hu.handProfile p
  · exact hu

theorem Runs.grantAllowance (p : Fin 8) (n : Nat) (h : Runs s t) : Runs s (grantAllowance p n t) := by
  unfold Machine.grantAllowance
  dsimp only
  split
  · exact h
  · exact h.changeRemaining _ _ fun _ => Nat.min_le_left _ _

theorem Runs.setHousehold (hour : Nat) (d : Vector (Fin 8) 3) (h : Runs s t) :
    Runs s (setHousehold hour d t) := by
  unfold Machine.setHousehold
  dsimp only
  have h1 := (h.household fun x => { x with dayStart := hour, defaults := d }).handHousehold
  split <;> [exact (h1.assignProfiles _ _).turnDay.reportConditions _; exact h1.takeProfiles _ _]

/-! ### The access unit (chapter 4) -/

theorem Runs.withdraw (b : Basis) (h : Runs s t) : Runs s (withdraw b t) :=
  h.flow ((Flow.refl none t).withdraw b)

theorem Runs.accessNotice (c : AccessCause) (h : Runs s t) : Runs s (t.accessNotice c) := h.raise _ _ _

theorem Runs.expireTiers (h : Runs s t) : Runs s (expireTiers t) := by
  unfold Machine.expireTiers
  split
  · exact h
  · dsimp only
    split
    · exact h
    · exact Runs.accessNotice _ (Runs.handTiers (Runs.forEach (fun x _ _ hu => hu.withdraw _)
        (h.modAccess _ id)))

theorem Runs.expireGrants (h : Runs s t) : Runs s (expireGrants t) := by
  unfold Machine.expireGrants
  split
  · exact h
  · dsimp only
    split
    · exact h
    · exact Runs.accessNotice _ (Runs.handGrants (Runs.forEach (fun x _ _ hu => hu.withdraw _)
        (h.modAccess _ id)))

theorem Runs.clearSpend (p : Fin 8) (h : Runs s t) : Runs s (clearSpend p t) := by
  unfold Machine.clearSpend
  split
  · exact h
  · exact (h.modProfile p _ (fun o => { o with spend := Nat.zero_le _ }) fun _ => id).handProfile p

theorem Runs.periodStart (i : Option Int) (h : Runs s t) :
    Runs s (t.modPurse fun p => { p with periodStart := i }) := h.modPurse _ fun o => { o with }

theorem Runs.rollover (h : Runs s t) : Runs s (rollover t) := by
  unfold Machine.rollover
  split
  · exact h
  · dsimp only
    split
    · exact (Runs.periodStart _ (h.forEach fun p _ _ hu => hu.clearSpend p)).handAccess
    · exact h

/-- The fields of an entitlement kind in their ranges (R77). -/
def EntKind.ok : EntKind → Prop
  | .limitSet n => n ≤ 65535
  | .termsSet g _ p _ => g ≤ 60 ∧ 1 ≤ p ∧ p ≤ 31
  | _ => True

theorem Purse.ok_credit (n : Nat) {p : Purse} (h : p.ok) : (p.credit n).ok := by
  obtain ⟨h1, h2, h3, h4, h5⟩ := h
  unfold Purse.credit
  dsimp only
  split
  · exact ⟨by dsimp only; omega, le_refl _, h3, h4, h5⟩
  · exact ⟨by dsimp only; omega, by dsimp only; omega, h3, h4, h5⟩

theorem Purse.ok_setLimit {n : Nat} (hn : n ≤ 65535) {p : Purse} (h : p.ok) : (p.setLimit n).ok := by
  obtain ⟨h1, h2, h3, h4, h5⟩ := h
  exact ⟨by unfold Purse.setLimit; dsimp only; omega, h2, by unfold Purse.setLimit; dsimp only; omega, h4, h5⟩

theorem Purse.ok_charged {c : Nat} {p : Purse} (hc : creditShort p c = false) (h : p.ok) :
    (p.charged c).ok := by
  obtain ⟨h1, h2, h3, h4, h5⟩ := h
  unfold creditShort at hc
  simp only [decide_eq_false_iff_not, not_lt] at hc
  exact ⟨hc, by unfold Purse.charged; dsimp only; omega, h3, h4, h5⟩

theorem Runs.applyTerms {g f p a : Nat} (hk : (EntKind.termsSet g f p a).ok) (h : Runs s t) :
    Runs s (applyTerms g f p a t) := by
  unfold Machine.applyTerms
  have h1 := h.modPurse (Purse.setTerms g f p a) fun o => { o with grace := hk.1, period := hk.2 }
  dsimp only
  split
  · exact h1
  · refine Runs.periodStart _ ?_
    split
    · exact h1.forEach fun p _ _ hu => hu.clearSpend p
    · exact h1

theorem Runs.applyKind {e : EntKind} (hk : e.ok) (h : Runs s t) : Runs s (applyKind e t) := by
  unfold Machine.applyKind
  split
  · exact (h.modAccess _ id).handTiers.flow (Flow.refl none _).reexamine
  · dsimp only
    split
    · exact Runs.withdraw _ (h.modAccess _ id).handTiers
    · exact (h.modAccess _ id).handTiers
  · exact h.modPurse _ (Purse.ok_credit _)
  · exact h.modPurse _ (Purse.ok_setLimit hk)
  · exact h.applyTerms hk
  · exact h.modAccess _ fun o => { o with }

theorem Runs.applyEntitlement (issue : Nat) {e : EntKind} (hk : e.ok) (h : Runs s t) :
    Runs s (applyEntitlement issue e t) :=
  Runs.accessNotice _ (Runs.handAccess (Runs.applyKind hk
    ((h.modPurse _ fun o => { o with }).modAccessCounters _)))

theorem beNat_lt (l : List Byte) : beNat l < 256 ^ l.length := by
  have : ∀ (l : List Byte) (n : Nat), l.foldl (fun n b => 256 * n + b.toNat) n < (n + 1) * 256 ^ l.length := by
    intro l
    induction l with
    | nil => intro n; simp
    | cons b l ih =>
      intro n
      have hb := b.isLt
      refine lt_of_lt_of_le (ih _) ?_
      rw [List.length_cons, pow_succ']
      have : 256 * n + b.toNat + 1 ≤ (n + 1) * 256 := by omega
      calc _ ≤ ((n + 1) * 256) * 256 ^ l.length := Nat.mul_le_mul_right _ this
        _ = _ := by ring
  have := this l 0
  rw [zero_add, one_mul] at this
  exact this

theorem natAt_lt (off w : Nat) (l : List Byte) : natAt off w l < 256 ^ w := by
  refine lt_of_lt_of_le (beNat_lt _) (Nat.pow_le_pow_right (by decide) ?_)
  simp [bytesAt]

theorem entKindOf_ok {n : Nat} {l : List Byte} {e : EntKind} (h : entKindOf n l = some e) : e.ok := by
  unfold entKindOf at h
  split at h
  · split at h
    · cases h; trivial
    · cases h
  · obtain ⟨_, -, rfl⟩ := Option.map_eq_some_iff.1 h
    trivial
  · split at h
    · cases h
    · cases h; trivial
  · cases h
    have := natAt_lt 0 2 l
    unfold EntKind.ok
    omega
  · split at h
    · rename_i hc; cases h; exact hc
    · cases h
  · cases h; trivial
  · cases h

theorem Runs.takeEntitlement {r : EntRecord} (hr : ∀ e ∈ r.kind, e.ok) (h : Runs s t) :
    Runs s (takeEntitlement r t) := by
  unfold Machine.takeEntitlement
  split
  · exact h.modAccessCounters _
  · split
    · exact h.setFault _ _
    · rename_i e he
      split
      · exact h.modAccessCounters _
      · split
        · exact h.modAccessCounters _
        · split
          · exact h.modAccessCounters _
          · exact h.applyEntitlement _ (hr e he)

theorem entRecordOf_ok (r : List Byte) : ∀ e ∈ (entRecordOf r).kind, e.ok := by
  intro e he
  unfold entRecordOf at he
  dsimp only at he
  split at he
  · exact entKindOf_ok he
  · cases he

theorem Runs.commitBuy (p : Fin 8) (slot : Option (Fin 5)) (e : GuideEvent) {c : Nat} (now : Nat)
    (hc : creditShort t.access.purse c = false) (h : Runs s t) : Runs s (commitBuy p slot e c now t).2 := by
  unfold Machine.commitBuy
  dsimp only
  refine Runs.accessNotice _ (Runs.flow ?_ (Flow.rebase _ (Flow.reexamine (Flow.refl none _))))
  refine Runs.handOver _ _ (fun x => ⟨x.purse, (x.parental.profiles p).spend⟩) ?_
  exact (h.modAccess _ (Purse.ok_charged hc)).modProfile p _
    (fun o => { o with spend := Nat.min_le_left _ _ }) fun _ => id

theorem buyJudge_ok {p : Fin 8} {e : GuideEvent} {c : Nat} (h1 : (t.buyJudge p e).status = .ok)
    (h2 : (t.buyJudge p e).charge = some c) : creditShort t.access.purse c = false := by
  revert h1 h2
  unfold State.buyJudge
  split
  · split
    · intro h; cases h
    · split
      · intro h; cases h
      · dsimp only
        intro h1 h2
        cases h2
        unfold State.buyRoom at h1
        split at h1
        · cases h1
        · split at h1
          · cases h1
          · split at h1
            · cases h1
            · split at h1
              · cases h1
              · split at h1
                · cases h1
                · exact Bool.eq_false_of_not_eq_true ‹¬ creditShort _ _ = true›
  · intro h; cases h

theorem Runs.buyEvent (p : Fin 8) (slot : Option (Fin 5)) (sid eid : Nat) (h : Runs s t) :
    Runs s (buyEvent p slot sid eid t).2 := by
  unfold Machine.buyEvent
  have hf := h.flow ((Flow.refl none t).readNamed sid eid)
  split
  · rename_i he; rw [he] at hf; exact hf
  · rename_i e u he
    rw [he] at hf
    dsimp only at hf ⊢
    split
    · rename_i h1 h2 h3
      exact hf.commitBuy _ _ _ _ (buyJudge_ok h1 h2)
    · exact hf

theorem Runs.buyReq (a : Byte) (pin : Pin) (b : Byte) (sid : Half) (eid : Word) (h : Runs s t) :
    Runs s (buyReq a pin b sid eid t).2 := by
  unfold Machine.buyReq
  split
  · split
    · exact h
    · unfold buyChecked
      split
      · exact h
      · split
        · have hp := h.pinCheck ‹_› pin
          split
          · rename_i he; rw [he] at hp; exact hp
          · rename_i he; rw [he] at hp; exact hp.buyEvent _ _ _ _
        · exact h.buyEvent _ _ _ _
  · exact h

theorem Flow.quoteReq {k : Option (Fin 5)} (a : Byte) (sid : Half) (eid : Word) (h : Flow k s t) :
    Flow k s (quoteReq a sid eid t).2 := by
  unfold Machine.quoteReq
  split
  · split
    · exact h
    · dsimp only
      unfold quoteVerdict
      split
      · exact h
      · have hf := h.readNamed sid.toNat eid.toNat
        split
        · rename_i he; rw [he] at hf; exact hf
        · rename_i he; rw [he] at hf; exact hf
  · exact h

/-! ### The clock and the boundaries (chapter 9) -/

theorem Runs.clockNotice (c : ClockCause) (h : Runs s t) : Runs s (t.clockNotice c) := h.raise _ _ _

theorem Runs.determine (j : Fin 5) (h : Runs s t) : Runs s (determine j t) :=
  h.flow ((Flow.refl none t).determine j)

theorem Runs.determineAll (h : Runs s t) : Runs s (determineAll t) := by
  refine h.forEach fun j _ u hu => ?_
  split
  · exact hu
  · exact hu.determine j

theorem Runs.turnEvents (h : Runs s t) : Runs s (turnEvents t) := by
  refine h.forEach fun j _ u hu => ?_
  split
  · exact hu.determine j
  · exact hu

theorem Runs.endPreview (j : Fin 5) (h : Runs s t) : Runs s (endPreview j t) :=
  h.flow ((Flow.refl none t).endPreview j)

theorem Runs.accessBoundary (h : Runs s t) : Runs s (accessBoundary t) :=
  h.expireTiers.expireGrants.rollover.forEach fun j _ _ hu => hu.endPreview j

theorem Runs.uptimeCounts (h : Runs s t) : Runs s (uptimeCounts t) :=
  Runs.countUnlocks (h.forEach fun p _ _ hu => hu.countLockout p)

theorem Runs.parentalBoundary (h : Runs s t) : Runs s (parentalBoundary t) :=
  h.countAllowances.uptimeCounts.timeConditions

theorem Runs.checkEnds (h : Runs s t) : Runs s (checkEnds t) := h.acts (Acts.refl t).checkEnds

theorem Runs.scheduleBoundary (h : Runs s t) : Runs s (scheduleBoundary t) :=
  h.acts (Acts.refl t).scheduleBoundary

theorem Runs.boundaryWork (h : Runs s t) : Runs s (boundaryWork t) :=
  h.prune.turnEvents.accessBoundary.parentalBoundary.scheduleBoundary

theorem Runs.uptimeWork (h : Runs s t) : Runs s (uptimeWork t) := h.uptimeCounts.checkEnds

theorem Runs.forwardWork (h : Runs s t) : Runs s (forwardWork t) :=
  h.prune.determineAll.accessBoundary.timeConditions.scheduleBoundary

theorem Runs.backwardWork (h : Runs s t) : Runs s (backwardWork t) :=
  h.determineAll.timeConditions.scheduleBoundary

theorem Runs.secondWork (h : Runs s t) : Runs s (secondWork t) := by
  unfold Machine.secondWork
  have h1 := h.modClock Clock.advance fun o => ⟨Nat.min_le_left _ _, o.offset⟩
  dsimp only
  have h2 : ∀ u, Runs s u → Runs s (if u.uptimeS % 60 = 0 then Machine.writeDirtyProfiles u else u) := by
    intro u hu
    split
    · exact hu.writeDirtyProfiles
    · exact hu
  split
  · refine h2 _ ?_
    split
    · exact h1.boundaryWork
    · exact h1.uptimeWork
  · exact h1

theorem Runs.nextSecond (h : Runs s t) : Runs s (nextSecond t) :=
  (h.modClock _ fun o => ⟨o.utc, o.offset⟩).secondWork

theorem Runs.stepClock {n : Nat} (hn : n ≤ 4294967295) (h : Runs s t) : Runs s (stepClock n t) := by
  unfold Machine.stepClock
  dsimp only
  have h1 := fun c => (h.modClock (fun c => { c with utc := n, known := true }) fun o => ⟨hn, o.offset⟩).clockNotice c
  split
  · exact (h1 _).backwardWork
  · exact (h1 _).forwardWork

theorem Runs.takeOffset {off : Int} (ho : -720 ≤ off ∧ off ≤ 840) (h : Runs s t) :
    Runs s (takeOffset off t) := by
  unfold Machine.takeOffset
  split
  · exact h
  · exact Runs.timeConditions (Runs.clockNotice _ (h.modClock _ fun o => ⟨o.utc, ho⟩))

theorem Runs.takeTime {n : Nat} {off : Int} (hn : n ≤ 4294967295) (ho : -720 ≤ off ∧ off ≤ 840)
    (h : Runs s t) : Runs s (takeTime n off t) := by
  unfold Machine.takeTime
  have h1 := Runs.takeOffset ho (h.modClock (fun c => { c with source := .stream }) fun o => ⟨o.utc, o.offset⟩)
  dsimp only
  split
  · exact h1.stepClock hn
  · exact h1

theorem Runs.setTime {n : Nat} {off : Int} (hn : n ≤ 4294967295) (ho : -720 ≤ off ∧ off ≤ 840)
    (h : Runs s t) : Runs s (setTime n off t).2 := by
  unfold Machine.setTime
  have h1 := Runs.takeOffset ho (h.modClock (fun c => { c with source := .link }) fun o => ⟨o.utc, o.offset⟩)
  dsimp only
  split
  · exact h1.stepClock hn
  · exact h1

end Sys2Proof.Machine
end

