-- ==== Sys2Proof/Laws/LaneWork.lean ====
section
/-! SUPPORT. What the events of the lanes, the edits of the carrier table and the service map, cells and their
records can do. Each event of a lane is a `Flow` from the state in which the lane's own counters have
changed. -/

namespace Sys2Proof.Machine

open Sys2Proof

variable {k : Option (Fin 5)} {s t : State}

/-! ### The lane events (R37 to R45) -/

/-- A lane's entry to LOCKED is movement, once the lane itself has entered (R37). -/
theorem laneLocks_flow (l : Fin 3) (s : State) :
    Flow none (s.modLane l (Lane.enterLocked (s.classOf l) s.clock.uptimeMs)) (laneLocks l s) := by
  unfold laneLocks
  dsimp only
  exact ((((((Flow.refl none _).modRouter _ (Router.sorted_installControl l)).laneNotice l _).syncSlots
    _).forEach (fun j _ u hu => hu.slotLockedEvent (by simp))).sweepLocked l).homeRedecide (nobody _)

theorem Runs.laneLocks (l : Fin 3) (h : Runs s t) : Runs s (laneLocks l t) :=
  (h.modLane l _).flow (laneLocks_flow l t)

/-- The lane whose loss is taken: LOCKED on a carrier, else the event is ignored (R37, R43). -/
theorem laneLost_of_not {cause : LossCause} {l : Fin 3} (h : (s.lane l).isLocked = false) :
    laneLost cause l s = s := by
  unfold laneLost
  split
  · rename_i h2; rw [h] at h2; cases h2
  · rfl

theorem Lane.countLoss_state (c : LossCause) (x : Lane) : (x.countLoss c).state = x.state := by
  cases c <;> rfl

@[simp] theorem State.modLane_lane_same (l : Fin 3) (f : Lane → Lane) (s : State) :
    (s.modLane l f).lane l = f (s.lane l) := by simp [State.lane, State.modLane]

/-- The loss of a lane is movement, once its cause is counted (R43). -/
theorem laneLost_flow {cause : LossCause} {l : Fin 3} {c : Nat} (hc : (s.lane l).carrier = some c)
    (hl : (s.lane l).isLocked = true) :
    Flow none (s.modLane l (Lane.countLoss cause)) (laneLost cause l s) := by
  unfold laneLost
  rw [hc, hl]
  dsimp only
  have hs : (s.lane l).state = .locked := by simpa [Lane.isLocked] using hl
  have h1 : Flow none (s.modLane l (Lane.countLoss cause))
      (startSeek l c (s.modLane l (Lane.countLoss cause))) :=
    (Flow.refl none _).startSeek c (by rw [State.modLane_lane_same, Lane.countLoss_state, hs]; decide)
  exact (((h1.forEach fun j _ u hu => hu.slotLaneLost (by simp)).laneNotice l _).releaseIfEmpty
    (nobody _) l).homeRedecide (nobody _)

theorem Runs.laneLost (cause : LossCause) (l : Fin 3) (h : Runs s t) : Runs s (laneLost cause l t) := by
  cases hl : (t.lane l).isLocked with
  | false => rw [laneLost_of_not hl]; exact h
  | true =>
    cases hc : (t.lane l).carrier with
    | none => unfold Machine.laneLost; rw [hc]; exact h
    | some c => exact (h.modLane l _).flow (laneLost_flow hc hl)

/-- A seek failure is movement, once it is counted (R38). -/
theorem seekFails_flow {l : Fin 3} {c : Nat} (hc : (s.lane l).carrier = some c)
    (hl : (s.lane l).state = .seeking) :
    Flow none (s.modLane l fun x => { x with seekFailures := x.seekFailures + 1, seekTimer := none })
      (seekFails l s) := by
  unfold seekFails
  simp only [hc, hl, beq_self_eq_true]
  have h1 := (Flow.refl none (s.modLane l fun x =>
    { x with seekFailures := x.seekFailures + 1, seekTimer := none })).forEach
      (l := (s.modLane l fun x =>
        { x with seekFailures := x.seekFailures + 1, seekTimer := none }).slotUsers l)
      (f := slotSeekFailed) fun j _ u hu => hu.slotSeekFailed (by simp)
  have hoff : ∀ u, Flow none (s.modLane l fun x =>
      { x with seekFailures := x.seekFailures + 1, seekTimer := none }) u → (u.lane l).state ≠ .off := by
    intro u hu e
    have := (hu.off l).1 e
    rw [State.modLane_lane_same] at this
    dsimp only at this
    rw [hl] at this
    cases this
  refine Flow.homeRedecide (nobody _) ?_
  have h2 : ∀ u, Flow none (s.modLane l fun x =>
      { x with seekFailures := x.seekFailures + 1, seekTimer := none }) u →
      Flow none (s.modLane l fun x =>
      { x with seekFailures := x.seekFailures + 1, seekTimer := none })
        (if u.userCount l = 0 then releaseIfEmpty l u else startSeek l c u) := by
    intro u hu
    split
    · exact hu.releaseIfEmpty (nobody _) l
    · exact hu.startSeek c (hoff u hu)
  have h3 : ∀ u e, Flow none (s.modLane l fun x =>
      { x with seekFailures := x.seekFailures + 1, seekTimer := none }) u →
      Flow none (s.modLane l fun x =>
      { x with seekFailures := x.seekFailures + 1, seekTimer := none })
        (if u.homeOn l = true then u.modArb fun a => { a with home := .retry e } else u) := by
    intro u e hu
    split
    · exact hu.arbLess _ (.refl _)
    · exact hu
  split
  · exact (h2 _ (h3 _ _ (h1.modSweep _))).sweepGo
  · exact h2 _ (h3 _ _ h1)

theorem Runs.seekFails (l : Fin 3) (h : Runs s t) : Runs s (seekFails l t) := by
  cases hc : (t.lane l).carrier with
  | none => unfold Machine.seekFails; rw [hc]; exact h
  | some c =>
    by_cases hl : (t.lane l).state = .seeking
    · exact (h.modLane l _).flow (seekFails_flow hc hl)
    · unfold Machine.seekFails
      split
      · rename_i h2; exact absurd (by simpa using h2) hl
      · exact h

theorem Runs.seekTimeout (l : Fin 3) (h : Runs s t) : Runs s (seekTimeout l t) := by
  unfold Machine.seekTimeout
  split
  · exact h.seekFails l
  · exact h

theorem Runs.silenceTimeout (l : Fin 3) (h : Runs s t) : Runs s (silenceTimeout l t) := by
  unfold Machine.silenceTimeout
  split
  · exact (h.laneLost _ l).setFault _ _
  · exact h

theorem Runs.takeSample (e : Nat) (l : Fin 3) (h : Runs s t) : Runs s (takeSample e l t) := by
  unfold Machine.takeSample
  dsimp only
  split
  · exact h.modLane l _
  · have h1 := fun f g ks => ((h.modLane l f).modLane l g).flow (Flow.syncSlots ks (Flow.refl none _))
    split
    · exact (h1 _ _ _).laneLost _ l
    · exact h1 _ _ _

theorem Flow.keyTimeout (j : Fin 5) (h : Flow none s t) : Flow none s (keyTimeout j t) := by
  unfold Machine.keyTimeout
  split
  · exact ((h.faultSlot (by simp)).releaseLeft (nobody _) _).homeRedecide (nobody _)
  · exact h

theorem Flow.sweepTimeout (h : Flow none s t) : Flow none s (sweepTimeout t) := by
  unfold Machine.sweepTimeout
  split
  · exact h.sweepTimer (nobody _)
  · exact h

/-- The rest of a lane's switching off, once the lane is OFF (R45). -/
theorem disableLane_flow (l : Fin 3) (s : State) : ∃ u, Flow none s u ∧
    Flow none (u.modLane l fun x => { x.clear with state := .off, carrier := none }) (disableLane l s) := by
  refine ⟨(displaceAll l s).modRouter (Router.removeControl l),
    (Flow.displaceAll (nobody s) l (Flow.refl none s)).modRouter _ (Router.sorted_removeControl l), ?_⟩
  unfold disableLane
  dsimp only
  refine Flow.homeRedecide (nobody _) (Flow.forEach (fun w _ u hu => ?_)
    (Flow.queuePass (nobody _) (Flow.laneNotice l _ (Flow.emit _ (Flow.refl none _)))))
  split
  · split
    · rename_i v hv
      exact hu.preempt (nobody _) _ (by simp) (by simpa [Lane.enabled] using (victim_spec hv).1)
    · exact hu
  · exact hu

theorem Runs.disableLane (l : Fin 3) (h : Runs s t) : Runs s (disableLane l t) := by
  obtain ⟨u, h1, h2⟩ := disableLane_flow l t
  exact ((h.flow h1).modLane l _).flow h2

/-- The rest of a lane's switching on, once the lane is IDLE (R45). -/
theorem enableLane_flow (l : Fin 3) (s : State) :
    Flow none (s.modLane l fun x => { x with state := .idle }) (enableLane l s) :=
  ((Flow.refl none _).queuePass (nobody _)).homeRedecide (nobody _)

theorem Runs.enableLane (l : Fin 3) (h : Runs s t) : Runs s (enableLane l t) :=
  (h.modLane l _).flow (enableLane_flow l t)

/-! ### Edits of the carrier table (R6, R32, R33) -/

theorem Runs.editLane (old new : Carrier) (h : Runs s t) : Runs s (editLane old new t) := by
  unfold Machine.editLane
  split
  · exact h
  · split
    · exact h
    · rename_i l hl
      split
      · exact h.laneLost _ l
      · refine h.flow ((Flow.refl none t).startSeek _ ?_)
        rcases servingLane_spec hl with e | e <;> rw [e] <;> decide

theorem Flow.editGuide (old : Option Carrier) (new : Carrier) (h : Flow none s t) :
    Flow none s (editGuide old new t) := by
  unfold Machine.editGuide
  split
  · exact h.sweepLost (nobody _) _
  · exact h.sweepFound
  · exact h

/-- The table a carrier entry is written in (R31, R32). -/
theorem putCarrier_runs (new : Carrier) (s : State) :
    Runs (s.modCarriers (withCarrier new)) (putCarrier new s) := by
  unfold putCarrier
  dsimp only
  have hh : ∀ u, Runs (s.modCarriers (withCarrier new)) u →
      Runs (s.modCarriers (withCarrier new))
        (homeRedecide (editGuide (s.carrier? new.index) new u)) := fun u hu =>
    hu.flow (((Flow.refl none u).editGuide _ _).homeRedecide (nobody _))
  refine hh _ ?_
  split
  · exact (Runs.refl _).editLane _ _
  · exact Runs.refl _

/-- The table with an entry emptied (R33). -/
theorem dropCarrier_flow (c : Nat) (s : State) :
    Flow none (s.modCarriers (keyDrop (·.index) c)) (dropCarrier c s).2 := by
  unfold dropCarrier
  dsimp only
  refine Flow.homeRedecide (nobody _) (Flow.releaseLeft (nobody _) _ (Flow.sweepLost (nobody _) _ ?_))
  have h1 := (Flow.refl none (s.modCarriers (keyDrop (·.index) c))).forEach
    (l := (s.modCarriers (keyDrop (·.index) c)).slotsNaming c)
    (f := fun k s => faultSlot .serviceGone k (s.modArb (Arbiter.dequeue (.slot k))))
    fun j _ u hu => (hu.dequeue _).faultSlot (by simp)
  split
  · exact h1.arbLess (fun a => { a.dequeue .home with home := .inactive }) List.filter_sublist
  · exact h1

/-! ### Edits of the service map (R2 to R4) -/

theorem Acts.editComponents (j : Fin 5) (h : Acts s t) : Acts s (editComponents j t) :=
  h.flow ((Flow.refl none t).editComponents j)

theorem Acts.editSlot (old new : Service) (j : Fin 5) (h : Acts s t) : Acts s (editSlot old new j t) := by
  unfold Machine.editSlot
  dsimp only
  have h1 : Acts s (if old.restarts new then Machine.restartOn new j t
      else if old.comps ≠ new.comps then Machine.editComponents j t else t) := by
    split
    · exact h.restartOn _ _
    · split
      · exact h.editComponents j
      · exact h
  split
  · exact h1.flow ((Flow.refl none _).updateRating j)
  · exact h1

/-- A service entry written is what the switch engine does, once the map holds it (R2, R3). -/
theorem putService_acts (new : Service) (s : State) :
    Acts (s.modServices (keyPut (·.sid) new)) (putService new s) := by
  unfold putService
  split
  · exact Acts.refl _
  · exact (Acts.refl _).forEach fun j _ _ hu => hu.editSlot _ _ j

/-- A service entry removed is what the switch engine does, once the map has lost it (R4). -/
theorem dropService_acts (v : Service) (s : State) :
    Acts (s.modServices (keyDrop (·.sid) v.sid)) (dropService v s) :=
  ((Acts.refl _).forEach fun j _ _ hu => hu.sendFree _ j).homeRedecide

/-! ### Cells and records (chapter 3) -/

theorem Runs.outputCell (j : Fin 5) (tag : Nat) (q : BitVec 6) (b : List Byte) (h : Runs s t) :
    Runs s (outputCell j tag q b t) := by
  unfold Machine.outputCell
  split
  · exact (h.modSlot j _).flow (Flow.emit _ (Flow.refl none _))
  · exact h

theorem Runs.enterHeld (r : Reason) (j : Fin 5) (h : Runs s t) : Runs s (enterHeld r j t) :=
  (h.modSlot j _).raise _ _ _

theorem Runs.descrambleCell (l : Fin 3) (c : CellView) (j : Fin 5) (h : Runs s t) :
    Runs s (descrambleCell l c j t) := by
  unfold Machine.descrambleCell
  split
  · exact h.outputCell _ _ _ _
  · split
    · exact h.modRouter _ id
    · split
      · unfold unkeyedCell
        dsimp only
        split
        · exact (h.modSlot j _).enterHeld _ j
        · exact h.modSlot j _
      · exact (h.modSlot j _).outputCell _ _ _ _

theorem Runs.componentCell (l : Fin 3) (c : CellView) (f : Filter) (ks : List (Fin 5)) (h : Runs s t) :
    Runs s (componentCell l c f ks t) := by
  unfold Machine.componentCell
  dsimp only
  refine Runs.forEach (fun j _ u hu => hu.descrambleCell l c j) (Runs.modRouter _ (keySorted_keyPut _) ?_)
  split
  · exact h.forEach fun j _ u hu => hu.modSlot j _
  · exact h

theorem timeOf_ok {r : List Byte} {n : Nat} {off : Int} (h : timeOf r = some (n, off)) :
    n ≤ 4294967295 ∧ -720 ≤ off ∧ off ≤ 840 := by
  unfold timeOf at h
  dsimp only at h
  split at h
  · rename_i hc
    cases h
    have := natAt_lt 2 4 r
    exact ⟨by omega, hc.2⟩
  · cases h

theorem Runs.deliver (l : Fin 3) (r : RecordView) (h : Runs s t) : Runs s (deliver l r t) := by
  unfold Machine.deliver
  split
  · split
    · exact h.flow ((Flow.refl none t).takeKeyRecord l _)
    · exact h.setFault _ _
  · exact h.takeEntitlement (entRecordOf_ok _)
  · split
    · exact h.takeEventRecord _
    · exact h.setFault _ _
  · split
    · exact h.takeCancel _ _
    · exact h.setFault _ _
  · split
    · rename_i he
      have := timeOf_ok he
      exact h.takeTime this.1 this.2
    · exact h.setFault _ _
  · exact h.setFault _ _

theorem Runs.routeCell (l : Fin 3) (c : CellView) (h : Runs s t) : Runs s (routeCell l c t) := by
  unfold Machine.routeCell
  split
  · exact h.modRouter _ id
  · split
    · exact h.modRouter _ id
    · split
      · unfold controlCell
        split
        · exact h.modRouter _ id
        · split
          · exact h.setFault _ _
          · split
            · exact h.deliver l _
            · exact h.setFault _ _
      · exact h.componentCell l c _ _

end Sys2Proof.Machine
end

