-- ==== Sys2Proof/Laws/Taken.lean ====
section
/-! SUPPORT. The taking of a request or an event, said once: the state in which the owner's rule begins, what the
reply queue then holds, and that the transmitter's choice touches nothing else. -/

namespace Sys2Proof.Machine

open Sys2Proof

variable {s t u : State}

/-- The state in which a request's owner takes it: nothing put out yet, its frame counted. -/
def State.opened (s : State) : State := s.clearOut.countGood

/-! ### The transmitter (R187) -/

theorem Link.settle_contents (st : Store) (l : Link) :
    (l.settle st).replies.map Reply.content = l.replies.map Reply.content := by
  simp only [Link.settle, List.map_map]
  rfl

theorem Link.startTx_cases (r : Bool) (l : Link) : l.startTx r = l
    ∨ (l.tx = .idle ∧ ∃ x, l.startTx r = { l with tx := .reply x })
    ∨ (l.tx = .idle ∧ ∃ n rest x, l.notices = n :: rest
        ∧ l.startTx r = { l with tx := .notice x, notices := rest, overflow := false }) := by
  have hn : l.tx = .idle → l.startNotice = l ∨ (l.tx = .idle ∧ ∃ n rest x, l.notices = n :: rest
        ∧ l.startNotice = { l with tx := .notice x, notices := rest, overflow := false }) := by
    intro h
    unfold Link.startNotice
    cases e : l.notices with
    | nil => exact .inl rfl
    | cons n rest => exact .inr ⟨h, n, rest, _, rfl, rfl⟩
  unfold Link.startTx
  cases htx : l.tx with
  | idle =>
    dsimp only
    split
    · split
      · exact .inr (.inl ⟨rfl, _, rfl⟩)
      · rcases hn htx with h | h
        · exact .inl h
        · exact .inr (.inr (htx ▸ h))
    · split
      · exact .inl rfl
      · rcases hn htx with h | h
        · exact .inl h
        · exact .inr (.inr (htx ▸ h))
  | reply f => exact .inl rfl
  | notice f => exact .inl rfl

theorem Link.begin_cases (now : Nat) (r : Bool) (l : Link) : l.begin now r = l
    ∨ (l.tx = .idle ∧ ∃ x d, l.begin now r = { l with tx := .reply x, txDue := d })
    ∨ (l.tx = .idle ∧ ∃ n rest x d, l.notices = n :: rest
        ∧ l.begin now r = { l with tx := .notice x, notices := rest, overflow := false, txDue := d }) := by
  unfold Link.begin
  rcases l.startTx_cases r with h | ⟨h1, x, h⟩ | ⟨h1, n, rest, x, h2, h⟩
  · rw [h]
    left
    dsimp only
    split
    · rename_i hc; exact absurd hc.1 hc.2
    · rfl
  · rw [h]
    simp only [h1, ne_eq, reduceCtorEq, not_false_eq_true, and_self, ↓reduceIte]
    exact .inr (.inl ⟨trivial, x, _, rfl⟩)
  · rw [h]
    simp only [h1, ne_eq, reduceCtorEq, not_false_eq_true, and_self, ↓reduceIte]
    exact .inr (.inr ⟨trivial, n, rest, x, _, h2, rfl⟩)

theorem Link.begin_fields (now : Nat) (r : Bool) (l : Link) :
    (l.begin now r).replies = l.replies ∧ (l.begin now r).goodFrames = l.goodFrames
      ∧ (l.begin now r).ports = l.ports ∧ l.onward (l.begin now r) := by
  rcases l.begin_cases now r with h | ⟨h1, x, d, h⟩ | ⟨h1, n, rest, x, d, h2, h⟩
  · rw [h]; exact ⟨rfl, rfl, rfl, .inl ⟨rfl, rfl, rfl, rfl⟩⟩
  · rw [h]; exact ⟨rfl, rfl, rfl, .inr ⟨h1, by simp, .inl ⟨rfl, rfl⟩⟩⟩
  · rw [h]; exact ⟨rfl, rfl, rfl, .inr ⟨h1, by simp, .inr ⟨by simp [h2], rfl⟩⟩⟩

theorem Link.settle_ports (st : Store) (l : Link) : (l.settle st).ports = l.ports := rfl

/-- The transmitter's choice changes nothing but what it takes. -/
theorem startTx_link (s : State) : s.startTx.queued = s.queued
    ∧ s.startTx.link.goodFrames = s.link.goodFrames ∧ s.startTx.link.ports = s.link.ports
    ∧ s.link.onward s.startTx.link := by
  have h := Link.begin_fields s.clock.uptimeMs s.restarting (s.link.settle s.store)
  refine ⟨?_, h.2.1, h.2.2.1, ?_⟩
  · show (Link.begin _ _ _).replies.map Reply.content = _
    rw [h.1, Link.settle_contents]
    rfl
  · exact h.2.2.2

theorem startTx_onward (s : State) : s.link.onward s.startTx.link := (startTx_link s).2.2.2

theorem startTx_queued (s : State) : s.startTx.queued = s.queued := (startTx_link s).1

theorem startTx_goodFrames (s : State) : s.startTx.link.goodFrames = s.link.goodFrames := (startTx_link s).2.1

theorem startTx_bare (s : State) : s.startTx.bare = s.bare := by
  unfold State.bare
  rw [(startTx_link s).2.2.1]
  rfl

theorem rest_of_ports {l m : Link} (h : m.ports = l.ports) : m.rest = l.rest := by
  have : m.rest = { m.ports with flags := Vector.replicate 10 false, noticesDropped := 0 } := rfl
  rw [this, h]
  rfl

theorem rest_of_core {l m : Link} (h : m.core = l.core) : m.rest = l.rest := congrArg Link.ports h

theorem startTx_rest (s : State) : s.startTx.link.rest = s.link.rest := rest_of_ports (startTx_link s).2.2.1

theorem cores_of_rest (s : State) (f : Link → Link) (h : (f s.link).rest = s.link.rest) :
    (s.modLink f).cores = s.cores := by
  unfold State.cores State.still
  rw [State.modLink_link, h]
  rfl

theorem tables_of_rest (s : State) (f : Link → Link) (h : (f s.link).rest = s.link.rest) :
    (s.modLink f).tables = s.tables := by
  unfold State.tables State.calm State.still
  rw [State.modLink_link, h]
  rfl

theorem startTx_cores (s : State) : s.startTx.cores = s.cores := cores_of_rest s _ (startTx_rest s)

theorem startTx_tables (s : State) : s.startTx.tables = s.tables := tables_of_rest s _ (startTx_rest s)

theorem startTx_ground (s : State) : s.startTx.ground = s.ground := by
  unfold State.ground; rw [startTx_tables]

/-! ### Frames of the relations -/

theorem cores_of_still (h : t.still = s.still) : t.cores = s.cores := by
  have : t.link.core = s.link.core := (congrArg State.link h :)
  unfold State.cores
  rw [h, rest_of_core this]

theorem tables_of_calm (h : t.calm = s.calm) : t.tables = s.tables := by
  have : t.link.core = s.link.core := (congrArg State.link h :)
  unfold State.tables
  rw [h, rest_of_core this]

theorem ground_of_hull (h : t.hull = s.hull) : t.ground = s.ground := by
  have : t.link.core = s.link.core := (congrArg State.link h :)
  have e : ∀ s : State, s.ground = { s.hull with link := s.link.rest } := fun _ => rfl
  rw [e, e, h, rest_of_core this]

theorem opened_cores (s : State) : s.opened.cores = s.cores := rfl

theorem opened_tables (s : State) : s.opened.tables = s.tables := rfl

theorem opened_ground (s : State) : s.opened.ground = s.ground := rfl

theorem opened_bare (s : State) : s.opened.bare = s.bare := rfl

/-! ### Requests (R184, R185) -/

/-- The reply that a request's owner gives, as it is queued. -/
def replyOf (kind tag : Byte) (s : State) (r : Answer × State) : Reply :=
  { kind, tag, body := r.1.body, hold := holdOf s.store r.2.store r.1 }

theorem takeRequest_ready (kind tag : Byte) (f : Req) (h : s.ready) :
    s.takeRequest kind tag f
      = ((f s.opened).2.modLink (Link.pushReply (replyOf kind tag s.opened (f s.opened)))).startTx := by
  unfold State.takeRequest
  have h1 : s.clearOut.linkOpen = true := by simp [State.linkOpen, h.power, h.running]
  have h2 : ¬ 8 ≤ s.clearOut.link.replies.length := by simpa using h.room
  have h3 : ¬ (s.clearOut.mode = .boot ∧ kind ≠ 0x00) := fun e => h.mode (by simpa using e.1)
  dsimp only
  rw [if_pos h1, if_neg h2, if_neg h3]
  rfl

/-- A request taken: the owner's rule and the rises it caused, the reply, the transmitter's choice. -/
theorem serve_ready (kind tag : Byte) (f : Req) (h : s.ready) : ∃ r : Reply,
    r.content = (kind, tag, (f s.opened).1.body)
      ∧ s.serve kind tag f = ((settle (f s.opened).2).modLink (Link.pushReply r)).startTx := by
  unfold State.serve
  rw [takeRequest_ready kind tag _ h]
  exact ⟨_, rfl, rfl⟩

theorem pushReply_rest (r : Reply) (l : Link) : (l.pushReply r).rest = l.rest := rfl

theorem serve_cores (kind tag : Byte) (f : Req) (h : s.ready) :
    (s.serve kind tag f).cores = (settle (f s.opened).2).cores := by
  obtain ⟨r, -, e⟩ := serve_ready kind tag f h
  rw [e, startTx_cores, cores_of_rest _ _ (pushReply_rest r _)]

theorem serve_tables (kind tag : Byte) (f : Req) (h : s.ready) :
    (s.serve kind tag f).tables = (settle (f s.opened).2).tables := by
  obtain ⟨r, -, e⟩ := serve_ready kind tag f h
  rw [e, startTx_tables, tables_of_rest _ _ (pushReply_rest r _)]

theorem serve_ground (kind tag : Byte) (f : Req) (h : s.ready) :
    (s.serve kind tag f).ground = (settle (f s.opened).2).ground := by
  unfold State.ground; rw [serve_tables kind tag f h]

/-- A request whose owner leaves the replies alone is answered with what its owner says. -/
theorem serve_answered (kind tag : Byte) (f : Req) (h : s.ready)
    (hc : (settle (f s.opened).2).link.core = s.opened.link.core) :
    s.answered (s.serve kind tag f) kind tag (f s.opened).1.body := by
  obtain ⟨r, hr, e⟩ := serve_ready kind tag f h
  have h1 : (settle (f s.opened).2).link.replies = s.link.replies := (congrArg Link.replies hc :)
  have h2 : (settle (f s.opened).2).link.goodFrames = s.link.goodFrames + 1 :=
    (congrArg Link.goodFrames hc :)
  rw [e]
  refine ⟨?_, ?_⟩
  · rw [startTx_queued]
    simp only [State.queued, State.modLink_link, Link.pushReply, List.map_append, h1, List.map_cons,
      List.map_nil, hr]
  · rw [startTx_goodFrames]
    exact h2

/-- A request that only reads: it is answered, and nothing else moves. -/
theorem serve_reads (kind tag : Byte) (f : Req) (h : s.ready) (hf : (f s.opened).2 = s.opened) :
    s.answered (s.serve kind tag f) kind tag (f s.opened).1.body
      ∧ s.unmoved (s.serve kind tag f) := by
  have hs : settle (f s.opened).2 = s.opened := by
    rw [hf]; exact settle_none (show s.auxRises = [] from h.rises)
  refine ⟨serve_answered kind tag f h (by rw [hs]), ?_⟩
  obtain ⟨r, hr, e⟩ := serve_ready kind tag f h
  rw [e, hs]
  exact ⟨by rw [startTx_bare]; rfl, startTx_onward (s.opened.modLink (Link.pushReply r)), rfl⟩

/-- A refusal with a status alone. -/
theorem serve_refused (kind tag : Byte) (f : Req) (st : Status) (h : s.ready)
    (hf : f s.opened = refuse st s.opened) : s.refused (s.serve kind tag f) kind tag st := by
  have := serve_reads kind tag f h (by rw [hf]; rfl)
  rw [hf] at this
  exact this

/-! ### Events -/

theorem event_live (f : State → State) (h : s.live) : s.event f = (settle (f s.clearOut)).startTx := by
  unfold State.event State.takeEvent
  have : s.clearOut.awake = true := by simp [State.awake, h.power, h.running, h.mode]
  dsimp only
  rw [if_pos this]

/-- An event leaves the replies to the link port. -/
theorem event_unanswered (f : State → State) (h : s.live)
    (hc : (settle (f s.clearOut)).link.core = s.link.core) : s.unanswered (s.event f) := by
  rw [event_live f h]
  refine ⟨?_, ?_⟩
  · rw [startTx_queued]
    exact congrArg (List.map Reply.content) (congrArg Link.replies hc :)
  · rw [startTx_goodFrames]
    exact (congrArg Link.goodFrames hc :)

/-- An event that changes nothing. -/
theorem event_unmoved (f : State → State) (h : s.live) (hf : f s.clearOut = s.clearOut) :
    s.unmoved (s.event f) := by
  rw [event_live f h, hf, settle_none (show s.clearOut.auxRises = [] from h.rises)]
  exact ⟨by rw [startTx_bare]; rfl, startTx_onward s.clearOut, rfl⟩

/-! ### What a PIN check that passes leaves (R129) -/

@[simp] theorem checked_unasked (s : State) (p : Fin 8) (pin : Pin) : s.checked false p pin = s := rfl

@[simp] theorem checked_asked (s : State) (p : Fin 8) (pin : Pin) :
    s.checked true p pin = (pinCheck p pin s).2 := rfl

/-- A correct PIN out of a lockout passes, and a run of failures is over and its profile unit handed over. -/
theorem pinCheck_passes {s : State} {p : Fin 8} {pin : Pin} (free : (s.profile p).lockout = 0)
    (right : pin = (s.profile p).pin) :
    pinCheck p pin s = (none, if 0 < (s.profile p).failures then
      (s.modProfile p fun r => { r with failures := 0 }).handProfile p else s) := by
  unfold pinCheck
  rw [if_neg (by omega), if_pos right]

/-- A check that passes touches the profiles and the store alone. -/
theorem checked_eq {s : State} {p : Fin 8} {pin : Pin} (asked : Bool) (free : (s.profile p).lockout = 0)
    (right : pin = (s.profile p).pin) :
    s.checked asked p pin = { s with
      parental := (s.checked asked p pin).parental, store := (s.checked asked p pin).store } := by
  cases asked
  · rfl
  · rw [checked_asked, pinCheck_passes free right]
    split <;> rfl

end Sys2Proof.Machine
end

