-- ==== Sys2Proof/Laws/Owners.lean ====
section
/-! SUPPORT. What the owner of a request can do, said once for all of them: `Owned`, that the forms and ranges of the
rules stay, and that replies, receiver and waiting commands are left alone. -/

namespace Sys2Proof.Machine

open Sys2Proof

variable {s t u : State}

/-- What a state and one that the owner of a request leads to have in common. -/
structure Owned (s t : State) : Prop where
  keeps : Keeps s t
  core : t.link.core = s.link.core
  flags : ∀ i : Fin 10, s.link.flags[i] = true → t.link.flags[i] = true
  pending : t.pending = s.pending

theorem Owned.refl (s : State) : Owned s s := ⟨.refl s, rfl, fun _ => id, rfl⟩

theorem Owned.trans (h : Owned s t) (g : Owned t u) : Owned s u :=
  ⟨h.keeps.trans g.keeps, g.core.trans h.core, fun i => g.flags i ∘ h.flags i, g.pending.trans h.pending⟩

theorem Runs.owned (h : Runs s t) : Owned s t :=
  ⟨h.keeps, (congrArg State.link h.hull :), h.flags, (congrArg State.pending h.hull :)⟩

theorem Acts.owned (h : Acts s t) : Owned s t := h.runs.owned

theorem Flow.owned (h : Flow none s t) : Owned s t := h.acts.owned

theorem settle_owned (s : State) : Owned s (settle s) := ((Acts.refl s).settle).owned

theorem setMode_keeps (m : Mode) (s : State) : Keeps s (s.setMode m) :=
  ⟨id, id, id, id, id, id, fun x => ⟨x.1, x.2, x.3⟩, id, id, id, id⟩

theorem modeChange_owned (c : ModeCause) (m : Mode) (s : State) : Owned s (modeChange c m s) := by
  have h0 : Owned s (s.setMode m) := ⟨setMode_keeps m s, rfl, fun _ => id, rfl⟩
  have h1 := h0.trans (changeMode_acts c m s).owned
  unfold modeChange
  dsimp only
  split
  · exact h1.trans ((Acts.refl _).evaluateAll).owned
  · exact h1

theorem withMaster_owned {pin : Pin} {f : Req} (hf : ∀ u, Owned u (f u).2) (s : State) :
    Owned s (withMaster pin f s).2 := by
  unfold withMaster
  have hp := ((Runs.refl s).pinCheck 0 pin).owned
  split
  · rename_i he; rw [he] at hp; exact hp
  · rename_i he; rw [he] at hp; exact hp.trans (hf _)

/-! ### Chapters 1 and 2 -/

/-- A new service entry in range, on a channel of its own. -/
theorem ServicesOk.put {l : List Service} {v : Service} (hv : v.ok) (hc : ∀ o ∈ l, o.channel = v.channel → o.sid = v.sid)
    (hn : keyFind (·.sid) v.sid l = none → l.length < 512) (h : ServicesOk l) :
    ServicesOk (keyPut (·.sid) v l) := by
  obtain ⟨h1, h2, h3, h4⟩ := h
  have key : ∀ l : List Service, KeySorted (·.sid) l → (keyPut (·.sid) v l).length
      = if keyFind (·.sid) v.sid l = none then l.length + 1 else l.length := by
    intro l
    induction l with
    | nil => intro _; simp [keyPut, keyFind]
    | cons b l ih =>
      intro hs
      obtain ⟨hb, hl⟩ := List.pairwise_cons.1 hs
      have ih := ih hl
      unfold keyPut
      split
      · rename_i hlt
        have : keyFind (·.sid) v.sid (b :: l) = none := by
          refine List.find?_eq_none.2 fun x hx => ?_
          rcases List.mem_cons.1 hx with rfl | hx
          · simp; omega
          · have : b.sid < x.sid := hb x hx
            simp; omega
        rw [if_pos this]; simp
      · split
        · rename_i e
          have : keyFind (·.sid) v.sid (b :: l) ≠ none := by simp [keyFind, e]
          rw [if_neg this]; simp
        · rename_i e1 e2
          have : keyFind (·.sid) v.sid (b :: l) = keyFind (·.sid) v.sid l := by
            have : ¬ b.sid = v.sid := fun e => e2 e.symm
            simp [keyFind, this]
          rw [this, List.length_cons, ih]
          split <;> simp
  have chan : ∀ l : List Service, l.Pairwise (fun a b => a.channel ≠ b.channel) → KeySorted (·.sid) l →
      (∀ o ∈ l, o.channel = v.channel → o.sid = v.sid) →
      (keyPut (·.sid) v l).Pairwise fun a b => a.channel ≠ b.channel := by
    intro l
    induction l with
    | nil => intros; simp [keyPut]
    | cons b l ih =>
      intro hp hs ho
      obtain ⟨hp1, hp2⟩ := List.pairwise_cons.1 hp
      obtain ⟨hb, hl⟩ := List.pairwise_cons.1 hs
      unfold keyPut
      split
      · rename_i hlt
        refine List.pairwise_cons.2 ⟨fun x hx e => ?_, hp⟩
        have := ho x hx e.symm
        rcases List.mem_cons.1 hx with rfl | hx
        · omega
        · have : b.sid < x.sid := hb x hx
          omega
      · split
        · rename_i e
          refine List.pairwise_cons.2 ⟨fun x hx e' => ?_, hp2⟩
          have := ho x (List.mem_cons_of_mem _ hx) e'.symm
          have : b.sid < x.sid := hb x hx
          omega
        · rename_i e1 e2
          refine List.pairwise_cons.2 ⟨fun x hx => ?_,
            ih hp2 hl fun o h' => ho o (List.mem_cons_of_mem _ h')⟩
          rcases mem_keyPut hx with rfl | hx
          · intro e
            exact e2 (ho b (by simp) e).symm
          · exact hp1 x hx
  refine ⟨keySorted_keyPut v h1, ?_, chan l h3 h1 hc, fun x hx => ?_⟩
  · rw [key l h1]
    split
    · rename_i e; have := hn e; omega
    · exact h2
  · rcases mem_keyPut hx with rfl | hx
    · exact hv
    · exact h4 x hx

theorem ServicesOk.drop {l : List Service} (n : Nat) (h : ServicesOk l) : ServicesOk (keyDrop (·.sid) n l) :=
  ⟨h.sorted.filter _, (List.length_filter_le _ _).trans h.count, h.channels.filter _,
   fun v hv => h.entries v (List.mem_filter.1 hv).1⟩

theorem clamp_le {lo hi n : Nat} (h : lo ≤ hi) : clamp lo hi n ≤ hi := by
  unfold clamp; split <;> (try split) <;> omega

theorem le_clamp {lo hi n : Nat} (h : lo ≤ hi) : lo ≤ clamp lo hi n := by
  unfold clamp; split <;> (try split) <;> omega

theorem readComps_ok {l : List CompReq} {cs : List Component} (h : readComps l = some cs) :
    1 ≤ cs.length ∧ cs.length ≤ 6 ∧ (cs.map (·.tag)).Nodup ∧ ∀ c ∈ cs, 16 ≤ c.tag ∧ c.tag ≤ 1023 := by
  unfold readComps at h
  dsimp only at h
  split at h
  · rename_i hc
    cases h
    refine ⟨by omega, by omega, hc.2.2.2, fun c hm => ?_⟩
    obtain ⟨r, -, hr⟩ := List.mem_filterMap.1 hm
    unfold readComp at hr
    split at hr
    · split at hr
      · rename_i ht; cases hr; exact ht
      · cases hr
    · cases hr
  · cases h

theorem readService_ok {r : ServiceReq} {v : Service} (h : readService r = some v) : v.ok := by
  unfold readService at h
  split at h
  · rename_i comps scr hcs hfl
    split at h
    · rename_i hc
      cases h
      obtain ⟨h1, h2, h3, h4⟩ := readComps_ok hcs
      have := r.sid.isLt
      exact ⟨⟨hc.1, by dsimp only; omega⟩, ⟨hc.2.1, hc.2.2.1⟩, hc.2.2.2, clamp_le (Nat.zero_le 6), ⟨h1, h2⟩, h4, h3⟩
    · cases h
  · cases h

theorem modServices_owned {f : List Service → List Service}
    (hf : ServicesOk s.services → ServicesOk (f s.services)) : Owned s (s.modServices f) :=
  ⟨⟨id, id, id, id, id, id, fun x => ⟨x.1, x.2, x.3⟩, id, hf, id, id⟩, rfl, fun _ => id, rfl⟩

theorem modCarriers_owned {f : List Carrier → List Carrier}
    (hf : CarriersOk s.carriers → CarriersOk (f s.carriers)) : Owned s (s.modCarriers f) :=
  ⟨⟨id, id, id, id, id, id, fun x => ⟨x.1, x.2, x.3⟩, id, id, hf, id⟩, rfl, fun _ => id, rfl⟩

theorem servicePutReq_owned (r : ServiceReq) (s : State) : Owned s (servicePutReq r s).2 := by
  unfold servicePutReq
  split
  · exact .refl s
  · rename_i v hv
    dsimp only
    split
    · exact .refl s
    · split
      · exact .refl s
      · rename_i hc
        split
        · exact .refl s
        · rename_i hn
          refine (modServices_owned fun h => ServicesOk.put (readService_ok hv) (fun o ho e => ?_)
            (fun e => ?_) h).trans (putService_acts v s).owned
          · by_contra hne
            exact hc (List.any_eq_true.2 ⟨o, ho, by simp [e, hne]⟩)
          · by_contra hl
            exact hn ⟨by simp [e], by omega⟩

theorem serviceDropReq_owned (a : Byte) (b : Half) (s : State) : Owned s (serviceDropReq a b s).2 := by
  unfold serviceDropReq
  split
  · exact .refl s
  · split
    · exact .refl s
    · exact (modServices_owned (ServicesOk.drop _)).trans (dropService_acts _ s).owned

theorem serviceReadReq_owned (a : Byte) (b : Half) (s : State) : Owned s (serviceReadReq a b s).2 := by
  unfold serviceReadReq
  split
  · exact .refl s
  · split <;> exact .refl s

theorem tuneReq_owned (a b : Byte) (c : Half) (d : Byte) (s : State) : Owned s (tuneReq a b c d s).2 := by
  unfold tuneReq
  split
  · unfold hostTune
    split
    · exact .refl s
    · split
      · exact .refl s
      · split
        · exact .refl s
        · split
          · exact .refl s
          · split
            · exact .refl s
            · exact (((Acts.refl s).overrideEntry _).acceptTune _ _ _).owned
  · exact .refl s

theorem stopReq_owned (a b : Byte) (s : State) : Owned s (stopReq a b s).2 := by
  unfold stopReq
  split
  · split
    · exact .refl s
    · split
      · exact .refl s
      · exact (((Acts.refl s).overrideEntry _).stopSlot _).owned
  · exact .refl s

theorem CarriersOk.put {l : List Carrier} {c : Carrier} (hc : c.ok)
    (hf : ∀ o ∈ l, o.freq = c.freq → o.index = c.index) (h : CarriersOk l) : CarriersOk (withCarrier c l) := by
  have gen : ∀ l : List Carrier, KeySorted (·.index) l → l.Pairwise (fun a b => a.freq ≠ b.freq) →
      l.Pairwise (fun a b => a.home = false ∨ b.home = false) →
      (∀ o ∈ l, o.freq = c.freq → o.index = c.index) → (c.home = true → ∀ o ∈ l, o.home = false) →
      (keyPut (·.index) c l).Pairwise (fun a b => a.freq ≠ b.freq)
        ∧ (keyPut (·.index) c l).Pairwise fun a b => a.home = false ∨ b.home = false := by
    intro l
    induction l with
    | nil => intros; simp [keyPut]
    | cons b l ih =>
      intro hs hp hh ho hm
      obtain ⟨hb, hl⟩ := List.pairwise_cons.1 hs
      obtain ⟨hp1, hp2⟩ := List.pairwise_cons.1 hp
      obtain ⟨hh1, hh2⟩ := List.pairwise_cons.1 hh
      have hm' : ∀ o ∈ b :: l, c.home = false ∨ o.home = false := fun o ho' => by
        cases e : c.home with
        | false => exact .inl rfl
        | true => exact .inr (hm e o ho')
      unfold keyPut
      split
      · rename_i hlt
        refine ⟨List.pairwise_cons.2 ⟨fun x hx e => ?_, hp⟩, List.pairwise_cons.2 ⟨hm', hh⟩⟩
        have := ho x hx e.symm
        rcases List.mem_cons.1 hx with rfl | hx
        · omega
        · have : b.index < x.index := hb x hx
          omega
      · split
        · rename_i e
          refine ⟨List.pairwise_cons.2 ⟨fun x hx e' => ?_, hp2⟩,
            List.pairwise_cons.2 ⟨fun x hx => hm' x (List.mem_cons_of_mem _ hx), hh2⟩⟩
          have := ho x (List.mem_cons_of_mem _ hx) e'.symm
          have : b.index < x.index := hb x hx
          omega
        · rename_i e1 e2
          obtain ⟨i1, i2⟩ := ih hl hp2 hh2 (fun o h' => ho o (List.mem_cons_of_mem _ h'))
            (fun e o h' => hm e o (List.mem_cons_of_mem _ h'))
          refine ⟨List.pairwise_cons.2 ⟨fun x hx => ?_, i1⟩, List.pairwise_cons.2 ⟨fun x hx => ?_, i2⟩⟩
          · rcases mem_keyPut hx with rfl | hx
            · intro e
              exact e2 (ho b (by simp) e).symm
            · exact hp1 x hx
          · rcases mem_keyPut hx with rfl | hx
            · exact (hm' b (by simp)).symm
            · exact hh1 x hx
  unfold withCarrier
  split
  · rename_i hm
    have hs : KeySorted (·.index) (l.map fun c => { c with home := false }) :=
      List.pairwise_map.2 h.sorted
    obtain ⟨g1, g2⟩ := gen (l.map fun c => { c with home := false }) hs (List.pairwise_map.2 h.freqs)
      (List.pairwise_map.2 (List.Pairwise.imp (fun _ => .inl rfl) h.home))
      (fun o ho e => by obtain ⟨x, hx, rfl⟩ := List.mem_map.1 ho; exact hf x hx e)
      (fun _ o ho => by obtain ⟨x, hx, rfl⟩ := List.mem_map.1 ho; rfl)
    refine ⟨keySorted_keyPut c hs, g1, g2, fun x hx => ?_⟩
    rcases mem_keyPut hx with rfl | hx
    · exact hc
    · obtain ⟨y, hy, rfl⟩ := List.mem_map.1 hx
      exact ⟨(h.entries y hy).index, (h.entries y hy).freq⟩
  · rename_i hm
    obtain ⟨g1, g2⟩ := gen l h.sorted h.freqs h.home hf (fun e => absurd e hm)
    refine ⟨keySorted_keyPut c h.sorted, g1, g2, fun x hx => ?_⟩
    rcases mem_keyPut hx with rfl | hx
    · exact hc
    · exact h.entries x hx

theorem CarriersOk.drop {l : List Carrier} (n : Nat) (h : CarriersOk l) : CarriersOk (keyDrop (·.index) n l) :=
  ⟨h.sorted.filter _, h.freqs.filter _, h.home.filter _, fun c hc => h.entries c (List.mem_filter.1 hc).1⟩

theorem readCarrier_ok {r : CarrierReq} {c : Carrier} (h : readCarrier r = some c) : c.ok := by
  unfold readCarrier at h
  split at h
  · split at h
    · rename_i hc; cases h; exact ⟨hc.1, hc.2⟩
    · cases h
  · cases h

theorem carrierPutReq_owned (r : CarrierReq) (s : State) : Owned s (carrierPutReq r s).2 := by
  unfold carrierPutReq
  split
  · exact .refl s
  · rename_i c hr
    split
    · exact .refl s
    · rename_i hn
      refine (modCarriers_owned fun h => CarriersOk.put (readCarrier_ok hr) (fun o ho e => ?_) h).trans
        (putCarrier_runs c s).owned
      by_contra hne
      exact hn (List.any_eq_true.2 ⟨o, ho, by simp [e, hne]⟩)

theorem carrierDropReq_owned (a : Byte) (s : State) : Owned s (carrierDropReq a s).2 := by
  unfold carrierDropReq
  split
  · exact .refl s
  · split
    · exact .refl s
    · exact (modCarriers_owned (CarriersOk.drop _)).trans (dropCarrier_flow _ s).owned

theorem clampN_ok (n : Nat) : clampN n = 1 ∨ clampN n = 2 ∨ clampN n = 4 ∨ clampN n = 8 ∨ clampN n = 16
    ∨ clampN n = 32 := by
  unfold clampN
  split
  · simp
  · split
    · simp
    · split
      · simp
      · split
        · simp
        · split <;> simp

theorem qualityClassSetReq_owned (r : ClassReq) (s : State) : Owned s (qualityClassSetReq r s).2 := by
  unfold qualityClassSetReq
  split
  · rename_i n m hn hm
    dsimp only
    split
    · exact .refl s
    · rename_i hc
      refine ⟨⟨id, id, id, id, id, id, fun x => ⟨x.1, x.2, x.3⟩, id, id, id, fun h i => ?_⟩, rfl,
        fun _ => id, rfl⟩
      show ((s.classes.set n (readClass r m))[i]).ok
      simp only [Fin.getElem_fin, Vector.getElem_set]
      split
      · have := r.h.isLt
        refine ⟨clampN_ok _, ⟨by omega, ?_⟩, ?_, le_clamp (by decide), clamp_le (by decide)⟩
        · exact Nat.min_le_left _ _
        · show r.h.toNat ≤ 255
          omega
      · exact h i
  · exact .refl s

theorem laneEnableReq_owned (a b : Byte) (s : State) : Owned s (laneEnableReq a b s).2 := by
  unfold laneEnableReq
  split
  · rename_i l o _ _
    split
    · exact .refl s
    · split
      · dsimp only; exact ((Runs.refl s).enableLane l).owned
      · dsimp only; exact ((Runs.refl s).disableLane l).owned
  · exact .refl s

/-! ### Chapters 5 and 6 -/

theorem guidePutReq_owned (r : GuideReq) (s : State) : Owned s (guidePutReq r s).2 := by
  unfold guidePutReq
  split
  · exact .refl s
  · rename_i e _
    dsimp only
    exact ((Runs.refl s).takeEventRecord e).owned

theorem guideDropReq_owned (a : Half) (b : Word) (s : State) : Owned s (guideDropReq a b s).2 := by
  unfold guideDropReq
  split
  · exact .refl s
  · have h := ((Runs.refl s).cancelEvent a.toNat b.toNat).owned
    split
    · rename_i he; rw [he] at h; exact h
    · rename_i he; rw [he] at h; exact h

theorem guideListReq_flow (a : Half) (b : Word) (c : Byte) (s : State) :
    Flow none s (guideListReq a b c s).2 := by
  unfold guideListReq
  split
  · exact .refl _ s
  · exact (Flow.refl none s).readEntries _ _

theorem guideNowReq_flow (a : Half) (s : State) : Flow none s (guideNowReq a s).2 := by
  unfold guideNowReq
  split
  · exact .refl _ s
  · split
    · exact .refl _ s
    · exact ((Flow.refl none s).readEntries _ _).readEntries _ _

theorem Flow.sweepChange (a : Bool) (n : Nat) (h : Flow none s t) : Flow none s (sweepChange a n t) := by
  unfold Machine.sweepChange
  dsimp only
  split
  · exact (h.modSweep _).modSweep _
  · split
    · exact (h.modSweep _).startDwell
    · exact h.modSweep _

theorem Flow.sweepOff (h : Flow none s t) : Flow none s (sweepOff t) := by
  unfold Machine.sweepOff
  dsimp only
  refine Flow.homeRedecide (nobody _) (Flow.sweepWaiting _ (Flow.modSweep _ ?_))
  split
  · exact h.sweepLeave (nobody _)
  · exact h

theorem Flow.sweepStart (a : Bool) (n : Nat) (h : Flow none s t) : Flow none s (sweepStart a n t) := by
  unfold Machine.sweepStart
  dsimp only
  split
  · exact ((h.modSweep _).modSweep _).sweepPause _
  · exact ((h.modSweep _).sweepFromLowest).homeRedecide (nobody _)

theorem Flow.setSweep (a b : Bool) (n : Nat) (h : Flow none s t) : Flow none s (setSweep a b n t) := by
  unfold Machine.setSweep
  split
  · split
    · exact h.sweepOff
    · exact h
  · split
    · exact h.sweepChange _ _
    · exact h.sweepStart _ _

theorem sweepSetReq_flow (a b : Byte) (c : Half) (s : State) : Flow none s (sweepSetReq a b c s).2 := by
  unfold sweepSetReq
  split
  · exact (Flow.refl none s).setSweep _ _ _
  · exact .refl _ s

theorem sweepStepReq_flow (s : State) : Flow none s (sweepStepReq s).2 := by
  unfold sweepStepReq
  split
  · exact .refl _ s
  · dsimp only
    unfold stepSweep
    split
    · exact (((Flow.refl none s).sweepLeave (nobody _)).sweepGo).homeRedecide (nobody _)
    · exact ((((Flow.refl none s).modSweep _).sweepWaiting _).sweepGo).homeRedecide (nobody _)
    · exact ((((Flow.refl none s).modSweep _).sweepWaiting _).sweepGo).homeRedecide (nobody _)
    · exact ((((Flow.refl none s).modSweep _).sweepWaiting _).sweepGo).homeRedecide (nobody _)
    · exact .refl _ s

theorem unlockReq_owned (a : Byte) (b : Pin) (c : Byte) (s : State) : Owned s (unlockReq a b c s).2 := by
  unfold unlockReq
  split
  · split
    · exact .refl s
    · split
      · exact .refl s
      · split
        · exact .refl s
        · exact withMaster_owned (fun u => ((Runs.refl u).setUnlock _ _ _).owned) s
  · exact .refl s

theorem relockReq_owned (a : Byte) (s : State) : Owned s (relockReq a s).2 := by
  unfold relockReq
  split
  · exact ((Runs.refl s).endUnlock _).owned
  · exact .refl s

theorem Runs.selectProfile (v : Fin 3) (p : Fin 8) (h : Runs s t) : Runs s (selectProfile v p t).2 :=
  (h.endUnlock v).takeProfiles _ _

theorem profileSelectChecked_owned (v : Fin 3) (p : Fin 8) (c : Pin) (s : State) :
    Owned s (profileSelectChecked v p c s).2 := by
  unfold profileSelectChecked
  split
  · exact .refl s
  · split
    · exact .refl s
    · split
      · have hp := (Runs.refl s).pinCheck p c
        split
        · rename_i he; rw [he] at hp; exact hp.owned
        · rename_i he; rw [he] at hp; exact (hp.selectProfile v p).owned
      · exact ((Runs.refl s).selectProfile v p).owned

theorem profileSelectReq_owned (a b : Byte) (c : Pin) (s : State) : Owned s (profileSelectReq a b c s).2 := by
  unfold profileSelectReq
  split
  · exact profileSelectChecked_owned _ _ c s
  · exact .refl s

/-- What PROFILE_PUT asks for, in range (R141). -/
structure ProfileEdit.ok (e : ProfileEdit) : Prop where
  ceiling : e.ceiling ≤ 6
  windows : e.windows.length ≤ 4
  allowance : ∀ a ∈ e.allowance, a ≤ 86400
  master : e.inUse = false → e.profile ≠ 0

theorem readProfile_ok {r : ProfileReq} {e : ProfileEdit} (h : readProfile r = some e) : e.ok := by
  unfold readProfile at h
  split at h
  · rename_i p f ws _ _ hw
    split at h
    · rename_i hc
      cases h
      refine ⟨clamp_le (Nat.zero_le 6), ?_, fun a ha => ?_, fun hf => ?_⟩
      · unfold readWindows at hw
        dsimp only at hw
        split at hw
        · rename_i hc2; cases hw; dsimp only; omega
        · cases hw
      · dsimp only at ha
        split at ha
        · cases ha; exact clamp_le (Nat.zero_le _)
        · cases ha
      · dsimp only at hf ⊢
        rcases hc.2.2 with h | h
        · rw [h] at hf; cases hf
        · exact h
    · cases h
  · cases h

theorem Runs.putProfile {e : ProfileEdit} (he : e.ok) (h : Runs s t) : Runs s (putProfile e t) := by
  unfold Machine.putProfile
  dsimp only
  refine Runs.flow ?_ ((Flow.refl none _).updateConditions _)
  refine Runs.setRemaining _ _ (fun o => ?_) (h.modProfile _ _ (fun o => ?_) fun _ _ => rfl)
  · unfold remainingUnder
    split
    · exact le_refl _
    · exact (Nat.min_le_left _ _).trans o.remaining
  · refine ⟨he.ceiling, he.windows, he.allowance, o.remaining, o.spend, ?_, ?_⟩
    · unfold Profile.edit; dsimp only; split
      · exact o.failures
      · exact Nat.zero_le _
    · unfold Profile.edit; dsimp only; split
      · exact o.lockout
      · exact Nat.zero_le _

theorem Runs.retireProfile {p : Fin 8} (hp : p ≠ 0) (h : Runs s t) : Runs s (retireProfile p t) := by
  unfold Machine.retireProfile
  dsimp only
  refine (Runs.endUnlocks _ ?_).takeProfiles _ _
  refine Runs.setRemaining _ _ (fun _ => le_refl _) ?_
  have h1 := (h.modProfile p Profile.retire (fun o => ⟨le_refl 6, Nat.zero_le _, by simp [Profile.retire],
    o.remaining, o.spend, Nat.zero_le _, Nat.zero_le _⟩) fun e => absurd e hp).household (Household.without p)
  split
  · exact h1.handHousehold
  · exact h1

theorem profilePutReq_owned (r : ProfileReq) (s : State) : Owned s (profilePutReq r s).2 := by
  unfold profilePutReq
  split
  · exact .refl s
  · rename_i e he
    refine withMaster_owned (fun u => ?_) s
    unfold profilePutTaken
    split
    · exact ((Runs.refl u).putProfile (readProfile_ok he)).owned
    · rename_i hu
      exact ((Runs.refl u).retireProfile ((readProfile_ok he).master (by simpa using hu))).owned

theorem allowanceGrantReq_owned (a : Byte) (b : Word) (c : Pin) (s : State) :
    Owned s (allowanceGrantReq a b c s).2 := by
  unfold allowanceGrantReq
  split
  · split
    · exact .refl s
    · exact withMaster_owned (fun u => ((Runs.refl u).grantAllowance _ _).owned) s
  · exact .refl s

theorem householdSetReq_owned (a : Pin) (b c d e : Byte) (s : State) :
    Owned s (householdSetReq a b c d e s).2 := by
  unfold householdSetReq
  split
  · split
    · exact .refl s
    · exact withMaster_owned (fun u => ((Runs.refl u).setHousehold _ _).owned) s
  · exact .refl s

/-! ### Chapters 7 to 9 -/

theorem readCell_ok {r : CellReq} {e : CellEdit} (h : readCell r = some e) :
    (∀ l, e.link = some l → e.cell < l) ∧ (e.cell.val < 5 → e.bound.val = e.cell.val ∧ e.edge = .none) := by
  unfold readCell at h
  split at h
  · unfold readCellWith at h
    split at h
    · rename_i truth link edge _ hl _
      dsimp only at h
      split at h
      · rename_i hf
        cases h
        refine ⟨fun l e => ?_, fun hc => ?_⟩
        · dsimp only at e
          subst e
          unfold readLink at hl
          split at hl
          · cases hl
          · split at hl
            · rename_i hlt; cases hl; exact hlt
            · cases hl
          · cases hl
        · unfold CellEdit.fits at hf
          simp only [isPermit, hc, decide_true, Bool.not_true, Bool.false_or, Bool.and_eq_true, beq_iff_eq] at hf
          exact hf.1
      · cases h
    · cases h
  · cases h

theorem Gate.ok_edit {g : Gate} {e : CellEdit}
    (he : (∀ l, e.link = some l → e.cell < l) ∧ (e.cell.val < 5 → e.bound.val = e.cell.val ∧ e.edge = .none))
    (h : g.ok) : (g.modCell e.cell (GateCell.edit e)).ok :=
  Gate.ok_modCell h fun _ => ⟨fun _ => rfl, he.1, he.2⟩

theorem cellPutReq_owned (r : CellReq) (s : State) : Owned s (cellPutReq r s).2 := by
  unfold cellPutReq
  split
  · exact .refl s
  · rename_i e he
    split
    · exact .refl s
    · exact ((Runs.refl s).modGate _ (Gate.ok_edit (readCell_ok he))).owned

theorem Flow.enableCell (n : Fin 8) (h : Flow none s t) : Flow none s (enableCell n t) := by
  unfold Machine.enableCell
  refine Flow.gatePass _ (h.modGate _ fun g => Gate.ok_modCell g fun o => ⟨fun e => ?_, o.2⟩)
  cases e

theorem Flow.disableCell (n : Fin 8) (h : Flow none s t) : Flow none s (disableCell n t) := by
  unfold Machine.disableCell
  dsimp only
  have h1 := h.modGate (Gate.modCell n fun c => { c with enabled := false, output := false })
    fun g => Gate.ok_modCell g fun o => ⟨fun _ => rfl, o.2⟩
  split
  · refine Flow.forEach (fun c _ u hu => hu.handOverChange c) (h1.gateSet fun g => Gate.pass_ok g)
  · exact h1

theorem Flow.switchCell (n : Fin 8) (on : Bool) (s : State) : Flow none s (switchCell n on s).2 := by
  unfold Machine.switchCell
  dsimp only
  split
  · exact (Flow.refl none s).enableCell n
  · exact (Flow.refl none s).disableCell n

theorem cellEnableReq_owned (a b : Byte) (c : Pin) (s : State) : Owned s (cellEnableReq a b c s).2 := by
  unfold cellEnableReq
  split
  · unfold cellEnableChecked
    split
    · exact .refl s
    · split
      · exact withMaster_owned (fun u => (Flow.switchCell _ _ u).owned) s
      · exact (Flow.switchCell _ _ s).owned
  · exact .refl s

/-- A schedule entry written (R167). -/
theorem modEntry_owned (n : Fin 24) (f : Entry → Entry) (s : State) : Owned s (s.modEntry n f) :=
  ⟨⟨id, id, id, id, id, id, fun x => ⟨x.1, x.2, x.3⟩, id, id, id, id⟩, rfl, fun _ => id, rfl⟩

theorem writeEntry_owned (n : Fin 24) (e : Entry) (s : State) : Owned s (writeEntry n e s).2 := by
  unfold writeEntry
  split
  · exact .refl s
  · exact (modEntry_owned n _ s).trans ((Acts.refl _).evaluate n).owned

theorem schedulePutReq_owned (a : Byte) (b : TrigReq) (c : ActReq) (s : State) :
    Owned s (schedulePutReq a b c s).2 := by
  unfold schedulePutReq
  split
  · split
    · unfold schedulePutChecked
      split
      · exact .refl s
      · split
        · rename_i sid eid _ _ _
          have hf := ((Flow.refl none s).readNamed sid eid).owned
          split
          · rename_i he; rw [he] at hf; exact hf
          · rename_i he; rw [he] at hf; exact hf.trans (writeEntry_owned _ _ _)
        · exact writeEntry_owned _ _ s
    · exact .refl s
  · exact .refl s

theorem scheduleDropReq_owned (a : Byte) (s : State) : Owned s (scheduleDropReq a s).2 := by
  unfold scheduleDropReq
  split
  · exact .refl s
  · dsimp only
    split
    · exact .refl s
    · dsimp only
      split
      · exact ((Acts.refl s).stopRun _).owned.trans (modEntry_owned _ _ _)
      · exact modEntry_owned _ _ s

theorem modeSetReq_owned (a : Byte) (s : State) : Owned s (modeSetReq a s).2 := by
  unfold modeSetReq
  split
  · exact .refl s
  · split
    · exact .refl s
    · exact modeChange_owned _ _ s

theorem restartReq_owned (s : State) : Owned s (restartReq s).2 :=
  ⟨⟨id, id, id, id, id, id, fun x => ⟨x.1, x.2, x.3⟩, id, id, id, id⟩, rfl, fun _ => id, rfl⟩

theorem clampOffset_ok (i : Int) : -720 ≤ clampOffset i ∧ clampOffset i ≤ 840 := by
  unfold clampOffset; omega

theorem timeSetReq_owned (a : Word) (b : Half) (s : State) : Owned s (timeSetReq a b s).2 := by
  unfold timeSetReq
  split
  · exact .refl s
  · have := a.isLt
    exact ((Runs.refl s).setTime (by omega) (clampOffset_ok _)).owned

theorem faultClearReq_owned (a : Half) (s : State) : Owned s (faultClearReq a s).2 := by
  unfold faultClearReq
  split
  · exact .refl s
  · exact ((Runs.refl s).modFaults _).owned

end Sys2Proof.Machine
end

