-- ==== Sys2Proof/Laws/PerInstr.lean ====
section
/-! SUPPORT. The family RequestKind, one lemma for each command: the frame of a well-formed request has a kind
that names a request and a body that a frame can carry (R182, R184 test 3). -/

namespace Sys2Proof.Laws.RequestKind

open Sys2Proof Sys2Proof.Machine

/-- A well-formed command that is a request has one of the kinds that name a request and a body of 1,020 bytes at
most; a command that is no request has no frame. -/
def Statement (i : Instr) : Prop :=
  i.wf = true → ∀ kind tag body, requestFrame i = some (kind, tag, body) →
    kind.toNat ∈ requestKinds ∧ body.length ≤ 1020

theorem length_u8 (n : Nat) : (u8 n).length = 1 := rfl
theorem length_u16 (n : Nat) : (u16 n).length = 2 := rfl
theorem length_u32 (n : Nat) : (u32 n).length = 4 := rfl
theorem length_half (h : Half) : (half h).length = 2 := rfl
theorem length_word (w : Word) : (word w).length = 4 := rfl
theorem length_pinBytes (p : Pin) : (pinBytes p).length = 4 := rfl

/-- Fields of one length each, one after another. -/
theorem length_flatMap_const {α : Type} (n : Nat) (f : α → List Byte) (h : ∀ a, (f a).length = n) (l : List α) :
    (l.flatMap f).length = n * l.length := by
  induction l with
  | nil => simp
  | cons a l ih => simp [List.flatMap_cons, h, ih, Nat.mul_add, Nat.add_comm]

theorem length_triggerFields (g : TrigReq) : (triggerFields g).length ≤ 9 := by
  cases g <;> simp [triggerFields, length_half, length_word]

theorem length_actionFields (g : TrigReq) (a : ActReq) : (actionFields g a).length ≤ 8 := by
  cases g <;> cases a <;> simp [actionFields, length_half, length_word, length_u16]

/-- A request of a kind in the list whose body is short enough. -/
theorem of_frame {i : Instr} {k t : Byte} {b : List Byte} (h : requestFrame i = some (k, t, b))
    (hk : k.toNat ∈ requestKinds) (hb : i.wf = true → b.length ≤ 1020) : Statement i := by
  intro w kind tag body e
  rw [h] at e
  cases e
  exact ⟨hk, hb w⟩

/-- A command that is no request. -/
theorem of_none {i : Instr} (h : requestFrame i = none) : Statement i := by
  intro _ kind tag body e
  rw [h] at e
  cases e

theorem powerOn : Statement .powerOn := of_none rfl
theorem powerLoss : Statement .powerLoss := of_none rfl
theorem bootEnd : Statement .bootEnd := of_none rfl
theorem enterBoot : Statement .enterBoot := of_none rfl
theorem identify (tag : Byte) : Statement (.identify tag) :=
  of_frame rfl (by decide) fun _ => by simp
theorem modeSet (tag : Byte) (mode : Byte) : Statement (.modeSet tag mode) :=
  of_frame rfl (by decide) fun _ => by simp
theorem restart (tag : Byte) : Statement (.restart tag) :=
  of_frame rfl (by decide) fun _ => by simp
theorem timeSet (tag : Byte) (utc : Word) (offset : Half) : Statement (.timeSet tag utc offset) :=
  of_frame rfl (by decide) fun _ => by simp [length_half, length_word]
theorem clockRead (tag : Byte) : Statement (.clockRead tag) :=
  of_frame rfl (by decide) fun _ => by simp
theorem faultRead (tag : Byte) : Statement (.faultRead tag) :=
  of_frame rfl (by decide) fun _ => by simp
theorem faultClear (tag : Byte) (names : Half) : Statement (.faultClear tag names) :=
  of_frame rfl (by decide) fun _ => by simp [length_half]
theorem servicePut (tag : Byte) (r : ServiceReq) : Statement (.servicePut tag r) := by
  refine of_frame rfl (by decide) fun w => ?_
  have h : r.comps.length ≤ 255 := by simpa [Instr.wf, ServiceReq.wf] using w
  have f : (r.comps.flatMap fun c => [c.kind] ++ half c.tag).length = 3 * r.comps.length :=
    length_flatMap_const 3 _ (fun c => by simp [length_half]) _
  simp only [serviceFields, List.length_append, f, length_half, length_u8, List.length_cons, List.length_nil]
  omega
theorem serviceDrop (tag : Byte) (sel : Byte) (num : Half) : Statement (.serviceDrop tag sel num) :=
  of_frame rfl (by decide) fun _ => by simp [length_half]
theorem serviceRead (tag : Byte) (sel : Byte) (num : Half) : Statement (.serviceRead tag sel num) :=
  of_frame rfl (by decide) fun _ => by simp [length_half]
theorem tune (tag : Byte) (slot : Byte) (sel : Byte) (num : Half) (force : Byte) :
    Statement (.tune tag slot sel num force) :=
  of_frame rfl (by decide) fun _ => by simp [length_half]
theorem stop (tag : Byte) (slot : Byte) (force : Byte) : Statement (.stop tag slot force) :=
  of_frame rfl (by decide) fun _ => by simp
theorem slotStatus (tag : Byte) (slot : Byte) : Statement (.slotStatus tag slot) :=
  of_frame rfl (by decide) fun _ => by simp
theorem carrierPut (tag : Byte) (r : CarrierReq) : Statement (.carrierPut tag r) :=
  of_frame rfl (by decide) fun _ => by simp [carrierFields, length_word]
theorem carrierDrop (tag : Byte) (index : Byte) : Statement (.carrierDrop tag index) :=
  of_frame rfl (by decide) fun _ => by simp
theorem carrierRead (tag : Byte) (index : Byte) : Statement (.carrierRead tag index) :=
  of_frame rfl (by decide) fun _ => by simp
theorem qualityClassSet (tag : Byte) (r : ClassReq) : Statement (.qualityClassSet tag r) :=
  of_frame rfl (by decide) fun _ => by simp [classFields, length_half]
theorem qualityClassRead (tag : Byte) (cls : Byte) : Statement (.qualityClassRead tag cls) :=
  of_frame rfl (by decide) fun _ => by simp
theorem laneEnable (tag : Byte) (lane : Byte) (on : Byte) : Statement (.laneEnable tag lane on) :=
  of_frame rfl (by decide) fun _ => by simp
theorem laneStatus (tag : Byte) (lane : Byte) : Statement (.laneStatus tag lane) :=
  of_frame rfl (by decide) fun _ => by simp
theorem arbiterRead (tag : Byte) : Statement (.arbiterRead tag) :=
  of_frame rfl (by decide) fun _ => by simp
theorem filterRead (tag : Byte) (lane : Byte) : Statement (.filterRead tag lane) :=
  of_frame rfl (by decide) fun _ => by simp
theorem keyStatus (tag : Byte) (slot : Byte) : Statement (.keyStatus tag slot) :=
  of_frame rfl (by decide) fun _ => by simp
theorem buy (tag : Byte) (profile : Byte) (pin : Pin) (slot : Byte) (sid : Half) (eid : Word) :
    Statement (.buy tag profile pin slot sid eid) :=
  of_frame rfl (by decide) fun _ => by simp [length_half, length_word, length_pinBytes]
theorem quote (tag : Byte) (profile : Byte) (sid : Half) (eid : Word) :
    Statement (.quote tag profile sid eid) :=
  of_frame rfl (by decide) fun _ => by simp [length_half, length_word]
theorem purchasesRead (tag : Byte) (fromSeq : Word) (count : Byte) :
    Statement (.purchasesRead tag fromSeq count) :=
  of_frame rfl (by decide) fun _ => by simp [length_word]
theorem accessStatus (tag : Byte) : Statement (.accessStatus tag) :=
  of_frame rfl (by decide) fun _ => by simp
theorem tierRead (tag : Byte) : Statement (.tierRead tag) :=
  of_frame rfl (by decide) fun _ => by simp
theorem grantRead (tag : Byte) : Statement (.grantRead tag) :=
  of_frame rfl (by decide) fun _ => by simp
theorem guidePut (tag : Byte) (r : GuideReq) : Statement (.guidePut tag r) :=
  of_frame rfl (by decide) fun _ => by simp [guideFields, length_half, length_word]
theorem guideDrop (tag : Byte) (sid : Half) (eid : Word) : Statement (.guideDrop tag sid eid) :=
  of_frame rfl (by decide) fun _ => by simp [length_half, length_word]
theorem guideList (tag : Byte) (sid : Half) (fromTime : Word) (count : Byte) :
    Statement (.guideList tag sid fromTime count) :=
  of_frame rfl (by decide) fun _ => by simp [length_half, length_word]
theorem guideNow (tag : Byte) (sid : Half) : Statement (.guideNow tag sid) :=
  of_frame rfl (by decide) fun _ => by simp [length_half]
theorem guideStatus (tag : Byte) : Statement (.guideStatus tag) :=
  of_frame rfl (by decide) fun _ => by simp
theorem sweepSet (tag : Byte) (on : Byte) (mode : Byte) (dwell : Half) :
    Statement (.sweepSet tag on mode dwell) :=
  of_frame rfl (by decide) fun _ => by simp [length_half]
theorem sweepStep (tag : Byte) : Statement (.sweepStep tag) :=
  of_frame rfl (by decide) fun _ => by simp
theorem unlock (tag : Byte) (slot : Byte) (pin : Pin) (minutes : Byte) :
    Statement (.unlock tag slot pin minutes) :=
  of_frame rfl (by decide) fun _ => by simp [length_pinBytes]
theorem relock (tag : Byte) (slot : Byte) : Statement (.relock tag slot) :=
  of_frame rfl (by decide) fun _ => by simp
theorem profileSelect (tag : Byte) (slot : Byte) (profile : Byte) (pin : Pin) :
    Statement (.profileSelect tag slot profile pin) :=
  of_frame rfl (by decide) fun _ => by simp [length_pinBytes]
theorem profilePut (tag : Byte) (r : ProfileReq) : Statement (.profilePut tag r) := by
  refine of_frame rfl (by decide) fun w => ?_
  have h : r.windows.length ≤ 199 := by simpa [Instr.wf, ProfileReq.wf] using w
  have f : (r.windows.flatMap fun w => [w.mask] ++ half w.start ++ half w.stop).length = 5 * r.windows.length :=
    length_flatMap_const 5 _ (fun c => by simp [length_half]) _
  simp only [profileFields, List.length_append, f, length_half, length_word, length_u8, length_pinBytes,
    List.length_cons, List.length_nil]
  omega
theorem allowanceGrant (tag : Byte) (profile : Byte) (seconds : Word) (pin : Pin) :
    Statement (.allowanceGrant tag profile seconds pin) :=
  of_frame rfl (by decide) fun _ => by simp [length_word, length_pinBytes]
theorem householdSet (tag : Byte) (pin : Pin) (hour : Byte) (d0 : Byte) (d1 : Byte) (d2 : Byte) :
    Statement (.householdSet tag pin hour d0 d1 d2) :=
  of_frame rfl (by decide) fun _ => by simp [length_pinBytes]
theorem profileRead (tag : Byte) (profile : Byte) : Statement (.profileRead tag profile) :=
  of_frame rfl (by decide) fun _ => by simp
theorem householdRead (tag : Byte) : Statement (.householdRead tag) :=
  of_frame rfl (by decide) fun _ => by simp
theorem cellPut (tag : Byte) (r : CellReq) : Statement (.cellPut tag r) :=
  of_frame rfl (by decide) fun _ => by simp [cellFields]
theorem cellEnable (tag : Byte) (cell : Byte) (on : Byte) (pin : Pin) :
    Statement (.cellEnable tag cell on pin) :=
  of_frame rfl (by decide) fun _ => by simp [length_pinBytes]
theorem cellRead (tag : Byte) (cell : Byte) : Statement (.cellRead tag cell) :=
  of_frame rfl (by decide) fun _ => by simp
theorem schedulePut (tag : Byte) (entry : Byte) (trig : TrigReq) (act : ActReq) :
    Statement (.schedulePut tag entry trig act) := by
  refine of_frame rfl (by decide) fun w => ?_
  have a := length_triggerFields trig
  have b := length_actionFields trig act
  simp only [List.length_append, List.length_cons, List.length_nil]
  omega
theorem scheduleDrop (tag : Byte) (entry : Byte) : Statement (.scheduleDrop tag entry) :=
  of_frame rfl (by decide) fun _ => by simp
theorem scheduleRead (tag : Byte) (entry : Byte) : Statement (.scheduleRead tag entry) :=
  of_frame rfl (by decide) fun _ => by simp
theorem noticeMaskSet (tag : Byte) (mask : Half) : Statement (.noticeMaskSet tag mask) :=
  of_frame rfl (by decide) fun _ => by simp [length_half]
theorem noticeFlagsRead (tag : Byte) (clear : Half) : Statement (.noticeFlagsRead tag clear) :=
  of_frame rfl (by decide) fun _ => by simp [length_half]
theorem unknownKind (tag : Byte) (kind : Byte) : Statement (.unknownKind tag kind) := of_none rfl
theorem linkFrame : Statement .linkFrame := of_none rfl
theorem interByteTimeout : Statement .interByteTimeout := of_none rfl
theorem transmitFrameEnd : Statement .transmitFrameEnd := of_none rfl
theorem lock (lane : Fin 3) (order : Byte) : Statement (.lock lane order) := of_none rfl
theorem laneUnlock (lane : Fin 3) : Statement (.laneUnlock lane) := of_none rfl
theorem sample (lane : Fin 3) (errors : BitVec 12) : Statement (.sample lane errors) := of_none rfl
theorem cell (lane : Fin 3) (bytes : List Byte) : Statement (.cell lane bytes) := of_none rfl
theorem seekFailed (lane : Fin 3) : Statement (.seekFailed lane) := of_none rfl
theorem silenceTimerExpiry (lane : Fin 3) : Statement (.silenceTimerExpiry lane) := of_none rfl
theorem keyTimeout (slot : Fin 5) : Statement (.keyTimeout slot) := of_none rfl
theorem homeRetryExpiry : Statement .homeRetryExpiry := of_none rfl
theorem sweepTimerExpiry : Statement .sweepTimerExpiry := of_none rfl
theorem scheduleRetryExpiry (entry : Fin 24) : Statement (.scheduleRetryExpiry entry) := of_none rfl
theorem patrolVisit : Statement .patrolVisit := of_none rfl
theorem scrubRewrite : Statement .scrubRewrite := of_none rfl
theorem storeWriteComplete : Statement .storeWriteComplete := of_none rfl
theorem secondBoundary : Statement .secondBoundary := of_none rfl
theorem tierExpiry : Statement .tierExpiry := of_none rfl
theorem grantExpiry : Statement .grantExpiry := of_none rfl
theorem previewEnd (slot : Fin 5) : Statement (.previewEnd slot) := of_none rfl
theorem periodRollover : Statement .periodRollover := of_none rfl
theorem dayStartReset : Statement .dayStartReset := of_none rfl
theorem prune : Statement .prune := of_none rfl
theorem scheduleTrigger (entry : Fin 24) : Statement (.scheduleTrigger entry) := of_none rfl
theorem runEnd (entry : Fin 24) : Statement (.runEnd entry) := of_none rfl
theorem lockoutEnd (profile : Fin 8) : Statement (.lockoutEnd profile) := of_none rfl
theorem unlockEnd (slot : Fin 3) : Statement (.unlockEnd slot) := of_none rfl
theorem allowanceOut (profile : Fin 8) : Statement (.allowanceOut profile) := of_none rfl
theorem profileUnitWrite : Statement .profileUnitWrite := of_none rfl
theorem receivedByte (b : Byte) (stop : Bool) : Statement (.receivedByte b stop) := of_none rfl

end Sys2Proof.Laws.RequestKind
end

