-- ==== Sys2Proof/Tests/Slice0.lean ====
section
/-! SUPPORT. Tests: what WellFormed refuses, for each statement concrete states and operands that meet its
hypotheses clause by clause, and single steps whose expected values are the spec's worked sequences or hand
computations from its rules. -/

namespace Sys2Proof.Tests

set_option Elab.async false

open Sys2Proof Sys2Proof.Machine

/-! ### What WellFormed refuses -/

/-- A component count of 256 does not fit its byte (R182). -/
theorem test_wf_components : Instr.wf (.servicePut 0
    { channel := 1, sid := 1, carrier := 0, access := 0, rating := 0
      comps := List.replicate 256 ⟨0, 16⟩ }) = false := by decide +kernel

/-- A body of 200 windows passes 1,020 bytes (R182). -/
theorem test_wf_windows : Instr.wf (.profilePut 0
    { profile := 1, masterPin := ⟨0, 0, 0, 0⟩, inUse := 1, newPin := ⟨0, 0, 0, 0⟩, pinToSelect := 0
      buyNeedsPin := 0, ceiling := 6, windowMode := 0, windows := List.replicate 200 ⟨1, 0, 60⟩
      allowancePresent := 0, allowance := 0, capPresent := 0, cap := 0 }) = false := by decide +kernel

/-- A trigger of kind 0 is AT_TIME, none out of range (R167). -/
theorem test_wf_trigger : Instr.wf (.schedulePut 0 0 (.other 0) .remind) = false := by decide +kernel

/-- After a trigger out of range no action is read (R167). -/
theorem test_wf_no_action : Instr.wf (.schedulePut 0 0 (.other 3) .wake) = false := by decide +kernel

/-- A trail of three bytes does not fit its field (08 section 8.5). -/
theorem test_wf_trail : Instr.wf (.schedulePut 0 0 (.auxRise 5) (.record 3 1 65536)) = false := by decide +kernel

/-- An action of kind 1 is VIEW_TUNE, none out of range (R167). -/
theorem test_wf_action : Instr.wf (.schedulePut 0 0 (.atTime 0) (.other 1)) = false := by decide +kernel

/-- Kind 0x01 names MODE_SET, and kind 0x40 is no request's (R184 test 3). -/
theorem test_wf_unknown : Instr.wf (.unknownKind 0 0x01) = false ∧ Instr.wf (.unknownKind 0 0x40) = false
    ∧ Instr.wf (.unknownKind 0 0x03) = true := by decide +kernel

/-- A cell has 128 bytes (00 section 4). -/
theorem test_wf_cell : Instr.wf (.cell 0 (List.replicate 127 0)) = false := by decide +kernel

/-! ### States -/

/-- The state after a command. -/
def after (i : Instr) (s : State) : State := match exec i s with
  | .next t => t
  | _ => {}

/-- The body of the last reply. -/
def said (s : State) : List Byte := match s.link.replies.getLast? with
  | some r => r.body
  | none => []

def clearService : Service :=
  { sid := 7, channel := 100, carrier := 3, scrambled := false, rating := 2, comps := [⟨.video, 16⟩] }
def scrambledService : Service :=
  { sid := 8, channel := 200, carrier := 4, scrambled := true, rating := 2, comps := [⟨.video, 17⟩] }
def plainCarrier : Carrier := { index := 3, freq := 48000, cls := 0, guide := false, home := false }
def guideCarrier : Carrier := { index := 4, freq := 60000, cls := 0, guide := true, home := false }
def homeCarrier : Carrier := { index := 5, freq := 70000, cls := 0, guide := false, home := true }

/-- In SERVICE with the clock known, two services, three carriers, every lane IDLE and every slot FREE. -/
def base : State :=
  { booted := true, mode := .service
    services := [clearService, scrambledService], carriers := [plainCarrier, guideCarrier, homeCarrier]
    clock := { known := true, utc := 1000000, uptimeMs := 5500 }
    access := { deviceKey := .usable, purse := { balance := 120, limit := 500 } }
    store := { units := { formatted := true } } }

/-- `base` with one slot changed. -/
def withSlot (k : Fin 5) (x : Slot) : State := { base with slots := base.slots.set k x }

/-- `base` with one lane changed. -/
def withLane (l : Fin 3) (x : Lane) : State := { base with lanes := base.lanes.set l x }

/-- `base` with one schedule entry changed. -/
def withEntry (n : Fin 24) (e : Entry) : State := { base with schedule := base.schedule.set n e }

/-- `base` with one profile changed. -/
def withProfile (p : Fin 8) (x : Profile) : State :=
  { base with parental := { base.parental with profiles := base.parental.profiles.set p x } }

/-- Lane 1 LOCKED on carrier 3, with one sample of the last accumulation missing. -/
def lockedLane : Lane :=
  { state := .locked, carrier := some 3, order := 4, silenceTimer := some 6500, accN := some 4, accCount := 3
    accSum := 77, grade := some .good }

/-- Lane 1 SEEKING carrier 4 under order number 5. -/
def seekingLane : Lane := { state := .seeking, carrier := some 4, order := 5, seekTimer := some 7000 }

/-- A state that takes requests, by its fields. -/
theorem ready_of {s : State} (h : (s.power, s.restarting, s.auxRises) = (true, false, []))
    (m : s.mode ≠ .boot) (r : s.link.replies.length < 8) : s.ready := by
  cases hp : s.power <;> cases hr : s.restarting <;> simp_all
  exact ⟨⟨hp, hr, m, h⟩, r⟩

theorem base_ready : base.ready := ready_of rfl (by decide) (by decide)

theorem base_noRise : base.noRise := by unfold State.noRise; decide

theorem base_noWake : base.noWake := by unfold State.noWake; decide

theorem pin_ok (a b c d : Fin 10) :
    Pin.ok ⟨BitVec.ofNat 8 a, BitVec.ofNat 8 b, BitVec.ofNat 8 c, BitVec.ofNat 8 d⟩ := by
  constructor <;> simp <;> omega

/-- A PIN with a digit out of range. -/
def badPin : Pin := ⟨0, 0, 0, 10⟩

theorem badPin_not_ok : ¬badPin.ok := fun h => absurd h.d3 (by decide)

theorem zeroPin_ok : Pin.ok ⟨0, 0, 0, 0⟩ := ⟨by decide, by decide, by decide, by decide⟩

theorem ninePin_ok : Pin.ok ⟨9, 9, 9, 9⟩ := ⟨by decide, by decide, by decide, by decide⟩

/-! ### Hypotheses met: the taking of commands, the link and its frames -/

theorem witness_StepTakesFront : ({ base with pending := [.prune, .bootEnd] }).pending = .prune :: [.bootEnd] := rfl

/-- What nature's free values reach in a millisecond: the guide places, the retained units and its own draws. -/
theorem natureWork_touches (s : State) : ∃ places units nature, natureWork s = { s with
    guide := { s.guide with places := places }, store := { s.store with units := units }, nature := nature } := by
  unfold natureWork decay disturb
  cases Config.guideDisturbance s.nature.drawn <;> split <;> exact ⟨_, _, _, rfl⟩

/-- `base` at an uptime, with slot 2's key timer set to end at another. -/
def timed (uptimeMs : Nat) (ends : Option Nat) : State :=
  { withSlot 2 { state := .acquiring, service := some 8, carrier := some 4, lane := some 1, keyTimer := ends } with
    clock := { base.clock with uptimeMs } }

/-- No second ends and nothing is due; the key timer of slot 2 alone is due; a second ends and nothing is due. -/
theorem witness_CommandsComplete :
    base.pending = [] ∧ base.power = true ∧ base.live ∧ 1 ≤ base.sweep.dwell
    ∧ (¬ (base.clock.uptimeMs + 1) % 1000 = 0 ∧ base.passed.dueRows = [])
    ∧ ((timed 5500 (some 5501)).live ∧ (timed 5500 (some 5501)).passed.dueRows = [.keyTimeout 2])
    ∧ (timed 5999 (some 6001)).live ∧ ((timed 5999 (some 6001)).clock.uptimeMs + 1) % 1000 = 0
    ∧ (timed 5999 (some 6001)).passed.dueRows = [] := by
  have due (s : State) (l : List Instr) (h : ∀ places units nature,
      ({ s.clearOut with guide := { s.guide with places := places }, store := { s.store with units := units }
                         nature := nature, clock := { s.clock with uptimeMs := s.clock.uptimeMs + 1 } }).dueRows = l) :
      s.passed.dueRows = l := by
    obtain ⟨places, units, nature, e⟩ := natureWork_touches s.clearOut
    unfold State.passed
    rw [e]
    exact h places units nature
  exact ⟨rfl, rfl, base_ready.1, by decide, ⟨by decide, due _ _ fun _ _ _ => rfl⟩,
    ⟨⟨rfl, rfl, show Mode.service ≠ .boot by decide, rfl⟩, due _ _ fun _ _ _ => rfl⟩,
    ⟨rfl, rfl, show Mode.service ≠ .boot by decide, rfl⟩, by decide, due _ _ fun _ _ _ => rfl⟩

/-- A request with the most components a body can carry, and the empty body. -/
theorem witness_BodySpellsRequest :
    (Instr.wf (.identify 9) = true ∧ requestFrame (.identify 9) = some (0x00, 9, []))
    ∧ Instr.wf (.schedulePut 1 23 (.auxRise 7) (.record 3 7 65535)) = true
    ∧ requestFrame (.schedulePut 1 23 (.auxRise 7) (.record 3 7 65535))
      = some (0x18, 1, [23, 2, 7, 0, 3, 0, 7, 255, 255]) := by decide +kernel

/-- `base` whose link heard its last byte now. -/
def listening (r : Receiver) : State := { base with link := { receiver := r, lastByteMs := 5500 } }

theorem witness_FrameBytesMakeRequest :
    Instr.wf (.modeSet 7 1) = true ∧ (requestBytes (.modeSet 7 1)).isSome = true
    ∧ (listening .hunt).linkOpen = true ∧ (listening .hunt).link.receiver = .hunt
    ∧ (listening .hunt).link.lastByteMs = (listening .hunt).clock.uptimeMs ∧ (listening .hunt).out = []
    ∧ (listening .hunt).startTx = listening .hunt := by decide +kernel

/-- Each state of the receiver; the lengths 1,020 and 1,021; a body of length 0, its last byte and one before;
a check that does not match. -/
theorem witness_ReceiverTakesByte :
    (listening .hunt).linkOpen = true ∧ (listening (.length none)).linkOpen = true
    ∧ 256 * (3 : Byte).toNat + (252 : Byte).toNat ≤ 1020 ∧ 1020 < 256 * (3 : Byte).toNat + (253 : Byte).toNat
    ∧ (listening (.length (some 3))).link.receiver = .length (some 3)
    ∧ (listening (.header 0 0 none)).link.receiver = .header 0 0 none
    ∧ (listening (.header 0 0 (some 5))).link.receiver = .header 0 0 (some 5)
    ∧ (listening (.header 0 2 (some 5))).link.receiver = .header 0 2 (some 5)
    ∧ (listening (.body 0 2 5 1 [])).link.receiver = .body 0 2 5 1 []
    ∧ (listening (.body 0 2 5 1 [7])).link.receiver = .body 0 2 5 1 [7]
    ∧ (listening (.check 0 0 5 1 [] none)).link.receiver = .check 0 0 5 1 [] none
    ∧ u16 (crc16 ([0, 0, 5, 1] ++ [])).toNat ≠ [0, 0]
    ∧ (listening (.check 0 0 5 1 [] (some 0))).link.receiver = .check 0 0 5 1 [] (some 0) := by decide +kernel

/-- `base` with a number of replies queued. -/
def withReplies (n : Nat) (m : Mode) : State :=
  { base with mode := m, link := { replies := List.replicate n ⟨0x05, 1, [0], .ready⟩ } }

theorem witness_FramesTurnedAway :
    ((requestFrame (.clockRead 1)).isSome = true ∧ (withReplies 8 .service).linkOpen = true
      ∧ 8 ≤ (withReplies 8 .service).link.replies.length)
    ∧ (requestFrame (.clockRead 1) = some (0x05, 1, []) ∧ (withReplies 7 .boot).linkOpen = true
      ∧ (withReplies 7 .boot).mode = .boot ∧ (withReplies 7 .boot).link.replies.length < 8) := by decide +kernel

/-- A part in BOOT with seven replies, before the last byte of a frame with the body `[9]` or with none. -/
def lastByte (kind x : Byte) (body : List Byte) : State :=
  { withReplies 7 .boot with
    link := { (withReplies 7 .boot).link with receiver := .check 0 (BitVec.ofNat 8 body.length) kind 1 body (some x) } }

/-- Kind 0x40, and CLOCK_READ with a byte of body; bodies too short for a count, with a count of other parts, and
of SCHEDULE_PUT with its trigger's fields cut and one byte too long. -/
theorem witness_FramesTurnedAway_frames :
    (lastByte 0x40 0xA5 []).linkOpen = true ∧ (lastByte 0x40 0xA5 []).link.replies.length < 8
    ∧ u16 (crc16 ([0, 0, 0x40, 1] ++ [])).toNat = [153, 45] ∧ 0x40 ≤ (0x40 : Byte).toNat
    ∧ u16 (crc16 ([0, 1, 0x05, 1] ++ [9])).toNat = [46, 80] ∧ wrongLength 0x05 [9]
    ∧ wrongLength 0x10 [0, 0, 0, 0, 0, 0, 0] ∧ wrongLength 0x10 [0, 0, 0, 0, 0, 0, 0, 1, 0, 0]
    ∧ wrongLength 0x08 (List.replicate 24 0) ∧ wrongLength 0x18 [0, 2, 5] ∧ wrongLength 0x18 [0, 2, 5, 2, 0] :=
  ⟨by decide +kernel, by decide +kernel, by decide +kernel, by decide, by decide +kernel,
    .inl ⟨0, by decide, by decide⟩, .inr (.inr (.inl ⟨rfl, by decide⟩)), .inr (.inr (.inl ⟨rfl, by decide⟩)),
    .inr (.inl ⟨rfl, by decide⟩), .inr (.inr (.inr ⟨rfl, .inr ⟨3, rfl, .inl (by decide)⟩⟩)),
    .inr (.inr (.inr ⟨rfl, .inr ⟨3, rfl, .inr ⟨1, rfl, by decide⟩⟩⟩))⟩

theorem witness_OneReplyEach :
    requestFrame (.prune) = none ∧ requestFrame (.restart 3) = some (0x02, 3, [])
    ∧ (withReplies 7 .service).linkOpen = true ∧ (withReplies 7 .service).link.replies.length < 8 := by
  decide +kernel

/-- `base` sending nothing, with one reply and one notice queued. -/
def choosing (h : Hold) : State :=
  { base with link := { replies := [⟨0x05, 1, [0], h⟩], notices := [⟨.slot, some 0, [1], 2⟩] } }

/-- A hand-over. -/
def handed (n : Nat) : HandOver := ⟨.purchase (Fin.ofNat 64 n), BitVec.ofNat 64 n, .purchase none⟩

/-- A unit not written yet: handed over as number 1, with nothing written since. -/
def waits : Hold := .written (.purchase 1) 1

theorem witness_TransmitterRuns :
    ({ base with link := { tx := .reply [1] } }).power = true
    ∧ ({ base with link := { tx := .notice [1] } }).power = true
    ∧ base.link.tx = .idle
    ∧ (choosing .ready).link.replies = [⟨0x05, 1, [0], .ready⟩]
    ∧ ({ base with restarting := true }).restarting = true ∧ ({ base with restarting := true }).link.replies = []
    ∧ (choosing waits).link.notices = [⟨.slot, some 0, [1], 2⟩]
    ∧ (({ choosing waits with store := { base.store with queue := [⟨.purchase 1, 1, .purchase none⟩] } }).store.holds
      (.purchase 1) 1) = true
    ∧ base.link.notices = [] ∧ base.link.replies = [] := by decide +kernel

/-- A store with purchase unit 18 waiting to enter the queue. -/
def lined (h : Hold) (notices : List Notice) : State :=
  { choosing h with store := { base.store with waiting := [handed 18] }
                    link := { (choosing h).link with notices := notices } }

/-- A head reply waits to enter the queue, or to be written, with a notice queued and with none. -/
theorem witness_TransmitterRuns_waits (notices : List Notice) :
    (lined (.entered [(.purchase 18, 18)]) notices).link.notices = notices
    ∧ (∀ r ∈ (lined (.entered [(.purchase 18, 18)]) notices).link.replies.head?,
      (lined (.entered [(.purchase 18, 18)]) notices).keepsWaiting r)
    ∧ ∀ r ∈ (lined (.written (.purchase 18) 18) notices).link.replies.head?,
      (lined (.written (.purchase 18) 18) notices).keepsWaiting r := by
  refine ⟨rfl, fun r h => ?_, fun r h => ?_⟩ <;> cases h
  · exact .inl ⟨_, rfl, (.purchase 18, 18), .head _, handed 18, .head _, rfl⟩
  · exact .inr ⟨_, _, rfl, rfl⟩

/-- A head whose units have entered the queue, one whose unit is written, and one that waits for nothing; while RESTART
waits too, with a reply left. -/
theorem witness_TransmitterRuns_over (r : Bool) :
    (∀ x ∈ (choosing (.entered [(.purchase 18, 18)])).link.replies.head?,
      ¬ State.keepsWaiting { choosing (.entered [(.purchase 18, 18)]) with restarting := r } x)
    ∧ (∀ x ∈ (choosing waits).link.replies.head?, ¬ State.keepsWaiting { choosing waits with restarting := r } x)
    ∧ (∀ x ∈ (choosing .ready).link.replies.head?, ¬ State.keepsWaiting { choosing .ready with restarting := r } x)
    ∧ ¬ (({ lined waits [] with restarting := true }).restarting = true
      ∧ ({ lined waits [] with restarting := true }).link.replies = []) := by
  refine ⟨fun x h => ?_, fun x h => ?_, fun x h => ?_, fun h => by cases h.2⟩ <;> cases h <;>
    rintro (⟨_, e, _, _, _, m, _⟩ | ⟨u, m, e, d⟩)
  · cases m
  · cases e
  · cases e
  · cases e
    revert r
    decide +kernel
  · cases e
  · cases e

/-- A queue of 32 notices of other subjects, one of 31, and one that holds the subject. -/
theorem witness_NoticesRaisedAndMasked :
    (∀ m ∈ (List.replicate 32 (⟨.slot, some 3, [], 1⟩ : Notice)), ¬(m.kind = .lane ∧ m.subject = some 2))
    ∧ (List.replicate 31 (⟨.slot, some 3, [], 1⟩ : Notice)).length < 32
    ∧ 32 ≤ (List.replicate 32 (⟨.slot, some 3, [], 1⟩ : Notice)).length
    ∧ (∀ m ∈ ([] ++ [⟨.slot, some 1, [], 1⟩] : List Notice), ¬(m.kind = .slot ∧ m.subject = some 0))
    ∧ ({} : Link).silent[NoticeKind.lane.index] = false
    ∧ ({ silent := Vector.replicate 10 true } : Link).silent[NoticeKind.lane.index] = true
    ∧ (1023 : Half).toNat ≤ 1023 ∧ 1023 < (1024 : Half).toNat := by decide +kernel

theorem witness_IdentifyReports :
    ({} : State).linkOpen = true ∧ ({} : State).mode = .boot ∧ ({} : State).link.replies.length < 8
    ∧ ({} : State).auxRises = [] := by decide +kernel

/-! ### Hypotheses met: power, the store, modes, clock, faults -/

/-- A store with the first unit of a line under way, 16 queued and one waiting. -/
def busyStore : Store :=
  { writing := some (handed 1, 8), queue := (List.range 16).map fun i => handed (i + 2), waiting := [handed 18] }

theorem witness_StoreQueuesWrites :
    ({ base with store := busyStore }).power = true
    ∧ busyStore.writing = some (handed 1, 8)
    ∧ busyStore.queue ++ busyStore.waiting = handed 2 :: ((List.range 16).map fun i => handed (i + 3))
    ∧ ({ writing := some (handed 1, 8) } : Store).queue ++ ({ writing := some (handed 1, 8) } : Store).waiting = []
    ∧ ({} : Store).writing = none := by decide +kernel

theorem witness_PowerLossKeepsStore :
    ({ base with store := busyStore }).power = true ∧ ({ base with power := false }).power = false := by
  decide +kernel

theorem witness_PowerOnBoots :
    ({ base with power := false }).power = false ∧ ({ base with power := false }).store.units.formatted = true
    ∧ ({ ({} : State) with power := false }).power = false ∧ ({} : State).store.units.formatted = false := by
  decide +kernel

theorem witness_BootEnds :
    ({ base with mode := .boot }).mayEndBoot = true ∧ ({ base with mode := .boot }).restarting = false
    ∧ State.noRise { base with mode := .boot }
    ∧ State.reset.mayEndBoot = false :=
  ⟨by decide +kernel, rfl, base_noRise, by decide +kernel⟩

theorem witness_RestartReboots :
    base.ready ∧ ({ base with restarting := true }).mayReboot = true ∧ base.mayReboot = false
    ∧ Instr.prune ∉ [Instr.powerOn, .powerLoss, .enterBoot, .storeWriteComplete, .transmitFrameEnd, .secondBoundary]
    ∧ ({ base with restarting := true }).power = true ∧ ({ base with restarting := true }).auxRises = [] :=
  ⟨base_ready, by decide +kernel, by decide +kernel, by decide, rfl, rfl⟩

/-- A store whose access unit is stamped 400 and whose purchase unit of place 58 is stamped 399 or 401
(9.5). -/
def purchaseUnits (n : StoreNumber) : Units :=
  { formatted := true
    access := ⟨{ balance := 422 }, 400, true⟩
    purchases := (Vector.replicate 64 ⟨none, 0, true⟩).set 58
      ⟨some ⟨{ balance := 122 }, ⟨58, 1, 7, 0, none, 300, 0⟩, ⟨1, 7, 0⟩, 300⟩, n, true⟩ }

theorem witness_BootTakesLatestPurse :
    ({} : Units).access.sound = false
    ∧ ((purchaseUnits 399).access.sound = true
      ∧ ∀ c ∈ (purchaseUnits 399).commits, c.1 ≤ (purchaseUnits 399).access.number.toNat)
    ∧ (∃ c ∈ (purchaseUnits 401).commits, (purchaseUnits 401).access.sound = true
      ∧ (purchaseUnits 401).access.number.toNat < c.1
      ∧ ∀ d ∈ (purchaseUnits 401).commits, d.1 < c.1 ∨ d = c) := by decide +kernel

theorem witness_ModeSetMoves :
    base.ready ∧ ((0 : Byte) ≠ 1 ∧ (0 : Byte) ≠ 2 ∧ (0 : Byte) ≠ 3)
    ∧ ((4 : Byte) ≠ 1 ∧ (4 : Byte) ≠ 2 ∧ (4 : Byte) ≠ 3)
    ∧ ((2 : Byte), Mode.service) ∈ [((1 : Byte), Mode.config), (2, Mode.service), (3, Mode.standby)]
    ∧ Mode.service = base.mode ∧ Mode.config ≠ base.mode ∧ base.noWake ∧ base.noRise
    ∧ (∀ k, (base.slot k).state = .free → (base.slot k).lane = none) :=
  ⟨base_ready, by decide, by decide, by decide, rfl, by decide, base_noWake, base_noRise, by decide +kernel⟩

theorem witness_OnlyModeSetMovesMode :
    base.live ∧ base.noWake ∧ exec .secondBoundary base = .next (after .secondBoundary base) :=
  ⟨base_ready.1, base_noWake, rfl⟩

theorem witness_TimeSetSteps :
    State.ready { base with clock := { base.clock with source := .stream } }
    ∧ ({ base with clock := { base.clock with source := .stream } }).clock.source = .stream
    ∧ base.ready ∧ base.clock.source ≠ .stream :=
  ⟨ready_of rfl (by decide) (by decide), rfl, base_ready, by decide⟩

theorem witness_SecondBoundaryAdvances :
    base.power = true ∧ base.live
    ∧ ∀ n, (base.entry n).state ≠ .armed ∧ (base.entry n).state ≠ .running :=
  ⟨rfl, base_ready.1, by decide +kernel⟩

theorem witness_FaultClearClears : base.ready ∧ 1023 < (1024 : Half).toNat ∧ (1023 : Half).toNat ≤ 1023 :=
  ⟨base_ready, by decide, by decide⟩

theorem witness_ReadsChangeNothing :
    base.ready ∧ (base.reads (.slotStatus 1 4)).isSome = true
    ∧ base.reads (.slotStatus 1 5) = some (0x16, 1, [3]) :=
  ⟨base_ready, by decide +kernel⟩

/-! ### Hypotheses met: services and slots -/

/-- The body of a SERVICE_PUT. -/
def servicePutBody (channel sid : Half) (carrier access rating : Byte) (n : Nat) : ServiceReq :=
  { channel, sid, carrier, access, rating, comps := (List.range n).map fun i => ⟨0, BitVec.ofNat 16 (16 + i)⟩ }

theorem servicePut_inRange {channel sid : Half} {carrier access rating : Byte} {n : Nat}
    (h : sid ≠ 0 ∧ (1 ≤ channel.toNat ∧ channel.toNat ≤ 9999) ∧ carrier.toNat ≤ 63 ∧ (access = 0 ∨ access = 1))
    (m : 1 ≤ (servicePutBody channel sid carrier access rating n).comps.length
      ∧ (servicePutBody channel sid carrier access rating n).comps.length ≤ 6)
    (c : (∀ c ∈ (servicePutBody channel sid carrier access rating n).comps,
        c.kind.toNat ≤ 2 ∧ 16 ≤ c.tag.toNat ∧ c.tag.toNat ≤ 1023)
      ∧ ((servicePutBody channel sid carrier access rating n).comps.map (·.tag)).Nodup) :
    (servicePutBody channel sid carrier access rating n).inRange :=
  ⟨h.1, h.2.1, h.2.2.1, h.2.2.2, m, c.1, c.2⟩

/-- The entry of a SERVICE_PUT with one component. -/
def serviceEntry (channel sid carrier : Nat) (rating : Nat) : Service :=
  { sid, channel, carrier, scrambled := false, rating, comps := [⟨.video, 16⟩] }

/-- The service map with 512 entries, none of them on channel 9999. -/
def fullMap : State :=
  { base with services := (List.range 512).map fun i => serviceEntry (i + 1) (i + 1) 3 2 }

/-- Out of range by its service id; a carrier that is empty; a channel taken; a full map; a new entry on the top
channel; an entry replaced. -/
theorem witness_ServicesEdited_put :
    base.ready ∧ ¬(servicePutBody 1 0 3 0 2 1).inRange
    ∧ (servicePutBody 9999 9 3 0 9 1).inRange
    ∧ (servicePutBody 9999 9 3 0 9 1).writes (serviceEntry 9999 9 3 6)
    ∧ base.carrier? 6 = none ∧ (base.carrier? 3).isSome = true
    ∧ (∃ o ∈ base.services, o.channel = 200 ∧ o.sid ≠ 9)
    ∧ (∀ o ∈ base.services, o.channel = 9999 → o.sid = 9) ∧ (∀ o ∈ base.services, o.sid ≠ 9)
    ∧ base.services.length < 512
    ∧ fullMap.ready ∧ 512 ≤ fullMap.services.length ∧ (∀ o ∈ fullMap.services, o.sid ≠ 9998)
    ∧ keyFind (·.sid) 7 base.services = some clearService :=
  ⟨base_ready, fun h => h.sid rfl,
    servicePut_inRange (by decide) (by decide) (by decide),
    ⟨rfl, rfl, rfl, by decide, rfl, rfl⟩,
    by decide +kernel, by decide +kernel, by decide +kernel, by decide +kernel, by decide +kernel, by decide,
    ready_of rfl (by decide) (by decide), by decide +kernel⟩

theorem witness_ServicesEdited_drop :
    base.findService 0 100 = some clearService ∧ base.findService 1 9 = none
    ∧ ¬((2 : Byte) = 0 ∧ 1 ≤ (1 : Half).toNat ∧ (1 : Half).toNat ≤ 9999 ∨ (2 : Byte) = 1 ∧ 1 ≤ (1 : Half).toNat)
    ∧ (1 ≤ (9999 : Half).toNat ∧ (9999 : Half).toNat ≤ 9999) ∧ ¬ (10000 : Half).toNat ≤ 9999
    ∧ (∀ k, (base.slot k).state = .free → (base.slot k).service = none) := by decide +kernel

/-- A slot under a schedule entry. -/
def recording (state : SlotState) : Slot :=
  { state, service := some 7, carrier := some 3, lane := some 0, origin := .schedule 2 }

theorem outSlot_base (k : Fin 5) : base.outSlot k :=
  ⟨by revert k; decide +kernel, .inl (by revert k; decide +kernel), fun _ h => by cases h⟩

theorem witness_TunesTaken :
    base.ready ∧ 5 ≤ (5 : Byte).toNat ∧ 2 ≤ (2 : Byte).toNat ∧ (4 : Byte).toNat = (4 : Fin 5).val
    ∧ State.ready { base with mode := .standby } ∧ ({ base with mode := .standby }).mode ≠ .service
    ∧ base.findService 0 101 = none
    ∧ base.findService 0 100 = some clearService ∧ (base.carrier? clearService.carrier).isSome = true
    ∧ (({ base with carriers := [] }).carrier? clearService.carrier) = none
    ∧ (((withSlot 4 (recording .presenting)).slot 4).service = some clearService.sid
      ∧ ((withSlot 4 (recording .presenting)).slot 4).state ≠ .faulted)
    ∧ ((withSlot 4 (recording .faulted)).slot 4).state = .faulted
    ∧ ((withSlot 4 (recording .faulted)).slot 4).origin = .schedule 2 :=
  ⟨base_ready, by decide, by decide, by decide, ready_of rfl (by decide) (by decide), by decide +kernel⟩

/-- Every lane in use: lane 0 by slot 0, lane 1 by slot 2 and the sweep, lane 2 by slot 4; a queue. -/
def crowded (queue : List Waiter) : State :=
  { base with
    lanes := #v[{ state := .locked, carrier := some 5 }, { state := .seeking, carrier := some 4 },
      { state := .locked, carrier := some 5 }]
    slots := #v[{ state := .held, reason := .permitOff, service := some 8, carrier := some 5, lane := some 0 }, {},
      { state := .tuning, service := some 8, carrier := some 4, lane := some 1, retune := 2 }, {},
      { state := .presenting, service := some 8, carrier := some 5, lane := some 2 }]
    sweep := { on := true, state := .dwell, lane := some 1, position := some 4 }
    arb := { queue } }

theorem crowded_taken (k : Fin 5) (q : List Waiter) : (crowded q).tuneTaken (BitVec.ofNat 8 k) 0 0 100 k clearService :=
  ⟨rfl, by revert k; decide, by decide, by decide, show base.findService 0 100 = _ by decide +kernel,
    show (base.carrier? clearService.carrier).isSome by decide +kernel,
    .inl (show ((crowded []).slot k).service ≠ _ by revert k; decide +kernel),
    .inl (show ((crowded []).slot k).origin = _ by revert k; decide +kernel), rfl, base_noRise⟩

theorem crowded_ready (q : List Waiter) : (crowded q).ready :=
  ⟨⟨rfl, rfl, show Mode.service ≠ .boot by decide, rfl⟩, show 0 < 8 by decide⟩

/-- Slots 3 and 1, which have no lane, preempt and wait; slot 2 shares its lane; slot 0 is its lane's only user. -/
theorem witness_TunesTaken_crowded :
    (crowded []).ready ∧ (crowded []).tuneTaken 3 0 0 100 3 clearService
    ∧ ((crowded []).slot 3).lane = none ∧ (crowded []).servingLane clearService.carrier = none
    ∧ (crowded []).idleLane = none ∧ (crowded []).victim (slotPriority 3) = some 1
    ∧ ((crowded []).slot 2).lane = some 1 ∧ ((crowded []).slot 2).carrier = some 4 ∧ (crowded []).unqueued 2
    ∧ (crowded []).sweep.lane = some 1
    ∧ (crowded []).tuneTaken 1 0 0 100 1 clearService ∧ ((crowded []).slot 1).lane = none
    ∧ (crowded []).victim (slotPriority 1) = none ∧ (crowded []).arb.ok
    ∧ (crowded []).tuneTaken 2 0 0 100 2 clearService ∧ 1 < (crowded []).userCount 1
    ∧ (crowded []).tuneTaken 0 0 0 100 0 clearService ∧ (crowded []).sole 0 0 ∧ (crowded []).waitersBut 0 = []
    ∧ (crowded []).arb.sweepWaiting = false ∧ (∀ j, j ≠ 0 → ((crowded []).lane j).serves clearService.carrier = false) :=
  ⟨crowded_ready [], crowded_taken 3 [], by decide +kernel, by decide +kernel, by decide +kernel, by decide +kernel,
    by decide +kernel, by decide +kernel, (fun _ h => by cases h), rfl, crowded_taken 1 [], by decide +kernel,
    by decide +kernel, .nil, crowded_taken 2 [], by decide +kernel, crowded_taken 0 [],
    ⟨by decide +kernel, by decide +kernel, .inr (by decide +kernel)⟩, by decide +kernel, rfl, by decide +kernel⟩

/-- A lane IDLE, and one that seeks or is LOCKED on the carrier, for a slot without a lane. -/
theorem witness_TunesTaken_lanes :
    base.tuneTaken 4 0 0 100 4 clearService ∧ base.keepsUser 4 ∧ base.servingLane clearService.carrier = none
    ∧ base.idleLane = some 0
    ∧ (withLane 1 lockedLane).tuneTaken 4 0 0 100 4 clearService ∧ (withLane 1 lockedLane).keepsUser 4
    ∧ (withLane 1 lockedLane).servingLane clearService.carrier = some 1 ∧ clearService.scrambled = false
    ∧ (withLane 1 seekingLane).tuneTaken 4 0 0 200 4 scrambledService
    ∧ (withLane 1 seekingLane).servingLane scrambledService.carrier = some 1
    ∧ ((withLane 1 seekingLane).lane 1).state = .seeking ∧ scrambledService.scrambled = true :=
  ⟨⟨rfl, rfl, by decide, by decide, by decide +kernel, by decide +kernel, .inl (by decide +kernel),
      .inl (by decide +kernel), rfl, base_noRise⟩, (fun m h => by cases h), by decide +kernel, by decide +kernel,
    ⟨rfl, rfl, by decide, by decide, by decide +kernel, by decide +kernel, .inl (by decide +kernel),
      .inl (by decide +kernel), rfl, base_noRise⟩, (fun m h => by cases h), by decide +kernel, rfl,
    ⟨rfl, rfl, by decide, by decide, by decide +kernel, by decide +kernel, .inl (by decide +kernel),
      .inl (by decide +kernel), rfl, base_noRise⟩, by decide +kernel⟩

/-- Two waiters, for two carriers. -/
def two : List Waiter := [{ claimant := .slot 3, carrier := 3 }, { claimant := .slot 1, carrier := 6 }]

/-- The only user of lane 0, with none waiting and with two waiters, of the head's carrier and of another. -/
theorem witness_StopFrees_lane :
    (crowded two).ready ∧ (crowded two).sole 0 0 ∧ (crowded two).waitersBut 0 = two
    ∧ (crowded two).arb.home = .inactive ∧ (crowded two).mode ≠ .standby ∧ (crowded two).idleLane = none
    ∧ (∀ x ∈ two, x.claimant ≠ .home ∧ ∀ l, l ≠ 0 → ((crowded two).lane l).serves x.carrier = false)
    ∧ ((crowded two).slot 0).state ≠ .free ∧ ((crowded two).slot 0).origin = .user
    ∧ (crowded []).waitersBut 0 = [] ∧ (crowded []).arb.sweepWaiting = false :=
  ⟨crowded_ready _, ⟨by decide +kernel, by decide +kernel, .inr (by decide +kernel)⟩, by decide +kernel⟩

theorem witness_StopFrees :
    base.ready ∧ 5 ≤ (5 : Byte).toNat ∧ (base.slot 4).state = .free
    ∧ State.ready (withSlot 4 (recording .presenting))
    ∧ ((withSlot 4 (recording .presenting)).slot 4).state ≠ .free
    ∧ ((withSlot 4 (recording .presenting)).slot 4).origin = .schedule 2
    ∧ State.noRise (withSlot 4 (recording .presenting))
    ∧ ({ withSlot 4 (recording .presenting) with
        schedule := base.schedule.set 2 { state := .running, action := .record 4 7 0 } }).runner 4 = some 2 :=
  ⟨base_ready, by decide, by decide +kernel, ready_of rfl (by decide) (by decide), by decide +kernel,
    by decide +kernel, base_noRise, by decide +kernel⟩

/-! ### Hypotheses met: carriers and lanes -/

/-- The body of a CARRIER_PUT. -/
def carrierPutBody (index : Byte) (freq : Word) (home : Byte) : CarrierReq :=
  { index, freq, cls := 3, guide := 1, home }

theorem carrierPut_inRange {index : Byte} {freq : Word} {home : Byte} (i : index.toNat ≤ 63)
    (f : 48000 ≤ freq.toNat ∧ freq.toNat ≤ 1002000) (h : home = 0 ∨ home = 1) :
    (carrierPutBody index freq home).inRange := ⟨i, f, show (3 : Byte).toNat ≤ 3 by decide, .inr rfl, h⟩

/-- The entry of a CARRIER_PUT. -/
def carrierEntry (index freq : Nat) (home : Bool) : Carrier := { index, freq, cls := 3, guide := true, home }

theorem witness_CarriersEdited :
    base.ready ∧ ¬(carrierPutBody 64 48000 0).inRange
    ∧ ((carrierPutBody 63 48000 1).inRange ∧ (carrierPutBody 63 48000 1).writes (carrierEntry 63 48000 true))
    ∧ (∃ o ∈ base.carriers, o.freq = 48000 ∧ o.index ≠ 63)
    ∧ ((carrierPutBody 3 1002000 1).inRange ∧ (carrierPutBody 3 1002000 1).writes (carrierEntry 3 1002000 true))
    ∧ (∀ o ∈ base.carriers, o.freq = 1002000 → o.index = 3)
    ∧ (withLane 1 lockedLane).carrier? 3 = some plainCarrier ∧ plainCarrier.freq ≠ 1002000
    ∧ (withLane 1 lockedLane).servingLane 3 = some 1 ∧ ((withLane 1 lockedLane).lane 1).state = .locked :=
  ⟨base_ready, fun h => absurd h.index (by decide),
    ⟨carrierPut_inRange (by decide) (by decide) (by decide), ⟨rfl, rfl, rfl, by decide, by decide⟩⟩,
    by decide +kernel,
    ⟨carrierPut_inRange (by decide) (by decide) (by decide), ⟨rfl, rfl, rfl, by decide, by decide⟩⟩,
    by decide +kernel⟩

theorem witness_CarriersEdited_drop :
    63 < (64 : Byte).toNat ∧ (base.carrier? 63 = none ∧ (63 : Byte).toNat ≤ 63)
    ∧ (base.carrier? 3).isSome = true
    ∧ ((withSlot 4 (recording .presenting)).slot 4).state ≠ .free
    ∧ (withSlot 4 (recording .presenting)).serviceOf 4 = some clearService ∧ clearService.carrier = 3 := by
  decide +kernel

/-- Lane 1 LOCKED on carrier 3 with slot 4 on it, and the sweep with it or elsewhere. -/
def leaving (sweep : Sweep) : State :=
  { withLane 1 lockedLane with slots := base.slots.set 4 { recording .presenting with lane := some 1 }, sweep := sweep }

/-- The lane that a drop leaves without users, the sweep on it or not, and a carrier that no lane is on. -/
theorem witness_CarriersEdited_lanes (sweep : Sweep) :
    State.ready (leaving sweep) ∧ ((leaving sweep).carrier? 3).isSome = true
    ∧ (∀ l, l ∈ [(1 : Fin 3)] ↔ (leaving sweep).emptiedBy 3 l)
    ∧ (∀ l, l ∈ ([] : List (Fin 3)) ↔ base.emptiedBy 3 l)
    ∧ (leaving sweep).mode ≠ .standby ∧ (leaving sweep).arb.home = .inactive ∧ (leaving sweep).arb.queue = []
    ∧ (leaving sweep).arb.sweepWaiting = false ∧ (leaving sweep).noRise := by
  have serving : (leaving sweep).servingLane 3 = some 1 := by rfl
  refine ⟨ready_of rfl (show Mode.service ≠ .boot by decide) (show 0 < 8 by decide), by rfl, fun l => ⟨?_, ?_⟩,
    fun l => ⟨(fun h => by cases h), fun h => ?_⟩, show Mode.service ≠ .standby by decide, rfl, rfl, rfl, base_noRise⟩
  · intro h
    cases List.mem_singleton.mp h
    refine ⟨serving, fun k h => ?_, (fun h => by cases h)⟩
    have only : ∀ k, ((leaving {}).slot k).lane = some 1 → k = 4 := by decide +kernel
    cases only k h
    exact ⟨show SlotState.presenting ≠ .free by decide, show SlotState.presenting ≠ .faulted by decide,
      clearService, rfl, rfl⟩
  · intro h
    have e := h.serving
    rw [serving] at e
    cases e
    exact .head _
  · have e : base.servingLane 3 = none := by decide +kernel
    have e' := h.serving
    rw [e] at e'
    cases e'

theorem witness_CarriersEdited_sweep :
    (leaving { state := .dwell, position := some 3, lane := some 1 }).sweep.lane = some 1
    ∧ (leaving { state := .dwell, position := some 3, lane := some 1 }).sweep.state = .dwell
    ∧ (leaving { state := .dwell, position := some 3, lane := some 1 }).sweep.position = some (3 : Byte).toNat
    ∧ (leaving {}).sweep.lane ≠ some 1 := by decide +kernel

/-- A changed frequency: under a LOCKED lane with a slot, under a SEEKING lane with a slot, and under one without. -/
theorem witness_CarriersEdited_frequency :
    State.ready (leaving {}) ∧ (leaving {}).noRise ∧ (leaving {}).carrier? 3 = some plainCarrier
    ∧ (leaving {}).servingLane 3 = some 1 ∧ ((leaving {}).lane 1).state = .locked
    ∧ ((leaving {}).slot 4).lane = some 1 ∧ (leaving {}).unqueued 4 ∧ ((leaving {}).slot 4).retune < 2
    ∧ ((carrierPutBody 4 1002000 0).inRange ∧ (carrierPutBody 4 1002000 0).writes (carrierEntry 4 1002000 false))
    ∧ (∀ o ∈ base.carriers, o.freq = 1002000 → o.index = 4)
    ∧ (withLane 1 seekingLane).carrier? 4 = some guideCarrier ∧ guideCarrier.freq ≠ 1002000
    ∧ (withLane 1 seekingLane).servingLane 4 = some 1 ∧ ((withLane 1 seekingLane).lane 1).state = .seeking
    ∧ (withLane 1 seekingLane).arb.home = .inactive ∧ (withLane 1 seekingLane).mode ≠ .standby
    ∧ guideCarrier.guide = (carrierEntry 4 1002000 false).guide
    ∧ ((withSlot 2 { state := .tuning, lane := some 1 }).slot 2).lane = some 1
    ∧ ((withSlot 2 { state := .tuning, lane := some 1 }).slot 2).state = .tuning :=
  ⟨⟨⟨rfl, rfl, show Mode.service ≠ .boot by decide, rfl⟩, show 0 < 8 by decide⟩, base_noRise, by decide +kernel,
    by decide +kernel, by decide +kernel, by decide +kernel, (fun _ h => by cases h), by decide +kernel,
    ⟨carrierPut_inRange (by decide) (by decide) (by decide), ⟨rfl, rfl, rfl, by decide, by decide⟩⟩,
    by decide +kernel⟩

/-- The body of a QUALITY_CLASS_SET. -/
def classBody (cls n : Byte) (tl th : Half) (initial : Byte) : ClassReq :=
  { cls, n, tl, th, h := 255, k := 0, initial }

theorem witness_QualityClassSetClamps :
    base.ready ∧ 4 ≤ (classBody 4 0 0 0 0).cls.toNat ∧ 2 ≤ (classBody 0 0 0 0 2).initial.toNat
    ∧ min 4095 (classBody 0 0 4095 4094 0).th.toNat < min 4095 (classBody 0 0 4095 4094 0).tl.toNat
    ∧ (classBody 3 0 5000 4096 1).cls.toNat = (3 : Fin 4).val
    ∧ min 4095 (classBody 3 0 5000 4096 1).tl.toNat ≤ min 4095 (classBody 3 0 5000 4096 1).th.toNat :=
  ⟨base_ready, by decide, by decide, by decide, by decide, by decide⟩

theorem witness_LaneEnableSwitches :
    base.ready ∧ 3 ≤ (3 : Byte).toNat ∧ (2 : Byte).toNat = (2 : Fin 3).val ∧ (base.lane 2).state ≠ .off
    ∧ State.ready (withLane 2 { state := .off }) ∧ ((withLane 2 { state := .off }).lane 2).state = .off :=
  ⟨base_ready, by decide, by decide, by decide +kernel, ready_of rfl (by decide) (by decide), by decide +kernel⟩

/-- `crowded` with lane 2 and slot 4 on another carrier. -/
def contested : State :=
  { crowded [] with
    lanes := (crowded []).lanes.set 2 { state := .locked, carrier := some 6 }
    slots := (crowded []).slots.set 4 { state := .presenting, service := some 8, carrier := some 6, lane := some 2 } }

/-- `crowded` with lane 1 switched off, the sweep PAUSED, waiting or not. -/
def oneOff (queue : List Waiter) (sweepWaiting : Bool) : State :=
  { crowded queue with
    lanes := (crowded []).lanes.set 1 { state := .off }
    slots := (crowded []).slots.set 2 {}
    sweep := { on := true, state := .paused, pause := some .noLane, position := some 4 }
    arb := { queue, sweepWaiting } }

/-- Lane 1 switched off under slot 2 and the sweep, whom no other lane can take; lane 0 under slot 0, which preempts
lane 1. -/
theorem witness_LaneEnableSwitches_displaced :
    (crowded two).ready ∧ (crowded two).homeRests ∧ (crowded two).noRise ∧ ((crowded two).lane 1).state ≠ .off
    ∧ (crowded two).stranded 1 ∧ ((crowded two).slot 2).lane = some 1 ∧ ((crowded two).slot 2).carrier = some 4
    ∧ (crowded two).unqueued 2 ∧ (crowded two).sweep.lane = some 1
    ∧ contested.ready ∧ contested.homeRests ∧ contested.noRise ∧ (∀ j, j ≠ 0 → (contested.lane j).state ≠ .idle)
    ∧ contested.slotsAt 0 5 ∧ contested.lanePriority 0 = some 2 ∧ contested.victim 2 = some 1 := by
  have lanes : ∀ m, m ≠ 1 → (crowded two).lane m = { state := .locked, carrier := some 5 } := by decide +kernel
  have slots : ∀ k, ((crowded two).slot k).lane = some 1 → k = 2 := by decide +kernel
  refine ⟨crowded_ready _, ⟨rfl, (fun h => by cases h)⟩, base_noRise, by decide +kernel,
    ⟨by decide +kernel, fun m c hm hc => ?_, fun m r k hm _ hr hk => ?_⟩, by decide +kernel, by decide +kernel,
    by unfold State.unqueued; decide +kernel, by decide +kernel,
    ⟨⟨rfl, rfl, show Mode.service ≠ .boot by decide, rfl⟩, show 0 < 8 by decide⟩,
    ⟨rfl, (fun h => by cases h)⟩, base_noRise, by decide +kernel,
    ⟨⟨0, by decide +kernel⟩, by decide +kernel, rfl, by decide +kernel⟩, by decide +kernel, by decide +kernel⟩
  · rw [lanes m hm] at hc
    have e : 5 = c := by simpa [Lane.serves] using hc
    subst e
    exact ⟨by decide +kernel, by decide +kernel⟩
  · cases slots k hk
    have least : ∀ m, m ≠ 1 → ((crowded two).lanePriority m).any (1 ≤ ·) = true := by decide +kernel
    have l := least m hm
    rw [hr] at l
    exact show 1 ≤ r by simpa using l

/-- Slot 2 on lane 1, and the sweep on it, with lane 0 IDLE. -/
theorem witness_LaneEnableSwitches_idle (tuned : State)
    (h : tuned = { withLane 1 seekingLane with
      slots := base.slots.set 2 { state := .tuning, service := some 8, carrier := some 4, lane := some 1 } })
    (sweeping : State)
    (g : sweeping = { withLane 1 seekingLane with
      sweep := { on := true, state := .dwell, lane := some 1, position := some 4 } }) :
    tuned.homeRests ∧ tuned.noRise ∧ (tuned.lane 1).state ≠ .off ∧ (0 : Fin 3) ≠ 1 ∧ (tuned.lane 0).state = .idle
    ∧ (∀ j, j < (0 : Fin 3) → j ≠ 1 → (tuned.lane j).state ≠ .idle) ∧ tuned.slotsAt 1 4
    ∧ tuned.sweep.lane ≠ some 1 ∧ tuned.arb.sweepWaiting = false
    ∧ sweeping.homeRests ∧ sweeping.noRise ∧ (sweeping.lane 1).state ≠ .off ∧ (sweeping.lane 0).state = .idle
    ∧ sweeping.slotUsers 1 = [] ∧ sweeping.sweep.lane = some 1 ∧ sweeping.arb.queue = []
    ∧ sweeping.sweep.position = some 4 ∧ (∀ j, j ≠ 1 → (sweeping.lane j).serves 4 = false) := by
  subst h g
  exact ⟨⟨rfl, (fun h => by cases h)⟩, base_noRise, by decide +kernel, by decide, by decide +kernel, by decide +kernel,
    ⟨⟨2, by decide +kernel⟩, by decide +kernel, rfl, by decide +kernel⟩, by decide +kernel, rfl,
    ⟨rfl, (fun h => by cases h)⟩, base_noRise, by decide +kernel⟩

/-- Lane 1 switched on with none waiting, with two waiters, and with the sweep waiting. -/
theorem witness_LaneEnableSwitches_on (q : List Waiter) (b : Bool) :
    (oneOff q b).ready ∧ (oneOff q b).homeRests ∧ (oneOff q b).noRise ∧ ((oneOff [] false).lane 1).state = .off
    ∧ (oneOff [] false).arb.queue = [] ∧ (oneOff [] false).arb.sweepWaiting = false
    ∧ (oneOff two b).arb.queue = two ∧ (oneOff two false).idleLane = none
    ∧ (∀ x ∈ two, x.claimant ≠ .home ∧ ∀ m, ((oneOff two false).lane m).serves x.carrier = false)
    ∧ (oneOff [] true).arb.sweepWaiting = true ∧ (oneOff [] true).sweep.position = some 4
    ∧ (oneOff [] true).servingLane 4 = none ∧ (oneOff [] true).idleLane = none :=
  ⟨⟨⟨rfl, rfl, show Mode.service ≠ .boot by decide, rfl⟩, show 0 < 8 by decide⟩, ⟨rfl, (fun h => by cases h)⟩,
    base_noRise, by decide +kernel, rfl, rfl, rfl, by decide +kernel⟩

/-- Slot 2 TUNING on lane 1 for the scrambled service. -/
def tuning : State :=
  { withLane 1 seekingLane with
    slots := base.slots.set 2 { state := .tuning, service := some 8, carrier := some 4, lane := some 1
                                profile := some 0 } }

theorem witness_LockEntersLocked :
    base.live ∧ (base.lane 1).state ≠ .seeking ∧ tuning.live ∧ (tuning.lane 1).order ≠ 4
    ∧ (tuning.lane 1).state = .seeking ∧ (tuning.lane 1).order = 5 ∧ tuning.arb.home = .inactive ∧ tuning.noRise
    ∧ (tuning.slot 2).lane = some 1 ∧ (tuning.slot 2).state = .tuning ∧ tuning.isScrambled 2 = true
    ∧ State.isClear { tuning with services := [{ scrambledService with scrambled := false }] } 2 = true :=
  ⟨base_ready.1, by decide +kernel, (ready_of rfl (by decide) (by decide)).1, by decide +kernel,
    by decide +kernel, by decide +kernel, rfl, base_noRise, by decide +kernel⟩

theorem base_services_ok : ∀ v ∈ base.services, v.ok := by
  intro v hv
  simp only [base, List.mem_cons, List.not_mem_nil, or_false] at hv
  rcases hv with rfl | rfl <;>
    exact ⟨by decide, by decide, by decide, by decide, by decide, by decide, by decide⟩

theorem witness_LaneLossesCount :
    base.live ∧ (base.lane 1).state ≠ .locked ∧ (base.lane 1).state ≠ .seeking
    ∧ State.live (withLane 1 lockedLane) ∧ ((withLane 1 lockedLane).lane 1).state = .locked
    ∧ ((withLane 1 lockedLane).lane 1).carrier = some 3
    ∧ ((withLane 1 lockedLane).lane 1).silenceTimer.isSome = true ∧ State.noRise (withLane 1 lockedLane)
    ∧ (tuning.lane 1).state = .seeking ∧ (tuning.lane 1).carrier = some 4
    ∧ (tuning.lane 1).seekTimer.isSome = true :=
  ⟨base_ready.1, by decide +kernel, by decide +kernel, (ready_of rfl (by decide) (by decide)).1,
    by decide +kernel, by decide +kernel, by decide +kernel, base_noRise, by decide +kernel⟩

/-- Slot 2 on lane 1 in a state with a retune count; the lane is LOCKED, or SEEKING for a slot TUNING. -/
def retuning (x : SlotState) (n : Nat) : State :=
  { withLane 1 (if x = .tuning then seekingLane else lockedLane) with
    slots := base.slots.set 2 { state := x, service := some 7, carrier := some 3, lane := some 1, retune := n } }

/-- Retune counts of 1 and 2, by a loss and by a seek failure. -/
theorem witness_LaneLossesCount_slots :
    State.live (retuning .held 1) ∧ State.noRise (retuning .held 1) ∧ ((retuning .held 1).lane 1).state = .locked
    ∧ ((retuning .held 1).lane 1).carrier = some 3 ∧ ((retuning .held 1).slot 2).lane = some 1
    ∧ ((retuning .held 1).slot 2).state ∈ [SlotState.acquiring, .presenting, .held] ∧ (retuning .held 1).unqueued 2
    ∧ ((retuning .held 1).slot 2).retune < 2 ∧ (retuning .held 2).countFound 2 2
    ∧ ((retuning .tuning 1).lane 1).state = .seeking ∧ ((retuning .tuning 1).lane 1).seekTimer.isSome = true
    ∧ ((retuning .tuning 1).slot 2).state = .tuning ∧ ((retuning .tuning 1).slot 2).retune < 2
    ∧ (∀ k, ((retuning .tuning 2).slot k).lane = some 1 →
      ((retuning .tuning 2).slot k).state = .tuning ∧ 2 ≤ ((retuning .tuning 2).slot k).retune)
    ∧ (retuning .tuning 2).arb.home = .inactive ∧ (retuning .tuning 2).mode = .service
    ∧ (retuning .tuning 2).sweep.lane = none ∧ (retuning .tuning 2).arb.queue = []
    ∧ (retuning .tuning 2).arb.sweepWaiting = false :=
  ⟨⟨rfl, rfl, show Mode.service ≠ .boot by decide, rfl⟩, base_noRise, by decide +kernel, by decide +kernel,
    by decide +kernel, by decide +kernel, (fun _ h => by cases h), by decide +kernel, .inl (by decide +kernel),
    by decide +kernel⟩

/-- Lane 1 of 2.7, LOCKED on carrier 30 of class 2, after a sum of its samples but the last. -/
def grading (grade : Grade) (sum count poorRun : Nat) : State :=
  { withLane 1 { state := .locked, carrier := some 30, silenceTimer := some 6500, accN := some 4
                 accCount := count, accSum := sum, grade := some grade, poorRun } with
    carriers := [{ index := 30, freq := 90000, cls := 2, guide := false, home := false }]
    classes := base.classes.set 2 { n := 4, tl := 20, th := 200, h := 10, k := 3 } }

/-- A lane on a carrier of the class that is set, and classes 3 and 4 to read. -/
theorem witness_QualityClassSetClamps_lane :
    ((grading .good 77 2 0).lane 1).carrier = some 30
    ∧ ((grading .good 77 2 0).carrier? 30).map (fun x => x.cls) = some (2 : Fin 4)
    ∧ (classBody 3 0 0 0 0).cls.toNat = (3 : Fin 4).val ∧ 4 ≤ (classBody 4 0 0 0 0).cls.toNat := by decide +kernel

/-- Averages below the last of an accumulation, at the last with the grade kept, and at the last with the poor
run at K. -/
theorem witness_SampleGrades :
    base.live ∧ (base.lane 1).state ≠ .locked
    ∧ State.live (grading .good 77 2 0) ∧ ((grading .good 77 2 0).lane 1).state = .locked
    ∧ ((grading .good 77 2 0).lane 1).accN = some 4 ∧ ((grading .good 77 2 0).lane 1).accCount + 1 < 4
    ∧ ((grading .good 77 3 0).lane 1).grade = some .good ∧ ((grading .good 77 3 0).lane 1).accCount + 1 = 4
    ∧ State.noRise (grading .good 77 3 0) ∧ State.noRise (grading .poor 1200 3 2)
    ∧ ¬ ((1200 + (380 : BitVec 12).toNat) / 4 + 10 ≤ 200) ∧ ((grading .poor 1200 3 2).classOf 1).k ≤ 2 + 1
    ∧ ((grading .poor 1200 3 2).lane 1).carrier = some 30 :=
  ⟨base_ready.1, by decide +kernel, (ready_of rfl (by decide) (by decide)).1, by decide +kernel,
    by decide +kernel, by decide +kernel, by decide +kernel, by decide +kernel, base_noRise, base_noRise,
    by decide +kernel⟩

/-- A slot on the lane whose average is graded. -/
theorem witness_SampleGrades_slots :
    let s := { grading .good 77 3 0 with slots := (leaving {}).slots }
    s.live ∧ s.noRise ∧ (s.slot 4).lane = some 1 ∧ (s.lane 1).state = .locked ∧ (s.lane 1).accN = some 4
    ∧ (s.lane 1).grade = some .good ∧ (s.lane 1).accCount + 1 = 4 :=
  ⟨⟨rfl, rfl, show Mode.service ≠ .boot by decide, rfl⟩, base_noRise, by decide +kernel⟩

/-- STANDBY with the home hold in RETRY. -/
def standing : State := { base with mode := .standby, arb := { home := .retry 9000 } }

theorem witness_HomeRetryDecides :
    base.live ∧ (∀ e, base.arb.home ≠ .retry e)
    ∧ State.live { base with arb := { home := .retry 9000 } }
    ∧ ({ base with arb := { home := .retry 9000 } }).mode ≠ .standby
    ∧ standing.live ∧ standing.arb.home = .retry 9000 ∧ standing.homeCarrier = some 5
    ∧ (∀ m, (standing.lane m).state ≠ .locked) ∧ standing.servingLane 5 = none ∧ standing.idleLane = some 0
    ∧ standing.arb.queue = [] ∧ standing.noRise :=
  ⟨base_ready.1, (fun _ h => by cases h), (ready_of rfl (by decide) (by decide)).1, by decide,
    (ready_of rfl (by decide) (by decide)).1, rfl, by decide +kernel, by decide +kernel, by decide +kernel,
    by decide +kernel, rfl, base_noRise⟩

/-- Lane 1 used by the sweep and the other lanes by view slots. -/
def inUse : State :=
  { base with
    lanes := #v[{ state := .locked, carrier := some 3 }, seekingLane, { state := .locked, carrier := some 5 }]
    slots := (base.slots.set 0 { state := .presenting, service := some 7, carrier := some 3, lane := some 0 }).set 2
      { state := .presenting, service := some 8, carrier := some 5, lane := some 2 }
    sweep := { on := true, state := .dwell, lane := some 1, position := some 4 } }

theorem witness_PreemptionChooses :
    inUse.victim 9 = some 1 ∧ (inUse.lanePriority 0).isSome = true ∧ (inUse.lanePriority 1).isSome = true
    ∧ inUse.victim 0 = none ∧ (inUse.lane 1).state ≠ .off := by decide +kernel

/-! ### Hypotheses met: cells and keys -/

/-- A cell of a tag, a phase code and a sequence number, its payload zeros. -/
def cellOf (tag phase seq : Nat) : List Byte :=
  [BitVec.ofNat 8 (tag / 4), BitVec.ofNat 8 (64 * (tag % 4) + 16 * phase + seq / 4), BitVec.ofNat 8 (64 * (seq % 4)), 0]
    ++ List.replicate 124 0

/-- Lane 1 LOCKED on carrier 3, slot 0 on it in a state, its component of tag 16 in the filter table with the
KEY tag 1. -/
def routing (x : SlotState) : State :=
  { withLane 1 lockedLane with
    slots := base.slots.set 0 { state := x, service := some 7, carrier := some 3, lane := some 1, profile := some 0 }
    router := { filters := [{ lane := 1, tag := 1, dest := .consumer .key },
                            { lane := 1, tag := 16, dest := .slots [0], last := some 63 }] } }

/-- No entry in the filter table, and the tag of slot 2's service; and an entry that another slot has. -/
theorem witness_LockEntersLocked_filters :
    KeySorted Filter.key tuning.router.filters ∧ (∀ v ∈ tuning.services, v.ok)
    ∧ (1, Consumer.key) ∈ [(1, Consumer.key), (2, .entitlement), (3, .guide), (4, .time)]
    ∧ 5 ≤ (1024 + 17) % 1024 ∧ tuning.serviceOf 2 = some scrambledService
    ∧ (∃ c ∈ scrambledService.comps, 1024 + 17 = (1 : Fin 3).val * 1024 + c.tag)
    ∧ keyFind Filter.key (1024 + 17) tuning.router.filters = none ∧ (2048 + 17) / 1024 ≠ (1 : Fin 3).val
    ∧ keyFind Filter.key (1024 + 16) (routing .presenting).router.filters
      = some { lane := 1, tag := 16, dest := .slots [0], last := some 63 } :=
  ⟨.nil, base_services_ok, by decide +kernel⟩

/-- Not LOCKED; the reserved phase; no entry, next to one that is there; a control entry, scrambled and with a
record of no length; a component cell after sequence 63, with the next number and without. -/
theorem witness_CellsRouted :
    base.live ∧ (base.lane 1).state ≠ .locked
    ∧ (routing .presenting).live ∧ ((routing .presenting).lane 1).state = .locked
    ∧ (viewCellBytes (cellOf 16 3 0)).phase = .reserved
    ∧ (viewCellBytes (cellOf 17 0 0)).phase ≠ .reserved
    ∧ keyFind Filter.key (1024 + (viewCellBytes (cellOf 17 0 0)).tag) (routing .presenting).router.filters = none
    ∧ (viewCellBytes (cellOf 1 2 0)).phase = .b
    ∧ keyFind Filter.key (1024 + (viewCellBytes (cellOf 1 2 0)).tag) (routing .presenting).router.filters
      = some { lane := 1, tag := 1, dest := .consumer .key }
    ∧ (viewCellBytes (cellOf 1 0 0)).phase = .clear
    ∧ (recordOf (viewCellBytes (cellOf 1 0 0)).payload).isNone = true
    ∧ (viewCellBytes (cellOf 16 0 0)).phase = .clear
    ∧ (viewCellBytes (cellOf 16 0 0)).seq = (63 : BitVec 6) + 1 ∧ (viewCellBytes (cellOf 16 0 63)).seq = 63
    ∧ keyFind Filter.key (1024 + (viewCellBytes (cellOf 16 0 0)).tag) (routing .presenting).router.filters
      = some { lane := 1, tag := 16, dest := .slots [0], last := some 63 }
    ∧ ((routing .presenting).slot 0).state = .presenting ∧ ((routing .held).slot 0).state ≠ .presenting :=
  ⟨base_ready.1, by decide +kernel, (ready_of rfl (by decide) (by decide)).1, by decide +kernel⟩

/-- Lane 1 LOCKED, three slots PRESENTING on it in one slot set: slot 0 with a key of phase A and slot 2 without
one on a SCRAMBLED service, slot 3 on a CLEAR one. -/
def sharing : State :=
  let x : Slot := { state := .presenting, service := some 8, carrier := some 3, lane := some 1, since := some 3500 }
  { withLane 1 lockedLane with
    slots := #v[{ x with desc := { keyA := some { period := 700, req := .free, basis := .free, word := 0 } } }, {}, x,
      { x with service := some 7 }, {}]
    router := { filters := [{ lane := 1, tag := 16, dest := .slots [0, 2, 3], last := some 63 }] } }

/-- A cell of PHASE_A: decoded for slot 0, starving slot 2 at 2,000 ms, discarded for slot 3; one of PHASE_B. -/
theorem witness_CellsRouted_slots :
    sharing.live ∧ (sharing.lane 1).state = .locked ∧ (viewCellBytes (cellOf 16 1 0)).phase = .a
    ∧ (viewCellBytes (cellOf 16 2 0)).phase = .b
    ∧ keyFind Filter.key (1024 + (viewCellBytes (cellOf 16 1 0)).tag) sharing.router.filters
      = some { lane := 1, tag := 16, dest := .slots [0, 2, 3], last := some 63 }
    ∧ [(0 : Fin 5), 2, 3].Nodup ∧ (sharing.passes 0 (viewCellBytes (cellOf 16 1 0))).isSome = true
    ∧ sharing.starves 0 (viewCellBytes (cellOf 16 1 0)) = false
    ∧ sharing.starves 2 (viewCellBytes (cellOf 16 1 0)) = true
    ∧ State.starves { sharing with clock := { sharing.clock with uptimeMs := 5499 } } 2 (viewCellBytes (cellOf 16 1 0))
      = false
    ∧ sharing.isClear 3 = true ∧ sharing.unkeyed 0 (viewCellBytes (cellOf 16 2 0)) = true :=
  ⟨⟨rfl, rfl, show Mode.service ≠ .boot by decide, rfl⟩, by decide +kernel⟩

/-- A slot with a key of phase A, period 700, on a basis. -/
def keyed (state : SlotState) (b : Basis) : Slot :=
  { state, service := some 8, carrier := some 4, lane := some 1, profile := some 0, keyTimer := some 9000
    desc := { keyA := some ⟨700, .free, b, 0⟩ } }

/-- The differences 1, 32,767, 0 and 32,768 of a period after 700, the last of R67's own cases; and a phase
without a key. -/
theorem witness_KeysComparedAndTimed :
    ((withSlot 2 (keyed .acquiring .free)).slot 2).desc.key .b = none
    ∧ ((withSlot 2 (keyed .acquiring .free)).slot 2).desc.key .a = some ⟨700, .free, .free, 0⟩
    ∧ ((701 : Half).toNat + 65536 - (700 : Half).toNat) % 65536 = 1
    ∧ ((33467 : Half).toNat + 65536 - (700 : Half).toNat) % 65536 = 32767
    ∧ ((700 : Half).toNat + 65536 - (700 : Half).toNat) % 65536 = 0
    ∧ ((33468 : Half).toNat + 65536 - (700 : Half).toNat) % 65536 = 32768 := by decide +kernel

/-- A KEY record of service 8 with a requirement. -/
def keyRecord (req : Requirement) : KeyRecord := { sid := 8, phase := .a, period := 700, req, wrapped := 0 }

/-- A slot that takes the KEY records of lane 1, and none on lane 0; a key that cannot be opened; a record not newer
than the key of its phase and one with no such key; a record held. -/
theorem witness_KeysComparedAndTimed_records (x : SlotState) (h : x ∈ [SlotState.acquiring, .presenting, .held]) :
    (withSlot 2 (keyed x .free)).takesKeys 1 8 2 ∧ (∀ k, ¬ (withSlot 2 (keyed x .free)).takesKeys 0 8 k)
    ∧ ({ base with access := { base.access with deviceKey := .unusable } }).openWord 0 = none
    ∧ ¬ (keyed x .free).desc.outdated (keyRecord .free)
    ∧ (keyed x .free).desc.outdated { keyRecord .free with period := 701 }
    ∧ (keyed x .free).desc.outdated { keyRecord .free with phase := .b }
    ∧ (∀ w, Config.openWord 0 = some w → (withSlot 2 (keyed x .free)).openWord 0 = some w)
    ∧ ((keyed x .free).desc.setHeld .b (some ⟨{ keyRecord .free with phase := .b }, 1⟩)).held .b
      = some ⟨{ keyRecord .free with phase := .b }, 1⟩ := by
  refine ⟨⟨h, rfl, rfl, rfl⟩, fun k t => ?_, by decide +kernel, fun o => ?_, fun old o => ?_, (fun _ o => by cases o), ?_, rfl⟩
  · have lanes : ∀ k, ((withSlot 2 (keyed .held .free)).slot k).lane ≠ some 0 := by decide +kernel
    have l := t.lane
    have e : ((withSlot 2 (keyed x .free)).slot k).lane = ((withSlot 2 (keyed .held .free)).slot k).lane := by
      match k with
      | 0 | 1 | 2 | 3 | 4 => rfl
    exact lanes k (e ▸ l)
  · exact absurd (o ⟨700, .free, .free, 0⟩ rfl).1 (by decide)
  · cases o
    decide
  · intro w e
    simpa [State.openWord, withSlot, base] using e

/-- The entry of service 7 with its components, up to six. -/
def listing (channel carrier rating n : Nat) : Service :=
  { serviceEntry channel 7 carrier rating with comps := (List.range n).map fun i => ⟨.video, 16 + i⟩ }

/-- Slot 0 presents service 7 on lane 1 with its filter entry, or has faulted with none: the carrier changed, the
components alone, up to six, the rating alone, the channel alone; the service dropped. -/
theorem witness_ServicesEdited_edits :
    State.ready (routing .presenting) ∧ (routing .presenting).noRise
    ∧ KeySorted Filter.key (routing .presenting).router.filters
    ∧ keyFind (·.sid) 7 (routing .presenting).services = some clearService
    ∧ (0 : Fin 5) ∈ (routing .presenting).slotsOf 7 ∧ (0 : Fin 5) ∈ (routing .faulted).slotsOf 7
    ∧ ((servicePutBody 100 7 5 0 2 1).inRange ∧ (servicePutBody 100 7 5 0 2 1).writes (listing 100 5 2 1)
      ∧ clearService.carrier ≠ (listing 100 5 2 1).carrier)
    ∧ ((servicePutBody 100 7 3 0 2 6).inRange ∧ (servicePutBody 100 7 3 0 2 6).writes (listing 100 3 2 6)
      ∧ (routing .presenting).filtered 0 clearService)
    ∧ ((servicePutBody 100 7 3 0 6 1).inRange ∧ (servicePutBody 100 7 3 0 6 1).writes (listing 100 3 6 1)
      ∧ ((routing .presenting).slot (viewSlot 0)).cur = none)
    ∧ ((servicePutBody 9999 7 3 0 2 1).inRange ∧ (servicePutBody 9999 7 3 0 2 1).writes (listing 9999 3 2 1)
      ∧ clearService.comps = (listing 9999 3 2 1).comps)
    ∧ (routing .presenting).findService 1 7 = some clearService :=
  ⟨ready_of rfl (by decide) (by decide), base_noRise, by decide +kernel, by decide +kernel, by decide +kernel,
    by decide +kernel,
    ⟨servicePut_inRange (by decide) (by decide) (by decide), ⟨rfl, rfl, rfl, by decide, rfl, rfl⟩, by decide⟩,
    ⟨servicePut_inRange (by decide) (by decide) (by decide), ⟨rfl, rfl, rfl, by decide, rfl, rfl⟩,
      ⟨fun f hf ks e _ => by
        rcases hf with _ | ⟨_, _ | ⟨_, ⟨⟩⟩⟩
        · cases e
        · exact ⟨rfl, by decide +kernel⟩,
      fun l e _ c hc => by
        cases e
        cases List.mem_singleton.1 hc
        exact ⟨⟨1, 16, .slots [0], some 63⟩, by decide +kernel, rfl, rfl, [0], rfl, by decide⟩⟩⟩,
    ⟨servicePut_inRange (by decide) (by decide) (by decide), ⟨rfl, rfl, rfl, by decide, rfl, rfl⟩, by decide +kernel⟩,
    ⟨servicePut_inRange (by decide) (by decide) (by decide), ⟨rfl, rfl, rfl, by decide, rfl, rfl⟩, by decide⟩,
    by decide +kernel⟩

theorem witness_KeysComparedAndTimed_timeout :
    base.live ∧ (base.slot 2).state ≠ .acquiring
    ∧ State.live (withSlot 2 (keyed .acquiring .free))
    ∧ ((withSlot 2 (keyed .acquiring .free)).slot 2).state = .acquiring
    ∧ ((withSlot 2 (keyed .acquiring .free)).slot 2).keyTimer.isSome = true
    ∧ (∀ w ∈ (withSlot 2 (keyed .acquiring .free)).arb.queue, w.claimant ≠ .slot 2)
    ∧ State.noRise (withSlot 2 (keyed .acquiring .free)) :=
  ⟨base_ready.1, by decide +kernel, (ready_of rfl (by decide) (by decide)).1, by decide +kernel,
    by decide +kernel, (fun _ h => by cases h), base_noRise⟩

/-! ### Hypotheses met: purchases and entitlements -/

/-- The event of 4.11, its start 996,400, 2 h long. -/
def movie : GuideEvent :=
  { sid := 7, eid := 880021, version := 1, start := 996400, duration := 120, rating := 2, price := some 600
    purchasable := true, prorate := true, preview := 0, title := 0 }

/-- `base` with one guide entry at a place. -/
def withPlace (n : Nat) (e : GuideEvent) (disturbed : Nat) : State :=
  { base with guide := { places := [{ num := n, ev := e, disturbed }] } }

theorem guide_ok_one {n : Nat} (e : GuideEvent) (d : Nat) (h : n < 2048) : (withPlace n e d).guide.ok := by
  refine ⟨?_, ?_, ?_, ?_⟩
  · simp [KeySorted, withPlace]
  · simpa [withPlace] using h
  · simp [withPlace]
  · intro r hr; cases hr

theorem movie_listed : (withPlace 2047 movie 0).listed movie :=
  ⟨guide_ok_one movie 0 (by decide), ⟨2047, movie, 0⟩, by simp [withPlace], rfl, rfl⟩

theorem movie_sells : (withPlace 2047 movie 0).sells 0 movie 1000000 :=
  ⟨rfl, rfl, by decide, rfl, rfl, movie_listed, rfl, by decide, (fun _ h => by cases h), by decide,
    (fun _ h => by cases h), by decide⟩

/-- A purchase by a profile that needs no PIN, from no slot and from slot 4. -/
theorem witness_BuyCommits :
    State.ready (withPlace 2047 movie 0) ∧ (0 : Byte).toNat = (0 : Fin 8).val
    ∧ (∀ j, some (4 : Fin 5) = some j → (4 : Byte).toNat = j.val)
    ∧ ((none : Option (Fin 5)) = none → (255 : Byte) = 255)
    ∧ (((withPlace 2047 movie 0).profile 0).buyNeedsPin = true →
      (⟨9, 9, 9, 9⟩ : Pin) = ((withPlace 2047 movie 0).profile 0).pin)
    ∧ movie.sid = (7 : Half).toNat ∧ movie.eid = (880021 : Word).toNat ∧ movie.price = some 600
    ∧ (withPlace 2047 movie 0).sells 0 movie 1000000
    ∧ (withPlace 2047 movie 0).affords 0 ((withPlace 2047 movie 0).charge movie 600 1000000) :=
  ⟨ready_of rfl (by decide) (by decide), rfl, (fun j h => by cases h; rfl), fun _ => rfl,
    (fun h => absurd h (by decide +kernel)), rfl, rfl, rfl, movie_sells,
    ⟨(fun _ h => by cases h), by decide +kernel⟩⟩

/-- The shop of `movie` with slot 2 HELD(NOT_ENTITLED), its key of phase A on the event's preview and a record of phase
B held refused. -/
def granting (req : Requirement) : State :=
  { withPlace 2047 movie 0 with
    slots := base.slots.set 2 { keyed .held .free with
      reason := .notEntitled
      desc := { keyA := some ⟨700, .event 880021, .preview 880021, 0⟩
                heldB := some ⟨{ keyRecord req with phase := .b }, 1⟩ } } }

/-- A purchase with a key on the event's preview, and with a held record of the event, of a tier not held, and free;
openWord is a free value, and what it gives decides which clause speaks. -/
theorem witness_BuyCommits_grants (req : Requirement) :
    (granting req).ready ∧ (granting req).noRise ∧ (granting req).sells 0 movie 1000000
    ∧ (granting req).affords 0 ((granting req).charge movie 600 1000000)
    ∧ ((granting req).slot 2).desc.held .a = none
    ∧ ((granting req).slot 2).desc.key .a = some ⟨700, .event 880021, .preview 880021, 0⟩
    ∧ ((granting req).slot 2).desc.held .b = some ⟨{ keyRecord req with phase := .b }, 1⟩
    ∧ ((granting req).slot 2).desc.outdated { keyRecord req with phase := .b }
    ∧ ((granting req).slot 2).state = .held ∧ ((granting req).slot 2).reason = .notEntitled
    ∧ (Config.openWord 0 = none → (granting req).openWord 0 = none)
    ∧ (∀ w, Config.openWord 0 = some w → (granting req).openWord 0 = some w)
    ∧ (granting req).unmet 2 (.tier 31) ∧ (granting req).meets 2 .free .free := by
  refine ⟨⟨⟨rfl, rfl, show Mode.service ≠ .boot by decide, rfl⟩, show 0 < 8 by decide⟩, base_noRise,
    ⟨rfl, rfl, (fun h => by cases h), rfl, rfl, movie_listed, rfl, by decide, (fun _ h => by cases h),
      show 0 < 32 ∧ 0 < 64 by decide, (fun _ h => by cases h), movie_sells.number⟩,
    show (withPlace 2047 movie 0).affords 0 ((withPlace 2047 movie 0).charge movie 600 1000000) from
      ⟨(fun _ h => by cases h), by decide +kernel⟩, rfl, rfl, rfl, (fun _ o => by cases o),
    rfl, rfl, ?_, ?_, ?_, .free⟩
  · intro e
    simpa [State.openWord, granting, withPlace, base] using e
  · intro w e
    simpa [State.openWord, granting, withPlace, base] using e
  · rintro b (- | ⟨-, held⟩)
    exact absurd (show (base.access.tiers[(31 : Fin 32)]).held = true from held) (by decide +kernel)

theorem base_placed (k : Fin 5) : (base.slot k).desc.placed := by
  have none : ∀ k, (base.slot k).desc = {} := by decide +kernel
  rw [none k]
  rintro (- | -) h e <;> cases e

theorem placed_of {d : Descrambler} (a : ∀ h, d.heldA = some h → h.record.phase = .a)
    (b : ∀ h, d.heldB = some h → h.record.phase = .b) : d.placed
  | .a, h, e => a h e
  | .b, h, e => b h e

/-- A state that slots without held records have but for slot 2. -/
theorem granting_placed (req : Requirement) : ∀ k, ((granting req).slot k).desc.placed
  | 0 | 1 | 3 | 4 => placed_of (fun _ h => by cases h) (fun _ h => by cases h)
  | 2 => placed_of (fun _ h => by cases h) (fun _ h => by cases h; rfl)

/-- An event without a grant, for a slot without a current event. -/
theorem unmet_event {u : State} {k : Fin 5} {id : Nat} (g : ∀ x ∈ u.access.grants, x.eid ≠ id)
    (c : (u.slot k).cur = none) : u.unmet k (.event id) := by
  intro b m
  cases m with
  | grant x held => exact g x held rfl
  | preview e now none cur => rw [c] at cur; cases cur

/-- With the grant in place: the event's requirement met by it, another event's not met, and FREE met; and a slot
without a key on the event's preview. -/
theorem witness_BuyCommits_reexamined (req : Requirement) :
    let u := { granting req with access := { base.access with grants := [⟨880021, 7, 1003600⟩] } }
    (∀ k, ((granting req).slot k).desc.placed)
    ∧ u.meets 2 (.event 880021) (.grant 880021) ∧ u.meets 2 .free .free ∧ u.unmet 2 (.event 880022)
    ∧ (u.slot 2).desc.held .b = some ⟨{ keyRecord req with phase := .b }, 1⟩
    ∧ (∀ p x, ((withSlot 2 (keyed .held .free)).slot 2).desc.key p = some x → x.basis ≠ .preview 880021) := by
  refine ⟨granting_placed req, .grant ⟨880021, 7, 1003600⟩ (.head _), .free,
    unmet_event (fun g held => by cases List.mem_singleton.1 held; decide) rfl, rfl, ?_⟩
  rintro (- | -) x e <;> cases e
  decide

/-- The first check that fails stands after some that do not. -/
theorem firstFails_at {before after : List (Prop × Status)} {check : Prop} {st : Status} (h : check)
    (n : ∀ c ∈ before, ¬ c.1) : firstFails (before ++ (check, st) :: after) st := ⟨before, check, after, rfl, h, n⟩

/-- The shop of `movie` with the access unit's tables changed. -/
def shop (grants purchases : Nat) (now : Nat) : State :=
  { withPlace 2047 movie 0 with
    clock := { base.clock with utc := now }
    access := { base.access with
      grants := (List.range grants).map fun i => { eid := i, sid := 7, endTime := 2000000 }
      purchases := (List.range purchases).map fun i =>
        { seq := i, eid := i, sid := 7, profile := 0, slot := none, charge := 0, time := 0 }
      purse := { base.access.purse with nextSeq := purchases } } }

theorem shop_listed (g p n : Nat) : (shop g p n).listed movie :=
  ⟨guide_ok_one movie 0 (by decide), ⟨2047, movie, 0⟩, .head _, rfl, rfl⟩

/-- A body in range; out of SERVICE and in a lockout; a PIN that is wanted and wrong; no such event. -/
theorem witness_BuyCommits_stops :
    ¬ BuyInRange 8 255 ⟨9, 9, 9, 9⟩ 7 ∧ BuyInRange 7 255 ⟨9, 9, 9, 9⟩ 65535 ∧ BuyInRange 0 4 ⟨0, 0, 0, 0⟩ 1
    ∧ firstFails (State.buyerChecks { base with mode := .standby } 0) .notInMode
    ∧ firstFails ((withProfile 0 { inUse := true, lockout := 1 }).buyerChecks 0) .locked
    ∧ (∀ c ∈ (withProfile 0 { inUse := true, buyNeedsPin := true }).buyerChecks 0, ¬ c.1)
    ∧ ((withProfile 0 { inUse := true, buyNeedsPin := true }).profile 0).buyNeedsPin = true
    ∧ (pinCheck 0 ⟨9, 9, 9, 9⟩ (withProfile 0 { inUse := true, buyNeedsPin := true })).1 = some .denied
    ∧ (base.profile 0).buyNeedsPin = false ∧ base.guide.places = [] :=
  ⟨fun h => absurd h.who (by decide), ⟨by decide, ninePin_ok, .inr rfl, by decide⟩,
    ⟨by decide, zeroPin_ok, .inl (by decide), by decide⟩,
    firstFails_at (before := []) (show Mode.standby ≠ .service by decide) (fun _ h => by cases h),
    firstFails_at (before := ((withProfile 0 { inUse := true, lockout := 1 }).buyerChecks 0).take 4) (by decide +kernel)
      (by
        simp only [State.buyerChecks, List.take, List.forall_mem_cons, List.not_mem_nil, false_implies, implies_true]
        decide +kernel),
    by
      simp only [State.buyerChecks, List.forall_mem_cons, List.not_mem_nil, false_implies, implies_true]
      decide +kernel,
    by decide +kernel, by decide +kernel,
    by decide +kernel, rfl⟩

/-- A second before the window of 24 h; 31 and 32 grants; 63 and 64 records; a cap and a purse below the charge. -/
theorem witness_BuyCommits_event :
    (shop 0 0 1000000).listed movie ∧ movie.sid = (7 : Half).toNat ∧ movie.eid = (880021 : Word).toNat
    ∧ (shop 0 0 1000000).now? = some 1000000
    ∧ firstFails ((shop 0 0 1000000).eventChecks { movie with price := none } 1000000) .notPurchasable
    ∧ firstFails ((shop 0 0 909999).eventChecks movie 909999) .notOnAir
    ∧ firstFails ((shop 32 0 910000).eventChecks movie 910000) .full
    ∧ firstFails ((shop 31 64 1000000).eventChecks movie 1000000) .listFull
    ∧ (∀ c ∈ (shop 31 63 1000000).eventChecks movie 1000000, ¬ c.1)
    ∧ firstFails (State.chargeChecks (withProfile 0 { cap := some 299 }) 0 300) .capExceeded
    ∧ firstFails (State.chargeChecks (withProfile 0 { cap := some 621 }) 0 621) .creditShort
    ∧ (∀ c ∈ State.chargeChecks (withProfile 0 { cap := some 620 }) 0 620, ¬ c.1) := by
  refine ⟨shop_listed _ _ _, rfl, rfl, rfl, firstFails_at (before := []) (.inr rfl) (fun _ h => by cases h),
    firstFails_at (before := ((shop 0 0 909999).eventChecks movie 909999).take 1) (by decide +kernel) ?_,
    firstFails_at (before := ((shop 32 0 910000).eventChecks movie 910000).take 3) (by decide +kernel) ?_,
    firstFails_at (before := ((shop 31 64 1000000).eventChecks movie 1000000).take 4) (by decide +kernel) ?_, ?_,
    firstFails_at (before := []) (by decide +kernel) (fun _ h => by cases h),
    firstFails_at (before := (State.chargeChecks (withProfile 0 { cap := some 621 }) 0 621).take 1) (by decide +kernel) ?_,
    ?_⟩ <;>
    simp only [State.eventChecks, State.chargeChecks, List.take, List.forall_mem_cons, List.not_mem_nil, false_implies,
      implies_true] <;>
    decide +kernel

/-- Up to the grace and one second past it, for the charge; the fields. What stops a QUOTE stands at BUY. -/
theorem witness_ChargesQuoted :
    ((400 : Nat) < 0 + 60 * 120 ∧ ((600 : Nat) : Int) - (0 : Nat) ≤ 60 * ((10 : Nat) : Int))
    ∧ ((601 : Nat) : Int) - (0 : Nat) > 60 * ((10 : Nat) : Int)
    ∧ base.ready ∧ 8 ≤ (8 : Byte).toNat ∧ (7 : Byte).toNat = (7 : Fin 8).val
    ∧ (∀ c ∈ (withPlace 2047 movie 0).buyerChecks 0, ¬ c.1)
    ∧ State.ready (withPlace 2047 movie 0) ∧ (withPlace 2047 movie 0).listed movie :=
  ⟨by decide, by decide, base_ready, by decide, by decide,
    by simp only [State.buyerChecks, List.forall_mem_cons, List.not_mem_nil, false_implies, implies_true]; decide +kernel,
    ready_of rfl (by decide) (by decide), movie_listed⟩

/-- An ENTITLEMENT record for this box or for another. -/
def entitlement (other : Bool) (issue : Nat) (x : EntKind) (authentic : Bool) : EntRecord :=
  { address := if other then Config.boxAddress + 1 else Config.boxAddress, issue, kind := some x, authentic }

theorem witness_EntitlementApplied :
    base.restarting = false ∧ base.access.deviceKey ≠ .unusable
    ∧ (entitlement true 1 (.creditAdd 1) true).address ≠ Config.boxAddress
    ∧ ((entitlement false 1 (.creditAdd 1) false).address = Config.boxAddress
      ∧ (entitlement false 1 (.creditAdd 1) false).authentic = false)
    ∧ (entitlement false 0 (.limitSet 65535) true).issue ≤ base.access.purse.lastIssue
    ∧ base.access.purse.lastIssue < (entitlement false 1 (.tierSet 31 none) true).issue
    ∧ (entitlement false 1 (.tierSet 31 none) true).kind = some (.tierSet 31 none) := by
  refine ⟨rfl, by decide, ?_, ⟨rfl, rfl⟩, by decide, by decide, rfl⟩
  intro h
  simp [entitlement] at h

/-- `base` with tier 31 held to a time, slot 2's key on it, and a grant with an end. -/
def rights (expiry endTime : Nat) (known : Bool) (b : Basis) : State :=
  { withSlot 2 (keyed .presenting b) with
    clock := { base.clock with known }
    access := { base.access with
      tiers := base.access.tiers.set 31 { held := true, expiry := some expiry }
      grants := [⟨5, 8, endTime⟩] } }

/-- A requirement met on each basis of R84, and one that no basis meets. -/
theorem witness_KeysComparedAndTimed_bases :
    base.meets 2 .free .free
    ∧ (rights 1000001 0 true .free).meets 2 (.tier 31) (.tier 31)
    ∧ (rights 0 0 true .free).meets 2 (.event 5) (.grant 5)
    ∧ State.meets (withSlot 2 { keyed .held .free with cur := some ⟨9, 1, 999940, 1, 2, none, 2⟩ }) 2 (.event 9) (.preview 9)
    ∧ base.unmet 2 (.tier 31) := by
  refine ⟨.free, .tier 31 (by decide +kernel) fun e now h k => by cases h; cases k; decide,
    .grant ⟨5, 8, 0⟩ (.head _), .preview ⟨9, 1, 999940, 1, 2, none, 2⟩ 1000000 (fun _ h => by cases h) rfl rfl (by decide), ?_⟩
  rintro b (- | ⟨-, held⟩)
  exact absurd held (by decide +kernel)

theorem rights_live (e g : Nat) (k : Bool) (b : Basis) : (rights e g k b).live :=
  ⟨rfl, rfl, show Mode.service ≠ .boot by decide, rfl⟩

/-- A record of any kind, issued next; tier 31 cleared while held, expired, and not held. -/
theorem witness_EntitlementApplied_kinds :
    (∀ x, (entitlement false 1 x true).address = Config.boxAddress ∧ (entitlement false 1 x true).authentic = true
      ∧ base.access.purse.lastIssue < (entitlement false 1 x true).issue
      ∧ (entitlement false 1 x true).kind = some x)
    ∧ ((rights 1000001 0 true (.tier 31)).slot 2).desc.restsOn (.tier 31) = true
    ∧ (∀ e now, ((rights 1000001 0 true (.tier 31)).access.tiers[(31 : Fin 32)]).expiry = some e →
      (rights 1000001 0 true (.tier 31)).now? = some now → now < e)
    ∧ (((rights 1000000 0 true (.tier 31)).access.tiers[(31 : Fin 32)]).expiry = some 1000000
      ∧ (rights 1000000 0 true (.tier 31)).now? = some 1000000)
    ∧ ((rights 1000000 0 true (.tier 30)).slot 2).desc.restsOn (.tier 30) = true
    ∧ ((rights 1000000 0 true (.tier 30)).access.tiers[(30 : Fin 32)]).held = false :=
  ⟨fun _ => ⟨rfl, rfl, show 0 < 1 by decide, rfl⟩, by decide +kernel, (fun e now h k => by cases h; cases k; decide),
    by decide +kernel⟩

/-- TIER_SET of tier 31 with records held refused: of the tier, of an event without a grant, and free. -/
theorem witness_EntitlementApplied_reexamined (req : Requirement) :
    let u := { granting req with access := { base.access with
      tiers := base.access.tiers.set 31 { held := true, expiry := some 1000001 } } }
    (granting req).restarting = false ∧ (granting req).access.deviceKey ≠ .unusable
    ∧ (∀ k, ((granting req).slot k).desc.placed)
    ∧ u.meets 2 (.tier 31) (.tier 31) ∧ u.meets 2 .free .free ∧ u.unmet 2 (.event 5)
    ∧ (u.slot 2).desc.held .a = none ∧ (u.slot 2).desc.held .b = some ⟨{ keyRecord req with phase := .b }, 1⟩
    ∧ (u.slot 2).state = .held ∧ (u.slot 2).reason = .notEntitled
    ∧ (Config.openWord 0 = none → u.openWord 0 = none)
    ∧ ∀ w, Config.openWord 0 = some w → u.openWord 0 = some w := by
  refine ⟨rfl, show KeyStatus.usable ≠ .unusable by decide, granting_placed req,
    .tier 31 (by rfl) (fun e now h k => by cases h; cases k; exact show 1000000 < 1000001 by decide), .free,
    unmet_event (fun _ held => by cases held) rfl, rfl, rfl, rfl, rfl,
    (fun e => by simpa [State.openWord, granting, withPlace, base] using e),
    fun w e => by simpa [State.openWord, granting, withPlace, base] using e⟩

/-- Expired now and one second from it; 300 s past the end and one second less. -/
theorem witness_RightsExpire :
    (rights 1000000 999700 false .free).now? = none
    ∧ (rights 1000000 999700 true (.tier 31)).now? = some 1000000
    ∧ (∀ i : Fin 32, ((rights 1000001 0 true .free).access.tiers[i].held
        && (rights 1000001 0 true .free).access.tiers[i].expiry.any (· ≤ 1000000)) = false)
    ∧ (((rights 1000000 0 true .free).access.tiers[(31 : Fin 32)].held
        && (rights 1000000 0 true .free).access.tiers[(31 : Fin 32)].expiry.any (· ≤ 1000000)) = true)
    ∧ ((rights 1000000 0 true (.tier 31)).slot 2).desc.restsOn (.tier 31) = true
    ∧ (∀ g ∈ (rights 0 999701 true .free).access.grants, 1000000 < g.endTime + 300)
    ∧ (∃ g ∈ (rights 0 999700 true .free).access.grants, g.endTime + 300 ≤ 1000000)
    ∧ ((rights 0 999700 true (.grant 5)).slot 2).desc.restsOn (.grant 5) = true
    ∧ ((rights 0 0 true (.preview 9)).previewOver 2 = true ∧ (rights 0 0 true .free).previewOver 2 = false)
    ∧ ((rights 0 0 true (.preview 9)).slot 2).state ∈ [SlotState.acquiring, .presenting, .held] := by
  decide +kernel

theorem witness_RightsExpire_live : (rights 0 0 true .free).live ∧ (rights 0 0 true .free).noRise :=
  ⟨rights_live _ _ _ _, base_noRise⟩

/-- A period start at the anchor and a negative whole number of periods. -/
def period (r : Option Int) : State :=
  { base with access := { base.access with purse := { base.access.purse with period := 1, anchor := 1086400, periodStart := r } } }

/-- Terms taken with the time unknown, and at 1,000,000, in period 11 of days from 0: begun before it, in it, or with
no start recorded; a profile that has spent. -/
theorem witness_EntitlementApplied_terms :
    ({ base with clock := { base.clock with known := false } }).now? = none
    ∧ base.now? = some 1000000 ∧ (0 : Int) + 11 * (1 * 86400) ≤ 1000000 ∧ (1000000 : Int) < 0 + 11 * 86400 + 86400
    ∧ (∀ b, base.access.purse.periodStart = some b → b < 950400)
    ∧ (period (some 950399)).access.purse.periodStart = some 950399
    ∧ (period (some 950400)).access.purse.periodStart = some 950400
    ∧ 0 < ((withProfile 7 { inUse := true, spend := 1 }).profile 7).spend :=
  ⟨rfl, rfl, by decide, by decide, (fun _ h => by cases h), rfl, rfl, by decide +kernel⟩

/-- Some profiles have spent, and others not. -/
theorem witness_PeriodRollsOver_spent :
    (allProfiles.filter fun p => ((withProfile 7 { inUse := true, spend := 1 }).profile p).spend != 0) = [7] := by
  decide +kernel

theorem witness_PeriodRollsOver :
    (period none).live ∧ (period none).now? = some 1000000
    ∧ ((period none).access.purse.anchor : Int) + (-1) * ((period none).access.purse.period * 86400) ≤ 1000000
    ∧ (1000000 : Int) < ((period none).access.purse.anchor : Int) + (-1) * ((period none).access.purse.period * 86400)
      + (period none).access.purse.period * 86400
    ∧ (∀ r, (period none).access.purse.periodStart = some r → r < 1000000)
    ∧ (∀ r, (period (some 999999)).access.purse.periodStart = some r → r < 1000000)
    ∧ (period (some 1000000)).access.purse.periodStart = some 1000000 :=
  ⟨⟨rfl, rfl, by decide, rfl⟩, by decide +kernel, by decide +kernel, by decide +kernel,
    (fun _ h => by cases h), (fun _ h => by cases h; decide), rfl⟩

/-- A command in front, and an idle millisecond. -/
theorem witness_PurchasesBalance :
    (¬ State.assembles { base with pending := [.prune] } ∧ ∃ t, step { base with pending := [.prune] } = .next t)
    ∧ (¬ base.assembles ∧ ∃ t, step base = .next t) ∧ base.access.balanced :=
  ⟨⟨id, _, rfl⟩, ⟨Bool.false_ne_true, _, rfl⟩, rfl⟩

/-! ### Hypotheses met: the guide and the sweep -/

/-- The body of a GUIDE_PUT. -/
def guidePutBody (eid start : Word) (duration : Half) : GuideReq :=
  { sid := 7, eid, version := 1, start, duration, rating := 9, pricePresent := 0, price := 0, purchasable := 0
    prorate := 0, preview := 0, title := 0 }

/-- The event of a GUIDE_PUT. -/
def guideEntry (eid start duration : Nat) : GuideEvent :=
  { sid := 7, eid, version := 1, start, duration, rating := 6, price := none, purchasable := false
    prorate := false, preview := 0, title := 0 }

theorem guidePut_inRange (eid start : Word) (duration : Half)
    (h : (1 ≤ duration.toNat ∧ duration.toNat ≤ 1440) ∧ start.toNat + 60 * duration.toNat ≤ 4294967295) :
    (guidePutBody eid start duration).inRange := ⟨show (7 : Half) ≠ 0 by decide, h.1, .inl rfl, .inl rfl, .inl rfl, h.2⟩

theorem guidePut_writes (eid start : Word) (duration : Half) (d : Nat) (h : duration.toNat = d) :
    (guidePutBody eid start duration).writes (guideEntry eid.toNat start.toNat d) :=
  ⟨rfl, rfl, rfl, rfl, h.symm, rfl, rfl, by simp [guideEntry, guidePutBody], by simp [guideEntry, guidePutBody], rfl,
    rfl⟩

/-- A minute and 1,440, 1,441; an end 3,600 s past and 3,599; the version that is held; another one, which goes with
an entry that overlaps; an empty place below one that is taken. -/
theorem witness_GuidePutPlaces :
    base.ready ∧ ¬(guidePutBody 1 0 1441).inRange
    ∧ ((guidePutBody 1 996340 1).inRange ∧ (guidePutBody 1 996340 1).writes (guideEntry 1 996340 1))
    ∧ (∀ now, base.now? = some now → (guideEntry 1 996340 1).stop + 3600 ≤ now)
    ∧ (∀ now, base.now? = some now → now < (guideEntry 1 996341 1).stop + 3600)
    ∧ ((withPlace 1 (guideEntry 1 996341 1440) 0).listed (guideEntry 1 996341 1440)
      ∧ State.ready (withPlace 1 (guideEntry 1 996341 1440) 0))
    ∧ ((guidePutBody 1 996341 1440).inRange ∧ (guidePutBody 1 996341 1440).writes (guideEntry 1 996341 1440))
    ∧ (withPlace 1 { guideEntry 1 996341 1440 with version := 2 } 0).guide.ok
    ∧ (guideEntry 1 996341 1440).ousts ⟨1, { guideEntry 1 996341 1440 with version := 2 }, 0⟩ = true
    ∧ (guideEntry 1 996341 1440).ousts ⟨1, guideEntry 2 1082740 1, 0⟩ = true
    ∧ (guideEntry 1 996341 1440).ousts ⟨1, guideEntry 2 1082741 1, 0⟩ = false
    ∧ (∀ p ∈ (withPlace 1 (guideEntry 2 1082741 1) 0).guide.places, p.num ≠ 0)
    ∧ (withPlace 1 (guideEntry 2 1082740 1) 0).unwatched 7 [1, 2] :=
  ⟨base_ready, fun h => absurd h.duration (by decide),
    ⟨guidePut_inRange _ _ _ (by decide), guidePut_writes _ _ _ _ rfl⟩, (fun _ h => by cases h; decide),
    (fun _ h => by cases h; decide),
    ⟨⟨guide_ok_one _ _ (by decide), ⟨1, guideEntry 1 996341 1440, 0⟩, .head _, rfl, rfl⟩, ready_of rfl (by decide) (by decide)⟩,
    ⟨guidePut_inRange _ _ _ (by decide), guidePut_writes _ _ _ _ rfl⟩, guide_ok_one _ _ (by decide), by decide +kernel,
    by decide +kernel, by decide +kernel, by decide +kernel, rfl, by decide +kernel⟩

/-- 5.7 event 1 with slot 4 on the service, entry 3 RUNNING on the event that is replaced, with a trail of 300 s, and
entry 5 ARMED on one that is displaced. -/
def watched : State :=
  { base with
    clock := { base.clock with utc := 70800 }
    slots := base.slots.set 4 (recording .presenting)
    guide := { places := [⟨0, { guideEntry 700100 68400 60 with version := 3 }, 0⟩, ⟨1, guideEntry 700101 72000 60, 0⟩,
                          ⟨2, guideEntry 700102 75600 30, 0⟩, ⟨3, guideEntry 700103 77400 60, 0⟩] }
    schedule := (base.schedule.set 3 { state := .running, trigger := .atEvent 7 700101 600, action := .record 4 7 300
                                       triggerTime := some 71400, endTime := some 75900, orphan := true }).set 5
      { state := .armed, trigger := .atEvent 7 700102 0, action := .remind, triggerTime := some 75600 } }

theorem watched_ok : watched.guide.ok :=
  ⟨by simp [KeySorted, watched], by simp [watched],
    by simp [watched, GuideEvent.apart, GuideEvent.overlaps, guideEntry, GuideEvent.stop], fun _ h => by cases h⟩

theorem watched_noRise : watched.noRise := by
  intro n c _ h
  have none : ∀ n : Fin 24, (match (watched.entry n).trigger with
    | .auxRise _ => false
    | _ => true) = true := by decide +kernel
  have := none n
  rw [h] at this
  cases this

/-- The run's end is the new end plus the trail, no orphan; the other entry is one; the slot's current event is the new
version, on air (R26, R165). -/
theorem test_guidePut_watched :
    let t := after (.guidePut 1 { guidePutBody 700101 70200 120 with version := 2 }) watched
    ((t.entry 3).endTime, (t.entry 3).triggerTime, (t.entry 3).orphan) = (some 77700, some 69600, false)
    ∧ (t.entry 3).state = .running ∧ (t.entry 5).orphan = true ∧ (t.entry 5).triggerTime = some 75600
    ∧ (t.slot 4).cur.map (fun e => (e.eid, e.version)) = some (700101, 2) := by decide +kernel

/-- The first places occupied: entries of a minute, one after another from 2,000,000 on. -/
def packed (n : Nat) : State :=
  { base with guide := { places := (List.range n).map fun i => { num := i, ev := guideEntry (i + 1) (2000000 + 60 * i) 1 } } }

theorem mem_packed {n : Nat} {p : Place} (h : p ∈ (packed n).guide.places) :
    ∃ i < n, p = { num := i, ev := guideEntry (i + 1) (2000000 + 60 * i) 1 } :=
  let ⟨i, hi, e⟩ := List.mem_map.1 h
  ⟨i, List.mem_range.1 hi, e.symm⟩

theorem packed_ok {n : Nat} (h : n ≤ 2048) : (packed n).guide.ok :=
  ⟨List.pairwise_map.2 List.pairwise_lt_range,
    fun p hp => let ⟨_, hi, e⟩ := mem_packed hp; by subst e; exact Nat.lt_of_lt_of_le hi h,
    List.pairwise_map.2 (List.pairwise_lt_range.imp fun {a b} hab _ =>
      ⟨show a + 1 ≠ b + 1 by omega,
        Bool.and_eq_false_iff.2 (.inr (decide_eq_false (show ¬ 2000000 + 60 * b < 2000000 + 60 * a + 60 * 1 by omega)))⟩),
    fun _ h => by cases h⟩

theorem packed_last (n : Nat) : (packed (n + 1)).guide.last ⟨n, guideEntry (n + 1) (2000000 + 60 * n) 1, 0⟩ := by
  refine ⟨List.mem_map.2 ⟨n, List.mem_range.2 (Nat.lt_succ_self n), rfl⟩, fun p hp => ?_⟩
  obtain ⟨i, hi, rfl⟩ := mem_packed hp
  show 2000000 + 60 * i < 2000000 + 60 * n ∨ (2000000 + 60 * i = 2000000 + 60 * n ∧ i ≤ n)
  omega

theorem packed_apart {n : Nat} (e : GuideEvent) (h : e.sid = 8) : ∀ p ∈ (packed n).guide.places, e.apart p.ev := by
  intro p hp same
  obtain ⟨i, -, rfl⟩ := mem_packed hp
  exact absurd (h.symm.trans same) (show (8 : Nat) ≠ 7 by decide)

theorem packed_unwatched (n sid : Nat) (x : List Nat) : (packed n).unwatched sid x :=
  ⟨show base.slotsOf sid = [] by
      have h : ∀ k : Fin 5, (base.slot k).service = none := by decide +kernel
      simp [State.slotsOf, h],
    fun i y _ => show (base.entry i).tiedTo sid y = false by
      have h : ∀ i : Fin 24, base.entry i = {} := by decide +kernel
      rw [h]; rfl⟩

theorem packed_noRise (n : Nat) : (packed n).noRise := base_noRise

/-- A placement that a slot and entries watch. -/
theorem witness_GuidePutPlaces_watched :
    watched.ready ∧ watched.guide.ok ∧ watched.noRise ∧ watched.intact 7
    ∧ watched.slotsOf 7 = [4] ∧ watched.followers { guideEntry 700101 70200 120 with version := 2 } = [.runEnd 3]
    ∧ watched.followers (guideEntry 700102 0 0) = [.scheduleTrigger 5] ∧ (watched.entry 5).tiedTo 7 700102 = true
    ∧ (∀ now, watched.now? = some now → now < (guideEntry 700101 70200 120).stop + 3600)
    ∧ (packed 2048).intact 7 ∧ (packed 2048).intact 8 ∧ (packed 2048).noRise :=
  ⟨⟨⟨rfl, rfl, show Mode.service ≠ .boot by decide, rfl⟩, show 0 < 8 by decide⟩, watched_ok, watched_noRise,
    by unfold State.intact; decide +kernel, by decide +kernel, by decide +kernel, by decide +kernel, by decide +kernel,
    (fun _ h => by cases h; decide), (fun p hp _ => by obtain ⟨_, _, rfl⟩ := mem_packed hp; rfl),
    (fun p hp _ => by obtain ⟨_, _, rfl⟩ := mem_packed hp; rfl), packed_noRise _⟩

/-- A full store, and events that start as its latest entry does, of another service, and a second before it. -/
theorem witness_GuidePutPlaces_full :
    (packed 2048).ready ∧ (packed 2048).guide.ok ∧ 2048 ≤ (packed 2048).guide.places.length
    ∧ (packed 2048).guide.last ⟨2047, guideEntry 2048 2122820 1, 0⟩
    ∧ (∀ p ∈ (packed 2048).guide.places, GuideEvent.apart { guideEntry 0 2122820 1 with sid := 8 } p.ev)
    ∧ (guideEntry 2048 2122820 1).start ≤ ({ guideEntry 0 2122820 1 with sid := 8 } : GuideEvent).start
    ∧ ({ guideEntry 0 2122819 1 with sid := 8 } : GuideEvent).start < (guideEntry 2048 2122820 1).start
    ∧ (packed 2048).unwatched 8 [0] ∧ (packed 2048).unwatched 7 [2048] :=
  ⟨⟨⟨rfl, rfl, show Mode.service ≠ .boot by decide, rfl⟩, show 0 < 8 by decide⟩, packed_ok (Nat.le_refl _),
    Nat.le_of_eq (by rw [packed, List.length_map, List.length_range]), packed_last 2047, packed_apart _ rfl,
    by decide, by decide, packed_unwatched _ _ _, packed_unwatched _ _ _⟩

/-- A record with its check (R61), in a CLEAR cell of a tag. -/
def streamCell (tag : Nat) (r : List Byte) : List Byte :=
  ((cellOf tag 0 0).take 4 ++ r ++ u16 (crc16 r).toNat ++ List.replicate 124 0).take 128

/-- Lane 1 LOCKED with its control entries, one guide entry in the store. -/
def gathering : State :=
  { withPlace 5 movie 0 with
    lanes := base.lanes.set 1 lockedLane
    router := { filters := controlFilters 1 } }

/-- The GUIDE_EVENT record of an event of service 7, of a rating (R104, R192). -/
def eventRecord (rating : Byte) : List Byte :=
  [3, 30, 0, 7, 0, 0, 0, 1, 1, 0, 30, 132, 128, 0, 5, rating, 0, 0, 0, 0, 0, 0, 0, 0, 0, 0, 0, 0]

/-- The GUIDE_CANCEL record of an event of a service below 256 (R104, R192). -/
def cancelRecord (sid : Byte) : List Byte := [4, 10, 0, sid, 0, 13, 109, 149]

theorem brings_of {tag kind : Nat} {x : Consumer} {r : List Byte}
    (e : keyFind Filter.key (1024 + tag) (controlFilters 1) = some ⟨1, tag, .consumer x, none⟩) (h : x.takes kind = true)
    (v : (viewCellBytes (streamCell tag r)).phase = .clear ∧ (viewCellBytes (streamCell tag r)).tag = tag)
    (c : ((recordOf (viewCellBytes (streamCell tag r)).payload).map fun x => (x.kind, x.bytes))
      = some (kind, r ++ u16 (crc16 r).toNat)) :
    gathering.brings 1 (streamCell tag r) kind (r ++ u16 (crc16 r).toNat) :=
  ⟨by decide +kernel, v.1, ⟨⟨1, tag, .consumer x, none⟩, x, by rw [v.2]; exact e, rfl, h⟩, by
      obtain ⟨⟨k, b⟩, e, hx⟩ := Option.map_eq_some_iff.1 c
      cases hx
      exact e⟩

/-- Ratings 6 and 7; a GUIDE_PUT of the same event. -/
theorem witness_GuidePutPlaces_records :
    gathering.ready ∧ gathering.brings 1 (streamCell 3 (eventRecord 6)) 3 (eventRecord 6 ++ u16 (crc16 (eventRecord 6)).toNat)
    ∧ guideEventOf (eventRecord 6 ++ u16 (crc16 (eventRecord 6)).toNat) = some (guideEntry 1 2000000 5)
    ∧ ((guidePutBody 1 2000000 5).inRange ∧ (guidePutBody 1 2000000 5).writes (guideEntry 1 2000000 5))
    ∧ gathering.brings 1 (streamCell 3 (eventRecord 7)) 3 (eventRecord 7 ++ u16 (crc16 (eventRecord 7)).toNat)
    ∧ guideEventOf (eventRecord 7 ++ u16 (crc16 (eventRecord 7)).toNat) = none :=
  ⟨⟨⟨rfl, rfl, show Mode.service ≠ .boot by decide, rfl⟩, show 0 < 8 by decide⟩,
    brings_of (x := .guide) (by decide +kernel) rfl (by decide +kernel) (by decide +kernel), by decide +kernel,
    ⟨guidePut_inRange _ _ _ (by decide), guidePut_writes _ _ _ _ rfl⟩,
    brings_of (x := .guide) (by decide +kernel) rfl (by decide +kernel) (by decide +kernel), by decide +kernel⟩

/-- The TIME record of 1,000,003 with an offset's low byte (R104, R192). -/
def timeBytesOf (offset : Byte) : List Byte := [5, 10, 0, 15, 66, 67, 3, offset]

/-- A TIME record in a cell of the KEY tag. -/
theorem witness_CellsRouted_kind :
    (viewCellBytes (streamCell 1 (timeBytesOf 72))).phase = .clear
    ∧ keyFind Filter.key (1024 + (viewCellBytes (streamCell 1 (timeBytesOf 72))).tag) gathering.router.filters
      = some { lane := 1, tag := 1, dest := .consumer .key }
    ∧ (∃ r, recordOf (viewCellBytes (streamCell 1 (timeBytesOf 72))).payload = some r ∧ r.kind ∉ Consumer.key.kinds) := by
  refine ⟨by decide +kernel, by decide +kernel, ?_⟩
  have h : ((recordOf (viewCellBytes (streamCell 1 (timeBytesOf 72))).payload).map fun r => r.kind) = some 5 := by
    decide +kernel
  obtain ⟨r, e, k⟩ := Option.map_eq_some_iff.1 h
  exact ⟨r, e, by rw [k]; decide⟩

theorem gathering_live : gathering.live ∧ gathering.noRise :=
  ⟨⟨rfl, rfl, show Mode.service ≠ .boot by decide, rfl⟩, base_noRise⟩

/-- The KEY record of a period 700 for service 8, with a phase code (R62, R192). -/
def keyBytes (phase : Byte) : List Byte := [1, 30, 0, 8, phase, 2, 188, 0, 0, 0, 0, 0] ++ List.replicate 16 0

/-- Phase B, and the code after it. -/
theorem witness_KeysComparedAndTimed_cells :
    gathering.brings 1 (streamCell 1 (keyBytes 1)) 1 (keyBytes 1 ++ u16 (crc16 (keyBytes 1)).toNat)
    ∧ keyRecordOf (keyBytes 1 ++ u16 (crc16 (keyBytes 1)).toNat) = some { keyRecord .free with phase := .b }
    ∧ gathering.brings 1 (streamCell 1 (keyBytes 2)) 1 (keyBytes 2 ++ u16 (crc16 (keyBytes 2)).toNat)
    ∧ keyRecordOf (keyBytes 2 ++ u16 (crc16 (keyBytes 2)).toNat) = none :=
  ⟨brings_of (x := .key) (by decide +kernel) rfl (by decide +kernel) (by decide +kernel), by decide +kernel,
    brings_of (x := .key) (by decide +kernel) rfl (by decide +kernel) (by decide +kernel), by decide +kernel⟩

/-- The ENTITLEMENT record of a kind that names tier 31 without an expiry, for box 0, issue 1 (R77, R192). -/
def entBytes (kind : Byte) : List Byte := [2, 37, 0, 0, 0, 0, 0, 0, 0, 1, kind, 31] ++ List.replicate 23 0

/-- The device key usable and not; TIER_CLEAR, and the code after the last kind. -/
theorem witness_EntitlementApplied_cells :
    gathering.brings 1 (streamCell 2 (entBytes 1)) 2 (entBytes 1 ++ u16 (crc16 (entBytes 1)).toNat)
    ∧ (entRecordOf (entBytes 1 ++ u16 (crc16 (entBytes 1)).toNat)).kind = some (.tierClear 31)
    ∧ gathering.access.deviceKey ≠ .unusable
    ∧ State.brings { gathering with access := { deviceKey := .unusable } } 1 (streamCell 2 (entBytes 1)) 2
      (entBytes 1 ++ u16 (crc16 (entBytes 1)).toNat)
    ∧ gathering.brings 1 (streamCell 2 (entBytes 6)) 2 (entBytes 6 ++ u16 (crc16 (entBytes 6)).toNat)
    ∧ (entRecordOf (entBytes 6 ++ u16 (crc16 (entBytes 6)).toNat)).kind = none :=
  have b := brings_of (tag := 2) (r := entBytes 1) (x := .entitlement) (by decide +kernel) rfl (by decide +kernel) (by decide +kernel)
  ⟨b, by decide +kernel, by decide, ⟨b.1, b.2, b.3, b.4⟩,
    brings_of (x := .entitlement) (by decide +kernel) rfl (by decide +kernel) (by decide +kernel), by decide +kernel⟩

/-- The offsets 840 and 841. -/
theorem witness_TimeSetSteps_cells :
    gathering.brings 1 (streamCell 4 (timeBytesOf 72)) 5 (timeBytesOf 72 ++ u16 (crc16 (timeBytesOf 72)).toNat)
    ∧ timeOf (timeBytesOf 72 ++ u16 (crc16 (timeBytesOf 72)).toNat) = some (1000003, 840)
    ∧ gathering.brings 1 (streamCell 4 (timeBytesOf 73)) 5 (timeBytesOf 73 ++ u16 (crc16 (timeBytesOf 73)).toNat)
    ∧ timeOf (timeBytesOf 73 ++ u16 (crc16 (timeBytesOf 73)).toNat) = none :=
  ⟨brings_of (x := .time) (by decide +kernel) rfl (by decide +kernel) (by decide +kernel), by decide +kernel,
    brings_of (x := .time) (by decide +kernel) rfl (by decide +kernel) (by decide +kernel), by decide +kernel⟩

/-- A record that cancels the entry held, one of another service, and one of service 0. -/
theorem witness_GuideEntriesLeave_records :
    gathering.brings 1 (streamCell 3 (cancelRecord 7)) 4 (cancelRecord 7 ++ u16 (crc16 (cancelRecord 7)).toNat)
    ∧ cancelOf (cancelRecord 7 ++ u16 (crc16 (cancelRecord 7)).toNat) = some (7, 880021)
    ∧ (∃ p ∈ gathering.guide.places, p.ev.sid = 7 ∧ p.ev.eid = 880021)
    ∧ cancelOf (cancelRecord 8 ++ u16 (crc16 (cancelRecord 8)).toNat) = some (8, 880021)
    ∧ (∀ p ∈ gathering.guide.places, ¬(p.ev.sid = 8 ∧ p.ev.eid = 880021))
    ∧ gathering.brings 1 (streamCell 3 (cancelRecord 0)) 4 (cancelRecord 0 ++ u16 (crc16 (cancelRecord 0)).toNat)
    ∧ cancelOf (cancelRecord 0 ++ u16 (crc16 (cancelRecord 0)).toNat) = none :=
  ⟨brings_of (x := .guide) (by decide +kernel) rfl (by decide +kernel) (by decide +kernel), by decide +kernel, by decide +kernel, by decide +kernel,
    by decide +kernel, brings_of (x := .guide) (by decide +kernel) rfl (by decide +kernel) (by decide +kernel), by decide +kernel⟩

theorem witness_GuideEntriesLeave :
    base.ready ∧ (7 : Half) ≠ 0 ∧ base.guide.places = []
    ∧ State.ready (withPlace 2047 movie 2) ∧ (withPlace 2047 movie 2).guide.ok
    ∧ (∃ p ∈ (withPlace 2047 movie 2).guide.places, p.ev.sid = (7 : Half).toNat ∧ p.ev.eid = (880021 : Word).toNat)
    ∧ ({ base with clock := { base.clock with known := false } }).now? = none
    ∧ (withPlace 2047 movie 2).now? = some 1000000
    ∧ (∀ p ∈ (withPlace 2047 movie 2).guide.places, 1 ≤ p.ev.duration) :=
  ⟨base_ready, by decide, rfl, ready_of rfl (by decide) (by decide), guide_ok_one _ _ (by decide),
    by decide +kernel⟩

/-- The entry dropped, a tied entry of the schedule, another entry that can be read, and no slot on the service; all
that are due in a PRUNE can be read. -/
theorem witness_GuideEntriesLeave_held :
    (∃ p ∈ (withPlace 2047 movie 1).guide.places, ¬(p.ev.sid = (8 : Half).toNat ∧ p.ev.eid = (880021 : Word).toNat)
      ∧ p.disturbed ≤ 1)
    ∧ ((withEntry 3 { state := .armed, trigger := .atEvent 7 880021 0 }).entry 3).tiedTo 7 880021 = true
    ∧ (withPlace 2047 movie 2).slotsOf 7 = []
    ∧ (∀ p ∈ (withPlace 2047 { movie with start := 989200 } 1).guide.places, p.disturbed ≤ 1)
    ∧ (∃ p ∈ (withPlace 2047 { movie with start := 989200 } 1).guide.places, p.ev.stop + 3600 ≤ 1000000) := by
  decide +kernel

theorem witness_GuideQueriesReport :
    base.ready ∧ State.ready (withPlace 2047 movie 0) ∧ (withPlace 2047 movie 0).guide.ok
    ∧ (∀ p ∈ (withPlace 2047 movie 0).guide.readsFor 1 (withPlace 2047 movie 0).guide.places,
      (withPlace 2047 movie 0).guide.serves p = true ∨ p.disturbed = 0)
    ∧ (withPlace 2047 movie 0).now? = some 1000000
    ∧ ({ withPlace 2047 movie 0 with clock := { base.clock with known := false } }).now? = none :=
  ⟨base_ready, ready_of rfl (by decide) (by decide), guide_ok_one _ _ (by decide), by decide +kernel⟩

/-- Three entries of service 7, on air and later, by their disturbed bits, and slot 4 on the service or none. -/
def listedAt (a b c : Nat) (slot : Bool) : State :=
  { base with
    slots := if slot then base.slots.set 4 (recording .presenting) else base.slots
    guide := { places := [⟨3, guideEntry 1 999000 60, a⟩, ⟨5, guideEntry 2 1003000 10, b⟩,
                          ⟨9, guideEntry 3 1004000 10, c⟩] } }

theorem listedAt_ok (a b c : Nat) (slot : Bool) : (listedAt a b c slot).guide.ok :=
  ⟨by simp [KeySorted, listedAt], by simp [listedAt],
    by simp [listedAt, GuideEvent.apart, GuideEvent.overlaps, guideEntry, GuideEvent.stop], fun _ h => by cases h⟩

/-- Two entries asked for: the first CORRECTED, the second past correction, the third CORRECTED too; with no slot on the
service, and with one. -/
theorem witness_GuideQueriesReport_reads :
    (listedAt 1 2 1 false).ready ∧ (listedAt 1 2 1 false).guide.ok
    ∧ (listedAt 1 2 1 false).slotsOf 7 = [] ∧ (listedAt 1 2 1 true).slotsOf 7 = [4] ∧ (listedAt 1 2 1 true).noRise
    ∧ ((listedAt 1 2 1 true).guide.readsFor 2 (listedAt 1 2 1 true).guide.places).map (·.num) = [3, 5, 9]
    ∧ ((listedAt 1 2 1 true).guide.readsFor 1 (listedAt 1 2 1 true).guide.places).map (·.num) = [3]
    ∧ ((listedAt 1 2 1 true).guide.lostOf (listedAt 1 2 1 true).guide.places).map (·.num) = [5]
    ∧ (listedAt 1 2 1 true).guide.places.any (listedAt 1 2 1 true).guide.amends = true :=
  ⟨⟨⟨rfl, rfl, show Mode.service ≠ .boot by decide, rfl⟩, show 0 < 8 by decide⟩, listedAt_ok _ _ _ _,
    by decide +kernel, by decide +kernel, base_noRise, by decide +kernel⟩

/-- The patrol at place 2047 of one entry, or at the empty place before it. -/
def patrolling (at' disturbed : Nat) (scrub : Option Scrub) : State :=
  { base with guide := { places := [⟨7, guideEntry 1 5 5, 1⟩, ⟨2047, movie, disturbed⟩], patrol := at', scrub } }

theorem patrolling_ok (a d : Nat) : (patrolling a d (some ⟨7, guideEntry 1 5 5, 9⟩)).guide.ok
    ∧ (patrolling a d none).guide.ok := by
  refine ⟨⟨?_, ?_, ?_, ?_⟩, ?_, ?_, ?_, ?_⟩
  · simp [KeySorted, patrolling]
  · simp [patrolling]
  · simp [patrolling, GuideEvent.apart, GuideEvent.overlaps, movie, guideEntry, GuideEvent.stop]
  · intro r hr
    cases hr
    exact ⟨_, .head _, rfl, rfl⟩
  · simp [KeySorted, patrolling]
  · simp [patrolling]
  · simp [patrolling, GuideEvent.apart, GuideEvent.overlaps, movie, guideEntry, GuideEvent.stop]
  · intro r hr
    cases hr

/-- No bit, one and two disturbed at the place; the register empty, and pending at another place. -/
theorem witness_PatrolAndScrub :
    (patrolling 2046 0 none).live ∧ (patrolling 2046 0 none).guide.ok
    ∧ (∀ p ∈ (patrolling 2046 0 none).guide.places, p.num ≠ 2046 ∨ p.disturbed = 0)
    ∧ (∃ p ∈ (patrolling 2047 1 none).guide.places, p.num = 2047 ∧ p.disturbed = 1)
    ∧ (patrolling 2047 1 (some ⟨7, guideEntry 1 5 5, 9⟩)).guide.ok ∧ (7 : Nat) ≠ 2047
    ∧ (∃ p ∈ (patrolling 2047 2 none).guide.places, p.num = 2047 ∧ 2 ≤ p.disturbed)
    ∧ (patrolling 2047 2 none).guide.scrub = none
    ∧ (patrolling 2047 1 (some ⟨7, guideEntry 1 5 5, 9⟩)).guide.scrub = some ⟨7, guideEntry 1 5 5, 9⟩
    ∧ (patrolling 7 1 (some ⟨7, guideEntry 1 5 5, 9⟩)).guide.patrol = 7
    ∧ (patrolling 2047 2 none).noRise :=
  ⟨⟨rfl, rfl, by decide, rfl⟩, (patrolling_ok _ _).2, by decide +kernel, by decide +kernel, (patrolling_ok _ _).1,
    by decide, by decide +kernel, rfl, rfl, rfl, base_noRise⟩

/-- The sweep on, PAUSED(ALL_SERVED) before carrier 4 with its timer running. -/
def served : State :=
  { base with sweep := { on := true, state := .paused, pause := some .allServed, position := some 3, timer := some 9000 } }

theorem base_sweepServed : base.sweepServed 4 0 :=
  ⟨rfl, rfl, by decide +kernel, by decide +kernel, rfl, base_noRise⟩

theorem witness_SweepMoves :
    base.ready ∧ 2 ≤ (2 : Byte).toNat ∧ (1 : Byte).toNat ≤ 1 ∧ base.sweep.on = false
    ∧ (served.ready ∧ served.sweep.on = true ∧ served.sweep.state = .paused ∧ served.arb.home = .inactive)
    ∧ State.ready { base with mode := .config }
    ∧ (base.guideCarriers.head? = some 4 ∧ base.sweepServed 4 0)
    ∧ (({ base with carriers := [plainCarrier] }).guideCarriers = []
      ∧ State.ready { base with carriers := [plainCarrier] }) :=
  ⟨base_ready, by decide, by decide, rfl,
    ⟨ready_of rfl (by decide) (by decide), rfl, rfl, rfl⟩, ready_of rfl (by decide) (by decide),
    ⟨by decide +kernel, base_sweepServed⟩, ⟨by decide +kernel, ready_of rfl (by decide) (by decide)⟩⟩

theorem witness_SweepMoves_on :
    base.sweep.state = .off ∧ base.sweep.timer = none ∧ served.sweep.pause = some .allServed
    ∧ served.sweep.position = some 3 ∧ (served.guideCarriers.filter (3 < ·)).head? = some 4
    ∧ served.sweepServed 4 0 ∧ served.sweep.timer.isSome = true :=
  ⟨rfl, rfl, rfl, rfl, by decide +kernel, ⟨rfl, rfl, by decide +kernel, by decide +kernel, rfl, base_noRise⟩, rfl⟩

/-- The sweep in DWELL on lane 1 at carrier 4, alone there or with slot 2, the other lanes IDLE or OFF, a guide-bearing
carrier 6 beyond. -/
def dwelling (slot : Bool) (others : LaneState) : State :=
  { base with
    carriers := [guideCarrier, { index := 6, freq := 80000, cls := 0, guide := true, home := false }]
    lanes := #v[{ state := others }, { state := .locked, carrier := some 4 }, { state := others }]
    slots := if slot then tuning.slots else base.slots
    sweep := { on := true, state := .dwell, lane := some 1, position := some 4, lockedVisit := true, timer := some 9000 } }

theorem dwelling_ready (b : Bool) (x : LaneState) : (dwelling b x).ready :=
  ⟨⟨rfl, rfl, show Mode.service ≠ .boot by decide, rfl⟩, show 0 < 8 by decide⟩

theorem dwelling_sweepMay (b : Bool) (x : LaneState) (h : x = .idle ∨ x = .off) : (dwelling b x).sweepMay 4 6 := by
  have e : ((dwelling b x).guideCarriers.filter (4 < ·)).head?.or (dwelling b x).guideCarriers.head? = some 6 := rfl
  have u : ∀ l, ((dwelling b x).lane l).serves 6 = true → (dwelling b x).sweep.lane = some l
      ∧ (dwelling b x).slotUsers l = [] := by
    rcases h with rfl | rfl <;> cases b <;> decide +kernel
  exact ⟨rfl, rfl, e, rfl, rfl, rfl, rfl, u, base_noRise⟩

/-- From DWELL: alone on its lane and with a slot; a lane IDLE once it has left, and none; the wait for the dwell
time, and for all to be served; the cause NO_CARRIER. -/
theorem witness_SweepMoves_dwell :
    ((dwelling false .idle).slotUsers 1 = [] ∧ (dwelling true .idle).slotUsers 1 ≠ []
      ∧ ((dwelling true .idle).lane 1).state = .locked ∧ (dwelling true .idle).sweep.lane = some 1)
    ∧ (dwelling false .idle).idleOnceLeft 0
    ∧ ((dwelling false .off).idleOnceLeft 1 ∧ ∀ l, (dwelling false .off).idleOnceLeft l → 1 ≤ l)
    ∧ (∀ m, ¬ (dwelling true .off).idleOnceLeft m)
    ∧ ((dwelling false .idle).sweep.state = .dwell ∧ (dwelling false .idle).sweep.lockedVisit = true
      ∧ (dwelling false .idle).sweep.timer.isSome = true)
    ∧ ({ base with sweep := { on := true, state := .paused, pause := some .noCarrier } }).sweep.pause = some .noCarrier
    ∧ PauseCause.preempted ∈ [PauseCause.noLane, .preempted, .allServed]
    ∧ PauseCause.noLane ∈ [PauseCause.noLane, .preempted, .allServed] := by
  unfold State.idleOnceLeft
  decide +kernel

/-! ### Hypotheses met: the parental unit -/

theorem base_master : base.master ⟨0, 0, 0, 0⟩ := ⟨zeroPin_ok, by decide +kernel, by decide +kernel⟩

/-- Slot 2 PRESENTING under profile 0, with an unlock record. -/
def unlocked (u : Option Unlock) : State :=
  { withSlot 2 { state := .presenting, service := some 7, carrier := some 3, lane := some 1, profile := some 0 } with
    parental := { base.parental with unlocks := #v[none, none, u] } }

theorem unlocked_ready (u : Option Unlock) : (unlocked u).ready :=
  ⟨⟨rfl, rfl, show Mode.service ≠ .boot by decide, rfl⟩, show 0 < 8 by decide⟩

theorem witness_UnlocksSetAndEnd :
    base.ready ∧ 3 ≤ (3 : Byte).toNat ∧ ¬badPin.ok ∧ (2 : Byte).toNat = (2 : Fin 3).val ∧ Pin.ok ⟨9, 9, 9, 9⟩
    ∧ State.ready { base with mode := .config } ∧ (base.slot (viewSlot 2)).state = .free
    ∧ (unlocked none).ready ∧ ((unlocked none).slot (viewSlot 2)).state ≠ .free
    ∧ ((unlocked none).slot (viewSlot 2)).service = some 7
    ∧ (pinCheck 0 ⟨9, 9, 9, 9⟩ (unlocked none)).1 = some .denied
    ∧ (unlocked none).master ⟨0, 0, 0, 0⟩ ∧ (unlocked none).noRise
    ∧ (unlocked none).parental.unlocks[(2 : Fin 3)] = none
    ∧ (unlocked (some ⟨7, 1⟩)).parental.unlocks[(2 : Fin 3)] = some ⟨7, 1⟩ :=
  ⟨base_ready, by decide, badPin_not_ok, by decide, ninePin_ok, ready_of rfl (by decide) (by decide),
    by decide +kernel, unlocked_ready _, by decide +kernel, by decide +kernel, by decide +kernel,
    ⟨zeroPin_ok, by decide +kernel, by decide +kernel⟩, base_noRise, by decide +kernel, by decide +kernel⟩

/-- `unlocked` with a profile that has failed some times, its PIN wanted for a purchase and to be selected. -/
def tried (p : Fin 8) (failures : Nat) : State :=
  { unlocked none with
    parental := { (unlocked none).parental with
      profiles := (unlocked none).parental.profiles.set p
        { inUse := true, pinToSelect := true, buyNeedsPin := true, failures } } }

theorem tried_ready (p : Fin 8) (n : Nat) : (tried p n).ready :=
  ⟨⟨rfl, rfl, show Mode.service ≠ .boot by decide, rfl⟩, show 0 < 8 by decide⟩

/-- A correct PIN after 1 and after 4 failures, of profile 0 and of profile 7: the check leaves another state. -/
theorem witness_PinsPassAfterFailures (p : Fin 8) (n : Nat) :
    (tried p n).ready ∧ (tried p n).noRise ∧ (tried 0 n).master ⟨0, 0, 0, 0⟩
    ∧ ((tried 7 1).profile 7).pinToSelect = true ∧ ((tried 7 4).profile 7).buyNeedsPin = true
    ∧ (⟨0, 0, 0, 0⟩ : Pin) = ((tried 7 4).profile 7).pin ∧ ((tried 7 4).profile 7).lockout = 0
    ∧ (((tried 0 1).checked true 0 ⟨0, 0, 0, 0⟩).profile 0).failures = 0
    ∧ (((tried 7 4).checked true 7 ⟨0, 0, 0, 0⟩).profile 7).failures = 0
    ∧ ((tried 7 4).checked true 7 ⟨0, 0, 0, 0⟩).store.last = 1 ∧ (tried 7 4).store.last = 0
    ∧ (tried 7 4).checked false 7 ⟨0, 0, 0, 0⟩ = tried 7 4 :=
  ⟨tried_ready p n, base_noRise, ⟨zeroPin_ok, rfl, rfl⟩, by decide +kernel⟩

/-- The shop of `movie` with profile 7 after 4 failures. -/
def returning : State := { withPlace 2047 movie 0 with parental := (tried 7 4).parental }

theorem witness_BuyCommits_afterFailures :
    returning.ready ∧ returning.sells 7 movie 1000000 ∧ returning.affords 7 600
    ∧ (∀ c ∈ returning.buyerChecks 7, ¬ c.1) := by
  have cap : (returning.profile 7).cap = none := by decide +kernel
  refine ⟨ready_of rfl (show Mode.service ≠ .boot by decide) (show 0 < 8 by decide),
    ⟨rfl, rfl, (fun h => by cases h), by decide +kernel, by decide +kernel, movie_listed, rfl, by decide,
      (fun _ h => by cases h), show 0 < 32 ∧ 0 < 64 by decide, (fun _ h => by cases h), movie_sells.number⟩,
    ⟨(fun _ h => by rw [cap] at h; cases h), by decide +kernel⟩, ?_⟩
  simp only [State.buyerChecks, List.forall_mem_cons, List.not_mem_nil, false_implies, implies_true]
  decide +kernel

/-- Unlock records at 1 s and at 2. -/
theorem witness_PinsChecked_unlocks :
    State.live (unlocked (some ⟨7, 1⟩)) ∧ State.noRise (unlocked (some ⟨7, 1⟩))
    ∧ (unlocked (some ⟨7, 1⟩)).parental.unlocks[(2 : Fin 3)] = some ⟨7, 1⟩
    ∧ (∀ u, (unlocked (some ⟨7, 2⟩)).parental.unlocks[(2 : Fin 3)] = some u → 1 < u.remaining) :=
  ⟨(unlocked_ready _).1, base_noRise, by decide +kernel, (fun _ h => by cases h; decide)⟩

/-- Lockouts of 0, 1 and 2; failures of 0, 3 and 4. -/
theorem witness_PinsChecked :
    0 < ((withProfile 7 { inUse := true, lockout := 1 }).profile 7).lockout
    ∧ ((withProfile 7 { inUse := true, failures := 3 }).profile 7).failures < 4
    ∧ 4 ≤ ((withProfile 7 { inUse := true, failures := 4 }).profile 7).failures
    ∧ ((withProfile 7 { inUse := true, failures := 4 }).profile 7).lockout = 0
    ∧ (⟨0, 0, 0, 0⟩ : Pin) = ((withProfile 7 { inUse := true, failures := 4 }).profile 7).pin
    ∧ (⟨0, 0, 0, 1⟩ : Pin) ≠ ((withProfile 7 { inUse := true, failures := 4 }).profile 7).pin
    ∧ State.live (withProfile 7 { inUse := true, lockout := 1 })
    ∧ ((withProfile 7 { inUse := true, lockout := 1 }).profile 7).lockout = 1
    ∧ ((withProfile 7 { inUse := true, lockout := 2 }).profile 7).lockout ≠ 1 :=
  ⟨by decide +kernel, by decide +kernel, by decide +kernel, by decide +kernel, by decide +kernel,
    by decide +kernel, ⟨rfl, rfl, by decide, rfl⟩, by decide +kernel⟩

/-- Profile 7 not in use, in lockout, with PIN-to-select. -/
theorem witness_ProfilesTaken :
    base.ready ∧ 8 ≤ (8 : Byte).toNat ∧ (7 : Byte).toNat = (7 : Fin 8).val ∧ (base.profile 7).inUse = false
    ∧ State.ready (withProfile 7 { inUse := true, lockout := 1 })
    ∧ 0 < ((withProfile 7 { inUse := true, lockout := 1 }).profile 7).lockout
    ∧ ((withProfile 7 { inUse := true, pinToSelect := true }).profile 7).pinToSelect = true
    ∧ (pinCheck 7 ⟨9, 9, 9, 9⟩ (withProfile 7 { inUse := true, pinToSelect := true })).1 = some .denied
    ∧ (((withProfile 7 { inUse := true, pinToSelect := true }).profile 7).pinToSelect = true →
      (⟨0, 0, 0, 0⟩ : Pin) = ((withProfile 7 { inUse := true, pinToSelect := true }).profile 7).pin)
    ∧ (∃ i : Fin 3, 8 ≤ ((#v[0, 7, 8] : Vector Byte 3)[i]).toNat)
    ∧ (∀ i : Fin 3, ((#v[0, 0, 7] : Vector Byte 3)[i]).toNat = ((#v[0, 0, 7] : Vector (Fin 8) 3)[i]).val)
    ∧ (∃ i : Fin 3, (base.profile ((#v[0, 0, 7] : Vector (Fin 8) 3)[i])).inUse = false)
    ∧ (∀ i : Fin 3, (base.profile ((#v[0, 0, 0] : Vector (Fin 8) 3)[i])).inUse = true)
    ∧ base.master ⟨0, 0, 0, 0⟩ ∧ base.noRise ∧ min 23 (0 : Byte).toNat = base.parental.household.dayStart :=
  ⟨base_ready, by decide, by decide, by decide +kernel, ready_of rfl (by decide) (by decide), by decide +kernel,
    by decide +kernel, by decide +kernel, (fun _ => by decide +kernel), by decide +kernel, by decide +kernel,
    by decide +kernel, by decide +kernel, base_master, base_noRise, by decide +kernel⟩

/-- The body of a PROFILE_PUT with one window from a start minute to the day's end. -/
def profilePutBody (profile inUse : Byte) (start : Half) : ProfileReq :=
  { profile, masterPin := ⟨0, 0, 0, 0⟩, inUse, newPin := ⟨4, 7, 1, 8⟩, pinToSelect := 0, buyNeedsPin := 1, ceiling := 9
    windowMode := 0, windows := [⟨127, start, 1440⟩], allowancePresent := 1, allowance := 86401, capPresent := 0
    cap := 0 }

theorem profilePut_inRange (profile inUse : Byte) (start : Half) (p : profile.toNat ≤ 7) (u : inUse = 0 ∨ inUse = 1)
    (w : start.toNat ≤ 1439 ∧ (1440 : Half) ≠ start) (m : profile = 0 → inUse = 1) :
    (profilePutBody profile inUse start).inRange :=
  ⟨p, zeroPin_ok, ⟨show (4 : Byte).toNat ≤ 9 by decide, show (7 : Byte).toNat ≤ 9 by decide,
      show (1 : Byte).toNat ≤ 9 by decide, show (8 : Byte).toNat ≤ 9 by decide⟩, u, .inl rfl, .inr rfl, .inl rfl,
    .inr rfl, .inl rfl, show 1 ≤ 4 by decide,
    fun x h => by
      cases List.mem_singleton.mp h
      exact ⟨show (127 : Byte).toNat ≤ 127 by decide, w.1, ⟨show 1 ≤ (1440 : Half).toNat by decide,
        show (1440 : Half).toNat ≤ 1440 by decide⟩, w.2⟩,
    m⟩

/-- The record that it makes. -/
def profileEntry (start : Nat) : Profile :=
  { inUse := true, pin := ⟨4, 7, 1, 8⟩, buyNeedsPin := true, windows := [⟨127, start, 1440⟩]
    allowance := some 86400, remaining := 86400 }

theorem witness_ProfilePutWrites :
    base.ready ∧ ¬(profilePutBody 0 0 1439).inRange ∧ (profilePutBody 7 1 1439).inRange
    ∧ (profilePutBody 7 1 1439).writes (base.profile 7) (profileEntry 1439)
    ∧ (profilePutBody 7 0 0).inRange ∧ base.master ⟨0, 0, 0, 0⟩ ∧ base.noRise
    ∧ (pinCheck 0 ⟨0, 0, 0, 0⟩ (withProfile 0 { inUse := true, lockout := 1 })).1 = some .locked :=
  ⟨base_ready, fun h => absurd (h.master rfl) (by decide),
    profilePut_inRange _ _ _ (by decide) (.inr rfl) (by decide) (by decide),
    ⟨rfl, rfl, by decide, by decide, rfl, by decide, rfl, rfl, rfl, rfl, rfl, rfl, rfl⟩,
    profilePut_inRange _ _ _ (by decide) (.inl rfl) (by decide) (by decide), base_master, base_noRise,
    by decide +kernel⟩

/-- Slot 2 PRESENTING under profile 7, whose allowance is about to end. -/
def counting (remaining : Nat) : State :=
  { withSlot 2 { state := .presenting, service := some 7, carrier := some 3, lane := some 1, profile := some 7 } with
    parental := { base.parental with
      profiles := base.parental.profiles.set 7 { inUse := true, allowance := some 3600, remaining } } }

theorem witness_AllowanceMoves :
    base.ready ∧ 8 ≤ (8 : Byte).toNat ∧ (7 : Byte).toNat = (7 : Fin 8).val ∧ (base.profile 7).inUse = false
    ∧ State.ready (counting 0) ∧ ((counting 0).profile 7).inUse = true
    ∧ (pinCheck 0 ⟨9, 9, 9, 9⟩ (counting 0)).1 = some .denied ∧ (counting 0).master ⟨0, 0, 0, 0⟩
    ∧ (counting 0).noRise ∧ ((counting 0).profile 7).remaining = 0
    ∧ ((counting 0).slot (viewSlot 2)).profile = some 7
    ∧ (((counting 1).profile 7).remaining = 1 ∧ ((counting 1).profile 7).allowance.isSome = true
      ∧ ∃ v : Fin 3, ((counting 1).slot (viewSlot v)).profile = some 7
        ∧ ((counting 1).slot (viewSlot v)).state = .presenting)
    ∧ ((counting 2).profile 7).remaining ≠ 1 :=
  ⟨base_ready, by decide, by decide, by decide +kernel, ready_of rfl (by decide) (by decide), by decide +kernel,
    by decide +kernel, ⟨zeroPin_ok, by decide +kernel, by decide +kernel⟩, base_noRise, by decide +kernel⟩

/-- A grant that leaves remaining at 86,400, and one that reaches it. -/
theorem witness_AllowanceMoves_full :
    (counting 86400).ready ∧ (counting 86400).noRise ∧ (counting 86400).master ⟨0, 0, 0, 0⟩
    ∧ ((counting 86400).profile 7).inUse = true ∧ ((counting 86400).profile 7).allowance.isSome = true
    ∧ min 86400 (((counting 86400).profile 7).remaining + max 1 (min 86400 (0 : Word).toNat))
      = ((counting 86400).profile 7).remaining
    ∧ min 86400 (((counting 86399).profile 7).remaining + max 1 (min 86400 (0 : Word).toNat))
      ≠ ((counting 86399).profile 7).remaining :=
  ⟨ready_of rfl (by decide) (by decide), base_noRise, ⟨zeroPin_ok, by decide +kernel, by decide +kernel⟩,
    by decide +kernel⟩

/-- An unlock record with two seconds left and with one. -/
theorem witness_SecondBoundaryAdvances_unlocks :
    (unlocked (some ⟨7, 2⟩)).live ∧ (unlocked (some ⟨7, 1⟩)).live
    ∧ (unlocked (some ⟨7, 2⟩)).parental.unlocks[(2 : Fin 3)] = some ⟨7, 2⟩
    ∧ (unlocked (some ⟨7, 1⟩)).parental.unlocks[(2 : Fin 3)] = some ⟨7, 1⟩
    ∧ (unlocked (some ⟨7, 1⟩)).parental.unlocks[(0 : Fin 3)] = none
    ∧ ∀ n, ((unlocked (some ⟨7, 1⟩)).entry n).state ≠ .armed ∧ ((unlocked (some ⟨7, 1⟩)).entry n).state ≠ .running :=
  ⟨(unlocked_ready _).1, (unlocked_ready _).1, by decide +kernel⟩

/-- A profile that spends its last second, and one that no slot is under. -/
theorem witness_SecondBoundaryAdvances_allowances :
    (counting 1).quietSecond ∧ (counting 1).spends 7 ∧ ¬ (counting 1).spends 0
    ∧ ∀ q, q ≠ 7 → ((counting 1).profile q).remaining ≠ 1 := by
  have none (k : Fin 5) : ((counting 1).slot k).cur = none ∧ ((counting 1).slot k).desc.keyA = none
      ∧ ((counting 1).slot k).desc.keyB = none := by revert k; decide +kernel
  refine ⟨⟨⟨rfl, rfl, show Mode.service ≠ .boot by decide, rfl⟩, by decide, rfl, fun k => (none k).1,
    by decide +kernel, rfl, ?_, fun _ _ h => by cases h⟩, ?_, ?_, by decide +kernel⟩
  · rintro k x (h | h)
    · rw [(none k).2.1] at h; cases h
    · rw [(none k).2.2] at h; cases h
  · exact ⟨by decide +kernel, by decide +kernel, by decide +kernel, 2, by decide +kernel⟩
  · rintro ⟨-, -, -, h⟩
    revert h
    decide +kernel

/-- `base` on a recorded day; its own is day 11. -/
def day (r : Option Int) : State :=
  { base with parental := { base.parental with household := { base.parental.household with day := r } } }

theorem witness_DaysAndUnits :
    (day none).live ∧ ({ base with clock := { base.clock with known := false } }).clock.known = false
    ∧ (day none).clock.known = true ∧ (day none).parental.household.day = none
    ∧ 86400 * (11 : Int) ≤ (day none).clock.utc + 60 * (day none).clock.offset
        - 3600 * (day none).parental.household.dayStart
    ∧ ((day none).clock.utc : Int) + 60 * (day none).clock.offset
        - 3600 * (day none).parental.household.dayStart < 86400 * 11 + 86400
    ∧ (day (some 11)).parental.household.day = some 11 ∧ (day (some 10)).parental.household.day = some 10
    ∧ (day (some 10)).noRise :=
  ⟨⟨rfl, rfl, by decide, rfl⟩, rfl, rfl, rfl, by decide +kernel, by decide +kernel, rfl, rfl, base_noRise⟩

/-! ### Hypotheses met: the gate array -/

/-- The body of cell 5's CELL_PUT in 7.6, on a link. -/
def latchBody (link : Byte) : CellReq :=
  { cell := 5, bound := 3, in0 := 3, in1 := 13, in2 := 2, truth := #v[0, 0, 0, 1, 0, 0, 1, 1], linkPresent := 1
    link, edge := 1 }

/-- The cell that it makes. -/
def latch : GateCell :=
  { bound := 3, in0 := .link, in1 := .scheduled, in2 := .feedback
    truth := #v[false, false, false, true, false, false, true, true], link := some 6, edge := .rise }

/-- `base` with one cell changed. -/
def withCell (n : Fin 8) (c : GateCell) : State :=
  { base with gate := { base.gate with cells := base.gate.cells.set n c } }

theorem witness_CellsWritten :
    base.ready ∧ ¬(latchBody 5).inRange ∧ (latchBody 6).inRange ∧ (latchBody 6).cell.toNat = (5 : Fin 8).val
    ∧ ((withCell 5 { latch with enabled := true }).gate.cells[(5 : Fin 8)]).enabled = true
    ∧ State.ready (withCell 5 { latch with enabled := true })
    ∧ (base.gate.cells[(5 : Fin 8)]).enabled = false ∧ (latchBody 6).writes base.gate.cells[(5 : Fin 8)] latch
    ∧ 8 ≤ (8 : Byte).toNat ∧ 2 ≤ (2 : Byte).toNat ∧ ¬badPin.ok ∧ Pin.ok ⟨9, 9, 9, 9⟩
    ∧ (base.gate.cells[(4 : Fin 8)]).enabled = true ∧ base.mode ≠ .config
    ∧ (pinCheck 0 ⟨9, 9, 9, 9⟩ base).1 = some .denied ∧ base.master ⟨0, 0, 0, 0⟩ ∧ base.noRise
    ∧ (base.gate.cells[(7 : Fin 8)]).enabled = false :=
  ⟨base_ready, fun h => absurd (h.link rfl).1 (by decide),
    ⟨by decide, by decide, by decide, by decide, by decide, by decide, by decide, by decide, by decide⟩, by decide,
    by decide +kernel, ready_of rfl (by decide) (by decide), by decide +kernel,
    ⟨rfl, rfl, rfl, rfl, rfl, by decide, by decide, rfl, rfl, rfl, rfl⟩, by decide, by decide, badPin_not_ok,
    ninePin_ok, by decide +kernel, by decide, by decide +kernel, base_master, base_noRise, by decide +kernel⟩

/-- The cells as the end of BOOT leaves them, the record slots' permits at 1. -/
def bootGate : Gate :=
  { cells := #v[viewCell 0, viewCell 1, viewCell 2, { recordCell 3 with output := true },
      { recordCell 4 with output := true }, { bound := 0 }, { bound := 1 }, { bound := 2 }] }

theorem witness_GateFollowsReports : bootGate.ok ∧ bootGate.settled := by
  constructor
  · unfold Gate.ok GateCell.ok
    decide +kernel
  · unfold Gate.settled
    decide +kernel

/-- A permit that a report lowers and one that it raises; a cell that rises when it is switched on, and one that falls
when it is switched off, outside CONFIG under the master PIN. -/
theorem witness_GateFollowsReports_acts :
    base.restarting = false ∧ base.ready ∧ base.noRise ∧ base.master ⟨0, 0, 0, 0⟩
    ∧ (base.gate.cells[(7 : Fin 8)]).enabled = false ∧ (base.gate.cells[(4 : Fin 8)]).enabled = true
    ∧ (State.permit { base with gate := bootGate } 3 = true
      ∧ State.permit (disableCell 3 { base with gate := bootGate }) 3 = false)
    ∧ (State.permit base 0 = false ∧ State.permit (gateReport [.slot 0 .parentalOk true] base) 0 = true)
    ∧ ((enableCell 7 (withCell 7 { bound := 2, truth := Vector.replicate 8 true })).gate.cells[(7 : Fin 8)]).output
      = true := by
  exact ⟨rfl, base_ready, base_noRise, base_master, by decide +kernel⟩

/-! ### Hypotheses met: the schedule -/

/-- Entry 23 in a state, with a trigger time. -/
def scheduled (x : EntryState) (a : Action) (time : Int) (stop : Option Nat) : State :=
  withEntry 23 { state := x, action := a, triggerTime := some time, endTime := stop }

/-- `scheduled` in another mode. -/
def scheduledIn (m : Mode) (a : Action) (time : Int) (stop : Option Nat) : State :=
  { scheduled .armed a time stop with mode := m }

theorem withEntry_live (n : Fin 24) (e : Entry) : (withEntry n e).live :=
  ⟨rfl, rfl, show Mode.service ≠ .boot by decide, rfl⟩

/-- A schedule in which no entry awaits a rise: the only one not EMPTY has another trigger. -/
theorem withEntry_noRise {n : Fin 24} {e : Entry} (h : ∀ c, e.trigger ≠ .auxRise c) : (withEntry n e).noRise := by
  intro m c
  unfold State.entry withEntry
  by_cases hm : n = m
  · subst hm
    intro _
    simpa using h c
  · intro hs
    exfalso
    have key : ∀ i : Fin 24, (base.schedule)[i].state ≠ .armed := by decide +kernel
    exact key m (by simpa [Vector.getElem_set, Fin.val_inj, hm] using hs)

/-- Each trigger and each action in range at its bounds, and each out of range by one. -/
theorem witness_ScheduleTable_taken :
    (TrigTaken (.atTime 1000001) (.atTime 1000001) ∧ TrigTaken (.atEvent 7 1 65535) (.atEvent 7 1 600)
      ∧ TrigTaken (.auxRise 5) (.auxRise 5))
    ∧ ((∀ g, ¬ TrigTaken (.atEvent 0 1 0) g) ∧ (∀ g, ¬ TrigTaken (.auxRise 4) g) ∧ ∀ g, ¬ TrigTaken (.other 3) g)
    ∧ (ActTaken (.record 3 7 1000002) (.atTime 1000001) (.record 3 7 1000002)
      ∧ ActTaken (.record 4 7 601) (.atEvent 7 1 600) (.record 4 7 600)
      ∧ ActTaken (.record 4 7 0) (.auxRise 5) (.record 4 7 1)
      ∧ ActTaken (.viewTune 0 7) (.atEvent 7 1 600) (.viewTune 7)
      ∧ (∀ g, ActTaken .remind g .remind) ∧ ∀ g, ActTaken .wake g .wake)
    ∧ ((∀ a, ¬ ActTaken (.record 2 7 1000002) (.atTime 1000001) a)
      ∧ (∀ a, ¬ ActTaken (.record 3 7 1000001) (.atTime 1000001) a)
      ∧ (∀ a, ¬ ActTaken (.viewTune 1 7) (.atTime 1000001) a)
      ∧ ∀ a, ¬ ActTaken (.viewTune 0 8) (.atEvent 7 1 600) a) := by
  refine ⟨⟨.atTime _, .atEvent 7 65535 1 (by decide), .auxRise 5 5 rfl (by decide)⟩, ⟨?_, ?_, ?_⟩,
    ⟨.record 3 7 1000002 _ 3 _ rfl (by decide) (by decide) (fun _ _ _ h => by cases h) (.atTime _ _ (by decide)),
      .record 4 7 601 _ 4 _ rfl (by decide) (by decide) (fun _ _ _ h => by cases h; rfl) (.atEvent _ _ _ _),
      .record 4 7 0 _ 4 _ rfl (by decide) (by decide) (fun _ _ _ h => by cases h) (.auxRise _ _),
      .view 7 _ (by decide) (fun _ _ _ h => by cases h; rfl), fun g => .remind g, fun g => .wake g⟩, ?_, ?_, ?_, ?_⟩
  · rintro g (_ | ⟨_, _, _, h⟩)
    exact h rfl
  · rintro g (_ | _ | ⟨_, c, h, l⟩)
    exact absurd (h ▸ l : 5 ≤ (4 : Byte).toNat) (by decide)
  · rintro g ⟨⟩
  · rintro a (⟨_, _, _, _, k, _, h, l⟩)
    exact absurd (h ▸ l : 3 ≤ (2 : Byte).toNat) (by decide)
  · rintro a (⟨_, _, _, _, _, _, _, _, _, _, (h | _)⟩)
    rename_i after
    exact absurd after (by decide)
  · rintro a ⟨⟩
  · rintro a (_ | ⟨_, _, _, h⟩)
    exact absurd (h 7 1 600 rfl) (by decide)

theorem witness_ScheduleTable :
    base.ready ∧ base.noRise ∧ 24 ≤ (24 : Byte).toNat ∧ (23 : Byte).toNat = (23 : Fin 24).val
    ∧ (Action.names (.record 3 9 0) 9 ∧ keyFind (·.sid) 9 base.services = none)
    ∧ (∀ sid, (Action.viewTune 7).names sid → (keyFind (·.sid) sid base.services).isSome)
    ∧ (∀ sid, ¬ Action.remind.names sid)
    ∧ State.ready (scheduled .running .remind 0 none) ∧ ((scheduled .running .remind 0 none).entry 23).state = .running
    ∧ (base.entry 23).state ≠ .running
    ∧ (∀ now time, base.now? = some now → some (1000001 : Int) = some time → (now : Int) < time)
    ∧ base.now? = some 1000000 ∧ (1000000 : Int) ≤ (1000000 : Nat) ∧ base.guide.places = [] := by
  refine ⟨base_ready, base_noRise, by decide, by decide, ⟨.inl ⟨3, 0, rfl⟩, by decide +kernel⟩, ?_, ?_,
    ready_of rfl (by decide) (by decide), by decide +kernel, by decide +kernel,
    (fun _ _ h k => by cases h; cases k; decide), rfl, by decide, rfl⟩
  · rintro sid (⟨_, _, h⟩ | h) <;> cases h
    decide +kernel
  · rintro sid (⟨_, _, h⟩ | h) <;> cases h

/-- An event of service 7 one second after now and its lead of 600 s, and at it. -/
theorem witness_ScheduleTable_event :
    (withPlace 3 (guideEntry 1 1000601 5) 0).listed (guideEntry 1 1000601 5)
    ∧ (guideEntry 1 1000601 5).sid = 7 ∧ (guideEntry 1 1000601 5).eid = 1
    ∧ (withPlace 3 (guideEntry 1 1000601 5) 0).now? = some 1000000
    ∧ (1000000 : Int) < ((guideEntry 1 1000601 5).start : Int) - (600 : Nat)
    ∧ ((guideEntry 1 1000600 5).start : Int) - (600 : Nat) ≤ 1000000 :=
  ⟨⟨guide_ok_one _ _ (by decide), ⟨3, guideEntry 1 1000601 5, 0⟩, .head _, rfl, rfl⟩, by decide +kernel⟩

/-- Slot 4 held for entry 23's run. -/
def running (stop : Nat) : State :=
  { scheduled .running (.record 4 7 stop) 999000 (some stop) with
    slots := base.slots.set 4 { recording .presenting with origin := .schedule 23 } }

theorem running_live (stop : Nat) : (running stop).live := ⟨rfl, rfl, show Mode.service ≠ .boot by decide, rfl⟩

theorem running_noRise (stop : Nat) : (running stop).noRise := by
  have h := withEntry_noRise (n := 23)
    (e := { state := .running, action := .record 4 7 stop, triggerTime := some 999000, endTime := some stop })
    fun _ h => by cases h
  intro m c
  exact h m c

theorem witness_ScheduleTable_drop :
    (base.entry 23).state = .empty ∧ ((scheduled .armed .remind 0 none).entry 23).state ≠ .empty
    ∧ ((running 1000000).entry 23).state = .running
    ∧ ((running 1000000).entry 23).action = .record 4 7 1000000
    ∧ ((running 1000000).slot 4).origin = .schedule 23 ∧ (running 1000000).noRise :=
  ⟨by decide +kernel, by decide +kernel, by decide +kernel, by decide +kernel, by decide +kernel,
    running_noRise _⟩

/-- One second before its time; at it; 60 s and 61 s late. -/
theorem witness_TriggersFire :
    base.live ∧ (base.entry 23).state ≠ .armed
    ∧ (scheduled .armed .remind 1000001 none).now? = some 1000000 ∧ (1000000 : Int) < 1000001
    ∧ ((scheduled .armed .remind 1000000 none).entry 23).state = .armed
    ∧ ((scheduled .armed .remind 1000000 none).entry 23).triggerTime = some 1000000
    ∧ ((scheduled .armed .remind 1000000 none).entry 23).action = .remind
    ∧ ¬ 60 < (1000000 : Int) - 999940 ∧ 60 < (1000000 : Int) - 999939 ∧ (999939 : Int) ≤ 1000000
    ∧ ((scheduledIn .standby (.viewTune 7) 999940 none).entry 23).action = .viewTune 7
    ∧ (scheduledIn .standby (.viewTune 7) 999940 none).mode ≠ .service
    ∧ ((scheduled .armed (.record 3 7 0) 5 (some 1000000)).entry 23).endTime = some 1000000
    ∧ ((scheduledIn .config (.record 3 7 0) 5 (some 1000001)).entry 23).endTime = some 1000001
    ∧ (scheduledIn .config (.record 3 7 0) 5 (some 1000001)).mode = .config :=
  ⟨base_ready.1, by decide +kernel, by decide +kernel, by decide, by decide +kernel, by decide +kernel,
    by decide +kernel, by decide, by decide, by decide, by decide +kernel, by decide, by decide +kernel,
    by decide +kernel, rfl⟩

theorem scheduled_noRise (x : EntryState) (a : Action) (time : Int) (stop : Option Nat) :
    (scheduled x a time stop).noRise := withEntry_noRise fun _ h => by cases h

/-- A wake in each mode; a view tune of a service of the map and of none. -/
theorem witness_TriggersFire_acts (m : Mode) (h : m ≠ .boot) (a : Action) :
    (scheduledIn m a 999940 none).live ∧ (scheduledIn m a 999940 none).noRise
    ∧ ((scheduledIn m .wake 999940 none).entry 23).action = .wake
    ∧ (scheduledIn m a 999940 none).link.replies.length < 8 ∧ (scheduledIn m a 999940 none).mode = m
    ∧ (scheduledIn .service (.viewTune 7) 999940 none).mayTune 0 clearService 0
    ∧ (scheduledIn .service (.viewTune 9) 999940 none).untunable 9 :=
  ⟨⟨rfl, rfl, h, rfl⟩, fun n c => scheduled_noRise .armed a 999940 none n c, rfl, show 0 < 8 by decide, rfl,
    ⟨⟨by decide +kernel, by decide +kernel, rfl, rfl⟩, by decide +kernel, by decide +kernel, outSlot_base 0,
      .inl (by decide +kernel)⟩, fun v h => by
        have none : keyFind (·.sid) 9 base.services = none := by decide +kernel
        rw [show keyFind (·.sid) 9 base.services = some v from h] at none
        cases none⟩

/-- Entry 23 due to record on slot 4, with another run on it, or with none and a lane IDLE; slot 4 and slot 0 on the
service already. -/
def firing (other : EntryState) (m : Mode) (x : Slot) : State :=
  { scheduled .armed (.record 4 7 1000001) 1000000 (some 1000001) with
    mode := m
    slots := (base.slots.set 4 x).set 0 x
    schedule := (base.schedule.set 23 { state := .armed, action := .record 4 7 1000001
                                        triggerTime := some 1000000, endTime := some 1000001 }).set 0
      { state := other, action := .record 4 8 1000001 } }

theorem firing_noRise (m : Mode) (x : Slot) : (firing .done m x).noRise := by
  have key : ∀ n : Fin 24, ((firing .done .service {}).entry n).state = .armed →
      ((firing .done .service {}).entry n).trigger = .atTime 0 := by decide +kernel
  intro n c a
  exact fun e => by cases (key n a).symm.trans e

theorem firing_mayTune : (firing .done .standby {}).mayTune 4 clearService 0 :=
  ⟨⟨by decide +kernel, by decide +kernel, rfl, rfl⟩, by decide +kernel, by decide +kernel,
    ⟨by decide +kernel, .inl (by decide +kernel), fun _ h => by cases h⟩, .inl (by decide +kernel)⟩

theorem witness_TriggersFire_records :
    (firing .running .service {}).live ∧ (firing .running .service {}).slotRuns 23 4
    ∧ ¬ (firing .done .standby {}).slotRuns 23 4 ∧ (firing .done .standby {}).live ∧ 3 ≤ (4 : Fin 5).val
    ∧ (∀ c, ((firing .done .standby {}).entry 23).trigger ≠ .auxRise c)
    ∧ State.untunable { firing .done .service {} with services := [] } 7
    ∧ State.untunable { firing .done .service {} with carriers := [] } 7
    ∧ (firing .done .service (recording .presenting)).holdsOn 4 clearService
    ∧ (firing .done .service (recording .presenting)).holdsOn 0 clearService := by
  have h : ∀ i, ((firing .done .standby {}).entry i).state ≠ .running := by decide +kernel
  exact ⟨⟨rfl, rfl, by decide, rfl⟩, ⟨0, by decide, by decide +kernel, 8, 1000001, by decide +kernel⟩,
    (fun ⟨i, _, hi, _⟩ => h i hi), ⟨rfl, rfl, by decide, rfl⟩, by decide +kernel, by decide +kernel,
    (fun _ h => by cases h), (fun _ _ => rfl),
    ⟨by decide +kernel, by decide +kernel, by decide +kernel, by decide +kernel⟩,
    ⟨by decide +kernel, by decide +kernel, by decide +kernel, by decide +kernel⟩⟩

/-- Entry 23 ARMED on cell 6, which rises when it is switched on. -/
def awaiting (m : Mode) (a : Action) : State :=
  { withEntry 23 { state := .armed, trigger := .auxRise 6, action := a } with
    mode := m
    gate := (withCell 6 { bound := 2, truth := Vector.replicate 8 true }).gate }

theorem witness_TriggersFire_rises (m : Mode) (h : m ≠ .boot) (a : Action) :
    (awaiting m a).ready ∧ (6 : Byte).toNat = (6 : Fin 8).val ∧ Pin.ok ⟨9, 9, 9, 9⟩
    ∧ ((awaiting m a).gate.cells[(6 : Fin 8)]).enabled = false
    ∧ ((awaiting m a).gate.cells[(6 : Fin 8)]).output = false
    ∧ (let was := (awaiting m a).gate.cells[(6 : Fin 8)]
       let g := { (awaiting m a).gate with cells := (awaiting m a).gate.cells.set 6 { was with enabled := true } }
       g.eval g.cells[(6 : Fin 8)] = true)
    ∧ (((awaiting m a).entry 23).state = .armed ∧ ((awaiting m a).entry 23).trigger = .auxRise 6
      ∧ ((awaiting m a).entry 23).action = a)
    ∧ (∀ i d, ((awaiting m a).entry i).state = .armed → ((awaiting m a).entry i).trigger = .auxRise d → i = 23)
    ∧ (awaiting .service (.viewTune 7)).mayTune 0 clearService 0
    ∧ (awaiting .standby (.record 4 7 1)).mayTune 4 clearService 0
    ∧ ¬ (awaiting .standby (.record 4 7 1)).slotRuns 23 4 := by
  have e : ∀ i, (awaiting m a).entry i = if i = 23 then { state := .armed, trigger := .auxRise 6, action := a } else {} := by
    intro i
    unfold State.entry awaiting withEntry
    by_cases hi : i = 23
    · subst hi
      simp
    · have blank : ∀ i : Fin 24, base.schedule[i] = {} := by decide +kernel
      have hv : 23 ≠ i.val := fun q => hi (Fin.ext q.symm)
      simpa [Vector.getElem_set, hi, hv] using blank i
  refine ⟨⟨⟨rfl, rfl, h, rfl⟩, show 0 < 8 by decide⟩, rfl, ninePin_ok, rfl, rfl, rfl,
    ⟨by rw [e]; rfl, by rw [e]; rfl, by rw [e]; rfl⟩, ?_, ?_, ?_, ?_⟩
  · intro i d hs _
    by_contra hi
    rw [e, if_neg hi] at hs
    cases hs
  · exact ⟨⟨by decide +kernel, by decide +kernel, rfl, rfl⟩, by decide +kernel, by decide +kernel, outSlot_base 0,
      .inl (by decide +kernel)⟩
  · exact ⟨⟨by decide +kernel, by decide +kernel, rfl, rfl⟩, by decide +kernel, by decide +kernel, outSlot_base 4,
      .inl (by decide +kernel)⟩
  · have idle : ∀ i, ((awaiting .standby (.record 4 7 1)).entry i).state ≠ .running := by decide +kernel
    exact fun ⟨i, _, hi, _⟩ => idle i hi

/-- The rise of cell 6 under way, with entry 23 ARMED on it, and slots and another run as `firing` has them. -/
def raised (other : EntryState) (m : Mode) (x : Slot) (a : Action) : State :=
  { firing other m x with
    schedule := (firing other m x).schedule.set 23 { state := .armed, trigger := .auxRise 6, action := a }
    auxRises := [6] }

theorem raised_idle (m : Mode) (a : Action) (i : Fin 24) : ((raised .done m {} a).entry i).state ≠ .running := by
  have key : ∀ i : Fin 24, i ≠ 23 → ((firing .done .service {}).entry i).state ≠ .running := by decide +kernel
  by_cases hi : i = 23
  · subst hi
    exact fun h => by cases h
  · have hv : 23 ≠ i.val := fun q => hi (Fin.ext q.symm)
    have e : (raised .done m {} a).entry i = (firing .done .service {}).entry i := by
      unfold State.entry raised
      simp only [Fin.getElem_fin, Vector.getElem_set]
      rw [if_neg hv]
      rfl
    rw [e]
    exact key i hi

/-- An entry that waits when its turn comes, one that does not; a record slot that another run has and one that none
has; a service gone, and one that the slot holds. -/
theorem witness_TriggersFire_takesRise (m : Mode) :
    (raised .done m {} .wake).restarting = false ∧ (raised .done m {} .wake).auxRises ≠ []
    ∧ (raised .done m {} .wake).mode = m ∧ (raised .done m {} .wake).waitsRise 6 23
    ∧ ¬ (raised .done m {} .wake).waitsRise 5 23 ∧ ¬ (raised .done m {} .wake).waitsRise 6 0
    ∧ (raised .running m {} (.record 4 7 1)).slotRuns 23 4 ∧ ¬ (raised .done m {} (.record 4 7 1)).slotRuns 23 4
    ∧ State.untunable { raised .done m {} (.viewTune 7) with services := [] } 7
    ∧ (raised .done m (recording .presenting) (.viewTune 7)).holdsOn 0 clearService
    ∧ (raised .done m (recording .presenting) (.record 4 7 1)).holdsOn 4 clearService := by
  have gone : ∀ i, ((raised .done m {} (.record 4 7 1)).entry i).state ≠ .running := raised_idle m _
  exact ⟨rfl, (fun h => by cases h), rfl, ⟨rfl, rfl⟩, (fun h => by cases h.2), (fun h => by cases h.1),
    ⟨0, by decide, rfl, 8, 1000001, rfl⟩, (fun ⟨i, _, hi, _⟩ => gone i hi), (fun _ h => by cases h),
    ⟨show keyFind (·.sid) 7 base.services = _ by decide +kernel, show (base.carrier? 3).isSome by decide +kernel, rfl,
      (fun h => by cases h)⟩,
    ⟨show keyFind (·.sid) 7 base.services = _ by decide +kernel, show (base.carrier? 3).isSome by decide +kernel, rfl,
      (fun h => by cases h)⟩⟩

/-- Entries 21 to 23 ARMED on cell 6 in STANDBY: a view tune, a wake, a view tune. -/
def waking : State :=
  { base with
    mode := .standby
    auxRises := [6]
    schedule := ((base.schedule.set 21 { state := .armed, trigger := .auxRise 6, action := .viewTune 7 }).set 22
      { state := .armed, trigger := .auxRise 6, action := .wake }).set 23
      { state := .armed, trigger := .auxRise 6, action := .viewTune 7 } }

/-- Entries fire in ascending number, each in the mode as it stands when it fires: the first view tune is missed, the
wake makes SERVICE, and the second view tune acts (R166). -/
theorem test_rise_ascending :
    (((settle waking).entry 21).state, ((settle waking).entry 21).missed) = (.missed, some .mode)
    ∧ ((settle waking).entry 22).state = .done ∧ (settle waking).mode = .service
    ∧ ((settle waking).entry 23).state = .done ∧ ((settle waking).slot 0).service = some 7 := by decide +kernel

/-- `tuning` with cell 6 to rise when slot 2 is LOCKED, and a reminder ARMED on it. -/
def lockRises : State :=
  { tuning with
    gate := (withCell 6 { enabled := true, bound := 2, in0 := .locked
                          truth := #v[false, true, true, true, true, true, true, true] }).gate
    schedule := base.schedule.set 23 { state := .armed, trigger := .auxRise 6, action := .remind } }

/-- The rise that a LOCK makes fires an entry (R154, R166). -/
theorem test_rise_of_lock : ((after (.lock 1 5) lockRises).entry 23).state = .done := by decide +kernel

/-- Commands that can make a rise, each as it is taken. -/
theorem witness_TriggersFire_made :
    lockRises.live ∧ (lockRises.lane 1).state = .seeking ∧ (lockRises.lane 1).order = 5
    ∧ (unlocked (some ⟨7, 1⟩)).live ∧ (unlocked (some ⟨7, 1⟩)).parental.unlocks[(2 : Fin 3)] = some ⟨7, 1⟩
    ∧ (tried 0 4).ready ∧ (tried 0 4).mode = .service ∧ ((tried 0 4).slot (viewSlot 2)).state ≠ .free
    ∧ ((tried 0 4).slot (viewSlot 2)).service = some 7 ∧ (tried 0 4).master ⟨0, 0, 0, 0⟩
    ∧ (base.gate.cells[(7 : Fin 8)]).enabled = false ∧ (base.gate.cells[(4 : Fin 8)]).enabled = true :=
  ⟨(ready_of rfl (by decide) (by decide)).1, by decide +kernel, by decide +kernel, (unlocked_ready _).1,
    by decide +kernel, tried_ready 0 4, rfl, by decide +kernel, by decide +kernel, ⟨zeroPin_ok, rfl, rfl⟩,
    by decide +kernel⟩

/-- A service dropped under a recording. -/
theorem witness_ServicesEdited_told :
    (running 1000001).ready ∧ (running 1000001).noRise ∧ (4 : Fin 5) ∈ (running 1000001).slotsOf 7
    ∧ (running 1000001).runner 4 = some 23 ∧ (running 1000001).findService 0 100 = some clearService :=
  ⟨⟨running_live _, show 0 < 8 by decide⟩, running_noRise _, by decide +kernel⟩

/-- A retry running, of an entry on its slot and of one off it. -/
def retrying (x : SlotState) : State :=
  { running 1000001 with
    slots := base.slots.set 4 { recording x with origin := .schedule 23, lane := none }
    schedule := base.schedule.set 23 { state := .running, action := .record 4 7 1000001, endTime := some 1000001
                                       retry := some 6000 } }

theorem witness_RunsEndAndRetry :
    (running 1000001).live ∧ (∀ stop, ¬(running 1000001).runEnded ((running 1000001).entry 23) stop)
    ∧ (running 1000000).runEnded ((running 1000000).entry 23) 1000000
    ∧ ((scheduled .running (.record 4 7 0) 0 (some 1000000)).slot 4).origin ≠ .schedule 23
    ∧ ((running 1000000).slot 4).origin = .schedule 23 ∧ (running 1000000).noRise
    ∧ ((running 1000000).entry 23).retry = none
    ∧ ((retrying .waitLane).entry 23).retry.isSome = true ∧ ((retrying .waitLane).slot 4).state ≠ .faulted
    ∧ ((retrying .waitLane).slot 4).origin = .schedule 23
    ∧ ((retrying .faulted).slot 4).state = .faulted ∧ (retrying .faulted).mode = .service
    ∧ State.untunable { retrying .faulted with services := [] } 7
    ∧ (retrying .faulted).mayTune 4 clearService 0 ∧ (retrying .faulted).noRise := by
  refine ⟨running_live _, ?_, ⟨by decide +kernel, by decide +kernel, .inr ⟨by decide +kernel, 1000000, rfl, by decide⟩⟩,
    by decide +kernel, by decide +kernel, running_noRise _, by decide +kernel, by decide +kernel,
    by decide +kernel, by decide +kernel, by decide +kernel, rfl, (fun _ h => by cases h),
    ⟨⟨by decide +kernel, by decide +kernel, rfl, rfl⟩, by decide +kernel, by decide +kernel,
      ⟨by decide +kernel, .inr (by decide +kernel), fun _ h => by cases h⟩, .inr (by decide +kernel)⟩,
    by unfold State.noRise; decide +kernel⟩
  rintro stop ⟨-, h2, h3⟩
  have e : stop = 1000001 := by
    have : ((running 1000001).entry 23).endTime = some 1000001 := by decide +kernel
    rw [this] at h2
    cases h2
    rfl
  subst e
  rcases h3 with ⟨⟨c, hc⟩, -⟩ | ⟨-, now, hn, hl⟩
  · revert hc
    revert c
    decide +kernel
  · cases hn
    exact absurd hl (by decide)

/-- The retry of an entry tied to the event on air, disturbed by some bits. -/
def damaged (disturbed : Nat) : State :=
  { retrying .faulted with
    guide := (withPlace 3 (guideEntry 1 999000 60) disturbed).guide
    schedule := base.schedule.set 23
      { state := .running, trigger := .atEvent 7 1 600, action := .record 4 7 0, endTime := some 1002600
        retry := some 6000 } }

/-- Where the TUNE finds the event past correction, the entry becomes an orphan (R26, R115, R165). -/
theorem test_retry_orphan :
    ((after (.scheduleRetryExpiry 23) (damaged 2)).entry 23).orphan = true
    ∧ ((after (.scheduleRetryExpiry 23) (damaged 1)).entry 23).orphan = false := by decide +kernel

/-! ### Hypotheses met: what every step keeps -/

theorem witness_StepKeepsForm :
    State.sound { base with gate := bootGate } ∧ (∃ t, step { base with gate := bootGate } = .next t) :=
  ⟨⟨witness_GateFollowsReports.1, .nil, .nil, (fun _ h => by cases h), show 0 ≤ 8 by decide, show 0 ≤ 32 by decide, show 0 ≤ 16 by decide,
    ⟨.nil, (fun _ h => by cases h), .nil, (fun _ h => by cases h)⟩, base_placed, rfl⟩, _, rfl⟩

theorem witness_StepKeepsRanges : base.ranged ∧ ∃ t, step base = .next t := by
  refine ⟨⟨⟨?_, by decide, by decide, ?_⟩, ⟨?_, by decide, by decide, ?_⟩, ?_, ⟨by decide, by decide⟩,
    ⟨by decide, by decide, by decide, by decide, by decide⟩, ⟨?_, by decide +kernel⟩, ?_⟩, _, rfl⟩
  · unfold KeySorted; decide
  · exact base_services_ok
  · unfold KeySorted; decide
  · intro c hc
    simp only [base, List.mem_cons, List.not_mem_nil, or_false] at hc
    rcases hc with rfl | rfl | rfl <;> exact ⟨by decide, by decide⟩
  · intro n
    have e : base.classes[n] = {} := by revert n; decide +kernel
    rw [e]
    exact ⟨by decide, by decide, by decide, by decide⟩
  · intro p
    have e : base.parental.profiles[p] = {} ∨ base.parental.profiles[p] = { inUse := true } := by
      revert p; decide +kernel
    rcases e with e | e <;> rw [e] <;>
      exact ⟨by decide, by decide, (fun _ h => by cases h), by decide, by decide, by decide, by decide⟩
  · have units (p : Fin 8) : (base.store.units.profiles[p]).image = {}
        ∨ (base.store.units.profiles[p]).image = { inUse := true } := by revert p; decide +kernel
    refine ⟨⟨by decide, by decide, by decide, by decide, by decide⟩, ?_, ?_, (fun _ h => by cases h),
      (fun _ h => by cases h), (fun _ h => by cases h)⟩
    · intro n
      have e : (base.store.units.purchases[n]).image = none := by revert n; decide +kernel
      rw [e]
      trivial
    · intro p
      refine ⟨?_, ?_⟩
      · rcases units p with e | e <;> rw [e] <;>
          exact ⟨by decide, by decide, (fun _ h => by cases h), by decide, by decide, by decide, by decide⟩
      · intro h
        cases h
        decide +kernel

/-! ### Single steps, with values of the spec -/

/-- The CRC of R182: the check value of CRC-16 with these parameters for the nine digits "123456789" is the
well-known 0x29B1 (hand computation agrees). -/
theorem test_crc : (crc16 [0x31, 0x32, 0x33, 0x34, 0x35, 0x36, 0x37, 0x38, 0x39]).toNat = 0x29B1 := by
  decide +kernel

/-- The frame of MODE_SET is laid out as R182 has it: sync, length 1, kind, tag, body, two check bytes. -/
theorem test_frame_layout :
    (requestBytes (.modeSet 7 1)).map (fun l => (l.take 6, l.length)) = some ([0xA5, 0, 1, 1, 7, 1], 8) := by
  decide +kernel

/-- A SCHEDULE_PUT body of AT_TIME and RECORD spells its request, byte for byte from 08 section 8.5. -/
theorem test_spell_schedulePut :
    spell 0x18 9 [23, 0, 0x5F, 0x5E, 0x10, 0x00, 0, 4, 0x10, 0x05, 0x5F, 0x5E, 0x1E, 0x10]
      = .request (.schedulePut 9 23 (.atTime 0x5F5E1000) (.record 4 0x1005 0x5F5E1E10)) := by decide +kernel

/-- A GUIDE_NOW body of one byte is of the wrong length (R184 test 4). -/
theorem test_spell_short : spell 0x2B 9 [1] ≠ .request (.guideNow 9 1) := by decide +kernel

/-- The bytes of a MODE_SET frame, received one after another, set the mode (R183, R184). -/
theorem test_receivedByte :
    (match requestBytes (.modeSet 7 1) with
      | some l => (match execAll (l.map fun b => .receivedByte b true) (listening .hunt) with
        | .next t => (t.mode, said t)
        | _ => (.boot, []))
      | none => (.boot, [])) = (.config, [0, 2, 1]) := by decide +kernel

/-- A length of 1,021 is a frame error (R183). -/
theorem test_receivedByte_long :
    (after (.receivedByte 0xFD true) (listening (.length (some 3)))).link.frameErrors = 1
    ∧ (after (.receivedByte 0xFC true) (listening (.length (some 3)))).link.receiver = .header 3 0xFC none := by
  decide +kernel

theorem test_linkFrame : (after .linkFrame (listening (.length none))).link.receiver = .hunt := by decide +kernel

theorem test_interByteTimeout : (after .interByteTimeout (listening .hunt)).link.frameErrors = 0 := by
  decide +kernel

/-- IDENTIFY in BOOT: "BF-4420", revision 1, mode 0, key UNTESTED, one good frame (R191). -/
theorem test_identify :
    ((said (after (.identify 1) State.reset)).take 10 = [0, 0x42, 0x46, 0x2D, 0x34, 0x34, 0x32, 0x30, 0, 1])
    ∧ (said (after (.identify 1) State.reset)).drop 14 = [0, 0, 0, 0, 0, 1] ++ List.replicate 20 0 := by
  decide +kernel

/-- In BOOT a request but IDENTIFY is answered NOT_IN_MODE, and an unknown kind UNKNOWN_KIND (R171, R184). -/
theorem test_unknownKind : said (after (.unknownKind 1 0x03) base) = [4]
    ∧ said (after (.clockRead 1) State.reset) = [5] := by decide +kernel

/-- 10.8: the 31st further notice is dropped, the overflow flag set. -/
theorem test_notice_overflow :
    let full : Link := { notices := (List.range 32).map fun n => ⟨.slot, some n, [], 1⟩ }
    ((full.raise .lane (some 2) []).overflow, (full.raise .lane (some 2) []).noticesDropped) = (true, 1)
    ∧ ((full.raise .slot (some 0) [9]).notices.head?.map fun n => (n.contents, n.repeats)) = some ([9], 2) := by
  decide +kernel

/-- A silent kind sets its flag and queues nothing; its queued notices go (R188, R189). -/
theorem test_noticeMaskSet :
    ((after (.noticeMaskSet 1 2) { base with link := { tx := .reply [0], notices := [⟨.slot, some 0, [], 2⟩, ⟨.lane, some 2, [], 1⟩] } }).link.notices.map
      fun n => n.subject) = [some 0] := by decide +kernel

theorem test_noticeFlagsRead :
    said (after (.noticeFlagsRead 1 1) { base with link := { flags := #v[true, true, false, false, false, false, false, false, false, false] } })
      = [0, 0, 3, 0, 0] := by decide +kernel

/-- The reply sent leaves and is counted; the notice behind it begins (R185, R187). -/
theorem test_transmitFrameEnd :
    let t := after .transmitFrameEnd { choosing .ready with link := { (choosing .ready).link with tx := .reply [] } }
    (t.link.replies, t.link.repliesSent, t.link.notices) = ([], 1, []) := by decide +kernel

/-- A write takes 8 ms and the next begins at once (R178). -/
theorem test_storeWriteComplete :
    (after .storeWriteComplete { base with store := busyStore }).store.writing = some (handed 2, 5508) := by
  decide +kernel

/-- 9.5: the unit under way is old or new, the queue is lost. -/
theorem test_powerLoss :
    let t := after .powerLoss { base with store := busyStore }
    (t.power, t.store.queue, t.store.waiting, t.services) = (false, [], [], []) := by decide +kernel

/-- A store that was never formatted is formatted at power-on, and STORE_FORMATTED set (R179, R180). -/
theorem test_powerOn : (after .powerOn { ({} : State) with power := false }).faults.storeFormatted = true := by
  decide +kernel

theorem test_bootEnd : (after .bootEnd { base with mode := .boot }).mode = .config := by decide +kernel

/-- RESTART keeps the clock and loses the service map (R173). -/
theorem test_enterBoot :
    let t := after .enterBoot { base with restarting := true }
    (t.mode, t.clock.utc, t.services, t.restarting) = (.boot, 1000000, [], false) := by decide +kernel

theorem test_restart : (after (.clockRead 2) (after (.restart 1) base)).link.replies.length
    = (after (.restart 1) base).link.replies.length := by decide +kernel

/-- Entry to CONFIG frees a slot with reason MODE (R25). -/
theorem test_modeSet :
    let t := after (.modeSet 1 1) (withSlot 4 { state := .faulted, service := some 7, carrier := some 3 })
    (t.mode, (t.slot 4).state, (t.slot 4).reason, said t) = (.config, .free, .mode, [0, 2, 1]) := by decide +kernel

/-- An offset of 900 minutes is taken as 840; the first time is a step (R175). -/
theorem test_timeSet :
    let t := after (.timeSet 1 2000000 900) { base with clock := {} }
    (t.clock.utc, t.clock.offset, t.clock.known) = (2000000, 840, true) ∧ (said t).take 4 = [0, 3, 72, 1] := by
  decide +kernel

theorem test_clockRead : (said (after (.clockRead 1) base)).head? = some 0 := by decide +kernel

theorem test_faultClear :
    (after (.faultClear 1 0x40) { base with faults := { linkFrame := some 3, keyUnusable := true } }).faults
      = { keyUnusable := true } := by decide +kernel

/-- The sixth second begins: uptime 5,500 ms to 6,000, UTC one on (R174). -/
theorem test_secondBoundary :
    let t := after .secondBoundary base
    (t.clock.uptimeMs, t.clock.utc) = (6000, 1000001) := by decide +kernel

/-- A rating of 9 is taken as 6; a carrier that is empty gives NO_SUCH (R2). -/
theorem test_servicePut :
    said (after (.servicePut 1 (servicePutBody 9999 9 3 0 9 1)) base) = [0, 0, 9, 6, 0, 0]
    ∧ said (after (.servicePut 1 (servicePutBody 9999 9 6 0 9 1)) base) = [6] := by decide +kernel

theorem test_serviceDrop : (after (.serviceDrop 1 0 200) base).services = [clearService] := by decide +kernel

theorem test_serviceRead : said (after (.serviceRead 1 1 7) base) = [0, 0, 100, 0, 7, 3, 0, 2, 1, 0, 0, 16] := by
  decide +kernel

/-- 1.8 event 1: TUNING on the lowest IDLE lane, ACCEPTED with the service id. -/
theorem test_tune :
    let t := after (.tune 1 0 0 200 0) base
    (said t, (t.slot 0).state, (t.slot 0).lane, t.out) = ([1, 0, 0, 8], .tuning, some 0, [.tuneOrder 0 60000 1]) := by
  decide +kernel

theorem test_stop :
    let t := after (.stop 1 4 0) (withSlot 4 (recording .presenting))
    said t = [12] ∧ (t.slot 4).state = .presenting := by decide +kernel

/-- 1.8 event 2: ACQUIRING, four control entries and the component's. -/
theorem test_lock :
    let t := after (.lock 1 5) tuning
    ((t.slot 2).state, (t.lane 1).state, t.router.filters.length) = (.acquiring, .locked, 5) := by decide +kernel

theorem test_lock_old_order : (after (.lock 1 4) tuning).lanes = tuning.lanes := by decide +kernel

theorem test_laneUnlock :
    let t := after (.laneUnlock 1) (withLane 1 lockedLane)
    ((t.lane 1).state, (t.lane 1).lossUnlock) = (.idle, 1) := by decide +kernel

/-- LOCKED and SIGNAL_OK rise with the LOCK, and fall with the loss of the lane (R149). -/
theorem test_lane_sources :
    let t := after (.lock 1 5) tuning
    let u := after (.laneUnlock 1) t
    ((t.gate.src[(2 : Fin 5)]).locked, (t.gate.src[(2 : Fin 5)]).signalOk) = (true, true)
    ∧ ((u.gate.src[(2 : Fin 5)]).locked, (u.gate.src[(2 : Fin 5)]).signalOk) = (false, false) := by decide +kernel

/-- A new tune order for the same carrier, 1,500 ms to lock (R38). -/
theorem test_seekFailed :
    let t := after (.seekFailed 1) tuning
    ((t.lane 1).state, (t.lane 1).order, (t.lane 1).seekFailures, (t.slot 2).retune) = (.seeking, 6, 1, 1) := by
  decide +kernel

/-- 2.7: from GOOD an average of 27 stays, one of 40 is MARGINAL; from MARGINAL 272 is POOR. -/
theorem test_sample :
    ((after (.sample 1 31) (grading .good 77 3 0)).lane 1).grade = some .good
    ∧ ((after (.sample 1 29) (grading .good 132 3 0)).lane 1).grade = some .marginal
    ∧ ((after (.sample 1 250) (grading .marginal 840 3 0)).lane 1).grade = some .poor := by decide +kernel

/-- 2.7: the third average in POOR reaches K, and the lane is lost with cause POOR_RUN. -/
theorem test_sample_poor :
    ((after (.sample 1 250) (grading .poor 730 3 1)).lane 1).poorRun = 2
    ∧ ((after (.sample 1 380) (grading .poor 1200 3 2)).lane 1).lossPoorRun = 1 := by decide +kernel

theorem test_silenceTimerExpiry :
    (after (.silenceTimerExpiry 1) (withLane 1 lockedLane)).faults.silent = #v[false, true, false] := by
  decide +kernel

/-- N of 200 gives 32, K of 0 gives 1, Tl of 5,000 gives 4,095 (R40). -/
theorem test_qualityClassSet :
    said (after (.qualityClassSet 1 (classBody 3 200 5000 4096 1)) base)
      = [0, 3, 32, 0x0F, 0xFF, 0x0F, 0xFF, 255, 1, 1] := by decide +kernel

theorem test_carrierPut :
    ((after (.carrierPut 1 (carrierPutBody 63 90000 1)) base).carriers.filter (·.home)).map (·.index) = [63] := by
  decide +kernel

theorem test_carrierDrop :
    ((after (.carrierDrop 1 3) (withSlot 4 (recording .presenting))).slot 4).reason = .serviceGone := by
  decide +kernel

theorem test_laneEnable : ((after (.laneEnable 1 1 0) tuning).lane 1).state = .off
    ∧ ((after (.laneEnable 1 1 0) tuning).slot 2).lane = some 0 := by decide +kernel

theorem test_homeRetryExpiry : (after .homeRetryExpiry standing).arb.home = .holding 0 := by decide +kernel

/-- The cell leaves with its phase CLEAR; sequence 0 follows 63 without a gap (R70, R71). -/
theorem test_cell :
    let t := after (.cell 1 (cellOf 16 0 0)) (routing .presenting)
    (t.out, (t.slot 0).gaps, (t.slot 0).cellsOut) = ([.cellOut 0 (cellOf 16 0 0)], 0, 1) := by decide +kernel

theorem test_keyTimeout :
    ((after (.keyTimeout 2) (withSlot 2 (keyed .acquiring .free))).slot 2).reason = .keyTimeout := by decide +kernel

/-- 3.5 event 3 and R67's two cases: 700 again is a duplicate, 33,468 after 700 is stale, 3 after 65,530 newer. -/
theorem test_takeWord :
    let s := withSlot 2 (keyed .presenting .free)
    let rec' (p : Half) : KeyRecord := { sid := 8, phase := .a, period := p, req := .free, wrapped := 0 }
    (takeWord 2 (rec' 700) .free 1 s).access.counters.duplicate = 1
    ∧ (takeWord 2 (rec' 33468) .free 1 s).access.counters.stale = 1
    ∧ (takeWord 2 (rec' 702) .free 1 s).access.counters.stored = 1 := by decide +kernel

/-- 4.11: Q is 198 at 4,830 s, and the floor and the price bound it. -/
theorem test_charge :
    (chargeOf 0 120 600 true 10 150 4830, chargeOf 0 120 600 true 10 650 4830, chargeOf 0 120 600 true 10 150 600)
      = (198, 600, 600) := by decide +kernel

/-- 4.11 at 3,600 s elapsed: Q is half of the price; the balance 120 falls to -180, record 1 in place 1. -/
theorem test_buy :
    let t := after (.buy 1 0 ⟨0, 0, 0, 0⟩ 255 7 880021) (withPlace 2047 movie 0)
    (t.access.purse.balance, t.access.purse.nextSeq, t.access.grants, (t.profile 0).spend)
      = (-180, 2, [⟨880021, 7, 1003600⟩], 300) := by decide +kernel

theorem test_quote : (said (after (.quote 1 0 7 880021) (withPlace 2047 movie 0))).take 6 = [0, 0, 0, 1, 1, 44] := by
  decide +kernel

theorem test_tierExpiry : ((after .tierExpiry (rights 1000000 0 true (.tier 31))).slot 2).desc.keyA.isNone = true := by
  decide +kernel

theorem test_grantExpiry : (after .grantExpiry (rights 0 999701 true .free)).access.grants.length = 1
    ∧ (after .grantExpiry (rights 0 999700 true .free)).access.grants.length = 0 := by decide +kernel

theorem test_previewEnd : ((after (.previewEnd 2) (rights 0 0 true (.preview 9))).slot 2).reason = .notEntitled := by
  decide +kernel

theorem test_periodRollover : (after .periodRollover (period none)).access.purse.periodStart = some 1000000 := by
  decide +kernel

/-- 5.7 event 1, at places 0 to 3: the new version replaces one entry and displaces two. -/
def evening : State :=
  { base with
    clock := { base.clock with utc := 70800 }
    guide := { places := [⟨0, { guideEntry 700100 68400 60 with version := 3 }, 0⟩, ⟨1, guideEntry 700101 72000 60, 0⟩,
                          ⟨2, guideEntry 700102 75600 30, 0⟩, ⟨3, guideEntry 700103 77400 60, 0⟩] } }

theorem test_guidePut :
    let t := after (.guidePut 1 { guidePutBody 700101 70200 120 with version := 2 }) evening
    (t.guide.places.map fun p => (p.num, p.ev.eid, p.ev.version)) = [(0, 700101, 2), (3, 700103, 1)]
    ∧ (t.guide.counters.replaced, t.guide.counters.displaced, t.guide.counters.inserted) = (1, 2, 1) := by
  decide +kernel

theorem test_guideDrop : said (after (.guideDrop 1 7 700103) evening) = [0]
    ∧ said (after (.guideDrop 1 7 700104) evening) = [6] := by decide +kernel

theorem test_guideList : (said (after (.guideList 1 7 75600 0) evening)).take 3 = [0, 1, 1] := by decide +kernel

/-- An entry past correction is left out and goes, and one CORRECTED is reported, counted and to be rewritten (R113,
R115, R122). -/
theorem test_guideList_damaged :
    let t := after (.guideList 1 7 0 2) (listedAt 1 2 1 false)
    (said t).take 3 = [0, 2, 2] ∧ t.guide.places.map (·.num) = [3, 9] ∧ t.guide.scrub.map (·.place) = some 3
    ∧ (t.faults.guideCorrected, t.faults.guideSecond, t.faults.guideLost) = (some 2, some 9, some (5, 1)) := by
  decide +kernel

theorem test_guideNow : ((said (after (.guideNow 1 7) evening)).drop 3).take 6 = [0, 7, 0, 0x0A, 0xAE, 0xC4] := by
  decide +kernel

/-- An entry that ended 3,600 s before now goes, one that ended 3,599 s before stays (R109). -/
theorem test_prune :
    let s := { evening with clock := { base.clock with utc := 75600 } }
    (after .prune s).guide.places.length = 3
    ∧ (after .prune { s with clock := { s.clock with utc := 75599 } }).guide.places.length = 4 := by decide +kernel

/-- 5.8 event 1, event 3. -/
theorem test_patrolVisit :
    let t := after .patrolVisit (patrolling 2047 1 none)
    (t.faults.guideCorrected, t.guide.scrub.map fun r => (r.place, r.due), t.guide.patrol)
      = (some 1, some (2047, 5501), 0) := by decide +kernel

theorem test_scrubRewrite :
    let t := after .scrubRewrite (patrolling 0 1 (some ⟨7, guideEntry 1 5 5, 9⟩))
    t.guide.places.map (·.disturbed) = [0, 1] := by decide +kernel

theorem test_sweepSet :
    let t := after (.sweepSet 1 1 0 200) base
    (t.sweep.state, t.sweep.position, t.sweep.dwell, (t.lane 0).carrier) = (.dwell, some 4, 120, some 4) := by
  decide +kernel

theorem test_sweepStep : (after (.sweepStep 1) served).sweep.position = some 4 := by decide +kernel

theorem test_sweepTimerExpiry : (after .sweepTimerExpiry served).sweep.visits = 1 := by decide +kernel

/-- 6.11: the fifth wrong PIN starts the lockout of 900 s, and slot 4 is refused before the checker. -/
theorem test_unlock :
    let s := { unlocked none with
      parental := { base.parental with profiles := base.parental.profiles.set 0 { inUse := true, pin := ⟨4, 7, 1, 8⟩, failures := 4 } } }
    let t := after (.unlock 1 2 ⟨4, 7, 1, 0⟩ 30) s
    (said t, (t.profile 0).failures, (t.profile 0).lockout) = ([10], 0, 900)
    ∧ said (after (.unlock 1 4 ⟨4, 7, 1, 8⟩ 30) t) = [3] ∧ said (after (.unlock 1 2 ⟨4, 7, 1, 8⟩ 30) t) = [11] := by
  decide +kernel

theorem test_relock : said (after (.relock 1 2) (unlocked (some ⟨7, 60⟩))) = [0, 2, 1] := by decide +kernel

theorem test_unlockEnd : (after (.unlockEnd 2) (unlocked (some ⟨7, 1⟩))).parental.unlocks[(2 : Fin 3)] = none := by
  decide +kernel

theorem test_lockoutEnd :
    ((after (.lockoutEnd 7) (withProfile 7 { inUse := true, lockout := 1 })).profile 7).lockout = 0 := by
  decide +kernel

theorem test_profileSelect : said (after (.profileSelect 1 2 7 ⟨0, 0, 0, 0⟩) base) = [6] := by decide +kernel

theorem test_profilePut :
    (after (.profilePut 1 (profilePutBody 7 1 1439)) base).profile 7 = profileEntry 1439 := by decide +kernel

theorem test_householdSet :
    (after (.householdSet 1 ⟨0, 0, 0, 0⟩ 99 0 0 0) base).parental.household.dayStart = 23 := by decide +kernel

/-- 6.10 event 5: 0 and 600 s make 600. -/
theorem test_allowanceGrant :
    ((after (.allowanceGrant 1 7 600 ⟨0, 0, 0, 0⟩) (counting 0)).profile 7).remaining = 600 := by decide +kernel

theorem test_allowanceOut : ((after (.allowanceOut 7) (counting 1)).profile 7).remaining = 0 := by decide +kernel

/-- 6.10 event 7: the day advances, remaining is the allowance. -/
theorem test_dayStartReset :
    ((after .dayStartReset { counting 0 with parental := { (counting 0).parental with household := { day := some 10 } } }).profile 7).remaining
      = 3600 := by decide +kernel

theorem test_profileUnitWrite :
    (after .profileUnitWrite { base with parental := { base.parental with dirty := base.parental.dirty.set 3 true } }).store.last = 1 := by
  decide +kernel

/-- 7.6 event 1: the write of cell 5 passes; a link not above its own cell does not. -/
theorem test_cellPut :
    (after (.cellPut 1 (latchBody 6)) base).gate.cells[(5 : Fin 8)] = latch
    ∧ said (after (.cellPut 1 (latchBody 5)) base) = [3] := by decide +kernel

/-- 7.6 event 2: cell 5 is enabled without a PIN, and its output stays 0. -/
theorem test_cellEnable : said (after (.cellEnable 1 5 1 ⟨9, 9, 9, 9⟩) (withCell 5 latch)) = [0, 5, 1, 0] := by
  decide +kernel

theorem test_schedulePut :
    (after (.schedulePut 1 23 (.atTime 1000001) (.record 4 7 1000002)) base).entry 23
      = { state := .armed, trigger := .atTime 1000001, action := .record 4 7 1000002
          triggerTime := some 1000001, endTime := some 1000002 } := by decide +kernel

theorem test_scheduleDrop : said (after (.scheduleDrop 1 23) (running 1000001)) = [0, 23, 2, 1] := by decide +kernel

/-- R169: 23 EMPTY entries with their state alone, and entry 23 RUNNING with no outcome and no orphan. -/
theorem test_scheduleRead :
    said (after (.scheduleRead 1 255) (running 1000001)) = 0 :: List.replicate 23 0 ++ [2, 0, 0, 0] := by decide +kernel

/-- A reminder 60 s late acts, one 61 s late is missed (R162). -/
theorem test_scheduleTrigger :
    ((after (.scheduleTrigger 23) (scheduled .armed .remind 999940 none)).entry 23).state = .done
    ∧ ((after (.scheduleTrigger 23) (scheduled .armed .remind 999939 none)).entry 23).state = .missed := by
  decide +kernel

theorem test_runEnd :
    let t := after (.runEnd 23) (running 1000000)
    ((t.entry 23).state, (t.slot 4).state, (t.slot 4).reason) = (.done, .free, .stopped) := by decide +kernel

theorem test_scheduleRetryExpiry :
    let t := after (.scheduleRetryExpiry 23) (retrying .faulted)
    ((t.slot 4).state, (t.slot 4).origin, (t.entry 23).retry) = (.tuning, .schedule 23, none) := by decide +kernel

end Sys2Proof.Tests
end

