-- ==== Sys2Proof/Proofs/P1.lean ====
section
/-! SUPPORT. The ranges that every step keeps (R1, R31, R39, R88, R126, R174, R177): a request by what its owner may
do, an event by what the blocks' work may do, and the boot check by what the store's images hold. -/

namespace Sys2Proof.Machine

open Sys2Proof

variable {s t : State}

/-! ### Ranges across the relations -/

theorem Keeps.ranged (k : Keeps s t) (h : s.ranged) : t.ranged :=
  have x := k.held ⟨h.purse, h.parental, h.store⟩
  ⟨k.services h.services, k.carriers h.carriers, k.classes h.classes, k.clock h.clock, x.purse, x.parental, x.store⟩

theorem Runs.ranged (r : Runs s t) (h : s.ranged) : t.ranged := r.keeps.ranged h

theorem Owned.ranged (o : Owned s t) (h : s.ranged) : t.ranged := o.keeps.ranged h

theorem ranged_modLink (f : Link → Link) (h : s.ranged) : (s.modLink f).ranged := { h with }

theorem ranged_startTx (h : s.ranged) : s.startTx.ranged := ranged_modLink _ h

theorem ranged_clearOut (h : s.ranged) : s.clearOut.ranged := { h with }

theorem ranged_setFault (n : FaultName) (f : Faults → Faults) (h : s.ranged) : (s.setFault n f).ranged :=
  ((Runs.refl s).setFault n f).ranged h

theorem ranged_frameError (h : s.ranged) : s.frameError.ranged := ranged_setFault _ _ (ranged_modLink _ h)

theorem ranged_overrun (h : s.ranged) : s.overrun.ranged := ranged_setFault _ _ (ranged_modLink _ h)

/-! ### Requests and events -/

/-- A request keeps the ranges where its owner does. -/
theorem ranged_takeRequest (kind tag : Byte) {f : Req} (hf : ∀ u : State, u.ranged → (f u).2.ranged)
    (h : s.ranged) : (s.takeRequest kind tag f).ranged := by
  have opened : s.clearOut.countGood.ranged := ranged_modLink _ (ranged_clearOut h)
  unfold State.takeRequest
  dsimp only
  split
  · split
    · exact ranged_startTx (ranged_overrun (ranged_clearOut h))
    · split
      · exact ranged_startTx (ranged_modLink _ opened)
      · exact ranged_startTx (ranged_modLink _ (hf _ opened))
  · exact ranged_clearOut h

theorem ranged_serve (kind tag : Byte) {f : Req} (hf : ∀ u : State, Owned u (f u).2) (h : s.ranged) :
    (s.serve kind tag f).ranged :=
  ranged_takeRequest kind tag (fun u hu => ((hf u).trans (settle_owned _)).ranged hu) h

theorem ranged_takeBad (kind tag : Byte) (st : Status) (h : s.ranged) : (s.takeBad kind tag st).ranged := by
  unfold State.takeBad
  dsimp only
  split
  · split
    · exact ranged_startTx (ranged_overrun (ranged_clearOut h))
    · exact ranged_startTx (ranged_modLink (s := s.clearOut.countGood) _ (ranged_modLink _ (ranged_clearOut h)))
  · exact ranged_clearOut h

theorem ranged_event {f : State → State} (hf : ∀ u, Runs u (f u)) (h : s.ranged) : (s.event f).ranged := by
  unfold State.event State.takeEvent
  dsimp only
  split
  · exact ranged_startTx (((hf _).acts ((Acts.refl _).settle)).ranged (ranged_clearOut h))
  · exact ranged_clearOut h

theorem ranged_linkEvent {f : State → State} (hf : ∀ u : State, u.ranged → (f u).ranged) (h : s.ranged) :
    (s.linkEvent f).ranged := by
  unfold State.linkEvent
  split
  · exact ranged_startTx (hf _ (ranged_clearOut h))
  · exact ranged_clearOut h

/-! ### The requests that read -/

/-- An owner serves a request that reads: it answers what the state gives and leaves every state. -/
structure ReadBy (i : Instr) (kind tag : Byte) (body : List Byte) (s : State) (f : Req) : Prop where
  exec : ∀ u, exec i u = .next (u.serve kind tag f)
  leaves : ∀ u, (f u).2 = u
  body : (f s.opened).1.body = body

theorem readBy_of_eq {i : Instr} {kind tag : Byte} {f : Req} {g : State → List Byte}
    (hx : ∀ u, exec i u = .next (u.serve kind tag f)) (hf : ∀ u, f u = ({ body := g u }, u))
    (hg : g s.opened = g s) : ReadBy i kind tag (g s) s f :=
  ⟨hx, fun u => by rw [hf], by rw [hf, ← hg]⟩

theorem selectorOk_iff (sel : Byte) (num : Half) : selectorOk sel num = true
    ↔ (sel = 0 ∧ 1 ≤ num.toNat ∧ num.toNat ≤ 9999) ∨ (sel = 1 ∧ 1 ≤ num.toNat) := by
  simp [selectorOk, and_assoc]

theorem serviceReadReq_eq (sel : Byte) (num : Half) (u : State) :
    serviceReadReq sel num u = ({ body := u.serviceReply sel num }, u) := by
  unfold serviceReadReq State.serviceReply
  simp only [← selectorOk_iff]
  cases selectorOk sel num
  · rfl
  · cases u.findService sel num <;> rfl

theorem carrierReadReq_eq (index : Byte) (u : State) :
    carrierReadReq index u = ({ body := u.carrierReply index }, u) := by
  unfold carrierReadReq State.carrierReply
  split
  · rfl
  · cases u.carrier? index.toNat <;> rfl

theorem scheduleReadReq_eq (n : Byte) (u : State) :
    scheduleReadReq n u = ({ body := u.scheduleReply n }, u) := by
  unfold scheduleReadReq State.scheduleReply
  split
  · rfl
  · cases toFin? 24 n.toNat <;> rfl

theorem clamp_eq {lo hi : Nat} (h : lo ≤ hi) (n : Nat) : clamp lo hi n = max lo (min hi n) := by
  unfold clamp; split <;> [skip; split] <;> omega

theorem purchasesReadReq_eq (from' : Word) (count : Byte) (u : State) :
    purchasesReadReq from' count u = ({ body := u.purchasesReply from' count }, u) := by
  unfold purchasesReadReq State.purchasesReply
  rw [clamp_eq (by decide)]
  rfl

theorem profileReadReq_eq (b : Byte) (u : State) :
    profileReadReq b u = ({ body := fieldsOf (fun n => (u.profile n).bytes ++ setByte (u.viewersOf n)) (toFin? 8 b.toNat) }, u) := by
  unfold profileReadReq
  cases toFin? 8 b.toNat <;> rfl

theorem slotStatusReq_eq (b : Byte) (u : State) :
    slotStatusReq b u = ({ body := fieldsOf (fun n => slotStatusBytes n u) (toFin? 5 b.toNat) }, u) := by
  unfold slotStatusReq
  cases toFin? 5 b.toNat <;> rfl

theorem qualityClassReadReq_eq (b : Byte) (u : State) :
    qualityClassReadReq b u = ({ body := fieldsOf (fun n => classBytes n u.classes[n]) (toFin? 4 b.toNat) }, u) := by
  unfold qualityClassReadReq
  cases toFin? 4 b.toNat <;> rfl

theorem laneStatusReq_eq (b : Byte) (u : State) :
    laneStatusReq b u = ({ body := fieldsOf (fun n => laneStatusBytes n u) (toFin? 3 b.toNat) }, u) := by
  unfold laneStatusReq
  cases toFin? 3 b.toNat <;> rfl

theorem filterReadReq_eq (b : Byte) (u : State) :
    filterReadReq b u = ({ body := fieldsOf (fun n => filterBytes n u) (toFin? 3 b.toNat) }, u) := by
  unfold filterReadReq
  cases toFin? 3 b.toNat <;> rfl

theorem keyStatusReq_eq (b : Byte) (u : State) :
    keyStatusReq b u = ({ body := fieldsOf (fun n => keyStatusBytes n u) (toFin? 5 b.toNat) }, u) := by
  unfold keyStatusReq
  cases toFin? 5 b.toNat <;> rfl

theorem cellReadReq_eq (b : Byte) (u : State) :
    cellReadReq b u = ({ body := fieldsOf (fun n => cellReadBytes n u) (toFin? 8 b.toNat) }, u) := by
  unfold cellReadReq
  cases toFin? 8 b.toNat <;> rfl

/-- Each request that reads has an owner that answers what the state gives (R5, R28, R34 and the rest). -/
theorem readBy_of_reads {i : Instr} {kind tag : Byte} {body : List Byte} (h : s.reads i = some (kind, tag, body)) :
    ∃ f, ReadBy i kind tag body s f := by
  cases i with
  | clockRead t => cases h; exact ⟨_, fun _ => rfl, fun _ => rfl, rfl⟩
  | faultRead t => cases h; exact ⟨_, fun _ => rfl, fun _ => rfl, rfl⟩
  | profileRead t p => cases h; exact ⟨_, readBy_of_eq (fun _ => rfl) (profileReadReq_eq p) rfl⟩
  | householdRead t => cases h; exact ⟨_, fun _ => rfl, fun _ => rfl, rfl⟩
  | serviceRead t sel num => cases h; exact ⟨_, readBy_of_eq (fun _ => rfl) (serviceReadReq_eq sel num) rfl⟩
  | slotStatus t k => cases h; exact ⟨_, readBy_of_eq (fun _ => rfl) (slotStatusReq_eq k) rfl⟩
  | scheduleRead t n => cases h; exact ⟨_, readBy_of_eq (fun _ => rfl) (scheduleReadReq_eq n) rfl⟩
  | carrierRead t i => cases h; exact ⟨_, readBy_of_eq (fun _ => rfl) (carrierReadReq_eq i) rfl⟩
  | qualityClassRead t c => cases h; exact ⟨_, readBy_of_eq (fun _ => rfl) (qualityClassReadReq_eq c) rfl⟩
  | laneStatus t l => cases h; exact ⟨_, readBy_of_eq (fun _ => rfl) (laneStatusReq_eq l) rfl⟩
  | arbiterRead t => cases h; exact ⟨_, fun _ => rfl, fun _ => rfl, rfl⟩
  | guideStatus t => cases h; exact ⟨_, fun _ => rfl, fun _ => rfl, rfl⟩
  | filterRead t l => cases h; exact ⟨_, readBy_of_eq (fun _ => rfl) (filterReadReq_eq l) rfl⟩
  | keyStatus t k => cases h; exact ⟨_, readBy_of_eq (fun _ => rfl) (keyStatusReq_eq k) rfl⟩
  | cellRead t c => cases h; exact ⟨_, readBy_of_eq (fun _ => rfl) (cellReadReq_eq c) rfl⟩
  | purchasesRead t f n => cases h; exact ⟨_, readBy_of_eq (fun _ => rfl) (purchasesReadReq_eq f n) rfl⟩
  | accessStatus t => cases h; exact ⟨_, fun _ => rfl, fun _ => rfl, rfl⟩
  | tierRead t => cases h; exact ⟨_, fun _ => rfl, fun _ => rfl, rfl⟩
  | grantRead t => cases h; exact ⟨_, fun _ => rfl, fun _ => rfl, rfl⟩
  | _ => cases h

/-- Settles O22: the owner of each of the nineteen reads leaves the state. -/
theorem readsChangeNothing : Obligations.ReadsChangeNothing := by
  intro i kind tag body s ready h
  obtain ⟨f, r⟩ := readBy_of_reads h
  obtain ⟨answered, unmoved⟩ := serve_reads kind tag f ready (r.leaves _)
  exact ⟨_, r.exec s, r.body ▸ answered, unmoved⟩

end Sys2Proof.Machine
end

