-- ==== Sys2Proof/Proofs/P1b.lean ====
section
namespace Sys2Proof.Machine

open Sys2Proof

variable {s t u : State}

/-! ### The store's images (R177 to R179) -/

theorem Purse.ok_default : ({} : Purse).ok := ⟨by decide, by decide, by decide, by decide, by decide⟩

theorem Profile.ok_default (b : Bool) : ({ inUse := b } : Profile).ok :=
  ⟨Nat.le_refl 6, Nat.zero_le 4, by simp, Nat.le_refl 86400, Nat.zero_le _, Nat.zero_le _, Nat.zero_le _⟩

theorem formatProfiles_get : ∀ p : Fin 8, formatProfiles[p] = { inUse := p == 0 } := by decide

theorem formatProfiles_ok : ({ profiles := formatProfiles } : Parental).ok :=
  ⟨fun p => formatProfiles_get p ▸ Profile.ok_default _, rfl⟩

theorem Store.ok_writeComplete {st : Store} (now : Nat) (h : st.ok) : (st.writeComplete now).ok :=
  (((Runs.refl { store := st }).writeComplete now).keeps.held ⟨Purse.ok_default, formatProfiles_ok, h⟩).store

/-- A store whose units are those of another, with nothing under way (R178). -/
theorem Store.ok_emptied {st : Store} (h : st.ok) :
    ({ st with writing := none, queue := [], waiting := [] } : Store).ok :=
  ⟨h.access, h.purchases, h.profiles, by simp, by simp, by simp⟩

/-- A power failure leaves the images stored, and that of the write that it meets (R178). -/
theorem Store.ok_powerLoss {st : Store} (b : Bool) (h : st.ok) : (st.powerLoss b).ok := by
  unfold Store.powerLoss
  split
  · rename_i w d hw
    split
    · have written : (st.writeComplete 0).units = st.units.write w := by
        simp only [Store.writeComplete, hw, Store.fill_units]
      have x := Store.ok_emptied (Store.ok_writeComplete 0 h)
      exact ⟨written ▸ x.access, written ▸ x.purchases, written ▸ x.profiles, x.writing, x.queue, x.waiting⟩
    · exact Store.ok_emptied h
  · exact Store.ok_emptied h

/-- A check spoilt leaves every image (R179). -/
theorem Store.ok_spoil {st : Store} (i : UnitId) (h : st.ok) : ({ st with units := st.units.spoil i }).ok := by
  cases i with
  | purchase n =>
    refine { h with purchases := fun m => ?_ }
    simp only [Units.spoil, Fin.getElem_fin, Vector.getElem_set]
    split
    · rename_i e
      exact (Fin.ext e : n = m) ▸ h.purchases n
    · exact h.purchases m
  | profile n =>
    refine { h with profiles := fun m => ?_ }
    simp only [Units.spoil, Fin.getElem_fin, Vector.getElem_set]
    split
    · rename_i e
      exact (Fin.ext e : n = m) ▸ h.profiles n
    · exact h.profiles m
  | _ => exact { h with }

/-- The latest of some pieces is one of them (R179). -/
theorem foldl_later {α β : Type} {P : β → Prop} (f : α → Nat × β) (l : List α) (b : Nat × β) (hb : P b.2)
    (hl : ∀ a ∈ l, P (f a).2) : P (l.foldl (fun b a => later b (f a)) b).2 := by
  induction l generalizing b with
  | nil => exact hb
  | cons a l ih =>
    refine ih _ ?_ fun x hx => hl x (List.mem_cons_of_mem _ hx)
    dsimp only [later]
    split
    · exact hl a List.mem_cons_self
    · exact hb

/-- Each commit that the store holds has its images in range (R177). -/
theorem Store.ok_commits {st : Store} (h : st.ok) :
    ∀ c ∈ st.units.commits, c.2.purse.ok ∧ c.2.spend ≤ 16777215 := by
  intro c hc
  obtain ⟨p, hp, e⟩ := List.mem_filterMap.1 hc
  obtain ⟨n, hn, rfl⟩ := Vector.getElem_of_mem (Vector.mem_toList_iff.1 hp)
  have x := h.purchases ⟨n, hn⟩
  simp only [Fin.getElem_fin] at x
  cases hs : (st.units.purchases[n]).sound with
  | false => simp [Stored.get, hs] at e
  | true =>
    cases hi : (st.units.purchases[n]).image with
    | none => simp [Stored.get, hs, hi] at e
    | some i =>
      simp only [Stored.get, hs, hi, if_true, Option.map_some, Option.some.injEq] at e
      subst e
      rw [hi] at x
      exact x

/-- What the boot check assembles of the purse is in range (R179). -/
theorem Store.ok_purse {st : Store} (h : st.ok) : st.units.purse.ok := by
  refine foldl_later (P := Purse.ok) (fun c : Nat × PurchaseImage => (c.1, c.2.purse)) _ _ ?_
    fun c hc => (Store.ok_commits h c hc).1
  unfold Stored.get
  split
  · exact h.access
  · exact Purse.ok_default

/-- What the boot check assembles of the profiles is in range, profile 0 in use (R179). -/
theorem Store.ok_profileTable {st : Store} (h : st.ok) :
    ({ profiles := st.units.profileTable } : Parental).ok := by
  have image : ∀ p : Fin 8, ((st.units.profiles[p]).get formatProfiles[p]).ok
      ∧ (p = 0 → ((st.units.profiles[p]).get formatProfiles[p]).inUse = true) := by
    intro p
    unfold Stored.get
    split
    · exact ⟨(h.profiles p).1, fun e => (h.profiles p).2 (congrArg _ e)⟩
    · exact ⟨formatProfiles_ok.profiles p, fun e => e ▸ formatProfiles_ok.master⟩
  have get : ∀ p : Fin 8, st.units.profileTable[p] = st.units.profileOf p := fun p => by
    simp [Units.profileTable]
  refine ⟨fun p => ?_, ?_⟩
  · refine get p ▸ { (image p).1 with spend := ?_ }
    exact foldl_later (P := (· ≤ 16777215)) (fun c : Nat × PurchaseImage => (c.1, c.2.spend)) _ _ (image p).1.spend
      fun c hc => (Store.ok_commits h c (List.mem_filter.1 hc).1).2
  · exact get 0 ▸ (image 0).2 rfl

/-! ### Power and BOOT (R171, R173) -/

theorem QClass.ok_default : ({} : QClass).ok := ⟨by decide, by decide, by decide, by decide⟩

theorem Clock.ok_default : ({} : Clock).ok := ⟨by decide, by decide⟩

/-- A part whose tables are at their reset values: its clock, its purse, its profiles and its store are what is left
to range over. -/
theorem ranged_of_reset (hv : s.services = []) (hc : s.carriers = []) (hq : s.classes = Vector.replicate 4 {})
    (clock : s.clock.ok) (purse : s.access.purse.ok) (parental : s.parental.ok) (store : s.store.ok) : s.ranged where
  services := hv ▸ ⟨.nil, by decide, .nil, by simp⟩
  carriers := hc ▸ ⟨.nil, .nil, .nil, by simp⟩
  classes n := by simpa [hq] using QClass.ok_default
  clock := clock
  purse := purse
  parental := parental
  store := store

theorem ranged_unpowered (h : s.ranged) : (unpowered s).ranged :=
  ranged_of_reset rfl rfl rfl Clock.ok_default Purse.ok_default formatProfiles_ok (Store.ok_powerLoss _ h.store)

theorem ranged_powered (h : s.ranged) : (powered s).ranged :=
  ranged_of_reset rfl rfl rfl Clock.ok_default Purse.ok_default formatProfiles_ok h.store

theorem ranged_restarted (h : s.ranged) : (restarted s).ranged :=
  ranged_of_reset rfl rfl rfl h.clock Purse.ok_default formatProfiles_ok h.store

theorem formatImage_ok (i : UnitId) : (formatImage i).ok i := by
  cases i with
  | access => exact Purse.ok_default
  | profile p => exact ⟨formatProfiles_ok.profiles p, fun e => by cases e; rfl⟩
  | _ => trivial

/-- The hand-overs of a boot keep the ranges (R178, R179). -/
theorem Runs.writeFormat (l : List UnitId) (h : Runs s t) : Runs s (writeFormat l t) :=
  h.forEach fun i _ _ hu => hu.handOver i _ fun _ => formatImage_ok i

theorem Runs.ite {c : Prop} [Decidable c] (ht : Runs s t) (hu : Runs s u) : Runs s (if c then t else u) := by
  split
  · exact ht
  · exact hu

theorem Runs.bootFaults (b : Bool) (l : List UnitId) (h : Runs s t) : Runs s (bootFaults b l t) :=
  have lost := Runs.forEach (l := l) (fun _ _ _ hv => hv.setFault _ _)
    (.ite (c := b) ((h.modFaults _).setFault _ _) (h.modFaults _))
  .ite (lost.setFault _ _) lost

theorem ranged_bootLoad (h : s.ranged) : (bootLoad s).ranged :=
  ((Runs.refl _).writeFormat _).ranged
    { h with purse := Store.ok_purse h.store, parental := Parental.ok_of (q := { profiles := s.store.units.profileTable }) rfl (Store.ok_profileTable h.store), store := { h.store with } }

theorem ranged_bootFormat (h : s.ranged) : (bootFormat s).ranged :=
  ((Runs.refl _).writeFormat _).ranged
    { h with purse := Purse.ok_default, parental := Parental.ok_of (q := { profiles := formatProfiles }) rfl formatProfiles_ok, store := { h.store with } }

/-- The boot check assembles the retained state in its ranges, or formats the store (R179). -/
theorem ranged_bootCheck (h : s.ranged) : (bootCheck s).ranged := by
  have loaded : (if !s.store.units.formatted then bootFormat s else bootLoad s).ranged := by
    split
    · exact ranged_bootFormat h
    · exact ranged_bootLoad h
  exact ((Runs.refl _).bootFaults _ _).ranged { loaded with }

theorem ranged_applyPower (h : s.ranged) : (applyPower s).ranged := by
  refine ranged_bootCheck (ranged_powered ?_)
  split
  · exact ranged_unpowered h
  · exact h

theorem Runs.takeDefaults (h : Runs s t) : Runs s (takeDefaults t) := by
  have slots : Runs s (Machine.forEach viewSlots (fun v s => s.modSlot (viewSlot v) fun sl =>
      { sl with profile := some (Vector.ofFn t.defaultFor)[v] }) t) := h.forEach fun _ _ _ hu => hu.modSlot _ _
  exact .ite (slots.modParental _ (Parental.ok_of rfl)).handHousehold slots

theorem Runs.bootPass (h : Runs s t) : Runs s (bootPass t) := by
  unfold Machine.bootPass
  exact (h.modGate _ (Gate.ok_congr rfl)).flow ((Flow.refl none _).gatePass _)

/-- The end of BOOT keeps the ranges (R147, R171). -/
theorem ranged_endBoot (h : s.ranged) : (endBoot s).ranged := by
  have pass := (((Runs.refl s).takeDefaults).bootPass.acts (Acts.refl _).settle).ranged h
  have moved : ∀ (d : Option Nat) (u : State), u.ranged →
      ((u.modGuide fun g => { g with patrolDue := d }).setMode .config).ranged := fun _ _ hu => { hu with }
  unfold endBoot State.modeNotice
  exact ((Runs.refl _).raise _ _ _).ranged (moved _ _ pass)

end Sys2Proof.Machine
end

