-- ==== Sys2Proof/Proofs/P1c.lean ====
section
namespace Sys2Proof.Machine

open Sys2Proof

variable {s t u : State}

/-! ### Commands -/

/-- What a command answers, if it answers a state, is in range. -/
def RangedResult (r : Result) : Prop := ∀ t, r = .next t → t.ranged

theorem rangedResult_next (h : t.ranged) : RangedResult (.next t) := fun _ e => by cases e; exact h

theorem rangedResult_serve (kind tag : Byte) {f : Req} (hf : ∀ u : State, Owned u (f u).2) (h : s.ranged) :
    RangedResult (.next (s.serve kind tag f)) := rangedResult_next (ranged_serve kind tag hf h)

theorem rangedResult_event {f : State → State} (hf : ∀ u, Runs u (f u)) (h : s.ranged) :
    RangedResult (.next (s.event f)) := rangedResult_next (ranged_event hf h)

theorem ranged_ite {c : Prop} [Decidable c] (ht : t.ranged) (hu : u.ranged) : (if c then t else u).ranged := by
  split
  exacts [ht, hu]

theorem ranged_modStore {f : Store → Store} (hf : s.store.ok → (f s.store).ok) (h : s.ranged) :
    (s.modStore f).ranged := { h with store := hf h.store }

theorem Runs.ofFlow (h : Flow none s t) : Runs s t := h.acts.runs

theorem Runs.lockEvent (l : Fin 3) (order : Byte) (s : State) : Runs s (lockEvent l order s) :=
  .ite ((Runs.refl s).laneLocks l) (.refl s)

theorem Runs.sampleEvent (l : Fin 3) (e : Nat) (s : State) : Runs s (sampleEvent l e s) :=
  .ite ((Runs.refl s).takeSample e l) (.refl s)

theorem Runs.cellEvent (l : Fin 3) (bytes : List Byte) (s : State) : Runs s (cellEvent l bytes s) :=
  .ite ((Runs.refl s).routeCell l _) (.refl s)

/-- A command that is no byte of the link keeps the ranges. -/
theorem exec_ranged {i : Instr} (hi : ∀ b stop, i ≠ .receivedByte b stop) (h : s.ranged) : RangedResult (exec i s) := by
  cases hr : s.reads i with
  | some x =>
    obtain ⟨f, r⟩ := readBy_of_reads hr
    rw [r.exec]
    exact rangedResult_serve _ _ (fun u => (r.leaves u).symm ▸ .refl u) h
  | none =>
    have opened := ranged_clearOut h
    cases i with
    | powerOn => exact rangedResult_next (ranged_startTx (ranged_applyPower h))
    | powerLoss => exact rangedResult_next (ranged_ite (ranged_unpowered h) (opened))
    | bootEnd => exact rangedResult_next (ranged_ite (ranged_startTx (ranged_endBoot opened)) (opened))
    | enterBoot =>
      exact rangedResult_next (ranged_ite (ranged_startTx (ranged_bootCheck (ranged_restarted h))) (opened))
    | identify tag => exact rangedResult_serve _ _ Owned.refl h
    | modeSet tag mode => exact rangedResult_serve _ _ (modeSetReq_owned mode) h
    | restart tag => exact rangedResult_serve _ _ restartReq_owned h
    | timeSet tag utc offset => exact rangedResult_serve _ _ (timeSetReq_owned utc offset) h
    | faultClear tag names => exact rangedResult_serve _ _ (faultClearReq_owned names) h
    | servicePut tag r => exact rangedResult_serve _ _ (servicePutReq_owned r) h
    | serviceDrop tag sel num => exact rangedResult_serve _ _ (serviceDropReq_owned sel num) h
    | tune tag slot sel num force => exact rangedResult_serve _ _ (tuneReq_owned slot sel num force) h
    | stop tag slot force => exact rangedResult_serve _ _ (stopReq_owned slot force) h
    | carrierPut tag r => exact rangedResult_serve _ _ (carrierPutReq_owned r) h
    | carrierDrop tag index => exact rangedResult_serve _ _ (carrierDropReq_owned index) h
    | qualityClassSet tag r => exact rangedResult_serve _ _ (qualityClassSetReq_owned r) h
    | laneEnable tag lane on => exact rangedResult_serve _ _ (laneEnableReq_owned lane on) h
    | buy tag profile pin slot sid eid =>
      exact rangedResult_serve _ _ (fun u => ((Runs.refl u).buyReq profile pin slot sid eid).owned) h
    | quote tag profile sid eid =>
      exact rangedResult_serve _ _ (fun u => ((Flow.refl none u).quoteReq profile sid eid).owned) h
    | guidePut tag r => exact rangedResult_serve _ _ (guidePutReq_owned r) h
    | guideDrop tag sid eid => exact rangedResult_serve _ _ (guideDropReq_owned sid eid) h
    | guideList tag sid fromTime count =>
      exact rangedResult_serve _ _ (fun u => (guideListReq_flow sid fromTime count u).owned) h
    | guideNow tag sid => exact rangedResult_serve _ _ (fun u => (guideNowReq_flow sid u).owned) h
    | sweepSet tag on mode dwell => exact rangedResult_serve _ _ (fun u => (sweepSetReq_flow on mode dwell u).owned) h
    | sweepStep tag => exact rangedResult_serve _ _ (fun u => (sweepStepReq_flow u).owned) h
    | unlock tag slot pin minutes => exact rangedResult_serve _ _ (unlockReq_owned slot pin minutes) h
    | relock tag slot => exact rangedResult_serve _ _ (relockReq_owned slot) h
    | profileSelect tag slot profile pin => exact rangedResult_serve _ _ (profileSelectReq_owned slot profile pin) h
    | profilePut tag r => exact rangedResult_serve _ _ (profilePutReq_owned r) h
    | allowanceGrant tag profile seconds pin =>
      exact rangedResult_serve _ _ (allowanceGrantReq_owned profile seconds pin) h
    | householdSet tag pin hour d0 d1 d2 => exact rangedResult_serve _ _ (householdSetReq_owned pin hour d0 d1 d2) h
    | cellPut tag r => exact rangedResult_serve _ _ (cellPutReq_owned r) h
    | cellEnable tag cell on pin => exact rangedResult_serve _ _ (cellEnableReq_owned cell on pin) h
    | schedulePut tag entry trig act => exact rangedResult_serve _ _ (schedulePutReq_owned entry trig act) h
    | scheduleDrop tag entry => exact rangedResult_serve _ _ (scheduleDropReq_owned entry) h
    | noticeMaskSet tag mask =>
      refine rangedResult_next (ranged_takeRequest _ _ (fun u hu => (settle_owned _).ranged ?_) h)
      unfold noticeMaskSetReq
      split
      exacts [hu, ranged_modLink _ hu]
    | noticeFlagsRead tag clear =>
      refine rangedResult_next (ranged_takeRequest _ _ (fun u hu => (settle_owned _).ranged ?_) h)
      unfold noticeFlagsReadReq
      split
      exacts [hu, ranged_modLink _ hu]
    | unknownKind tag kind => exact rangedResult_next (ranged_takeBad _ _ _ h)
    | linkFrame => exact rangedResult_next (ranged_linkEvent (fun _ => ranged_frameError) h)
    | interByteTimeout =>
      exact rangedResult_next (ranged_linkEvent (fun _ hu => ranged_ite hu (ranged_frameError hu)) h)
    | transmitFrameEnd =>
      exact rangedResult_next (ranged_ite (ranged_startTx (ranged_modLink _ opened)) (opened))
    | lock l order => exact rangedResult_event (Runs.lockEvent l order) h
    | laneUnlock l => exact rangedResult_event (fun u => (Runs.refl u).laneLost _ l) h
    | sample l e =>
      have cleared : (clearSilent l s).ranged := { h with }
      exact rangedResult_event (Runs.sampleEvent l e.toNat) (ranged_ite cleared h)
    | cell l bytes => exact rangedResult_event (Runs.cellEvent l bytes) h
    | seekFailed l => exact rangedResult_event (fun u => (Runs.refl u).seekTimeout l) h
    | silenceTimerExpiry l => exact rangedResult_event (fun u => (Runs.refl u).silenceTimeout l) h
    | keyTimeout k => exact rangedResult_event (fun u => .ofFlow ((Flow.refl none u).keyTimeout k)) h
    | homeRetryExpiry => exact rangedResult_event (fun u => .ofFlow ((Flow.refl none u).homeRetry (nobody u))) h
    | sweepTimerExpiry => exact rangedResult_event (fun u => .ofFlow (Flow.refl none u).sweepTimeout) h
    | scheduleRetryExpiry n => exact rangedResult_event (fun u => ((Acts.refl u).retryTimeout n).runs) h
    | patrolVisit => exact rangedResult_event (fun u => (Runs.refl u).patrol) h
    | scrubRewrite => exact rangedResult_event (fun u => (Runs.refl u).scrubTimeout) h
    | storeWriteComplete =>
      exact rangedResult_next (ranged_ite (ranged_startTx (ranged_modStore (Store.ok_writeComplete _) opened)) (opened))
    | secondBoundary =>
      exact rangedResult_next (ranged_ite (ranged_startTx ((settle_owned _).ranged ((Runs.refl _).nextSecond.ranged opened))) opened)
    | tierExpiry => exact rangedResult_event (fun u => (Runs.refl u).expireTiers) h
    | grantExpiry => exact rangedResult_event (fun u => (Runs.refl u).expireGrants) h
    | previewEnd k => exact rangedResult_event (fun u => (Runs.refl u).endPreview k) h
    | periodRollover => exact rangedResult_event (fun u => (Runs.refl u).rollover) h
    | dayStartReset => exact rangedResult_event (fun u => (Runs.refl u).compareDay) h
    | prune => exact rangedResult_event (fun u => (Runs.refl u).prune) h
    | scheduleTrigger n => exact rangedResult_event (fun u => ((Acts.refl u).evaluate n).runs) h
    | runEnd n => exact rangedResult_event (fun u => ((Acts.refl u).checkEnd n).runs) h
    | lockoutEnd p => exact rangedResult_event (fun u => (Runs.refl u).lockoutEnd p) h
    | unlockEnd v => exact rangedResult_event (fun u => (Runs.refl u).unlockEnd v) h
    | allowanceOut p => exact rangedResult_event (fun u => (Runs.refl u).allowanceOut p) h
    | profileUnitWrite => exact rangedResult_event (fun u => (Runs.refl u).writeDirtyProfiles) h
    | receivedByte b stop => exact absurd rfl (hi b stop)
    | _ => cases hr

/-- The request that a good frame spells is taken as the command of its row, and any other row is none. -/
theorem requestResult_eq (i : Instr) (s : State) : requestResult i s = exec i s ∨ requestResult i s = .next s := by
  cases i <;> first | exact .inl rfl | exact .inr rfl

theorem requestResult_ranged (i : Instr) (h : s.ranged) : ((requestResult i s).orElse s).ranged := by
  have served : RangedResult (requestResult i s) := by
    by_cases hi : ∃ b stop, i = .receivedByte b stop
    · obtain ⟨b, stop, rfl⟩ := hi
      exact rangedResult_next h
    · rcases requestResult_eq i s with e | e
      · exact e ▸ exec_ranged (fun b stop e => hi ⟨b, stop, e⟩) h
      · exact e ▸ rangedResult_next h
  cases e : requestResult i s with
  | next t => exact served t e
  | fault r => exact h
  | refused r => exact h

/-! ### Bytes of the link (R183, R184) -/

theorem ranged_takeFrame (kind tag : Byte) (b : List Byte) (h : s.ranged) : (takeFrame kind tag b s).ranged := by
  unfold takeFrame
  split
  · exact ranged_overrun h
  · split
    · exact ranged_frameError h
    · split
      · exact ranged_takeBad _ _ _ h
      · exact ranged_takeBad _ _ _ h
      · exact requestResult_ranged _ h

theorem ranged_receiver (r : Receiver) (h : s.ranged) : (s.receiver r).ranged := ranged_modLink _ h

theorem ranged_takeByte (b : Byte) (h : s.ranged) : (takeByte b s).ranged := by
  unfold takeByte
  split
  · split
    exacts [ranged_receiver _ h, h]
  · exact ranged_receiver _ h
  · split
    exacts [ranged_frameError h, ranged_receiver _ h]
  · exact ranged_receiver _ h
  · exact ranged_receiver _ h
  · split
    exacts [ranged_receiver _ h, ranged_receiver _ h]
  · exact ranged_receiver _ h
  · split
    exacts [ranged_takeFrame _ _ _ (ranged_receiver _ h), ranged_frameError h]

theorem receivedByte_ranged (b : Byte) (stop : Bool) (h : s.ranged) : RangedResult (exec (.receivedByte b stop) s) := by
  refine rangedResult_next (ranged_linkEvent (fun u hu => ?_) h)
  have noted : u.noteByte.ranged := ranged_modLink _ hu
  split
  · exact ranged_takeByte b noted
  · unfold takeBroken
    split
    exacts [noted, ranged_frameError noted]

/-! ### An idle millisecond (log 2) -/

theorem ranged_natureWork (h : s.ranged) : (natureWork s).ranged := by
  have disturbed : (disturb s).ranged := by
    unfold disturb
    split
    exacts [h, { h with }]
  have decayed : (decay (disturb s)).ranged := by
    unfold decay
    split
    · exact disturbed
    · exact ranged_modStore (Store.ok_spoil _) disturbed
  exact { decayed with }

theorem ranged_advanceMs (h : s.ranged) : (advanceMs s).ranged := by
  have advanced := (Runs.refl s).modClock (fun c => { c with uptimeMs := c.uptimeMs + 1 }) fun c => { c with }
  refine Runs.ranged ?_ h
  exact .ite advanced.secondWork advanced

theorem Runs.dueHome (now : Nat) (h : Runs s t) : Runs s (match t.arb.home with
    | .retry e => if e ≤ now then homeRetry t else t
    | _ => t) := by
  split
  · exact .ite (h.flow ((Flow.refl none t).homeRetry (nobody t))) h
  · exact h

/-- Work done where a timer has come due. -/
theorem Runs.when {f : State → State} (hf : ∀ u, Runs s u → Runs s (f u)) (c : Prop) [Decidable c] (h : Runs s t) :
    Runs s (if c then f t else t) := .ite (hf t h) h

theorem Runs.dueWork (h : Runs s t) : Runs s (dueWork t) := by
  delta Machine.dueWork
  extract_lets now scrubbed patrolled sought silenced timed homed swept
  have scrubbed' : Runs s scrubbed := h.when (fun _ => .scrubTimeout) _
  have patrolled' : Runs s patrolled := scrubbed'.when (fun _ => .patrol) _
  have sought' : Runs s sought := patrolled'.forEach fun l _ _ hu => hu.when (fun _ => .seekTimeout l) _
  have silenced' : Runs s silenced := sought'.forEach fun l _ _ hu => hu.when (fun _ => .silenceTimeout l) _
  have timed' : Runs s timed := silenced'.forEach fun k _ _ hu =>
    hu.when (fun v hv => hv.flow ((Flow.refl none v).keyTimeout k)) _
  clear_value timed
  have homed' : Runs s homed := timed'.dueHome now
  have swept' : Runs s swept := homed'.when (fun v hv => hv.flow (Flow.refl none v).sweepTimeout) _
  exact swept'.forEach fun n _ _ hu => hu.when (fun v hv => hv.acts ((Acts.refl v).retryTimeout n)) _

theorem ranged_dueBoot (h : s.ranged) : (dueBoot s).ranged :=
  ranged_ite (ranged_endBoot h) (ranged_ite (ranged_bootCheck (ranged_restarted h)) h)

theorem ranged_tick (h : s.ranged) : (tick s).ranged := by
  have opened := ranged_clearOut h
  unfold tick
  dsimp only
  split
  · have advanced := ranged_advanceMs (ranged_natureWork opened)
    have written : ∀ u : State, u.ranged → (dueWrite u).ranged := fun u hu => by
      unfold dueWrite
      split
      exacts [ranged_ite (ranged_modStore (Store.ok_writeComplete _) hu) hu, hu]
    have framed : ∀ u : State, u.ranged → (dueFrame u).ranged := fun _ hu => ranged_ite (ranged_modLink _ hu) hu
    have heard : ∀ u : State, u.ranged → (dueByte u).ranged := fun _ hu => ranged_ite (ranged_frameError hu) hu
    refine ranged_startTx (ranged_dueBoot ((settle_owned _).ranged ?_))
    have taken := heard _ (framed _ (written _ advanced))
    exact ranged_ite ((Runs.refl _).dueWork.ranged taken) taken
  · exact opened

/-- Settles O60: a command keeps the ranges by what its owner or its blocks may do, and an idle millisecond by what
each block does in it. -/
theorem stepKeepsRanges : Obligations.StepKeepsRanges := by
  intro s t h e
  unfold step at e
  split at e
  · cases e
    exact ranged_tick h
  · rename_i c rest hp
    have waiting : ({ s with pending := rest } : State).ranged := { h with }
    by_cases hc : ∃ b stop, c = .receivedByte b stop
    · obtain ⟨b, stop, rfl⟩ := hc
      exact receivedByte_ranged b stop waiting t e
    · exact exec_ranged (fun b stop e => hc ⟨b, stop, e⟩) waiting t e

end Sys2Proof.Machine
end

