-- ==== Sys2Proof/Proofs/P2.lean ====
section
/-! SUPPORT. What the records of a slot, a lane and an entry read after each update of the state, and what a notice
leaves. -/

namespace Sys2Proof.Machine

open Sys2Proof

/-! ### What `State.slot` reads after an update -/

@[simp] theorem slot_modLane (l : Fin 3) (f : Lane → Lane) (s : State) (j : Fin 5) :
    (s.modLane l f).slot j = s.slot j := rfl
@[simp] theorem slot_modEntry (n : Fin 24) (f : Entry → Entry) (s : State) (j : Fin 5) :
    (s.modEntry n f).slot j = s.slot j := rfl
@[simp] theorem slot_modLink (f : Link → Link) (s : State) (j : Fin 5) :
    (s.modLink f).slot j = s.slot j := rfl
@[simp] theorem slot_modFaults (f : Faults → Faults) (s : State) (j : Fin 5) :
    (s.modFaults f).slot j = s.slot j := rfl
@[simp] theorem slot_modArb (f : Arbiter → Arbiter) (s : State) (j : Fin 5) :
    (s.modArb f).slot j = s.slot j := rfl
@[simp] theorem slot_modSweep (f : Sweep → Sweep) (s : State) (j : Fin 5) :
    (s.modSweep f).slot j = s.slot j := rfl
@[simp] theorem slot_modRouter (f : Router → Router) (s : State) (j : Fin 5) :
    (s.modRouter f).slot j = s.slot j := rfl
@[simp] theorem slot_modAccess (f : Access → Access) (s : State) (j : Fin 5) :
    (s.modAccess f).slot j = s.slot j := rfl
@[simp] theorem slot_modGuide (f : Guide → Guide) (s : State) (j : Fin 5) :
    (s.modGuide f).slot j = s.slot j := rfl
@[simp] theorem slot_modParental (f : Parental → Parental) (s : State) (j : Fin 5) :
    (s.modParental f).slot j = s.slot j := rfl
@[simp] theorem slot_modGate (f : Gate → Gate) (s : State) (j : Fin 5) :
    (s.modGate f).slot j = s.slot j := rfl
@[simp] theorem slot_emit (o : PortOut) (s : State) (j : Fin 5) :
    (s.emit o).slot j = s.slot j := rfl
@[simp] theorem slot_setMode (m : Mode) (s : State) (j : Fin 5) :
    (s.setMode m).slot j = s.slot j := rfl

theorem slot_modSlot (k j : Fin 5) (f : Slot → Slot) (s : State) :
    (s.modSlot k f).slot j = if k = j then f (s.slot k) else s.slot j := by
  by_cases h : k = j
  · subst h; simp [State.slot, State.modSlot]
  · have : (k : Nat) ≠ j := fun e => h (Fin.ext e)
    simp [State.slot, State.modSlot, this, h]

@[simp] theorem slot_modSlot_same (k : Fin 5) (f : Slot → Slot) (s : State) :
    (s.modSlot k f).slot k = f (s.slot k) := by simp [slot_modSlot]

theorem slot_modSlot_ne {k j : Fin 5} (h : k ≠ j) (f : Slot → Slot) (s : State) :
    (s.modSlot k f).slot j = s.slot j := by simp [slot_modSlot, h]

/-! ### What `State.lane` reads after an update -/

@[simp] theorem lane_modSlot (k : Fin 5) (f : Slot → Slot) (s : State) (j : Fin 3) :
    (s.modSlot k f).lane j = s.lane j := rfl
@[simp] theorem lane_modEntry (n : Fin 24) (f : Entry → Entry) (s : State) (j : Fin 3) :
    (s.modEntry n f).lane j = s.lane j := rfl
@[simp] theorem lane_modLink (f : Link → Link) (s : State) (j : Fin 3) :
    (s.modLink f).lane j = s.lane j := rfl
@[simp] theorem lane_modFaults (f : Faults → Faults) (s : State) (j : Fin 3) :
    (s.modFaults f).lane j = s.lane j := rfl
@[simp] theorem lane_modArb (f : Arbiter → Arbiter) (s : State) (j : Fin 3) :
    (s.modArb f).lane j = s.lane j := rfl
@[simp] theorem lane_modSweep (f : Sweep → Sweep) (s : State) (j : Fin 3) :
    (s.modSweep f).lane j = s.lane j := rfl
@[simp] theorem lane_modRouter (f : Router → Router) (s : State) (j : Fin 3) :
    (s.modRouter f).lane j = s.lane j := rfl
@[simp] theorem lane_modAccess (f : Access → Access) (s : State) (j : Fin 3) :
    (s.modAccess f).lane j = s.lane j := rfl
@[simp] theorem lane_modGuide (f : Guide → Guide) (s : State) (j : Fin 3) :
    (s.modGuide f).lane j = s.lane j := rfl
@[simp] theorem lane_modParental (f : Parental → Parental) (s : State) (j : Fin 3) :
    (s.modParental f).lane j = s.lane j := rfl
@[simp] theorem lane_modGate (f : Gate → Gate) (s : State) (j : Fin 3) :
    (s.modGate f).lane j = s.lane j := rfl
@[simp] theorem lane_emit (o : PortOut) (s : State) (j : Fin 3) :
    (s.emit o).lane j = s.lane j := rfl
@[simp] theorem lane_setMode (m : Mode) (s : State) (j : Fin 3) :
    (s.setMode m).lane j = s.lane j := rfl

theorem lane_modLane (l j : Fin 3) (f : Lane → Lane) (s : State) :
    (s.modLane l f).lane j = if l = j then f (s.lane l) else s.lane j := by
  by_cases h : l = j
  · subst h; simp [State.lane, State.modLane]
  · have : (l : Nat) ≠ j := fun e => h (Fin.ext e)
    simp [State.lane, State.modLane, this, h]

theorem lane_modLane_ne {l j : Fin 3} (h : l ≠ j) (f : Lane → Lane) (s : State) :
    (s.modLane l f).lane j = s.lane j := by simp [lane_modLane, h]

/-! ### What `State.entry` reads after an update -/

@[simp] theorem entry_modSlot (k : Fin 5) (f : Slot → Slot) (s : State) (j : Fin 24) :
    (s.modSlot k f).entry j = s.entry j := rfl
@[simp] theorem entry_modLane (l : Fin 3) (f : Lane → Lane) (s : State) (j : Fin 24) :
    (s.modLane l f).entry j = s.entry j := rfl
@[simp] theorem entry_modLink (f : Link → Link) (s : State) (j : Fin 24) :
    (s.modLink f).entry j = s.entry j := rfl
@[simp] theorem entry_modFaults (f : Faults → Faults) (s : State) (j : Fin 24) :
    (s.modFaults f).entry j = s.entry j := rfl
@[simp] theorem entry_modArb (f : Arbiter → Arbiter) (s : State) (j : Fin 24) :
    (s.modArb f).entry j = s.entry j := rfl
@[simp] theorem entry_modSweep (f : Sweep → Sweep) (s : State) (j : Fin 24) :
    (s.modSweep f).entry j = s.entry j := rfl
@[simp] theorem entry_modRouter (f : Router → Router) (s : State) (j : Fin 24) :
    (s.modRouter f).entry j = s.entry j := rfl
@[simp] theorem entry_modAccess (f : Access → Access) (s : State) (j : Fin 24) :
    (s.modAccess f).entry j = s.entry j := rfl
@[simp] theorem entry_modGuide (f : Guide → Guide) (s : State) (j : Fin 24) :
    (s.modGuide f).entry j = s.entry j := rfl
@[simp] theorem entry_modParental (f : Parental → Parental) (s : State) (j : Fin 24) :
    (s.modParental f).entry j = s.entry j := rfl
@[simp] theorem entry_modGate (f : Gate → Gate) (s : State) (j : Fin 24) :
    (s.modGate f).entry j = s.entry j := rfl
@[simp] theorem entry_emit (o : PortOut) (s : State) (j : Fin 24) :
    (s.emit o).entry j = s.entry j := rfl
@[simp] theorem entry_setMode (m : Mode) (s : State) (j : Fin 24) :
    (s.setMode m).entry j = s.entry j := rfl

theorem entry_modEntry (n j : Fin 24) (f : Entry → Entry) (s : State) :
    (s.modEntry n f).entry j = if n = j then f (s.entry n) else s.entry j := by
  by_cases h : n = j
  · subst h; simp [State.entry, State.modEntry]
  · have : (n : Nat) ≠ j := fun e => h (Fin.ext e)
    simp [State.entry, State.modEntry, this, h]

@[simp] theorem entry_modEntry_same (n : Fin 24) (f : Entry → Entry) (s : State) :
    (s.modEntry n f).entry n = f (s.entry n) := by simp [entry_modEntry]

theorem entry_modEntry_ne {n j : Fin 24} (h : n ≠ j) (f : Entry → Entry) (s : State) :
    (s.modEntry n f).entry j = s.entry j := by simp [entry_modEntry, h]

/-! ### Notices (R188) -/

theorem raise_running {s : State} (h : s.restarting = false) (x : NoticeKind) (sub : Option Nat) (b : List Byte) :
    s.raise x sub b = s.modLink (Link.raise x sub b) := by simp [State.raise, h]

/-- A notice raised changes the link port alone. -/
theorem raise_frame (x : NoticeKind) (sub : Option Nat) (b : List Byte) (s : State) :
    s.raise x sub b = { s with link := (s.raise x sub b).link } := by
  unfold State.raise
  split <;> rfl

@[simp] theorem raise_pending (x : NoticeKind) (sub : Option Nat) (b : List Byte) (s : State) :
    (s.raise x sub b).pending = s.pending := by rw [raise_frame]
@[simp] theorem raise_power (x : NoticeKind) (sub : Option Nat) (b : List Byte) (s : State) :
    (s.raise x sub b).power = s.power := by rw [raise_frame]
@[simp] theorem raise_restarting (x : NoticeKind) (sub : Option Nat) (b : List Byte) (s : State) :
    (s.raise x sub b).restarting = s.restarting := by rw [raise_frame]
@[simp] theorem raise_mode (x : NoticeKind) (sub : Option Nat) (b : List Byte) (s : State) :
    (s.raise x sub b).mode = s.mode := by rw [raise_frame]
@[simp] theorem raise_clock (x : NoticeKind) (sub : Option Nat) (b : List Byte) (s : State) :
    (s.raise x sub b).clock = s.clock := by rw [raise_frame]
@[simp] theorem raise_faults (x : NoticeKind) (sub : Option Nat) (b : List Byte) (s : State) :
    (s.raise x sub b).faults = s.faults := by rw [raise_frame]
@[simp] theorem raise_store (x : NoticeKind) (sub : Option Nat) (b : List Byte) (s : State) :
    (s.raise x sub b).store = s.store := by rw [raise_frame]
@[simp] theorem raise_carriers (x : NoticeKind) (sub : Option Nat) (b : List Byte) (s : State) :
    (s.raise x sub b).carriers = s.carriers := by rw [raise_frame]
@[simp] theorem raise_classes (x : NoticeKind) (sub : Option Nat) (b : List Byte) (s : State) :
    (s.raise x sub b).classes = s.classes := by rw [raise_frame]
@[simp] theorem raise_lanes (x : NoticeKind) (sub : Option Nat) (b : List Byte) (s : State) :
    (s.raise x sub b).lanes = s.lanes := by rw [raise_frame]
@[simp] theorem raise_arb (x : NoticeKind) (sub : Option Nat) (b : List Byte) (s : State) :
    (s.raise x sub b).arb = s.arb := by rw [raise_frame]
@[simp] theorem raise_sweep (x : NoticeKind) (sub : Option Nat) (b : List Byte) (s : State) :
    (s.raise x sub b).sweep = s.sweep := by rw [raise_frame]
@[simp] theorem raise_services (x : NoticeKind) (sub : Option Nat) (b : List Byte) (s : State) :
    (s.raise x sub b).services = s.services := by rw [raise_frame]
@[simp] theorem raise_slots (x : NoticeKind) (sub : Option Nat) (b : List Byte) (s : State) :
    (s.raise x sub b).slots = s.slots := by rw [raise_frame]
@[simp] theorem raise_router (x : NoticeKind) (sub : Option Nat) (b : List Byte) (s : State) :
    (s.raise x sub b).router = s.router := by rw [raise_frame]
@[simp] theorem raise_access (x : NoticeKind) (sub : Option Nat) (b : List Byte) (s : State) :
    (s.raise x sub b).access = s.access := by rw [raise_frame]
@[simp] theorem raise_parental (x : NoticeKind) (sub : Option Nat) (b : List Byte) (s : State) :
    (s.raise x sub b).parental = s.parental := by rw [raise_frame]
@[simp] theorem raise_gate (x : NoticeKind) (sub : Option Nat) (b : List Byte) (s : State) :
    (s.raise x sub b).gate = s.gate := by rw [raise_frame]
@[simp] theorem raise_schedule (x : NoticeKind) (sub : Option Nat) (b : List Byte) (s : State) :
    (s.raise x sub b).schedule = s.schedule := by rw [raise_frame]
@[simp] theorem raise_auxRises (x : NoticeKind) (sub : Option Nat) (b : List Byte) (s : State) :
    (s.raise x sub b).auxRises = s.auxRises := by rw [raise_frame]
@[simp] theorem raise_out (x : NoticeKind) (sub : Option Nat) (b : List Byte) (s : State) :
    (s.raise x sub b).out = s.out := by rw [raise_frame]
@[simp] theorem slot_raise (x : NoticeKind) (sub : Option Nat) (b : List Byte) (s : State) (j : Fin 5) :
    (s.raise x sub b).slot j = s.slot j := by simp [State.slot]
@[simp] theorem lane_raise (x : NoticeKind) (sub : Option Nat) (b : List Byte) (s : State) (j : Fin 3) :
    (s.raise x sub b).lane j = s.lane j := by simp [State.lane]
@[simp] theorem entry_raise (x : NoticeKind) (sub : Option Nat) (b : List Byte) (s : State) (j : Fin 24) :
    (s.raise x sub b).entry j = s.entry j := by simp [State.entry]

/-- A notice raised sets its flag and leaves the others (R188). -/
theorem raise_flags {s : State} (h : s.restarting = false) (x : NoticeKind) (sub : Option Nat) (b : List Byte)
    (i : Nat) (hi : i < 10) :
    (s.raise x sub b).link.flags[i] = if x.index.val = i then true else s.link.flags[i] := by
  rw [raise_running h]
  simp only [State.modLink_link, Link.raise_flags, Vector.getElem_set]

@[simp] theorem raise_core (x : NoticeKind) (sub : Option Nat) (b : List Byte) (s : State) :
    (s.raise x sub b).link.core = s.link.core := by
  unfold State.raise
  split
  · rfl
  · exact Link.raise_core x sub b s.link

end Sys2Proof.Machine
end

