-- ==== Sys2Proof/Proofs/P2b.lean ====
section
/-! SUPPORT. What stands of a state once a request or an event is taken, apart from the link port's traffic; the
operands' checks (R184 to R188). -/

namespace Sys2Proof.Machine

open Sys2Proof

variable {s t u : State}

/-! ### Operands -/

theorem toFin?_of_eq {n b : Nat} {k : Fin n} (h : b = k.val) : toFin? n b = some k := by
  subst h
  unfold toFin?
  rw [dif_pos k.isLt]

theorem toFin?_of_le {n b : Nat} (h : n ≤ b) : toFin? n b = none := by
  unfold toFin?
  rw [dif_neg (Nat.not_lt.2 h)]

theorem pinDigitsOk_of {p : Pin} (h : p.ok) : pinDigitsOk p = true := by
  unfold pinDigitsOk
  simp [h.d0, h.d1, h.d2, h.d3]

theorem flag?_of_le {b : Byte} (h : 2 ≤ b.toNat) : flag? b = none := by
  unfold flag?
  rw [if_neg (by rintro rfl; simp at h), if_neg (by rintro rfl; simp at h)]

/-! ### What a request leaves beside its reply (R184, R187) -/

theorem startTx_flags (s : State) : s.startTx.link.flags = s.link.flags :=
  (congrArg Link.flags (startTx_link s).2.2.1 :)

/-- Everything but the link port and what leaves at the ports is as the owner and the rises left it, and so are the
flags of the notices. -/
structure Served (s t : State) : Prop where
  likewise : s.likewise t
  flags : t.link.flags = s.link.flags

theorem Served.refl (s : State) : Served s s := ⟨rfl, rfl⟩

theorem Served.trans (h : Served s t) (g : Served t u) : Served s u :=
  ⟨h.likewise.trans g.likewise, g.flags.trans h.flags⟩

theorem served_startTx (s : State) : Served s s.startTx := by
  refine ⟨?_, startTx_flags s⟩
  unfold State.likewise
  rw [startTx_rest]
  rfl

theorem served_serve (kind tag : Byte) (f : Req) (h : s.ready) :
    Served (settle (f s.opened).2) (s.serve kind tag f) := by
  obtain ⟨r, -, e⟩ := serve_ready kind tag f h
  rw [e]
  have pushed : Served (settle (f s.opened).2) ((settle (f s.opened).2).modLink (Link.pushReply r)) := ⟨rfl, rfl⟩
  exact pushed.trans (served_startTx _)

theorem served_event (f : State → State) (h : s.live) : Served (settle (f s.clearOut)) (s.event f) := by
  rw [event_live f h]
  exact served_startTx _

theorem served_opened (s : State) : Served s s.opened := ⟨rfl, rfl⟩

/-- What a request leaves where no entry awaits a rise. -/
theorem served_quiet (kind tag : Byte) (f : Req) (h : s.ready) (hf : (f s.opened).2 = u) (hn : u.noRise) :
    Served { u with auxRises := [] } (s.serve kind tag f) := by
  have := served_serve kind tag f h
  rwa [hf, settle_noRise hn] at this

/-- An owner whose work commutes with the opening of the request. -/
theorem served_opened_quiet (kind tag : Byte) (f : Req) (h : s.ready) (hf : (f s.opened).2 = u.opened)
    (hn : u.noRise) :
    ({ u with auxRises := [] }).likewise (s.serve kind tag f) ∧ (s.serve kind tag f).link.flags = u.link.flags := by
  have first : Served { u with auxRises := [] } { u.opened with auxRises := [] } := ⟨rfl, rfl⟩
  have all := first.trans (served_quiet kind tag f h hf hn)
  exact ⟨all.likewise, all.flags⟩

/-! ### Notices commute with the opening of a request (R184, R188) -/

theorem Link.raise_counted (x : NoticeKind) (sub : Option Nat) (b : List Byte) (l : Link) :
    Link.raise x sub b { l with goodFrames := l.goodFrames + 1 }
      = { Link.raise x sub b l with goodFrames := (Link.raise x sub b l).goodFrames + 1 } := by
  simp only [Link.raise]
  split
  · rfl
  · split
    · rfl
    · split <;> rfl

theorem raise_opened (x : NoticeKind) (sub : Option Nat) (b : List Byte) (s : State) :
    s.opened.raise x sub b = (s.raise x sub b).opened := by
  unfold State.raise
  have : s.opened.restarting = s.restarting := rfl
  rw [this]
  split
  · rfl
  · have e := Link.raise_counted x sub b s.link
    change ({ s with out := [], link := _ } : State) = { s with out := [], link := _ }
    exact congrArg (fun l => ({ s with out := [], link := l } : State)) e

/-! ### The notices, each as a change of the link port alone (R29, R188) -/

/-- A notice raised is a new link port, with the notice's flag set. -/
theorem exists_raise (x : NoticeKind) (sub : Option Nat) (b : List Byte) (s : State) :
    ∃ l : Link, s.raise x sub b = { s with link := l } ∧ l.core = s.link.core
      ∧ (s.restarting = false → ∀ (i : Nat) (hi : i < 10),
        l.flags[i] = if x.index.val = i then true else s.link.flags[i]) :=
  ⟨_, raise_frame x sub b s, raise_core x sub b s, fun h i hi => raise_flags h x sub b i hi⟩

/-- A slot in HELD, its notice raised, is one slot's record new and a new link port (R29). -/
theorem exists_enterHeld (r : Reason) (k : Fin 5) (s : State) :
    ∃ l : Link, enterHeld r k s = { s with
        slots := s.slots.set k { s.slot k with state := .held, reason := r }, link := l }
      ∧ l.core = s.link.core ∧ (s.restarting = false → l.flags[0] = true) := by
  obtain ⟨l, e, core, flags⟩ := exists_raise .slot (some k.val)
    (slotNoticeBytes k ((s.modSlot k fun sl => { sl with state := .held, reason := r }).slot k))
    (s.modSlot k fun sl => { sl with state := .held, reason := r })
  exact ⟨l, e, core, fun h => (flags h 0 (by decide)).trans (if_pos rfl)⟩

/-! ### What an event leaves (R184, R187) -/

theorem Served.noted (h : Served s t) : t.noted = s.noted := by
  have := congrArg (fun u : State => { u with faults := {} }) h.likewise
  exact this.symm

theorem Served.unanswered (h : s.live) {f : State → State} (hc : (settle (f s.clearOut)).link.core = s.link.core) :
    s.unanswered (s.event f) := event_unanswered f h hc

/-- An event that changes the blocks alone: it raises no notice and sends nothing out. -/
theorem event_moves (f : State → State) (h : s.live) (hf : f s.clearOut = u.clearOut) (rises : u.auxRises = [])
    (link : u.link = s.link) : s.unanswered (s.event f) ∧ u.unmoved (s.event f) := by
  have settled : settle (f s.clearOut) = u.clearOut := by rw [hf]; exact settle_none rises
  refine ⟨event_unanswered f h ?_, ?_⟩
  · rw [settled]
    exact congrArg Link.core link
  · rw [event_live f h, settled]
    exact ⟨by rw [startTx_bare]; rfl, startTx_onward u.clearOut, rfl⟩

/-- An event whose record fails a check (R61). -/
theorem event_discards (f : State → State) (h : s.live) (hf : f s.clearOut = s.clearOut.streamRecordBad) :
    s.discards (s.event f) := by
  obtain ⟨l, e, core, flags⟩ := exists_raise .fault none
    (u8 FaultName.streamRecordBad.code ++ Faults.bytes { s.faults with streamBad := bump s.faults.streamBad })
    (s.clearOut.modFaults fun f => { f with streamBad := bump f.streamBad })
  have bad : s.clearOut.streamRecordBad
      = { s with out := [], faults := { s.faults with streamBad := bump s.faults.streamBad }, link := l } := e
  have settled : settle (f s.clearOut) = s.clearOut.streamRecordBad := by
    rw [hf]
    exact settle_none (by rw [bad]; exact h.rises)
  have served := served_event f h
  rw [settled, bad] at served
  refine ⟨event_unanswered f h (by rw [settled, bad]; exact core), ?_, ?_, ?_⟩
  · rw [served.noted]
    unfold State.noted
    rw [rest_of_core core]
    rfl
  · exact (congrArg State.faults served.likewise :).symm
  · rw [served.flags]
    exact (flags h.running 9 (by decide)).trans (if_pos rfl)

end Sys2Proof.Machine
end

