-- ==== Sys2Proof/Proofs/P3.lean ====
section
/-! SUPPORT. What a pass over the gate cells changes, and what the changes handed over do (R17, R149 to R155). -/

namespace Sys2Proof.Machine

open Sys2Proof

variable {s t u : State}

/-! ### One change handed over -/

/-- A slot as a change of its permit leaves it, its service CLEAR or not, at a time (R17). -/
def Slot.permitted (clear : Bool) (now : Nat) (v : Bool) (x : Slot) : Slot :=
  if v then
    if x.state = .held ∧ x.reason = .permitOff ∧ (clear = true ∨ x.hasKey = true) then
      { x with state := .presenting, reason := .none, retune := 0, since := some now }
    else x
  else if x.state = .presenting then { x with state := .held, reason := .permitOff } else x

theorem permitChange_eq (k : Fin 5) (v : Bool) (s : State) :
    permitChange k v s = if (s.slot k).permitted (s.isClear k) s.clock.uptimeMs v = s.slot k then s
      else (s.modSlot k (Slot.permitted (s.isClear k) s.clock.uptimeMs v)).slotNotice k := by
  cases v with
  | false =>
    by_cases hp : (s.slot k).state = .presenting
    · have hne : (s.slot k).permitted (s.isClear k) s.clock.uptimeMs false ≠ s.slot k := fun e => by
        have := congrArg Slot.state e
        simp [Slot.permitted, hp] at this
      rw [if_neg hne]
      have : s.modSlot k (fun sl => { sl with state := .held, reason := .permitOff })
          = s.modSlot k (Slot.permitted (s.isClear k) s.clock.uptimeMs false) := by
        have hp' : s.slots[k].state = .presenting := hp
        simp only [State.modSlot, Slot.permitted, hp', if_true, Bool.false_eq_true, if_false]
      simp only [permitChange, hp, enterHeld, this, Bool.not_false, and_self, if_true]
    · rw [if_pos (by simp [Slot.permitted, hp])]
      simp [permitChange, hp]
  | true =>
    by_cases hh : (s.slot k).state = .held ∧ (s.slot k).reason = .permitOff
        ∧ (s.isClear k = true ∨ (s.slot k).hasKey = true)
    · have hne : (s.slot k).permitted (s.isClear k) s.clock.uptimeMs true ≠ s.slot k := fun e => by
        have := congrArg Slot.state e
        simp [Slot.permitted, hh] at this
      rw [if_neg hne]
      have : s.modSlot k (fun sl => { sl with
            state := .presenting, reason := .none, retune := 0, since := some s.clock.uptimeMs })
          = s.modSlot k (Slot.permitted (s.isClear k) s.clock.uptimeMs true) := by
        have hh' : s.slots[k].state = .held ∧ s.slots[k].reason = .permitOff
          ∧ (s.isClear k = true ∨ s.slots[k].hasKey = true) := hh
        simp only [State.modSlot, Slot.permitted, hh', if_true, and_self]
      simp only [permitChange, hh, enterPresenting, this, and_self, if_true, Bool.not_true, Bool.false_eq_true,
        and_false, if_false]
    · rw [if_pos (by simp only [Slot.permitted, if_true]; rw [if_neg hh])]
      unfold permitChange
      simp only [Bool.not_true, Bool.false_eq_true, and_false, if_false, true_and, hh]

/-- What some changes of the cells' outputs do when they are handed over, the gate array holding the new outputs already
(R152 to R154). -/
structure Handed (chs : List (Fin 8 × Bool)) (s t : State) : Prop where
  moved : ∀ k : Fin 5, ∀ c ∈ chs, c.1.val = k.val →
    t.slot k = (s.slot k).permitted (s.isClear k) s.clock.uptimeMs c.2
  still : ∀ k : Fin 5, (∀ c ∈ chs, c.1.val ≠ k.val) → t.slot k = s.slot k
  counted : ∀ c ∈ chs, 5 ≤ c.1.val → t.gate.cells[c.1] = (s.gate.cells[c.1]).count c.2
  kept : ∀ n : Fin 8, (∀ c ∈ chs, 5 ≤ c.1.val → c.1 ≠ n) → t.gate.cells[n] = s.gate.cells[n]
  gate : t.gate = { s.gate with cells := t.gate.cells }
  told : t.auxRises = s.auxRises ++ (chs.filter fun c => decide (5 ≤ c.1.val) && c.2).map (·.1)
  slotFlag : t.link.flags[0] = true ↔ s.link.flags[0] = true ∨ t.slots ≠ s.slots
  auxFlag : t.link.flags[6] = true ↔ s.link.flags[6] = true
    ∨ ∃ c ∈ chs, 5 ≤ c.1.val ∧ (s.gate.cells[c.1]).edge.reports c.2 = true
  flags : ∀ i : Fin 10, i ≠ 0 → i ≠ 6 → t.link.flags[i] = s.link.flags[i]
  rest : { t with gate := s.gate, slots := s.slots, auxRises := s.auxRises, link := t.link.core }
    = { s with link := s.link.core }

theorem Handed.nil (s : State) : Handed [] s s :=
  ⟨by simp, fun _ _ => rfl, by simp, fun _ _ => rfl, rfl, by simp, by simp, by simp, fun _ _ _ => rfl, rfl⟩

theorem slots_ext (h : ∀ k, t.slot k = s.slot k) : t.slots = s.slots := by
  ext1 i hi
  exact h ⟨i, hi⟩

/-- A permit cell's change handed over (R17, R152). -/
theorem handed_permit {n : Fin 8} (k : Fin 5) (hk : n.val = k.val) (v : Bool) (h : s.restarting = false) :
    Handed [(n, v)] s (permitChange k v s) := by
  have hn : ∀ j : Fin 5, n.val = j.val ↔ k = j := fun j => by rw [hk, Fin.ext_iff]
  have h5 : ¬ 5 ≤ n.val := by omega
  rw [permitChange_eq]
  split
  · rename_i same
    refine ⟨?_, fun _ _ => rfl, by simp [h5], fun _ _ => rfl, rfl, by simp [h5], by simp, by simp [h5],
      fun _ _ _ => rfl, rfl⟩
    intro j
    simp only [List.mem_singleton, forall_eq, hn]
    rintro rfl
    exact same.symm
  · rename_i differs
    refine ⟨?_, ?_, by simp [h5], fun _ _ => by simp [State.slotNotice], by simp [State.slotNotice],
      by simp [h5, State.slotNotice], ?_, ?_, ?_, ?_⟩
    · intro j
      simp only [List.mem_singleton, forall_eq, hn]
      rintro rfl
      simp [State.slotNotice]
    · intro j
      simp only [List.mem_singleton, forall_eq, hn, ne_eq]
      intro hj
      simp [State.slotNotice, slot_modSlot_ne hj]
    · refine iff_of_true (by simp [State.slotNotice, raise_flags, h, NoticeKind.index]) (.inr fun e => differs ?_)
      have := congrArg (fun v : Vector Slot 5 => v[k]) e
      simpa [State.slotNotice, State.slot] using this
    · simp [h5, State.slotNotice, raise_flags, h, NoticeKind.index]
    · intro i h0 h6
      have : (0 : Nat) ≠ i := fun e => h0 (Fin.ext e.symm)
      simp [State.slotNotice, raise_flags, h, NoticeKind.index, this]
    · have := raise_frame .slot (some k.val)
        (slotNoticeBytes k ((s.modSlot k (Slot.permitted (s.isClear k) s.clock.uptimeMs v)).slot k))
        (s.modSlot k (Slot.permitted (s.isClear k) s.clock.uptimeMs v))
      unfold State.slotNotice
      rw [this]
      simp

theorem count_edge (v : Bool) (c : GateCell) : (c.count v).edge = c.edge := by unfold GateCell.count; split <;> rfl

theorem count_output (v : Bool) (c : GateCell) : (c.count v).output = c.output := by
  unfold GateCell.count; split <;> rfl

theorem Gate.modCell_cells (g : Gate) (n m : Fin 8) (f : GateCell → GateCell) :
    (g.modCell n f).cells[m] = if n = m then f g.cells[n] else g.cells[m] := by
  by_cases h : n = m
  · subst h; simp [Gate.modCell]
  · have : (n : Nat) ≠ m := fun e => h (Fin.ext e)
    simp [Gate.modCell, this, h]

theorem tellRise_eq (n : Fin 8) (v : Bool) (s : State) :
    tellRise n v s = { s with auxRises := s.auxRises ++ if v then [n] else [] } := by
  unfold tellRise
  cases v <;> simp

/-- A notice that a test asks for changes the link port alone, and of its flags its own (R188). -/
theorem raise_if (h : s.restarting = false) (b : Bool) (x : NoticeKind) (sub : Option Nat) (c : List Byte) :
    ∃ l : Link, (if b then s.raise x sub c else s) = { s with link := l } ∧ l.core = s.link.core
      ∧ ∀ (i : Nat) (hi : i < 10), l.flags[i] = if b = true ∧ x.index.val = i then true else s.link.flags[i] := by
  cases b with
  | false => exact ⟨s.link, rfl, rfl, by simp⟩
  | true => exact ⟨_, raise_frame x sub c s, raise_core x sub c s, fun i hi => by simp [raise_flags h]⟩

/-- An auxiliary cell's change handed over (R152, R154). -/
theorem handed_aux {n : Fin 8} (h5 : 5 ≤ n.val) (v : Bool) (h : s.restarting = false) :
    Handed [(n, v)] s (auxChange n v s) := by
  have hk : ∀ k : Fin 5, n.val ≠ k.val := fun k => by omega
  have cells : ∀ m : Fin 8, (tellRise n v (s.modGate (Gate.modCell n (GateCell.count v)))).gate.cells[m]
      = if n = m then (s.gate.cells[n]).count v else s.gate.cells[m] := fun m => by
    rw [tellRise_eq]; exact Gate.modCell_cells ..
  unfold auxChange
  dsimp only
  rw [cells n, if_pos rfl, count_edge]
  obtain ⟨l, e, core, flags⟩ := raise_if (s := tellRise n v (s.modGate (Gate.modCell n (GateCell.count v))))
    (by rw [tellRise_eq]; exact h) ((s.gate.cells[n]).edge.reports v) .aux (some n.val)
    (auxNoticeBytes n v ((s.gate.cells[n]).count v))
  rw [e]
  refine ⟨by simp [hk], fun _ _ => by rw [tellRise_eq]; rfl, ?_, ?_, ?_, ?_, ?_, ?_, ?_, ?_⟩
  · simp only [List.mem_singleton, forall_eq]
    exact fun _ => (cells n).trans (if_pos rfl)
  · intro m hm
    exact (cells m).trans (if_neg (hm _ (List.mem_singleton_self _) h5))
  · rw [tellRise_eq]; rfl
  · rw [tellRise_eq]
    cases v <;> simp [h5]
  · rw [tellRise_eq] at flags ⊢
    simp [flags 0, NoticeKind.index]
  · rw [tellRise_eq] at flags ⊢
    simp [flags 6, NoticeKind.index, h5, or_comm]
  · intro i _ h6
    have : (6 : Nat) ≠ i := fun e => h6 (Fin.ext e.symm)
    rw [tellRise_eq] at flags ⊢
    simp [flags i, NoticeKind.index, this]
  · rw [tellRise_eq] at core ⊢
    simp [core]

theorem isClear_congr {k : Fin 5} (hs : (t.slot k).service = (s.slot k).service) (hv : t.services = s.services) :
    t.isClear k = s.isClear k := by
  unfold State.isClear State.serviceOf
  rw [hs, hv]

/-- Changes of different cells handed over one after another. -/
theorem Handed.cons {c : Fin 8 × Bool} {chs : List (Fin 8 × Bool)} (hc : ∀ d ∈ chs, d.1 ≠ c.1)
    (h : Handed [c] s t) (g : Handed chs t u) : Handed (c :: chs) s u := by
  have clock : t.clock = s.clock := (congrArg State.clock h.rest :)
  have services : t.services = s.services := (congrArg State.services h.rest :)
  have same : ∀ k : Fin 5, c.1.val ≠ k.val → t.slot k = s.slot k := fun k hk =>
    h.still k fun d hd => List.mem_singleton.1 hd ▸ hk
  refine ⟨fun k d hd hk => ?_, fun k hk => ?_, fun d hd h5 => ?_, fun n hn => ?_, ?_, ?_, ?_, ?_, fun i h0 h6 => ?_, ?_⟩
  · rcases List.mem_cons.1 hd with rfl | hd
    · rw [g.still k fun e he he' => hc e he (Fin.ext (he'.trans hk.symm))]
      exact h.moved k d List.mem_cons_self hk
    · have := same k fun e => hc d hd (Fin.ext (hk.trans e.symm))
      rw [g.moved k d hd hk, this, clock, isClear_congr (by rw [this]) services]
  · rw [g.still k fun d hd => hk d (List.mem_cons_of_mem _ hd), same k (hk c List.mem_cons_self)]
  · rcases List.mem_cons.1 hd with rfl | hd
    · rw [g.kept _ fun e he _ => hc e he]
      exact h.counted d List.mem_cons_self h5
    · rw [g.counted d hd h5, h.kept _ fun e he _ => ?_]
      rw [List.mem_singleton.1 he]
      exact (hc d hd).symm
  · rw [g.kept n fun d hd => hn d (List.mem_cons_of_mem _ hd), h.kept n fun d hd => ?_]
    rw [List.mem_singleton.1 hd]
    exact hn c List.mem_cons_self
  · rw [g.gate, h.gate]
  · rw [g.told, h.told, List.filter_cons, List.filter_cons]
    split <;> simp
  · have back : u.slots = s.slots → t.slots = s.slots := fun e => slots_ext fun k => by
      have hu : u.slot k = s.slot k := congrArg (fun v : Vector Slot 5 => v[k]) e
      by_cases hk : c.1.val = k.val
      · rw [← hu, g.still k fun d hd he => hc d hd (Fin.ext (he.trans hk.symm))]
      · exact same k hk
    rw [g.slotFlag, h.slotFlag]
    by_cases ht : t.slots = s.slots
    · simp [ht]
    · simp [ht, mt back ht]
  · have edge : ∀ d ∈ chs, (t.gate.cells[d.1]).edge = (s.gate.cells[d.1]).edge := fun d hd => by
      rw [h.kept d.1 fun e he _ => by rw [List.mem_singleton.1 he]; exact (hc d hd).symm]
    rw [g.auxFlag, h.auxFlag, or_assoc]
    refine or_congr_right ?_
    simp only [List.mem_cons, exists_eq_or_imp, List.not_mem_nil, or_false, exists_eq_left]
    refine or_congr_right (exists_congr fun d => and_congr_right fun hd => ?_)
    rw [edge d hd]
  · rw [g.flags i h0 h6, h.flags i h0 h6]
  · have e : ∀ x : State, ({ x with gate := s.gate, slots := s.slots, auxRises := s.auxRises, link := x.link.core } : State)
        = { ({ x with gate := t.gate, slots := t.slots, auxRises := t.auxRises, link := x.link.core } : State) with
            gate := s.gate, slots := s.slots, auxRises := s.auxRises } := fun _ => rfl
    rw [e, g.rest]
    exact h.rest

theorem Handed.restarting {chs : List (Fin 8 × Bool)} (h : Handed chs s t) : t.restarting = s.restarting :=
  (congrArg State.restarting h.rest :)

theorem handed_change (c : Fin 8 × Bool) (h : s.restarting = false) : Handed [c] s (handOverChange c s) := by
  unfold handOverChange toFin?
  by_cases hc : c.1.val < 5
  · rw [dif_pos hc]
    exact handed_permit ⟨c.1.val, hc⟩ rfl c.2 h
  · rw [dif_neg hc]
    exact handed_aux (by omega) c.2 h

/-- Changes of different cells are handed over in their order (R152). -/
theorem handed_all {chs : List (Fin 8 × Bool)} (hn : (chs.map (·.1)).Nodup) (h : s.restarting = false) :
    Handed chs s (forEach chs handOverChange s) := by
  induction chs generalizing s with
  | nil => exact Handed.nil s
  | cons c chs ih =>
    rw [List.map_cons, List.nodup_cons] at hn
    have first := handed_change c h
    exact first.cons (fun d hd e => hn.1 (e ▸ List.mem_map_of_mem hd)) (ih hn.2 (first.restarting.trans h))

/-! ### What a pass over the cells changes (R151) -/

/-- The output of a cell. -/
def Gate.out (g : Gate) (n : Fin 8) : Bool := (g.cells[n]).output

/-- One gate array is another with some of its outputs new. -/
structure Gate.Redriven (g h : Gate) : Prop where
  cells : ∀ n : Fin 8, h.cells[n] = { g.cells[n] with output := h.out n }
  rest : h = { g with cells := h.cells }

theorem Gate.Redriven.refl (g : Gate) : g.Redriven g := ⟨fun _ => rfl, rfl⟩

theorem Gate.Redriven.trans {g h i : Gate} (a : g.Redriven h) (b : h.Redriven i) : g.Redriven i :=
  ⟨fun n => by rw [b.cells n, a.cells n], by rw [b.rest, a.rest]⟩

/-- The changes that take some cells from their outputs in one gate array to those in another. -/
def Gate.changes (g h : Gate) (ns : List (Fin 8)) : List (Fin 8 × Bool) :=
  (ns.filter fun n => h.out n != g.out n).map fun n => (n, h.out n)

theorem Gate.out_setOutput (g : Gate) (n m : Fin 8) (v : Bool) :
    (g.modCell n fun c => { c with output := v }).out m = if n = m then v else g.out m := by
  unfold Gate.out
  rw [Gate.modCell_cells]
  split <;> rfl

theorem Gate.redriven_setOutput (g : Gate) (n : Fin 8) (v : Bool) :
    g.Redriven (g.modCell n fun c => { c with output := v }) := by
  refine ⟨fun m => ?_, rfl⟩
  rw [Gate.out_setOutput, Gate.modCell_cells]
  split
  · rename_i e; subst e; rfl
  · rfl

/-- What a cell of a pass does: its output alone can change, and the change is noted. -/
theorem passCell_does (p : Pass) (n : Fin 8) :
    p.gate.Redriven (passCell p n).gate ∧ (∀ m, m ≠ n → (passCell p n).gate.out m = p.gate.out m)
      ∧ (passCell p n).changes = p.changes ++ p.gate.changes (passCell p n).gate [n] := by
  unfold passCell
  dsimp only
  split
  · split
    · exact ⟨.refl _, fun _ _ => rfl, by simp [Gate.changes]⟩
    · rename_i differs
      refine ⟨Gate.redriven_setOutput .., fun m hm => ?_, ?_⟩
      · rw [Gate.out_setOutput, if_neg fun e => hm e.symm]
      · have new := Gate.out_setOutput p.gate n n (p.gate.eval p.gate.cells[n])
        rw [if_pos rfl] at new
        have : (p.gate.eval p.gate.cells[n] != p.gate.out n) = true := bne_iff_ne.2 differs
        simp only [Gate.changes, List.filter_cons, List.filter_nil, new, this, if_true, List.map_cons, List.map_nil]
  · exact ⟨.refl _, fun _ _ => rfl, by simp [Gate.changes]⟩

/-- What some cells of a pass do, one after another. -/
theorem passCells_do {ns : List (Fin 8)} (hn : ns.Nodup) (p : Pass) :
    p.gate.Redriven (ns.foldl passCell p).gate
      ∧ (∀ m, m ∉ ns → (ns.foldl passCell p).gate.out m = p.gate.out m)
      ∧ (ns.foldl passCell p).changes = p.changes ++ p.gate.changes (ns.foldl passCell p).gate ns := by
  induction ns generalizing p with
  | nil => exact ⟨.refl _, fun _ _ => rfl, by simp [Gate.changes]⟩
  | cons n ns ih =>
    obtain ⟨hnn, hn⟩ := List.nodup_cons.1 hn
    obtain ⟨drives, others, notes⟩ := passCell_does p n
    obtain ⟨drives', others', notes'⟩ := ih hn (passCell p n)
    rw [List.foldl_cons]
    refine ⟨drives.trans drives', fun m hm => ?_, ?_⟩
    · rw [others' m fun h => hm (List.mem_cons_of_mem _ h), others m fun h => hm (h ▸ List.mem_cons_self)]
    · rw [notes', notes, List.append_assoc]
      congr 1
      have same : ∀ m ∈ ns, (passCell p n).gate.out m = p.gate.out m := fun m hm =>
        others m fun e => hnn (e ▸ hm)
      simp only [Gate.changes, List.filter_cons, List.filter_nil, ← others' n hnn]
      rw [List.filter_congr (q := fun m => (ns.foldl passCell (passCell p n)).gate.out m != p.gate.out m)
        fun m hm => by rw [same m hm]]
      split
      · rw [List.map_cons, List.map_cons, others' n hnn]; rfl
      · rfl

theorem mem_cellsDown (n : Fin 8) : n ∈ cellsDown := by decide +revert

/-- What a pass does (R151). -/
theorem Gate.pass_does (g : Gate) (marks : List (Fin 8)) :
    g.Redriven (g.pass marks).gate ∧ (g.pass marks).changes = g.changes (g.pass marks).gate cellsDown := by
  obtain ⟨drives, -, notes⟩ := passCells_do (ns := cellsDown) (by decide) { gate := g, marks := marks }
  exact ⟨drives, notes.trans (List.nil_append _)⟩

/-! ### What the changes handed over come to (R152 to R154) -/

theorem Gate.changes_cells (g h : Gate) (ns : List (Fin 8)) :
    (g.changes h ns).map (·.1) = ns.filter fun n => h.out n != g.out n := by
  simp [Gate.changes, Function.comp_def]

theorem Gate.mem_changes {g h : Gate} {c : Fin 8 × Bool} :
    c ∈ g.changes h cellsDown ↔ h.out c.1 = c.2 ∧ g.out c.1 ≠ c.2 := by
  obtain ⟨n, v⟩ := c
  simp only [Gate.changes, List.mem_map, List.mem_filter, mem_cellsDown, true_and, bne_iff_ne, Prod.mk.injEq]
  constructor
  · rintro ⟨m, hm, rfl, rfl⟩
    exact ⟨rfl, hm.symm⟩
  · rintro ⟨rfl, hn⟩
    exact ⟨n, hn.symm, rfl, rfl⟩

theorem Gate.changes_rises (g h : Gate) :
    ((g.changes h cellsDown).filter fun c => decide (5 ≤ c.1.val) && c.2).map (·.1)
      = ([7, 6, 5] : List (Fin 8)).filter fun n => !g.out n && h.out n := by
  have low : ∀ p : Fin 8 → Bool, ([4, 3, 2, 1, 0] : List (Fin 8)).filter (fun n => decide (5 ≤ n.val) && p n) = [] :=
    fun p => List.filter_eq_nil_iff.2 fun n hn => by
      have : n.val < 5 := by revert n; decide
      simp [this]
  have aux : ∀ n ∈ ([7, 6, 5] : List (Fin 8)), 5 ≤ n.val := by decide
  have split : cellsDown = [7, 6, 5] ++ [4, 3, 2, 1, 0] := rfl
  simp only [Gate.changes, List.filter_map, List.map_map, Function.comp_def, List.map_id', List.filter_filter,
    Bool.and_assoc]
  rw [split, List.filter_append, low, List.append_nil]
  refine List.filter_congr fun n hn => ?_
  rw [decide_eq_true (aux n hn)]
  cases g.out n <;> cases h.out n <;> rfl

theorem rises_of_change (p : Prop) [Decidable p] (a b : Bool) (c : GateCell) :
    (if p ∧ a ≠ b then c.count b else c).rises = c.rises + if p ∧ a = false ∧ b = true then 1 else 0 := by
  by_cases hp : p <;> cases a <;> cases b <;> simp [hp, GateCell.count]

theorem falls_of_change (p : Prop) [Decidable p] (a b : Bool) (c : GateCell) :
    (if p ∧ a ≠ b then c.count b else c).falls = c.falls + if p ∧ a = true ∧ b = false then 1 else 0 := by
  by_cases hp : p <;> cases a <;> cases b <;> simp [hp, GateCell.count]

/-- An edge that a cell's mode asks to have noticed (R154). -/
theorem reports_iff (a b : Bool) (e : Edge) :
    (a ≠ b ∧ e.reports b = true) ↔ (a = false ∧ b = true ∧ e ∈ [Edge.rise, .both])
      ∨ (a = true ∧ b = false ∧ e ∈ [Edge.fall, .both]) := by
  cases a <;> cases b <;> cases e <;> decide

/-- The counts of a gate array's cells are those of another's. -/
def Gate.SameCounts (g h : Gate) : Prop :=
  ∀ n : Fin 8, (h.cells[n]).rises = (g.cells[n]).rises ∧ (h.cells[n]).falls = (g.cells[n]).falls

/-- The changes from one state of the outputs to another handed over. -/
theorem gateActs_of_handed {h : Gate} {chs : List (Fin 8 × Bool)} (counts : s.gate.SameCounts h)
    (mem : ∀ c, c ∈ chs ↔ h.out c.1 = c.2 ∧ s.gate.out c.1 ≠ c.2)
    (rises : (chs.filter fun c => decide (5 ≤ c.1.val) && c.2).map (·.1)
      = ([7, 6, 5] : List (Fin 8)).filter fun n => !s.gate.out n && h.out n)
    (H : Handed chs { s with gate := h } t) : s.gateActs t := by
  have cell : ∀ n : Fin 8, t.gate.cells[n] = if 5 ≤ n.val ∧ s.gate.out n ≠ h.out n then
      (h.cells[n]).count (h.out n) else h.cells[n] := fun n => by
    split
    · rename_i hn
      exact H.counted (n, h.out n) ((mem _).2 ⟨rfl, hn.2⟩) hn.1
    · rename_i hn
      refine H.kept n fun c hc h5 e => hn ⟨e ▸ h5, ?_⟩
      obtain ⟨new, old⟩ := (mem c).1 hc
      rw [← e, new]
      exact old
  have output : ∀ n : Fin 8, (t.gate.cells[n]).output = h.out n := fun n => by
    rw [cell n]
    split
    · exact count_output ..
    · rfl
  have edge : ∀ n : Fin 8, (t.gate.cells[n]).edge = (h.cells[n]).edge := fun n => by
    rw [cell n]
    split
    · exact count_edge ..
    · rfl
  have permit : ∀ k : Fin 5, t.permit k = h.out ⟨k.val, by omega⟩ := fun k => output ⟨k.val, by omega⟩
  have change : ∀ n, s.gate.out n ≠ h.out n → (n, h.out n) ∈ chs := fun n hn => (mem _).2 ⟨rfl, hn⟩
  refine ⟨fun k same => ?_, fun k was now => ?_, fun k was now => ?_, fun n => ?_, fun n => ?_, ?_, ?_, ?_, ?_, ?_⟩
  · refine H.still k fun c hc e => ?_
    obtain ⟨new, old⟩ := (mem c).1 hc
    have hk : c.1 = ⟨k.val, by omega⟩ := Fin.ext e
    rw [permit, ← hk, new] at same
    exact old (hk ▸ same.symm)
  · rw [permit] at now
    have := H.moved k _ (change ⟨k.val, by omega⟩ (by rw [now]; exact ne_of_eq_of_ne was (by decide))) rfl
    rw [this, now]
    rfl
  · rw [permit] at now
    have := H.moved k _ (change ⟨k.val, by omega⟩ (by rw [now]; exact ne_of_eq_of_ne was (by decide))) rfl
    rw [this, now]
    simp only [Slot.permitted, Slot.hasKey, if_true, Bool.or_eq_true]
    rfl
  · rw [output, cell, ← (counts n).1]
    exact rises_of_change ..
  · rw [output, cell, ← (counts n).2]
    exact falls_of_change ..
  · rw [H.told, rises]
    simp only [output]
    rfl
  · exact H.slotFlag
  · refine H.auxFlag.trans (or_congr_right ⟨?_, ?_⟩)
    · rintro ⟨⟨n, v⟩, hc, h5, hr⟩
      obtain ⟨new, old⟩ := (mem _).1 hc
      refine ⟨n, h5, (reports_iff ..).1 ?_⟩
      rw [output, edge]
      exact ⟨fun e => old (e.trans new), new ▸ hr⟩
    · rintro ⟨n, h5, hr⟩
      rw [output, edge] at hr
      obtain ⟨hn, hr⟩ := (reports_iff ..).2 hr
      exact ⟨_, change n hn, h5, hr⟩
  · exact fun i h0 h6 => H.flags i h0 h6
  · have := congrArg (fun u : State => { u with gate := s.gate }) H.rest
    exact this

end Sys2Proof.Machine
end

