-- ==== Sys2Proof/Proofs/P4.lean ====
section
/-! What a report to the gate array does: the sources, the programming, the settled cells, and what its changes of the
outputs come to (R149 to R158). -/

namespace Sys2Proof.Machine

open Sys2Proof

variable {s t u : State}

/-! ### What the changes of a pass do (R152 to R154) -/

/-- Of two gate arrays, the outputs, counts and edges agree. -/
structure Gate.SameCells (g h : Gate) : Prop where
  out : ∀ n, h.out n = g.out n
  counts : g.SameCounts h

theorem Gate.Redriven.counts {g h : Gate} (r : g.Redriven h) : g.SameCounts h := fun n => by
  rw [r.cells n]; exact ⟨rfl, rfl⟩

/-- A pass whose gate array differs from the state's in its sources or a cell's programming alone. -/
theorem gateActs_pass {g : Gate} (same : s.gate.SameCells g) (marks : List (Fin 8)) (h : s.restarting = false) :
    s.gateActs (gatePass marks { s with gate := g }) := by
  obtain ⟨drives, notes⟩ := g.pass_does marks
  have changes : g.changes (g.pass marks).gate cellsDown = s.gate.changes (g.pass marks).gate cellsDown := by
    unfold Gate.changes
    simp only [same.out]
  rw [changes] at notes
  refine gateActs_of_handed (chs := (g.pass marks).changes) (h := (g.pass marks).gate) (fun n => ?_)
    (fun c => notes ▸ Gate.mem_changes) (notes ▸ Gate.changes_rises ..) (handed_all ?_ h)
  · obtain ⟨r, f⟩ := drives.counts n
    obtain ⟨r', f'⟩ := same.counts n
    exact ⟨r.trans r', f.trans f'⟩
  · rw [notes, Gate.changes_cells]
    exact (by decide : cellsDown.Nodup).filter _

theorem gateActs_refl (s : State) : s.gateActs s := by
  refine ⟨fun _ _ => rfl, fun k a b => ?_, fun k a b => ?_, fun n => ?_, fun n => ?_, ?_, ?_, ?_, fun _ _ _ => rfl, rfl⟩
  · exact absurd (a.symm.trans b) (by decide)
  · exact absurd (a.symm.trans b) (by decide)
  · cases (s.gate.cells[n]).output <;> simp
  · cases (s.gate.cells[n]).output <;> simp
  · simp
  · simp
  · refine (or_iff_left ?_).symm
    rintro ⟨n, -, ⟨a, b, -⟩ | ⟨a, b, -⟩⟩ <;> exact absurd (a.symm.trans b) (by decide)

/-- A report's sources are new, and its cells are as they were. -/
theorem takeChanges_cells (chs : List Change) (g : Gate) : (chs.foldl Gate.takeChange g).cells = g.cells :=
  Gate.foldl_takeChange_cells chs g

theorem gateActs_report (chs : List Change) (h : s.restarting = false) : s.gateActs (gateReport chs s) := by
  unfold gateReport
  dsimp only
  split
  · exact gateActs_refl s
  · refine gateActs_pass ⟨fun n => ?_, fun n => ?_⟩ _ h <;> simp [Gate.out, takeChanges_cells]

theorem enabled_sameCells (g : Gate) (n : Fin 8) :
    g.SameCells (g.modCell n fun c => { c with enabled := true }) := by
  refine ⟨fun m => ?_, fun m => ?_⟩
  · unfold Gate.out
    rw [Gate.modCell_cells]
    split
    · rename_i e; subst e; rfl
    · rfl
  · rw [Gate.modCell_cells]
    split
    · rename_i e; subst e; exact ⟨rfl, rfl⟩
    · exact ⟨rfl, rfl⟩

theorem gateActs_enable (n : Fin 8) (h : s.restarting = false) : s.gateActs (enableCell n s) :=
  gateActs_pass (enabled_sameCells s.gate n) [n] h

/-! ### A cell switched off (R157) -/

theorem passCell_disabled {n : Fin 8} (p : Pass) (m : Fin 8) (h : (p.gate.cells[n]).enabled = false) :
    (passCell p m).gate.out n = p.gate.out n := by
  by_cases e : n = m
  · subst e
    unfold passCell
    rw [if_neg fun marked => absurd (h.symm.trans marked.2) (by decide)]
  · exact (passCell_does p m).2.1 n e

/-- A pass leaves the output of a disabled cell (R151). -/
theorem passCells_disabled {n : Fin 8} (ns : List (Fin 8)) (p : Pass) (h : (p.gate.cells[n]).enabled = false) :
    (ns.foldl passCell p).gate.out n = p.gate.out n := by
  induction ns generalizing p with
  | nil => rfl
  | cons m ns ih =>
    rw [List.foldl_cons, ih _ (by rw [(passCell_does p m).1.cells n]; exact h), passCell_disabled p m h]

/-- A cell's output and its enabling taken away. -/
def GateCell.off (c : GateCell) : GateCell := { c with enabled := false, output := false }

theorem out_off (g : Gate) (n m : Fin 8) : (g.modCell n .off).out m = if n = m then false else g.out m := by
  unfold Gate.out
  rw [Gate.modCell_cells]
  split <;> rfl

theorem counts_off (g : Gate) (n : Fin 8) : g.SameCounts (g.modCell n .off) := fun m => by
  rw [Gate.modCell_cells]
  split
  · rename_i e; subst e; exact ⟨rfl, rfl⟩
  · exact ⟨rfl, rfl⟩

theorem gateActs_disable (n : Fin 8) (h : s.restarting = false) : s.gateActs (disableCell n s) := by
  unfold disableCell
  dsimp only
  change s.gateActs (if (s.gate.cells[n]).output = true then
    forEach ((n, false) :: ((s.gate.modCell n .off).pass ((s.gate.modCell n .off).linkers n)).changes) handOverChange
      { s with gate := ((s.gate.modCell n .off).pass ((s.gate.modCell n .off).linkers n)).gate }
    else { s with gate := s.gate.modCell n .off })
  by_cases was : (s.gate.cells[n]).output = true
  · rw [if_pos was]
    have offed : ((s.gate.modCell n .off).cells[n]).enabled = false := by rw [Gate.modCell_cells, if_pos rfl]; rfl
    obtain ⟨drives, notes⟩ := (s.gate.modCell n .off).pass_does ((s.gate.modCell n .off).linkers n)
    have stays : ((s.gate.modCell n .off).pass ((s.gate.modCell n .off).linkers n)).gate.out n = false :=
      (passCells_disabled cellsDown _ offed).trans ((out_off s.gate n n).trans (if_pos rfl))
    generalize (s.gate.modCell n .off).pass ((s.gate.modCell n .off).linkers n) = p at *
    have was : s.gate.out n = true := was
    refine gateActs_of_handed (h := p.gate) (fun m => ?_) (fun c => ?_) ?_ (handed_all ?_ h)
    · obtain ⟨r, f⟩ := drives.counts m
      obtain ⟨r', f'⟩ := counts_off s.gate n m
      exact ⟨r.trans r', f.trans f'⟩
    · obtain ⟨m, v⟩ := c
      rw [List.mem_cons, notes, Gate.mem_changes, out_off]
      by_cases e : n = m
      · subst e
        cases v <;> simp [stays, was]
      · simp [e, Ne.symm e]
    · rw [List.filter_cons_of_neg (by simp), notes, Gate.changes_rises]
      refine List.filter_congr fun m _ => ?_
      rw [out_off]
      split
      · rename_i e; subst e; simp [stays]
      · rfl
    · rw [List.map_cons, notes, Gate.changes_cells]
      refine List.nodup_cons.2 ⟨fun hm => ?_, (by decide : cellsDown.Nodup).filter _⟩
      have := (List.mem_filter.1 hm).2
      rw [stays, out_off, if_pos rfl] at this
      exact absurd this (by decide)
  · rw [if_neg was]
    have was : s.gate.out n = false := Bool.eq_false_iff.2 was
    exact gateActs_of_handed (chs := []) (counts_off s.gate n)
      (fun c => by
        rw [out_off]
        split
        · rename_i e; subst e; simp [was]
        · simp)
      (by
        rw [eq_comm, List.filter_nil, List.map_nil, List.filter_eq_nil_iff]
        intro m _
        rw [out_off]
        split <;> simp)
      (Handed.nil _)

/-! ### The sources and the programming (R149, R158) -/

/-- What handing changes over leaves of the gate array: all but the cells' counts (R152). -/
structure Gate.Recounted (g h : Gate) : Prop where
  cells : ∀ n : Fin 8, ∃ r f, h.cells[n] = { g.cells[n] with rises := r, falls := f }
  rest : h = { g with cells := h.cells }

theorem Gate.Recounted.refl (g : Gate) : g.Recounted g := ⟨fun _ => ⟨_, _, rfl⟩, rfl⟩

theorem Gate.Recounted.trans {g h i : Gate} (a : g.Recounted h) (b : h.Recounted i) : g.Recounted i := by
  refine ⟨fun n => ?_, by rw [b.rest, a.rest]⟩
  obtain ⟨r, f, e⟩ := b.cells n
  obtain ⟨r', f', e'⟩ := a.cells n
  exact ⟨r, f, by rw [e, e']⟩

theorem recounted_count (g : Gate) (n : Fin 8) (v : Bool) : g.Recounted (g.modCell n (GateCell.count v)) := by
  refine ⟨fun m => ?_, rfl⟩
  rw [Gate.modCell_cells]
  split
  · rename_i e
    subst e
    unfold GateCell.count
    split
    · exact ⟨_, _, rfl⟩
    · exact ⟨_, _, rfl⟩
  · exact ⟨_, _, rfl⟩

theorem permitChange_gate (k : Fin 5) (v : Bool) (s : State) : (permitChange k v s).gate = s.gate := by
  rw [permitChange_eq]
  split
  · rfl
  · simp [State.slotNotice]

theorem auxChange_gate (n : Fin 8) (v : Bool) (s : State) :
    (auxChange n v s).gate = s.gate.modCell n (GateCell.count v) := by
  unfold auxChange
  rw [tellRise_eq]
  dsimp only
  split
  · exact raise_gate ..
  · rfl

theorem handOverChange_recounts (c : Fin 8 × Bool) (s : State) : s.gate.Recounted (handOverChange c s).gate := by
  unfold handOverChange
  split
  · rw [permitChange_gate]; exact .refl _
  · rw [auxChange_gate]; exact recounted_count ..

theorem handOver_recounts (chs : List (Fin 8 × Bool)) (s : State) :
    s.gate.Recounted (forEach chs handOverChange s).gate := by
  induction chs generalizing s with
  | nil => exact .refl _
  | cons c chs ih => exact (handOverChange_recounts c s).trans (ih _)

theorem Gate.Recounted.program {g h : Gate} (r : g.Recounted h) (n : Fin 8) :
    (h.cells[n]).program = (g.cells[n]).program := by
  obtain ⟨a, b, e⟩ := r.cells n
  rw [e]; rfl

theorem Gate.Redriven.program {g h : Gate} (r : g.Redriven h) (n : Fin 8) :
    (h.cells[n]).program = (g.cells[n]).program := by
  rw [r.cells n]; rfl

/-- What a pass and the hand-over of its changes leave of the gate array (R151, R152). -/
theorem gatePass_recounts (marks : List (Fin 8)) (s : State) :
    (s.gate.pass marks).gate.Recounted (gatePass marks s).gate :=
  handOver_recounts _ { s with gate := (s.gate.pass marks).gate }

/-- A pass leaves the programming and the sources (R151). -/
theorem gatePass_keeps (marks : List (Fin 8)) (s : State) :
    (∀ n : Fin 8, ((gatePass marks s).gate.cells[n]).program = (s.gate.cells[n]).program)
      ∧ (gatePass marks s).gate.src = s.gate.src ∧ (gatePass marks s).gate.standby = s.gate.standby := by
  have r := gatePass_recounts marks s
  obtain ⟨d, -⟩ := s.gate.pass_does marks
  exact ⟨fun n => (r.program n).trans (d.program n), by rw [r.rest, d.rest], by rw [r.rest, d.rest]⟩

/-- The sources that a report gives new values. -/
def State.reported (chs : List Change) (s : State) : Gate :=
  (chs.filter fun c => !s.gate.already c).foldl Gate.takeChange s.gate

/-- A report leaves the programming, and the sources are those reported (R149, R151). -/
theorem gateReport_keeps (chs : List Change) (s : State) :
    (∀ n : Fin 8, ((gateReport chs s).gate.cells[n]).program = (s.gate.cells[n]).program)
      ∧ (gateReport chs s).gate.src = (s.reported chs).src
      ∧ (gateReport chs s).gate.standby = (s.reported chs).standby := by
  unfold gateReport State.reported
  dsimp only
  split
  · rename_i none
    refine ⟨fun _ => rfl, ?_, ?_⟩ <;> rw [List.isEmpty_iff.1 none] <;> rfl
  · obtain ⟨cells, src, standby⟩ := gatePass_keeps
      (((chs.filter fun c => !s.gate.already c).foldl Gate.takeChange s.gate).marked
        (chs.filter fun c => !s.gate.already c))
      { s with gate := (chs.filter fun c => !s.gate.already c).foldl Gate.takeChange s.gate }
    exact ⟨fun n => (cells n).trans (by rw [takeChanges_cells]), src, standby⟩

/-- A report leaves the programming (R158). -/
theorem gateReport_program (chs : List Change) (s : State) :
    (gateReport chs s).gate.cells.map GateCell.program = s.gate.cells.map GateCell.program := by
  ext1 n hn
  simpa using (gateReport_keeps chs s).1 ⟨n, hn⟩

/-- A source put at the value it holds changes nothing. -/
theorem SlotSources.put_same {x : SlotSources} {src : Source} {v : Bool} (h : x.get src = v) : x.put src v = x := by
  subst h
  cases src <;> rfl

/-- One source reported (R149). -/
theorem gateReport_one (k : Fin 5) (src : Source) (v : Bool) (s : State) :
    (gateReport [.slot k src v] s).gate.src = s.gate.src.set k ((s.gate.src[k]).put src v)
      ∧ (gateReport [.slot k src v] s).gate.standby = s.gate.standby := by
  obtain ⟨-, sources, standby⟩ := gateReport_keeps [.slot k src v] s
  rw [sources, standby]
  unfold State.reported
  by_cases h : (s.gate.src[k]).get src = v
  · have : s.gate.already (.slot k src v) = true := beq_iff_eq.2 h
    rw [List.filter_cons_of_neg (by simp [this]), List.filter_nil, SlotSources.put_same h]
    exact ⟨by simp, rfl⟩
  · have : s.gate.already (.slot k src v) = false := beq_eq_false_iff_ne.2 h
    rw [List.filter_cons_of_pos (by simp [this]), List.filter_nil]
    exact ⟨rfl, rfl⟩

/-! ### The settled cells (R150, R151, R158) -/

/-- A cell's evaluation is by its inputs. -/
theorem Gate.eval_congr {g h : Gate} {c d : GateCell} (ins : d.in0 = c.in0 ∧ d.in1 = c.in1 ∧ d.in2 = c.in2)
    (truth : d.truth = c.truth) (inputs : ∀ src, c.selects src = true → h.input d src = g.input c src) :
    h.eval d = g.eval c := by
  obtain ⟨e0, e1, e2⟩ := ins
  have index : h.index d = g.index c := by
    unfold Gate.index
    rw [e0, e1, e2, inputs c.in0 (by simp [GateCell.selects]), inputs c.in1 (by simp [GateCell.selects]),
      inputs c.in2 (by simp [GateCell.selects])]
  unfold Gate.eval
  simp only [truth, index]

/-- A new output of a cell reaches the cells that link to it alone (R151). -/
theorem Gate.eval_setOutput {g : Gate} {n m : Fin 8} {v : Bool} (own : (g.cells[m]).selects .feedback = false)
    (apart : (g.cells[m]).link ≠ some n) :
    (g.modCell n fun c => { c with output := v }).eval (g.modCell n fun c => { c with output := v }).cells[m]
      = g.eval g.cells[m] := by
  have r := Gate.redriven_setOutput g n v
  refine Gate.eval_congr (by rw [r.cells m]; exact ⟨rfl, rfl, rfl⟩) (by rw [r.cells m]) fun src hs => ?_
  rw [r.cells m]
  cases src with
  | feedback => rw [own] at hs; exact absurd hs (by decide)
  | link =>
    simp only [Gate.input]
    cases hl : (g.cells[m]).link with
    | none => rfl
    | some l =>
      have : n ≠ l := fun e => apart (e ▸ hl)
      simp only [Gate.modCell_cells, if_neg this]
  | _ => rfl

/-- In a pass, each enabled cell that reads no FEEDBACK is marked and still to come, or is settled. -/
def Pass.settling (todo : List (Fin 8)) (p : Pass) : Prop :=
  ∀ n : Fin 8, (p.gate.cells[n]).enabled = true → (p.gate.cells[n]).selects .feedback = false →
    (n ∈ todo ∧ n ∈ p.marks) ∨ p.gate.out n = p.gate.eval p.gate.cells[n]

theorem Gate.mem_linkers {g : Gate} {n m : Fin 8} (on : (g.cells[m]).enabled = true)
    (link : (g.cells[m]).link = some n) : m ∈ g.linkers n :=
  List.mem_filter.2 ⟨mem_cellsDown m, by rw [on, link]; simp⟩

/-- One cell of a pass settles it, and marks what it unsettles: cells of lower number, still to come (R146, R151). -/
theorem passCell_settling {p : Pass} {n : Fin 8} {todo : List (Fin 8)} (ok : p.gate.ok)
    (low : ∀ m, m < n → m ∈ todo) (h : p.settling (n :: todo)) : (passCell p n).settling todo := by
  have drop : (p.gate.cells[n]).enabled = false ∨ n ∉ p.marks ∨ p.gate.out n = p.gate.eval p.gate.cells[n] →
      p.settling todo := fun hn m on own => by
    rcases h m on own with ⟨hm, marked⟩ | settled
    · rcases List.mem_cons.1 hm with rfl | hm
      · rcases hn with off | unmarked | settled
        · exact absurd (on.symm.trans off) (by decide)
        · exact absurd marked unmarked
        · exact .inr settled
      · exact .inl ⟨hm, marked⟩
    · exact .inr settled
  unfold passCell
  dsimp only
  split
  · rename_i marked
    split
    · rename_i same
      exact drop (.inr (.inr same.symm))
    · intro m on own
      rw [(Gate.redriven_setOutput ..).cells m] at on own
      dsimp only at on own ⊢
      by_cases link : (p.gate.cells[m]).link = some n
      · exact .inl ⟨low m ((ok m).2.1 n link), List.mem_append_right _ (Gate.mem_linkers on link)⟩
      · rw [Gate.eval_setOutput own link, Gate.out_setOutput]
        split
        · rename_i e
          subst e
          exact .inr rfl
        · rename_i e
          rcases h m on own with ⟨hm, marks⟩ | settled
          · exact .inl ⟨(List.mem_cons.1 hm).resolve_left fun x => e x.symm, List.mem_append_left _ marks⟩
          · exact .inr settled
  · rename_i off
    refine drop ?_
    by_cases marked : n ∈ p.marks
    · exact .inl (Bool.eq_false_iff.2 fun on => off ⟨by simpa using marked, on⟩)
    · exact .inr (.inl marked)

theorem passCells_settling {todo : List (Fin 8)} {p : Pass} (ok : p.gate.ok)
    (down : ∀ m n, m < n → n ∈ todo → m ∈ todo) (sorted : todo.Pairwise (· > ·)) (h : p.settling todo) :
    (todo.foldl passCell p).settling [] := by
  induction todo generalizing p with
  | nil => exact h
  | cons n todo ih =>
    obtain ⟨above, sorted⟩ := List.pairwise_cons.1 sorted
    have low : ∀ m, m < n → m ∈ todo := fun m hm =>
      (List.mem_cons.1 (down m n hm List.mem_cons_self)).resolve_left (ne_of_lt hm)
    exact ih (passCell_ok ok) (fun m i hm hi => low m (hm.trans (above i hi))) sorted (passCell_settling ok low h)

/-- A pass in which every unsettled cell is marked settles all (R151). -/
theorem Gate.pass_settles {g : Gate} {marks : List (Fin 8)} (ok : g.ok)
    (h : Pass.settling cellsDown { gate := g, marks := marks }) : (g.pass marks).gate.settled := by
  have all : (g.pass marks).settling [] :=
    passCells_settling (todo := cellsDown) ok (fun m _ _ _ => mem_cellsDown m) (by decide) h
  generalize g.pass marks = p at all
  exact fun n on own => (all n on own).resolve_left fun e => absurd e.1 List.not_mem_nil

theorem Gate.Recounted.settled {g h : Gate} (r : g.Recounted h) (settled : g.settled) : h.settled := by
  intro n on own
  obtain ⟨a, b, e⟩ := r.cells n
  rw [e] at on own ⊢
  refine (settled n on own).trans (Gate.eval_congr ⟨rfl, rfl, rfl⟩ rfl fun src _ => ?_).symm
  rw [r.rest]
  cases src with
  | link =>
    simp only [Gate.input]
    cases (g.cells[n]).link with
    | none => rfl
    | some l =>
      obtain ⟨a, b, e⟩ := r.cells l
      simp only [e]
  | _ => rfl

/-- Setting one source of a slot leaves the others. -/
theorem SlotSources.get_put_ne {src of : Source} (h : src ≠ of) (x : SlotSources) (v : Bool) :
    (x.put of v).get src = x.get src := by
  cases of <;> cases src <;> first | rfl | exact absurd rfl h

/-- What a report of a source does to a cell that does not read it (R151). -/
theorem Gate.input_takeChange {g : Gate} {c : GateCell} {x : Change} {src : Source} (reads : c.selects src = true)
    (apart : c.readsChange x = false) : (g.takeChange x).input c src = g.input c src := by
  cases x with
  | standby v =>
    cases src with
    | standby => exact absurd (reads.symm.trans apart) (by decide)
    | _ => rfl
  | slot k of v =>
    have other : c.bound = k → src ≠ of := fun e e' => by
      subst e e'
      simp [GateCell.readsChange, reads] at apart
    have got : ((g.takeChange (.slot k of v)).src[c.bound]).get src = (g.src[c.bound]).get src := by
      by_cases e : c.bound = k
      · subst e
        simp [Gate.takeChange, SlotSources.get_put_ne (other rfl)]
      · have : (k : Nat) ≠ c.bound := fun h => e (Fin.ext h.symm)
        simp [Gate.takeChange, this]
    cases src with
    | zero | one | feedback | link | standby => rfl
    | _ => exact got

/-- A report's new sources mark every cell that they unsettle (R151). -/
theorem Gate.input_takeChanges {c : GateCell} {src : Source} (reads : c.selects src = true) {chs : List Change}
    (apart : chs.any c.readsChange = false) (g : Gate) : (chs.foldl Gate.takeChange g).input c src = g.input c src := by
  induction chs generalizing g with
  | nil => rfl
  | cons x chs ih =>
    rw [List.any_cons, Bool.or_eq_false_iff] at apart
    rw [List.foldl_cons, ih apart.2, Gate.input_takeChange reads apart.1]

/-- A report leaves the cells settled (R149 to R151, R158). -/
theorem gateReport_settles {chs : List Change} (ok : s.gate.ok) (settled : s.gate.settled) :
    (gateReport chs s).gate.settled := by
  unfold gateReport
  dsimp only
  split
  · exact settled
  · generalize chs.filter (fun c => !s.gate.already c) = real
    refine (gatePass_recounts _ _).settled (Gate.pass_settles (Gate.ok_congr (takeChanges_cells real s.gate) ok) ?_)
    intro n on own
    dsimp only at on own ⊢
    simp only [Gate.out, Gate.marked, takeChanges_cells] at on own ⊢
    cases marked : real.any (s.gate.cells[n]).readsChange with
    | true => exact .inl ⟨mem_cellsDown n, List.mem_filter.2 ⟨mem_cellsDown n, by rw [on, marked]; rfl⟩⟩
    | false =>
      exact .inr ((settled n on own).trans (Gate.eval_congr ⟨rfl, rfl, rfl⟩ rfl fun src reads =>
        Gate.input_takeChanges reads marked s.gate).symm)

/-! ### CELL_ENABLE (R129, R157) -/

theorem permitChange_opened (k : Fin 5) (v : Bool) (s : State) :
    permitChange k v s.opened = (permitChange k v s).opened := by
  rw [permitChange_eq, permitChange_eq]
  change (if (s.slot k).permitted (s.isClear k) s.clock.uptimeMs v = s.slot k then s.opened else _) = _
  split
  · rfl
  · exact raise_opened .slot (some k.val) (slotNoticeBytes k _)
      (s.modSlot k (Slot.permitted (s.isClear k) s.clock.uptimeMs v))

theorem auxChange_opened (n : Fin 8) (v : Bool) (s : State) : auxChange n v s.opened = (auxChange n v s).opened := by
  have counted : tellRise n v (s.opened.modGate (Gate.modCell n (GateCell.count v)))
      = (tellRise n v (s.modGate (Gate.modCell n (GateCell.count v)))).opened := by cases v <;> rfl
  unfold auxChange
  dsimp only
  rw [counted]
  generalize tellRise n v (s.modGate (Gate.modCell n (GateCell.count v))) = x
  change (if (x.gate.cells[n]).edge.reports v = true then
    x.opened.raise .aux (some n.val) (auxNoticeBytes n v x.gate.cells[n]) else x.opened) = _
  split
  · exact raise_opened ..
  · rfl

theorem handOver_opened (chs : List (Fin 8 × Bool)) (s : State) :
    forEach chs handOverChange s.opened = (forEach chs handOverChange s).opened := by
  induction chs generalizing s with
  | nil => rfl
  | cons c chs ih =>
    have first : handOverChange c s.opened = (handOverChange c s).opened := by
      unfold handOverChange
      split
      · exact permitChange_opened ..
      · exact auxChange_opened ..
    change forEach chs handOverChange (handOverChange c s.opened) = _
    rw [first, ih]
    rfl

theorem opened_gate (s : State) : s.opened.gate = s.gate := rfl

theorem gatePass_opened (marks : List (Fin 8)) (s : State) : gatePass marks s.opened = (gatePass marks s).opened := by
  unfold gatePass
  rw [opened_gate]
  generalize s.gate.pass marks = p
  exact handOver_opened p.changes { s with gate := p.gate }

theorem modGate_opened (f : Gate → Gate) (s : State) : s.opened.modGate f = (s.modGate f).opened := rfl

theorem enableCell_opened (n : Fin 8) (s : State) : enableCell n s.opened = (enableCell n s).opened := by
  unfold enableCell
  rw [modGate_opened, gatePass_opened]

theorem disableCell_opened (n : Fin 8) (s : State) : disableCell n s.opened = (disableCell n s).opened := by
  unfold disableCell
  dsimp only
  rw [modGate_opened, opened_gate, opened_gate]
  split
  · generalize Gate.pass _ _ = p
    exact handOver_opened ((n, false) :: p.changes)
      { s.modGate (Gate.modCell n fun c => { c with enabled := false, output := false }) with gate := p.gate }
  · rfl

theorem checked_opened (asked : Bool) {pin : Pin} (m : s.master pin) :
    s.opened.checked asked 0 pin = (s.checked asked 0 pin).opened := by
  cases asked with
  | false => rfl
  | true =>
    rw [checked_asked, checked_asked, pinCheck_passes m.free m.right,
      pinCheck_passes (s := s.opened) m.free m.right]
    change (if 0 < (s.profile 0).failures then _ else _) = State.opened (if _ then _ else _)
    split <;> rfl

theorem cellEnableReq_eq {cell on : Byte} {pin : Pin} {n : Fin 8} {o : Bool} (hn : cell.toNat = n.val)
    (hf : flag? on = some o) (hp : pin.ok) : cellEnableReq cell on pin = cellEnableChecked n o pin := by
  unfold cellEnableReq
  rw [toFin?_of_eq hn, hf, pinDigitsOk_of hp]

/-- A cell that is off switched on, by its owner (R157). -/
theorem switchesOn {n : Fin 8} (pin : Pin) (off : (s.gate.cells[n]).enabled = false) :
    (cellEnableChecked n true pin s).2 = enableCell n s := by
  unfold cellEnableChecked
  rw [if_neg (by rw [off]; decide), if_neg (by simp)]
  rfl

/-- A cell that is on switched off, by its owner: a permit cell outside CONFIG once the master PIN is right (R157). -/
theorem switchesOff {n : Fin 8} {pin : Pin} (on : (s.gate.cells[n]).enabled = true)
    (may : 5 ≤ n.val ∨ s.mode = .config ∨ s.master pin) :
    (cellEnableChecked n false pin s).2 = disableCell n (s.checked (n.val ≤ 4 && s.mode != .config) 0 pin) := by
  unfold cellEnableChecked
  rw [if_neg (by rw [on]; decide)]
  by_cases asked : n.val ≤ 4 ∧ s.mode ≠ .config
  · have m : s.master pin := (may.resolve_left (by omega)).resolve_left asked.2
    rw [if_pos ⟨rfl, by simpa [isPermit] using Nat.lt_succ_of_le asked.1, asked.2⟩]
    have : (decide (n.val ≤ 4) && s.mode != .config) = true := by simpa using asked
    unfold withMaster
    rw [this, checked_asked, pinCheck_passes m.free m.right]
    rfl
  · have : (decide (n.val ≤ 4) && s.mode != .config) = false := by
      rw [Bool.eq_false_iff]; simpa using asked
    rw [this, checked_unasked, if_neg fun h => asked ⟨by have := h.2.1; simp [isPermit] at this; omega, h.2.2⟩]
    rfl

theorem noRise_of_gateActs (g : s.gateActs t) (h : s.noRise) : t.noRise := by
  have : t.schedule = s.schedule := (congrArg State.schedule g.rest :)
  intro n c
  unfold State.entry
  rw [this]
  exact h n c

/-- CELL_ENABLE of a cell that is off, as its owner takes it (R157). -/
theorem cellEnable_switchesOn {cell : Byte} {pin : Pin} {n : Fin 8} (hn : cell.toNat = n.val) (hp : pin.ok)
    (off : (s.gate.cells[n]).enabled = false) : (cellEnableReq cell 1 pin s.opened).2 = (enableCell n s).opened := by
  have taken := cellEnableReq_eq (o := true) hn (by decide : flag? 1 = some true) hp
  have off : (s.opened.gate.cells[n]).enabled = false := off
  rw [taken, switchesOn pin off, enableCell_opened]

/-- The PIN check of a permit cell's switching off leaves the state but the profiles and the store (R129, R157). -/
theorem checked_of_may {pin : Pin} {n : Fin 8} (may : 5 ≤ n.val ∨ s.mode = .config ∨ s.master pin) :
    (s.checked (n.val ≤ 4 && s.mode != .config) 0 pin) = { s with
        parental := (s.checked (n.val ≤ 4 && s.mode != .config) 0 pin).parental
        store := (s.checked (n.val ≤ 4 && s.mode != .config) 0 pin).store }
      ∧ s.opened.checked (n.val ≤ 4 && s.mode != .config) 0 pin
        = (s.checked (n.val ≤ 4 && s.mode != .config) 0 pin).opened := by
  cases asked : decide (n.val ≤ 4) && s.mode != .config with
  | false => exact ⟨rfl, rfl⟩
  | true =>
    have asked : n.val ≤ 4 ∧ s.mode ≠ .config := by simpa using asked
    have m := (may.resolve_left (by omega)).resolve_left asked.2
    exact ⟨checked_eq true m.free m.right, checked_opened true m⟩

/-- CELL_ENABLE of a cell that is on, as its owner takes it (R157). -/
theorem cellEnable_switchesOff {cell : Byte} {pin : Pin} {n : Fin 8} (hn : cell.toNat = n.val) (hp : pin.ok)
    (on : (s.gate.cells[n]).enabled = true) (may : 5 ≤ n.val ∨ s.mode = .config ∨ s.master pin) :
    (cellEnableReq cell 0 pin s.opened).2
      = (disableCell n (s.checked (n.val ≤ 4 && s.mode != .config) 0 pin)).opened := by
  have taken := cellEnableReq_eq (o := false) hn (by decide : flag? 0 = some false) hp
  have on : (s.opened.gate.cells[n]).enabled = true := on
  have may' : 5 ≤ n.val ∨ s.opened.mode = .config ∨ s.opened.master pin :=
    may.imp_right (Or.imp_right fun m => ⟨m.digits, m.free, m.right⟩)
  rw [taken, switchesOff on may', ← disableCell_opened]
  exact congrArg (disableCell n) (checked_of_may may).2

/-- Settles O54: a pass settles what it marks, and each change of an output is handed over once. -/
theorem gateFollowsReports : Obligations.GateFollowsReports := by
  refine ⟨fun chs s => gateReport_settles, gateReport_program, gateReport_one, fun chs n s h =>
    ⟨gateActs_report chs h, gateActs_enable n h, gateActs_disable n h⟩, fun tag cell pin n s h quiet hn hp => ?_⟩
  refine ⟨fun off => ?_, fun on may => ?_⟩
  · have served := served_opened_quiet 0x35 tag _ h (cellEnable_switchesOn hn hp off)
      (noRise_of_gateActs (t := enableCell n s) (gateActs_enable n h.running) quiet)
    exact ⟨_, rfl, served⟩
  · have keeps := (checked_of_may may).1
    have running := (congrArg State.restarting keeps :).trans h.running
    have still : (s.checked (n.val ≤ 4 && s.mode != .config) 0 pin).noRise := by
      rw [keeps]; exact quiet
    have served := served_opened_quiet 0x35 tag _ h (cellEnable_switchesOff hn hp on may)
      (noRise_of_gateActs (t := disableCell n (s.checked (n.val ≤ 4 && s.mode != .config) 0 pin))
        (gateActs_disable n running) still)
    exact ⟨_, rfl, served⟩

end Sys2Proof.Machine
end

