-- ==== Sys2Proof/Proofs/P5.lean ====
section
/-! What a component cell does to the slots of its entry, one after another (R19, R59, R70, R71). -/

namespace Sys2Proof.Machine

open Sys2Proof

variable {s t u : State} {l : Fin 3} {c : CellView} {k : Fin 5} {ks : List (Fin 5)}

/-- Whether a slot discards a component cell for its phase: a scrambled cell on a CLEAR service (R70). -/
def State.misphased (s : State) (c : CellView) (k : Fin 5) : Bool := c.phase != .clear && s.isClear k

/-- What the descramblers of some slots do with a component cell, its gaps counted (R70, R71). -/
structure Descrambled (l : Fin 3) (c : CellView) (ks : List (Fin 5)) (s t : State) : Prop where
  slots : ∀ k, t.slot k = if k ∈ ks then s.slotAfter k c false else s.slot k
  out : t.out = s.out ++ ks.flatMap fun k => s.cellOutOf k c
  router : t.router = { s.router with cells := s.router.cells.set l { s.router.cells[l] with
    phaseDiscard := (s.router.cells[l]).phaseDiscard + BitVec.ofNat 32 (ks.filter (s.misphased c)).length } }
  core : t.link.core = s.link.core
  flag : s.link.flags[0] = true ∨ (∃ k ∈ ks, s.starves k c = true) → t.link.flags[0] = true
  quiet : (∀ k ∈ ks, s.starves k c = false) → t.link = s.link
  rest : t = { s with slots := t.slots, router := t.router, out := t.out, link := t.link }

theorem router_uncounted (r : Router) (l : Fin 3) :
    r = { r with cells := r.cells.set l { r.cells[l] with
      phaseDiscard := (r.cells[l]).phaseDiscard + BitVec.ofNat 32 0 } } := by
  rw [BitVec.add_zero]
  exact congrArg (fun v => ({ r with cells := v } : Router)) (Vector.set_getElem_self l.isLt).symm

theorem Descrambled.nil (l : Fin 3) (c : CellView) (s : State) : Descrambled l c [] s s :=
  ⟨by simp, by simp, router_uncounted s.router l, rfl, by simp, fun _ => rfl, rfl⟩

theorem passes_congr (hs : t.slot k = s.slot k) (hv : t.services = s.services) (c : CellView) :
    t.passes k c = s.passes k c := by
  unfold State.passes
  rw [isClear_congr (congrArg Slot.service hs) hv, hs]

theorem starves_congr (hs : t.slot k = s.slot k) (hv : t.services = s.services) (hc : t.clock = s.clock)
    (c : CellView) : t.starves k c = s.starves k c := by
  unfold State.starves State.unkeyed
  rw [passes_congr hs hv, isClear_congr (congrArg Slot.service hs) hv, hs, hc]

theorem slotAfter_congr (hs : t.slot k = s.slot k) (hv : t.services = s.services) (hc : t.clock = s.clock)
    (c : CellView) (gap : Bool) : t.slotAfter k c gap = s.slotAfter k c gap := by
  unfold State.slotAfter State.unkeyed
  rw [starves_congr hs hv hc, passes_congr hs hv, isClear_congr (congrArg Slot.service hs) hv, hs, hc]

theorem cellOutOf_congr (hs : t.slot k = s.slot k) (hv : t.services = s.services) (c : CellView) :
    t.cellOutOf k c = s.cellOutOf k c := by
  unfold State.cellOutOf
  rw [passes_congr hs hv, hs]

theorem Descrambled.cons (hk : k ∉ ks) (h : Descrambled l c [k] s t) (g : Descrambled l c ks t u) :
    Descrambled l c (k :: ks) s u := by
  have clock : t.clock = s.clock := (congrArg State.clock h.rest :)
  have services : t.services = s.services := (congrArg State.services h.rest :)
  have same : ∀ j ∈ ks, t.slot j = s.slot j := fun j hj =>
    (h.slots j).trans (if_neg fun e => by rw [List.mem_singleton.1 e] at hj; exact hk hj)
  have starve : ∀ j ∈ ks, t.starves j c = s.starves j c := fun j hj => starves_congr (same j hj) services clock c
  refine ⟨fun j => ?_, ?_, ?_, g.core.trans h.core, fun hf => g.flag ?_, fun hq => ?_, ?_⟩
  · rw [g.slots j]
    by_cases hj : j ∈ ks
    · rw [if_pos hj, if_pos (List.mem_cons_of_mem _ hj), slotAfter_congr (same j hj) services clock]
    · rw [if_neg hj, h.slots j]
      simp [hj]
  · rw [g.out, h.out, List.append_assoc]
    congr 1
    rw [List.flatMap_cons, List.flatMap_cons, List.flatMap_nil, List.append_nil]
    congr 1
    exact List.flatMap_congr fun j hj => cellOutOf_congr (same j hj) services c
  · rw [g.router, h.router]
    have count : ks.filter (t.misphased c) = ks.filter (s.misphased c) := List.filter_congr fun j hj => by
      unfold State.misphased
      rw [isClear_congr (congrArg Slot.service (same j hj)) services]
    rw [count]
    simp only [Fin.getElem_fin, Vector.getElem_set_self, Vector.set_set, BitVec.add_assoc, ← BitVec.ofNat_add,
      List.filter_cons, List.filter_nil]
    split
    · simp [Nat.add_comm]
    · simp
  · rcases hf with hf | ⟨j, hj, hf⟩
    · exact .inl (h.flag (.inl hf))
    · rcases List.mem_cons.1 hj with rfl | hj
      · exact .inl (h.flag (.inr ⟨j, List.mem_singleton_self j, hf⟩))
      · exact .inr ⟨j, hj, (starve j hj).trans hf⟩
  · rw [g.quiet fun j hj => (starve j hj).trans (hq j (List.mem_cons_of_mem _ hj)),
      h.quiet fun j hj => List.mem_singleton.1 hj ▸ hq k List.mem_cons_self]
  · rw [g.rest, h.rest]

/-- One slot's record new, and with it what its cell sends out, counts and notices. -/
theorem Descrambled.single (slots : t.slots = s.slots.set k (s.slotAfter k c false))
    (out : t.out = s.out ++ s.cellOutOf k c)
    (router : t.router = if s.misphased c k = true then s.router.countPhase l else s.router)
    (core : t.link.core = s.link.core)
    (flag : s.link.flags[0] = true ∨ s.starves k c = true → t.link.flags[0] = true)
    (quiet : s.starves k c = false → t.link = s.link)
    (rest : t = { s with slots := t.slots, router := t.router, out := t.out, link := t.link }) :
    Descrambled l c [k] s t := by
  refine ⟨fun j => ?_, by simpa using out, ?_, core, by simpa using flag, by simpa using quiet, rest⟩
  · unfold State.slot
    rw [slots]
    simp only [List.mem_singleton]
    by_cases e : j = k
    · subst e; simp
    · have : (k : Nat) ≠ j := fun h => e (Fin.ext h.symm)
      simp [e, this]
  · rw [router, List.filter_cons, List.filter_nil]
    split
    · rfl
    · exact router_uncounted s.router l

theorem slots_set_self (s : State) (k : Fin 5) : s.slots.set k (s.slot k) = s.slots :=
  Vector.set_getElem_self k.isLt

/-- A cell that the descrambler passes on leaves the part for a slot PRESENTING (R71). -/
theorem outputCell_eq (k : Fin 5) (tag : Nat) (seq : BitVec 6) (payload : List Byte) (s : State) :
    outputCell k tag seq payload s = { s with
      slots := s.slots.set k { s.slot k with
        cellsOut := if (s.slot k).state = .presenting then (s.slot k).cellsOut + 1 else (s.slot k).cellsOut }
      out := s.out ++ if (s.slot k).state = .presenting then [.cellOut k (outCellBytes tag seq payload)] else [] } := by
  unfold outputCell
  by_cases h : (s.slot k).state = .presenting
  · simp only [if_pos h]
    rfl
  · simp only [if_neg h, List.append_nil]
    rw [slots_set_self]

theorem starved_eq (now : Nat) (x : Slot) : x.starved now = (x.state == .presenting
    && x.desc.lastDecoded.getD 0 + 2000 ≤ now && x.since.getD 0 + 2000 ≤ now) := by
  unfold Slot.starved
  cases x.state == .presenting
  · rfl
  · simp only [Bool.true_and, ← Bool.decide_and]
    exact decide_eq_decide.2 (by omega)

/-- A cell that a CLEAR stream carries (R70). -/
theorem descrambled_clear (hc : c.phase = .clear) : Descrambled l c [k] s (descrambleCell l c k s) := by
  have passes : s.passes k c = some c.payload := by unfold State.passes; rw [hc]
  have unkeyed : s.unkeyed k c = false := by unfold State.unkeyed; rw [hc]; rfl
  have starves : s.starves k c = false := by unfold State.starves; rw [unkeyed]; rfl
  have does : descrambleCell l c k s = outputCell k c.tag c.seq c.payload s := by
    unfold descrambleCell; rw [hc]; rfl
  rw [does, outputCell_eq]
  refine .single ?_ ?_ ?_ rfl (by rw [starves]; simp) (fun _ => rfl) rfl
  · simp [State.slotAfter, passes, unkeyed, starves, hc]
  · simp only [State.cellOutOf, passes]
    rfl
  · simp [State.misphased, hc]

/-- What a scrambled cell finds in a slot's descrambler (R70). -/
theorem passes_of_key {p : Phase} (hp : c.phase.key = some p) : s.passes k c =
    if s.isClear k = true then none else ((s.slot k).desc.key p).map fun x => Config.descramble x.word c.payload := by
  unfold State.passes
  cases h : c.phase <;> rw [h] at hp <;> cases hp <;> rfl

theorem scrambled_of_key {p : Phase} (hp : c.phase.key = some p) : c.phase ≠ .clear := by
  rintro h
  rw [h] at hp
  cases hp

/-- A scrambled cell without its key: counted, and a slot that it starves is HELD (R19, R70). -/
theorem unkeyedCell_eq (k : Fin 5) (s : State) : unkeyedCell k s =
    if (s.slot k).starved s.clock.uptimeMs = true then
      enterHeld .keyLost k (s.modSlot k fun sl => { sl with unkeyed := sl.unkeyed + 1 })
    else s.modSlot k fun sl => { sl with unkeyed := sl.unkeyed + 1 } := by
  unfold unkeyedCell
  dsimp only
  rw [slot_modSlot_same]
  rfl

/-! What a slot's descrambler does with a scrambled cell (R70). -/

theorem descrambleCell_onClear {p : Phase} (hp : c.phase.key = some p) (clear : s.isClear k = true) :
    descrambleCell l c k s = s.modRouter (Router.countPhase l) := by
  unfold descrambleCell
  rw [hp]
  exact if_pos clear

theorem descrambleCell_unkeyed {p : Phase} (hp : c.phase.key = some p) (clear : ¬ s.isClear k = true)
    (key : (s.slot k).desc.key p = none) : descrambleCell l c k s = unkeyedCell k s := by
  unfold descrambleCell
  rw [hp]
  dsimp only
  rw [if_neg clear, key]

theorem descrambleCell_keyed {p : Phase} {x : Key} (hp : c.phase.key = some p) (clear : ¬ s.isClear k = true)
    (key : (s.slot k).desc.key p = some x) :
    descrambleCell l c k s = outputCell k c.tag c.seq (Config.descramble x.word c.payload)
      (s.modDesc k fun d => { d with lastDecoded := some s.clock.uptimeMs }) := by
  unfold descrambleCell
  rw [hp]
  dsimp only
  rw [if_neg clear, key]

theorem descrambled_scrambled {p : Phase} (hr : s.restarting = false) (hp : c.phase.key = some p) :
    Descrambled l c [k] s (descrambleCell l c k s) := by
  have scrambled := scrambled_of_key hp
  have passes := passes_of_key (s := s) (k := k) hp
  by_cases clear : s.isClear k = true
  · rw [if_pos clear] at passes
    rw [descrambleCell_onClear hp clear]
    have unkeyed : s.unkeyed k c = false := by simp [State.unkeyed, clear]
    have starves : s.starves k c = false := by simp [State.starves, unkeyed]
    refine .single ?_ ?_ ?_ rfl (by rw [starves]; exact fun h => h.resolve_right (by simp)) (fun _ => rfl) rfl
    · have after : s.slotAfter k c false = s.slot k := by simp [State.slotAfter, passes, unkeyed, starves]
      rw [after, slots_set_self]
      rfl
    · simp [State.cellOutOf, passes]
    · simp [State.misphased, scrambled, clear]
  · rw [if_neg clear] at passes
    have misphased : s.misphased c k = false := by simp [State.misphased, clear]
    cases key : (s.slot k).desc.key p with
    | none =>
      rw [key] at passes
      have unkeyed : s.unkeyed k c = true := by simp [State.unkeyed, clear, scrambled, passes]
      have starved : (s.slot k).starved s.clock.uptimeMs = s.starves k c := by
        rw [starved_eq, State.starves, unkeyed, Bool.true_and]
      have after : s.slotAfter k c false = { s.slot k with
          unkeyed := (s.slot k).unkeyed + 1
          state := if s.starves k c = true then .held else (s.slot k).state
          reason := if s.starves k c = true then .keyLost else (s.slot k).reason } := by
        simp [State.slotAfter, passes, unkeyed]
      have silent : s.cellOutOf k c = [] := by simp [State.cellOutOf, passes]
      rw [descrambleCell_unkeyed hp clear key, unkeyedCell_eq, starved]
      cases starves : s.starves k c with
      | false =>
        rw [starves] at after
        refine .single ?_ ?_ ?_ rfl (by rw [starves]; exact fun h => h.resolve_right (by simp)) (fun _ => rfl) rfl
        · rw [after]; rfl
        · rw [silent]; exact (List.append_nil _).symm
        · rw [misphased]; rfl
      | true =>
        rw [starves] at after
        rw [if_pos rfl]
        obtain ⟨link, does, core, flag⟩ := exists_enterHeld .keyLost k
          (s.modSlot k fun sl => { sl with unkeyed := sl.unkeyed + 1 })
        rw [does]
        refine .single ?_ ?_ ?_ core (fun _ => flag hr) (fun h => absurd (starves.symm.trans h) (by decide)) rfl
        · rw [after, slot_modSlot_same]
          exact Vector.set_set ..
        · rw [silent]; exact (List.append_nil _).symm
        · rw [misphased]; rfl
    | some x =>
      rw [key] at passes
      have unkeyed : s.unkeyed k c = false := by simp [State.unkeyed, passes]
      have starves : s.starves k c = false := by simp [State.starves, unkeyed]
      rw [descrambleCell_keyed hp clear key, outputCell_eq]
      refine .single ?_ ?_ ?_ rfl (by rw [starves]; exact fun h => h.resolve_right (by simp)) (fun _ => rfl) rfl
      · simp [State.slotAfter, passes, unkeyed, starves, scrambled, State.modDesc]
      · simp [State.cellOutOf, passes, State.modDesc]
      · simp [misphased, State.modDesc]

theorem Descrambled.restarting (h : Descrambled l c ks s t) : t.restarting = s.restarting :=
  (congrArg State.restarting h.rest :)

theorem descrambled_one (hr : s.restarting = false) (hc : c.phase ≠ .reserved) :
    Descrambled l c [k] s (descrambleCell l c k s) := by
  cases h : c.phase with
  | clear => exact descrambled_clear h
  | a => exact descrambled_scrambled hr (p := .a) (by rw [h]; rfl)
  | b => exact descrambled_scrambled hr (p := .b) (by rw [h]; rfl)
  | reserved => exact absurd h hc

/-- The slots of an entry take a cell one after another (R70). -/
theorem descrambled_all (hn : ks.Nodup) (hr : s.restarting = false) (hc : c.phase ≠ .reserved) :
    Descrambled l c ks s (forEach ks (descrambleCell l c) s) := by
  induction ks generalizing s with
  | nil => exact .nil l c s
  | cons k ks ih =>
    obtain ⟨hk, hn⟩ := List.nodup_cons.1 hn
    have first := descrambled_one (l := l) (k := k) hr hc
    exact .cons hk first (ih hn (first.restarting.trans hr))

/-! ### The gaps (R59) -/

/-- A slot's gaps counted, where a cell breaks the sequence. -/
def Slot.gapped (gap : Bool) (x : Slot) : Slot := { x with gaps := if gap then x.gaps + 1 else x.gaps }

/-- The slots of an entry whose sequence a cell breaks or continues. -/
structure Gapped (gap : Bool) (ks : List (Fin 5)) (s t : State) : Prop where
  slots : ∀ k, t.slot k = if k ∈ ks then (s.slot k).gapped gap else s.slot k
  rest : t = { s with slots := t.slots }

theorem gapped_all (hn : ks.Nodup) (s : State) :
    Gapped true ks s (forEach ks (fun k s => s.modSlot k fun sl => { sl with gaps := sl.gaps + 1 }) s) := by
  induction ks generalizing s with
  | nil => exact ⟨by simp [forEach], rfl⟩
  | cons k ks ih =>
    obtain ⟨hk, hn⟩ := List.nodup_cons.1 hn
    have h := ih hn (s.modSlot k fun sl => { sl with gaps := sl.gaps + 1 })
    refine ⟨fun j => (h.slots j).trans ?_, h.rest⟩
    by_cases e : k = j
    · subst e
      simp [hk, Slot.gapped]
    · simp [slot_modSlot_ne e, Ne.symm e]

theorem gapped_of (hn : ks.Nodup) (gap : Bool) (s : State) : Gapped gap ks s
    (if gap = true then forEach ks (fun k s => s.modSlot k fun sl => { sl with gaps := sl.gaps + 1 }) s else s) := by
  cases gap with
  | true => exact gapped_all hn s
  | false => exact ⟨fun k => by simp [Slot.gapped], rfl⟩

/-- A cell's passing is by the descrambler, the service and the clock, which the gaps leave (R70). -/
theorem Gapped.passes {gap : Bool} (h : Gapped gap ks s t) (hk : k ∈ ks) (c : CellView) :
    t.isClear k = s.isClear k ∧ t.passes k c = s.passes k c ∧ t.starves k c = s.starves k c
      ∧ t.cellOutOf k c = s.cellOutOf k c ∧ t.slotAfter k c false = s.slotAfter k c gap := by
  have slot := (h.slots k).trans (if_pos hk)
  have services : t.services = s.services := (congrArg State.services h.rest :)
  have clock : t.clock = s.clock := (congrArg State.clock h.rest :)
  have clear : t.isClear k = s.isClear k := isClear_congr (by rw [slot]; rfl) services
  have passes : t.passes k c = s.passes k c := by
    unfold State.passes
    rw [clear, slot]
    rfl
  have starves : t.starves k c = s.starves k c := by
    unfold State.starves State.unkeyed
    rw [clear, passes, slot, clock]
    rfl
  refine ⟨clear, passes, starves, ?_, ?_⟩
  · unfold State.cellOutOf
    rw [passes, slot]
    rfl
  · unfold State.slotAfter State.unkeyed
    rw [clear, passes, starves, slot, clock]
    rfl

/-- A component cell routed: its slots' records, what leaves, the router, and no more than the SLOT notices (R19, R59,
R70, R71). -/
theorem componentCell_does {f : Filter} (hn : ks.Nodup) (hr : s.restarting = false) (hc : c.phase ≠ .reserved) :
    (∀ k, (componentCell l c f ks s).slot k = if k ∈ ks then s.slotAfter k c (f.gap c.seq) else s.slot k)
      ∧ (componentCell l c f ks s).out = s.out ++ ks.flatMap (fun k => s.cellOutOf k c)
      ∧ (componentCell l c f ks s).router = { s.router with
          filters := keyPut Filter.key { f with last := some c.seq } s.router.filters
          cells := s.router.cells.set l { s.router.cells[l] with
            phaseDiscard := (s.router.cells[l]).phaseDiscard + BitVec.ofNat 32 (ks.filter (s.misphased c)).length } }
      ∧ (componentCell l c f ks s).link.core = s.link.core
      ∧ ((∃ k ∈ ks, s.starves k c = true) → (componentCell l c f ks s).link.flags[0] = true)
      ∧ ((∀ k ∈ ks, s.starves k c = false) → (componentCell l c f ks s).link = s.link)
      ∧ componentCell l c f ks s = { s with
          slots := (componentCell l c f ks s).slots, router := (componentCell l c f ks s).router
          out := (componentCell l c f ks s).out, link := (componentCell l c f ks s).link } := by
  unfold componentCell
  dsimp only
  have gaps := gapped_of hn (f.gap c.seq) s
  generalize (if f.gap c.seq = true then
    forEach ks (fun k s => s.modSlot k fun sl => { sl with gaps := sl.gaps + 1 }) s else s) = u at gaps ⊢
  have rest := gaps.rest
  have cells := descrambled_all (l := l) (c := c) (s := u.modRouter fun r =>
    { r with filters := keyPut Filter.key { f with last := some c.seq } r.filters }) hn
    ((congrArg State.restarting rest :).trans hr) hc
  generalize forEach ks (descrambleCell l c) (u.modRouter fun r =>
    { r with filters := keyPut Filter.key { f with last := some c.seq } r.filters }) = t at cells ⊢
  have link : u.link = s.link := (congrArg State.link rest :)
  have router : u.router = s.router := (congrArg State.router rest :)
  have out : u.out = s.out := (congrArg State.out rest :)
  generalize hv : (u.modRouter fun r => { r with filters := keyPut Filter.key { f with last := some c.seq } r.filters })
    = v at cells
  have after : ∀ k ∈ ks, v.isClear k = s.isClear k ∧ v.passes k c = s.passes k c ∧ v.starves k c = s.starves k c
      ∧ v.cellOutOf k c = s.cellOutOf k c ∧ v.slotAfter k c false = s.slotAfter k c (f.gap c.seq) := fun k hk => by
    subst hv
    exact gaps.passes hk c
  refine ⟨fun k => ?_, ?_, ?_, ?_, ?_, ?_, ?_⟩
  · rw [cells.slots k]
    by_cases hk : k ∈ ks
    · rw [if_pos hk, if_pos hk, (after k hk).2.2.2.2]
    · rw [if_neg hk, if_neg hk]
      subst hv
      exact (gaps.slots k).trans (if_neg hk)
  · rw [cells.out, List.flatMap_congr fun k hk => (after k hk).2.2.2.1]
    subst hv
    exact congrArg (· ++ _) out
  · have misphased : ks.filter (v.misphased c) = ks.filter (s.misphased c) := List.filter_congr fun k hk => by
      unfold State.misphased
      rw [(after k hk).1]
    rw [cells.router, misphased]
    subst hv
    rw [State.modRouter_router, router]
  · refine cells.core.trans ?_
    subst hv
    exact congrArg Link.core link
  · rintro ⟨k, hk, starves⟩
    exact cells.flag (.inr ⟨k, hk, ((after k hk).2.2.1).trans starves⟩)
  · intro still
    refine (cells.quiet fun k hk => ((after k hk).2.2.1).trans (still k hk)).trans ?_
    subst hv
    exact link
  · subst hv
    exact cells.rest.trans (by rw [rest]; rfl)

/-! ### CELL (R37, R58, R61, R70) -/

/-- A cell of a LOCKED lane is routed. -/
theorem cellEvent_locked {bytes : List Byte} (h : (s.lane l).state = .locked) :
    cellEvent l bytes s = routeCell l (viewCellBytes bytes) s := by
  unfold cellEvent
  exact if_pos (beq_iff_eq.2 h)

theorem takes_iff (x : Consumer) (n : Nat) : x.takes n = true ↔ n ∈ x.kinds := by
  cases x <;> simp [Consumer.takes, Consumer.kinds]

theorem gap_eq (seq : BitVec 6) (f : Filter) : f.gap seq = f.last.any fun x => decide (seq ≠ x + 1) := by
  unfold Filter.gap
  cases f.last with
  | none => rfl
  | some x =>
    by_cases h : seq = x + 1
    · simp [h]
    · exact (bne_iff_ne.2 h).trans (decide_eq_true h).symm

theorem routeCell_control {f : Filter} {x : Consumer} (hc : c.phase ≠ .reserved)
    (hf : keyFind Filter.key (l.val * 1024 + c.tag) s.router.filters = some f) (hx : f.dest = .consumer x) :
    routeCell l c s = controlCell l c x s := by
  unfold routeCell
  rw [if_neg hc, hf]
  dsimp only
  rw [hx]

theorem routeCell_component {f : Filter} (hc : c.phase ≠ .reserved)
    (hf : keyFind Filter.key (l.val * 1024 + c.tag) s.router.filters = some f) (hx : f.dest = .slots ks) :
    routeCell l c s = componentCell l c f ks s := by
  unfold routeCell
  rw [if_neg hc, hf]
  dsimp only
  rw [hx]

/-- A record that no rule takes on its control entry is bad (R61). -/
theorem controlCell_bad {x : Consumer} (hc : c.phase = .clear)
    (hr : recordOf c.payload = none ∨ ∃ r, recordOf c.payload = some r ∧ r.kind ∉ x.kinds) :
    controlCell l c x s = s.streamRecordBad := by
  unfold controlCell
  rw [if_neg (by rw [hc]; simp)]
  rcases hr with hr | ⟨r, hr, kind⟩
  · rw [hr]
  · rw [hr]
    exact if_neg (mt (takes_iff x r.kind).1 kind)

/-- Settles O34: a cell is discarded, or counted, or handled by each slot of its entry in turn. -/
theorem cellsRouted : Obligations.CellsRouted := by
  intro l bytes s live c counts phased entry
  have cell : ∀ u : State, cellEvent l bytes s.clearOut = u.clearOut → u.auxRises = [] → u.link = s.link →
      ∃ t, exec (.cell l bytes) s = .next t ∧ s.unanswered t ∧ u.unmoved t := fun u hu hr hl =>
    ⟨_, rfl, event_moves _ live hu hr hl⟩
  refine ⟨fun unlocked => cell s (if_neg fun h => unlocked (beq_iff_eq.1 h)) live.rises rfl, fun locked => ?_⟩
  have routed : cellEvent l bytes s.clearOut = routeCell l c s.clearOut := cellEvent_locked locked
  refine ⟨fun reserved => ?_, fun phase none => ?_, fun f x phase found dest => ?_, fun f x phase found dest bad => ?_,
    fun f ks phase found dest nodup => ?_⟩
  · refine cell phased (routed.trans ?_) live.rises rfl
    exact if_pos reserved
  · refine cell _ (routed.trans ?_) live.rises rfl
    unfold routeCell
    rw [if_neg phase]
    have : keyFind Filter.key (l.val * 1024 + c.tag) s.clearOut.router.filters = Option.none := none
    rw [this]
    rfl
  · refine cell phased (routed.trans ?_) live.rises rfl
    have open_ : c.phase ≠ .reserved := by rcases phase with e | e <;> rw [e] <;> decide
    rw [routeCell_control (s := s.clearOut) open_ found dest]
    exact if_pos (by rcases phase with e | e <;> rw [e] <;> decide)
  · refine ⟨_, rfl, event_discards _ live (routed.trans ?_)⟩
    rw [routeCell_control (s := s.clearOut) (by rw [phase]; decide) found dest, controlCell_bad phase bad]
  · intro gap discards
    have does := routeCell_component (s := s.clearOut) phase found dest
    obtain ⟨slots, out, router, core, flag, quiet, rest⟩ :=
      componentCell_does (l := l) (c := c) (f := f) (s := s.clearOut) nodup live.running phase
    rw [← does, ← routed] at slots out router core flag quiet rest
    have settled : settle (cellEvent l bytes s.clearOut) = cellEvent l bytes s.clearOut :=
      settle_none ((congrArg State.auxRises rest :).trans live.rises)
    have event := event_live (cellEvent l bytes) live
    rw [settled] at event
    have gaps : f.gap c.seq = gap := gap_eq ..
    have phases : (ks.filter (s.clearOut.misphased c)).length = discards := by
      refine congrArg List.length (List.filter_congr fun k _ => ?_)
      unfold State.misphased
      cases c.phase <;> rfl
    refine ⟨_, rfl, event_unanswered _ live (by rw [settled]; exact core), ?_⟩
    rw [event]
    refine ⟨fun k => (slots k).trans (by rw [gaps]; rfl), out, ?_, (congrArg State.faults rest :), fun starve => ?_,
      fun still => ?_⟩
    · rw [(served_startTx _).noted, rest]
      unfold State.noted
      dsimp only
      rw [rest_of_core core, router, phases]
      rfl
    · rw [startTx_flags]
      exact flag starve
    · have link : (cellEvent l bytes s.clearOut).link = s.link := quiet still
      obtain ⟨-, -, ports, onward⟩ := startTx_link (cellEvent l bytes s.clearOut)
      rw [link] at onward ports
      exact ⟨onward, ports⟩

end Sys2Proof.Machine
end

