-- ==== Sys2Proof/Proofs/R24.lean ====
section
/-! A refutation: a service map that names one service id twice, under two channels (R1, R9). The TUNE finds the entry
of the channel, and the switch engine the first entry of the service id. -/

namespace Sys2Proof.Machine

open Sys2Proof

variable {s t : State}

/-- What a command leads to, read off by evaluation. -/
theorem after_exec {i : Instr} {p : State → Prop} (h : exec i s = .next t) (hp : p (Result.orElse s (exec i s))) : p t := by
  rw [h] at hp
  exact hp

def twinClear : Service := { sid := 5, channel := 1, carrier := 1, scrambled := false, rating := 0, comps := [] }

def twinScrambled : Service := { twinClear with channel := 2, scrambled := true }

/-- In SERVICE, lane 0 LOCKED on carrier 1, every slot FREE, and the map holding service 5 twice: CLEAR on channel 1 and
SCRAMBLED on channel 2. -/
def twinServices : State :=
  { mode := .service
    carriers := [{ index := 1, freq := 100, cls := 0, guide := false, home := false }]
    services := [twinClear, twinScrambled]
    lanes := #v[{ state := .locked, carrier := some 1, grade := some .good }, {}, {}] }

theorem twinServices_ready : twinServices.ready := ⟨⟨rfl, rfl, by decide, rfl⟩, by decide⟩

/-- TUNE of slot 0 to channel 2 passes every check, on the SCRAMBLED entry. -/
theorem twinServices_tuneTaken : twinServices.tuneTaken 0 0 0 2 0 twinScrambled :=
  ⟨rfl, rfl, by decide, by decide, rfl, by decide, by decide, by decide, rfl, by
    have : ∀ n, (twinServices.entry n).state ≠ .armed := by decide
    exact fun n _ armed => absurd armed (this n)⟩

/-- The slot joins the LOCKED lane by its permit, as on a CLEAR service. -/
theorem twinServices_held : ((Result.orElse twinServices (exec (.tune 0 0 0 2 0) twinServices)).slot 0).state = .held := by
  decide

/-- Refutes O24: of two entries of one service id, the TUNE is taken on the SCRAMBLED one that its channel names, and the
slot does not wait for a key, for its service id finds the CLEAR one first. -/
theorem not_tunesTaken : ¬ Obligations.TunesTaken := by
  intro h
  obtain ⟨t, run, -, -, -, joins, -⟩ := h.2 0 0 0 0 2 0 twinScrambled twinServices twinServices_ready
    twinServices_tuneTaken
  have acquires := ((joins 0 (by intro m hm; cases hm) rfl).scrambled rfl rfl).1
  have held := after_exec (p := fun t => (t.slot 0).state = .held) run twinServices_held
  exact absurd (acquires.symm.trans held) (by decide)

end Sys2Proof.Machine
end

