-- ==== Sys2Proof/Proofs/R23.lean ====
section
/-! A refutation: a slot whose filter entries are not those of its service in the map (R3, R57). Nothing ties the filter
table to the map in the statement, and an edit that leaves the component list as it is touches no entry. -/

namespace Sys2Proof.Machine

open Sys2Proof

variable {s t : State}

def plainVideo : Service :=
  { sid := 5, channel := 1, carrier := 1, scrambled := true, rating := 0, comps := [⟨.video, 16⟩] }

/-- The SERVICE_PUT that writes the entry anew as it is. -/
def plainVideoPut : ServiceReq :=
  { channel := 1, sid := 5, carrier := 1, access := 1, rating := 0, comps := [{ kind := 0, tag := 16 }] }

/-- In SERVICE, slot 0 ACQUIRING service 5 on lane 0, the map giving the service tag 16 and the filter table giving the
slot tag 17. -/
def strayFilter : State :=
  { mode := .service
    carriers := [{ index := 1, freq := 100, cls := 0, guide := false, home := false }]
    services := [plainVideo]
    lanes := #v[{ state := .locked, carrier := some 1, grade := some .good }, {}, {}]
    slots := resetSlots.set 0
      { state := .acquiring, service := some 5, carrier := some 1, lane := some 0, profile := some 0 }
    router := { filters := [{ lane := 0, tag := 17, dest := .slots [0] }] } }

theorem strayFilter_ready : strayFilter.ready := ⟨⟨rfl, rfl, by decide, rfl⟩, by decide⟩

/-- The slot's place in the table is that of an entry that the map does not hold. -/
theorem strayFilter_filtered : strayFilter.filtered 0 { plainVideo with comps := [⟨.video, 17⟩] } := by
  refine ⟨fun f hf ks hk _ => ?_, fun l hl _ c hc => ?_⟩
  · rw [List.mem_singleton.1 hf]
    exact ⟨rfl, by decide, ⟨.video, 17⟩, by decide, rfl⟩
  · rw [List.mem_singleton.1 hc]
    cases hl
    exact ⟨_, List.mem_singleton_self _, rfl, rfl, [0], rfl, by decide⟩

theorem strayFilter_left : (Result.orElse strayFilter (exec (.servicePut 0 plainVideoPut) strayFilter)).router.filters
    = [{ lane := 0, tag := 17, dest := .slots [0] }] := by decide

/-- Refutes O23: the clause of a changed component list takes any entry for the one that the slot's filters follow, and a
slot that follows another than the map's is left so by an edit that changes nothing. -/
theorem not_servicesEdited : ¬ Obligations.ServicesEdited := by
  intro h
  have inRange : plainVideoPut.inRange := ⟨by decide, by decide, by decide, by decide, by decide, by decide, by decide⟩
  have writes : plainVideoPut.writes plainVideo := ⟨rfl, rfl, rfl, by decide, rfl, rfl⟩
  obtain ⟨-, -, -, -, replaced⟩ := (h.1 0 plainVideoPut strayFilter strayFilter_ready).2 plainVideo inRange writes
  obtain ⟨t, run, -, -, -, relisted, -⟩ := replaced plainVideo (by decide) (by decide) rfl
  have slots := (relisted rfl rfl (by decide) rfl).1.slots _ 0 (by decide) strayFilter_filtered
  have left := after_exec (p := fun t => t.router.filters = [{ lane := 0, tag := 17, dest := .slots [0] }]) run
    strayFilter_left
  obtain ⟨-, -, c, hc, tag⟩ := slots.only _ (left ▸ List.mem_singleton_self _) [0] rfl (by decide)
  rw [List.mem_singleton.1 hc] at tag
  exact absurd tag (by decide)

end Sys2Proof.Machine
end

