-- ==== Sys2Proof/Proofs/R28.lean ====
section
/-! A refutation: a slot on a lane that has no carrier of its own, and waits in the queue too (R7, R22, R51). A displaced
slot without a carrier waits for carrier 0, and the lane on carrier 0 takes it out of the queue. -/

namespace Sys2Proof.Machine

open Sys2Proof

variable {s t : State}

/-- In SERVICE, slot 0 on lane 0 with no carrier, waiting for carrier 9 as well; lane 1 SEEKING carrier 0, lane 2 OFF. -/
def carrierless : State :=
  { mode := .service
    lanes := #v[{ state := .seeking, carrier := some 1 }, { state := .seeking, carrier := some 0 }, { state := .off }]
    slots := resetSlots.set 0 { state := .tuning, service := some 5, lane := some 0, profile := some 0 }
    arb := { queue := [{ claimant := .slot 0, carrier := 9 }] } }

theorem carrierless_ready : carrierless.ready := ⟨⟨rfl, rfl, by decide, rfl⟩, by decide⟩

theorem carrierless_noRise : carrierless.noRise := by
  have : ∀ n, (carrierless.entry n).state ≠ .armed := by decide
  exact fun n _ armed => absurd armed (this n)

/-- No lane but lane 0 is IDLE, serves a carrier that a slot on lane 0 or a waiter names, or has a user. -/
theorem carrierless_stranded : carrierless.stranded 0 := by
  refine ⟨by decide, fun m c hm serves => ?_, fun m r k hm _ priority _ => ?_⟩
  · have only : ∀ m : Fin 3, m ≠ 0 → ∀ x, (carrierless.lane m).carrier = some x → x = 0 := by
      intro m hm x hx
      have : ∀ m : Fin 3, m ≠ 0 → ((carrierless.lane m).carrier.all (· == 0)) = true := by decide
      simpa [hx] using this m hm
    have at0 : c = 0 := by
      unfold Lane.serves at serves
      exact only m hm c (beq_iff_eq.1 (Bool.and_eq_true_iff.1 serves).2)
    subst at0
    exact ⟨by decide, by decide⟩
  · have none : ∀ m : Fin 3, m ≠ 0 → carrierless.lanePriority m = none := by decide
    rw [none m hm] at priority
    cases priority

theorem carrierless_queue :
    (Result.orElse carrierless (exec (.laneEnable 0 0 0) carrierless)).arb.queue = [] := by decide

/-- Refutes O28: the slot that leaves lane 0 joins the lane on carrier 0, and its claim on carrier 9 is gone. -/
theorem not_laneEnableSwitches : ¬ Obligations.LaneEnableSwitches := by
  intro h
  obtain ⟨t, run, -, -, -, -, -, -, -, -, rests⟩ :=
    ((h 0 0 0 carrierless carrierless_ready).2 0 rfl).2.1 rfl (by decide)
  obtain ⟨-, stays, -⟩ := (rests ⟨rfl, by decide⟩ carrierless_noRise).1 carrierless_stranded
  have gone := after_exec (p := fun t => t.arb.queue = []) run carrierless_queue
  exact absurd (gone ▸ stays _ (List.mem_singleton_self _)) List.not_mem_nil

end Sys2Proof.Machine
end

