-- ==== Sys2Proof/Proofs/R30.lean ====
section
/-! Refutations: a slot that is on a lane and in the wait queue too, and shares the lane with the sweep (R48, R51). When
the lane is lost, the home hold decides; the lane that it leaves is offered to the queue, the slot is granted another
lane, and the home hold then preempts the lane lost, on which the sweep alone is left (R43, R50, R52, R54). -/

namespace Sys2Proof.Machine

open Sys2Proof

variable {s t : State}

/-- In STANDBY. Lane 0 is LOCKED on carrier 1, for slot 3 and the sweep, one sample short of its third POOR average;
the home hold has lane 1, which seeks a carrier that is no more the home carrier; lane 2 seeks carrier 4. Slot 3 waits
for carrier 4 as well, and slot 4 for carrier 5. -/
def queuedOnLane : State :=
  { mode := .standby
    carriers := [{ index := 1, freq := 100000, cls := 0, guide := false, home := false },
      { index := 3, freq := 300000, cls := 0, guide := false, home := true }]
    lanes := #v[{ state := .locked, carrier := some 1, accN := some 1, grade := some .poor, poorRun := 2 },
      { state := .seeking, carrier := some 2 }, { state := .seeking, carrier := some 4 }]
    slots := resetSlots.set 3 { state := .acquiring, service := some 5, carrier := some 1, lane := some 0 }
    sweep := { on := true, lane := some 0 }
    arb := { queue := [{ claimant := .slot 3, carrier := 4 }, { claimant := .slot 4, carrier := 5 }]
             home := .holding 1 } }

theorem queuedOnLane_ready : queuedOnLane.ready := ⟨⟨rfl, rfl, by decide, rfl⟩, by decide⟩

theorem queuedOnLane_noRise : queuedOnLane.noRise := by
  have : ∀ n, (queuedOnLane.entry n).state ≠ .armed := by decide
  exact fun n _ armed => absurd armed (this n)

/-- A lane whose loss takes it to another carrier is not lost as R43 has it: slot 3 has a retune left. -/
theorem not_loses_of_carrier (slots : s.slots = queuedOnLane.slots) (h : (t.lane 0).carrier = some 3) :
    ¬ s.loses t 0 1 := by
  intro loses
  have slot : s.slot 3 = queuedOnLane.slot 3 := congrArg (fun v : Vector Slot 5 => v[3]) slots
  have again := (loses.lane ⟨3, by rw [slot]; decide⟩).carrier
  exact absurd (again.symm.trans h) (by decide)

theorem queuedOnLane_unlocked :
    ((Result.orElse queuedOnLane (exec (.laneUnlock 0) queuedOnLane)).lane 0).carrier = some 3 := by decide

/-- Refutes O30: the lane lost seeks the home carrier at the end, although slot 3 was on it with a retune left. -/
theorem not_laneLossesCount : ¬ Obligations.LaneLossesCount := by
  intro h
  obtain ⟨⟨t, run, -, -, -, -, -, loses⟩, -⟩ := (h 0 queuedOnLane queuedOnLane_ready.tolive).2.2.1 1 rfl rfl
  exact not_loses_of_carrier rfl (after_exec (p := fun t => (t.lane 0).carrier = some 3) run queuedOnLane_unlocked)
    (loses queuedOnLane_noRise)

theorem queuedOnLane_sampled :
    ((Result.orElse queuedOnLane (exec (.sample 0 300) queuedOnLane)).lane 0).carrier = some 3 := by decide

/-- Refutes O31: a SAMPLE that brings the poor run to K loses the lane, and it goes as with any other loss. -/
theorem not_sampleGrades : ¬ Obligations.SampleGrades := by
  intro h
  obtain ⟨t, run, -, -, -, -, loses⟩ :=
    ((h 0 300 1 .poor queuedOnLane queuedOnLane_ready.tolive).2 rfl rfl rfl).2.2 1 rfl (by decide) (by decide) rfl
  exact not_loses_of_carrier rfl (after_exec (p := fun t => (t.lane 0).carrier = some 3) run queuedOnLane_sampled)
    (loses queuedOnLane_noRise)

/-- The CARRIER_PUT that gives carrier 1 another frequency. -/
def refrequency : CarrierReq := { index := 1, freq := 200000, cls := 0, guide := 0, home := 0 }

theorem queuedOnLane_edited :
    ((Result.orElse queuedOnLane (exec (.carrierPut 0 refrequency) queuedOnLane)).lane 0).carrier = some 3 := by decide

/-- Refutes O26: a changed frequency loses the LOCKED lane, and it goes as with any other loss. -/
theorem not_carriersEdited : ¬ Obligations.CarriersEdited := by
  intro h
  have inRange : refrequency.inRange := ⟨by decide, by decide, by decide, by decide, by decide⟩
  have writes : refrequency.writes { index := 1, freq := 200000, cls := 0, guide := false, home := false } :=
    ⟨rfl, rfl, rfl, by decide, by decide⟩
  obtain ⟨t, run, -, -, edits⟩ := ((h.1 0 refrequency queuedOnLane queuedOnLane_ready).2 _ inRange writes).2 (by decide)
  have loses := ((edits _ 0 rfl (by decide) rfl).1 rfl).2.2 queuedOnLane_noRise
  have taken := after_exec (p := fun t => (t.lane 0).carrier = some 3) run queuedOnLane_edited
  exact absurd loses (not_loses_of_carrier rfl taken)

end Sys2Proof.Machine
end

