-- ==== Sys2Proof/Proofs/P6.lean ====
section
/-! SUPPORT. What a report to the gate array does to the slots, to the sources, and to nothing else, whatever the state
(R17, R148, R149). -/

namespace Sys2Proof.Machine

open Sys2Proof

variable {s t u : State}

/-! ### Slots moved by their permits alone (R17) -/

/-- A slot that waits for its permit, or presents by it (R17). -/
def Slot.byPermit (x : Slot) : Prop := x.state = .presenting ∨ (x.state = .held ∧ x.reason = .permitOff)

/-- A slot as rises and falls of its permit leave it: it is PRESENTING afresh, or HELD(PERMIT_OFF), its retune count as it
was or 0 (R17). -/
structure Slot.Permitted (x y : Slot) : Prop where
  found : x.byPermit
  left : (y.state = .presenting ∧ y.reason = .none ∧ y.retune = 0)
    ∨ (y.state = .held ∧ y.reason = .permitOff ∧ (y.retune = x.retune ∨ y.retune = 0))
  kept : y = { x with state := y.state, reason := y.reason, retune := y.retune, since := y.since }

/-- A slot as it was, or moved by its permit. -/
def Slot.Moved (x y : Slot) : Prop := y = x ∨ x.Permitted y

theorem Slot.Moved.refl (x : Slot) : x.Moved x := .inl rfl

theorem Slot.Permitted.byPermit {x y : Slot} (h : x.Permitted y) : y.byPermit :=
  h.left.imp (·.1) fun l => ⟨l.1, l.2.1⟩

theorem Slot.Moved.trans {x y z : Slot} (h : x.Moved y) (g : y.Moved z) : x.Moved z := by
  rcases h with rfl | h
  · exact g
  · rcases g with rfl | g
    · exact .inr h
    · refine .inr ⟨h.found, g.left.imp id fun l => ⟨l.1, l.2.1, ?_⟩, by rw [g.kept, h.kept]⟩
      rcases l.2.2 with e | e
      · rcases h.left with l' | l'
        · exact .inr (e.trans l'.2.2)
        · exact l'.2.2.imp e.trans e.trans
      · exact .inr e

theorem Slot.moved_permitted (clear : Bool) (now : Nat) (v : Bool) (x : Slot) : x.Moved (x.permitted clear now v) := by
  unfold Slot.permitted
  split
  · split
    · rename_i held
      exact .inr ⟨.inr ⟨held.1, held.2.1⟩, .inl ⟨rfl, rfl, rfl⟩, rfl⟩
    · exact .refl x
  · split
    · rename_i presents
      exact .inr ⟨.inl presents, .inr ⟨rfl, rfl, .inl rfl⟩, rfl⟩
    · exact .refl x

/-- What a permit leaves of a slot: all but its state, reason, retune count and time of presenting. -/
theorem Slot.Moved.kept {x y : Slot} (h : x.Moved y) :
    y = { x with state := y.state, reason := y.reason, retune := y.retune, since := y.since } := by
  rcases h with rfl | h
  · rfl
  · exact h.kept

/-- A slot that neither presents nor waits for its permit is left (R17). -/
theorem Slot.Moved.eq_of {x y : Slot} (h : x.Moved y) (hp : x.state ≠ .presenting) (hh : x.state ≠ .held) : y = x := by
  rcases h with rfl | h
  · rfl
  · exact absurd h.found (fun e => e.elim hp fun e => hh e.1)

theorem Slot.Moved.lane {x y : Slot} (h : x.Moved y) : y.lane = x.lane := by rw [h.kept]
theorem Slot.Moved.origin {x y : Slot} (h : x.Moved y) : y.origin = x.origin := by rw [h.kept]
theorem Slot.Moved.service {x y : Slot} (h : x.Moved y) : y.service = x.service := by rw [h.kept]
theorem Slot.Moved.carrier {x y : Slot} (h : x.Moved y) : y.carrier = x.carrier := by rw [h.kept]
theorem Slot.Moved.desc {x y : Slot} (h : x.Moved y) : y.desc = x.desc := by rw [h.kept]
theorem Slot.Moved.keyTimer {x y : Slot} (h : x.Moved y) : y.keyTimer = x.keyTimer := by rw [h.kept]
theorem Slot.Moved.cur {x y : Slot} (h : x.Moved y) : y.cur = x.cur := by rw [h.kept]

/-- Whether a slot is FREE is no matter of its permit. -/
theorem Slot.Moved.free {x y : Slot} (h : x.Moved y) : y.state = .free ↔ x.state = .free := by
  rcases h with rfl | h
  · exact .rfl
  · refine iff_of_false (fun e => ?_) fun e => ?_
    · rcases h.left with ⟨l, -⟩ | ⟨l, -⟩ <;> exact absurd (l.symm.trans e) (by decide)
    · rcases h.found with l | ⟨l, -⟩ <;> exact absurd (l.symm.trans e) (by decide)

/-! ### What a pass leaves (R151, R152) -/

/-- What the gate array's work does: slots move by their permits, and all but the gate array, the rises told and the
notices is as it was. -/
structure Gated (s t : State) : Prop where
  slots : ∀ k, (s.slot k).Moved (t.slot k)
  rest : { t with gate := s.gate, slots := s.slots, auxRises := s.auxRises, link := s.link } = s
  core : t.link.core = s.link.core
  flags : ∀ i : Fin 10, s.link.flags[i] = true → t.link.flags[i] = true

theorem Gated.refl (s : State) : Gated s s := ⟨fun _ => .refl _, rfl, rfl, fun _ => id⟩

theorem Gated.trans (h : Gated s t) (g : Gated t u) : Gated s u := by
  refine ⟨fun k => (h.slots k).trans (g.slots k), ?_, g.core.trans h.core, fun i => g.flags i ∘ h.flags i⟩
  have := congrArg (fun u : State =>
    { u with gate := s.gate, slots := s.slots, auxRises := s.auxRises, link := s.link }) g.rest
  exact (this : _ = _).trans h.rest

theorem Gated.lanes (h : Gated s t) : t.lanes = s.lanes := (congrArg State.lanes h.rest :)
theorem Gated.arb (h : Gated s t) : t.arb = s.arb := (congrArg State.arb h.rest :)
theorem Gated.sweep (h : Gated s t) : t.sweep = s.sweep := (congrArg State.sweep h.rest :)
theorem Gated.router (h : Gated s t) : t.router = s.router := (congrArg State.router h.rest :)
theorem Gated.schedule (h : Gated s t) : t.schedule = s.schedule := (congrArg State.schedule h.rest :)
theorem Gated.services (h : Gated s t) : t.services = s.services := (congrArg State.services h.rest :)
theorem Gated.carriers (h : Gated s t) : t.carriers = s.carriers := (congrArg State.carriers h.rest :)
theorem Gated.clock (h : Gated s t) : t.clock = s.clock := (congrArg State.clock h.rest :)
theorem Gated.mode (h : Gated s t) : t.mode = s.mode := (congrArg State.mode h.rest :)
theorem Gated.out (h : Gated s t) : t.out = s.out := (congrArg State.out h.rest :)
theorem Gated.guide (h : Gated s t) : t.guide = s.guide := (congrArg State.guide h.rest :)
theorem Gated.parental (h : Gated s t) : t.parental = s.parental := (congrArg State.parental h.rest :)
theorem Gated.access (h : Gated s t) : t.access = s.access := (congrArg State.access h.rest :)
theorem Gated.restarting (h : Gated s t) : t.restarting = s.restarting := (congrArg State.restarting h.rest :)
theorem Gated.lane (h : Gated s t) (l : Fin 3) : t.lane l = s.lane l := by unfold State.lane; rw [h.lanes]
theorem Gated.entry (h : Gated s t) (n : Fin 24) : t.entry n = s.entry n := by unfold State.entry; rw [h.schedule]

/-- What a slot's lane and origin give the gate array is what they gave (R148). -/
theorem Gated.laneFacts (h : Gated s t) (k : Fin 5) :
    t.slotLocked k = s.slotLocked k ∧ t.slotSignalOk k = s.slotSignalOk k := by
  unfold State.slotLocked State.slotSignalOk
  rw [(h.slots k).lane]
  constructor <;> exact congrArg (fun f => Option.any f _) (funext fun l => by rw [h.lane])

theorem gated_raise (x : NoticeKind) (sub : Option Nat) (b : List Byte) (s : State) : Gated s (s.raise x sub b) := by
  refine ⟨fun k => by rw [slot_raise]; exact .refl _, ?_, raise_core .., fun i hi => ?_⟩
  · rw [raise_frame]
  · have := ((Flow.refl none s).raise x sub b).flags i hi
    exact this

theorem gated_permitChange (k : Fin 5) (v : Bool) (s : State) : Gated s (permitChange k v s) := by
  rw [permitChange_eq]
  split
  · exact .refl s
  · unfold State.slotNotice
    refine Gated.trans ?_ (gated_raise ..)
    refine ⟨fun j => ?_, rfl, rfl, fun _ => id⟩
    rw [slot_modSlot]
    split
    · rename_i e
      subst e
      exact Slot.moved_permitted ..
    · exact .refl _

theorem gated_auxChange (n : Fin 8) (v : Bool) (s : State) : Gated s (auxChange n v s) := by
  unfold auxChange
  rw [tellRise_eq]
  dsimp only
  split
  · refine Gated.trans ?_ (gated_raise ..)
    exact ⟨fun _ => .refl _, rfl, rfl, fun _ => id⟩
  · exact ⟨fun _ => .refl _, rfl, rfl, fun _ => id⟩

theorem gated_handOver (chs : List (Fin 8 × Bool)) (s : State) : Gated s (forEach chs handOverChange s) := by
  refine forEach_keeps (P := Gated s) (fun c _ u hu => hu.trans ?_) (.refl s)
  unfold handOverChange
  split
  · exact gated_permitChange ..
  · exact gated_auxChange ..

theorem gated_setGate (g : Gate) (s : State) : Gated s { s with gate := g } := ⟨fun _ => .refl _, rfl, rfl, fun _ => id⟩

theorem gated_pass (marks : List (Fin 8)) (s : State) : Gated s (gatePass marks s) := by
  unfold gatePass
  exact (gated_setGate _ s).trans (gated_handOver _ _)

/-- A report to the gate array is the gate array's work (R149). -/
theorem gated_report (chs : List Change) (s : State) : Gated s (gateReport chs s) := by
  unfold gateReport
  dsimp only
  split
  · exact .refl s
  · exact (gated_setGate _ s).trans (gated_pass _ _)

/-! ### The sources after a report (R148, R149) -/

theorem gateReport_src (chs : List Change) (s : State) : (gateReport chs s).gate.src = (s.reported chs).src :=
  (gateReport_keeps chs s).2.1

/-- Whether a source has a place among a slot's sources (R148). -/
def Source.bound : Source → Bool
  | .locked | .signalOk | .entitled | .preview | .ratingOk | .windowOk | .allowanceLeft | .parentalOk | .unlocked
  | .scheduled => true
  | _ => false

theorem SlotSources.get_put_same {src : Source} (h : src.bound = true) (x : SlotSources) (v : Bool) :
    (x.put src v).get src = v := by
  cases src <;> first | rfl | cases h

/-- A change names a source of a slot. -/
def Change.names (k : Fin 5) (src : Source) (c : Change) : Prop := ∃ v, c = .slot k src v

theorem takeChange_src_apart (g : Gate) {c : Change} {k : Fin 5} (h : ∀ src, ¬ c.names k src) :
    (g.takeChange c).src[k] = g.src[k] := by
  cases c with
  | standby v => rfl
  | slot j src v =>
    have hj : (j : Nat) ≠ k := fun e => h src ⟨v, by rw [Fin.ext e]⟩
    simp [Gate.takeChange, hj]

theorem takeChange_get_apart (g : Gate) {c : Change} {k : Fin 5} {src : Source} (h : ¬ c.names k src) :
    ((g.takeChange c).src[k]).get src = (g.src[k]).get src := by
  cases c with
  | standby v => rfl
  | slot j of v =>
    by_cases e : j = k
    · subst e
      have : src ≠ of := fun e => h ⟨v, by rw [e]⟩
      simp [Gate.takeChange, SlotSources.get_put_ne this]
    · have hj : (j : Nat) ≠ k := fun h => e (Fin.ext h)
      simp [Gate.takeChange, hj]

theorem takeChange_get_same (g : Gate) (k : Fin 5) {src : Source} (v : Bool) (h : src.bound = true) :
    ((g.takeChange (.slot k src v)).src[k]).get src = v := by
  simp [Gate.takeChange, SlotSources.get_put_same h]

/-- A report that names no source of a slot leaves them all (R149). -/
theorem gateReport_src_apart {chs : List Change} {k : Fin 5} (h : ∀ c ∈ chs, ∀ src, ¬ c.names k src) (s : State) :
    (gateReport chs s).gate.src[k] = s.gate.src[k] := by
  rw [gateReport_src]
  refine List.foldlRecOn _ _ (motive := fun g : Gate => g.src[k] = s.gate.src[k]) rfl fun g hg c hc => ?_
  rw [takeChange_src_apart g (h c (List.mem_filter.1 hc).1)]
  exact hg

theorem takeChanges_get {chs : List Change} {k : Fin 5} {src : Source} {v : Bool} (hb : src.bound = true)
    (one : ∀ c ∈ chs, c.names k src → c = .slot k src v) (g : Gate)
    (some : Change.slot k src v ∈ chs ∨ (g.src[k]).get src = v) :
    (((chs.foldl Gate.takeChange g).src[k]).get src) = v := by
  induction chs generalizing g with
  | nil => exact some.resolve_left (by simp)
  | cons c chs ih =>
    refine ih (fun d hd => one d (List.mem_cons_of_mem _ hd)) _ ?_
    by_cases hc : c.names k src
    · rw [one c (by simp) hc]
      exact .inr (takeChange_get_same g k v hb)
    · rcases some with h | h
      · exact .inl ((List.mem_cons.1 h).resolve_left fun e => hc ⟨v, e.symm⟩)
      · exact .inr ((takeChange_get_apart g hc).trans h)

/-- A source that a report gives a value has it after (R149). -/
theorem gateReport_get {chs : List Change} {k : Fin 5} {src : Source} {v : Bool} (hb : src.bound = true)
    (one : ∀ c ∈ chs, c.names k src → c = .slot k src v) (mem : .slot k src v ∈ chs) (s : State) :
    ((gateReport chs s).gate.src[k]).get src = v := by
  rw [gateReport_src]
  refine takeChanges_get hb (fun c hc => one c (List.mem_filter.1 hc).1) _ ?_
  by_cases h : (s.gate.src[k]).get src = v
  · exact .inr h
  · exact .inl (List.mem_filter.2 ⟨mem, by simpa [Gate.already] using h⟩)

/-- A source that a report does not name is left (R149). -/
theorem gateReport_get_apart {chs : List Change} {k : Fin 5} {src : Source} (h : ∀ c ∈ chs, ¬ c.names k src) (s : State) :
    ((gateReport chs s).gate.src[k]).get src = (s.gate.src[k]).get src := by
  rw [gateReport_src]
  refine List.foldlRecOn _ _ (motive := fun g : Gate => (g.src[k]).get src = (s.gate.src[k]).get src) rfl
    fun g hg c hc => ?_
  rw [takeChange_get_apart g (h c (List.mem_filter.1 hc).1)]
  exact hg

/-! ### What follows a slot's lane and origin (R148, R149) -/

/-- The three sources that follow a slot's lane and origin, of those a slot has. -/
def SlotSources.ofLane (x : SlotSources) : Bool × Bool × Bool := (x.locked, x.signalOk, x.scheduled)

/-- What the gate array's table says of a slot's lane and origin (R148). -/
def State.laneSays (s : State) (k : Fin 5) : Bool × Bool × Bool :=
  (s.slotLocked k, s.slotSignalOk k, (s.slot k).origin != .user)

theorem isLocked_iff (x : Lane) : x.isLocked = true ↔ x.state = .locked := by
  unfold Lane.isLocked
  exact beq_iff_eq

theorem signalOk_iff (x : Lane) :
    x.signalOk = true ↔ x.state = .locked ∧ (x.grade = some .good ∨ x.grade = some .marginal) := by
  unfold Lane.signalOk Lane.isLocked
  simp

theorem laneTold_iff (k : Fin 5) : s.laneTold k ↔ (s.gate.src[k]).ofLane = s.laneSays k := by
  have h1 : s.slotLocked k = true ↔ ∃ l, (s.slot k).lane = some l ∧ (s.lane l).state = .locked := by
    simp [State.slotLocked, isLocked_iff, Option.any_eq_true]
  have h2 : s.slotSignalOk k = true ↔ ∃ l, (s.slot k).lane = some l ∧ (s.lane l).state = .locked
      ∧ ((s.lane l).grade = some .good ∨ (s.lane l).grade = some .marginal) := by
    simp [State.slotSignalOk, signalOk_iff, Option.any_eq_true]
  have h3 : ((s.slot k).origin != .user) = true ↔ ∃ n, (s.slot k).origin = .schedule n := by
    cases (s.slot k).origin <;> simp
  unfold SlotSources.ofLane State.laneSays
  rw [Prod.mk.injEq, Prod.mk.injEq]
  constructor
  · rintro ⟨a, b, c⟩
    exact ⟨Bool.eq_iff_iff.2 (a.trans h1.symm), Bool.eq_iff_iff.2 (b.trans h2.symm),
      Bool.eq_iff_iff.2 (c.trans h3.symm)⟩
  · rintro ⟨a, b, c⟩
    exact ⟨(Bool.eq_iff_iff.1 a).trans h1, (Bool.eq_iff_iff.1 b).trans h2, (Bool.eq_iff_iff.1 c).trans h3⟩

/-- What the gate array's work leaves a slot's lane and origin to say. -/
theorem Gated.laneSays (h : Gated s t) (k : Fin 5) : t.laneSays k = s.laneSays k := by
  unfold State.laneSays
  rw [(h.laneFacts k).1, (h.laneFacts k).2, (h.slots k).origin]

theorem gated_syncSlots (ks : List (Fin 5)) (s : State) : Gated s (syncSlots ks s) := gated_report _ s

theorem gated_setEntitled (k : Fin 5) (e p : Bool) (s : State) : Gated s (setEntitled k e p s) := gated_report _ s

theorem syncSlots_src_apart {ks : List (Fin 5)} {k : Fin 5} (h : k ∉ ks) (s : State) :
    (syncSlots ks s).gate.src[k] = s.gate.src[k] := by
  refine gateReport_src_apart (fun c hc src => ?_) s
  rintro ⟨v, rfl⟩
  obtain ⟨j, hj, hc⟩ := List.mem_flatMap.1 hc
  simp only [List.mem_cons, Change.slot.injEq, List.not_mem_nil, or_false] at hc
  rcases hc with ⟨rfl, -, -⟩ | ⟨rfl, -, -⟩ | ⟨rfl, -, -⟩ <;> exact h hj

/-- LOCKED, SIGNAL_OK and SCHEDULED of a slot reported follow its lane and origin (R148, R149). -/
theorem syncSlots_ofLane {ks : List (Fin 5)} {k : Fin 5} (h : k ∈ ks) (s : State) :
    ((syncSlots ks s).gate.src[k]).ofLane = s.laneSays k := by
  have val : ∀ src v, (.slot k src v : Change) ∈ ([.slot k .locked (s.slotLocked k),
        .slot k .signalOk (s.slotSignalOk k), .slot k .scheduled ((s.slot k).origin != .user)] : List Change) →
      src.bound = true → ((syncSlots ks s).gate.src[k]).get src = v := by
    intro src v hm hb
    refine gateReport_get hb (fun c hc => ?_) (List.mem_flatMap.2 ⟨k, h, hm⟩) s
    rintro ⟨w, rfl⟩
    obtain ⟨j, hj, hc⟩ := List.mem_flatMap.1 hc
    simp only [List.mem_cons, Change.slot.injEq, List.not_mem_nil, or_false] at hc hm ⊢
    refine ⟨trivial, trivial, ?_⟩
    rcases hc with ⟨rfl, rfl, rfl⟩ | ⟨rfl, rfl, rfl⟩ | ⟨rfl, rfl, rfl⟩ <;> simp at hm <;> exact hm.symm
  unfold SlotSources.ofLane State.laneSays
  rw [Prod.mk.injEq, Prod.mk.injEq]
  exact ⟨val .locked _ (by simp) rfl, val .signalOk _ (by simp) rfl, val .scheduled _ (by simp) rfl⟩

theorem laneTold_syncSlots {ks : List (Fin 5)} {k : Fin 5} (h : k ∈ ks) (s : State) : (syncSlots ks s).laneTold k := by
  rw [laneTold_iff, syncSlots_ofLane h, (gated_syncSlots ks s).laneSays]

/-- A report of the access unit's conditions of one slot (R84, R149). -/
theorem setEntitled_src_apart {j k : Fin 5} (h : j ≠ k) (e p : Bool) (s : State) :
    (setEntitled j e p s).gate.src[k] = s.gate.src[k] := by
  refine gateReport_src_apart (fun c hc src => ?_) s
  rintro ⟨v, rfl⟩
  simp only [List.flatMap_cons, List.flatMap_nil, List.append_nil, List.mem_cons, Change.slot.injEq, List.not_mem_nil,
    or_false] at hc
  rcases hc with ⟨e, -, -⟩ | ⟨e, -, -⟩ <;> exact h e.symm

theorem setEntitled_get_apart (j k : Fin 5) (e p : Bool) {src : Source} (h : src ≠ .entitled ∧ src ≠ .preview)
    (s : State) : ((setEntitled j e p s).gate.src[k]).get src = (s.gate.src[k]).get src := by
  refine gateReport_get_apart (fun c hc => ?_) s
  rintro ⟨v, rfl⟩
  simp only [List.flatMap_cons, List.flatMap_nil, List.append_nil, List.mem_cons, Change.slot.injEq, List.not_mem_nil,
    or_false] at hc
  rcases hc with ⟨-, e, -⟩ | ⟨-, e, -⟩
  · exact h.1 e
  · exact h.2 e

theorem setEntitled_ofLane (j k : Fin 5) (e p : Bool) (s : State) :
    ((setEntitled j e p s).gate.src[k]).ofLane = (s.gate.src[k]).ofLane := by
  unfold SlotSources.ofLane
  rw [Prod.mk.injEq, Prod.mk.injEq]
  exact ⟨setEntitled_get_apart j k e p (src := .locked) (by decide) s,
    setEntitled_get_apart j k e p (src := .signalOk) (by decide) s,
    setEntitled_get_apart j k e p (src := .scheduled) (by decide) s⟩

theorem setEntitled_entitled (k : Fin 5) (e p : Bool) (s : State) :
    ((setEntitled k e p s).gate.src[k]).entitled = e := by
  refine gateReport_get (src := .entitled) rfl (fun c hc => ?_) (by simp) s
  rintro ⟨v, rfl⟩
  simpa using hc

end Sys2Proof.Machine
end

