-- ==== Sys2Proof/Proofs/P7.lean ====
section
/-! SUPPORT. A slot that the arbiter's work is none of: it is out of the queue, it neither presents nor waits for its
permit, and its lane, if it has one, seeks. Whatever lanes are released, granted, preempted or swept for others, its
record, its lane, its sources and its place in the filter table stay (R48 to R54, R118, R119). -/

namespace Sys2Proof.Machine

open Sys2Proof

variable {k : Fin 5} {s t u : State}

/-- No filter entry names a slot (R56). -/
def State.unlisted (s : State) (k : Fin 5) : Prop := ∀ f ∈ s.router.filters, ∀ ks, f.dest = .slots ks → k ∉ ks

/-- A slot that no report, release or grant of another's is about. -/
structure State.rests (s : State) (k : Fin 5) : Prop where
  unqueued : s.unqueued k
  dark : (s.slot k).state ≠ .presenting
  unheld : (s.slot k).state ≠ .held
  seeks : ∀ l, (s.slot k).lane = some l → (s.lane l).state = .seeking

/-- The arbiter's work for others leaves a slot that rests. -/
structure Spares (k : Fin 5) (s t : State) : Prop where
  rests : t.rests k
  slot : t.slot k = s.slot k
  lane : ∀ l, (s.slot k).lane = some l → t.lane l = s.lane l
  src : t.gate.src[k] = s.gate.src[k]
  unlisted : s.unlisted k → t.unlisted k
  schedule : t.schedule = s.schedule

theorem Spares.refl (h : s.rests k) : Spares k s s := ⟨h, rfl, fun _ _ => rfl, rfl, id, rfl⟩

theorem Spares.trans (h : Spares k s t) (g : Spares k t u) : Spares k s u :=
  ⟨g.rests, g.slot.trans h.slot, fun l hl => (g.lane l (h.slot ▸ hl)).trans (h.lane l hl), g.src.trans h.src,
    g.unlisted ∘ h.unlisted, g.schedule.trans h.schedule⟩

theorem State.rests.congr (h : s.rests k) (queue : s.unqueued k → t.unqueued k) (slot : t.slot k = s.slot k)
    (lane : ∀ l, (s.slot k).lane = some l → t.lane l = s.lane l) : t.rests k :=
  ⟨queue h.unqueued, slot ▸ h.dark, slot ▸ h.unheld, fun l hl => by
    rw [slot] at hl
    rw [lane l hl]
    exact h.seeks l hl⟩

/-- One change after others, none of them a resting slot's. -/
theorem Spares.step (h : Spares k s t) (queue : t.unqueued k → u.unqueued k) (slot : u.slot k = t.slot k)
    (lane : ∀ l, (t.slot k).lane = some l → u.lane l = t.lane l) (src : u.gate.src[k] = t.gate.src[k])
    (unlisted : t.unlisted k → u.unlisted k) (schedule : u.schedule = t.schedule) : Spares k s u :=
  h.trans ⟨h.rests.congr queue slot lane, slot, lane, src, unlisted, schedule⟩

/-! ### The single changes -/

theorem Spares.modSlot {j : Fin 5} (hj : j ≠ k) (f : Slot → Slot) (h : Spares k s t) : Spares k s (t.modSlot j f) :=
  h.step id (slot_modSlot_ne hj f t) (fun _ _ => rfl) rfl id rfl

theorem Spares.modLane {l : Fin 3} (hl : (t.slot k).lane ≠ some l) (f : Lane → Lane) (h : Spares k s t) :
    Spares k s (t.modLane l f) :=
  h.step id rfl (fun m hm => lane_modLane_ne (fun e => hl (by rw [hm, e])) f t) rfl id rfl

theorem Spares.modSweep (f : Sweep → Sweep) (h : Spares k s t) : Spares k s (t.modSweep f) :=
  h.step id rfl (fun _ _ => rfl) rfl id rfl

theorem Spares.emit (o : PortOut) (h : Spares k s t) : Spares k s (t.emit o) :=
  h.step id rfl (fun _ _ => rfl) rfl id rfl

theorem Spares.raise (x : NoticeKind) (sub : Option Nat) (b : List Byte) (h : Spares k s t) :
    Spares k s (t.raise x sub b) := by
  refine h.step (fun q => ?_) (slot_raise ..) (fun _ _ => lane_raise ..) ?_ (fun q => ?_) (raise_schedule ..)
  · unfold State.unqueued
    rwa [raise_arb]
  · rw [raise_gate]
  · unfold State.unlisted
    rwa [raise_router]

theorem Spares.modArb (f : Arbiter → Arbiter) (hf : ∀ w ∈ (f t.arb).queue, w ∈ t.arb.queue ∨ w.claimant ≠ .slot k)
    (h : Spares k s t) : Spares k s (t.modArb f) :=
  h.step (fun q w hw => (hf w hw).elim (q w) id) rfl (fun _ _ => rfl) rfl id rfl

theorem Spares.modRouter (f : Router → Router) (hf : t.unlisted k → (t.modRouter f).unlisted k) (h : Spares k s t) :
    Spares k s (t.modRouter f) := h.step id rfl (fun _ _ => rfl) rfl hf rfl

/-- The gate array's work, where no source of the slot is told. -/
theorem Spares.gated (g : Gated t u) (src : u.gate.src[k] = t.gate.src[k]) (h : Spares k s t) : Spares k s u := by
  refine h.step (fun q => ?_) ((g.slots k).eq_of h.rests.dark h.rests.unheld) (fun l _ => g.lane l) src (fun q => ?_)
    g.schedule
  · unfold State.unqueued
    rwa [g.arb]
  · unfold State.unlisted
    rwa [g.router]

theorem Spares.syncSlots {ks : List (Fin 5)} (hk : k ∉ ks) (h : Spares k s t) : Spares k s (syncSlots ks t) :=
  h.gated (gated_syncSlots ks t) (syncSlots_src_apart hk t)

theorem Spares.setEntitled {j : Fin 5} (hj : j ≠ k) (e p : Bool) (h : Spares k s t) :
    Spares k s (setEntitled j e p t) := h.gated (gated_setEntitled j e p t) (setEntitled_src_apart hj e p t)

theorem Spares.forEach {α : Type} {l : List α} {f : α → State → State}
    (hf : ∀ a ∈ l, ∀ u, Spares k s u → Spares k s (f a u)) (h : Spares k s t) : Spares k s (forEach l f t) :=
  forEach_keeps (P := Spares k s) hf h

theorem Spares.arbSame (f : Arbiter → Arbiter) (hf : (f t.arb).queue = t.arb.queue) (h : Spares k s t) :
    Spares k s (t.modArb f) := h.modArb f fun _ hw => .inl (hf ▸ hw)

theorem Spares.dequeue (c : Claimant) (h : Spares k s t) : Spares k s (t.modArb (Arbiter.dequeue c)) :=
  h.modArb _ fun _ hw => .inl (List.mem_filter.1 hw).1

theorem Spares.enqueue {w : Waiter} (hw : w.claimant ≠ .slot k) (h : Spares k s t) :
    Spares k s (t.modArb (Arbiter.enqueue w)) :=
  h.modArb _ fun v hv => by
    rcases mem_insertBy.1 hv with rfl | hv
    · exact .inr hw
    · exact .inl hv

/-! ### The filter table (R56, R57) -/

theorem unlisted_keyPut {fs : List Filter} {g : Filter} (hg : ∀ ks, g.dest = .slots ks → k ∉ ks)
    (h : ∀ f ∈ fs, ∀ ks, f.dest = .slots ks → k ∉ ks) : ∀ f ∈ keyPut Filter.key g fs, ∀ ks, f.dest = .slots ks → k ∉ ks :=
  fun f hf ks hd => by
    rcases mem_keyPut hf with rfl | hf
    · exact hg ks hd
    · exact h f hf ks hd

theorem mem_addSlot {j i : Fin 5} {ks : List (Fin 5)} (h : i ∈ addSlot j ks) : i = j ∨ i ∈ ks := by
  unfold addSlot at h
  split at h
  · exact .inr h
  · exact mem_insertBy.1 h

theorem unlisted_installTag {j : Fin 5} (hj : j ≠ k) (l : Fin 3) (tag : Nat) {r : Router}
    (h : ∀ f ∈ r.filters, ∀ ks, f.dest = .slots ks → k ∉ ks) :
    ∀ f ∈ (r.installTag j l tag).filters, ∀ ks, f.dest = .slots ks → k ∉ ks := by
  unfold Router.installTag
  split
  · rename_i ks _ hfind
    refine unlisted_keyPut (fun is hd hk => ?_) h
    cases hd
    rcases mem_addSlot hk with e | hk
    · exact hj e.symm
    · exact h _ (keyFind_some hfind).1 _ rfl hk
  · refine unlisted_keyPut (fun is hd hk => ?_) h
    cases hd
    exact hj (List.mem_singleton.1 hk).symm

theorem unlisted_installTags {j : Fin 5} (hj : j ≠ k) (l : Fin 3) (tags : List Nat) {r : Router}
    (h : ∀ f ∈ r.filters, ∀ ks, f.dest = .slots ks → k ∉ ks) :
    ∀ f ∈ (tags.foldl (fun r t => r.installTag j l t) r).filters, ∀ ks, f.dest = .slots ks → k ∉ ks := by
  induction tags generalizing r with
  | nil => exact h
  | cons t tags ih => exact ih (unlisted_installTag hj l t h)

theorem unlisted_removeSlot (j : Fin 5) (kept : List Nat) {r : Router}
    (h : ∀ f ∈ r.filters, ∀ ks, f.dest = .slots ks → k ∉ ks) :
    ∀ f ∈ (r.removeSlot j kept).filters, ∀ ks, f.dest = .slots ks → k ∉ ks := by
  intro g hg ks hd hk
  obtain ⟨f, hf, hfg⟩ := List.mem_filterMap.1 hg
  have of : (some f = some g ∨ f.without j = some g) := by
    split at hfg
    · exact .inl hfg
    · exact .inr hfg
  rcases of with e | e
  · cases e
    exact h _ hf ks hd hk
  · unfold Filter.without at e
    split at e
    · cases e
      exact h _ hf ks hd hk
    · rename_i is hi
      dsimp only at e
      split at e
      · cases e
      · cases e
        cases hd
        exact h _ hf is hi (List.mem_filter.1 hk).1

/-- A slot that leaves its filters is in none. -/
theorem unlisted_removed (k : Fin 5) (r : Router) :
    ∀ f ∈ (r.removeSlot k []).filters, ∀ ks, f.dest = .slots ks → k ∉ ks := by
  intro g hg ks hd hk
  obtain ⟨f, hf, hfg⟩ := List.mem_filterMap.1 hg
  simp only [List.contains_nil, Bool.false_eq_true, if_false] at hfg
  unfold Filter.without at hfg
  split at hfg
  · rename_i c hc
    cases hfg
    exact absurd (hc.symm.trans hd) (by simp)
  · dsimp only at hfg
    split at hfg
    · cases hfg
    · cases hfg
      cases hd
      simp at hk

theorem Spares.installSlot {j : Fin 5} (hj : j ≠ k) (h : Spares k s t) : Spares k s (installSlot j t) := by
  unfold Machine.installSlot
  split
  · exact h
  · exact h.modRouter _ (unlisted_installTags hj _ _)

theorem Spares.dropFilters {j : Fin 5} (hj : j ≠ k) (h : Spares k s t) : Spares k s (dropFilters j t) :=
  (h.modRouter _ (unlisted_removeSlot j [])).modSlot hj _

theorem Spares.removeControl (l : Fin 3) (h : Spares k s t) : Spares k s (t.modRouter (Router.removeControl l)) :=
  h.modRouter _ fun q f hf => q f (List.mem_filter.1 hf).1

theorem Spares.reportLeft {j : Fin 5} (hj : j ≠ k) (h : Spares k s t) : Spares k s (reportLeft j t) :=
  (h.syncSlots (by simpa using hj.symm)).setEntitled hj _ _

/-! ### Other slots on their lanes (R13 to R16, R22) -/

theorem Spares.enterPresenting {j : Fin 5} (hj : j ≠ k) (h : Spares k s t) : Spares k s (enterPresenting j t) :=
  (h.modSlot hj _).raise ..

theorem Spares.enterHeld {j : Fin 5} (r : Reason) (hj : j ≠ k) (h : Spares k s t) : Spares k s (enterHeld r j t) :=
  (h.modSlot hj _).raise ..

theorem Spares.chooseByPermit {j : Fin 5} (hj : j ≠ k) (h : Spares k s t) : Spares k s (chooseByPermit j t) := by
  unfold Machine.chooseByPermit
  split
  · exact h.enterPresenting hj
  · exact h.enterHeld _ hj

theorem Spares.enterAcquiring {j : Fin 5} (hj : j ≠ k) (h : Spares k s t) : Spares k s (enterAcquiring j t) := by
  unfold Machine.enterAcquiring
  dsimp only
  split
  · exact (((h.modSlot hj _).installSlot hj).setEntitled hj _ _).chooseByPermit hj
  · exact ((h.modSlot hj _).installSlot hj).modSlot hj _

theorem Spares.joinSlot {j : Fin 5} (hj : j ≠ k) (l : Fin 3) (h : Spares k s t) : Spares k s (joinSlot j l t) := by
  have hk : k ∉ [j] := by simpa using hj.symm
  unfold Machine.joinSlot
  split
  · exact ((h.modSlot hj _).syncSlots hk).enterAcquiring hj
  · exact (h.modSlot hj _).syncSlots hk

theorem Spares.displaceSlot {j : Fin 5} (hj : j ≠ k) (h : Spares k s t) : Spares k s (displaceSlot j t) :=
  ((((h.dropFilters hj).modSlot hj _).enqueue fun e => hj (by simpa using e)).reportLeft hj).raise ..

/-! ### Lanes (R36, R49, R52) -/

theorem Spares.startSeek {l : Fin 3} (hl : (t.slot k).lane ≠ some l) (c : Nat) (h : Spares k s t) :
    Spares k s (startSeek l c t) := by
  unfold Machine.startSeek
  refine Spares.syncSlots (fun hk => hl ?_) (Spares.emit _ (Spares.modLane ?_ _ (h.removeControl l)))
  · exact mem_slotUsers.1 hk
  · exact hl

/-- A resting slot's lane is not IDLE. -/
theorem Spares.not_on_idle (h : Spares k s t) {l : Fin 3} (hl : t.idleLane = some l) : (t.slot k).lane ≠ some l :=
  fun e => absurd ((h.rests.seeks l e).symm.trans (idleLane_spec hl)) (by decide)

theorem Spares.grantTo {c : Claimant} (hc : c ≠ .slot k) (l : Fin 3) (h : Spares k s t) : Spares k s (grantTo c l t) := by
  unfold Machine.grantTo
  cases c with
  | slot j => exact (h.dequeue _).joinSlot (fun e => hc (by rw [e])) l
  | home => exact (h.dequeue _).arbSame _ rfl

theorem Spares.joinWaiters (f : Waiter → Bool) (h : Spares k s t) : Spares k s (joinWaiters f t) := by
  unfold Machine.joinWaiters
  refine h.forEach fun w hw u hu => ?_
  split
  · split
    · exact hu.grantTo (h.rests.unqueued w hw) _
    · exact hu
  · exact hu

theorem Spares.giveLane {c : Claimant} {l : Fin 3} (hc : c ≠ .slot k) (hl : (t.slot k).lane ≠ some l) (n : Nat)
    (h : Spares k s t) : Spares k s (giveLane c n l t) := ((h.startSeek hl n).grantTo hc l).joinWaiters _

/-! ### The sweep (R118, R119) -/

theorem Spares.sweepWaiting (b : Bool) (h : Spares k s t) : Spares k s (t.modArb fun a => { a with sweepWaiting := b }) :=
  h.arbSame _ rfl

theorem Spares.startDwell (h : Spares k s t) : Spares k s t.startDwell := by
  unfold State.startDwell
  split
  · exact h
  · exact h.modSweep _

theorem Spares.sweepPause (c : PauseCause) (h : Spares k s t) : Spares k s (sweepPause c t) :=
  (h.modSweep _).sweepWaiting _

theorem Spares.sweepAdvance (h : Spares k s t) : Spares k s (sweepAdvance t) := by
  unfold Machine.sweepAdvance
  dsimp only
  split
  · exact h.modSweep _
  · exact (h.modSweep _).raise ..
  · exact (h.modSweep _).sweepPause _

theorem Spares.sweepClaim (n : Nat) (h : Spares k s t) : Spares k s (sweepClaim n t) := by
  induction n generalizing t with
  | zero => exact h
  | succ n ih =>
    unfold Machine.sweepClaim
    split
    · exact h
    · split
      · dsimp only
        split
        · exact (((h.modSweep _).modSweep _).sweepPause _).startDwell
        · exact ih (h.modSweep _).sweepAdvance
      · split
        · rename_i l _ hl
          refine Spares.startSeek ?_ _ ((h.modSweep _).sweepWaiting _)
          exact h.not_on_idle hl
        · exact h.sweepPause _

theorem Spares.sweepAsk (h : Spares k s t) : Spares k s (sweepAsk t) := h.sweepClaim _

/-! ### Release and the queue pass (R52) -/

theorem Spares.passGrant (h : Spares k s t) : Spares k s (passGrant t) := by
  unfold Machine.passGrant
  split
  · rename_i w _ l hq hl
    exact h.giveLane (h.rests.unqueued w (by simp [hq])) (h.not_on_idle hl) _
  · exact h

theorem Spares.passSweep (h : Spares k s t) : Spares k s (passSweep t) := by
  unfold Machine.passSweep
  split
  · exact h.sweepAsk
  · exact h

theorem Spares.passIdle (h : Spares k s t) : Spares k s (passIdle t) := by
  refine h.forEach fun l _ u hu => ?_
  split
  · exact hu.emit _
  · exact hu

theorem Spares.queuePass (h : Spares k s t) : Spares k s (queuePass t) :=
  ((h.joinWaiters _).passGrant.passGrant.passGrant).passSweep.passIdle

theorem slotUsers_of_userCount {l : Fin 3} (h : t.userCount l = 0) : (t.slot k).lane ≠ some l := fun e => by
  have : k ∈ t.slotUsers l := mem_slotUsers.2 e
  have := List.length_pos_of_mem this
  unfold State.userCount at h
  omega

theorem Spares.releaseIfEmpty (l : Fin 3) (h : Spares k s t) : Spares k s (releaseIfEmpty l t) := by
  unfold Machine.releaseIfEmpty
  split
  · rename_i hc
    refine Spares.queuePass (Spares.modLane ?_ _ (h.removeControl l))
    exact slotUsers_of_userCount hc.1
  · exact h

theorem Spares.releaseLeft (l : Option (Fin 3)) (h : Spares k s t) : Spares k s (releaseLeft l t) := by
  unfold Machine.releaseLeft
  split
  · exact h.releaseIfEmpty _
  · exact h

/-! ### Preemption and claims (R49, R50) -/

theorem Spares.displaceHome (l : Fin 3) (h : Spares k s t) : Spares k s (displaceHome l t) := by
  unfold Machine.displaceHome
  split
  · split
    · rename_i c _ _
      exact (h.enqueue (w := { claimant := .home, carrier := c }) (by simp)).arbSame
        (fun a => { a with home := .waiting }) rfl
    · exact h.arbSame _ rfl
  · exact h

theorem Spares.displaceSweep (l : Fin 3) (h : Spares k s t) : Spares k s (displaceSweep l t) := by
  unfold Machine.displaceSweep
  split
  · exact (h.modSweep _).sweepPause _
  · exact h

theorem Spares.displaceAll {l : Fin 3} (hl : (t.slot k).lane ≠ some l) (h : Spares k s t) :
    Spares k s (displaceAll l t) := by
  unfold Machine.displaceAll
  refine Spares.displaceSweep l (Spares.displaceHome l (h.forEach fun j hj u hu => hu.displaceSlot fun e => hl ?_))
  exact e ▸ mem_slotUsers.1 hj

theorem Spares.preempt {c : Claimant} {l : Fin 3} (hc : c ≠ .slot k) (hl : (t.slot k).lane ≠ some l) (n : Nat)
    (h : Spares k s t) : Spares k s (preempt c n l t) := by
  unfold Machine.preempt
  have g : Spares k s (Machine.displaceAll l t) := h.displaceAll hl
  have hl' : ((Machine.displaceAll l t).slot k).lane ≠ some l := by
    rw [g.slot, ← h.slot]
    exact hl
  refine Spares.giveLane hc ?_ n (g.modLane hl' _)
  exact hl'

/-- A lane with slots on it has a priority of 1 at least, so the home hold preempts no such lane (R48, R50). -/
theorem one_le_slotPriority (j : Fin 5) : 1 ≤ slotPriority j := by decide +revert

theorem le_foldl_max {ks : List (Fin 5)} {j : Fin 5} (h : j ∈ ks) (m : Nat) :
    slotPriority j ≤ ks.foldl (fun m k => max m (slotPriority k)) m := by
  have mono : ∀ (ks : List (Fin 5)) (m : Nat), m ≤ ks.foldl (fun m k => max m (slotPriority k)) m := by
    intro ks
    induction ks with
    | nil => exact fun m => le_refl m
    | cons i ks ih => exact fun m => (le_max_left m _).trans (ih _)
  induction ks generalizing m with
  | nil => cases h
  | cons i ks ih =>
    rcases List.mem_cons.1 h with rfl | h
    · exact (le_max_right m _).trans (mono ks _)
    · exact ih h _

theorem victim_one {l : Fin 3} (h : t.victim 1 = some l) : (t.slot k).lane ≠ some l := fun e => by
  obtain ⟨_, q, hq, hlt⟩ : (t.lane l).enabled = true ∧ ∃ q, t.lanePriority l = some q ∧ q < 1 := by
    have := victim_spec h
    simpa [Option.any_eq_true] using this
  unfold State.lanePriority at hq
  split at hq
  · cases hq
  · cases hq
    have := le_foldl_max (mem_slotUsers.2 e) 0
    have := one_le_slotPriority k
    omega

theorem Spares.homeClaim (h : Spares k s t) : Spares k s (homeClaim t) := by
  unfold Machine.homeClaim
  split
  · rename_i c _
    unfold claim
    split
    · exact h.grantTo (by simp) _
    · rename_i l _ hl
      exact h.giveLane (by simp) (h.not_on_idle hl) _
    · rename_i l _ _ hl
      exact h.preempt (by simp) (victim_one hl) _
    · exact (h.enqueue (w := { claimant := .home, carrier := c }) (by simp)).arbSame
        (fun a => { a with home := .waiting }) rfl
  · exact h

theorem Spares.homeLeave (h : Spares k s t) : Spares k s (homeLeave t) := by
  unfold Machine.homeLeave
  exact ((h.dequeue .home).arbSame (fun a => { a with home := .inactive }) rfl).releaseLeft _

theorem Spares.homeRedecide (h : Spares k s t) : Spares k s (homeRedecide t) := by
  unfold Machine.homeRedecide
  split
  · split
    · exact h.homeClaim
    · exact h
  all_goals split
  all_goals first
    | exact h
    | exact h.homeLeave
    | exact h.arbSame _ rfl
    | (split
       · dsimp only
         split
         · exact h.homeLeave.homeClaim
         · exact h.homeLeave
       · exact h)

end Sys2Proof.Machine
end

