-- ==== Sys2Proof/Proofs/P8.lean ====
section
/-! SUPPORT. A slot that enters FREE (R24), and what a request or an event leaves of the blocks' work (R184). -/

namespace Sys2Proof.Machine

open Sys2Proof

variable {k : Fin 5} {s t u w : State}

/-! ### What the answer to a request and the settling of an event leave (R184, R187) -/

theorem Served.lanes (h : Served s t) : t.lanes = s.lanes := (congrArg State.lanes h.likewise.symm :)
theorem Served.arb (h : Served s t) : t.arb = s.arb := (congrArg State.arb h.likewise.symm :)
theorem Served.gate (h : Served s t) : t.gate = s.gate := (congrArg State.gate h.likewise.symm :)
theorem Served.router (h : Served s t) : t.router = s.router := (congrArg State.router h.likewise.symm :)
theorem Served.parental (h : Served s t) : t.parental = s.parental := (congrArg State.parental h.likewise.symm :)
theorem Served.services (h : Served s t) : t.services = s.services := (congrArg State.services h.likewise.symm :)
theorem Served.mode (h : Served s t) : t.mode = s.mode := (congrArg State.mode h.likewise.symm :)
theorem Served.guide (h : Served s t) : t.guide = s.guide := (congrArg State.guide h.likewise.symm :)
theorem Served.slots (h : Served s t) : t.slots = s.slots := (congrArg State.slots h.likewise.symm :)
theorem Served.schedule (h : Served s t) : t.schedule = s.schedule := (congrArg State.schedule h.likewise.symm :)
theorem Served.slot (h : Served s t) (k : Fin 5) : t.slot k = s.slot k := by unfold State.slot; rw [h.slots]
theorem Served.lane (h : Served s t) (l : Fin 3) : t.lane l = s.lane l := by unfold State.lane; rw [h.lanes]
theorem Served.entry (h : Served s t) (n : Fin 24) : t.entry n = s.entry n := by unfold State.entry; rw [h.schedule]

theorem Served.unqueued (h : Served s t) (q : s.unqueued k) : t.unqueued k := by
  unfold State.unqueued
  rwa [h.arb]

theorem Served.unlisted (h : Served s t) (q : s.unlisted k) : t.unlisted k := by
  unfold State.unlisted
  rwa [h.router]

theorem Served.laneTold (h : Served s t) (q : s.laneTold k) : t.laneTold k := by
  obtain ⟨a, b, c⟩ := q
  constructor
  · simpa only [h.gate, h.slot, h.lane] using a
  · simpa only [h.gate, h.slot, h.lane] using b
  · simpa only [h.gate, h.slot] using c

/-- An event whose owner's rule leads to a state where no entry awaits a rise. -/
theorem served_event_quiet (f : State → State) (h : s.live) (hf : f s.clearOut = u) (hn : u.noRise) :
    Served { u with auxRises := [] } (s.event f) := by
  have := served_event f h
  rwa [hf, settle_noRise hn] at this

/-- An event of the schedule unit or of the lanes leaves the replies to the link port. -/
theorem unanswered_of_acts (f : State → State) (h : s.live) (g : Acts s.clearOut (f s.clearOut)) :
    s.unanswered (s.event f) :=
  event_unanswered f h (Acts.owned g.settle).core

theorem event_tables_of_acts (f : State → State) (h : s.live) (g : Acts s.clearOut (f s.clearOut)) :
    (s.event f).tables = s.tables := by
  rw [event_live f h, startTx_tables]
  exact tables_of_calm g.settle.calm

/-! ### The conditions of a view slot (R131, R132) -/

/-- Reports that name no source of a slot's lane or origin leave those sources. -/
theorem gateReport_ofLane {chs : List Change} {k : Fin 5}
    (h : ∀ c ∈ chs, ¬ c.names k .locked ∧ ¬ c.names k .signalOk ∧ ¬ c.names k .scheduled) (s : State) :
    ((gateReport chs s).gate.src[k]).ofLane = (s.gate.src[k]).ofLane := by
  unfold SlotSources.ofLane
  rw [Prod.mk.injEq, Prod.mk.injEq]
  exact ⟨gateReport_get_apart (src := .locked) (fun c hc => (h c hc).1) s,
    gateReport_get_apart (src := .signalOk) (fun c hc => (h c hc).2.1) s,
    gateReport_get_apart (src := .scheduled) (fun c hc => (h c hc).2.2) s⟩

/-- The gate array's work, a slot's lane and origin sources left. -/
structure Judged (k : Fin 5) (s t : State) : Prop extends Gated s t where
  ofLane : (t.gate.src[k]).ofLane = (s.gate.src[k]).ofLane

theorem Judged.refl (k : Fin 5) (s : State) : Judged k s s := ⟨.refl s, rfl⟩

theorem Judged.trans (h : Judged k s t) (g : Judged k t u) : Judged k s u :=
  ⟨h.toGated.trans g.toGated, g.ofLane.trans h.ofLane⟩

theorem Judged.laneTold (h : Judged k s t) (q : s.laneTold k) : t.laneTold k := by
  rw [laneTold_iff] at q ⊢
  rw [h.ofLane, q, h.laneSays]

/-- A source of a view slot's conditions is not one of a slot's lane or origin. -/
abbrev Source.parental (src : Source) : Prop := src ≠ .locked ∧ src ≠ .signalOk ∧ src ≠ .scheduled

theorem judged_report (k : Fin 5) {src : Source} (hs : src.parental) (f : Fin 3 → Bool) (vs : List (Fin 3)) (s : State) :
    Judged k s (gateReport (vs.map fun v => .slot (viewSlot v) src (f v)) s) := by
  refine ⟨gated_report _ s, gateReport_ofLane (fun c hc => ?_) s⟩
  obtain ⟨v, -, rfl⟩ := List.mem_map.1 hc
  refine ⟨?_, ?_, ?_⟩ <;> rintro ⟨b, e⟩ <;> cases e
  · exact hs.1 rfl
  · exact hs.2.1 rfl
  · exact hs.2.2 rfl

theorem judged_reportConditions (k : Fin 5) {told : List (Source × List (Fin 3))} (h : ∀ x ∈ told, x.1.parental)
    (s : State) : Judged k s (reportConditions told s) := by
  unfold reportConditions
  dsimp only
  refine Judged.trans (t := forEach (told.map fun x => x.2.map fun v => .slot (viewSlot v) x.1 (s.condition v x.1))
    gateReport s) ?_ ?_
  · refine forEach_keeps (P := Judged k s) (fun c hc u hu => hu.trans ?_) (.refl k s)
    obtain ⟨x, hx, rfl⟩ := List.mem_map.1 hc
    exact judged_report k (h x hx) _ _ u
  · exact judged_report k (by decide) _ _ _

theorem judged_updateRating (k j : Fin 5) (s : State) : Judged k s (updateRating j s) := by
  unfold updateRating
  split
  · refine judged_reportConditions k (fun x hx => ?_) s
    rw [List.mem_singleton.1 hx]
    exact (by decide : Source.ratingOk.parental)
  · exact .refl k s

/-! ### Unlock records (R138) -/

/-- The unlock records without a slot's. -/
def Parental.lock (k : Fin 5) (q : Parental) : Parental :=
  match asView k with
  | some v => { q with unlocks := q.unlocks.set v none }
  | none => q

theorem asView_iff {k : Fin 5} {v : Fin 3} : asView k = some v ↔ viewSlot v = k := by decide +revert

theorem Parental.lock_none (q : Parental) {v : Fin 3} (h : viewSlot v = k) : (q.lock k).unlocks[v] = none := by
  unfold Parental.lock
  rw [asView_iff.2 h]
  simp

/-- The end of an unlock record is the record gone, and the gate array's work. -/
theorem judged_endUnlock (k : Fin 5) (v : Fin 3) (s : State) :
    Judged k (s.modParental fun q => { q with unlocks := q.unlocks.set v none }) (endUnlock v s) := by
  unfold endUnlock
  split
  · rename_i hn
    have same : s.parental.unlocks.set v none = s.parental.unlocks := by
      ext1 i hi
      rw [Vector.getElem_set]
      split
      · rename_i e
        simp only [← e]
        exact hn.symm
      · rfl
    unfold State.modParental
    dsimp only
    rw [same]
    exact .refl k s
  · exact judged_report k (src := .unlocked) (by decide) (fun _ => false) [v] _

theorem judged_endUnlockOf (k j : Fin 5) (s : State) : Judged k (s.modParental (Parental.lock j)) (endUnlockOf j s) := by
  unfold endUnlockOf Parental.lock
  cases h : asView j with
  | none => exact .refl k s
  | some v => exact judged_endUnlock k v s

/-! ### What a slot's leaving reports (R84, R149) -/

theorem gated_reportLeft (k : Fin 5) (s : State) : Gated s (reportLeft k s) :=
  (gated_syncSlots _ s).trans (gated_setEntitled _ _ _ _)

theorem laneTold_reportLeft (k : Fin 5) (s : State) : (reportLeft k s).laneTold k := by
  rw [laneTold_iff]
  unfold reportLeft
  rw [setEntitled_ofLane, syncSlots_ofLane (List.mem_singleton.2 rfl), (gated_setEntitled ..).laneSays,
    (gated_syncSlots ..).laneSays]

/-! ### A slot freed (R24) -/

/-- A slot's record in FREE, its counters and profile kept (R24). -/
def Slot.freed (r : Reason) (x : Slot) : Slot :=
  { x with state := .free, reason := r, service := none, carrier := none, lane := none, origin := .user, retune := 0
           cur := none, desc := {}, keyTimer := none }

/-- A slot has left everything it was in and stands in FREE; nothing is told of it yet. -/
def State.left (s : State) (r : Reason) (k : Fin 5) : State :=
  (((s.modArb (Arbiter.dequeue (.slot k))).modRouter (Router.removeSlot k [])).modSlot k (Slot.freed r)).modParental
    (Parental.lock k)

theorem modSlot_modSlot (f g : Slot → Slot) (k : Fin 5) (s : State) :
    (s.modSlot k f).modSlot k g = s.modSlot k fun x => g (f x) := by
  unfold State.modSlot
  simp

/-- A slot freed is a slot that has left, the gate array told of it, and its lane released. -/
theorem exists_freeSlot (r : Reason) (k : Fin 5) (s : State) :
    ∃ w, Gated (s.left r k) w ∧ w.laneTold k ∧ freeSlot r k s = releaseLeft (s.slot k).lane w := by
  refine ⟨updateRating k (reportLeft k (endUnlockOf k (((s.modArb (Arbiter.dequeue (.slot k))).modRouter
    (Router.removeSlot k [])).modSlot k (Slot.freed r)))), ?_, ?_, ?_⟩
  · exact (judged_endUnlockOf k k _).toGated.trans
      ((gated_reportLeft k _).trans (judged_updateRating k k _).toGated)
  · exact (judged_updateRating k k _).laneTold (laneTold_reportLeft k _)
  · unfold freeSlot dropFilters
    dsimp only
    rw [modSlot_modSlot]
    rfl

theorem left_slot (r : Reason) (k : Fin 5) (s : State) : (s.left r k).slot k = (s.slot k).freed r := by
  unfold State.left
  simp

theorem left_rests (r : Reason) (k : Fin 5) (s : State) : (s.left r k).rests k := by
  refine ⟨fun w hw => ?_, ?_, ?_, fun l hl => ?_⟩
  · have := (List.mem_filter.1 hw).2
    simpa using this
  all_goals rw [left_slot] at *
  · exact (by decide : SlotState.free ≠ .presenting)
  · exact (by decide : SlotState.free ≠ .held)
  · cases hl

/-- A slot FREE, out of the queue and of every filter entry, without an unlock record, and its gate sources told. -/
structure State.idles (s t : State) (r : Reason) (k : Fin 5) : Prop where
  slot : t.slot k = (s.slot k).freed r
  rests : t.rests k
  unlisted : t.unlisted k
  told : t.laneTold k
  schedule : t.schedule = s.schedule
  unlock : ∀ v : Fin 3, viewSlot v = k → t.parental.unlocks[v] = none

theorem Spares.laneTold (h : Spares k s t) (q : s.laneTold k) : t.laneTold k := by
  obtain ⟨a, b, c⟩ := q
  have lane : ∀ (p : Lane → Prop), (∃ l, (t.slot k).lane = some l ∧ p (t.lane l))
      ↔ ∃ l, (s.slot k).lane = some l ∧ p (s.lane l) := fun p => by
    rw [h.slot]
    exact exists_congr fun l => and_congr_right fun e => by rw [h.lane l e]
  constructor
  · rw [h.src, lane fun x => x.state = .locked]
    exact a
  · rw [h.src, lane fun x => x.state = .locked ∧ (x.grade = some .good ∨ x.grade = some .marginal)]
    exact b
  · rw [h.src, h.slot]
    exact c

theorem idles_of_gated {r : Reason} (g : Gated (s.left r k) w) (told : w.laneTold k) : s.idles w r k := by
  have slot : w.slot k = (s.slot k).freed r := by
    rw [(g.slots k).eq_of (left_rests r k s).dark (left_rests r k s).unheld, left_slot]
  refine ⟨slot, (left_rests r k s).congr (fun q => ?_) (slot.trans (left_slot r k s).symm) (fun l _ => g.lane l), ?_, told,
    g.schedule, fun v hv => ?_⟩
  · unfold State.unqueued
    rwa [g.arb]
  · unfold State.unlisted
    rw [g.router]
    exact unlisted_removed k _
  · rw [g.parental]
    exact Parental.lock_none _ hv

theorem State.idles.spared {r : Reason} (h : s.idles w r k) (g : Spares k w t) (p : t.parental = w.parental) :
    s.idles t r k :=
  ⟨g.slot.trans h.slot, g.rests, g.unlisted h.unlisted, g.laneTold h.told, g.schedule.trans h.schedule, fun v hv => by
    rw [p]
    exact h.unlock v hv⟩

theorem Flow.parental {o : Option (Fin 5)} (h : Flow o s t) : t.parental = s.parental :=
  (congrArg State.parental h.still :)

theorem idles_freeSlot (r : Reason) (k : Fin 5) (s : State) : s.idles (freeSlot r k s) r k := by
  obtain ⟨w, gated, told, e⟩ := exists_freeSlot r k s
  rw [e]
  have idles := idles_of_gated gated told
  exact idles.spared ((Spares.refl idles.rests).releaseLeft _) ((Flow.refl none w).releaseLeft (nobody _) _).parental

theorem idles_stopSlot (k : Fin 5) (s : State) : s.idles (stopSlot k s) .stopped k := by
  have idles := idles_freeSlot .stopped k s
  exact idles.spared (Spares.refl idles.rests).homeRedecide ((Flow.refl none _).homeRedecide (nobody _)).parental

end Sys2Proof.Machine
end

