-- ==== Sys2Proof/Proofs/P9.lean ====
section
/-! SUPPORT. What the reads of the guide and the finding of current events do to lanes, the queue, the schedule's
entries, and a slot that waits without keys (R26, R27, R85, R112 to R115, R165). -/

namespace Sys2Proof.Machine

open Sys2Proof

variable {k : Fin 5} {s t u : State}

/-! ### Entries that become orphans (R165) -/

/-- An entry as the removals of damaged events leave it: its orphan flag alone can rise, and does not where no event
that it is tied to is disturbed past correction (R165). -/
structure Entry.Orphaned (ps : List Place) (e f : Entry) : Prop where
  fields : f = { e with orphan := f.orphan }
  rises : e.orphan = true → f.orphan = true
  sound : (∀ p ∈ ps, (∃ lead, e.trigger = .atEvent p.ev.sid p.ev.eid lead) → p.disturbed ≤ 1) → f = e

theorem Entry.Orphaned.refl (ps : List Place) (e : Entry) : e.Orphaned ps e := ⟨rfl, id, fun _ => rfl⟩

theorem Entry.Orphaned.trans {ps qs : List Place} {e f g : Entry} (h : e.Orphaned ps f) (i : f.Orphaned qs g)
    (sub : qs ⊆ ps) : e.Orphaned ps g := by
  refine ⟨by rw [i.fields, h.fields], i.rises ∘ h.rises, fun all => ?_⟩
  have e1 := h.sound all
  subst e1
  exact i.sound fun p hp => all p (sub hp)

/-! ### What a look at the guide leaves -/

/-- Lanes, the queue and the sweep are left; the guide only loses entries; a slot in WAIT_LANE without keys keeps its
record but for its current event, and the sources of its lane and origin; and schedule entries become orphans at most. -/
structure Looked (k : Fin 5) (s t : State) : Prop where
  lanes : t.lanes = s.lanes
  arb : t.arb = s.arb
  sweep : t.sweep = s.sweep
  router : t.router = s.router
  carriers : t.carriers = s.carriers
  clock : t.clock = s.clock
  mode : t.mode = s.mode
  sheds : t.guide.places ⊆ s.guide.places
  slot : (s.slot k).state = .waitLane → (s.slot k).desc = {} → t.slot k = { s.slot k with cur := (t.slot k).cur }
  ofLane : (t.gate.src[k]).ofLane = (s.gate.src[k]).ofLane
  entries : ∀ n, (s.entry n).Orphaned s.guide.places (t.entry n)

theorem Looked.refl (k : Fin 5) (s : State) : Looked k s s :=
  ⟨rfl, rfl, rfl, rfl, rfl, rfl, rfl, List.Subset.refl _, fun _ _ => rfl, rfl, fun _ => .refl _ _⟩

theorem Looked.trans (h : Looked k s t) (g : Looked k t u) : Looked k s u := by
  refine ⟨g.lanes.trans h.lanes, g.arb.trans h.arb, g.sweep.trans h.sweep, g.router.trans h.router,
    g.carriers.trans h.carriers, g.clock.trans h.clock, g.mode.trans h.mode, fun _ hp => h.sheds (g.sheds hp), fun w d => ?_,
    g.ofLane.trans h.ofLane, fun n => (h.entries n).trans (g.entries n) h.sheds⟩
  have e := h.slot w d
  rw [g.slot (by rw [e]; exact w) (by rw [e]; exact d), e]

theorem Judged.looked (h : Judged k s t) : Looked k s t := by
  refine ⟨h.lanes, h.arb, h.sweep, h.router, h.carriers, h.clock, h.mode, by rw [h.guide]; exact List.Subset.refl _,
    fun w _ => ?_, h.ofLane, fun n => ?_⟩
  · rw [(h.slots k).eq_of (by rw [w]; decide) (by rw [w]; decide)]
  · rw [h.entry]
    exact .refl _ _

theorem looked_raise (k : Fin 5) (x : NoticeKind) (sub : Option Nat) (b : List Byte) (s : State) :
    Looked k s (s.raise x sub b) := Judged.looked ⟨gated_raise .., by rw [raise_gate]⟩

theorem looked_setFault (k : Fin 5) (n : FaultName) (f : Faults → Faults) (s : State) : Looked k s (s.setFault n f) :=
  Looked.trans (t := s.modFaults f)
    ⟨rfl, rfl, rfl, rfl, rfl, rfl, rfl, List.Subset.refl _, fun _ _ => rfl, rfl, fun _ => .refl _ _⟩ (looked_raise ..)

theorem looked_modGuide (k : Fin 5) (f : Guide → Guide) (s : State) (h : (f s.guide).places ⊆ s.guide.places) :
    Looked k s (s.modGuide f) := ⟨rfl, rfl, rfl, rfl, rfl, rfl, rfl, h, fun _ _ => rfl, rfl, fun _ => .refl _ _⟩

theorem looked_modSlot {j : Fin 5} (f : Slot → Slot)
    (h : j = k → ∀ x, x = s.slot k → x.state = .waitLane → x.desc = {} → f x = { x with cur := (f x).cur }) : Looked k s (s.modSlot j f) := by
  refine ⟨rfl, rfl, rfl, rfl, rfl, rfl, rfl, List.Subset.refl _, fun w d => ?_, rfl, fun _ => .refl _ _⟩
  rw [slot_modSlot]
  split
  · rename_i e
    subst e
    exact h rfl _ rfl w d
  · rfl

theorem looked_setEntitled (j k : Fin 5) (e p : Bool) (s : State) : Looked k s (setEntitled j e p s) :=
  Judged.looked ⟨gated_setEntitled .., setEntitled_ofLane ..⟩

theorem looked_withdrawKeys (j k : Fin 5) (s : State) : Looked k s (withdrawKeys j s) := by
  have drop : Looked k s (s.modSlot j fun sl => { sl with desc := sl.desc.dropKeys }) :=
    looked_modSlot _ fun _ x _ _ d => by cases x; cases d; rfl
  unfold withdrawKeys
  dsimp only
  split
  · exact drop
  · split
    · rename_i hs
      refine drop.trans ((looked_modSlot _ fun e x hx w => ?_).trans
        ((looked_modSlot _ fun e x hx w => ?_).trans (looked_raise ..)))
      all_goals
        subst e hx
        simp only [slot_modSlot_same] at w
        rw [w] at hs
        exact absurd hs (by decide)
    · exact drop

theorem looked_endPreview (j k : Fin 5) (s : State) : Looked k s (endPreview j s) := by
  unfold endPreview
  split
  · exact (looked_withdrawKeys j k s).trans (looked_setEntitled ..)
  · exact .refl k s

theorem looked_updateRating (j k : Fin 5) (s : State) : Looked k s (updateRating j s) := (judged_updateRating k j s).looked

theorem looked_setCurrent (j k : Fin 5) (e : Option CurEvent) (s : State) : Looked k s (setCurrent j e s) := by
  unfold setCurrent
  split
  · exact .refl k s
  · exact (looked_modSlot _ fun _ _ _ _ _ => rfl).trans ((looked_updateRating ..).trans (looked_endPreview ..))

/-! ### Reads (R112 to R115) -/

/-- A reader looks at the guide. -/
def Reader.looks (read : Reader) : Prop := ∀ n k s, Looked k s (read n s).2

theorem looked_determineWith {read : Reader} (hr : read.looks) (j k : Fin 5) (s : State) :
    Looked k s (determineWith read j s) := by
  unfold determineWith
  split
  · split
    · rename_i p _
      have looks := hr p.num k s
      split
      · rename_i e
        rw [e] at looks
        exact looks.trans (looked_setCurrent ..)
      · rename_i e
        rw [e] at looks
        exact looks
    · exact looked_setCurrent ..
  · exact looked_setCurrent ..

theorem looked_noteCorrected (p : Place) (k : Fin 5) (s : State) : Looked k s (noteCorrected p s) := by
  unfold noteCorrected State.countCorrected State.guideSecond
  dsimp only
  split
  · exact (looked_setFault ..).trans (looked_modGuide _ _ _ (List.Subset.refl _))
  · exact (looked_setFault ..).trans (looked_setFault ..)

/-- The orphan flag that the removal of an event sets, the event disturbed past correction (R115, R165). -/
theorem orphaned_of_tied {ps : List Place} {p : Place} (hp : p ∈ ps) (lost : 1 < p.disturbed) (e : Entry) :
    e.Orphaned ps (if e.tiedTo p.ev.sid p.ev.eid then { e with orphan := true } else e) := by
  split
  · rename_i tied
    refine ⟨rfl, fun _ => rfl, fun all => absurd (all p hp ?_) (by omega)⟩
    unfold Entry.tiedTo at tied
    cases h : e.trigger with
    | atEvent a b lead =>
      rw [h] at tied
      simp only [Bool.and_eq_true, beq_iff_eq] at tied
      exact ⟨lead, by rw [tied.2.1, tied.2.2]⟩
    | atTime _ =>
      rw [h] at tied
      simp at tied
    | auxRise _ =>
      rw [h] at tied
      simp at tied
  · exact .refl ps e

theorem looked_damageWith {read : Reader} (hr : read.looks) {p : Place} (hp : p ∈ s.guide.places)
    (lost : 1 < p.disturbed) (k : Fin 5) : Looked k s (damageWith read p s) := by
  unfold damageWith State.guideLost State.guideNotice reportRemovalWith touchedWith
  dsimp only
  have removed : Looked k s (s.modGuide fun g => { Guide.remove p.num g with
      counters := { g.counters with damaged := g.counters.damaged + 1 }
      lastDamaged := some (p.ev.sid, p.ev.eid) }) :=
    looked_modGuide k _ s fun q hq => (List.mem_filter.1 hq).1
  refine Looked.trans ?_ ((looked_setFault ..).trans (looked_raise ..))
  generalize (s.modGuide fun g => { Guide.remove p.num g with
      counters := { g.counters with damaged := g.counters.damaged + 1 }
      lastDamaged := some (p.ev.sid, p.ev.eid) }) = w at removed
  have told : Looked k s (forEach (w.slotsOf p.ev.sid) (determineWith read) w) :=
    forEach_keeps (P := Looked k s) (fun j _ v hv => hv.trans (looked_determineWith hr j k v)) removed
  generalize forEach (w.slotsOf p.ev.sid) (determineWith read) w = v at told
  refine ⟨told.lanes, told.arb, told.sweep, told.router, told.carriers, told.clock, told.mode, told.sheds, told.slot,
    told.ofLane, fun n => ?_⟩
  have : (orphanEntries p.ev.sid p.ev.eid v).entry n
      = if (v.entry n).tiedTo p.ev.sid p.ev.eid then { v.entry n with orphan := true } else v.entry n := by
    exact Vector.getElem_map _ _
  rw [this]
  exact (told.entries n).trans (orphaned_of_tied hp lost _) (List.Subset.refl _)

theorem lost_of_uncorrectable {g : Guide} {p : Place} (h : g.check p = .uncorrectable) : 1 < p.disturbed := by
  unfold Guide.check at h
  split at h
  · cases h
  · split at h
    · cases h
    · split at h
      · cases h
      · omega

theorem readBound_looks (b : Nat) : Reader.looks (readBound b) := by
  induction b with
  | zero => exact fun _ k s => .refl k s
  | succ b ih =>
    intro n k s
    unfold readBound
    split
    · exact .refl k s
    · rename_i p hp
      split
      · exact .refl k s
      · exact looked_noteCorrected p k s
      · rename_i hc
        exact looked_damageWith ih (keyFind_some hp).1 (lost_of_uncorrectable hc) k

theorem readPlace_looks : Reader.looks readPlace := fun n k s => readBound_looks _ n k s

theorem looked_determine (j k : Fin 5) (s : State) : Looked k s (determine j s) := looked_determineWith readPlace_looks j k s

end Sys2Proof.Machine
end

