-- ==== Sys2Proof/Proofs/P10.lean ====
section
/-! SUPPORT. A slot that the schedule unit or the host tunes, where a lane is IDLE and none waits (R9, R13, R36, R49). -/

namespace Sys2Proof.Machine

open Sys2Proof

variable {k : Fin 5} {l : Fin 3} {c : Nat} {v : Service} {o : Origin} {s t u w : State}

/-! ### A seek started (R36) -/

/-- A lane's record at the start of a seek (R36). -/
def Lane.sought (c now : Nat) (x : Lane) : Lane :=
  { x.clear with order := x.order + 1, state := .seeking, carrier := some c, seekTimer := some (now + 1500) }

/-- A lane seeks a carrier and its tune order has gone; the gate array is not told yet. -/
def State.sought (s : State) (l : Fin 3) (c : Nat) : State :=
  ((s.modRouter (Router.removeControl l)).modLane l (Lane.sought c s.clock.uptimeMs)).emit
    (.tuneOrder l (((s.carrier? c).map (·.freq)).getD 0) ((s.lane l).order + 1))

theorem startSeek_eq (l : Fin 3) (c : Nat) (s : State) : startSeek l c s = syncSlots (s.slotUsers l) (s.sought l c) := by
  have order : ((s.modLane l (Lane.sought c s.clock.uptimeMs)).lane l).order = (s.lane l).order + 1 := by
    rw [lane_modLane]
    simp [Lane.sought]
  unfold startSeek State.sought
  rw [← order]
  rfl

theorem gated_startSeek (l : Fin 3) (c : Nat) (s : State) : Gated (s.sought l c) (startSeek l c s) := by
  rw [startSeek_eq]
  exact gated_syncSlots _ _

theorem sought_lane (l : Fin 3) (c : Nat) (s : State) : (s.sought l c).lane l = (s.lane l).sought c s.clock.uptimeMs := by
  unfold State.sought
  simp

theorem sought_lane_ne {m : Fin 3} (h : l ≠ m) (c : Nat) (s : State) : (s.sought l c).lane m = s.lane m :=
  lane_modLane_ne h _ _

theorem startSeek_lane (l : Fin 3) (c : Nat) (s : State) :
    (startSeek l c s).lane l = (s.lane l).sought c s.clock.uptimeMs :=
  ((gated_startSeek l c s).lane l).trans (sought_lane l c s)

theorem startSeek_lane_ne {m : Fin 3} (h : l ≠ m) (c : Nat) (s : State) : (startSeek l c s).lane m = s.lane m :=
  ((gated_startSeek l c s).lane m).trans (sought_lane_ne h c s)

theorem startSeek_arb (l : Fin 3) (c : Nat) (s : State) : (startSeek l c s).arb = s.arb := (gated_startSeek l c s).arb

theorem startSeek_schedule (l : Fin 3) (c : Nat) (s : State) : (startSeek l c s).schedule = s.schedule :=
  (gated_startSeek l c s).schedule

theorem startSeek_slot (l : Fin 3) (c : Nat) (s : State) (k : Fin 5) : (s.slot k).Moved ((startSeek l c s).slot k) :=
  (gated_startSeek l c s).slots k

/-! ### A slot on a lane that seeks (R13) -/

/-- A slot in another state than the two that a permit moves is left (R17). -/
theorem Slot.Moved.eq_of_state {x y : Slot} {st : SlotState} (h : x.Moved y) (e : x.state = st)
    (hp : st ≠ .presenting) (hh : st ≠ .held) : y = x := h.eq_of (e ▸ hp) (e ▸ hh)

theorem joinSlot_seeking (h : (s.lane l).state = .seeking) (k : Fin 5) :
    joinSlot k l s = syncSlots [k] (s.modSlot k fun sl => { sl with lane := some l, state := .tuning }) := by
  unfold joinSlot
  exact if_neg (by rw [isLocked_iff, h]; decide)

/-- A slot that joins a lane that seeks is TUNING on it, its sources told (R13, R149). -/
structure State.tunes (s t : State) (k : Fin 5) (l : Fin 3) : Prop where
  slot : t.slot k = { s.slot k with lane := some l, state := .tuning }
  told : t.laneTold k

theorem joinSlot_tunes (h : (s.lane l).state = .seeking) (k : Fin 5) : s.tunes (joinSlot k l s) k l := by
  rw [joinSlot_seeking h]
  refine ⟨?_, laneTold_syncSlots (List.mem_singleton.2 rfl) _⟩
  have := (gated_syncSlots [k] (s.modSlot k fun sl => { sl with lane := some l, state := .tuning })).slots k
  rw [slot_modSlot_same] at this
  exact this.eq_of_state (st := .tuning) rfl (by decide) (by decide)

theorem joinSlot_fields (h : (s.lane l).state = .seeking) (k : Fin 5) :
    (joinSlot k l s).lanes = s.lanes ∧ (joinSlot k l s).arb = s.arb ∧ (joinSlot k l s).schedule = s.schedule
      ∧ (joinSlot k l s).sweep = s.sweep ∧ (joinSlot k l s).router = s.router ∧ (joinSlot k l s).out = s.out := by
  rw [joinSlot_seeking h]
  have g := gated_syncSlots [k] (s.modSlot k fun sl => { sl with lane := some l, state := .tuning })
  exact ⟨g.lanes, g.arb, g.schedule, g.sweep, g.router, g.out⟩

theorem grantTo_slot (k : Fin 5) (l : Fin 3) (s : State) :
    grantTo (.slot k) l s = joinSlot k l (s.modArb (Arbiter.dequeue (.slot k))) := rfl

/-! ### A lane given to a slot, none waiting (R49) -/

theorem joinWaiters_nil (h : s.arb.queue = []) (f : Waiter → Bool) : joinWaiters f s = s := by
  unfold joinWaiters
  rw [h]
  rfl

/-- A slot granted a lane that now seeks its carrier, none waiting: it is TUNING there, and rests. -/
structure State.settles (s t : State) (k : Fin 5) (l : Fin 3) (c : Nat) : Prop where
  rests : t.rests k
  slot : t.slot k = { s.slot k with lane := some l, state := .tuning }
  lane : t.lane l = (s.lane l).sought c s.clock.uptimeMs
  told : t.laneTold k
  schedule : t.schedule = s.schedule

theorem giveLane_settles (queue : s.arb.queue = []) (waits : (s.slot k).state = .waitLane) (l : Fin 3) (c : Nat) :
    s.settles (giveLane (.slot k) c l s) k l c := by
  unfold giveLane
  rw [grantTo_slot]
  have arb : ((startSeek l c s).modArb (Arbiter.dequeue (.slot k))).arb.queue = [] := by
    show ((startSeek l c s).arb.queue.filter _) = []
    rw [startSeek_arb, queue]
    rfl
  have seeking : (((startSeek l c s).modArb (Arbiter.dequeue (.slot k))).lane l).state = .seeking := by
    rw [lane_modArb, startSeek_lane]
    rfl
  have slot : ((startSeek l c s).modArb (Arbiter.dequeue (.slot k))).slot k = s.slot k := by
    rw [slot_modArb]
    exact (startSeek_slot l c s k).eq_of_state waits (by decide) (by decide)
  have lane : ((startSeek l c s).modArb (Arbiter.dequeue (.slot k))).lane l = (s.lane l).sought c s.clock.uptimeMs := by
    rw [lane_modArb, startSeek_lane]
  have schedule : ((startSeek l c s).modArb (Arbiter.dequeue (.slot k))).schedule = s.schedule := startSeek_schedule l c s
  generalize (startSeek l c s).modArb (Arbiter.dequeue (.slot k)) = w at *
  obtain ⟨slots, told⟩ := joinSlot_tunes seeking k
  obtain ⟨hlanes, harb, hsched, -, -, -⟩ := joinSlot_fields seeking k
  have hlane : (joinSlot k l w).lane l = w.lane l := by unfold State.lane; rw [hlanes]
  rw [joinWaiters_nil (by rw [harb, arb])]
  refine ⟨⟨fun x hx => ?_, ?_, ?_, fun m hm => ?_⟩, by rw [slots, slot], hlane.trans lane, told, hsched.trans schedule⟩
  · rw [harb, arb] at hx
    cases hx
  · rw [slots]
    exact (by decide : SlotState.tuning ≠ .presenting)
  · rw [slots]
    exact (by decide : SlotState.tuning ≠ .held)
  · rw [slots] at hm
    cases hm
    rw [hlane, lane]
    rfl

/-! ### A tune accepted (R9, R11) -/

/-- A slot's record at the start of a tune (R9, R11). -/
def Slot.begun (v : Service) (o : Origin) (now : Nat) (x : Slot) : Slot :=
  { x with
    state := .waitLane, reason := .none, service := some v.sid, carrier := some v.carrier, lane := none, retune := 0
    opStart := now, origin := o, cellsOut := 0, unkeyed := 0, gaps := 0, cur := none, desc := {}, keyTimer := none }

/-- A slot has left everything it was in and stands in WAIT_LANE for a service; nothing is told of it yet. -/
def State.begins (s : State) (v : Service) (o : Origin) (k : Fin 5) : State :=
  (((s.modArb (Arbiter.dequeue (.slot k))).modRouter (Router.removeSlot k [])).modSlot k
    (Slot.begun v o s.uptimeS)).modParental (Parental.lock k)

theorem begins_slot (s : State) (v : Service) (o : Origin) (k : Fin 5) :
    (s.begins v o k).slot k = (s.slot k).begun v o s.uptimeS := by
  unfold State.begins
  simp

/-- What a look leaves of a slot in WAIT_LANE without keys, its sources told. -/
theorem Looked.laneTold (h : Looked k s t) (waits : (s.slot k).state = .waitLane) (keys : (s.slot k).desc = {})
    (told : s.laneTold k) : t.laneTold k := by
  have slot := h.slot waits keys
  rw [laneTold_iff] at told ⊢
  rw [h.ofLane, told]
  unfold State.laneSays State.slotLocked State.slotSignalOk State.lane
  rw [slot, h.lanes]

theorem exists_acceptTune (v : Service) (o : Origin) (k : Fin 5) (s : State) :
    ∃ u w, Gated (s.begins v o k) u ∧ u.laneTold k ∧ Looked k u w
      ∧ acceptTune v o k s = homeRedecide (claim (.slot k) v.carrier (releaseLeft (s.slot k).lane w)) := by
  have begun : Judged k (s.begins v o k) (endUnlockOf k (((s.modArb (Arbiter.dequeue (.slot k))).modRouter
      (Router.removeSlot k [])).modSlot k (Slot.begun v o s.uptimeS))) := judged_endUnlockOf k k _
  have eq : acceptTune v o k s = claimOn v (s.slot k).lane k (endUnlockOf k (((s.modArb (Arbiter.dequeue (.slot k))).modRouter
      (Router.removeSlot k [])).modSlot k (Slot.begun v o s.uptimeS))) := by
    unfold acceptTune beginOn dropFilters
    rw [modSlot_modSlot]
    rfl
  rw [eq]
  generalize endUnlockOf k _ = b at begun
  exact ⟨reportLeft k b, updateRating k (determine k (reportLeft k b)), begun.toGated.trans (gated_reportLeft k b),
    laneTold_reportLeft k b, (looked_determine k k _).trans (looked_updateRating k k _), rfl⟩

/-- A slot tuned where a lane is IDLE and none waits: it is TUNING there, and of the schedule the orphan flags alone can
have risen (R9, R13, R49, R165). -/
structure State.tunesTo (s t : State) (k : Fin 5) (v : Service) (l : Fin 3) (o : Origin) : Prop where
  tuned : t.tuned k v l o
  rests : t.rests k
  entries : ∀ n, (s.entry n).Orphaned s.guide.places (t.entry n)

theorem servingLane_congr (h : t.lanes = s.lanes) (c : Nat) : t.servingLane c = s.servingLane c := by
  unfold State.servingLane State.lane
  rw [h]

theorem idleLane_congr (h : t.lanes = s.lanes) : t.idleLane = s.idleLane := by
  unfold State.idleLane State.lane
  rw [h]

theorem claim_idle (served : s.servingLane c = none) (idle : s.idleLane = some l) (x : Claimant) :
    claim x c s = giveLane x c l s := by
  unfold claim
  rw [served, idle]

theorem acceptTune_tunes (may : s.mayTune k v l) (o : Origin) : s.tunesTo (acceptTune v o k s) k v l o := by
  obtain ⟨u, w, gated, told, looked, e⟩ := exists_acceptTune v o k s
  have uslot : u.slot k = (s.slot k).begun v o s.uptimeS :=
    ((gated.slots k).eq_of_state (by rw [begins_slot]; rfl) (by decide : SlotState.waitLane ≠ _) (by decide)).trans
      (begins_slot ..)
  have waits : (u.slot k).state = .waitLane := by rw [uslot]; rfl
  have keys : (u.slot k).desc = {} := by rw [uslot]; rfl
  have wslot := looked.slot waits keys
  have lanes : w.lanes = s.lanes := looked.lanes.trans gated.lanes
  have queue : w.arb.queue = [] := by
    rw [looked.arb, gated.arb]
    show s.arb.queue.filter _ = []
    rw [may.queue]
    rfl
  have wwaits : (w.slot k).state = .waitLane := by rw [wslot]; exact waits
  have done := giveLane_settles queue wwaits l v.carrier
  have eq : acceptTune v o k s = homeRedecide (giveLane (.slot k) v.carrier l w) := by
    rw [e, may.out.1]
    have unserved : w.servingLane v.carrier = none := (servingLane_congr lanes _).trans may.unserved
    have idle : w.idleLane = some l := (idleLane_congr lanes).trans may.idle
    exact congrArg homeRedecide (claim_idle unserved idle _)
  rw [eq]
  have spared := (Spares.refl done.rests).homeRedecide
  generalize giveLane (.slot k) v.carrier l w = g at done spared
  generalize homeRedecide g = t at spared
  have tslot : t.slot k = { w.slot k with lane := some l, state := .tuning } := spared.slot.trans done.slot
  have tlane : t.lane l = (w.lane l).sought v.carrier w.clock.uptimeMs :=
    (spared.lane l (by rw [done.slot])).trans done.lane
  refine ⟨⟨?_, ?_, ?_, ?_, ?_, ?_, spared.laneTold done.told⟩, spared.rests, fun n => ?_⟩
  · rw [tslot, wslot, uslot]
    rfl
  · rw [tslot, wslot, uslot]
    rfl
  · rw [tslot, wslot, uslot]
    rfl
  · rw [tslot, wslot, uslot]
    rfl
  · rw [tlane]
    rfl
  · rw [tlane]
    rfl
  · have e1 : t.entry n = w.entry n := by
      unfold State.entry
      rw [spared.schedule, done.schedule]
    have e2 : u.entry n = s.entry n := gated.entry n
    have e3 : u.guide.places = s.guide.places := by rw [gated.guide]; rfl
    rw [e1, ← e2, ← e3]
    exact looked.entries n

end Sys2Proof.Machine
end

