-- ==== Sys2Proof/Proofs/P11.lean ====
section
/-! PROOF of O57: the end of a run and the retry of one (R163, R164). -/

namespace Sys2Proof.Machine

open Sys2Proof

variable {k : Fin 5} {l : Fin 3} {n : Fin 24} {v : Service} {o : Origin} {s t u w : State}

/-! ### An event that raises one notice (R184, R188) -/

/-- An event that changes the blocks and raises one notice. -/
theorem event_notes (f : State → State) {x : NoticeKind} {sub : Option Nat} {b : List Byte} (h : s.live)
    (hf : f s.clearOut = u.clearOut.raise x sub b) (rises : u.auxRises = []) (link : u.link = s.link)
    (running : u.restarting = false) :
    s.unanswered (s.event f) ∧ (s.event f).noted = u.noted ∧ (s.event f).faults = u.faults
      ∧ (s.event f).link.flags[x.index] = true := by
  obtain ⟨m, e, core, flags⟩ := exists_raise x sub b u.clearOut
  have settled : settle (f s.clearOut) = { u.clearOut with link := m } := by
    rw [hf, e]
    exact settle_none rises
  have served := served_event f h
  rw [settled] at served
  refine ⟨event_unanswered f h ?_, ?_, (congrArg State.faults served.likewise :).symm, ?_⟩
  · rw [settled]
    exact core.trans (congrArg Link.core link)
  · rw [served.noted]
    unfold State.noted
    rw [rest_of_core core]
    rfl
  · have := congrArg (fun z : Vector Bool 10 => z[x.index]) served.flags
    exact this.trans ((flags running x.index.val x.index.isLt).trans (if_pos rfl))

/-- Raising a notice sets its flag, and an answer keeps it. -/
theorem raise_flag (x : NoticeKind) (sub : Option Nat) (b : List Byte) (h : s.restarting = false) :
    (s.raise x sub b).link.flags[x.index] = true := by
  obtain ⟨m, e, -, flags⟩ := exists_raise x sub b s
  rw [e]
  exact (flags h x.index.val x.index.isLt).trans (if_pos rfl)

/-- What a slot's gate sources are told is a matter of the gate array, the slot and the lanes alone (R148). -/
theorem State.laneTold.congr (h : s.laneTold k) (gate : t.gate = s.gate) (slot : t.slot k = s.slot k)
    (lanes : t.lanes = s.lanes) : t.laneTold k := by
  rw [laneTold_iff] at h ⊢
  rw [gate, h]
  unfold State.laneSays State.slotLocked State.slotSignalOk State.lane
  rw [slot, lanes]

/-! ### The end of a run (R163) -/

theorem runOver_iff (e : Entry) (s : State) : s.runOver e = true ↔ ∃ stop, s.runEnded e stop := by
  unfold State.runOver State.runEnded
  rw [Bool.and_eq_true, beq_iff_eq]
  cases hs : e.endTime with
  | none => cases e.trigger <;> simp
  | some stop =>
    cases ht : e.trigger with
    | auxRise c =>
      constructor
      · rintro ⟨run, due⟩
        exact ⟨stop, run, rfl, .inl ⟨⟨c, rfl⟩, of_decide_eq_true due⟩⟩
      · rintro ⟨_, run, e, due⟩
        cases e
        exact ⟨run, decide_eq_true (due.resolve_right fun d => d.1 c rfl).2⟩
    | atTime _ => simp [Option.any_eq_true]
    | atEvent _ _ _ => simp [Option.any_eq_true]

/-- An entry at the end of its run (R163). -/
def Entry.ended (e : Entry) : Entry := { e with state := .done, retry := none }

theorem endRun_eq (n : Fin 24) (s : State) :
    endRun n s = ((stopRun n s).modEntry n Entry.ended).scheduleNotice .done n := rfl

theorem stopRun_released (h : ∀ k sid m, (s.entry n).action = .record k sid m → (s.slot k).origin ≠ .schedule n) :
    stopRun n s = s := by
  unfold stopRun
  split
  · rename_i k sid m e
    exact if_neg (by simpa [State.heldFor] using h k sid m e)
  · rfl

theorem stopRun_held {sid m : Nat} (h : (s.entry n).action = .record k sid m) (held : (s.slot k).origin = .schedule n) :
    stopRun n s = stopSlot k s := by
  unfold stopRun
  rw [h]
  exact if_pos (by simpa [State.heldFor] using held)

theorem Acts.restarting (h : Acts s t) : t.restarting = s.restarting := (congrArg State.restarting h.calm :)

/-- A run over whose slot is held for it: the slot is stopped and the entry DONE (R163). -/
theorem runEnd_held {sid m : Nat} (h : s.live) (quiet : s.noRise) (due : s.runOver (s.entry n) = true)
    (rec : (s.entry n).action = .record k sid m) (held : (s.slot k).origin = .schedule n) :
    let t := s.event (checkEnd n)
    s.unanswered t ∧ t.entry n = (s.entry n).ended ∧ (t.slot k) = (s.slot k).freed .stopped ∧ t.link.flags[5] = true
      ∧ t.tables = s.tables ∧ t.laneTold k := by
  have acts : Acts s.clearOut (checkEnd n s.clearOut) := (Acts.refl _).checkEnd n
  have eq : checkEnd n s.clearOut
      = ((stopSlot k s.clearOut).modEntry n Entry.ended).scheduleNotice .done n := by
    have : s.clearOut.runOver (s.clearOut.entry n) = true := due
    unfold checkEnd
    rw [if_pos this, endRun_eq, stopRun_held (s := s.clearOut) rec held]
  have idles := idles_stopSlot k s.clearOut
  have stopped : Acts s.clearOut (stopSlot k s.clearOut) := (Acts.refl _).stopSlot k
  have served := served_event_quiet (checkEnd n) h rfl (acts.noRise quiet)
  refine ⟨unanswered_of_acts _ h acts, ?_, ?_, ?_, event_tables_of_acts _ h acts, ?_⟩
  · rw [served.entry]
    show (checkEnd n s.clearOut).entry n = _
    rw [eq]
    unfold State.scheduleNotice
    rw [entry_raise, entry_modEntry_same]
    unfold State.entry
    rw [idles.schedule]
    rfl
  · rw [served.slot]
    show (checkEnd n s.clearOut).slot k = _
    rw [eq]
    unfold State.scheduleNotice
    rw [slot_raise, slot_modEntry, idles.slot]
    rfl
  · rw [served.flags]
    show (checkEnd n s.clearOut).link.flags[5] = true
    rw [eq]
    exact raise_flag .schedule _ _ (stopped.restarting.trans h.running)
  · refine (idles.told.congr (t := checkEnd n s.clearOut) ?_ ?_ ?_).congr served.gate (served.slot k) served.lanes
    all_goals rw [eq]; unfold State.scheduleNotice
    · rw [raise_gate]
      rfl
    · rw [slot_raise, slot_modEntry]
    · rw [raise_lanes]
      rfl

/-! ### The retry of a run (R164) -/

/-- A TUNE of the schedule unit on a slot that does not hold the service, both in their tables (R9). -/
theorem tuneForEntry_accepts (n : Fin 24) (mode : s.mode = .service ∨ (s.mode = .standby ∧ 3 ≤ k.val))
    (may : s.mayTune k v l) : tuneForEntry n k v.sid s = (.accepted, acceptTune v (.schedule n) k s) := by
  have m : s.scheduleMayTune k = true := by
    unfold State.scheduleMayTune
    simpa using mode
  have holds : s.holdsService k v.sid = false := by
    unfold State.holdsService
    rcases may.other with h | h <;> simp [h]
  have known : (s.carrier? v.carrier).isNone = false := by
    rw [← Option.not_isSome, may.known]
    rfl
  unfold tuneForEntry
  simp only [m, may.service, known, holds]
  rfl

/-- A TUNE of the schedule unit for a service or a carrier that is gone (R9). -/
theorem tuneForEntry_gone (n : Fin 24) {sid : Nat} (mode : s.mode = .service ∨ (s.mode = .standby ∧ 3 ≤ k.val))
    (gone : s.untunable sid) : tuneForEntry n k sid s = (.noSuch, s) := by
  have m : s.scheduleMayTune k = true := by
    unfold State.scheduleMayTune
    simpa using mode
  unfold tuneForEntry
  simp only [m]
  cases h : keyFind (·.sid) sid s.services with
  | none => rfl
  | some v =>
    have : (s.carrier? v.carrier).isNone = true := by rw [gone v h]; rfl
    simp only [this]
    rfl

/-- Detached: the slot is not held for the entry, or is FAULTED (R164). -/
theorem attached_iff : s.attached n k = true ↔ (s.slot k).origin = .schedule n ∧ (s.slot k).state ≠ .faulted := by
  unfold State.attached State.heldFor
  simp

theorem retryTimeout_eq {sid m : Nat} (running : (s.entry n).state = .running) (retry : (s.entry n).retry.isSome)
    (rec : (s.entry n).action = .record k sid m) :
    retryTimeout n s = if s.attached n k then s.modEntry n fun e => { e with retry := none }
      else (tuneForEntry n k sid s).2.modEntry n fun e => { e with
        lastTune := some (tuneForEntry n k sid s).1, retry := retryAfter (tuneForEntry n k sid s).1 s } := by
  unfold retryTimeout retryExpires
  rw [if_pos retry, running, rec]

/-- What a TUNE leaves of an entry, with more of it set. -/
theorem entryAs_of_orphaned {e f : Entry} {g : Entry → Entry} (h : e.Orphaned s.guide.places f) (n : Fin 24)
    (eq : t.entry n = g f) (fields : ∀ x b, g { x with orphan := b } = { g x with orphan := b })
    (trigger : ∀ x, (g x).trigger = x.trigger) : s.entryAs t n (g e) := by
  have orphan : ∀ x, (g x).orphan = x.orphan := fun x => (congrArg Entry.orphan (fields x x.orphan) :)
  refine ⟨?_, fun r => ?_, fun all => ?_⟩
  · rw [eq, orphan f, ← fields, ← h.fields]
  · rw [eq, orphan]
    rw [orphan] at r
    exact h.rises r
  · rw [eq, h.sound fun p hp tied => all p hp (by rwa [trigger])]

theorem retry_tunes {sid m : Nat} (h : s.live) (quiet : s.noRise) (running : (s.entry n).state = .running)
    (retry : (s.entry n).retry.isSome) (rec : (s.entry n).action = .record k sid m)
    (detached : ¬ ((s.slot k).origin = .schedule n ∧ (s.slot k).state ≠ .faulted))
    (mode : s.mode = .service ∨ (s.mode = .standby ∧ 3 ≤ k.val)) (sid_eq : v.sid = sid) (may : s.mayTune k v l) :
    let t := s.event (retryTimeout n)
    s.unanswered t ∧ t.tuned k v l (.schedule n)
      ∧ s.entryAs t n { s.entry n with retry := none, lastTune := some .accepted } ∧ t.tables = s.tables := by
  subst sid_eq
  have acts : Acts s.clearOut (retryTimeout n s.clearOut) := (Acts.refl _).retryTimeout n
  have may' : s.clearOut.mayTune k v l := ⟨⟨may.unserved, may.idle, may.queue, may.home⟩, may.service, may.known, may.out,
    may.other⟩
  have tunes := acceptTune_tunes may' (.schedule n)
  have eq : retryTimeout n s.clearOut = (acceptTune v (.schedule n) k s.clearOut).modEntry n fun e => { e with
      lastTune := some .accepted, retry := none } := by
    rw [retryTimeout_eq (s := s.clearOut) running retry rec, if_neg, tuneForEntry_accepts (s := s.clearOut) n mode may']
    · rfl
    · exact fun a => detached (attached_iff.1 a)
  generalize acceptTune v (.schedule n) k s.clearOut = a at tunes eq
  have served := served_event_quiet (retryTimeout n) h eq (eq ▸ acts.noRise quiet)
  refine ⟨unanswered_of_acts _ h acts, ?_, ?_, event_tables_of_acts _ h acts⟩
  · obtain ⟨slot, service, carrier, origin, seeking, onCarrier, told⟩ := tunes.tuned
    exact ⟨by rw [served.slot]; exact slot, by rw [served.slot]; exact service, by rw [served.slot]; exact carrier,
      by rw [served.slot]; exact origin, by rw [served.lane]; exact seeking, by rw [served.lane]; exact onCarrier,
      told.congr served.gate (served.slot k) served.lanes⟩
  · refine entryAs_of_orphaned (s := s) (g := fun e => { e with lastTune := some .accepted, retry := none })
      (tunes.entries n) n ?_ (fun _ _ => rfl) fun _ => rfl
    rw [served.entry]
    exact entry_modEntry_same n (fun e => { e with lastTune := some .accepted, retry := none }) a

/-- Settles O57: a run's end and its retry, each by what its event does to the slot and to the entry. -/
theorem runsEndAndRetry : Obligations.RunsEndAndRetry := by
  intro n s h
  refine ⟨fun none_due => ?_, fun stop due => ⟨fun released => ?_, fun k sid m rec held quiet => ?_⟩, fun none => ?_,
    fun k sid m retry running rec => ⟨fun attached => ?_, fun detached mode gone => ?_,
      fun v l detached mode sid_eq may quiet => ?_⟩⟩
  · have eq : checkEnd n s.clearOut = s.clearOut := by
      refine if_neg fun due => ?_
      obtain ⟨stop, ended⟩ := (runOver_iff _ _).1 due
      exact none_due stop ended
    exact ⟨_, rfl, (event_moves (u := s) _ h eq h.rises rfl).1, event_unmoved _ h eq⟩
  · have eq : checkEnd n s.clearOut = (({ s with schedule := s.schedule.set n (s.entry n).ended } : State).clearOut).raise
        .schedule (some n.val) (scheduleNoticeBytes .done n (s.entry n).ended) := by
      have due : s.clearOut.runOver (s.clearOut.entry n) = true := (runOver_iff _ _).2 ⟨stop, due⟩
      unfold checkEnd
      rw [if_pos due, endRun_eq, stopRun_released (s := s.clearOut) released]
      unfold State.scheduleNotice
      rw [entry_modEntry_same]
      rfl
    have noted := event_notes (checkEnd n) h eq h.rises rfl h.running
    exact ⟨_, rfl, noted.1, noted.2.1, noted.2.2.2⟩
  · obtain ⟨unanswered, entry, slot, flag, tables, told⟩ :=
      runEnd_held h quiet ((runOver_iff _ _).2 ⟨stop, due⟩) rec held
    exact ⟨_, rfl, unanswered, entry, by rw [slot]; rfl, by rw [slot]; rfl, by rw [slot]; rfl, by rw [slot]; rfl, flag,
      tables, told⟩
  · have eq : retryTimeout n s.clearOut = s.clearOut := if_neg (by
      show ¬ (s.entry n).retry.isSome = true
      rw [none]
      simp)
    exact ⟨_, rfl, (event_moves (u := s) _ h eq h.rises rfl).1, event_unmoved _ h eq⟩
  · refine ⟨_, rfl, event_moves _ h ?_ h.rises rfl⟩
    rw [retryTimeout_eq (s := s.clearOut) running retry rec]
    exact if_pos (attached_iff.2 attached)
  · refine ⟨_, rfl, event_moves _ h ?_ h.rises rfl⟩
    rw [retryTimeout_eq (s := s.clearOut) running retry rec, if_neg fun a => detached ((attached_iff (s := s.clearOut)).1 a),
      tuneForEntry_gone (s := s.clearOut) n mode gone]
    rfl
  · obtain ⟨unanswered, tuned, entry, tables⟩ := retry_tunes h quiet running retry rec detached mode sid_eq may
    exact ⟨_, rfl, unanswered, tuned, entry, tables⟩

end Sys2Proof.Machine
end

