-- ==== Sys2Proof/Proofs/P12.lean ====
section
/-! SUPPORT. A queue pass after a lane is released, by whether any waits (R52). -/

namespace Sys2Proof.Machine

open Sys2Proof

variable {k : Fin 5} {l m : Fin 3} {c : Nat} {s t u w : State}

/-! ### Waiters that join a lane that seeks their carrier (R52) -/

/-- A slot is TUNING on a lane, its sources told (R13, R149). -/
structure State.onSeek (s : State) (l : Fin 3) (k : Fin 5) : Prop where
  state : (s.slot k).state = .tuning
  lane : (s.slot k).lane = some l
  told : s.laneTold k

/-- The queue after some waiters for a carrier have left it. -/
def queueWithout (ws : List Waiter) (c : Nat) (q : List Waiter) : List Waiter :=
  q.filter fun x => !ws.any fun y => y.carrier == c && y.claimant == x.claimant

/-- Waiters for a carrier, all of them slots, have joined the lane that seeks it. -/
structure Joined (l : Fin 3) (c : Nat) (ws : List Waiter) (s t : State) : Prop where
  lanes : t.lanes = s.lanes
  out : t.out = s.out
  mode : t.mode = s.mode
  carriers : t.carriers = s.carriers
  sweep : t.sweep = s.sweep
  home : t.arb.home = s.arb.home
  sweepWaiting : t.arb.sweepWaiting = s.arb.sweepWaiting
  queue : t.arb.queue = queueWithout ws c s.arb.queue
  joined : ∀ y ∈ ws, y.carrier = c → ∀ i, y.claimant = .slot i → t.onSeek l i
  stay : ∀ i, s.onSeek l i → t.onSeek l i

/-- A slot that joins a lane leaves the others that are TUNING there. -/
theorem onSeek_grantTo (h : (s.lane l).state = .seeking) (j i : Fin 5) (on : s.onSeek l i) :
    (grantTo (.slot j) l s).onSeek l i := by
  rw [grantTo_slot]
  have h' : ((s.modArb (Arbiter.dequeue (.slot j))).lane l).state = .seeking := h
  by_cases e : j = i
  · subst e
    have := joinSlot_tunes h' j
    exact ⟨by rw [this.slot], by rw [this.slot], this.told⟩
  · rw [joinSlot_seeking h']
    have g := gated_syncSlots [j] ((s.modArb (Arbiter.dequeue (.slot j))).modSlot j fun sl =>
      { sl with lane := some l, state := .tuning })
    have slot : (syncSlots [j] ((s.modArb (Arbiter.dequeue (.slot j))).modSlot j fun sl =>
      { sl with lane := some l, state := .tuning })).slot i = s.slot i := by
      have moved := g.slots i
      rw [slot_modSlot_ne e] at moved
      exact moved.eq_of_state on.state (by decide) (by decide)
    refine ⟨by rw [slot]; exact on.state, by rw [slot]; exact on.lane, ?_⟩
    have told := on.told
    rw [laneTold_iff] at told ⊢
    rw [syncSlots_src_apart (by simpa using Ne.symm e), g.laneSays]
    unfold State.laneSays State.slotLocked State.slotSignalOk at told ⊢
    rw [slot_modSlot_ne e]
    exact told

theorem grantTo_fields (h : (s.lane l).state = .seeking) (j : Fin 5) :
    (grantTo (.slot j) l s).lanes = s.lanes ∧ (grantTo (.slot j) l s).arb = s.arb.dequeue (.slot j)
      ∧ (grantTo (.slot j) l s).out = s.out ∧ (grantTo (.slot j) l s).mode = s.mode
      ∧ (grantTo (.slot j) l s).carriers = s.carriers ∧ (grantTo (.slot j) l s).sweep = s.sweep := by
  have h' : ((s.modArb (Arbiter.dequeue (.slot j))).lane l).state = .seeking := h
  rw [grantTo_slot, joinSlot_seeking h']
  have g := gated_syncSlots [j] ((s.modArb (Arbiter.dequeue (.slot j))).modSlot j fun sl =>
    { sl with lane := some l, state := .tuning })
  exact ⟨g.lanes, g.arb, g.out, g.mode, g.carriers, g.sweep⟩

/-- What one waiter does when its test is met: it joins the lane that serves its carrier (R52). -/
def joinOne (f : Waiter → Bool) (y : Waiter) (s : State) : State :=
  if f y then match s.servingLane y.carrier with
    | some l => grantTo y.claimant l s
    | none => s
  else s

theorem joinWaiters_eq (f : Waiter → Bool) (s : State) : joinWaiters f s = forEach s.arb.queue (joinOne f) s := rfl

theorem joinOne_serves {f : Waiter → Bool} {y : Waiter} (h : f y = true) (serves : s.servingLane y.carrier = some l) :
    joinOne f y s = grantTo y.claimant l s := by
  unfold joinOne
  rw [if_pos h, serves]

theorem joinOne_unserved {y : Waiter} (serves : s.servingLane y.carrier = none) (f : Waiter → Bool) :
    joinOne f y s = s := by
  unfold joinOne
  split
  · rw [serves]
  · rfl

theorem joinOne_untested {f : Waiter → Bool} {y : Waiter} (h : ¬ f y = true) : joinOne f y s = s := if_neg h

/-- Waiters that no lane serves stay (R52 step 1). -/
theorem joinWaiters_unserved (h : ∀ y ∈ s.arb.queue, s.servingLane y.carrier = none) (f : Waiter → Bool) :
    joinWaiters f s = s := by
  rw [joinWaiters_eq]
  refine forEach_keeps (P := fun u => u = s) (fun y hy u hu => ?_) rfl
  rw [hu, joinOne_unserved (h y hy)]

theorem queueWithout_cons (y : Waiter) (ws : List Waiter) (c : Nat) (q : List Waiter) :
    queueWithout (y :: ws) c q = queueWithout ws c (if y.carrier = c then q.filter fun x => x.claimant != y.claimant else q) := by
  unfold queueWithout
  split
  · rename_i h
    rw [List.filter_filter]
    refine List.filter_congr fun x _ => ?_
    simp only [List.any_cons, h, beq_self_eq_true, Bool.true_and, Bool.not_or]
    rw [Bool.and_comm]
    congr 1
    rw [bne, Bool.beq_comm]
  · rename_i h
    refine List.filter_congr fun x _ => ?_
    simp [h]

/-- What the waiters do one after another: those for the carrier join, the others stay. -/
theorem joined_forEach (ws : List Waiter) (slots : ∀ y ∈ ws, y.claimant ≠ .home) (serves : s.servingLane c = some l)
    (seeks : (s.lane l).state = .seeking) : Joined l c ws s (forEach ws (joinOne fun y => y.carrier == c) s) := by
  induction ws generalizing s with
  | nil =>
    refine ⟨rfl, rfl, rfl, rfl, rfl, rfl, rfl, ?_, by simp, fun _ => id⟩
    simp [queueWithout, forEach]
  | cons y ws ih =>
    rw [show forEach (y :: ws) (joinOne fun y => y.carrier == c) s
      = forEach ws (joinOne fun y => y.carrier == c) (joinOne (fun y => y.carrier == c) y s) from rfl]
    by_cases hc : y.carrier = c
    · obtain ⟨j, hj⟩ : ∃ j, y.claimant = .slot j := by
        cases e : y.claimant with
        | slot j => exact ⟨j, rfl⟩
        | home => exact absurd e (slots y (by simp))
      rw [joinOne_serves (by simpa using hc) (hc ▸ serves), hj]
      obtain ⟨lanes, arb, out, mode, carriers, sweep⟩ := grantTo_fields seeks j
      have rest := ih (s := grantTo (.slot j) l s) (fun z hz => slots z (by simp [hz]))
        ((servingLane_congr lanes c).trans serves) (by unfold State.lane at seeks ⊢; rw [lanes]; exact seeks)
      refine ⟨rest.lanes.trans lanes, rest.out.trans out, rest.mode.trans mode, rest.carriers.trans carriers,
        rest.sweep.trans sweep, rest.home.trans (by rw [arb]; rfl), rest.sweepWaiting.trans (by rw [arb]; rfl), ?_,
        fun z hz hzc i hi => ?_, fun i on => rest.stay i (onSeek_grantTo seeks j i on)⟩
      · rw [rest.queue, arb, queueWithout_cons, if_pos hc, hj]
        rfl
      · rcases List.mem_cons.1 hz with rfl | hz
        · rw [hj] at hi
          cases hi
          refine rest.stay j ?_
          have tunes := joinSlot_tunes (s := s.modArb (Arbiter.dequeue (.slot j))) seeks j
          rw [grantTo_slot]
          exact ⟨by rw [tunes.slot], by rw [tunes.slot], tunes.told⟩
        · exact rest.joined z hz hzc i hi
    · rw [joinOne_untested (by simpa using hc)]
      have rest := ih (fun z hz => slots z (by simp [hz])) serves seeks
      refine ⟨rest.lanes, rest.out, rest.mode, rest.carriers, rest.sweep, rest.home, rest.sweepWaiting, ?_,
        fun z hz hzc i hi => ?_, rest.stay⟩
      · rw [rest.queue, queueWithout_cons, if_neg hc]
      · rcases List.mem_cons.1 hz with rfl | hz
        · exact absurd hzc hc
        · exact rest.joined z hz hzc i hi

/-! ### The steps of a queue pass (R52) -/

theorem passGrant_nil (h : s.arb.queue = []) : passGrant s = s := by
  unfold passGrant
  rw [h]

theorem passGrant_busy (h : s.idleLane = none) : passGrant s = s := by
  unfold passGrant
  rw [h]
  cases s.arb.queue <;> rfl

theorem passSweep_unasked (h : s.arb.sweepWaiting = false) : passSweep s = s := by
  unfold passSweep
  exact if_neg fun a => by simp [h] at a

theorem passSweep_busy (h : s.idleLane = none) : passSweep s = s := by
  unfold passSweep
  exact if_neg fun a => by simp [h] at a

theorem mem_allLanes (l : Fin 3) : l ∈ allLanes := by decide +revert

theorem idleLane_none_iff : s.idleLane = none ↔ ∀ l, (s.lane l).state ≠ .idle := by
  unfold State.idleLane
  rw [List.find?_eq_none]
  simp only [mem_allLanes, true_implies, beq_iff_eq]

theorem servingLane_none_iff : s.servingLane c = none ↔ ∀ l, (s.lane l).serves c = false := by
  unfold State.servingLane
  rw [List.find?_eq_none]
  simp only [mem_allLanes, true_implies, Bool.not_eq_true]

/-- The lane that alone serves a carrier, or alone is IDLE, is the one found (R49). -/
theorem servingLane_only (h : (s.lane l).serves c = true) (only : ∀ m, m ≠ l → (s.lane m).serves c = false) :
    s.servingLane c = some l := by
  cases e : s.servingLane c with
  | none => rw [servingLane_none_iff.1 e l] at h; cases h
  | some m =>
    have found : (s.lane m).serves c = true := List.find?_some (p := fun m => (s.lane m).serves c) e
    by_contra hne
    rw [only m fun hm => hne (by rw [hm])] at found
    cases found

theorem idleLane_only (h : (s.lane l).state = .idle) (only : ∀ m, m ≠ l → (s.lane m).state ≠ .idle) :
    s.idleLane = some l := by
  cases e : s.idleLane with
  | none => exact absurd h (idleLane_none_iff.1 e l)
  | some m =>
    by_contra hne
    exact only m (fun hm => hne (by rw [hm])) (idleLane_spec e)

/-- One lane's idle order, if it is IDLE (R52). -/
def orderIdle (l : Fin 3) (s : State) : State := if (s.lane l).state = .idle then s.emit (.idleOrder l) else s

theorem passIdle_eq (s : State) : passIdle s = forEach allLanes orderIdle s := rfl

theorem orderIdle_out (l : Fin 3) (s : State) : orderIdle l s = { s with out := (orderIdle l s).out } := by
  unfold orderIdle
  split <;> rfl

theorem orderIdle_keeps {x : PortOut} (l : Fin 3) (h : x ∈ s.out) : x ∈ (orderIdle l s).out := by
  unfold orderIdle
  split
  · exact List.mem_append_left _ h
  · exact h

theorem orderIdle_sends (h : (s.lane l).state = .idle) : .idleOrder l ∈ (orderIdle l s).out := by
  unfold orderIdle
  rw [if_pos h]
  exact List.mem_append_right _ (by simp)

theorem orderIdles_out (ls : List (Fin 3)) (s : State) :
    forEach ls orderIdle s = { s with out := (forEach ls orderIdle s).out } := by
  refine forEach_keeps (P := fun u => u = { s with out := u.out }) (fun l _ u hu => ?_) rfl
  rw [orderIdle_out, hu]

theorem passIdle_out (s : State) : passIdle s = { s with out := (passIdle s).out } := orderIdles_out allLanes s

theorem passIdle_busy (h : s.idleLane = none) : passIdle s = s := by
  refine forEach_keeps (P := fun u => u = s) (fun l _ u hu => ?_) rfl
  rw [hu, if_neg (idleLane_none_iff.1 h l)]

/-- Every lane IDLE at the end of a pass is sent an idle order (R52). -/
theorem passIdle_orders (h : (s.lane l).state = .idle) : .idleOrder l ∈ (passIdle s).out := by
  obtain ⟨pre, post, e⟩ := List.append_of_mem (mem_allLanes l)
  rw [passIdle_eq, e]
  have split : forEach (pre ++ l :: post) orderIdle s = forEach post orderIdle (orderIdle l (forEach pre orderIdle s)) := by
    unfold forEach
    rw [List.foldl_append]
    rfl
  rw [split]
  refine forEach_keeps (P := fun u => .idleOrder l ∈ u.out) (fun m _ u hu => orderIdle_keeps m hu) ?_
  refine orderIdle_sends ?_
  rw [orderIdles_out]
  exact h

/-- A pass with none waiting sends idle orders, and that is all (R52). -/
theorem queuePass_idle (queue : s.arb.queue = []) (asked : s.arb.sweepWaiting = false) : queuePass s = passIdle s := by
  unfold queuePass
  rw [joinWaiters_nil queue, passGrant_nil queue, passGrant_nil queue, passGrant_nil queue, passSweep_unasked asked]

/-- A pass that gives the one lane IDLE to the head of the queue, whose carrier no lane serves: the lane seeks it, all who
wait for it join, and the others stay (R52). -/
structure Granted (m : Fin 3) (x : Waiter) (rest : List Waiter) (s t : State) : Prop where
  lane : t.lane m = (s.lane m).sought x.carrier s.clock.uptimeMs
  sent : .tuneOrder m (((s.carrier? x.carrier).map (·.freq)).getD 0) ((s.lane m).order + 1) ∈ t.out
  queue : t.arb.queue = restOf x rest
  joined : ∀ y ∈ x :: rest, y.carrier = x.carrier → ∀ i, y.claimant = .slot i → t.onSeek m i
  home : t.arb.home = s.arb.home
  mode : t.mode = s.mode

theorem queueWithout_head (x : Waiter) (rest : List Waiter) :
    queueWithout ((x :: rest).filter fun y => y.claimant != x.claimant) x.carrier
      ((x :: rest).filter fun y => y.claimant != x.claimant) = restOf x rest := by
  unfold queueWithout restOf
  have same : ∀ y : Waiter, (y.claimant != x.claimant && !(((x :: rest).filter fun y => y.claimant != x.claimant).any
      fun z => z.carrier == x.carrier && z.claimant == y.claimant))
      = !((x :: rest).any fun z => z.carrier == x.carrier && z.claimant == y.claimant) := by
    intro y
    rw [Bool.eq_iff_iff]
    simp only [Bool.and_eq_true, bne_iff_ne, ne_eq, Bool.not_eq_true', List.any_eq_false, List.mem_filter, beq_iff_eq,
      not_and]
    constructor
    · rintro ⟨other, none⟩ z hz hc he
      by_cases hzx : z.claimant = x.claimant
      · exact other (he ▸ hzx)
      · exact none z ⟨hz, hzx⟩ hc he
    · exact fun none => ⟨fun e => none x (by simp) rfl e.symm, fun z hz => none z hz.1⟩
  rw [List.filter_filter]
  rw [List.filter_cons_of_neg (by simp)]
  exact List.filter_congr fun y _ => by rw [Bool.and_comm]; exact same y

theorem sought_serves (x : Lane) (c now : Nat) : (x.sought c now).serves c = true := by
  unfold Lane.serves Lane.sought
  simp

theorem queuePass_grants {x : Waiter} {rest : List Waiter} (queue : s.arb.queue = x :: rest)
    (idle : (s.lane m).state = .idle) (busy : ∀ l, l ≠ m → (s.lane l).state ≠ .idle)
    (slots : ∀ y ∈ x :: rest, y.claimant ≠ .home)
    (unserved : ∀ y ∈ x :: rest, ∀ l, l ≠ m → (s.lane l).serves y.carrier = false) :
    Granted m x rest s (queuePass s) := by
  obtain ⟨j, hj⟩ : ∃ j, x.claimant = .slot j := by
    cases e : x.claimant with
    | slot j => exact ⟨j, rfl⟩
    | home => exact absurd e (slots x (by simp))
  have join : joinWaiters (fun _ => true) s = s := by
    refine joinWaiters_unserved (fun y hy => servingLane_none_iff.2 fun l => ?_) _
    rw [queue] at hy
    by_cases e : l = m
    · subst e
      unfold Lane.serves
      rw [idle]
      rfl
    · exact unserved y hy l e
  have grant : passGrant s = giveLane x.claimant x.carrier m s := by
    unfold passGrant
    rw [queue, idleLane_only idle busy]
  have lane1 := startSeek_lane m x.carrier s
  have lanes1 : ∀ l, l ≠ m → (startSeek m x.carrier s).lane l = s.lane l := fun l hl => startSeek_lane_ne hl.symm _ _
  have g1 := gated_startSeek m x.carrier s
  have give : giveLane x.claimant x.carrier m s
      = joinWaiters (fun w => w.carrier == x.carrier) (grantTo (.slot j) m (startSeek m x.carrier s)) := by
    unfold giveLane
    rw [hj]
  have seeks1 : ((startSeek m x.carrier s).lane m).state = .seeking := by rw [lane1]; rfl
  obtain ⟨lanes2, arb2, out2, mode2, carriers2, sweep2⟩ := grantTo_fields seeks1 j
  have on2 : (grantTo (.slot j) m (startSeek m x.carrier s)).onSeek m j := by
    have tunes := joinSlot_tunes (s := (startSeek m x.carrier s).modArb (Arbiter.dequeue (.slot j))) seeks1 j
    rw [grantTo_slot]
    exact ⟨by rw [tunes.slot], by rw [tunes.slot], tunes.told⟩
  have lane2 : ∀ l, (grantTo (.slot j) m (startSeek m x.carrier s)).lane l = (startSeek m x.carrier s).lane l :=
    fun l => by unfold State.lane; rw [lanes2]
  have out1 : (startSeek m x.carrier s).out = s.out ++ [.tuneOrder m (((s.carrier? x.carrier).map (·.freq)).getD 0)
      ((s.lane m).order + 1)] := g1.out
  have home1 : (startSeek m x.carrier s).arb = s.arb := startSeek_arb ..
  have mode1 : (startSeek m x.carrier s).mode = s.mode := g1.mode
  generalize startSeek m x.carrier s = b1 at *
  generalize grantTo (.slot j) m b1 = b2 at *
  have queue2 : b2.arb.queue = (x :: rest).filter fun y => y.claimant != x.claimant := by
    rw [arb2, home1, hj, ← queue]
    rfl
  have serves2 : b2.servingLane x.carrier = some m := by
    refine servingLane_only (by rw [lane2, lane1]; exact sought_serves ..) fun l hl => ?_
    rw [lane2, lanes1 l hl]
    exact unserved x (by simp) l hl
  have j3 := joined_forEach b2.arb.queue (fun y hy => slots y (by rw [queue2] at hy; exact (List.mem_filter.1 hy).1))
    serves2 (by rw [lane2, lane1]; rfl)
  rw [← joinWaiters_eq] at j3
  generalize joinWaiters (fun w => w.carrier == x.carrier) b2 = b3 at *
  have lane3 : ∀ l, b3.lane l = b1.lane l := fun l => by rw [← lane2]; unfold State.lane; rw [j3.lanes]
  have busy3 : b3.idleLane = none := idleLane_none_iff.2 fun l => by
    rw [lane3]
    by_cases e : l = m
    · rw [e, lane1]
      exact (by decide : LaneState.seeking ≠ .idle)
    · rw [lanes1 l e]
      exact busy l e
  have pass : queuePass s = b3 := by
    unfold queuePass
    rw [join, grant, give, passGrant_busy busy3, passGrant_busy busy3, passSweep_busy busy3, passIdle_busy busy3]
  rw [pass]
  refine ⟨by rw [lane3, lane1], ?_, ?_, fun y hy hc i hi => ?_, ?_, ?_⟩
  · rw [j3.out, out2, out1]
    exact List.mem_append_right _ (by simp)
  · rw [j3.queue, queue2, queueWithout_head]
  · by_cases e : i = j
    · subst e
      exact j3.stay i on2
    · refine j3.joined y ?_ hc i hi
      rw [queue2]
      exact List.mem_filter.2 ⟨hy, by rw [hi, hj]; simpa using e⟩
  · rw [j3.home, arb2, home1]
    rfl
  · rw [j3.mode, mode2, mode1]

theorem restOf_apart (x : Waiter) (rest : List Waiter) : ∀ y ∈ restOf x rest, y.carrier ≠ x.carrier := by
  intro y hy e
  have h := (List.mem_filter.1 hy).2
  simp only [Bool.not_eq_true', List.any_eq_false, Bool.and_eq_true, beq_iff_eq, not_and] at h
  exact h y (List.mem_cons_of_mem _ (List.mem_filter.1 hy).1) e rfl

end Sys2Proof.Machine
end

