-- ==== Sys2Proof/Proofs/P13.lean ====
section
/-! PROOF of O25: STOP (R12, R24, R52). -/

namespace Sys2Proof.Machine

open Sys2Proof

variable {k : Fin 5} {l m : Fin 3} {c : Nat} {s t u w : State}

/-! ### The home hold at rest (R54) -/

/-- Out of STANDBY a home hold at rest stays so (R54). -/
theorem homeRedecide_rests (home : s.arb.home = .inactive) (mode : s.mode ≠ .standby) : homeRedecide s = s := by
  have cond : s.homeCondition none = false := by
    unfold State.homeCondition
    have : (s.mode == .standby) = false := by simpa using mode
    rw [this]
    rfl
  unfold homeRedecide
  rw [home]
  exact if_neg (by rw [cond]; decide)

/-! ### The release of a lane that its last slot leaves (R52) -/

/-- A lane's record when it is released (R52). -/
def Lane.released (x : Lane) : Lane := { x.clear with state := .idle, carrier := none }

/-- A lane is IDLE and its control entries gone; the queue is not passed yet. -/
def State.release (s : State) (l : Fin 3) : State := (s.modRouter (Router.removeControl l)).modLane l Lane.released

theorem releaseIfEmpty_eq (empty : s.userCount l = 0) (used : (s.lane l).state = .seeking ∨ (s.lane l).state = .locked) :
    releaseIfEmpty l s = queuePass (s.release l) := if_pos ⟨empty, used⟩

theorem release_lane (s : State) (l : Fin 3) : (s.release l).lane l = (s.lane l).released := by
  unfold State.release
  simp

theorem release_lane_ne (h : l ≠ m) (s : State) : (s.release l).lane m = s.lane m := lane_modLane_ne h _ _

/-- The entry that a slot runs for is CANCELLED by the host (R164). -/
theorem overrideEntry_out (k : Fin 5) (s : State) :
    overrideEntry k s = { s with schedule := (overrideEntry k s).schedule } := by
  unfold overrideEntry
  split <;> rfl

theorem overrideEntry_cancels {n : Fin 24} (h : s.runner k = some n) :
    ((overrideEntry k s).entry n).state = .cancelled := by
  unfold overrideEntry
  rw [h]
  exact congrArg Entry.state (entry_modEntry_same ..)

/-- Idle orders are all that the end of a pass brings about (R52). -/
theorem passIdle_fields (s : State) : (passIdle s).arb = s.arb ∧ (passIdle s).mode = s.mode
    ∧ ∀ l, (passIdle s).lane l = s.lane l := by
  have e := passIdle_out s
  generalize (passIdle s).out = o at e
  rw [e]
  exact ⟨rfl, rfl, fun _ => rfl⟩

/-- A lane whose only user is a slot has none when the slot has left. -/
theorem userCount_left {r : Reason} (sole : s.sole k m) (g : Gated (s.left r k) w) : w.userCount m = 0 := by
  have count := sole.count
  have one : 0 < (s.slotUsers m).length := List.length_pos_of_mem (mem_slotUsers.2 sole.lane)
  unfold State.userCount at count ⊢
  have users : (w.slotUsers m).length + 1 ≤ (s.slotUsers m).length := by
    have sub : w.slotUsers m = (s.slotUsers m).filter (· != k) := by
      unfold State.slotUsers
      rw [List.filter_filter]
      refine List.filter_congr fun j _ => ?_
      rw [(g.slots j).lane]
      by_cases e : j = k
      · subst e
        rw [left_slot]
        simp [Slot.freed]
      · have : (s.left r k).slot j = s.slot j := slot_modSlot_ne (Ne.symm e) _ _
        rw [this]
        simp [e]
    rw [sub]
    exact List.length_filter_lt_length_iff_exists.2 ⟨k, mem_slotUsers.2 sole.lane, by simp⟩
  have home : w.homeOn m = s.homeOn m := by
    unfold State.homeOn
    rw [g.arb]
    rfl
  have sweep : w.sweepOn m = s.sweepOn m := by
    unfold State.sweepOn
    rw [g.sweep]
    rfl
  rw [home, sweep]
  omega

/-! ### STOP by its owner (R24) -/

theorem flag?_of_lt {b : Byte} (h : b.toNat ≤ 1) : flag? b = some (b == 1) := by
  have : b = 0 ∨ b = 1 := by
    have : b.toNat = 0 ∨ b.toNat = 1 := by omega
    exact this.imp (fun e => BitVec.eq_of_toNat_eq e) fun e => BitVec.eq_of_toNat_eq e
  rcases this with rfl | rfl <;> rfl

theorem stopReq_frees {slot force : Byte} (hk : slot.toNat = k.val) (hf : force.toNat ≤ 1) (on : (s.slot k).state ≠ .free)
    (may : (s.slot k).origin = .user ∨ force = 1) :
    stopReq slot force s = (answer .ok (u8 k.val), stopSlot k (overrideEntry k s)) := by
  have owned : ¬ ((s.slot k).origin ≠ .user ∧ (!(force == 1)) = true) := by
    rintro ⟨foreign, unforced⟩
    rcases may with h | h
    · exact foreign h
    · rw [h] at unforced
      cases unforced
  unfold stopReq
  rw [toFin?_of_eq hk, flag?_of_lt hf]
  dsimp only
  rw [if_neg on, if_neg owned]

theorem stopReq_owned_refused {slot force : Byte} {n : Fin 24} (hk : slot.toNat = k.val) (on : (s.slot k).state ≠ .free)
    (foreign : (s.slot k).origin = .schedule n) (unforced : force = 0) : stopReq slot force s = refuse .owned s := by
  subst unforced
  unfold stopReq
  rw [toFin?_of_eq hk, flag?_of_lt (by decide)]
  dsimp only
  rw [if_neg on, if_pos ⟨by rw [foreign]; exact Origin.noConfusion, rfl⟩]

theorem stopReq_free {slot force : Byte} (hk : slot.toNat = k.val) (hf : force.toNat ≤ 1) (free : (s.slot k).state = .free) :
    stopReq slot force s = (answer .ok (u8 k.val), s) := by
  unfold stopReq
  rw [toFin?_of_eq hk, flag?_of_lt hf]
  exact if_pos free

theorem stopReq_bad {slot force : Byte} (h : 5 ≤ slot.toNat ∨ 2 ≤ force.toNat) (s : State) :
    stopReq slot force s = refuse .badField s := by
  unfold stopReq
  rcases h with h | h
  · rw [toFin?_of_le h]
  · rw [flag?_of_le h]
    cases toFin? 5 slot.toNat <;> rfl

/-! ### What a stop leaves of a lane whose only user it stops (R52) -/

/-- A stop of a slot that is its lane's only user releases the lane and passes the queue (R24, R52). -/
theorem exists_stopSole (sole : s.sole k m) : ∃ w : State, w.lanes = s.lanes ∧ w.arb = s.arb.dequeue (.slot k) ∧ w.mode = s.mode
    ∧ w.carriers = s.carriers ∧ w.clock = s.clock ∧ stopSlot k s = homeRedecide (queuePass (w.release m)) := by
  obtain ⟨w, gated, -, e⟩ := exists_freeSlot .stopped k s
  have lanes : w.lanes = s.lanes := gated.lanes
  refine ⟨w, lanes, gated.arb, gated.mode, gated.carriers, gated.clock, ?_⟩
  unfold stopSlot
  rw [e, sole.lane]
  have used := sole.used
  unfold State.lane at used
  rw [← lanes] at used
  exact congrArg homeRedecide (releaseIfEmpty_eq (userCount_left sole gated) used)

/-- None waits: the lane is IDLE (R52). -/
theorem stopSole_idle (sole : s.sole k m) (home : s.arb.home = .inactive) (mode : s.mode ≠ .standby)
    (none : s.waitersBut k = []) (asked : s.arb.sweepWaiting = false) : (stopSlot k s).releases m := by
  obtain ⟨w, lanes, arb, wmode, -, -, e⟩ := exists_stopSole sole
  have pass : queuePass (w.release m) = passIdle (w.release m) := by
    refine queuePass_idle ?_ ?_
    · show w.arb.queue = []
      rw [arb]
      exact none
    · show w.arb.sweepWaiting = false
      rw [arb]
      exact asked
  have rests : homeRedecide (passIdle (w.release m)) = passIdle (w.release m) := by
    refine homeRedecide_rests ?_ ?_
    · rw [(passIdle_fields _).1]
      show w.arb.home = .inactive
      rw [arb]
      exact home
    · rw [(passIdle_fields _).2.1]
      show w.mode ≠ .standby
      rw [wmode]
      exact mode
  have lane : (passIdle (w.release m)).lane m = (w.lane m).released :=
    ((passIdle_fields _).2.2 m).trans (release_lane w m)
  have ordered : .idleOrder m ∈ (passIdle (w.release m)).out := passIdle_orders (by rw [release_lane]; rfl)
  rw [e, pass, rests]
  generalize passIdle (w.release m) = p at lane ordered
  exact ⟨by rw [lane]; rfl, by rw [lane]; rfl, ordered⟩

/-- The head of the queue and all who wait for its carrier have the lane (R52). -/
theorem stopSole_granted {x : Waiter} {rest : List Waiter} (sole : s.sole k m) (home : s.arb.home = .inactive)
    (mode : s.mode ≠ .standby) (queue : s.waitersBut k = x :: rest) (busy : s.idleLane = none)
    (apart : ∀ y ∈ x :: rest, y.claimant ≠ .home ∧ ∀ l, l ≠ m → (s.lane l).serves y.carrier = false) :
    s.seeks (stopSlot k s) m x.carrier ∧ (stopSlot k s).joinedBy (x :: rest) x.carrier m
      ∧ (stopSlot k s).arb.queue = restOf x rest := by
  obtain ⟨w, lanes, arb, wmode, carriers, clock, e⟩ := exists_stopSole sole
  have lane : ∀ l, w.lane l = s.lane l := fun l => by unfold State.lane; rw [lanes]
  have other : ∀ l, l ≠ m → (w.release m).lane l = s.lane l := fun l hl => (release_lane_ne hl.symm w).trans (lane l)
  have granted := queuePass_grants (s := w.release m) (m := m) (x := x) (rest := rest)
    (by show w.arb.queue = _; rw [arb]; exact queue) (by rw [release_lane]; rfl)
    (fun l hl => by rw [other l hl]; exact idleLane_none_iff.1 busy l) (fun y hy => (apart y hy).1)
    (fun y hy l hl => by rw [other l hl]; exact (apart y hy).2 l hl)
  have rests : homeRedecide (queuePass (w.release m)) = queuePass (w.release m) := by
    refine homeRedecide_rests ?_ ?_
    · rw [granted.home]
      show w.arb.home = .inactive
      rw [arb]
      exact home
    · rw [granted.mode]
      show w.mode ≠ .standby
      rw [wmode]
      exact mode
  rw [e, rests]
  have at_m := granted.lane
  rw [release_lane, lane] at at_m
  refine ⟨⟨by rw [at_m]; rfl, by rw [at_m]; rfl, by rw [at_m]; rfl, ?_, fun y hy => ?_⟩,
    ⟨fun y hy i hi hc => ?_, fun y hy => ?_⟩, granted.queue⟩
  · rw [at_m]
    show some ((w.release m).clock.uptimeMs + 1500) = _
    rw [show (w.release m).clock = s.clock from clock]
  · have sent := granted.sent
    have freq : ((w.release m).carrier? x.carrier) = some y := by
      rw [← hy]
      unfold State.carrier?
      rw [show (w.release m).carriers = s.carriers from carriers]
    have order : ((w.release m).lane m).order = (s.lane m).order := by
      rw [release_lane, lane]
      rfl
    rw [freq, order] at sent
    exact sent
  · have on := granted.joined y hy hc i hi
    exact ⟨on.state, on.lane, on.told⟩
  · rw [granted.queue] at hy
    exact restOf_apart x rest y hy

/-! ### What a request leaves of what left at the ports (R184) -/

theorem serve_out (kind tag : Byte) (f : Req) (h : s.ready) :
    (s.serve kind tag f).out = (settle (f s.opened).2).out := by
  obtain ⟨r, -, e⟩ := serve_ready kind tag f h
  rw [e]
  rfl

theorem State.seeks.served (h : s.seeks u m c) (g : Served u t) (out : t.out = u.out) : s.seeks t m c :=
  ⟨by rw [g.lane]; exact h.state, by rw [g.lane]; exact h.carrier, by rw [g.lane]; exact h.order,
    by rw [g.lane]; exact h.timer, fun x hx => by rw [out]; exact h.sent x hx⟩

theorem State.joinedBy.served {ws : List Waiter} (h : u.joinedBy ws c m) (g : Served u t) : t.joinedBy ws c m := by
  refine ⟨fun x hx j hj hc => ?_, fun x hx => h.queue x (by rwa [g.arb] at hx)⟩
  obtain ⟨state, lane, told⟩ := h.slots x hx j hj hc
  exact ⟨by rw [g.slot]; exact state, by rw [g.slot]; exact lane, g.laneTold told⟩

/-- What a STOP that passes its checks does, where no entry awaits a rise (R12, R24, R52). -/
theorem stop_frees {slot force : Byte} (tag : Byte) (h : s.ready) (hk : slot.toNat = k.val) (hf : force.toNat ≤ 1)
    (on : (s.slot k).state ≠ .free) (may : (s.slot k).origin = .user ∨ force = 1) (quiet : s.noRise) :
    let u := stopSlot k (overrideEntry k s.opened)
    let t := s.serve 0x15 tag (stopReq slot force)
    s.answered t 0x15 tag (reply .ok (u8 k.val)) ∧ t.tables = s.tables ∧ Served { u with auxRises := [] } t
      ∧ t.out = u.out := by
  have req := stopReq_frees (s := s.opened) hk hf on may
  have acts : Acts s.opened (stopSlot k (overrideEntry k s.opened)) := ((Acts.refl _).overrideEntry k).stopSlot k
  have answered := serve_answered 0x15 tag (stopReq slot force) h (by rw [req]; exact (Acts.owned acts.settle).core)
  rw [req] at answered
  have settled : settle (stopReq slot force s.opened).2
      = { stopSlot k (overrideEntry k s.opened) with auxRises := [] } := by
    rw [req]
    exact settle_noRise (acts.noRise quiet)
  refine ⟨answered, ?_, ?_, ?_⟩
  · rw [serve_tables 0x15 tag (stopReq slot force) h, req]
    exact (tables_of_calm acts.settle.calm).trans (opened_tables s)
  · have served := served_serve 0x15 tag (stopReq slot force) h
    rwa [settled] at served
  · rw [serve_out 0x15 tag (stopReq slot force) h, settled]

/-- Settles O25: a stopped slot idles, whatever the release of its lane brings; and a lane that was its alone is IDLE, or
the head of the queue has it. -/
theorem stopFrees : Obligations.StopFrees := by
  intro tag slot force s h
  refine ⟨fun bad => ⟨_, rfl, serve_refused _ _ _ _ h (stopReq_bad bad _)⟩, fun k hk hf => ⟨fun free => ?_,
    fun n on foreign unforced => ⟨_, rfl, serve_refused _ _ _ _ h (stopReq_owned_refused hk on foreign unforced)⟩,
    fun on may quiet => ?_⟩⟩
  · have req : stopReq slot force s.opened = (answer .ok (u8 k.val), s.opened) := stopReq_free hk hf free
    have reads := serve_reads 0x15 tag (stopReq slot force) h (by rw [req])
    rw [req] at reads
    exact ⟨_, rfl, reads.2, reads.1⟩
  · obtain ⟨answered, tables, served, out⟩ := stop_frees tag h hk hf on may quiet
    refine ⟨_, rfl, answered, tables, ?_⟩
    generalize s.serve 0x15 tag (stopReq slot force) = t at served out
    have edited := overrideEntry_out k s.opened
    have cancels : ∀ n, s.runner k = some n → ((overrideEntry k s.opened).entry n).state = .cancelled :=
      fun n hn => overrideEntry_cancels (s := s.opened) hn
    generalize (overrideEntry k s.opened).schedule = sched at edited
    rw [edited] at served out cancels
    have idles := idles_stopSlot k { s.opened with schedule := sched }
    have sole : ∀ m, s.sole k m → ({ s.opened with schedule := sched } : State).sole k m := fun m hm =>
      ⟨hm.lane, hm.count, hm.used⟩
    have idle : ∀ m, s.sole k m → s.arb.home = .inactive → s.mode ≠ .standby → s.waitersBut k = [] →
        s.arb.sweepWaiting = false → (stopSlot k { s.opened with schedule := sched }).releases m :=
      fun m hm home mode none asked => stopSole_idle (sole m hm) home mode none asked
    have granted : ∀ m, s.sole k m → s.arb.home = .inactive → s.mode ≠ .standby → ∀ x rest,
        s.waitersBut k = x :: rest → s.idleLane = none →
        (∀ y ∈ x :: rest, y.claimant ≠ .home ∧ ∀ l, l ≠ m → (s.lane l).serves y.carrier = false) →
        s.seeks (stopSlot k { s.opened with schedule := sched }) m x.carrier
          ∧ (stopSlot k { s.opened with schedule := sched }).joinedBy (x :: rest) x.carrier m
          ∧ (stopSlot k { s.opened with schedule := sched }).arb.queue = restOf x rest :=
      fun m hm home mode x rest queue busy apart => by
        have := stopSole_granted (sole m hm) home mode queue busy apart
        exact ⟨⟨this.1.state, this.1.carrier, this.1.order, this.1.timer, this.1.sent⟩, this.2⟩
    generalize stopSlot k { s.opened with schedule := sched } = u at served out idles idle granted
    have slot : t.slot k = (s.slot k).freed .stopped := (served.slot k).trans idles.slot
    refine ⟨by rw [slot]; rfl, by rw [slot]; rfl, by rw [slot]; rfl, by rw [slot]; rfl, by rw [slot]; rfl,
      ⟨by rw [slot]; rfl, by rw [slot]; rfl, ?_⟩, ?_, fun v hv => ?_, ?_, by rw [slot]; rfl, by rw [slot]; rfl,
      by rw [slot]; rfl, fun n hn => ?_, fun m hm home mode => ⟨fun none asked => ?_, fun x rest queue busy apart => ?_⟩⟩
    · exact served.unlisted (s := { u with auxRises := [] }) idles.unlisted
    · exact served.unqueued (s := { u with auxRises := [] }) idles.rests.unqueued
    · rw [served.parental]
      exact idles.unlock v hv
    · exact idles.told.congr served.gate (served.slot k) served.lanes
    · rw [served.entry]
      have entry : u.entry n = ({ s.opened with schedule := sched } : State).entry n := by
        unfold State.entry
        rw [idles.schedule]
      exact (congrArg Entry.state entry).trans (cancels n hn)
    · have r := idle m hm home mode none asked
      exact ⟨by rw [served.lane]; exact r.state, by rw [served.lane]; exact r.carrier, by rw [out]; exact r.sent⟩
    · obtain ⟨seeks, joined, queue⟩ := granted m hm home mode x rest queue busy apart
      refine ⟨State.seeks.served (u := { u with auxRises := [] }) ⟨seeks.state, seeks.carrier, seeks.order, seeks.timer,
        seeks.sent⟩ served out, State.joinedBy.served (u := { u with auxRises := [] }) ⟨fun y hy i hi hc => ?_,
        joined.queue⟩ served, by rw [served.arb]; exact queue⟩
      obtain ⟨state, lane, told⟩ := joined.slots y hy i hi hc
      exact ⟨state, lane, told.congr rfl rfl rfl⟩

end Sys2Proof.Machine
end

