-- ==== Sys2Proof/Proofs/P14.lean ====
section
/-! SUPPORT. No slot becomes FREE by the gate array's work or by the arbiter's: grants, displacements, releases and the
sweep leave every slot in use in use (R13 to R17, R22, R52). -/

namespace Sys2Proof.Machine

open Sys2Proof

variable {k : Fin 5} {s t u : State}

/-- Every slot in use stays in use. -/
structure InUse (s t : State) : Prop where
  kept : ∀ k, (s.slot k).state ≠ .free → (t.slot k).state ≠ .free

theorem InUse.refl (s : State) : InUse s s := ⟨fun _ => id⟩

theorem InUse.trans (h : InUse s t) (g : InUse t u) : InUse s u := ⟨fun k hk => g.kept k (h.kept k hk)⟩

theorem Gated.inUse (h : Gated s t) : InUse s t := ⟨fun k hk e => hk (((h.slots k).free).1 e)⟩

/-- A slot changed, to a state other than FREE if it was in one. -/
theorem InUse.modSlot (h : InUse s t) (j : Fin 5) (f : Slot → Slot)
    (hf : (t.slot j).state ≠ .free → (f (t.slot j)).state ≠ .free) : InUse s (t.modSlot j f) := by
  refine h.trans ⟨fun k hk => ?_⟩
  rw [slot_modSlot]
  split
  · rename_i e
    subst e
    exact hf hk
  · exact hk

theorem InUse.gated (h : InUse s t) (g : Gated t u) : InUse s u := h.trans g.inUse

theorem InUse.raise (x : NoticeKind) (sub : Option Nat) (b : List Byte) (h : InUse s t) : InUse s (t.raise x sub b) :=
  h.gated (gated_raise ..)

theorem InUse.modLane (l : Fin 3) (f : Lane → Lane) (h : InUse s t) : InUse s (t.modLane l f) := ⟨h.kept⟩
theorem InUse.modSweep (f : Sweep → Sweep) (h : InUse s t) : InUse s (t.modSweep f) := ⟨h.kept⟩
theorem InUse.modArb (f : Arbiter → Arbiter) (h : InUse s t) : InUse s (t.modArb f) := ⟨h.kept⟩
theorem InUse.modRouter (f : Router → Router) (h : InUse s t) : InUse s (t.modRouter f) := ⟨h.kept⟩
theorem InUse.modEntry (n : Fin 24) (f : Entry → Entry) (h : InUse s t) : InUse s (t.modEntry n f) := ⟨h.kept⟩
theorem InUse.modParental (f : Parental → Parental) (h : InUse s t) : InUse s (t.modParental f) := ⟨h.kept⟩
theorem InUse.emit (o : PortOut) (h : InUse s t) : InUse s (t.emit o) := ⟨h.kept⟩

theorem InUse.forEach {α : Type} {l : List α} {f : α → State → State} (hf : ∀ a ∈ l, ∀ u, InUse s u → InUse s (f a u))
    (h : InUse s t) : InUse s (forEach l f t) := forEach_keeps (P := InUse s) hf h

/-! ### Slots on their lanes (R13 to R16, R22) -/

theorem InUse.installSlot (j : Fin 5) (h : InUse s t) : InUse s (installSlot j t) := by
  unfold Machine.installSlot
  split
  · exact h
  · exact h.modRouter _

theorem InUse.enterAcquiring (j : Fin 5) (h : InUse s t) : InUse s (enterAcquiring j t) := by
  have installed := (h.modSlot j (fun sl => { sl with state := .acquiring }) fun _ =>
    (by decide : SlotState.acquiring ≠ .free)).installSlot j
  unfold Machine.enterAcquiring
  dsimp only
  split
  · have told := installed.gated (gated_setEntitled j true false _)
    unfold Machine.chooseByPermit
    split
    · exact InUse.raise _ _ _ (told.modSlot j _ fun _ => (by decide : SlotState.presenting ≠ .free))
    · exact InUse.raise _ _ _ (told.modSlot j _ fun _ => (by decide : SlotState.held ≠ .free))
  · exact installed.modSlot j _ id

theorem InUse.joinSlot (j : Fin 5) (l : Fin 3) (h : InUse s t) : InUse s (joinSlot j l t) := by
  unfold Machine.joinSlot
  split
  · exact ((h.modSlot j _ fun _ => (by decide : SlotState.acquiring ≠ .free)).gated
      (gated_syncSlots [j] _)).enterAcquiring j
  · exact (h.modSlot j _ fun _ => (by decide : SlotState.tuning ≠ .free)).gated (gated_syncSlots [j] _)

theorem InUse.displaceSlot (j : Fin 5) (h : InUse s t) : InUse s (displaceSlot j t) := by
  unfold Machine.displaceSlot
  refine InUse.raise _ _ _ (InUse.gated (InUse.modArb _ ?_) (gated_reportLeft j _))
  exact InUse.modSlot (InUse.modSlot (h.modRouter _) j _ id) j _ fun _ => (by decide : SlotState.waitLane ≠ .free)

/-! ### Lanes, the sweep and the queue pass (R36, R52, R118) -/

theorem InUse.startSeek (l : Fin 3) (c : Nat) (h : InUse s t) : InUse s (startSeek l c t) :=
  InUse.gated (((h.modRouter _).modLane _ _).emit _) (gated_startSeek l c t)

theorem InUse.grantTo (c : Claimant) (l : Fin 3) (h : InUse s t) : InUse s (grantTo c l t) := by
  cases c with
  | slot j => exact (h.modArb (Arbiter.dequeue (.slot j))).joinSlot j l
  | home => exact ⟨h.kept⟩

theorem InUse.joinWaiters (f : Waiter → Bool) (h : InUse s t) : InUse s (joinWaiters f t) := by
  unfold Machine.joinWaiters
  refine h.forEach fun w _ u hu => ?_
  split
  · split
    · exact hu.grantTo _ _
    · exact hu
  · exact hu

theorem InUse.giveLane (c : Claimant) (n : Nat) (l : Fin 3) (h : InUse s t) : InUse s (giveLane c n l t) :=
  ((h.startSeek l n).grantTo c l).joinWaiters _

theorem InUse.startDwell (h : InUse s t) : InUse s t.startDwell := by
  unfold State.startDwell
  split
  · exact h
  · exact h.modSweep _

theorem InUse.sweepPause (c : PauseCause) (h : InUse s t) : InUse s (sweepPause c t) := (h.modSweep _).modArb _

theorem InUse.sweepAdvance (h : InUse s t) : InUse s (sweepAdvance t) := by
  unfold Machine.sweepAdvance
  dsimp only
  split
  · exact h.modSweep _
  · exact (h.modSweep _).raise ..
  · exact (h.modSweep _).sweepPause _

theorem InUse.sweepClaim (n : Nat) (h : InUse s t) : InUse s (sweepClaim n t) := by
  induction n generalizing t with
  | zero => exact h
  | succ n ih =>
    unfold Machine.sweepClaim
    split
    · exact h
    · split
      · dsimp only
        split
        · exact (InUse.sweepPause _ ((h.modSweep _).modSweep _)).startDwell
        · exact ih (h.modSweep _).sweepAdvance
      · split
        · exact InUse.startSeek _ _ ((h.modSweep _).modArb _)
        · exact h.sweepPause _

theorem InUse.passGrant (h : InUse s t) : InUse s (passGrant t) := by
  unfold Machine.passGrant
  split
  · exact h.giveLane _ _ _
  · exact h

theorem InUse.passSweep (h : InUse s t) : InUse s (passSweep t) := by
  unfold Machine.passSweep
  split
  · exact h.sweepClaim _
  · exact h

theorem InUse.passIdle (h : InUse s t) : InUse s (passIdle t) := by
  refine h.forEach fun l _ u hu => ?_
  split
  · exact hu.emit _
  · exact hu

theorem InUse.queuePass (h : InUse s t) : InUse s (queuePass t) :=
  ((h.joinWaiters _).passGrant.passGrant.passGrant).passSweep.passIdle

theorem InUse.releaseLeft (l : Option (Fin 3)) (h : InUse s t) : InUse s (releaseLeft l t) := by
  unfold Machine.releaseLeft
  split
  · unfold releaseIfEmpty
    split
    · exact InUse.queuePass ((h.modRouter _).modLane _ _)
    · exact h
  · exact h

/-! ### Preemption and the home hold (R50, R54) -/

theorem InUse.displaceAll (l : Fin 3) (h : InUse s t) : InUse s (displaceAll l t) := by
  have slots : InUse s (Machine.forEach (t.slotUsers l) Machine.displaceSlot t) :=
    h.forEach fun j _ _ hu => hu.displaceSlot j
  unfold Machine.displaceAll
  generalize Machine.forEach (t.slotUsers l) Machine.displaceSlot t = u at slots
  have home : InUse s (displaceHome l u) := by
    unfold displaceHome
    split
    · split <;> exact slots.modArb _
    · exact slots
  unfold displaceSweep
  split
  · exact InUse.sweepPause _ (home.modSweep _)
  · exact home

theorem InUse.claim (c : Claimant) (n : Nat) (h : InUse s t) : InUse s (claim c n t) := by
  unfold Machine.claim
  split
  · exact h.grantTo _ _
  · exact h.giveLane _ _ _
  · exact InUse.giveLane _ _ _ ((h.displaceAll _).modLane _ _)
  · cases c with
    | slot j => exact ⟨h.kept⟩
    | home => exact ⟨h.kept⟩

theorem InUse.homeLeave (h : InUse s t) : InUse s (homeLeave t) := (h.modArb _).releaseLeft _

theorem InUse.homeClaim (h : InUse s t) : InUse s (homeClaim t) := by
  unfold Machine.homeClaim
  split
  · exact h.claim _ _
  · exact h

theorem InUse.homeRedecide (h : InUse s t) : InUse s (homeRedecide t) := by
  have again : ∀ {u}, InUse s u → InUse s (if u.homeCondition none then Machine.homeClaim u else u) := fun hu => by
    split
    · exact hu.homeClaim
    · exact hu
  have moved : InUse s (if !t.homeCondition t.homeLane then Machine.homeLeave t
      else if t.homeMoved then
        if (Machine.homeLeave t).homeCondition none then Machine.homeClaim (Machine.homeLeave t)
        else Machine.homeLeave t
      else t) := by
    split
    · exact h.homeLeave
    · split
      · exact again h.homeLeave
      · exact h
  unfold Machine.homeRedecide
  split
  · exact again h
  · exact moved
  · exact moved
  · split
    · exact h
    · exact h.modArb _

theorem InUse.sweepEnterConfig (h : InUse s t) : InUse s (sweepEnterConfig t) := by
  unfold Machine.sweepEnterConfig
  split
  · exact h
  · exact InUse.sweepPause _ (InUse.releaseLeft _ (h.modSweep _))
  · exact InUse.sweepPause _ (h.modSweep _)

end Sys2Proof.Machine
end

