-- ==== Sys2Proof/Proofs/P15.lean ====
section
/-! PROOF of O17: MODE_SET (R25, R172). -/

namespace Sys2Proof.Machine

open Sys2Proof

variable {k : Fin 5} {m : Mode} {s t u : State}

/-! ### A slot that is out stays as it is (R25) -/

/-- A slot that is out of it stays out, and its view and its service stay. -/
structure StaysOut (k : Fin 5) (s t : State) : Prop where
  out : s.outSlot k → t.outSlot k
  view : s.outSlot k → (t.slot k).view = (s.slot k).view
  service : s.outSlot k → (t.slot k).service = (s.slot k).service

theorem StaysOut.refl (k : Fin 5) (s : State) : StaysOut k s s := ⟨id, fun _ => rfl, fun _ => rfl⟩

theorem StaysOut.trans (h : StaysOut k s t) (g : StaysOut k t u) : StaysOut k s u :=
  ⟨fun o => g.out (h.out o), fun o => (g.view (h.out o)).trans (h.view o),
    fun o => (g.service (h.out o)).trans (h.service o)⟩

theorem Flow.staysOut (h : Flow (some k) s t) : StaysOut k s t :=
  ⟨fun o => (h.out k rfl o).1, fun o => (h.out k rfl o).2, fun _ => (congrArg Slot.service (still_slot h.still k) :)⟩

/-- Work that flows as long as the slot is out. -/
theorem staysOut_of_flow (h : s.outSlot k → Flow (some k) s t) : StaysOut k s t :=
  ⟨fun o => (h o).staysOut.out o, fun o => (h o).staysOut.view o, fun o => (h o).staysOut.service o⟩

theorem watched (o : s.outSlot k) : ∀ j ∈ some k, s.outSlot j := by
  rintro j ⟨⟩
  exact o

theorem Gated.staysOut (h : Gated s t) : StaysOut k s t := by
  have same : s.outSlot k → t.slot k = s.slot k := fun o => by
    refine (h.slots k).eq_of ?_ ?_
    all_goals rcases o.2.1 with e | e <;> rw [e] <;> decide
  refine ⟨fun o => ?_, fun o => by rw [same o], fun o => by rw [same o]⟩
  unfold State.outSlot
  rw [same o, h.arb]
  exact o

/-! ### Slots freed one after another (R25) -/

theorem tellInterrupted_slots (j : Fin 5) (s : State) : (tellInterrupted j s).slots = s.slots := by
  unfold tellInterrupted
  split <;> rfl

theorem left_slot_ne {j : Fin 5} (h : j ≠ k) (r : Reason) (s : State) : (s.left r j).slot k = s.slot k :=
  slot_modSlot_ne h _ _

theorem staysOut_left {j : Fin 5} (h : j ≠ k) (r : Reason) (s : State) : StaysOut k s (s.left r j) := by
  refine ⟨fun o => ?_, fun _ => by rw [left_slot_ne h], fun _ => by rw [left_slot_ne h]⟩
  unfold State.outSlot
  rw [left_slot_ne h]
  exact ⟨o.1, o.2.1, fun w hw => o.2.2 w (List.mem_filter.1 hw).1⟩

/-- A slot freed is none of another that is out, or in use. -/
theorem freeSlot_other {j : Fin 5} (h : j ≠ k) (r : Reason) (s : State) :
    StaysOut k s (freeSlot r j s) ∧ ((s.slot k).state ≠ .free → ((freeSlot r j s).slot k).state ≠ .free) := by
  obtain ⟨w, gated, -, e⟩ := exists_freeSlot r j s
  rw [e]
  refine ⟨(staysOut_left h r s).trans (gated.staysOut.trans (staysOut_of_flow fun o =>
    (Flow.refl _ w).releaseLeft (watched o) _)), fun on => ?_⟩
  refine ((gated.inUse).releaseLeft (s.slot j).lane).kept k ?_
  rw [left_slot_ne h]
  exact on

theorem sendFree_other {j : Fin 5} (h : j ≠ k) (r : Reason) (s : State) :
    StaysOut k s (sendFree r j s) ∧ ((s.slot k).state ≠ .free → ((sendFree r j s).slot k).state ≠ .free) := by
  unfold sendFree
  split
  · exact ⟨.refl k s, id⟩
  · have told : StaysOut k s (tellInterrupted j s) := ((Flow.refl _ s).tellInterrupted j).staysOut
    have freed := freeSlot_other h r (tellInterrupted j s)
    refine ⟨told.trans (freed.1.trans ((Flow.refl _ _).slotNotice j).staysOut), fun on => ?_⟩
    unfold State.slotNotice
    rw [slot_raise]
    refine freed.2 ?_
    unfold State.slot
    rw [tellInterrupted_slots]
    exact on

/-- A slot FREE with a reason, its service absent, out of every lane and of the queue. -/
structure State.isFree (s : State) (k : Fin 5) (r : Reason) : Prop where
  out : s.outSlot k
  state : (s.slot k).state = .free
  reason : (s.slot k).reason = r
  service : (s.slot k).service = none

theorem State.isFree.stays {r : Reason} (h : s.isFree k r) (g : StaysOut k s t) : t.isFree k r :=
  ⟨g.out h.out, (congrArg (·.1) (g.view h.out)).trans h.state, (congrArg (·.2.1) (g.view h.out)).trans h.reason,
    (g.service h.out).trans h.service⟩

theorem sendFree_frees (r : Reason) (on : (s.slot k).state ≠ .free) : (sendFree r k s).isFree k r := by
  have idles := idles_freeSlot r k (tellInterrupted k s)
  unfold sendFree
  rw [if_neg on]
  refine State.isFree.stays (s := freeSlot r k (tellInterrupted k s)) ?_ ((Flow.refl _ _).slotNotice k).staysOut
  refine ⟨⟨?_, .inl ?_, idles.rests.unqueued⟩, ?_, ?_, ?_⟩
  all_goals rw [idles.slot]; rfl

/-- Each slot of a list freed in its turn: one in use is FREE after, and stays so. -/
theorem isFree_sendFrees {ks : List (Fin 5)} (once : ks.Nodup) (r : Reason) (hk : k ∈ ks)
    (on : (s.slot k).state ≠ .free) : (forEach ks (sendFree r) s).isFree k r := by
  induction ks generalizing s with
  | nil => cases hk
  | cons j ks ih =>
    obtain ⟨fresh, once⟩ := List.nodup_cons.1 once
    show (forEach ks (sendFree r) (sendFree r j s)).isFree k r
    by_cases e : j = k
    · subst e
      refine forEach_keeps (P := fun u => u.isFree j r) (fun i hi u hu => hu.stays (sendFree_other ?_ r u).1)
        (sendFree_frees r on)
      rintro rfl
      exact fresh hi
    · exact ih once ((List.mem_cons.1 hk).resolve_left fun h => e h.symm) ((sendFree_other e r s).2 on)

/-- A slot FREE and out stays FREE. -/
theorem free_sendFrees (ks : List (Fin 5)) (r : Reason) (o : s.outSlot k) (free : (s.slot k).state = .free) :
    (forEach ks (sendFree r) s).outSlot k ∧ ((forEach ks (sendFree r) s).slot k).state = .free := by
  refine forEach_keeps (P := fun u => u.outSlot k ∧ (u.slot k).state = .free) (fun j _ u hu => ?_) ⟨o, free⟩
  by_cases e : j = k
  · subst e
    unfold sendFree
    rw [if_pos hu.2]
    exact hu
  · have stays := (sendFree_other e r u).1
    exact ⟨stays.out hu.1, (congrArg (·.1) (stays.view hu.1)).trans hu.2⟩

/-! ### A mode entered (R25, R172) -/

theorem announceMode_gated (c : ModeCause) (m : Mode) (s : State) : ∃ w, Gated (s.setMode m) w
    ∧ announceMode c m s = w.modArb (Arbiter.dequeueAll (slotsForMode m)) :=
  ⟨_, (gated_raise ..).trans (gated_report ..), rfl⟩

theorem announceMode_slot (c : ModeCause) (m : Mode) (s : State) (k : Fin 5) :
    (s.slot k).Moved ((announceMode c m s).slot k) := by
  obtain ⟨w, gated, e⟩ := announceMode_gated c m s
  rw [e]
  exact gated.slots k

theorem announceMode_unqueued (c : ModeCause) (s : State) (hk : k ∈ slotsForMode m) :
    (announceMode c m s).unqueued k := by
  obtain ⟨w, -, e⟩ := announceMode_gated c m s
  rw [e]
  intro x hx hc
  have h := (List.mem_filter.1 hx).2
  simp only [Bool.not_eq_true', List.any_eq_false, beq_iff_eq] at h
  exact h k hk hc

theorem announceMode_flag (c : ModeCause) (m : Mode) (running : s.restarting = false) :
    (announceMode c m s).link.flags[8] = true :=
  (((Flow.refl none ((s.setMode m).modeNotice c s.mode m)).gateReport _).arbLess (Arbiter.dequeueAll (slotsForMode m))
    List.filter_sublist).flags 8 (raise_flag .mode _ _ running)

theorem inUse_laneWorkForMode (m : Mode) (s : State) : InUse s (laneWorkForMode m s) := by
  unfold laneWorkForMode
  split
  · exact (InUse.refl s).sweepEnterConfig.homeRedecide
  · exact .refl s

/-- A slot that entry to a mode frees, entry not being from CONFIG (R25). -/
theorem changeMode_frees (c : ModeCause) (fromOther : s.mode ≠ .config) (hk : k ∈ slotsForMode m)
    (free : (s.slot k).state = .free → (s.slot k).lane = none) :
    ((changeMode c m s).slot k).state = .free
      ∧ ((s.slot k).state ≠ .free → ((changeMode c m s).slot k).reason = .mode
        ∧ ((changeMode c m s).slot k).service = none) := by
  have moved := announceMode_slot c m s k
  have unqueued := announceMode_unqueued c s hk
  have eq : changeMode c m s = homeRedecide (freeForMode m (laneWorkForMode m (announceMode c m s))) := by
    unfold changeMode
    exact if_neg fromOther
  rw [eq]
  generalize announceMode c m s = a at moved unqueued
  have once : (slotsForMode m).Nodup := by cases m <;> decide
  have home : ∀ u, StaysOut k u (homeRedecide u) := fun u => staysOut_of_flow fun o => (Flow.refl _ u).homeRedecide (watched o)
  by_cases was : (s.slot k).state = .free
  · have afree : (a.slot k).state = .free := moved.free.2 was
    have aout : a.outSlot k := ⟨by rw [moved.lane]; exact free was, .inl afree, unqueued⟩
    have work : StaysOut k a (laneWorkForMode m a) := staysOut_of_flow fun o =>
      (Flow.refl _ a).laneWorkForMode (watched o) m
    have freed := free_sendFrees (slotsForMode m) .mode (work.out aout) ((congrArg (·.1) (work.view aout)).trans afree)
    exact ⟨(congrArg (·.1) ((home _).view freed.1)).trans freed.2, fun on => absurd was on⟩
  · have on : (a.slot k).state ≠ .free := fun e => was (moved.free.1 e)
    have freed := (isFree_sendFrees once .mode hk ((inUse_laneWorkForMode m a).kept k on)).stays (home _)
    exact ⟨freed.state, fun _ => ⟨freed.reason, freed.service⟩⟩

/-! ### MODE_SET by its owner (R172) -/

theorem modeChange_acts (c : ModeCause) (m : Mode) (s : State) : Acts (s.setMode m) (modeChange c m s) := by
  unfold modeChange
  dsimp only
  split
  · exact (changeMode_acts c m s).evaluateAll
  · exact changeMode_acts c m s

theorem modeChange_flag (c : ModeCause) (m : Mode) (running : s.restarting = false) :
    (modeChange c m s).link.flags[8] = true := by
  have announced : Acts (announceMode c m s) (changeMode c m s) := by
    have h := (((Flow.refl none _).laneWorkForMode (nobody (announceMode c m s)) m).acts.freeForMode m).homeRedecide
    unfold changeMode
    dsimp only
    split
    · exact (h.flow (Flow.refl none _).sweepLeaveConfig).homeRedecide
    · exact h
  unfold modeChange
  dsimp only
  split
  · exact announced.evaluateAll.flags 8 (announceMode_flag c m running)
  · exact announced.flags 8 (announceMode_flag c m running)

theorem modeSetReq_same {b : Byte} (hb : modeOf b = some m) (same : m = s.mode) :
    modeSetReq b s = (answer .ok (u8 s.mode.code ++ u8 m.code), s) := by
  unfold modeSetReq
  rw [hb]
  exact if_pos same

theorem modeSetReq_changes {b : Byte} (hb : modeOf b = some m) (other : m ≠ s.mode) :
    modeSetReq b s = (answer .ok (u8 s.mode.code ++ u8 m.code), modeChange .request m s) := by
  unfold modeSetReq
  rw [hb]
  exact if_neg other

theorem setMode_calm (m : Mode) (s : State) : (s.setMode m).calm = s.calm := rfl

/-- A MODE_SET that names another mode (R25, R172). -/
theorem modeSet_enters {b : Byte} (tag : Byte) (h : s.ready) (hb : modeOf b = some m) (other : m ≠ s.mode)
    (asleep : s.noWake) :
    let t := s.serve 0x01 tag (modeSetReq b)
    s.answered t 0x01 tag (reply .ok (u8 s.mode.code ++ u8 m.code)) ∧ t.mode = m ∧ t.link.flags[8] = true
      ∧ t.tables = s.tables
      ∧ (s.noRise → ∀ k, t.slot k = (modeChange .request m s.opened).slot k) := by
  have req := modeSetReq_changes (s := s.opened) hb other
  have acts := modeChange_acts .request m s.opened
  have settled := (Acts.refl (modeChange .request m s.opened)).settle
  have owned : Owned s.opened (settle (modeChange .request m s.opened)) :=
    (modeChange_owned .request m s.opened).trans (settle_owned _)
  have answered := serve_answered 0x01 tag (modeSetReq b) h (by rw [req]; exact owned.core)
  rw [req] at answered
  have served := served_serve 0x01 tag (modeSetReq b) h
  rw [req] at served
  refine ⟨answered, ?_, ?_, ?_, fun quiet k => ?_⟩
  · rw [served.mode]
    exact (settled.mode (acts.noWake asleep)).trans (acts.mode asleep)
  · rw [served.flags]
    exact settled.flags 8 (modeChange_flag .request m h.running)
  · rw [serve_tables 0x01 tag (modeSetReq b) h, req]
    exact (tables_of_calm (settled.calm.trans (acts.calm.trans (setMode_calm m s.opened)))).trans (opened_tables s)
  · rw [served.slot]
    show (settle (modeChange .request m s.opened)).slot k = _
    rw [settle_noRise (acts.noRise quiet)]
    rfl

/-- Settles O17: a mode entered changes what its work touches, and each slot it frees leaves in its turn. -/
theorem modeSetMoves : Obligations.ModeSetMoves := by
  intro tag b s h
  refine ⟨fun h1 h2 h3 => ?_, fun m hm => ⟨fun same => ?_, fun other asleep => ?_⟩⟩
  · refine ⟨_, rfl, serve_refused _ _ _ _ h ?_⟩
    unfold modeSetReq modeOf
    rw [if_neg h1, if_neg h2, if_neg h3]
  all_goals
    have hb : modeOf b = some m ∧ u8 m.code = [b] := by
      simp only [List.mem_cons, Prod.mk.injEq, List.not_mem_nil, or_false] at hm
      rcases hm with ⟨rfl, rfl⟩ | ⟨rfl, rfl⟩ | ⟨rfl, rfl⟩ <;> exact ⟨rfl, rfl⟩
  · have req := modeSetReq_same (s := s.opened) hb.1 same
    have reads := serve_reads 0x01 tag (modeSetReq b) h (by rw [req])
    rw [req, show s.opened.mode = m from same.symm, hb.2] at reads
    exact ⟨_, rfl, reads.2, reads.1⟩
  · obtain ⟨answered, mode, flag, tables, slots⟩ := modeSet_enters tag h hb.1 other asleep
    rw [hb.2] at answered
    refine ⟨_, rfl, answered, mode, flag, tables, fun quiet free k frees => ?_⟩
    rw [slots quiet k]
    have fromOther : s.mode ≠ .config := by
      rcases frees with rfl | ⟨-, e, -⟩
      · exact fun e => other e.symm
      · rw [e]
        decide
    have hk : k ∈ slotsForMode m := by
      rcases frees with rfl | ⟨rfl, -, hk⟩
      · revert k
        decide
      · revert k
        decide
    have eq : modeChange .request m s.opened = changeMode .request m s.opened := by
      unfold modeChange
      exact if_neg fromOther
    rw [eq]
    exact changeMode_frees (s := s.opened) .request fromOther hk (free k)

end Sys2Proof.Machine
end

