-- ==== Sys2Proof/Proofs/P16.lean ====
section
/-! SUPPORT. What the installing of entries does to the filter table, key by key (R56, R57). -/

namespace Sys2Proof.Machine

open Sys2Proof

variable {j k : Fin 5} {l : Fin 3} {tag key : Nat} {r : Router} {s t : State}

/-- The entry of the filter table at a key (R56). -/
def Router.at (r : Router) (key : Nat) : Option Filter := keyFind Filter.key key r.filters

/-- The entry at a key names a slot (R56). -/
def Router.names (r : Router) (k : Fin 5) (key : Nat) : Prop := ∃ f ks, r.at key = some f ∧ f.dest = .slots ks ∧ k ∈ ks

/-- The filter table in the order of its keys. -/
def Router.sorted (r : Router) : Prop := KeySorted Filter.key r.filters

theorem mem_addSlot_iff {i : Fin 5} {ks : List (Fin 5)} : i ∈ addSlot j ks ↔ i = j ∨ i ∈ ks := by
  unfold addSlot
  split
  · rename_i h
    have : j ∈ ks := by simpa using h
    constructor
    · exact .inr
    · rintro (rfl | h)
      · exact this
      · exact h
  · exact mem_insertBy

/-- The entry that the installing of a tag for a slot puts in the place of what is there (R57). -/
def Filter.joined (j : Fin 5) (l : Fin 3) (tag : Nat) (old : Option Filter) : Filter :=
  match old with
  | some { dest := .slots ks, last, .. } => { lane := l, tag, dest := .slots (addSlot j ks), last }
  | _ => { lane := l, tag, dest := .slots [j] }

theorem Filter.joined_key (j : Fin 5) (l : Fin 3) (tag : Nat) (old : Option Filter) :
    (Filter.joined j l tag old).key = l.val * 1024 + tag := by
  unfold Filter.joined
  split <;> rfl

theorem installTag_filters (j : Fin 5) (l : Fin 3) (tag : Nat) (r : Router) :
    (r.installTag j l tag).filters
      = keyPut Filter.key (Filter.joined j l tag (r.at (l.val * 1024 + tag))) r.filters := by
  unfold Router.installTag Router.at
  split
  · rename_i h
    rw [h]
    rfl
  · rename_i other
    unfold Filter.joined
    split
    · rename_i h
      exact absurd h (other _ _ _ _)
    · rfl

theorem at_installTag (sorted : r.sorted) (j : Fin 5) (l : Fin 3) (tag key : Nat) :
    (r.installTag j l tag).at key
      = if l.val * 1024 + tag = key then some (Filter.joined j l tag (r.at key)) else r.at key := by
  show keyFind Filter.key key (r.installTag j l tag).filters = _
  rw [installTag_filters, keyFind_keyPut _ _ sorted, Filter.joined_key]
  split
  · rename_i e
    rw [e]
  · rfl

/-- An entry that a slot joins names that slot and those it named (R57). -/
theorem Filter.joined_names {old : Option Filter} {ks : List (Fin 5)} (h : (Filter.joined j l tag old).dest = .slots ks) :
    k ∈ ks ↔ (∃ f is, old = some f ∧ f.dest = .slots is ∧ k ∈ is) ∨ k = j := by
  unfold Filter.joined at h
  split at h
  · cases h
    rw [mem_addSlot_iff]
    constructor
    · rintro (e | e)
      · exact .inr e
      · exact .inl ⟨_, _, rfl, rfl, e⟩
    · rintro (⟨f, is, e, d, hk⟩ | e)
      · cases e
        cases d
        exact .inr hk
      · exact .inl e
  · rename_i other
    cases h
    constructor
    · exact fun e => .inr (List.mem_singleton.1 e)
    · rintro (⟨f, is, e, d, hk⟩ | e)
      · subst e
        obtain ⟨a, b, c, d'⟩ := f
        cases d
        exact absurd rfl (other _ _ _ _)
      · exact List.mem_singleton.2 e

theorem Filter.joined_dest (j : Fin 5) (l : Fin 3) (tag : Nat) (old : Option Filter) :
    ∃ ks, (Filter.joined j l tag old).dest = .slots ks := by
  unfold Filter.joined
  split <;> exact ⟨_, rfl⟩

theorem Filter.joined_last_slots {f : Filter} {ks : List (Fin 5)} (h : f.dest = .slots ks) :
    (Filter.joined j l tag (some f)).last = f.last := by
  obtain ⟨a, b, c, d⟩ := f
  cases h
  rfl

theorem Filter.joined_last_fresh {old : Option Filter} (h : ∀ f ∈ old, f.last = none) :
    (Filter.joined j l tag old).last = none := by
  unfold Filter.joined
  split
  · exact (h _ rfl : _)
  · rfl

theorem names_installTag (sorted : r.sorted) (j k : Fin 5) (l : Fin 3) (tag key : Nat) :
    (r.installTag j l tag).names k key ↔ r.names k key ∨ (k = j ∧ key = l.val * 1024 + tag) := by
  unfold Router.names
  rw [at_installTag sorted]
  split
  · rename_i e
    constructor
    · rintro ⟨f, ks, hf, hd, hk⟩
      cases hf
      exact ((Filter.joined_names hd).1 hk).imp id fun h => ⟨h, e.symm⟩
    · intro h
      obtain ⟨ks, hd⟩ := Filter.joined_dest j l tag (r.at key)
      exact ⟨_, ks, rfl, hd, (Filter.joined_names hd).2 (h.imp id (·.1))⟩
  · rename_i e
    constructor
    · exact .inl
    · exact fun h => h.resolve_right fun h => e h.2.symm

/-! ### The table after some tags are installed on a lane (R57) -/

/-- What the installing of entries on a lane does to the table: some slots join at some keys of that lane, what is new
has no sequence count, and what was there keeps its own. -/
structure Installed (l : Fin 3) (ok : Prop) (joins : Fin 5 → Nat → Prop) (r r' : Router) : Prop where
  sorted : r'.sorted
  names : ∀ k key, r'.names k key ↔ r.names k key ∨ joins k key
  fresh : ∀ key, (∀ f, r.at key = some f → f.last = none) → ∀ g, r'.at key = some g → g.last = none
  kept : ∀ key f ks, r.at key = some f → f.dest = .slots ks →
    ∃ g is, r'.at key = some g ∧ g.dest = .slots is ∧ g.last = f.last
  apart : ok → ∀ key, key / 1024 ≠ l.val ∨ key % 1024 ≤ 15 → r'.at key = r.at key

theorem Installed.refl (sorted : r.sorted) (l : Fin 3) (ok : Prop) : Installed l ok (fun _ _ => False) r r :=
  ⟨sorted, fun _ _ => by simp, fun _ h => h, fun _ f ks h hd => ⟨f, ks, h, hd, rfl⟩, fun _ _ _ => rfl⟩

theorem Installed.trans {ok : Prop} {p q : Fin 5 → Nat → Prop} {r' r'' : Router} (h : Installed l ok p r r')
    (g : Installed l ok q r' r'') : Installed l ok (fun k key => p k key ∨ q k key) r r'' := by
  refine ⟨g.sorted, fun k key => by rw [g.names, h.names, or_assoc], fun key first => g.fresh key (h.fresh key first),
    fun key f ks hf hd => ?_, fun o key hk => (g.apart o key hk).trans (h.apart o key hk)⟩
  obtain ⟨x, is, hx, hxd, hl⟩ := h.kept key f ks hf hd
  obtain ⟨y, js, hy, hyd, hyl⟩ := g.kept key x is hx hxd
  exact ⟨y, js, hy, hyd, hyl.trans hl⟩

/-- The same joins, told otherwise. -/
theorem Installed.congr {ok ok' : Prop} {p q : Fin 5 → Nat → Prop} {r' : Router} (h : Installed l ok p r r')
    (joins : ∀ k key, p k key ↔ q k key) (oks : ok' → ok) : Installed l ok' q r r' :=
  ⟨h.sorted, fun k key => by rw [h.names, joins], h.fresh, h.kept, fun o => h.apart (oks o)⟩

theorem sorted_installTag (sorted : r.sorted) (j : Fin 5) (l : Fin 3) (tag : Nat) : (r.installTag j l tag).sorted :=
  Router.sorted_installTag j l tag sorted

theorem installed_tag (sorted : r.sorted) (j : Fin 5) (l : Fin 3) (tag : Nat) :
    Installed l (16 ≤ tag ∧ tag ≤ 1023) (fun k key => k = j ∧ key = l.val * 1024 + tag) r (r.installTag j l tag) := by
  refine ⟨sorted_installTag sorted j l tag, fun k key => names_installTag sorted j k l tag key, fun key first g hg => ?_,
    fun key f ks hf hd => ?_, fun o key hk => ?_⟩
  · rw [at_installTag sorted] at hg
    split at hg
    · cases hg
      exact Filter.joined_last_fresh first
    · exact first g hg
  · rw [at_installTag sorted]
    split
    · rw [hf]
      obtain ⟨is, hi⟩ := Filter.joined_dest j l tag (some f)
      exact ⟨_, is, rfl, hi, Filter.joined_last_slots hd⟩
    · exact ⟨f, ks, hf, hd, rfl⟩
  · rw [at_installTag sorted]
    exact if_neg (by omega)

theorem installed_tags (sorted : r.sorted) (j : Fin 5) (l : Fin 3) (tags : List Nat) :
    Installed l (∀ tag ∈ tags, 16 ≤ tag ∧ tag ≤ 1023) (fun k key => k = j ∧ ∃ tag ∈ tags, key = l.val * 1024 + tag) r
      (tags.foldl (fun r tag => r.installTag j l tag) r) := by
  induction tags generalizing r with
  | nil => exact (Installed.refl sorted l _).congr (by simp) id
  | cons tag tags ih =>
    have one := (installed_tag sorted j l tag).congr (ok' := ∀ x ∈ tag :: tags, 16 ≤ x ∧ x ≤ 1023) (fun _ _ => .rfl)
      fun all => all tag (by simp)
    have rest := (ih one.sorted).congr (ok' := ∀ x ∈ tag :: tags, 16 ≤ x ∧ x ≤ 1023) (fun _ _ => .rfl)
      fun all x hx => all x (by simp [hx])
    refine (one.trans rest).congr (fun k key => ?_) id
    rw [← and_or_left]
    refine and_congr_right fun _ => ?_
    simp only [List.mem_cons, exists_eq_or_imp]

/-! ### The control entries of a lane (R57) -/

theorem at_installControl (sorted : r.sorted) (l : Fin 3) (key : Nat) : (r.installControl l).at key
    = if l.val * 1024 + 4 = key then some { lane := l, tag := 4, dest := .consumer .time }
      else if l.val * 1024 + 3 = key then some { lane := l, tag := 3, dest := .consumer .guide }
      else if l.val * 1024 + 2 = key then some { lane := l, tag := 2, dest := .consumer .entitlement }
      else if l.val * 1024 + 1 = key then some { lane := l, tag := 1, dest := .consumer .key }
      else r.at key := by
  have s1 := keySorted_keyPut (key := Filter.key) ({ lane := l, tag := 1, dest := .consumer .key }) sorted
  have s2 := keySorted_keyPut (key := Filter.key) ({ lane := l, tag := 2, dest := .consumer .entitlement }) s1
  have s3 := keySorted_keyPut (key := Filter.key) ({ lane := l, tag := 3, dest := .consumer .guide }) s2
  unfold Router.at
  show keyFind Filter.key key (keyPut Filter.key _ (keyPut Filter.key _ (keyPut Filter.key _ (keyPut Filter.key _ _)))) = _
  rw [keyFind_keyPut _ _ s3, keyFind_keyPut _ _ s2, keyFind_keyPut _ _ s1, keyFind_keyPut _ _ sorted]
  rfl

theorem at_installControl_apart (sorted : r.sorted) (h : key / 1024 ≠ l.val ∨ 5 ≤ key % 1024) :
    (r.installControl l).at key = r.at key := by
  rw [at_installControl sorted, if_neg (by omega), if_neg (by omega), if_neg (by omega), if_neg (by omega)]

theorem sorted_installControl (sorted : r.sorted) (l : Fin 3) : (r.installControl l).sorted :=
  Router.sorted_installControl l sorted

theorem installControl_fresh (sorted : r.sorted) (first : ∀ f, r.at key = some f → f.last = none) :
    ∀ g, (r.installControl l).at key = some g → g.last = none := by
  intro g hg
  rw [at_installControl sorted] at hg
  repeat' split at hg
  all_goals first
    | exact first g hg
    | (cases hg; rfl)

end Sys2Proof.Machine
end

