-- ==== Sys2Proof/Proofs/P17.lean ====
section
/-! PROOF of O29: LOCK (R14 to R16, R37, R57, R84). -/

namespace Sys2Proof.Machine

open Sys2Proof

variable {j k : Fin 5} {l : Fin 3} {s t u w : State}

/-! ### Permits and the slots of a lane (R15, R17) -/

theorem byPermit_on (h : s.permit k = true) :
    s.byPermit k ↔ (s.slot k).state = .presenting ∧ (s.slot k).reason = .none ∧ (s.slot k).retune = 0 := by
  unfold State.byPermit
  rw [h]
  exact .rfl

theorem byPermit_off (h : s.permit k = false) :
    s.byPermit k ↔ (s.slot k).state = .held ∧ (s.slot k).reason = .permitOff := by
  unfold State.byPermit
  rw [h]
  exact .rfl

/-- A report keeps a slot on a CLEAR service by its permit (R17). -/
theorem gateActs_byPermit (g : s.gateActs t) (clear : s.isClear k = true) (h : s.byPermit k) : t.byPermit k := by
  cases was : s.permit k <;> cases now : t.permit k
  · rw [byPermit_off now, g.still k (now.trans was.symm)]
    exact (byPermit_off was).1 h
  · obtain ⟨held, off⟩ := (byPermit_off was).1 h
    rw [byPermit_on now, g.on k was now, if_pos ⟨held, off, .inl clear⟩]
    exact ⟨rfl, rfl, rfl⟩
  · rw [byPermit_off now, g.off k was now, if_pos ((byPermit_on was).1 h).1]
    exact ⟨rfl, rfl⟩
  · rw [byPermit_on now, g.still k (now.trans was.symm)]
    exact (byPermit_on was).1 h

theorem byPermit_congr (slot : t.slot k = s.slot k) (gate : t.gate = s.gate) (h : s.byPermit k) : t.byPermit k := by
  unfold State.byPermit State.permit
  rw [slot, gate]
  exact h

/-! ### The slots of a lane that enters LOCKED, one after another (R14) -/

/-- What a lane's entry to LOCKED does to some slots of the lane: those in TUNING join their filter entries and go on to
ACQUIRING or by their permits; the other slots only move by their permits. -/
structure Entered (l : Fin 3) (ks : List (Fin 5)) (s t : State) : Prop where
  lanes : t.lanes = s.lanes
  arb : t.arb = s.arb
  services : t.services = s.services
  clock : t.clock = s.clock
  running : t.restarting = s.restarting
  facts : ∀ k, (t.slot k).lane = (s.slot k).lane ∧ (t.slot k).origin = (s.slot k).origin
    ∧ (t.slot k).service = (s.slot k).service
  ofLane : ∀ k : Fin 5, (t.gate.src[k]).ofLane = (s.gate.src[k]).ofLane
  moved : ∀ k, k ∉ ks → (s.slot k).Moved (t.slot k)
  src : ∀ k : Fin 5, k ∉ ks → t.gate.src[k] = s.gate.src[k]
  permits : ∀ k, k ∉ ks → s.isClear k = true → s.byPermit k → t.byPermit k
  scrambled : ∀ k ∈ ks, (s.slot k).state = .tuning → s.isClear k = false →
    (t.slot k).state = .acquiring ∧ (t.slot k).keyTimer = some (s.clock.uptimeMs + 3000)
  clear : ∀ k ∈ ks, (s.slot k).state = .tuning → s.isClear k = true → t.byPermit k ∧ (t.gate.src[k]).entitled = true
  router : s.router.sorted → Installed l (∀ k, ∀ tag ∈ s.tagsOf k, 16 ≤ tag ∧ tag ≤ 1023)
    (fun k key => k ∈ ks ∧ (s.slot k).state = .tuning ∧ ∃ tag ∈ s.tagsOf k, key = l.val * 1024 + tag) s.router t.router

theorem serviceOf_congr (slot : (t.slot k).service = (s.slot k).service) (services : t.services = s.services) :
    t.serviceOf k = s.serviceOf k := by
  unfold State.serviceOf
  rw [slot, services]

theorem tagsOf_congr (slot : (t.slot k).service = (s.slot k).service) (services : t.services = s.services) :
    t.tagsOf k = s.tagsOf k := by
  unfold State.tagsOf
  rw [serviceOf_congr slot services]

theorem Entered.isClear {ks : List (Fin 5)} (h : Entered l ks s t) (k : Fin 5) : t.isClear k = s.isClear k :=
  isClear_congr (h.facts k).2.2 h.services

theorem Entered.nil (l : Fin 3) (s : State) : Entered l [] s s := by
  refine ⟨rfl, rfl, rfl, rfl, rfl, fun _ => ⟨rfl, rfl, rfl⟩, fun _ => rfl, fun _ _ => .refl _, fun _ _ => rfl,
    fun _ _ _ => id, by simp, by simp, fun sorted => (Installed.refl sorted l _).congr (by simp) id⟩

/-- A slot that a permit moves was not TUNING, and is not (R17). -/
theorem Slot.Moved.tuning {x y : Slot} (h : x.Moved y) : y.state = .tuning ↔ x.state = .tuning := by
  rcases h with rfl | h
  · exact .rfl
  · refine iff_of_false (fun e => ?_) fun e => ?_
    · rcases h.left with ⟨p, -⟩ | ⟨p, -⟩ <;> exact absurd (p.symm.trans e) (by decide)
    · rcases h.found with p | ⟨p, -⟩ <;> exact absurd (p.symm.trans e) (by decide)

theorem Entered.trans {ks : List (Fin 5)} (h : Entered l [j] s t) (g : Entered l ks t u) (fresh : j ∉ ks) :
    Entered l (j :: ks) s u := by
  have apart : ∀ {k}, k ∉ j :: ks → k ∉ [j] ∧ k ∉ ks := fun hk =>
    ⟨fun e => hk (by simp [List.mem_singleton.1 e]), fun e => hk (by simp [e])⟩
  have other : ∀ {k}, k ∈ ks → k ∉ [j] := fun hk e => fresh (List.mem_singleton.1 e ▸ hk)
  have tuning : ∀ {k}, k ∈ ks → (s.slot k).state = .tuning → (t.slot k).state = .tuning := fun hk hs =>
    ((h.moved _ (other hk)).tuning).2 hs
  refine ⟨g.lanes.trans h.lanes, g.arb.trans h.arb, g.services.trans h.services, g.clock.trans h.clock,
    g.running.trans h.running, fun k => ?_, fun k => (g.ofLane k).trans (h.ofLane k),
    fun k hk => (h.moved k (apart hk).1).trans (g.moved k (apart hk).2),
    fun k hk => (g.src k (apart hk).2).trans (h.src k (apart hk).1), fun k hk hc hp => ?_, fun k hk hs hc => ?_,
    fun k hk hs hc => ?_, fun sorted => ?_⟩
  · exact ⟨(g.facts k).1.trans (h.facts k).1, (g.facts k).2.1.trans (h.facts k).2.1, (g.facts k).2.2.trans (h.facts k).2.2⟩
  · exact g.permits k (apart hk).2 ((h.isClear k).trans hc) (h.permits k (apart hk).1 hc hp)
  · rcases List.mem_cons.1 hk with rfl | hk
    · obtain ⟨state, timer⟩ := h.scrambled k (by simp) hs hc
      rw [(g.moved k fresh).eq_of_state state (by decide) (by decide)]
      exact ⟨state, timer⟩
    · have := g.scrambled k hk (tuning hk hs) ((h.isClear k).trans hc)
      rw [h.clock] at this
      exact this
  · rcases List.mem_cons.1 hk with rfl | hk
    · obtain ⟨permit, entitled⟩ := h.clear k (by simp) hs hc
      exact ⟨g.permits k fresh ((h.isClear k).trans hc) permit, by rw [g.src k fresh]; exact entitled⟩
    · exact g.clear k hk (tuning hk hs) ((h.isClear k).trans hc)
  · have tags : ∀ k, t.tagsOf k = s.tagsOf k := fun k => tagsOf_congr (h.facts k).2.2 h.services
    have first := h.router sorted
    have rest := (g.router first.sorted).congr (q := fun k key => k ∈ ks ∧ (s.slot k).state = .tuning
      ∧ ∃ tag ∈ s.tagsOf k, key = l.val * 1024 + tag) (ok' := ∀ k, ∀ tag ∈ s.tagsOf k, 16 ≤ tag ∧ tag ≤ 1023)
      (fun k key => ?_) fun all k => by rw [tags]; exact all k
    · refine (first.trans rest).congr (fun k key => ?_) id
      rw [← or_and_right]
      refine and_congr_left fun _ => ?_
      simp
    · rw [tags]
      refine and_congr_right fun hk => and_congr_left fun _ => ?_
      exact (h.moved k (other hk)).tuning

/-! ### One slot (R14, R15, R16, R84) -/

/-- A slot in ACQUIRING with its filter entries, before what its service calls for (R14, R57). -/
def State.acquires (s : State) (k : Fin 5) (l : Fin 3) : State :=
  (s.modSlot k fun x => { x with state := .acquiring }).modRouter fun r =>
    (s.tagsOf k).foldl (fun r tag => r.installTag k l tag) r

theorem acquires_slot (s : State) (k : Fin 5) (l : Fin 3) :
    (s.acquires k l).slot k = { s.slot k with state := .acquiring } := by
  unfold State.acquires
  simp

theorem acquires_slot_ne (h : k ≠ j) (s : State) (l : Fin 3) : (s.acquires k l).slot j = s.slot j := by
  unfold State.acquires
  rw [slot_modRouter]
  exact slot_modSlot_ne h _ _

theorem acquires_isClear (s : State) (k : Fin 5) (l : Fin 3) : (s.acquires k l).isClear k = s.isClear k :=
  isClear_congr (by rw [acquires_slot]) rfl

theorem enterAcquiring_eq (lane : (s.slot k).lane = some l) : enterAcquiring k s
    = if s.isClear k then chooseByPermit k (setEntitled k true false (s.acquires k l))
      else (s.acquires k l).modSlot k fun x => { x with keyTimer := some (s.clock.uptimeMs + 3000) } := by
  have installed : installSlot k (s.modSlot k fun x => { x with state := .acquiring }) = s.acquires k l := by
    unfold installSlot State.acquires
    have tags : (s.modSlot k fun x => { x with state := .acquiring }).tagsOf k = s.tagsOf k :=
      tagsOf_congr (by rw [slot_modSlot_same]) rfl
    rw [slot_modSlot_same, tags]
    dsimp only
    rw [lane]
  unfold enterAcquiring
  dsimp only
  rw [installed, acquires_isClear]
  rfl

/-- The entries that a slot in TUNING joins on its lane (R14, R57). -/
theorem acquires_router (tuning : (s.slot k).state = .tuning) (sorted : s.router.sorted) :
    Installed l (∀ k, ∀ tag ∈ s.tagsOf k, 16 ≤ tag ∧ tag ≤ 1023)
      (fun i key => i ∈ [k] ∧ (s.slot i).state = .tuning ∧ ∃ tag ∈ s.tagsOf i, key = l.val * 1024 + tag) s.router
      (s.acquires k l).router := by
  refine (installed_tags sorted k l (s.tagsOf k)).congr (fun i key => ?_) fun all => all k
  rw [List.mem_singleton]
  constructor
  · rintro ⟨rfl, h⟩
    exact ⟨rfl, tuning, h⟩
  · rintro ⟨rfl, -, h⟩
    exact ⟨rfl, h⟩

theorem entered_scrambled (lane : (s.slot k).lane = some l) (tuning : (s.slot k).state = .tuning)
    (scrambled : s.isClear k = false) : Entered l [k] s (enterAcquiring k s) := by
  rw [enterAcquiring_eq lane, if_neg (by rw [scrambled]; decide)]
  have own : ((s.acquires k l).modSlot k fun x => { x with keyTimer := some (s.clock.uptimeMs + 3000) }).slot k
      = { s.slot k with state := .acquiring, keyTimer := some (s.clock.uptimeMs + 3000) } := by
    rw [slot_modSlot_same, acquires_slot]
  have other : ∀ i, i ≠ k → ((s.acquires k l).modSlot k fun x =>
      { x with keyTimer := some (s.clock.uptimeMs + 3000) }).slot i = s.slot i := fun i hi => by
    rw [slot_modSlot_ne hi.symm, acquires_slot_ne hi.symm]
  refine ⟨rfl, rfl, rfl, rfl, rfl, fun i => ?_, fun _ => rfl, fun i hi => ?_, fun _ _ => rfl, fun i hi _ hp => ?_,
    fun i hi _ _ => ?_, fun i hi _ hc => ?_, acquires_router tuning⟩
  · by_cases e : i = k
    · subst e
      rw [own]
      exact ⟨rfl, rfl, rfl⟩
    · rw [other i e]
      exact ⟨rfl, rfl, rfl⟩
  · rw [other i (by simpa using hi)]
    exact .refl _
  · exact byPermit_congr (other i (by simpa using hi)) rfl hp
  · rw [List.mem_singleton.1 hi, own]
    exact ⟨rfl, rfl⟩
  · rw [List.mem_singleton.1 hi, scrambled] at hc
    cases hc

/-- A slot as its permit output has it, on a CLEAR service (R15, R16). -/
def Slot.chosen (permit : Bool) (now : Nat) (x : Slot) : Slot :=
  if permit then { x with state := .presenting, reason := .none, retune := 0, since := some now }
  else { x with state := .held, reason := .permitOff }

theorem exists_chooseByPermit (k : Fin 5) (s : State) : ∃ m : Link,
    chooseByPermit k s = { s.modSlot k (Slot.chosen (s.permit k) s.clock.uptimeMs) with link := m } := by
  unfold chooseByPermit
  cases s.permit k with
  | true => exact ⟨_, raise_frame ..⟩
  | false => exact ⟨_, raise_frame ..⟩

theorem entered_clear (running : s.restarting = false) (lane : (s.slot k).lane = some l)
    (tuning : (s.slot k).state = .tuning) (clear : s.isClear k = true) : Entered l [k] s (enterAcquiring k s) := by
  rw [enterAcquiring_eq lane, if_pos clear]
  have acts : (s.acquires k l).gateActs (setEntitled k true false (s.acquires k l)) := gateActs_report _ running
  have gated := gated_setEntitled k true false (s.acquires k l)
  have entitled := setEntitled_entitled k true false (s.acquires k l)
  have ofLane := fun i : Fin 5 => setEntitled_ofLane k i true false (s.acquires k l)
  have src := fun (i : Fin 5) (hi : i ≠ k) => setEntitled_src_apart (Ne.symm hi) true false (s.acquires k l)
  generalize setEntitled k true false (s.acquires k l) = w at *
  obtain ⟨m, e⟩ := exists_chooseByPermit k w
  have wslot : w.slot k = { s.slot k with state := .acquiring } := by
    have moved := gated.slots k
    rw [acquires_slot] at moved
    exact moved.eq_of_state (st := .acquiring) rfl (by decide) (by decide)
  have moved : ∀ i, i ≠ k → (s.slot i).Moved (w.slot i) := fun i hi => by
    have := gated.slots i
    rwa [acquires_slot_ne hi.symm] at this
  have own : (chooseByPermit k w).slot k = (w.slot k).chosen (w.permit k) w.clock.uptimeMs := by
    rw [e]
    exact slot_modSlot_same ..
  have other : ∀ i, i ≠ k → (chooseByPermit k w).slot i = w.slot i := fun i hi => by
    rw [e]
    exact slot_modSlot_ne hi.symm _ _
  have gate : (chooseByPermit k w).gate = w.gate := by rw [e]; rfl
  have chosen : ∀ (b : Bool) n (x : Slot), (x.chosen b n).lane = x.lane ∧ (x.chosen b n).origin = x.origin
      ∧ (x.chosen b n).service = x.service := fun b n x => by
    unfold Slot.chosen
    split <;> exact ⟨rfl, rfl, rfl⟩
  refine ⟨by rw [e]; exact gated.lanes, by rw [e]; exact gated.arb, by rw [e]; exact gated.services,
    by rw [e]; exact gated.clock, by rw [e]; exact gated.restarting, fun i => ?_, fun i => by rw [gate]; exact ofLane i,
    fun i hi => ?_, fun i hi => ?_, fun i hi hc hp => ?_, fun i hi _ hc => ?_, fun i hi _ _ => ?_, fun sorted => ?_⟩
  · by_cases hi : i = k
    · subst hi
      rw [own]
      obtain ⟨h1, h2, h3⟩ := chosen (w.permit i) w.clock.uptimeMs (w.slot i)
      rw [h1, h2, h3, wslot]
      exact ⟨rfl, rfl, rfl⟩
    · rw [other i hi]
      exact ⟨(moved i hi).lane, (moved i hi).origin, (moved i hi).service⟩
  · rw [other i (by simpa using hi)]
    exact moved i (by simpa using hi)
  · rw [gate]
    exact src i (by simpa using hi)
  · have hne : i ≠ k := by simpa using hi
    refine byPermit_congr (other i hne) gate (gateActs_byPermit acts ?_ ?_)
    · rw [← hc]
      exact isClear_congr (by rw [acquires_slot_ne hne.symm]) rfl
    · exact byPermit_congr (acquires_slot_ne hne.symm s l) rfl hp
  · rw [List.mem_singleton.1 hi, clear] at hc
    cases hc
  · rw [List.mem_singleton.1 hi]
    refine ⟨?_, by rw [gate]; exact entitled⟩
    have permit : (chooseByPermit k w).permit k = w.permit k := by
      unfold State.permit
      rw [gate]
    unfold State.byPermit
    rw [permit, own]
    cases w.permit k
    · exact ⟨rfl, rfl⟩
    · exact ⟨rfl, rfl, rfl⟩
  · have router : (chooseByPermit k w).router = (s.acquires k l).router := by rw [e]; exact gated.router
    rw [router]
    exact acquires_router tuning sorted

theorem entered_event (running : s.restarting = false) (lane : (s.slot k).lane = some l) :
    Entered l [k] s (slotLockedEvent k s) := by
  unfold slotLockedEvent
  split
  · rename_i tuning
    cases clear : s.isClear k with
    | false => exact entered_scrambled lane tuning clear
    | true => exact entered_clear running lane tuning clear
  · rename_i other
    refine ⟨rfl, rfl, rfl, rfl, rfl, fun _ => ⟨rfl, rfl, rfl⟩, fun _ => rfl, fun _ _ => .refl _, fun _ _ => rfl,
      fun _ _ _ => id, fun i hi hs => ?_, fun i hi hs => ?_,
      fun sorted => (Installed.refl sorted l _).congr (fun i key => ?_) id⟩
    · exact absurd (List.mem_singleton.1 hi ▸ hs) other
    · exact absurd (List.mem_singleton.1 hi ▸ hs) other
    · refine iff_of_false id ?_
      rintro ⟨hi, hs, -⟩
      exact other (List.mem_singleton.1 hi ▸ hs)

theorem entered_all {ks : List (Fin 5)} (once : ks.Nodup) (running : s.restarting = false)
    (lanes : ∀ k ∈ ks, (s.slot k).lane = some l) : Entered l ks s (forEach ks slotLockedEvent s) := by
  induction ks generalizing s with
  | nil => exact .nil l s
  | cons k ks ih =>
    obtain ⟨fresh, once⟩ := List.nodup_cons.1 once
    have one := entered_event running (lanes k (by simp))
    refine one.trans (ih once (one.running.trans running) fun i hi => ?_) fresh
    rw [(one.facts i).1]
    exact lanes i (by simp [hi])

/-! ### The lane itself (R37) -/

/-- A lane LOCKED, with its control entries in the filter table (R37, R57). -/
def State.locks (s : State) (l : Fin 3) : State :=
  (s.modLane l (Lane.enterLocked (s.classOf l) s.clock.uptimeMs)).modRouter (Router.installControl l)

theorem locks_lane (s : State) (l : Fin 3) :
    (s.locks l).lane l = (s.lane l).enterLocked (s.classOf l) s.clock.uptimeMs := by
  unfold State.locks
  simp

theorem slotUsers_nodup (s : State) (l : Fin 3) : (s.slotUsers l).Nodup :=
  List.Nodup.filter _ (by decide)

theorem slotUsers_congr (h : ∀ k, (t.slot k).lane = (s.slot k).lane) (l : Fin 3) : t.slotUsers l = s.slotUsers l :=
  List.filter_congr fun k _ => by rw [h]

/-- A home hold at rest stays so while a lane is LOCKED (R54). -/
theorem homeRedecide_locked (home : s.arb.home = .inactive) (locked : (s.lane l).state = .locked) :
    homeRedecide s = s := by
  have cond : s.homeCondition none = false := by
    unfold State.homeCondition
    rw [Bool.and_eq_false_iff]
    refine .inr (Bool.not_eq_true _ ▸ fun all => ?_)
    have := List.all_eq_true.1 all l (mem_allLanes l)
    rw [(isLocked_iff _).2 locked] at this
    simp at this
  unfold homeRedecide
  rw [home]
  exact if_neg (by rw [cond]; decide)

/-- The sweep takes its lane's entry to LOCKED by itself (R119). -/
theorem exists_sweepLocked (l : Fin 3) (s : State) : ∃ x, sweepLocked l s = { s with sweep := x } := by
  unfold sweepLocked
  split
  · unfold State.startDwell
    split <;> exact ⟨_, rfl⟩
  · exact ⟨s.sweep, rfl⟩

/-- The lane's entry to LOCKED is what it does to the slots of the lane, and the sweep's part (R37). -/
theorem laneLocks_eq (home : s.arb.home = .inactive) (running : s.restarting = false) (l : Fin 3) :
    ∃ a e, Gated (s.locks l) a ∧ (∀ k ∈ s.slotUsers l, (a.gate.src[k]).ofLane = a.laneSays k)
      ∧ Entered l (s.slotUsers l) a e ∧ laneLocks l s = sweepLocked l e := by
  have gated : Gated (s.locks l) (syncSlots ((s.locks l).slotUsers l) ((s.locks l).laneNotice l .locked)) :=
    (gated_raise ..).trans (gated_syncSlots _ _)
  have users : ((s.locks l).laneNotice l .locked).slotUsers l = s.slotUsers l :=
    slotUsers_congr (fun k => by unfold State.laneNotice; rw [slot_raise]; rfl) l
  have unraised : (s.locks l).slotUsers l = s.slotUsers l := slotUsers_congr (fun _ => rfl) l
  rw [unraised] at gated
  have told : ∀ k ∈ s.slotUsers l, ((syncSlots (s.slotUsers l) ((s.locks l).laneNotice l .locked)).gate.src[k]).ofLane
      = (syncSlots (s.slotUsers l) ((s.locks l).laneNotice l .locked)).laneSays k := fun k hk => by
    rw [syncSlots_ofLane hk, (gated_syncSlots _ _).laneSays]
  have eq : laneLocks l s = homeRedecide (sweepLocked l (forEach
      ((syncSlots (s.slotUsers l) ((s.locks l).laneNotice l .locked)).slotUsers l) slotLockedEvent
      (syncSlots (s.slotUsers l) ((s.locks l).laneNotice l .locked)))) := by
    rw [← users]
    rfl
  generalize syncSlots (s.slotUsers l) ((s.locks l).laneNotice l .locked) = a at *
  have lanes : ∀ k, (a.slot k).lane = (s.slot k).lane := fun k => (gated.slots k).lane
  rw [slotUsers_congr lanes l] at eq
  have entered := entered_all (s := a) (l := l) (slotUsers_nodup s l) (gated.restarting.trans running) fun k hk => by
    rw [lanes]
    exact mem_slotUsers.1 hk
  refine ⟨a, _, gated, told, entered, eq.trans ?_⟩
  generalize forEach (s.slotUsers l) slotLockedEvent a = e at *
  have home' : e.arb.home = .inactive := by
    rw [entered.arb, gated.arb]
    exact home
  have locked : (e.lane l).state = .locked := by
    unfold State.lane
    rw [entered.lanes, gated.lanes]
    show ((s.locks l).lane l).state = _
    rw [locks_lane]
    rfl
  obtain ⟨x, hx⟩ := exists_sweepLocked l e
  rw [hx]
  exact homeRedecide_locked (s := { e with sweep := x }) home' locked

/-! ### The filter table after a lane's entry to LOCKED (R57) -/

/-- Components in the ranges of R1 have tags that no control entry has. -/
theorem tagsOf_ok (ok : ∀ v ∈ s.services, v.ok) (k : Fin 5) : ∀ tag ∈ s.tagsOf k, 16 ≤ tag ∧ tag ≤ 1023 := by
  intro tag ht
  unfold State.tagsOf at ht
  cases hv : s.serviceOf k with
  | none =>
    rw [hv] at ht
    cases ht
  | some v =>
    rw [hv] at ht
    obtain ⟨c, hc, rfl⟩ := List.mem_map.1 ht
    refine (ok v ?_).tags c hc
    unfold State.serviceOf at hv
    split at hv
    · exact (keyFind_some hv).1
    · cases hv

theorem mem_tagsOf {tag : Nat} : tag ∈ s.tagsOf k ↔ ∃ v, s.serviceOf k = some v ∧ ∃ c ∈ v.comps, tag = c.tag := by
  unfold State.tagsOf
  cases s.serviceOf k with
  | none => simp
  | some v => simp [eq_comm]

/-- The filter table with the control entries of a lane, and with those of some slots in TUNING on it. -/
theorem table_of_installed {joins : Fin 5 → Nat → Prop} {r r' : Router} (sorted : r.sorted)
    (h : Installed l True joins (r.installControl l) r') :
    (∀ p ∈ [(1, Consumer.key), (2, .entitlement), (3, .guide), (4, .time)],
        r'.at (l.val * 1024 + p.1) = some { lane := l, tag := p.1, dest := .consumer p.2 })
      ∧ (∀ k key, 5 ≤ key % 1024 → (r'.names k key ↔ r.names k key ∨ joins k key))
      ∧ (∀ key g, r.at key = none → r'.at key = some g → g.last = none)
      ∧ (∀ key f ks, r.at key = some f → f.dest = .slots ks → 5 ≤ key % 1024 → ∃ g, r'.at key = some g ∧ g.last = f.last)
      ∧ ∀ key, key / 1024 ≠ l.val → r'.at key = r.at key := by
  refine ⟨fun p hp => ?_, fun k key hk => ?_, fun key g none => ?_, fun key f ks hf hd hk => ?_, fun key hk => ?_⟩
  · have low : p.1 ≤ 4 := by
      simp only [List.mem_cons, List.not_mem_nil, or_false] at hp
      rcases hp with rfl | rfl | rfl | rfl <;> decide
    rw [h.apart trivial _ (.inr (by omega)), at_installControl sorted]
    simp only [List.mem_cons, List.not_mem_nil, or_false] at hp
    rcases hp with rfl | rfl | rfl | rfl <;> simp
  · rw [h.names]
    unfold Router.names
    rw [at_installControl_apart sorted (.inr hk)]
  · refine h.fresh key (installControl_fresh sorted fun f hf => ?_) g
    rw [none] at hf
    cases hf
  · obtain ⟨g, _, hg, -, hl⟩ := h.kept key f ks (by rw [at_installControl_apart sorted (.inr hk)]; exact hf) hd
    exact ⟨g, hg, hl⟩
  · rw [h.apart trivial key (.inl hk), at_installControl_apart sorted (.inl hk)]

/-! ### LOCK (R37) -/

theorem laneLocks_flag (l : Fin 3) (running : s.restarting = false) : (laneLocks l s).link.flags[1] = true := by
  have noticed : Flow none ((s.locks l).laneNotice l .locked) (laneLocks l s) :=
    ((((Flow.refl none _).syncSlots _).forEach (fun j _ u hu => hu.slotLockedEvent (by simp))).sweepLocked l).homeRedecide
      (nobody _)
  exact noticed.flags 1 (raise_flag .lane _ _ running)

/-- What a lane's entry to LOCKED does, as the statement has it (R14 to R16, R37, R57, R84). -/
theorem laneLocks_does (home : s.arb.home = .inactive) (running : s.restarting = false) (l : Fin 3) :
    let t := laneLocks l s
    t.lane l = (s.lane l).enterLocked (s.classOf l) s.clock.uptimeMs
      ∧ (∀ k, (s.slot k).lane = some l → t.laneTold k)
      ∧ (∀ k, (s.slot k).lane = some l → (t.gate.src[k]).ofLane = (true, true, (s.slot k).origin != .user))
      ∧ (∀ k, (s.slot k).lane = some l → (s.slot k).state = .tuning →
        (s.isClear k = false → (t.slot k).state = .acquiring ∧ (t.slot k).keyTimer = some (s.clock.uptimeMs + 3000))
        ∧ (s.isClear k = true → t.byPermit k ∧ (t.gate.src[k]).entitled = true))
      ∧ (s.router.sorted → Installed l (∀ k, ∀ tag ∈ s.tagsOf k, 16 ≤ tag ∧ tag ≤ 1023)
        (fun k key => k ∈ s.slotUsers l ∧ (s.slot k).state = .tuning
          ∧ ∃ tag ∈ s.tagsOf k, key = l.val * 1024 + tag) (s.router.installControl l) t.router) := by
  obtain ⟨a, e, gated, told, entered, eq⟩ := laneLocks_eq home running l
  obtain ⟨x, hx⟩ := exists_sweepLocked l e
  rw [eq, hx]
  have lane : a.lane l = (s.lane l).enterLocked (s.classOf l) s.clock.uptimeMs := by
    rw [gated.lane, locks_lane]
  have elane : e.lane l = a.lane l := by unfold State.lane; rw [entered.lanes]
  have aslot : ∀ k, (s.slot k).Moved (a.slot k) := fun k => gated.slots k
  have services : a.services = s.services := gated.services
  have clear : ∀ k, a.isClear k = s.isClear k := fun k => isClear_congr (aslot k).service services
  have tags : ∀ k, a.tagsOf k = s.tagsOf k := fun k => tagsOf_congr (aslot k).service services
  have clock : a.clock = s.clock := gated.clock
  have router : a.router = s.router.installControl l := gated.router
  have same : ∀ k, e.laneSays k = a.laneSays k := fun k => by
    unfold State.laneSays State.slotLocked State.slotSignalOk State.lane
    rw [(entered.facts k).1, (entered.facts k).2.1, entered.lanes]
  have etold : ∀ k, (s.slot k).lane = some l → (e.gate.src[k]).ofLane = e.laneSays k := fun k hk => by
    rw [entered.ofLane, told k (mem_slotUsers.2 hk), same]
  refine ⟨?_, fun k hk => ?_, fun k hk => ?_, fun k hk hs => ⟨fun hc => ?_, fun hc => ?_⟩, fun sorted => ?_⟩
  · exact elane.trans lane
  · exact ((laneTold_iff k).2 (etold k hk)).congr rfl rfl rfl
  · refine (etold k hk).trans ?_
    unfold State.laneSays State.slotLocked State.slotSignalOk
    rw [(entered.facts k).1, (aslot k).lane, hk, (entered.facts k).2.1, (aslot k).origin]
    have locked : (e.lane l).isLocked = true := (isLocked_iff _).2 (by rw [elane, lane]; rfl)
    have signal : (e.lane l).signalOk = true := (signalOk_iff _).2 ⟨by rw [elane, lane]; rfl, by
      rw [elane, lane]
      show some (s.classOf l).initial = some .good ∨ some (s.classOf l).initial = some .marginal
      unfold QClass.initial
      split
      · exact .inr rfl
      · exact .inl rfl⟩
    rw [Option.any_some, Option.any_some, locked, signal]
  · have := entered.scrambled k (mem_slotUsers.2 hk) ((aslot k).tuning.2 hs) ((clear k).trans hc)
    rwa [clock] at this
  · obtain ⟨permit, entitled⟩ := entered.clear k (mem_slotUsers.2 hk) ((aslot k).tuning.2 hs) ((clear k).trans hc)
    exact ⟨byPermit_congr rfl rfl permit, entitled⟩
  · have installed := entered.router (by rw [router]; exact sorted_installControl sorted l)
    rw [router] at installed
    refine installed.congr (fun k key => ?_) fun all k => by rw [tags]; exact all k
    rw [tags, (aslot k).tuning]

/-- A LOCK under the lane's present order number, the home hold at rest, where no entry awaits a rise (R37). -/
theorem lock_locks {order : Byte} (h : s.live) (seeking : (s.lane l).state = .seeking) (named : (s.lane l).order = order)
    (quiet : s.noRise) : let t := s.event (lockEvent l order)
    s.unanswered t ∧ t.tables = s.tables ∧ Served { laneLocks l s.clearOut with auxRises := [] } t := by
  have eq : lockEvent l order s.clearOut = laneLocks l s.clearOut := if_pos ⟨seeking, named⟩
  have acts := (laneLocks_flow l s.clearOut).acts
  have calm : (settle (laneLocks l s.clearOut)).calm = s.calm := (Acts.settle acts).calm
  refine ⟨event_unanswered _ h ?_, ?_, served_event_quiet _ h eq (acts.noRise quiet)⟩
  · rw [eq]
    exact (Acts.owned acts.settle).core
  · rw [event_live _ h, startTx_tables, eq]
    exact tables_of_calm calm

/-- Settles O29: the lane, its slots in their turn, and the filter table key by key. -/
theorem lockEntersLocked : Obligations.LockEntersLocked := by
  intro l order s h
  refine ⟨fun other => ?_, fun seeking named home quiet => ?_⟩
  · have eq : lockEvent l order s.clearOut = s.clearOut := if_neg fun both => other.elim (· both.1) (· both.2)
    exact ⟨_, rfl, (event_moves (u := s) _ h eq h.rises rfl).1, event_unmoved _ h eq⟩
  · obtain ⟨unanswered, tables, served⟩ := lock_locks h seeking named quiet
    obtain ⟨lane, told, sources, slots, router⟩ := laneLocks_does (s := s.clearOut) home h.running l
    have flag := laneLocks_flag (s := s.clearOut) l h.running
    refine ⟨_, rfl, unanswered, tables, ?_⟩
    generalize s.event (lockEvent l order) = t at *
    generalize laneLocks l s.clearOut = e at *
    have gate : t.gate = e.gate := served.gate
    have slot : ∀ k, t.slot k = e.slot k := served.slot
    refine ⟨(served.lane l).trans lane, by rw [served.flags]; exact flag, fun k hk => ?_, fun k hk hs => ?_,
      fun sorted ok => ?_⟩
    · have src := sources k hk
      rw [← gate] at src
      exact ⟨(told k hk).congr gate (slot k) served.lanes, (congrArg (·.1) src :), (congrArg (·.2.1) src :)⟩
    · obtain ⟨scrambled, clear⟩ := slots k hk hs
      refine ⟨fun hc => ?_, fun hc => ?_⟩
      · have isClear : s.clearOut.isClear k = false := by
          have hc : (s.serviceOf k).any (·.scrambled) = true := hc
          show (s.serviceOf k).any (!·.scrambled) = false
          cases hv : s.serviceOf k with
          | none => rfl
          | some v =>
            rw [hv] at hc
            simpa using hc
        rw [slot]
        exact scrambled isClear
      · obtain ⟨permit, entitled⟩ := clear hc
        exact ⟨byPermit_congr (slot k) gate permit, by rw [gate]; exact entitled⟩
    · have all := tagsOf_ok (s := s) ok
      have table := table_of_installed (r := s.router) sorted ((router sorted).congr (fun _ _ => .rfl) fun _ => all)
      rw [← (show t.router = e.router from served.router)] at table
      obtain ⟨control, names, fresh, kept, apart⟩ := table
      refine ⟨control, fun k key hk => (names k key hk).trans (or_congr .rfl ?_), fresh, kept, apart⟩
      show k ∈ s.slotUsers l ∧ (s.slot k).state = .tuning ∧ (∃ tag ∈ s.tagsOf k, key = l.val * 1024 + tag) ↔ _
      rw [mem_slotUsers]
      refine and_congr_right fun _ => and_congr_right fun _ => ⟨?_, ?_⟩
      · rintro ⟨tag, ht, e⟩
        obtain ⟨v, hv, c, hc, rfl⟩ := mem_tagsOf.1 ht
        exact ⟨v, hv, c, hc, e⟩
      · rintro ⟨v, hv, c, hc, e⟩
        exact ⟨c.tag, mem_tagsOf.2 ⟨v, hv, c, hc, rfl⟩, e⟩

end Sys2Proof.Machine
end

