-- ==== Sys2Proof/Proofs/P18.lean ====
section
/-! SUPPORT. What the schedule unit, the arbiter and the reads of the guide leave of the guide store and of STANDBY: every
entry that can be read stays, and others go at most; and STANDBY does not rise (R26, R112 to R115, R148, R165). -/

namespace Sys2Proof.Machine

open Sys2Proof

variable {k : Fin 5} {s t u : State} {g h : Guide} {p q : Place}

/-! ### The results of a read (R112) -/

theorem usable_of_check (c : g.check p ≠ .uncorrectable) : g.usable p = true := by
  unfold Guide.check at c
  unfold Guide.usable Guide.serves
  split at c
  · rename_i served
    simp [served]
  · split at c
    · rename_i clean
      simp [clean]
    · split at c
      · rename_i one
        simp [one]
      · exact absurd rfl c

theorem unusable_of_check (c : g.check p = .uncorrectable) : g.usable p = false := by
  have lost := lost_of_uncorrectable c
  unfold Guide.check at c
  unfold Guide.usable Guide.serves
  split at c
  · cases c
  · rename_i unserved
    rw [Bool.not_eq_true] at unserved
    rw [unserved]
    simpa using lost

theorem check_uncorrectable_iff : g.check p = .uncorrectable ↔ g.usable p = false := by
  refine ⟨unusable_of_check, fun e => ?_⟩
  by_contra c
  rw [usable_of_check c] at e
  cases e

/-- A place under a pending rewrite is served from the register, and so is read CLEAN (R113). -/
theorem check_corrected (c : g.check p = .corrected) : p.disturbed = 1 ∧ g.serves p = false := by
  unfold Guide.check at c
  split at c
  · cases c
  · rename_i unserved
    split at c
    · cases c
    · split at c
      · rename_i one
        exact ⟨one, by rwa [Bool.not_eq_true] at unserved⟩
      · cases c

/-! ### A guide store worn by reads -/

/-- A guide store that reads have led to: of the entries that can be read each stays and none is new, and of the others
no more are held than there were (R112 to R115). -/
structure Guide.Worn (g h : Guide) : Prop where
  sheds : h.places.Sublist g.places
  usable : KeySorted (·.num) g.places → h.places.filter h.usable = g.places.filter g.usable

theorem Guide.Worn.refl (g : Guide) : g.Worn g := ⟨.refl _, fun _ => rfl⟩

theorem Guide.Worn.trans {i : Guide} (a : g.Worn h) (b : h.Worn i) : g.Worn i :=
  ⟨b.sheds.trans a.sheds, fun sorted => (b.usable (sorted.sublist a.sheds)).trans (a.usable sorted)⟩

/-- An entry that can be read stays. -/
theorem Guide.Worn.stays (a : g.Worn h) (sorted : KeySorted (·.num) g.places) (hp : p ∈ g.places)
    (use : g.usable p = true) : p ∈ h.places := by
  have : p ∈ h.places.filter h.usable := by
    rw [a.usable sorted]
    exact List.mem_filter.2 ⟨hp, use⟩
  exact (List.mem_filter.1 this).1

/-- Whether a place can be read is what it was. -/
theorem Guide.Worn.usable_eq (a : g.Worn h) (sorted : KeySorted (·.num) g.places) (hp : p ∈ h.places) :
    h.usable p = g.usable p := by
  have mem : p ∈ h.places.filter h.usable ↔ p ∈ g.places.filter g.usable := by rw [a.usable sorted]
  rw [List.mem_filter, List.mem_filter] at mem
  have : h.usable p = true ↔ g.usable p = true := by simpa [hp, a.sheds.subset hp] using mem
  exact Bool.eq_iff_iff.2 this

/-- A place past correction is emptied (R115). -/
theorem worn_remove (hp : p ∈ g.places) (lost : g.usable p = false) (same : h.places = (Guide.remove p.num g).places)
    (scrub : h.scrub = (Guide.remove p.num g).scrub) : g.Worn h := by
  have places : h.places = g.places.filter fun q => q.num != p.num := same
  refine ⟨places ▸ List.filter_sublist, fun sorted => ?_⟩
  rw [places, List.filter_filter]
  refine List.filter_congr fun q hq => ?_
  by_cases e : q.num = p.num
  · have := keySorted_unique sorted hq hp e
    subst this
    simp [lost]
  · have : h.serves q = g.serves q := by
      have hs : h.scrub = g.scrub.filter fun r => r.place != p.num := scrub
      unfold Guide.serves
      rw [hs]
      cases g.scrub with
      | none => rfl
      | some r =>
        by_cases hr : r.place = p.num
        · have : ¬ p.num = q.num := fun x => e x.symm
          simp [Option.filter, hr, this]
        · simp [Option.filter, hr]
    unfold Guide.usable
    rw [this]
    simp [e]

/-- The rewrite of a place disturbed by one bit is posted (R113). -/
theorem worn_post (hp : p ∈ g.places) (one : p.disturbed = 1) (none : g.scrub = none) (r : Option Scrub)
    (at_p : ∀ x ∈ r, x.place = p.num) : g.Worn { g with scrub := r } := by
  refine ⟨.refl _, fun sorted => List.filter_congr fun q hq => ?_⟩
  unfold Guide.usable Guide.serves
  rw [none]
  cases r with
  | none => rfl
  | some x =>
    have at_p := at_p x rfl
    by_cases e : p.num = q.num
    · have := keySorted_unique sorted hp hq e
      subst this
      simp [one, at_p]
    · simp [e, at_p]

/-! ### What the blocks' work leaves of the guide -/

/-- The gate array's work, without a report of STANDBY. -/
structure Told (s t : State) : Prop extends Gated s t where
  standby : t.gate.standby = s.gate.standby

theorem Told.refl (s : State) : Told s s := ⟨.refl s, rfl⟩

theorem Told.trans (a : Told s t) (b : Told t u) : Told s u := ⟨a.toGated.trans b.toGated, b.standby.trans a.standby⟩

theorem told_raise (x : NoticeKind) (sub : Option Nat) (b : List Byte) (s : State) : Told s (s.raise x sub b) :=
  ⟨gated_raise .., by rw [raise_gate]⟩

theorem told_report {chs : List Change} (slots : ∀ c ∈ chs, ∀ v, c ≠ .standby v) (s : State) :
    Told s (gateReport chs s) := by
  refine ⟨gated_report chs s, (gateReport_keeps chs s).2.2.trans ?_⟩
  refine List.foldlRecOn _ _ (motive := fun g : Gate => g.standby = s.gate.standby) rfl fun g hg c hc => ?_
  cases c with
  | slot k src v => exact hg
  | standby v => exact absurd rfl (slots _ (List.mem_filter.1 hc).1 v)

theorem told_syncSlots (ks : List (Fin 5)) (s : State) : Told s (syncSlots ks s) := by
  refine told_report (fun c hc v e => ?_) s
  obtain ⟨j, -, hc⟩ := List.mem_flatMap.1 hc
  subst e
  simp at hc

theorem told_setEntitledAll (ks : List (Fin 5)) (e p : Bool) (s : State) : Told s (setEntitledAll ks e p s) := by
  refine told_report (fun c hc v h => ?_) s
  obtain ⟨j, -, hc⟩ := List.mem_flatMap.1 hc
  subst h
  simp at hc

theorem told_reportLeft (k : Fin 5) (s : State) : Told s (reportLeft k s) :=
  (told_syncSlots [k] s).trans (told_setEntitledAll ..)

theorem told_conditions (src : Source) (f : Fin 3 → Bool) (vs : List (Fin 3)) (s : State) :
    Told s (gateReport (vs.map fun v => .slot (viewSlot v) src (f v)) s) := by
  refine told_report (fun c hc v e => ?_) s
  obtain ⟨j, -, hc⟩ := List.mem_map.1 hc
  rw [e] at hc
  cases hc

theorem told_updateRating (k : Fin 5) (s : State) : Told s (updateRating k s) := by
  unfold updateRating
  split
  · unfold reportConditions
    dsimp only
    refine Told.trans ?_ (told_conditions ..)
    refine forEach_keeps (P := Told s) (fun c hc u hu => hu.trans ?_) (.refl s)
    obtain ⟨x, -, rfl⟩ := List.mem_map.1 hc
    exact told_conditions ..
  · exact .refl s

theorem told_startSeek (l : Fin 3) (c : Nat) (s : State) : Told (s.sought l c) (startSeek l c s) := by
  rw [startSeek_eq]
  exact told_syncSlots ..

/-- The arbiter's work and the gate array's leave the guide, STANDBY and the schedule. -/
structure Shifts (s t : State) : Prop where
  guide : t.guide = s.guide
  standby : t.gate.standby = s.gate.standby
  schedule : t.schedule = s.schedule

theorem Shifts.refl (s : State) : Shifts s s := ⟨rfl, rfl, rfl⟩

theorem Shifts.trans (a : Shifts s t) (b : Shifts t u) : Shifts s u :=
  ⟨b.guide.trans a.guide, b.standby.trans a.standby, b.schedule.trans a.schedule⟩

theorem Shifts.gated (a : Shifts s t) (b : Told t u) : Shifts s u := a.trans ⟨b.guide, b.standby, b.schedule⟩

theorem Shifts.raise (x : NoticeKind) (sub : Option Nat) (b : List Byte) (a : Shifts s t) : Shifts s (t.raise x sub b) :=
  a.gated (told_raise ..)

theorem Shifts.modSlot (j : Fin 5) (f : Slot → Slot) (a : Shifts s t) : Shifts s (t.modSlot j f) := a.trans ⟨rfl, rfl, rfl⟩
theorem Shifts.modLane (l : Fin 3) (f : Lane → Lane) (a : Shifts s t) : Shifts s (t.modLane l f) := a.trans ⟨rfl, rfl, rfl⟩
theorem Shifts.modSweep (f : Sweep → Sweep) (a : Shifts s t) : Shifts s (t.modSweep f) := a.trans ⟨rfl, rfl, rfl⟩
theorem Shifts.modArb (f : Arbiter → Arbiter) (a : Shifts s t) : Shifts s (t.modArb f) := a.trans ⟨rfl, rfl, rfl⟩
theorem Shifts.modRouter (f : Router → Router) (a : Shifts s t) : Shifts s (t.modRouter f) := a.trans ⟨rfl, rfl, rfl⟩
theorem Shifts.emit (o : PortOut) (a : Shifts s t) : Shifts s (t.emit o) := a.trans ⟨rfl, rfl, rfl⟩

theorem Shifts.forEach {α : Type} {l : List α} {f : α → State → State} (hf : ∀ a ∈ l, ∀ u, Shifts s u → Shifts s (f a u))
    (a : Shifts s t) : Shifts s (forEach l f t) := forEach_keeps (P := Shifts s) hf a

/-! ### Slots on their lanes (R13 to R16, R22) -/

theorem Shifts.installSlot (j : Fin 5) (a : Shifts s t) : Shifts s (installSlot j t) := by
  unfold Machine.installSlot
  split
  · exact a
  · exact a.modRouter _

theorem Shifts.enterAcquiring (j : Fin 5) (a : Shifts s t) : Shifts s (enterAcquiring j t) := by
  have installed := (a.modSlot j fun sl => { sl with state := .acquiring }).installSlot j
  unfold Machine.enterAcquiring
  dsimp only
  split
  · have told := installed.gated (told_setEntitledAll [j] true false _)
    unfold Machine.chooseByPermit
    split
    · exact Shifts.raise _ _ _ (told.modSlot j _)
    · exact Shifts.raise _ _ _ (told.modSlot j _)
  · exact installed.modSlot j _

theorem Shifts.joinSlot (j : Fin 5) (l : Fin 3) (a : Shifts s t) : Shifts s (joinSlot j l t) := by
  unfold Machine.joinSlot
  split
  · exact ((a.modSlot j _).gated
      (told_syncSlots [j] _)).enterAcquiring j
  · exact (a.modSlot j _).gated (told_syncSlots [j] _)

theorem Shifts.displaceSlot (j : Fin 5) (a : Shifts s t) : Shifts s (displaceSlot j t) := by
  unfold Machine.displaceSlot
  refine Shifts.raise _ _ _ (Shifts.gated (Shifts.modArb _ ?_) (told_reportLeft j _))
  exact ((a.modRouter _).modSlot j _).modSlot j _

/-! ### Lanes, the sweep and the queue pass (R36, R52, R118) -/

theorem Shifts.startSeek (l : Fin 3) (c : Nat) (a : Shifts s t) : Shifts s (startSeek l c t) :=
  Shifts.gated (((a.modRouter _).modLane _ _).emit _) (told_startSeek l c t)

theorem Shifts.grantTo (c : Claimant) (l : Fin 3) (a : Shifts s t) : Shifts s (grantTo c l t) := by
  cases c with
  | slot j => exact (a.modArb (Arbiter.dequeue (.slot j))).joinSlot j l
  | home => exact a.trans ⟨rfl, rfl, rfl⟩

theorem Shifts.joinWaiters (f : Waiter → Bool) (a : Shifts s t) : Shifts s (joinWaiters f t) := by
  unfold Machine.joinWaiters
  refine a.forEach fun w _ u hu => ?_
  split
  · split
    · exact hu.grantTo _ _
    · exact hu
  · exact hu

theorem Shifts.giveLane (c : Claimant) (n : Nat) (l : Fin 3) (a : Shifts s t) : Shifts s (giveLane c n l t) :=
  ((a.startSeek l n).grantTo c l).joinWaiters _

theorem Shifts.startDwell (a : Shifts s t) : Shifts s t.startDwell := by
  unfold State.startDwell
  split
  · exact a
  · exact a.modSweep _

theorem Shifts.sweepPause (c : PauseCause) (a : Shifts s t) : Shifts s (sweepPause c t) := (a.modSweep _).modArb _

theorem Shifts.sweepAdvance (a : Shifts s t) : Shifts s (sweepAdvance t) := by
  unfold Machine.sweepAdvance
  dsimp only
  split
  · exact a.modSweep _
  · exact (a.modSweep _).raise ..
  · exact (a.modSweep _).sweepPause _

theorem Shifts.sweepClaim (n : Nat) (a : Shifts s t) : Shifts s (sweepClaim n t) := by
  induction n generalizing t with
  | zero => exact a
  | succ n ih =>
    unfold Machine.sweepClaim
    split
    · exact a
    · split
      · dsimp only
        split
        · exact (Shifts.sweepPause _ ((a.modSweep _).modSweep _)).startDwell
        · exact ih (a.modSweep _).sweepAdvance
      · split
        · exact Shifts.startSeek _ _ ((a.modSweep _).modArb _)
        · exact a.sweepPause _

theorem Shifts.passGrant (a : Shifts s t) : Shifts s (passGrant t) := by
  unfold Machine.passGrant
  split
  · exact a.giveLane _ _ _
  · exact a

theorem Shifts.passSweep (a : Shifts s t) : Shifts s (passSweep t) := by
  unfold Machine.passSweep
  split
  · exact a.sweepClaim _
  · exact a

theorem Shifts.passIdle (a : Shifts s t) : Shifts s (passIdle t) := by
  refine a.forEach fun l _ u hu => ?_
  split
  · exact hu.emit _
  · exact hu

theorem Shifts.queuePass (a : Shifts s t) : Shifts s (queuePass t) :=
  ((a.joinWaiters _).passGrant.passGrant.passGrant).passSweep.passIdle

theorem Shifts.releaseLeft (l : Option (Fin 3)) (a : Shifts s t) : Shifts s (releaseLeft l t) := by
  unfold Machine.releaseLeft
  split
  · unfold releaseIfEmpty
    split
    · exact Shifts.queuePass ((a.modRouter _).modLane _ _)
    · exact a
  · exact a

/-! ### Preemption and the home hold (R50, R54) -/

theorem Shifts.displaceAll (l : Fin 3) (a : Shifts s t) : Shifts s (displaceAll l t) := by
  have slots : Shifts s (Machine.forEach (t.slotUsers l) Machine.displaceSlot t) :=
    a.forEach fun j _ _ hu => hu.displaceSlot j
  unfold Machine.displaceAll
  generalize Machine.forEach (t.slotUsers l) Machine.displaceSlot t = u at slots
  have home : Shifts s (displaceHome l u) := by
    unfold displaceHome
    split
    · split <;> exact slots.modArb _
    · exact slots
  unfold displaceSweep
  split
  · exact Shifts.sweepPause _ (home.modSweep _)
  · exact home

theorem Shifts.claim (c : Claimant) (n : Nat) (a : Shifts s t) : Shifts s (claim c n t) := by
  unfold Machine.claim
  split
  · exact a.grantTo _ _
  · exact a.giveLane _ _ _
  · exact Shifts.giveLane _ _ _ ((a.displaceAll _).modLane _ _)
  · cases c with
    | slot j => exact a.trans ⟨rfl, rfl, rfl⟩
    | home => exact a.trans ⟨rfl, rfl, rfl⟩

theorem Shifts.homeLeave (a : Shifts s t) : Shifts s (homeLeave t) := (a.modArb _).releaseLeft _

theorem Shifts.homeClaim (a : Shifts s t) : Shifts s (homeClaim t) := by
  unfold Machine.homeClaim
  split
  · exact a.claim _ _
  · exact a

theorem Shifts.homeRedecide (a : Shifts s t) : Shifts s (homeRedecide t) := by
  have again : ∀ {u}, Shifts s u → Shifts s (if u.homeCondition none then Machine.homeClaim u else u) := fun hu => by
    split
    · exact hu.homeClaim
    · exact hu
  have moved : Shifts s (if !t.homeCondition t.homeLane then Machine.homeLeave t
      else if t.homeMoved then
        if (Machine.homeLeave t).homeCondition none then Machine.homeClaim (Machine.homeLeave t)
        else Machine.homeLeave t
      else t) := by
    split
    · exact a.homeLeave
    · split
      · exact again a.homeLeave
      · exact a
  unfold Machine.homeRedecide
  split
  · exact again a
  · exact moved
  · exact moved
  · split
    · exact a
    · exact a.modArb _

theorem Shifts.sweepEnterConfig (a : Shifts s t) : Shifts s (sweepEnterConfig t) := by
  unfold Machine.sweepEnterConfig
  split
  · exact a
  · exact Shifts.sweepPause _ (Shifts.releaseLeft _ (a.modSweep _))
  · exact Shifts.sweepPause _ (a.modSweep _)

/-! ### What the schedule unit's work leaves of the guide -/

/-- The blocks' work has read the guide at most, and STANDBY has not risen. -/
structure Wears (s t : State) : Prop where
  guide : s.guide.Worn t.guide
  standby : s.gate.standby = false → t.gate.standby = false

theorem Wears.refl (s : State) : Wears s s := ⟨.refl _, id⟩

theorem Wears.trans (a : Wears s t) (b : Wears t u) : Wears s u := ⟨a.guide.trans b.guide, b.standby ∘ a.standby⟩

/-- What changes neither the guide nor the gate array. -/
theorem Wears.kept (a : Wears s t) (guide : u.guide = t.guide) (gate : u.gate = t.gate) : Wears s u :=
  ⟨guide ▸ a.guide, gate ▸ a.standby⟩

theorem Wears.shifts (a : Wears s t) (b : Shifts t u) : Wears s u := ⟨b.guide ▸ a.guide, b.standby ▸ a.standby⟩

theorem Wears.gated (a : Wears s t) (b : Told t u) : Wears s u := ⟨b.guide ▸ a.guide, b.standby ▸ a.standby⟩

theorem Wears.raise (x : NoticeKind) (sub : Option Nat) (b : List Byte) (a : Wears s t) : Wears s (t.raise x sub b) :=
  a.gated (told_raise ..)

theorem Wears.setFault (n : FaultName) (f : Faults → Faults) (a : Wears s t) : Wears s (t.setFault n f) :=
  Wears.raise (t := t.modFaults f) _ _ _ (a.kept rfl rfl)

theorem Wears.modSlot (j : Fin 5) (f : Slot → Slot) (a : Wears s t) : Wears s (t.modSlot j f) := a.kept rfl rfl
theorem Wears.modEntry (n : Fin 24) (f : Entry → Entry) (a : Wears s t) : Wears s (t.modEntry n f) := a.kept rfl rfl
theorem Wears.modParental (f : Parental → Parental) (a : Wears s t) : Wears s (t.modParental f) := a.kept rfl rfl

theorem Wears.forEach {α : Type} {l : List α} {f : α → State → State} (hf : ∀ a ∈ l, ∀ u, Wears s u → Wears s (f a u))
    (a : Wears s t) : Wears s (forEach l f t) := forEach_keeps (P := Wears s) hf a

/-! ### Reads (R26, R112 to R115, R165) -/

theorem Wears.withdrawKeys (k : Fin 5) (a : Wears s t) : Wears s (withdrawKeys k t) := by
  unfold Machine.withdrawKeys
  dsimp only
  split
  · exact a.modSlot k _
  · split
    · exact Wears.raise _ _ _ (((a.modSlot k _).modSlot k _).modSlot k _)
    · exact a.modSlot k _

theorem Wears.setCurrent (k : Fin 5) (e : Option CurEvent) (a : Wears s t) : Wears s (setCurrent k e t) := by
  unfold Machine.setCurrent
  split
  · exact a
  · have judged := (a.modSlot k fun sl => { sl with cur := e }).gated (told_updateRating k _)
    unfold endPreview
    split
    · exact (judged.withdrawKeys k).gated (told_setEntitledAll ..)
    · exact judged

theorem wears_noteCorrected (hp : p ∈ s.guide.places) (c : s.guide.check p = .corrected) : Wears s (noteCorrected p s) := by
  have same : s.countCorrected.guide = s.guide := (told_raise ..).guide
  have counted : Wears s s.countCorrected := Wears.setFault _ _ (.refl s)
  unfold noteCorrected
  dsimp only
  split
  · rename_i none
    rw [same] at none
    refine ⟨?_, counted.standby⟩
    show s.guide.Worn { s.countCorrected.guide with scrub := _ }
    rw [same]
    exact worn_post hp (check_corrected c).1 none _ fun x hx => by cases hx; rfl
  · exact Wears.setFault _ _ counted

/-- A reader wears the guide. -/
def Reader.wears (read : Reader) : Prop := ∀ n s, Wears s (read n s).2

theorem Wears.determineWith {read : Reader} (hr : read.wears) (j : Fin 5) (a : Wears s t) :
    Wears s (determineWith read j t) := by
  unfold Machine.determineWith
  split
  · split
    · rename_i p _
      have b := hr p.num t
      split
      · rename_i e
        rw [e] at b
        exact (a.trans b).setCurrent ..
      · rename_i e
        rw [e] at b
        exact a.trans b
    · exact a.setCurrent ..
  · exact a.setCurrent ..

theorem wears_damageWith {read : Reader} (hr : read.wears) (hp : p ∈ s.guide.places)
    (c : s.guide.check p = .uncorrectable) : Wears s (damageWith read p s) := by
  have removed : Wears s (s.modGuide fun g => { Guide.remove p.num g with
      counters := { g.counters with damaged := g.counters.damaged + 1 }
      lastDamaged := some (p.ev.sid, p.ev.eid) }) := ⟨worn_remove hp (unusable_of_check c) rfl rfl, id⟩
  unfold damageWith State.guideLost State.guideNotice reportRemovalWith touchedWith
  dsimp only
  refine Wears.raise _ _ _ (Wears.setFault _ _ (Wears.kept (t := forEach _ _ _) ?_ rfl rfl))
  exact removed.forEach fun j _ _ b => b.determineWith hr j

theorem readBound_wears (b : Nat) : Reader.wears (readBound b) := by
  induction b with
  | zero => exact fun _ s => .refl s
  | succ b ih =>
    intro n s
    unfold readBound
    split
    · exact .refl s
    · rename_i p found
      have hp := (keyFind_some found).1
      split
      · exact .refl s
      · rename_i c
        exact wears_noteCorrected hp c
      · rename_i c
        exact wears_damageWith ih hp c

theorem Wears.readPlace (n : Nat) (a : Wears s t) : Wears s (readPlace n t).2 := a.trans (readBound_wears _ n t)

theorem Wears.determine (j : Fin 5) (a : Wears s t) : Wears s (determine j t) := a.determineWith (readBound_wears _ · ·) j

theorem Wears.readEntries (n : Nat) (l : List Nat) (a : Wears s t) : Wears s (readEntries n l t).2 := by
  induction l generalizing n t with
  | nil => cases n <;> exact a
  | cons m l ih =>
    cases n with
    | zero => exact a
    | succ n =>
      have b := a.readPlace m
      unfold Machine.readEntries
      split
      · rename_i e
        rw [e] at b
        exact ih _ b
      · rename_i e
        rw [e] at b
        exact ih _ b

/-! ### Tuning, mode changes and the schedule unit (R9, R25, R161 to R166) -/

theorem Wears.claimOn (v : Service) (l : Option (Fin 3)) (j : Fin 5) (a : Wears s t) : Wears s (claimOn v l j t) :=
  (((a.gated (told_reportLeft j t)).determine j).gated (told_updateRating j _)).shifts
    ((((Shifts.refl _).releaseLeft l).claim (.slot j) v.carrier).homeRedecide)

theorem Wears.endUnlockOf (j : Fin 5) (a : Wears s t) : Wears s (endUnlockOf j t) := by
  unfold Machine.endUnlockOf
  split
  · rename_i v _
    unfold endUnlock
    split
    · exact a
    · exact (a.modParental _).gated (told_conditions .unlocked (fun _ => false) [v] _)
  · exact a

theorem Wears.acceptTune (v : Service) (o : Origin) (j : Fin 5) (a : Wears s t) : Wears s (acceptTune v o j t) := by
  unfold Machine.acceptTune
  refine Wears.claimOn _ _ _ (Wears.endUnlockOf _ ?_)
  exact a.kept rfl rfl

theorem Wears.syncSlots (ks : List (Fin 5)) (a : Wears s t) : Wears s (syncSlots ks t) := a.gated (told_syncSlots ks t)

theorem Wears.tuneForEntry (n : Fin 24) (j : Fin 5) (sid : Nat) (a : Wears s t) : Wears s (tuneForEntry n j sid t).2 := by
  unfold Machine.tuneForEntry
  split
  · exact a
  · split
    · exact a
    · split
      · exact a
      · split
        · exact Wears.syncSlots _ (a.modSlot j _)
        · exact a.acceptTune _ _ _

/-- A mode entered has STANDBY told of it (R148, R172). -/
theorem announceMode_standby (c : ModeCause) (m : Mode) (s : State) :
    (announceMode c m s).gate.standby = (m == .standby) ∧ (announceMode c m s).guide = s.guide
      ∧ (announceMode c m s).schedule = s.schedule := by
  have others : (announceMode c m s).guide = s.guide ∧ (announceMode c m s).schedule = s.schedule := by
    obtain ⟨w, gated, e⟩ := announceMode_gated c m s
    rw [e]
    exact ⟨gated.guide, gated.schedule⟩
  refine ⟨?_, others⟩
  have told := (gateReport_keeps [.standby (m == .standby)] ((s.setMode m).modeNotice c s.mode m)).2.2
  refine told.trans ?_
  unfold State.reported
  by_cases same : ((s.setMode m).modeNotice c s.mode m).gate.standby = (m == .standby)
  · simp [Gate.already, same]
  · simp [Gate.already, same, Gate.takeChange]

/-- A WAKE entry takes the part to SERVICE, which frees no slot (R25, R162). -/
theorem Wears.changeMode_service (c : ModeCause) (a : Wears s t) (standby : t.mode = .standby) :
    Wears s (changeMode c .service t) ∧ (changeMode c .service t).gate.standby = false
      ∧ (changeMode c .service t).schedule = t.schedule := by
  obtain ⟨down, guide, schedule⟩ := announceMode_standby c .service t
  have announced : Wears s (announceMode c .service t) := ⟨guide ▸ a.guide, fun _ => down⟩
  unfold Machine.changeMode
  dsimp only
  rw [if_neg (by rw [standby]; decide)]
  have decided := (Shifts.refl (announceMode c .service t)).homeRedecide
  exact ⟨announced.shifts decided, decided.standby.trans down, decided.schedule.trans schedule⟩

theorem Wears.missEntry (c : MissCause) (n : Fin 24) (a : Wears s t) : Wears s (missEntry c n t) :=
  Wears.raise _ _ _ (a.modEntry n _)

theorem Wears.doneEntry (n : Fin 24) (a : Wears s t) : Wears s (doneEntry n t) := Wears.raise _ _ _ (a.modEntry n _)

theorem Wears.fire (n : Fin 24) (a : Wears s t) : Wears s (fire n t) := by
  unfold Machine.fire
  split
  · unfold fireRecord
    split
    · exact a.missEntry _ _
    · exact Wears.raise _ _ _ (((a.modEntry n _).tuneForEntry n _ _).modEntry n _)
  · rename_i sid _
    unfold fireView
    dsimp only
    have tuned := (a.tuneForEntry n 0 sid).modEntry n fun e =>
      { e with lastTune := some (Machine.tuneForEntry n 0 sid t).1 }
    split
    · exact Wears.doneEntry n (Wears.syncSlots _ (tuned.modSlot 0 _))
    · exact tuned.missEntry _ _
  · exact a.doneEntry n
  · unfold fireWake
    split
    · rename_i standby
      exact (a.changeMode_service _ standby).1.doneEntry n
    · exact a.doneEntry n

theorem Wears.riseEntry (c : Fin 8) (n : Fin 24) (a : Wears s t) : Wears s (riseEntry c n t) := by
  unfold Machine.riseEntry
  split
  · unfold applyDecision
    split
    · exact a.fire n
    · exact a.missEntry _ _
    · exact a
  · exact a

theorem Wears.settle (a : Wears s t) : Wears s (settle t) := by
  unfold Machine.settle
  generalize 25 = bound
  induction bound generalizing t with
  | zero => exact a.kept rfl rfl
  | succ b ih =>
    unfold settleRises
    split
    · exact a
    · exact ih (Wears.forEach (fun c _ _ x => x.forEach fun n _ _ y => y.riseEntry c n) (a.kept rfl rfl))

end Sys2Proof.Machine
end

