-- ==== Sys2Proof/Proofs/P19.lean ====
section
/-! SUPPORT. Where a read finds an entry past correction, every slot on its service has its current event found afresh
(R26, R107, R115). -/

namespace Sys2Proof.Machine

open Sys2Proof

variable {j k : Fin 5} {sid : Nat} {s t u v w : State} {g h : Guide} {p q : Place}

/-! ### What reads leave of the slots -/

/-- The slots on each service are those that were, and the clock is left. -/
structure Attends (s t : State) : Prop where
  service : ∀ j, (t.slot j).service = (s.slot j).service
  free : ∀ j, (t.slot j).state = .free ↔ (s.slot j).state = .free
  clock : t.clock = s.clock

theorem Attends.refl (s : State) : Attends s s := ⟨fun _ => rfl, fun _ => .rfl, rfl⟩

theorem Attends.trans (a : Attends s t) (b : Attends t u) : Attends s u :=
  ⟨fun j => (b.service j).trans (a.service j), fun j => (b.free j).trans (a.free j), b.clock.trans a.clock⟩

theorem Gated.attends (a : Gated s t) : Attends s t :=
  ⟨fun j => (a.slots j).service, fun j => (a.slots j).free, a.clock⟩

/-- A change of one slot that leaves its service and whether it is FREE. -/
theorem attends_modSlot {f : Slot → Slot} (service : (f (s.slot k)).service = (s.slot k).service)
    (free : (f (s.slot k)).state = .free ↔ (s.slot k).state = .free) : Attends s (s.modSlot k f) := by
  refine ⟨fun j => ?_, fun j => ?_, rfl⟩
  all_goals
    rw [slot_modSlot]
    split
    · rename_i e
      subst e
      assumption
  · rfl
  · exact .rfl

theorem Attends.slotsOf (a : Attends s t) (sid : Nat) : t.slotsOf sid = s.slotsOf sid := by
  refine List.filter_congr fun j _ => ?_
  have : ((t.slot j).state != .free) = ((s.slot j).state != .free) := by
    rw [Bool.eq_iff_iff, bne_iff_ne, bne_iff_ne]
    exact not_congr (a.free j)
  rw [this, a.service]

theorem Attends.now? (a : Attends s t) : t.now? = s.now? := by
  unfold State.now?
  rw [a.clock]

/-- A change of one slot that leaves its current event leaves every slot's. -/
theorem cur_modSlot {f : Slot → Slot} (hf : (f (s.slot k)).cur = (s.slot k).cur) (j : Fin 5) :
    ((s.modSlot k f).slot j).cur = (s.slot j).cur := by
  rw [slot_modSlot]
  split
  · rename_i e
    subst e
    exact hf
  · rfl

/-- A withdrawal of keys leaves the current events. -/
theorem attends_withdrawKeys (k : Fin 5) (s : State) :
    Attends s (withdrawKeys k s) ∧ ∀ j, ((withdrawKeys k s).slot j).cur = (s.slot j).cur := by
  have dropped : Attends s (s.modSlot k fun sl => { sl with desc := sl.desc.dropKeys }) := attends_modSlot rfl .rfl
  unfold withdrawKeys
  dsimp only
  split
  · exact ⟨dropped, fun j => cur_modSlot rfl j⟩
  · split
    · rename_i running
      have off : (s.slot k).state ≠ .free := fun e => by
        rw [e] at running
        exact absurd running (by decide)
      have stopped := dropped.trans (attends_modSlot (k := k) (f := fun sl => { sl with keyTimer := none }) rfl .rfl)
      have held : Attends s ((((s.modSlot k fun sl => { sl with desc := sl.desc.dropKeys }).modSlot k fun sl =>
          { sl with keyTimer := none })).modSlot k fun sl => { sl with state := .held, reason := .notEntitled }) := by
        refine stopped.trans (attends_modSlot rfl (iff_of_false (by decide : SlotState.held ≠ .free) fun e => off ?_))
        rw [slot_modSlot_same, slot_modSlot_same] at e
        exact e
      refine ⟨held.trans (gated_raise ..).attends, fun j => ?_⟩
      refine (((gated_raise ..).slots j).cur).trans ?_
      exact (cur_modSlot rfl j).trans ((cur_modSlot rfl j).trans (cur_modSlot rfl j))
    · exact ⟨dropped, fun j => cur_modSlot rfl j⟩

/-- A slot's current event set, and no other's. -/
theorem attends_setCurrent (k : Fin 5) (e : Option CurEvent) (s : State) : Attends s (setCurrent k e s)
    ∧ ∀ j, ((setCurrent k e s).slot j).cur = if j = k then e else (s.slot j).cur := by
  unfold setCurrent
  split
  · rename_i same
    refine ⟨.refl s, fun j => ?_⟩
    split
    · rename_i e
      rw [e, same]
    · rfl
  · have set : Attends s (s.modSlot k fun sl => { sl with cur := e }) := attends_modSlot rfl .rfl
    have cur : ∀ j, ((s.modSlot k fun sl => { sl with cur := e }).slot j).cur = if j = k then e else (s.slot j).cur :=
      fun j => by
        rw [slot_modSlot]
        by_cases h : k = j
        · rw [if_pos h, if_pos h.symm]
        · rw [if_neg h, if_neg fun e => h e.symm]
    have judged := (judged_updateRating k k (s.modSlot k fun sl => { sl with cur := e })).toGated
    unfold endPreview
    split
    · have told := gated_setEntitled k false false (withdrawKeys k (updateRating k (s.modSlot k fun sl => { sl with cur := e })))
      have drawn := attends_withdrawKeys k (updateRating k (s.modSlot k fun sl => { sl with cur := e }))
      exact ⟨((set.trans judged.attends).trans drawn.1).trans told.attends, fun j =>
        ((told.slots j).cur.trans (drawn.2 j)).trans ((judged.slots j).cur.trans (cur j))⟩
    · exact ⟨set.trans judged.attends, fun j => (judged.slots j).cur.trans (cur j)⟩

theorem noteCorrected_slots (p : Place) (s : State) : (noteCorrected p s).slots = s.slots
    ∧ (noteCorrected p s).clock = s.clock := by
  unfold noteCorrected State.countCorrected State.guideSecond State.setFault
  dsimp only
  split <;> simp

theorem attends_of_slots (slots : t.slots = s.slots) (clock : t.clock = s.clock) : Attends s t := by
  have : ∀ j, t.slot j = s.slot j := fun j => by unfold State.slot; rw [slots]
  exact ⟨fun j => by rw [this], fun j => by rw [this], clock⟩

/-- A reader attends to the slots. -/
def Reader.attends (read : Reader) : Prop := ∀ n s, Attends s (read n s).2

theorem attends_determineWith {read : Reader} (hr : read.attends) (k : Fin 5) (s : State) :
    Attends s (determineWith read k s) := by
  unfold determineWith
  split
  · split
    · rename_i p _
      have b := hr p.num s
      split
      · rename_i e
        rw [e] at b
        exact b.trans (attends_setCurrent ..).1
      · rename_i e
        rw [e] at b
        exact b
    · exact (attends_setCurrent ..).1
  · exact (attends_setCurrent ..).1

/-- The slots and the clock after the report of a damaged entry are those that its removal's report leaves. -/
theorem damageWith_slots (read : Reader) (p : Place) (s : State) :
    let w := s.modGuide fun g => { Guide.remove p.num g with
      counters := { g.counters with damaged := g.counters.damaged + 1 }
      lastDamaged := some (p.ev.sid, p.ev.eid) }
    let v := forEach (w.slotsOf p.ev.sid) (determineWith read) w
    (damageWith read p s).slots = v.slots ∧ (damageWith read p s).clock = v.clock
      ∧ (damageWith read p s).guide = v.guide := by
  have raised : ∀ (x : State) n, ((x.guideLost n).guideNotice .damage).slots = x.slots
      ∧ ((x.guideLost n).guideNotice .damage).clock = x.clock
      ∧ ((x.guideLost n).guideNotice .damage).guide = x.guide := fun x n => by
    unfold State.guideLost State.guideNotice State.setFault
    dsimp only
    refine ⟨?_, ?_, ?_⟩
    · simp
    · simp
    · exact (gated_raise ..).guide.trans (gated_raise ..).guide
  exact raised _ _

theorem readBound_attends (b : Nat) : Reader.attends (readBound b) := by
  induction b with
  | zero => exact fun _ s => .refl s
  | succ b ih =>
    intro n s
    unfold readBound
    split
    · exact .refl s
    · rename_i p found
      split
      · exact .refl s
      · exact attends_of_slots (noteCorrected_slots p s).1 (noteCorrected_slots p s).2
      · obtain ⟨slots, clock, -⟩ := damageWith_slots (readBound b) p s
        refine Attends.trans ?_ (attends_of_slots slots clock)
        refine forEach_keeps (P := Attends s) (fun j _ u hu => hu.trans (attends_determineWith ih j u)) ?_
        exact ⟨fun _ => rfl, fun _ => .rfl, rfl⟩

/-! ### Current events found afresh (R26) -/

/-- The event of a service on air, of those that can be read. -/
def State.airing (s : State) (sid : Nat) : Option CurEvent :=
  Guide.currentAt (s.guide.places.filter s.guide.usable) sid s.now?

/-- Each slot on a service has the event on air for its current event (R26, R27). -/
def State.fresh (s : State) (sid : Nat) : Prop := ∀ k ∈ s.slotsOf sid, (s.slot k).cur = s.airing sid

/-- Reads change neither the slots on a service nor the event of it on air that can be read. -/
theorem Wears.airing (a : Wears s t) (b : Attends s t) (sorted : KeySorted (·.num) s.guide.places) (sid : Nat) :
    t.airing sid = s.airing sid := by
  unfold State.airing
  rw [a.guide.usable sorted, b.now?]

theorem keyFind_mem {α : Type} {key : α → Nat} {l : List α} (sorted : KeySorted key l) {a : α} (h : a ∈ l) :
    keyFind key (key a) l = some a := by
  cases found : keyFind key (key a) l with
  | none => exact absurd (List.find?_eq_none.1 found a h) (by simp)
  | some b =>
    obtain ⟨hb, e⟩ := keyFind_some found
    rw [keySorted_unique sorted hb h e]

/-! The reads of a place, by what the check unit finds there (R112). -/

theorem readBound_absent {b n : Nat} (absent : keyFind (·.num) n s.guide.places = none) : readBound (b + 1) n s = (none, s) := by
  rw [readBound, absent]

theorem readBound_clean {b n : Nat} (found : keyFind (·.num) n s.guide.places = some p) (c : s.guide.check p = .clean) :
    readBound (b + 1) n s = (some p.ev, s) := by
  simp only [readBound, found, c]

theorem readBound_corrected {b n : Nat} (found : keyFind (·.num) n s.guide.places = some p)
    (c : s.guide.check p = .corrected) : readBound (b + 1) n s = (some p.ev, noteCorrected p s) := by
  simp only [readBound, found, c]

theorem readBound_lost {b n : Nat} (found : keyFind (·.num) n s.guide.places = some p)
    (lost : s.guide.usable p = false) : readBound (b + 1) n s = (none, damageWith (readBound b) p s) := by
  simp only [readBound, found, check_uncorrectable_iff.2 lost]

/-- A slot's current event, where the entry on air can be read: it is that entry (R26). -/
theorem determineWith_reads {b : Nat} (hs : (s.slot k).service = some sid) (air : ∀ now, s.now? = some now →
      ∀ p, s.guide.onAirOf sid now = some p → s.guide.usable p = true)
    (sorted : KeySorted (·.num) s.guide.places) :
    ((determineWith (readBound (b + 1)) k s).slot k).cur = s.airing sid
      ∧ ∀ j, j ≠ k → ((determineWith (readBound (b + 1)) k s).slot j).cur = (s.slot j).cur := by
  have set : ∀ (e : Option CurEvent) (u : State), (∀ j, u.slot j = s.slot j) → e = s.airing sid →
      ((setCurrent k e u).slot k).cur = s.airing sid ∧ ∀ j, j ≠ k → ((setCurrent k e u).slot j).cur = (s.slot j).cur :=
    fun e u same he => by
      have b := (attends_setCurrent k e u).2
      exact ⟨by rw [b, if_pos rfl, he], fun j hj => by rw [b, if_neg hj, same]⟩
  unfold determineWith
  rw [hs]
  cases hn : s.now? with
  | none =>
    refine set none s (fun _ => rfl) ?_
    unfold State.airing Guide.currentAt
    rw [hn]
    rfl
  | some now =>
    dsimp only
    have found : s.airing sid = (s.guide.places.find? fun p => s.guide.usable p
        && (p.ev.sid == sid && p.ev.start ≤ now && now < p.ev.stop)).map (·.ev.current) := by
      unfold State.airing Guide.currentAt
      rw [hn, Option.bind_some, List.find?_filter]
      simp only [Bool.decide_and, Bool.decide_eq_true]
    have test : ∀ p : Place, (p.ev.sid == sid && p.ev.onAirAt now) = (p.ev.sid == sid && p.ev.start ≤ now && now < p.ev.stop) :=
      fun p => by unfold GuideEvent.onAirAt; rw [Bool.and_assoc]
    cases ha : s.guide.onAirOf sid now with
    | none =>
      refine set none s (fun _ => rfl) ?_
      rw [found]
      have absent := List.find?_eq_none.1 ha
      rw [List.find?_eq_none.2 fun p hp => ?_]
      · rfl
      · rw [← test]
        have := absent p hp
        simp only [Bool.not_eq_true] at this ⊢
        rw [this, Bool.and_false]
    | some p =>
      have use := air now hn p ha
      have found_p : s.airing sid = some p.ev.current := by
        rw [found]
        have : (s.guide.places.find? fun p => s.guide.usable p
            && (p.ev.sid == sid && p.ev.start ≤ now && now < p.ev.stop)) = some p := by
          obtain ⟨yes, as, bs, split, before⟩ := List.find?_eq_some_iff_append.1 ha
          refine List.find?_eq_some_iff_append.2 ⟨?_, as, bs, split, fun q hq => ?_⟩
          · rw [← test, use, yes]
            rfl
          · rw [← test]
            have := before q hq
            rw [Bool.not_eq_true'] at this
            rw [this, Bool.and_false]
            rfl
        rw [this]
        rfl
      have hp : p ∈ s.guide.places := List.mem_of_find?_eq_some ha
      dsimp only
      cases c : s.guide.check p with
      | clean =>
        rw [readBound_clean (keyFind_mem sorted hp) c]
        exact set _ s (fun _ => rfl) found_p.symm
      | corrected =>
        rw [readBound_corrected (keyFind_mem sorted hp) c]
        refine set _ _ (fun j => ?_) found_p.symm
        unfold State.slot
        rw [(noteCorrected_slots p s).1]
      | uncorrectable =>
        rw [unusable_of_check c] at use
        cases use

/-- A reader whose find of an entry past correction, in a store of few places, has the current events of the slots on its
service found afresh (R26, R115). -/
def Reader.refreshes (read : Reader) (bound : Nat) : Prop := ∀ n s p, KeySorted (·.num) s.guide.places →
  s.guide.places.length < bound → keyFind (·.num) n s.guide.places = some p → s.guide.usable p = false →
  (read n s).2.fresh p.ev.sid

section Refreshing

variable {b : Nat} (again : Reader.refreshes (readBound b) b) (sorted : KeySorted (·.num) w.guide.places)
  (few : w.guide.places.length < b)
include again sorted few

/-- The determination of one slot on a service gives it the event on air, and takes it from no other. -/
theorem determineWith_fresh (wears : Wears w v) (attends : Attends w v) (hk : k ∈ w.slotsOf sid) :
    ((determineWith (readBound b) k v).slot k).cur = w.airing sid
      ∧ ∀ j ∈ w.slotsOf sid, (v.slot j).cur = w.airing sid →
        ((determineWith (readBound b) k v).slot j).cur = w.airing sid := by
  have sorted_v := sorted.sublist wears.guide.sheds
  have air := wears.airing attends sorted sid
  have on : (v.slot k).service = some sid := by
    have := (List.mem_filter.1 (attends.slotsOf sid ▸ hk)).2
    simp only [Bool.and_eq_true, beq_iff_eq] at this
    exact this.2
  have less : v.guide.places.length < b := by
    have := wears.guide.sheds.length_le
    omega
  obtain ⟨b, rfl⟩ : ∃ c, b = c + 1 := ⟨b - 1, by omega⟩
  by_cases reads : ∀ now, v.now? = some now → ∀ q, v.guide.onAirOf sid now = some q → v.guide.usable q = true
  · obtain ⟨mine, others⟩ := determineWith_reads (b := b) on reads sorted_v
    rw [air] at mine
    refine ⟨mine, fun j _ fresh => ?_⟩
    by_cases e : j = k
    · rw [e, mine]
    · rw [others j e, fresh]
  · push Not at reads
    obtain ⟨now, hnow, q, onAir, spoilt⟩ := reads
    replace spoilt := eq_false_of_ne_true spoilt
    have found := keyFind_mem sorted_v (List.mem_of_find?_eq_some onAir)
    have sid_q : q.ev.sid = sid := by
      have := List.find?_some onAir
      simp only [Bool.and_eq_true, beq_iff_eq] at this
      exact this.1
    have fresh := again q.num v q sorted_v less found spoilt
    have same : determineWith (readBound (b + 1)) k v = (readBound (b + 1) q.num v).2 := by
      unfold determineWith
      rw [on, hnow]
      dsimp only
      rw [onAir]
      dsimp only
      rw [readBound_lost found spoilt]
    rw [same]
    have attends' := readBound_attends (b + 1) q.num v
    have air' := (readBound_wears (b + 1) q.num v).airing attends' sorted_v sid
    have all : ∀ j ∈ w.slotsOf sid, ((readBound (b + 1) q.num v).2.slot j).cur = w.airing sid := fun j hj => by
      rw [← air, ← air']
      rw [sid_q] at fresh
      exact fresh j (by rw [attends'.slotsOf, attends.slotsOf]; exact hj)
    exact ⟨all k hk, fun j hj _ => all j hj⟩

/-- The determinations of slots on a service, one after another. -/
theorem forEach_fresh {ks done : List (Fin 5)} (sub : ks ⊆ w.slotsOf sid) (wears : Wears w v) (attends : Attends w v)
    (in_done : done ⊆ w.slotsOf sid) (fresh : ∀ j ∈ done, (v.slot j).cur = w.airing sid) :
    ∀ j ∈ done ++ ks, ((forEach ks (determineWith (readBound b)) v).slot j).cur = w.airing sid := by
  induction ks generalizing v done with
  | nil => exact fun j hj => fresh j (by simpa using hj)
  | cons k ks ih =>
    have hk := sub (List.mem_cons_self ..)
    obtain ⟨mine, others⟩ := determineWith_fresh again sorted few wears attends hk
    intro j hj
    refine ih (fun _ h => sub (List.mem_cons_of_mem _ h)) (wears.determineWith (readBound_wears b) k)
      (attends.trans (attends_determineWith (readBound_attends b) k v)) (done := done ++ [k]) (fun i hi => ?_) (fun i hi => ?_) j
      (by simpa using hj)
    · rcases List.mem_append.1 hi with hi | hi
      · exact in_done hi
      · rwa [List.mem_singleton.1 hi]
    · rcases List.mem_append.1 hi with hi | hi
      · exact others i (in_done hi) (fresh i hi)
      · rwa [List.mem_singleton.1 hi]

/-- A change of a service's entries reaches every slot on it (R107). -/
theorem touchedWith_fresh (sid : Nat) : (touchedWith (readBound b) sid w).fresh sid := by
  have wears : Wears w (touchedWith (readBound b) sid w) :=
    (Wears.refl w).forEach fun j _ _ a => a.determineWith (readBound_wears b) j
  have attends : Attends w (touchedWith (readBound b) sid w) :=
    forEach_keeps (P := Attends w) (fun j _ u hu => hu.trans (attends_determineWith (readBound_attends b) j u)) (.refl w)
  intro j hj
  rw [attends.slotsOf] at hj
  rw [wears.airing attends sorted]
  exact forEach_fresh again sorted few (List.Subset.refl _) (.refl w) (.refl w) (List.nil_subset _) (by simp) j
    (by simpa using hj)

end Refreshing

/-- What a slot has for its current event is a matter of the slots, the clock and the guide. -/
theorem State.fresh.congr (a : s.fresh sid) (slots : t.slots = s.slots) (clock : t.clock = s.clock)
    (guide : t.guide = s.guide) : t.fresh sid := by
  have slot : ∀ j, t.slot j = s.slot j := fun j => by unfold State.slot; rw [slots]
  have air : t.airing sid = s.airing sid := by
    unfold State.airing State.now?
    rw [guide, clock]
  intro j hj
  rw [(attends_of_slots slots clock).slotsOf] at hj
  rw [slot, air]
  exact a j hj

/-- A read that finds an entry past correction has the current events of the slots on its service found afresh, however
many more entries are lost by that (R26, R115). -/
theorem readBound_refreshes (b : Nat) : Reader.refreshes (readBound b) b := by
  induction b with
  | zero => exact fun _ _ _ _ few => absurd few (by omega)
  | succ b ih =>
    intro n s p sorted few found lost
    have hp := (keyFind_some found).1
    rw [readBound_lost found lost]
    obtain ⟨slots, clock, guide⟩ := damageWith_slots (readBound b) p s
    have removed : Wears s (s.modGuide fun g => { Guide.remove p.num g with
      counters := { g.counters with damaged := g.counters.damaged + 1 }
      lastDamaged := some (p.ev.sid, p.ev.eid) }) := ⟨worn_remove hp lost rfl rfl, id⟩
    have fewer : (Guide.remove p.num s.guide).places.length < s.guide.places.length :=
      List.length_filter_lt_length_iff_exists.2 ⟨p, hp, by simp⟩
    refine State.fresh.congr ?_ slots clock guide
    exact touchedWith_fresh ih (sorted.sublist removed.guide.sheds) (Nat.lt_of_lt_of_le fewer (Nat.le_of_lt_succ few)) _

end Sys2Proof.Machine
end

