-- ==== Sys2Proof/Proofs/P20.lean ====
section
/-! SUPPORT. What the reads of some places of a service do, one after another, where no slot follows a removal
(R112 to R115). -/

namespace Sys2Proof.Machine

open Sys2Proof

variable {sid : Nat} {s t u : State} {g h : Guide} {p q : Place} {ps : List Place}

/-! ### A single read, as a change of the guide, the faults, the schedule and the link port -/

/-- The link port once a notice has been raised: its flag is set, and no flag is cleared (R188). -/
structure Link.Flagged (x : NoticeKind) (l m : Link) : Prop where
  core : m.core = l.core
  flag : m.flags[x.index] = true
  keeps : ∀ i : Fin 10, l.flags[i] = true → m.flags[i] = true

theorem exists_flagged (x : NoticeKind) (sub : Option Nat) (b : List Byte) (running : s.restarting = false) :
    ∃ l : Link, s.raise x sub b = { s with link := l } ∧ s.link.Flagged x l := by
  obtain ⟨l, e, core, flags⟩ := exists_raise x sub b s
  refine ⟨l, e, core, (flags running x.index.val x.index.isLt).trans (if_pos rfl), fun i hi => ?_⟩
  refine (flags running i.val i.isLt).trans ?_
  split
  · rfl
  · exact hi

/-- A fault set is the summary changed and a new link port, its FAULT notice flagged (R180). -/
theorem exists_setFault (n : FaultName) (f : Faults → Faults) (running : s.restarting = false) :
    ∃ l : Link, s.setFault n f = { s with faults := f s.faults, link := l } ∧ s.link.Flagged .fault l :=
  exists_flagged (s := s.modFaults f) .fault none (u8 n.code ++ (f s.faults).bytes) running

theorem countCorrected_guide (s : State) : s.countCorrected.guide = s.guide := (gated_raise ..).guide

theorem noteCorrected_posts (p : Place) (free : s.guide.scrub = none) : noteCorrected p s
    = s.countCorrected.modGuide fun g =>
      { g with scrub := some { place := p.num, contents := p.ev, due := s.countCorrected.clock.uptimeMs + 1 } } := by
  unfold noteCorrected
  dsimp only
  rw [countCorrected_guide, free]

theorem noteCorrected_second (p : Place) (pending : s.guide.scrub.isSome = true) :
    noteCorrected p s = s.countCorrected.guideSecond p.num := by
  unfold noteCorrected
  dsimp only
  rw [countCorrected_guide]
  cases h : s.guide.scrub with
  | none =>
    rw [h] at pending
    cases pending
  | some _ => rfl

/-- A CORRECTED read is counted, and posts a rewrite or has a second error recorded (R113, R114). -/
theorem exists_noteCorrected (p : Place) (running : s.restarting = false) : ∃ l : Link, noteCorrected p s = { s with
      guide := { s.guide with
        scrub := s.guide.scrub.or (some { place := p.num, contents := p.ev, due := s.clock.uptimeMs + 1 }) }
      faults := { s.faults with
        guideCorrected := bump s.faults.guideCorrected
        guideSecond := if s.guide.scrub.isSome then some p.num else s.faults.guideSecond }
      link := l }
    ∧ s.link.Flagged .fault l := by
  obtain ⟨l, e, counted⟩ := exists_setFault .guideCorrected
    (fun f : Faults => { f with guideCorrected := bump f.guideCorrected }) running
  have first : s.countCorrected = { s with
      faults := { s.faults with guideCorrected := bump s.faults.guideCorrected }, link := l } := e
  by_cases pending : s.guide.scrub.isSome = true
  · obtain ⟨m, e', recorded⟩ := exists_setFault (s := s.countCorrected) .guideSecond
      (fun f : Faults => { f with guideSecond := some p.num }) (by rw [first]; exact running)
    have kept : s.guide.scrub.or (some { place := p.num, contents := p.ev, due := s.clock.uptimeMs + 1 })
        = s.guide.scrub := by
      cases h : s.guide.scrub with
      | none =>
        rw [h] at pending
        cases pending
      | some _ => rfl
    have link : s.countCorrected.link = l := by rw [first]
    refine ⟨m, ?_, recorded.core.trans ?_, recorded.flag, fun i hi => recorded.keeps i ?_⟩
    · rw [noteCorrected_second p pending, kept, if_pos pending]
      refine Eq.trans e' ?_
      rw [first]
    · rw [link]
      exact counted.core
    · rw [link]
      exact counted.keeps i hi
  · have free : s.guide.scrub = none := by simpa using pending
    refine ⟨l, ?_, counted⟩
    rw [noteCorrected_posts p free, first, if_neg pending, free]
    rfl

/-- An entry past correction goes, where no slot is on its service (R115, R165). -/
theorem exists_damageWith (read : Reader) (p : Place) (running : s.restarting = false) (alone : s.slotsOf p.ev.sid = []) :
    ∃ l : Link, damageWith read p s = { s with
      guide := { Guide.remove p.num s.guide with
        counters := { s.guide.counters with damaged := s.guide.counters.damaged + 1 }
        lastDamaged := some (p.ev.sid, p.ev.eid) }
      schedule := s.schedule.map fun (e : Entry) =>
        if e.tiedTo p.ev.sid p.ev.eid then { e with orphan := true } else e
      faults := { s.faults with guideLost := some (p.num, (s.faults.guideLost.map (·.2)).getD 0 + 1) }
      link := l }
    ∧ s.link.Flagged .fault l ∧ l.flags[NoticeKind.guide.index] = true := by
  have removed : reportRemovalWith read p.ev (s.modGuide fun g => { Guide.remove p.num g with
        counters := { g.counters with damaged := g.counters.damaged + 1 }
        lastDamaged := some (p.ev.sid, p.ev.eid) })
      = { s with
        guide := { Guide.remove p.num s.guide with
          counters := { s.guide.counters with damaged := s.guide.counters.damaged + 1 }
          lastDamaged := some (p.ev.sid, p.ev.eid) }
        schedule := s.schedule.map fun (e : Entry) =>
          if e.tiedTo p.ev.sid p.ev.eid then { e with orphan := true } else e } := by
    unfold reportRemovalWith touchedWith
    have : (s.modGuide fun g => { Guide.remove p.num g with
        counters := { g.counters with damaged := g.counters.damaged + 1 }
        lastDamaged := some (p.ev.sid, p.ev.eid) }).slotsOf p.ev.sid = [] := alone
    rw [this]
    rfl
  unfold damageWith
  dsimp only
  rw [removed]
  generalize hw : ({ s with
        guide := { Guide.remove p.num s.guide with
          counters := { s.guide.counters with damaged := s.guide.counters.damaged + 1 }
          lastDamaged := some (p.ev.sid, p.ev.eid) }
        schedule := s.schedule.map fun (e : Entry) =>
          if e.tiedTo p.ev.sid p.ev.eid then { e with orphan := true } else e } : State) = w
  have running_w : w.restarting = false := by rw [← hw]; exact running
  obtain ⟨l, e, recorded⟩ := exists_flagged
    (s := w.modFaults fun f => { f with guideLost := some (p.num, (f.guideLost.map (·.2)).getD 0 + 1) }) .fault none
    (u8 FaultName.guideLostEntry.code ++ Faults.bytes { w.faults with
      guideLost := some (p.num, (w.faults.guideLost.map (·.2)).getD 0 + 1) }) running_w
  have lost : w.guideLost p.num = { w.modFaults (fun f =>
    { f with guideLost := some (p.num, (f.guideLost.map (·.2)).getD 0 + 1) }) with link := l } := e
  rw [lost]
  unfold State.guideNotice
  obtain ⟨m, e', noticed⟩ := exists_flagged (s := { w.modFaults (fun f =>
    { f with guideLost := some (p.num, (f.guideLost.map (·.2)).getD 0 + 1) }) with link := l }) .guide none
    (guideNoticeBytes .damage { w.modFaults (fun f =>
      { f with guideLost := some (p.num, (f.guideLost.map (·.2)).getD 0 + 1) }) with link := l }) running_w
  have link : w.link = s.link := by rw [← hw]
  refine ⟨m, ?_, ⟨?_, noticed.keeps _ recorded.flag, fun i hi => noticed.keeps i (recorded.keeps i ?_)⟩, noticed.flag⟩
  · rw [e', ← hw]
    rfl
  · exact (noticed.core.trans recorded.core).trans (congrArg Link.core link)
  · show w.link.flags[i] = true
    rw [link]
    exact hi

/-! ### Reads one after another -/

theorem readsThrough_nil (s : State) : s.readsThrough s [] := by
  constructor <;> simp [Guide.lostOf]

theorem lostOf_append (g : Guide) (ps qs : List Place) : g.lostOf (ps ++ qs) = g.lostOf ps ++ g.lostOf qs :=
  List.filter_append ..

theorem lostOf_usable (h : g.usable p = true) : g.lostOf [p] = [] := by simp [Guide.lostOf, h]

theorem lostOf_lost (h : g.usable p = false) : g.lostOf [p] = [p] := by simp [Guide.lostOf, h]

theorem usable_of_amends (h : g.amends p = true) : g.usable p = true := by
  unfold Guide.amends at h
  unfold Guide.usable
  rw [Bool.and_eq_true, beq_iff_eq] at h
  simp [h.2]

theorem amends_of_lost (h : g.usable p = false) : g.amends p = false := by
  by_contra e
  rw [usable_of_amends (eq_true_of_ne_false e)] at h
  cases h

/-- A CLEAN read does nothing (R112). -/
theorem readsThrough_clean (a : s.readsThrough u ps) (use : s.guide.usable p = true) (whole : s.guide.amends p = false) :
    s.readsThrough u (ps ++ [p]) := by
  have lost : s.guide.lostOf (ps ++ [p]) = s.guide.lostOf ps := by
    rw [lostOf_append, lostOf_usable use, List.append_nil]
  have amended : (ps ++ [p]).filter s.guide.amends = ps.filter s.guide.amends := by simp [whole]
  have any : (ps ++ [p]).any s.guide.amends = ps.any s.guide.amends := by simp [whole]
  exact ⟨by rw [lost, amended]; exact a.places, fun i => by rw [lost]; exact a.orphans i,
    by rw [lost, amended, any]; exact a.faults, a.rest, by rw [lost]; exact a.damage, by rw [any]; exact a.counted⟩

theorem readsThrough_restarting (a : s.readsThrough u ps) : u.restarting = s.restarting :=
  (congrArg State.restarting a.rest :)

theorem readsThrough_clock (a : s.readsThrough u ps) : u.clock = s.clock := (congrArg State.clock a.rest :)

/-- A CORRECTED read, after others (R113, R114). -/
theorem readsThrough_corrected (a : s.readsThrough u ps) (amends : s.guide.amends p = true)
    (running : s.restarting = false) : s.readsThrough (noteCorrected p u) (ps ++ [p]) := by
  obtain ⟨l, e, flagged⟩ := exists_noteCorrected p ((readsThrough_restarting a).trans running)
  have lost : s.guide.lostOf (ps ++ [p]) = s.guide.lostOf ps := by
    rw [lostOf_append, lostOf_usable (usable_of_amends amends), List.append_nil]
  have amended : (ps ++ [p]).filter s.guide.amends = ps.filter s.guide.amends ++ [p] := by simp [amends]
  have any : (ps ++ [p]).any s.guide.amends = true := by simp [amends]
  have guide := a.places
  have faults := a.faults
  rw [e]
  refine ⟨?_, fun i => by rw [lost]; exact a.orphans i, ?_, ?_, fun h => ?_, fun _ => flagged.flag⟩
  · rw [lost, amended]
    dsimp only
    rw [guide, readsThrough_clock a]
    dsimp only
    congr 1
    cases s.guide.scrub with
    | some r => rfl
    | none => cases ps.filter s.guide.amends <;> rfl
  · rw [lost, amended, any]
    dsimp only
    rw [faults, guide]
    dsimp only
    congr 1
    · rw [if_pos rfl]
      unfold bump
      by_cases some_read : ps.any s.guide.amends = true
      · rw [if_pos some_read]
        simp [List.length_append, BitVec.ofNat_add, BitVec.add_assoc]
      · have none_read : ps.filter s.guide.amends = [] := by
          simpa using some_read
        rw [if_neg some_read, none_read]
        rfl
    · cases s.guide.scrub with
      | some r => simp
      | none =>
        cases ps.filter s.guide.amends with
        | nil => simp
        | cons q qs => simp
  · refine Eq.trans ?_ a.rest
    unfold State.noted
    dsimp only
    rw [rest_of_core flagged.core]
  · rw [lost] at h
    exact ⟨flagged.keeps 3 (a.damage h).1, flagged.flag⟩

/-- Being tied to an event is no matter of the orphan flag (R165). -/
theorem tiedTo_orphan (sid eid : Nat) (e : Entry) (b : Bool) :
    Entry.tiedTo sid eid { e with orphan := b } = e.tiedTo sid eid := rfl

/-- A read that finds a place past correction, after others, no slot being on its service (R115). -/
theorem readsThrough_lost (read : Reader) (a : s.readsThrough u ps) (lost : s.guide.usable p = false)
    (unserved : ∀ r ∈ u.guide.scrub, r.place ≠ p.num)
    (running : s.restarting = false) (alone : u.slotsOf p.ev.sid = []) :
    s.readsThrough (damageWith read p u) (ps ++ [p]) := by
  obtain ⟨l, e, flagged, noticed⟩ := exists_damageWith read p ((readsThrough_restarting a).trans running) alone
  have losts : s.guide.lostOf (ps ++ [p]) = s.guide.lostOf ps ++ [p] := by rw [lostOf_append, lostOf_lost lost]
  have amended : (ps ++ [p]).filter s.guide.amends = ps.filter s.guide.amends := by simp [amends_of_lost lost]
  have any : (ps ++ [p]).any s.guide.amends = ps.any s.guide.amends := by simp [amends_of_lost lost]
  have guide := a.places
  have faults := a.faults
  rw [e]
  refine ⟨?_, fun i => ?_, ?_, ?_, fun _ => ⟨noticed, flagged.flag⟩, fun h => flagged.flag⟩
  · rw [losts, amended]
    have scrub : (Guide.remove p.num u.guide).scrub = u.guide.scrub := by
      unfold Guide.remove
      dsimp only
      cases hs : u.guide.scrub with
      | none => rfl
      | some r => simp [Option.filter, unserved r (by rw [hs]; rfl)]
    have places : (Guide.remove p.num u.guide).places = u.guide.places.filter fun q => q.num != p.num := rfl
    have others : (Guide.remove p.num u.guide).patrol = u.guide.patrol
      ∧ (Guide.remove p.num u.guide).patrolDue = u.guide.patrolDue := ⟨rfl, rfl⟩
    dsimp only
    rw [scrub, places, others.1, others.2, guide]
    dsimp only
    congr 1
    · rw [List.filter_filter]
      refine List.filter_congr fun q hq => ?_
      simp only [List.any_append, List.any_cons, List.any_nil, Bool.or_false, Bool.not_or]
      rw [Bool.and_comm]
      congr 1
      rw [bne, Bool.beq_comm]
    · simp [BitVec.ofNat_add, BitVec.add_assoc]
    · simp
  · rw [losts]
    have entry : (u.schedule.map fun (x : Entry) => if x.tiedTo p.ev.sid p.ev.eid then { x with orphan := true } else x)[i]
        = if (u.entry i).tiedTo p.ev.sid p.ev.eid then { u.entry i with orphan := true } else u.entry i :=
      Vector.getElem_map _ _
    refine Eq.trans entry ?_
    rw [a.orphans i, List.any_append]
    rw [tiedTo_orphan]
    split
    · rename_i h
      simp [h]
    · rename_i h
      simp [h]
  · rw [losts, amended, any]
    dsimp only
    rw [faults]
    congr 1
    cases s.guide.lostOf ps with
    | nil => simp
    | cons q qs => simp [BitVec.ofNat_add, BitVec.add_assoc, List.getLast?_cons]
  · refine Eq.trans ?_ a.rest
    unfold State.noted
    dsimp only
    rw [rest_of_core flagged.core]

end Sys2Proof.Machine
end

