-- ==== Sys2Proof/Proofs/P21.lean ====
section
/-! SUPPORT. Places of a service read in turn: what is returned, and what the reads do (R112 to R115, R122, R123). -/

namespace Sys2Proof.Machine

open Sys2Proof

variable {sid n : Nat} {s t u : State} {g h : Guide} {p q : Place} {ps L : List Place}

/-! ### Some places of a service read -/

/-- What the reads of some places of a service have done, whatever slots are on it (R26, R112 to R115). -/
structure Sifted (sid : Nat) (s t : State) (ps : List Place) : Prop where
  flow : Flow none s t
  wears : Wears s t
  attends : Attends s t
  clean : (∀ p ∈ ps, s.guide.serves p = true ∨ p.disturbed = 0) → t = s
  effects : (∀ p ∈ ps, s.guide.usable p = true) ∨ s.slotsOf sid = [] → s.readsThrough t ps
  gone : ∀ p ∈ s.guide.lostOf ps, p ∉ t.guide.places
  whole : s.guide.lostOf ps = [] → t.guide.places = s.guide.places
  fresh : s.guide.lostOf ps ≠ [] → t.fresh sid

theorem Sifted.nil (sid : Nat) (s : State) : Sifted sid s s [] :=
  ⟨.refl none s, .refl s, .refl s, fun _ => rfl, fun _ => readsThrough_nil s, fun _ h => absurd h (by simp [Guide.lostOf]),
    fun _ => rfl, fun h => absurd rfl h⟩

theorem noteCorrected_places (p : Place) (s : State) : (noteCorrected p s).guide.places = s.guide.places := by
  by_cases pending : s.guide.scrub.isSome = true
  · rw [noteCorrected_second p pending]
    exact congrArg Guide.places ((gated_raise ..).guide.trans (countCorrected_guide s))
  · rw [noteCorrected_posts p (by simpa using pending)]
    exact (congrArg Guide.places (countCorrected_guide s) : s.countCorrected.guide.places = s.guide.places)

theorem flow_readPlace (n : Nat) (a : Flow none s t) : Flow none s (readPlace n t).2 := readBound_flows none _ n s t a

/-- A place that can be read, where it is (R112). -/
theorem readPlace_usable (sorted : KeySorted (·.num) s.guide.places) (hp : p ∈ s.guide.places)
    (use : s.guide.usable p = true) :
    (s.guide.check p = .clean ∧ readPlace p.num s = (some p.ev, s))
      ∨ (s.guide.check p = .corrected ∧ readPlace p.num s = (some p.ev, noteCorrected p s)) := by
  have found := keyFind_mem sorted hp
  cases c : s.guide.check p with
  | clean => exact .inl ⟨rfl, readBound_clean found c⟩
  | corrected => exact .inr ⟨rfl, readBound_corrected found c⟩
  | uncorrectable =>
    rw [unusable_of_check c] at use
    cases use

theorem readPlace_usable_ev (sorted : KeySorted (·.num) s.guide.places) (hp : p ∈ s.guide.places)
    (use : s.guide.usable p = true) : (readPlace p.num s).1 = some p.ev := by
  rcases readPlace_usable sorted hp use with ⟨-, e⟩ | ⟨-, e⟩ <;> rw [e]

/-- A place past correction gives nothing, whether it still holds its entry or not. -/
theorem readPlace_lost_ev (wears : g.Worn s.guide) (sorted : KeySorted (·.num) g.places) (hp : p ∈ g.places)
    (lost : g.usable p = false) : (readPlace p.num s).1 = none := by
  cases found : keyFind (·.num) p.num s.guide.places with
  | none => exact congrArg Prod.fst (readBound_absent found)
  | some q =>
    obtain ⟨hq, e⟩ := keyFind_some found
    have := keySorted_unique sorted (wears.sheds.subset hq) hp e
    subst this
    exact congrArg Prod.fst (readBound_lost found ((wears.usable_eq sorted hq).trans lost))

theorem State.fresh.kept (a : s.fresh sid) (slots : t.slots = s.slots) (clock : t.clock = s.clock) (wears : Wears s t)
    (sorted : KeySorted (·.num) s.guide.places) : t.fresh sid := by
  have attends := attends_of_slots slots clock
  intro j hj
  rw [attends.slotsOf] at hj
  rw [wears.airing attends sorted]
  have : t.slot j = s.slot j := by unfold State.slot; rw [slots]
  rw [this]
  exact a j hj

theorem check_clean_iff : g.check p = .clean ↔ g.serves p = true ∨ p.disturbed = 0 := by
  unfold Guide.check Guide.serves
  constructor
  · intro c
    split at c
    · exact .inl ‹_›
    · split at c
      · exact .inr ‹_›
      · split at c <;> cases c
  · intro c
    split
    · rfl
    · rw [if_pos (c.resolve_left ‹_›)]

/-- A place not yet read is served from the register if it was before (R113). -/
theorem readsThrough_serves (a : s.readsThrough u ps) (new : ∀ q ∈ ps, q.num ≠ p.num) :
    u.guide.serves p = s.guide.serves p := by
  unfold Guide.serves
  rw [a.places]
  dsimp only
  cases s.guide.scrub with
  | some r => rfl
  | none =>
    cases first : (ps.filter s.guide.amends).head? with
    | none => rfl
    | some q =>
      have hq := (List.mem_filter.1 (List.mem_of_mem_head? first)).1
      simp [new q hq]

theorem usable_of_clean (c : g.serves p = true ∨ p.disturbed = 0) : g.usable p = true :=
  usable_of_check (check_clean_iff.2 c ▸ (by decide))

/-- A damaged entry is in the store no more (R115). -/
theorem not_mem_damageWith (read : Reader) (hr : read.wears) (p : Place) (s : State) :
    p ∉ (damageWith read p s).guide.places := by
  obtain ⟨-, -, guide⟩ := damageWith_slots read p s
  rw [guide]
  have wears : ∀ (ks : List (Fin 5)) (w : State), Wears w (forEach ks (determineWith read) w) := fun ks w =>
    (Wears.refl w).forEach fun j _ _ a => a.determineWith hr j
  intro h
  have := (wears _ _).guide.sheds.subset h
  exact absurd (List.mem_filter.1 this).2 (by simp)

section Reading

variable (a : Sifted sid s u ps) (sorted : KeySorted (·.num) s.guide.places) (running : s.restarting = false)
  (hp : p ∈ s.guide.places) (new : ∀ q ∈ ps, q.num ≠ p.num)
include a sorted running hp new

/-- A place read that can be: it is CLEAN or CORRECTED (R112, R113). -/
theorem Sifted.read_usable (use : s.guide.usable p = true) : Sifted sid s (readPlace p.num u).2 (ps ++ [p]) := by
  have sorted_u := sorted.sublist a.wears.guide.sheds
  have hu := a.wears.guide.stays sorted hp use
  have use_u := (a.wears.guide.usable_eq sorted hu).trans use
  have lost : s.guide.lostOf (ps ++ [p]) = s.guide.lostOf ps := by
    rw [lostOf_append, lostOf_usable use, List.append_nil]
  have few : (∀ q ∈ ps ++ [p], s.guide.usable q = true) ∨ s.slotsOf sid = [] →
      (∀ q ∈ ps, s.guide.usable q = true) ∨ s.slotsOf sid = [] :=
    Or.imp_left fun all q hq => all q (List.mem_append_left _ hq)
  rcases readPlace_usable sorted_u hu use_u with ⟨c, e⟩ | ⟨c, e⟩
  · rw [e]
    refine ⟨a.flow, a.wears, a.attends, fun all => a.clean fun q hq => all q (List.mem_append_left _ hq), fun h => ?_,
      by rw [lost]; exact a.gone, by rw [lost]; exact a.whole, by rw [lost]; exact a.fresh⟩
    have through := a.effects (few h)
    refine readsThrough_clean through use ?_
    rw [check_clean_iff, readsThrough_serves through new] at c
    unfold Guide.amends
    rcases c with c | c <;> rw [c] <;> simp
  · have flow := flow_readPlace p.num a.flow
    have wears := a.wears.readPlace p.num
    obtain ⟨slots, clock⟩ := noteCorrected_slots p u
    have places := noteCorrected_places p u
    have step := (Wears.refl u).readPlace p.num
    rw [e] at flow wears step ⊢
    refine ⟨flow, wears, a.attends.trans (attends_of_slots slots clock), fun all => ?_, fun h => ?_, ?_, ?_, ?_⟩
    · have same := a.clean fun q hq => all q (List.mem_append_left _ hq)
      rw [same, check_clean_iff.2 (all p (by simp))] at c
      cases c
    · have through := a.effects (few h)
      obtain ⟨one, unserved⟩ := check_corrected c
      rw [readsThrough_serves through new] at unserved
      refine readsThrough_corrected through ?_ running
      unfold Guide.amends
      rw [unserved, one]
      rfl
    · rw [lost]
      exact fun q hq => by rw [places]; exact a.gone q hq
    · rw [lost]
      exact fun h => places.trans (a.whole h)
    · rw [lost]
      exact fun h => (a.fresh h).kept slots clock step sorted_u

/-- A place read that is past correction: its entry goes, or has gone with another's (R115). -/
theorem Sifted.read_lost (on : p.ev.sid = sid) (lost : s.guide.usable p = false) :
    Sifted sid s (readPlace p.num u).2 (ps ++ [p]) := by
  have sorted_u := sorted.sublist a.wears.guide.sheds
  have losts : s.guide.lostOf (ps ++ [p]) = s.guide.lostOf ps ++ [p] := by rw [lostOf_append, lostOf_lost lost]
  have flow := flow_readPlace p.num a.flow
  have wears := a.wears.readPlace p.num
  have attends := a.attends.trans (readBound_attends _ p.num u : Attends u (readPlace p.num u).2)
  have alone : ∀ h : (∀ q ∈ ps ++ [p], s.guide.usable q = true) ∨ s.slotsOf sid = [], s.slotsOf sid = [] := fun h =>
    h.resolve_left fun all => by
      rw [all p (by simp)] at lost
      cases lost
  have sheds := (readBound_wears _ p.num u : Wears u (readPlace p.num u).2).guide.sheds
  have found : p ∈ u.guide.places → readPlace p.num u = (none, damageWith (readBound u.guide.places.length) p u) :=
    fun hu => readBound_lost (keyFind_mem sorted_u hu) ((a.wears.guide.usable_eq sorted hu).trans lost)
  refine ⟨flow, wears, attends, fun all => ?_, fun h => ?_, ?_, ?_, fun _ => ?_⟩
  · rw [usable_of_clean (all p (by simp))] at lost
    cases lost
  · have through := a.effects (.inr (alone h))
    have hu : p ∈ u.guide.places := by
      rw [through.places]
      refine List.mem_filter.2 ⟨hp, ?_⟩
      simp only [Bool.not_eq_eq_eq_not, Bool.not_true, List.any_eq_false, beq_iff_eq]
      exact fun q hq => new q (List.mem_filter.1 hq).1
    rw [found hu]
    refine readsThrough_lost _ through lost (fun r hr e => ?_) running ?_
    · have served : u.guide.serves p = true := by
        unfold Guide.serves
        rw [Option.mem_def.1 hr]
        simpa using e
      rw [readsThrough_serves through new] at served
      rw [usable_of_clean (.inl served)] at lost
      cases lost
    · rw [a.attends.slotsOf, on]
      exact alone h
  · rw [losts]
    intro q hq
    rcases List.mem_append.1 hq with hq | hq
    · exact fun h => a.gone q hq (sheds.subset h)
    · rw [List.mem_singleton.1 hq]
      by_cases hu : p ∈ u.guide.places
      · rw [found hu]
        exact not_mem_damageWith _ (readBound_wears _) p u
      · exact fun h => hu (sheds.subset h)
  · rw [losts]
    exact fun h => absurd h (by simp)
  · by_cases hu : p ∈ u.guide.places
    · rw [← on]
      exact readBound_refreshes _ _ _ p sorted_u (Nat.lt_succ_self _) (keyFind_mem sorted_u hu)
        ((a.wears.guide.usable_eq sorted hu).trans lost)
    · have absent : readPlace p.num u = (none, u) := by
        refine readBound_absent ?_
        by_contra h
        obtain ⟨q, hq⟩ := Option.ne_none_iff_exists'.1 h
        obtain ⟨mem, e⟩ := keyFind_some hq
        exact hu (keySorted_unique sorted (a.wears.guide.sheds.subset mem) hp e ▸ mem)
      rw [absent]
      exact a.fresh fun h => hu (by rw [a.whole h]; exact hp)

end Reading

/-- One more place read. -/
theorem Sifted.read (a : Sifted sid s u ps) (sorted : KeySorted (·.num) s.guide.places) (running : s.restarting = false)
    (hp : p ∈ s.guide.places) (on : p.ev.sid = sid) (new : ∀ q ∈ ps, q.num ≠ p.num) :
    Sifted sid s (readPlace p.num u).2 (ps ++ [p]) := by
  cases use : s.guide.usable p with
  | true => exact a.read_usable sorted running hp new use
  | false => exact a.read_lost sorted running hp new on use

/-! ### Places read in turn (R122) -/

theorem readEntries_some {m n : Nat} {l : List Nat} {e : GuideEvent} (h : (readPlace m u).1 = some e) :
    (readEntries (n + 1) (m :: l) u).1 = e :: (readEntries n l (readPlace m u).2).1
      ∧ (readEntries (n + 1) (m :: l) u).2 = (readEntries n l (readPlace m u).2).2 := by
  rw [readEntries]
  generalize readPlace m u = r at h
  obtain ⟨x, v⟩ := r
  subst h
  exact ⟨rfl, rfl⟩

theorem readEntries_none {m n : Nat} {l : List Nat} (h : (readPlace m u).1 = none) :
    readEntries (n + 1) (m :: l) u = readEntries (n + 1) l (readPlace m u).2 := by
  rw [readEntries]
  generalize readPlace m u = r at h
  obtain ⟨x, v⟩ := r
  subst h
  rfl

theorem readsFor_subset (g : Guide) (n : Nat) (L : List Place) : g.readsFor n L ⊆ L := by
  induction L generalizing n with
  | nil => simp [Guide.readsFor]
  | cons p L ih =>
    cases n with
    | zero => simp [Guide.readsFor]
    | succ n =>
      rw [Guide.readsFor]
      exact List.cons_subset_cons p (ih _)

/-- Places of a service read in turn, after others: what is returned, and what it has done (R112 to R115, R122). -/
theorem Sifted.entries (a : Sifted sid s u ps) (sorted : KeySorted (·.num) s.guide.places) (running : s.restarting = false)
    (sub : ∀ q ∈ L, q ∈ s.guide.places ∧ q.ev.sid = sid) (apart : L.Pairwise fun p q => p.num ≠ q.num)
    (new : ∀ q ∈ L, ∀ r ∈ ps, r.num ≠ q.num) (n : Nat) :
    (readEntries n (L.map (·.num)) u).1 = ((L.filter s.guide.usable).take n).map (·.ev)
      ∧ Sifted sid s (readEntries n (L.map (·.num)) u).2 (ps ++ s.guide.readsFor n L) := by
  induction L generalizing n u ps with
  | nil =>
    have : readEntries n [] u = ([], u) := by cases n <;> rfl
    rw [List.map_nil, this]
    simpa [Guide.readsFor] using a
  | cons p L ih =>
    cases n with
    | zero => simpa [Guide.readsFor, readEntries] using a
    | succ n =>
      obtain ⟨hp, on⟩ := sub p (by simp)
      have read := a.read sorted running hp on (new p (by simp))
      have rest := fun m => ih (n := m) read (fun q hq => sub q (List.mem_cons_of_mem _ hq)) (List.pairwise_cons.1 apart).2
        (fun q hq r hr => by
          rcases List.mem_append.1 hr with hr | hr
          · exact new q (List.mem_cons_of_mem _ hq) r hr
          · rw [List.mem_singleton.1 hr]
            exact (List.pairwise_cons.1 apart).1 q hq)
      rw [List.map_cons, Guide.readsFor]
      have split : ∀ X : List Place, ps ++ p :: X = (ps ++ [p]) ++ X := fun X => by simp
      cases use : s.guide.usable p with
      | true =>
        have hu := a.wears.guide.stays sorted hp use
        obtain ⟨evs, state⟩ := readEntries_some (n := n) (l := L.map (·.num)) (readPlace_usable_ev
          (sorted.sublist a.wears.guide.sheds) hu ((a.wears.guide.usable_eq sorted hu).trans use))
        rw [evs, state, split, if_pos rfl]
        obtain ⟨found, sifted⟩ := rest n
        refine ⟨?_, sifted⟩
        rw [found]
        simp [use]
      | false =>
        rw [readEntries_none (readPlace_lost_ev a.wears.guide sorted hp use), split, if_neg (by decide)]
        obtain ⟨found, sifted⟩ := rest (n + 1)
        refine ⟨?_, sifted⟩
        rw [found]
        simp [use]

/-- The read of an empty place gives nothing and does nothing, so such places can be left out. -/
theorem readEntries_filter (keep : Place → Bool) (skip : ∀ p ∈ L, keep p = false → ∀ q ∈ u.guide.places, q.num ≠ p.num)
    (n : Nat) : readEntries n ((L.filter keep).map (·.num)) u = readEntries n (L.map (·.num)) u := by
  induction L generalizing n u with
  | nil => rfl
  | cons p L ih =>
    have rest : ∀ p ∈ L, keep p = false → ∀ q ∈ u.guide.places, q.num ≠ p.num :=
      fun q hq => skip q (List.mem_cons_of_mem _ hq)
    have later : ∀ m, ∀ p ∈ L, keep p = false → ∀ q ∈ (readPlace m u).2.guide.places, q.num ≠ p.num :=
      fun m r hr k q hq => rest r hr k q ((readBound_wears _ m u : Wears u (readPlace m u).2).guide.sheds.subset hq)
    cases n with
    | zero => simp [readEntries]
    | succ n =>
      cases k : keep p with
      | false =>
        have absent : readPlace p.num u = (none, u) := readBound_absent (List.find?_eq_none.2 fun q hq => by
          simpa using skip p (by simp) k q hq)
        rw [List.filter_cons_of_neg (by simp [k]), List.map_cons, readEntries_none (by rw [absent]), absent]
        exact ih rest (n + 1)
      | true =>
        rw [List.filter_cons_of_pos k, List.map_cons, List.map_cons]
        cases h : (readPlace p.num u).1 with
        | none =>
          rw [readEntries_none h, readEntries_none h]
          exact ih (later _) (n + 1)
        | some e =>
          obtain ⟨e1, e2⟩ := readEntries_some (n := n) (l := (L.filter keep).map (·.num)) h
          obtain ⟨f1, f2⟩ := readEntries_some (n := n) (l := L.map (·.num)) h
          have same := ih (later p.num) n
          exact Prod.ext (by rw [e1, f1, same]) (by rw [e2, f2, same])

/-! ### The entries of a service in order (R102) -/

theorem insertBy_filter {α : Type} {m : α → Nat} {a : α} (keep : α → Bool) {l : List α}
    (sorted : l.Pairwise fun x y => m x ≤ m y) :
    (insertBy m a l).filter keep = if keep a then insertBy m a (l.filter keep) else l.filter keep := by
  induction l with
  | nil => cases h : keep a <;> simp [insertBy, h]
  | cons b l ih =>
    obtain ⟨least, sorted⟩ := List.pairwise_cons.1 sorted
    rw [insertBy]
    by_cases before : m a < m b
    · rw [if_pos before]
      cases h : keep a with
      | false => simp [h]
      | true =>
        rw [List.filter_cons_of_pos h, if_pos rfl]
        cases first : (b :: l).filter keep with
        | nil => rfl
        | cons c rest =>
          have hc : c ∈ b :: l := (List.mem_filter.1 (first ▸ List.mem_cons_self ..)).1
          have : m a < m c := by
            rcases List.mem_cons.1 hc with rfl | hc
            · exact before
            · exact Nat.lt_of_lt_of_le before (least c hc)
          rw [insertBy, if_pos this]
    · rw [if_neg before, List.filter_cons, ih sorted, List.filter_cons]
      cases h : keep b with
      | false => rfl
      | true =>
        cases keep a with
        | false => rfl
        | true => simp [insertBy, before]

/-- To leave entries out and to put the others in order is all one. -/
theorem sortBy_filter {α : Type} (m : α → Nat) (keep : α → Bool) (l : List α) :
    sortBy m (l.filter keep) = (sortBy m l).filter keep := by
  have all : ∀ (l acc : List α), (acc.Pairwise fun x y => m x ≤ m y) →
      (l.filter keep).foldl (fun acc a => insertBy m a acc) (acc.filter keep)
        = (l.foldl (fun acc a => insertBy m a acc) acc).filter keep := by
    intro l
    induction l with
    | nil => exact fun _ _ => rfl
    | cons a l ih =>
      intro acc sorted
      have step := ih (insertBy m a acc) (pairwise_insertBy m a sorted)
      rw [insertBy_filter keep sorted] at step
      rw [List.foldl_cons, ← step]
      cases h : keep a with
      | false => simp [h]
      | true => simp [h]
  exact all l [] List.Pairwise.nil

end Sys2Proof.Machine
end

