-- ==== Sys2Proof/Proofs/P22.lean ====
section
/-! PROOF of O44: the queries of the guide (R122, R123). -/

namespace Sys2Proof.Machine

open Sys2Proof

variable {sid n : Nat} {s t u : State} {g h : Guide} {p q : Place} {ps L : List Place}

/-! ### The places of a service (R102) -/

theorem perm_insertBy {α : Type} (m : α → Nat) (a : α) (l : List α) : (insertBy m a l).Perm (a :: l) := by
  induction l with
  | nil => exact .refl _
  | cons b l ih =>
    rw [insertBy]
    split
    · exact .refl _
    · exact (ih.cons b).trans (.swap a b l)

theorem perm_sortBy {α : Type} (m : α → Nat) (l : List α) : (sortBy m l).Perm l := by
  have all : ∀ l acc : List α, (l.foldl (fun acc a => insertBy m a acc) acc).Perm (acc ++ l) := by
    intro l
    induction l with
    | nil => exact fun acc => by simp
    | cons a l ih =>
      exact fun acc => (ih _).trans (((perm_insertBy m a acc).append_right l).trans (List.perm_middle.symm))
  exact all l []

theorem mem_ofService : p ∈ g.ofService sid ↔ p ∈ g.places ∧ p.ev.sid = sid := by
  unfold Guide.ofService
  rw [mem_sortBy, List.mem_filter, beq_iff_eq]

/-- Two places of a service have different numbers. -/
theorem ofService_apart (sorted : KeySorted (·.num) g.places) (sid : Nat) :
    (g.ofService sid).Pairwise fun p q => p.num ≠ q.num := by
  have filtered : (g.places.filter fun p => p.ev.sid == sid).Pairwise fun p q => p.num ≠ q.num :=
    (List.Pairwise.filter _ sorted).imp fun lt => Nat.ne_of_lt lt
  exact ((perm_sortBy _ _).pairwise_iff fun ne => Ne.symm ne).2 filtered

/-- The entries that are left of a keyed table. -/
theorem eq_filter_of_sublist {l l' : List Place} (sub : l'.Sublist l) (sorted : KeySorted (·.num) l) :
    l' = l.filter fun p => l'.any fun q => q.num == p.num := by
  induction sub with
  | slnil => rfl
  | @cons l' l a sub ih =>
    obtain ⟨least, sorted⟩ := List.pairwise_cons.1 sorted
    have gone : (l'.any fun q => q.num == a.num) = false := by
      rw [List.any_eq_false]
      exact fun q hq => by
        have lt : a.num < q.num := least q (sub.subset hq)
        simpa using Nat.ne_of_gt lt
    rw [List.filter_cons_of_neg (by rw [gone]; decide)]
    exact ih sorted
  | @cons_cons l' l a sub ih =>
    obtain ⟨least, sorted⟩ := List.pairwise_cons.1 sorted
    rw [List.filter_cons_of_pos (by simp)]
    congr 1
    refine (ih sorted).trans (List.filter_congr fun p hp => ?_)
    have : ¬ a.num = p.num := Nat.ne_of_lt (least p hp)
    simp [this]

/-- The places of a service, of those that reads have left. -/
theorem Guide.Worn.ofService (a : g.Worn h) (sorted : KeySorted (·.num) g.places) (sid : Nat) :
    h.ofService sid = (g.ofService sid).filter fun p => h.places.any fun q => q.num == p.num := by
  have places := eq_filter_of_sublist a.sheds sorted
  unfold Guide.ofService
  rw [← sortBy_filter]
  congr 1
  conv_lhs => rw [places]
  rw [List.filter_filter, List.filter_filter]
  exact List.filter_congr fun p _ => Bool.and_comm ..

/-! ### A query answered (R184) -/

/-- A query that reads some places of a service, its work done. -/
theorem queried_serve (kind tag : Byte) (f : Req) (h : s.ready) (sorted : KeySorted (·.num) s.guide.places)
    (a : Sifted sid s.opened (f s.opened).2 ps) :
    s.queried (s.serve kind tag f) sid ps ∧ s.answered (s.serve kind tag f) kind tag (f s.opened).1.body := by
  have acts : Acts s.opened (settle (f s.opened).2) := a.flow.acts.settle
  have served := served_serve kind tag f h
  have sheds : (settle (f s.opened).2).guide.places.Sublist (f s.opened).2.guide.places :=
    ((Acts.refl (f s.opened).2).settle).sheds
  refine ⟨⟨fun all => ?_, fun few => ?_, ?_, ?_, fun p hp => ?_, fun p hp use => ?_, fun quiet lost k hk => ?_⟩,
    serve_answered kind tag f h (Acts.owned acts).core⟩
  · exact (serve_reads kind tag f h (a.clean all)).2
  · have through := a.effects few
    have rises : (f s.opened).2.auxRises = [] := (congrArg State.auxRises through.rest :).trans h.rises
    rw [settle_none rises] at served
    refine ⟨served.guide.trans through.places, fun i => (served.entry i).trans (through.orphans i), ?_, ?_, ?_, ?_⟩
    · exact (congrArg State.faults served.likewise.symm :).trans through.faults
    · exact (congrArg (fun x : State => { x with guide := s.guide, schedule := s.schedule }) served.noted).trans through.rest
    · rw [served.flags]
      exact through.damage
    · rw [served.flags]
      exact through.counted
  · rw [serve_tables kind tag f h]
    exact (tables_of_calm acts.calm).trans (opened_tables s)
  · rw [served.guide]
    exact acts.sheds
  · rw [served.guide]
    exact fun mem => a.gone p hp (sheds.subset mem)
  · rw [served.guide]
    exact (a.wears.settle).guide.stays sorted hp use
  · have same := settle_noRise (a.flow.acts.noRise quiet)
    rw [same] at served
    rw [served.slot]
    have fresh := a.fresh lost k (by rw [a.attends.slotsOf]; exact hk)
    exact fresh.trans (a.wears.airing a.attends sorted sid)

/-! ### GUIDE_LIST (R122) -/

/-- GUIDE_LIST of a service: the places that end after the time, read in turn. -/
theorem guideList_reports (tag count : Byte) {sid : Half} (fromTime : Word) (h : s.ready) (real : sid ≠ 0) (ok : s.guide.ok) :
    let n := max 1 (min 32 count.toNat)
    let wanted := (s.guide.ofService sid.toNat).filter fun p => fromTime.toNat < p.ev.stop
    let found := (wanted.filter s.guide.usable).take n
    let t := s.serve 0x2A tag (guideListReq sid fromTime count)
    s.queried t sid.toNat (s.guide.readsFor n wanted)
      ∧ s.answered t 0x2A tag (reply .ok (u8 n ++ u8 found.length ++ found.flatMap fun p => p.ev.bytes)) := by
  intro n wanted found t
  have sorted := ok.1
  obtain ⟨evs, sifted⟩ := (Sifted.nil sid.toNat s.opened).entries (L := wanted) sorted h.running
    (fun q hq => mem_ofService.1 (List.mem_filter.1 hq).1) ((ofService_apart sorted _).filter _) (by simp) n
  have req : guideListReq sid fromTime count s.opened
      = (answer .ok (u8 n ++ u8 (readEntries n (wanted.map (·.num)) s.opened).1.length
          ++ (readEntries n (wanted.map (·.num)) s.opened).1.flatMap GuideEvent.bytes),
        (readEntries n (wanted.map (·.num)) s.opened).2) := by
    unfold guideListReq
    rw [if_neg real, clamp_eq (by decide)]
    rfl
  obtain ⟨queried, answered⟩ := queried_serve 0x2A tag (guideListReq sid fromTime count) h sorted
    (ps := s.guide.readsFor n wanted) (by rw [req]; exact sifted)
  refine ⟨queried, ?_⟩
  rw [req, evs, List.length_map, List.flatMap_map] at answered
  exact answered

/-! ### GUIDE_NOW (R123) -/

/-- GUIDE_NOW of a service, the clock known: the entry on air and the first to start after, read in that order. -/
theorem guideNow_reports (tag : Byte) {sid : Half} {now : Nat} (h : s.ready) (real : sid ≠ 0) (ok : s.guide.ok)
    (known : s.now? = some now) :
    let held := s.guide.ofService sid.toNat
    let onAir := held.filter fun p => p.ev.start ≤ now && now < p.ev.stop
    let later := held.filter fun p => now < p.ev.start
    let given (ps : List Place) := opt 24 GuideEvent.bytes ((ps.find? s.guide.usable).map (·.ev))
    let t := s.serve 0x2B tag (guideNowReq sid)
    s.queried t sid.toNat (s.guide.readsFor 1 onAir ++ s.guide.readsFor 1 later)
      ∧ s.answered t 0x2B tag (reply .ok ([1] ++ given onAir ++ given later)) := by
  intro held onAir later given t
  have sorted := ok.1
  have sub : ∀ {f : Place → Bool}, ∀ q ∈ held.filter f, q ∈ s.opened.guide.places ∧ q.ev.sid = sid.toNat :=
    fun q hq => mem_ofService.1 (List.mem_filter.1 hq).1
  obtain ⟨evs, first⟩ := (Sifted.nil sid.toNat s.opened).entries (L := onAir) sorted h.running sub
    ((ofService_apart sorted _).filter _) (by simp) 1
  have new : ∀ q ∈ later, ∀ r ∈ [] ++ s.guide.readsFor 1 onAir, r.num ≠ q.num := by
    intro q hq r hr e
    have hr := readsFor_subset _ _ _ hr
    have same := keySorted_unique sorted (sub r hr).1 (sub q hq).1 e
    subst same
    have before := (List.mem_filter.1 hr).2
    have after := (List.mem_filter.1 hq).2
    simp only [Bool.and_eq_true, decide_eq_true_eq] at before after
    omega
  obtain ⟨evs', second⟩ := first.entries (L := later) sorted h.running sub ((ofService_apart sorted _).filter _) new 1
  set a := readEntries 1 (onAir.map (·.num)) s.opened with ha
  have left : (a.2.guide.ofService sid.toNat).filter (fun p => decide (now < p.ev.start))
      = later.filter fun p => a.2.guide.places.any fun q => q.num == p.num := by
    have worn : s.guide.Worn a.2.guide := first.wears.guide
    rw [worn.ofService sorted, List.filter_filter, List.filter_filter]
    exact List.filter_congr fun p _ => Bool.and_comm ..
  have again : readEntries 1 (((a.2.guide.ofService sid.toNat).filter fun p => decide (now < p.ev.start)).map (·.num)) a.2
      = readEntries 1 (later.map (·.num)) a.2 := by
    rw [left]
    exact readEntries_filter _ (fun p _ gone q hq e => by simpa [e] using List.any_eq_false.1 gone q hq) 1
  have req : guideNowReq sid s.opened = (answer .ok (flag true ++ opt 24 GuideEvent.bytes a.1.head?
        ++ opt 24 GuideEvent.bytes (readEntries 1 (later.map (·.num)) a.2).1.head?),
      (readEntries 1 (later.map (·.num)) a.2).2) := by
    have test : ((s.opened.guide.ofService sid.toNat).filter fun p => p.ev.onAirAt now) = onAir := rfl
    unfold guideNowReq
    have : s.opened.now? = some now := known
    rw [if_neg real, this]
    unfold readFirst
    dsimp only
    rw [test, ← ha, again]
  obtain ⟨queried, answered⟩ := queried_serve 0x2B tag (guideNowReq sid) h sorted
    (ps := s.guide.readsFor 1 onAir ++ s.guide.readsFor 1 later) (by rw [req]; exact second)
  refine ⟨queried, ?_⟩
  rw [req, evs, evs'] at answered
  have one : ∀ L : List Place, (((L.filter s.guide.usable).take 1).map (·.ev)).head? = (L.find? s.guide.usable).map (·.ev) :=
    fun L => by rw [List.head?_map, ← List.head?_filter, List.head?_take]; rfl
  change s.answered _ _ _ (answer .ok (flag true ++ opt 24 GuideEvent.bytes (((onAir.filter s.guide.usable).take 1).map _).head?
    ++ opt 24 GuideEvent.bytes (((later.filter s.guide.usable).take 1).map _).head?)).body at answered
  rw [one, one] at answered
  exact answered

/-- Settles O44: a query reads the places of its service in turn, each with what a read does. -/
theorem guideQueriesReport : Obligations.GuideQueriesReport := by
  intro tag count sid fromTime s h
  refine ⟨fun zero => ⟨⟨_, rfl, ?_⟩, ⟨_, rfl, ?_⟩⟩, fun real unknown => ⟨_, rfl, ?_⟩, fun real ok => ⟨⟨_, rfl, ?_⟩, fun now known => ⟨_, rfl, ?_⟩⟩⟩
  · exact serve_refused 0x2A tag _ .badField h (by unfold guideListReq; rw [if_pos zero])
  · exact serve_refused 0x2B tag _ .badField h (by unfold guideNowReq; rw [if_pos zero])
  · have req : guideNowReq sid s.opened = (answer .ok (flag false ++ opt 24 GuideEvent.bytes none
        ++ opt 24 GuideEvent.bytes none), s.opened) := by
      have : s.opened.now? = none := unknown
      unfold guideNowReq
      rw [if_neg real, this]
    obtain ⟨answered, unmoved⟩ := serve_reads 0x2B tag (guideNowReq sid) h (by rw [req])
    rw [req] at answered
    exact ⟨unmoved, answered⟩
  · exact guideList_reports tag count fromTime h real ok
  · exact guideNow_reports tag h real ok known

end Sys2Proof.Machine
end

