-- ==== Sys2Proof/Proofs/P23.lean ====
section
/-! SUPPORT. What the firing of a schedule entry does to the entry, to its slot, and to nothing else (R162, R163). -/

namespace Sys2Proof.Machine

open Sys2Proof

variable {k : Fin 5} {l : Fin 3} {n i : Fin 24} {sid m : Nat} {v : Service} {o : Origin} {e : Entry} {s t u w : State}

/-! ### An entry that stands otherwise (R161, R170) -/

/-- An entry stands otherwise, its SCHEDULE notice is raised, and that is all. -/
structure Turns (s t : State) (n : Fin 24) (e : Entry) : Prop where
  notice : ∃ b, t = ({ s with schedule := s.schedule.set n e } : State).raise .schedule (some n.val) b

theorem turns_modEntry (c : ScheduleCause) (n : Fin 24) (f : Entry → Entry) (s : State) :
    Turns s ((s.modEntry n f).scheduleNotice c n) n (f (s.entry n)) := ⟨_, rfl⟩

theorem modEntry_modEntry (f g : Entry → Entry) (n : Fin 24) (s : State) :
    (s.modEntry n f).modEntry n g = s.modEntry n fun x => g (f x) := by
  unfold State.modEntry
  simp

theorem turns_twice (c : ScheduleCause) (n : Fin 24) (f g : Entry → Entry) (s : State) :
    Turns s (((s.modEntry n f).modEntry n g).scheduleNotice c n) n (g (f (s.entry n))) := by
  rw [modEntry_modEntry]
  exact turns_modEntry c n _ s

theorem Turns.entry (h : Turns s t n e) : t.entry n = e := by
  obtain ⟨b, rfl⟩ := h.notice
  rw [entry_raise]
  unfold State.entry
  simp

theorem Turns.entry_ne (h : Turns s t n e) (hi : i ≠ n) : t.entry i = s.entry i := by
  obtain ⟨b, rfl⟩ := h.notice
  rw [entry_raise]
  unfold State.entry
  have : (n : Nat) ≠ i := fun e => hi (Fin.ext e.symm)
  simp [this]

theorem Turns.turned (h : Turns s t n e) (running : s.restarting = false) : s.turned t n e := by
  obtain ⟨b, rfl⟩ := h.notice
  obtain ⟨l, e', flagged⟩ := exists_flagged (s := { s with schedule := s.schedule.set n e }) .schedule (some n.val) b running
  rw [e']
  refine ⟨?_, rfl, flagged.flag⟩
  unfold State.noted
  dsimp only
  rw [rest_of_core flagged.core]

/-- An event of the schedule unit that turns an entry. -/
theorem Turns.event {f : State → State} (h : Turns s.clearOut (f s.clearOut) n e) (live : s.live) :
    s.unanswered (s.event f) ∧ s.turned (s.event f) n e := by
  obtain ⟨b, hb⟩ := h.notice
  have noted := event_notes (u := { s with schedule := s.schedule.set n e }) f live hb live.rises rfl live.running
  exact ⟨noted.1, noted.2.1, noted.2.2.1, noted.2.2.2⟩

/-! ### What is kept of a slot's tuning by changes elsewhere -/

theorem tuned_congr (h : s.tuned k v l o) (slot : t.slot k = s.slot k) (lanes : t.lanes = s.lanes) (gate : t.gate = s.gate) :
    t.tuned k v l o := by
  have lane : ∀ l, t.lane l = s.lane l := fun l => by unfold State.lane; rw [lanes]
  exact ⟨slot ▸ h.slot, slot ▸ h.service, slot ▸ h.carrier, slot ▸ h.origin, lane l ▸ h.seeking, lane l ▸ h.onCarrier,
    h.told.congr gate slot lanes⟩

theorem heldOn_congr (h : s.heldOn t k o) (slot : u.slot k = t.slot k) (lanes : u.lanes = t.lanes)
    (router : u.router = t.router) (arb : u.arb = t.arb) (gate : u.gate = t.gate) : s.heldOn u k o :=
  ⟨slot ▸ h.origin, slot ▸ h.kept, lanes.trans h.lanes, router.trans h.router, arb.trans h.queue,
    h.told.congr gate slot lanes⟩

theorem mayTune_congr (h : s.mayTune k v l) (lanes : t.lanes = s.lanes) (arb : t.arb = s.arb)
    (services : t.services = s.services) (carriers : t.carriers = s.carriers)
    (slot : (s.outSlot k → t.slot k = s.slot k)) : t.mayTune k v l := by
  have same := slot h.out
  exact ⟨⟨(servingLane_congr lanes _).trans h.unserved, (idleLane_congr lanes).trans h.idle, arb ▸ h.queue, arb ▸ h.home⟩,
    services ▸ h.service, by unfold State.carrier?; rw [carriers]; exact h.known,
    ⟨same ▸ h.out.1, same ▸ h.out.2.1, arb ▸ h.out.2.2⟩, same ▸ h.other⟩

theorem holdsOn_congr (h : s.holdsOn k v) (services : t.services = s.services) (carriers : t.carriers = s.carriers)
    (slot : t.slot k = s.slot k) : t.holdsOn k v :=
  ⟨services ▸ h.service, by unfold State.carrier?; rw [carriers]; exact h.known, slot ▸ h.held, slot ▸ h.sound⟩

/-! ### A slot taken over (R10) -/

theorem Slot.Moved.withOrigin {x y : Slot} (h : x.Moved y) (o : Origin) :
    ({ x with origin := o } : Slot).Moved { y with origin := o } := by
  rcases h with rfl | h
  · exact .refl _
  · exact .inr ⟨h.found, h.left, by rw [h.kept]⟩

/-- A slot whose origin alone changes, but for what its permit does: it holds on (R10). -/
theorem heldOn_of_moved (slot : ({ s.slot k with origin := o } : Slot).Moved (t.slot k)) (lanes : t.lanes = s.lanes)
    (router : t.router = s.router) (arb : t.arb = s.arb) (told : t.laneTold k) : s.heldOn t k o := by
  refine ⟨slot.origin, ⟨slot.service, slot.carrier, slot.lane, slot.desc, slot.keyTimer, ?_⟩, lanes, router, arb, told⟩
  rw [slot.kept]

theorem gated_takeOverSlot (n : Fin 24) (k : Fin 5) (s : State) :
    Gated (s.modSlot k fun sl => { sl with origin := .schedule n }) (takeOverSlot n k s) := gated_syncSlots ..

/-- A TUNE of the schedule unit for a service that the slot holds (R10). -/
theorem tuneForEntry_held (n : Fin 24) (mode : s.mode = .service ∨ (s.mode = .standby ∧ 3 ≤ k.val)) (holds : s.holdsOn k v) :
    tuneForEntry n k v.sid s = (.ok, takeOverSlot n k s) := by
  have may : s.scheduleMayTune k = true := by
    unfold State.scheduleMayTune
    simpa using mode
  have held : s.holdsService k v.sid = true := by
    unfold State.holdsService
    simp [holds.held, holds.sound]
  have known : (s.carrier? v.carrier).isNone = false := by
    rw [← Option.not_isSome, holds.known]
    rfl
  unfold tuneForEntry
  simp only [may, holds.service, known, held]
  rfl

/-! ### VIEW_TUNE (R162) -/

/-- A view tune of a service that is gone is missed (R9, R162). -/
theorem fireView_gone (mode : s.mode = .service) (gone : s.untunable sid) :
    Turns s (fireView n sid s) n { s.entry n with state := .missed, missed := some .refused, lastTune := some .noSuch } := by
  unfold fireView
  rw [tuneForEntry_gone (k := 0) n (.inl mode) gone]
  exact turns_twice .missed n _ _ s

/-- A view tune on a lane at once: the slot is tuned for the entry, and left to the host (R162). -/
theorem fireView_tunes (mode : s.mode = .service) (may : s.mayTune 0 v l) (running : s.restarting = false) :
    let t := fireView n v.sid s
    t.tuned 0 v l .user ∧ t.link.flags[5] = true ∧ ∃ f, (s.entry n).Orphaned s.guide.places f
      ∧ t.entry n = { f with state := .done, lastTune := some .accepted } := by
  have tunes := acceptTune_tunes may (.schedule n)
  have acts : Acts s (acceptTune v (.schedule n) 0 s) := (Acts.refl s).acceptTune v _ 0
  unfold fireView
  rw [tuneForEntry_accepts (k := 0) n (.inl mode) may]
  generalize acceptTune v (.schedule n) 0 s = a at tunes acts
  dsimp only
  rw [if_pos (by rfl)]
  set b := (a.modEntry n fun e => { e with lastTune := some Status.accepted }).modSlot 0 fun sl => { sl with origin := .user }
    with hb
  have gated := gated_syncSlots [0] b
  have told : (syncSlots [0] b).laneTold 0 := laneTold_syncSlots (List.mem_singleton.2 rfl) _
  obtain ⟨slot, service, carrier, origin, seeking, onCarrier, -⟩ := tunes.tuned
  have bslot : b.slot 0 = { a.slot 0 with origin := .user } := by rw [hb, slot_modSlot_same, slot_modEntry]
  have tuning : (a.slot 0).state = .tuning := congrArg (·.1) slot
  have same : (syncSlots [0] b).slot 0 = b.slot 0 :=
    (gated.slots 0).eq_of_state (st := .tuning) (by rw [bslot]; exact tuning) (by decide) (by decide)
  have ended := turns_modEntry .fired n (fun e : Entry => { e with state := .done }) (syncSlots [0] b)
  have done : (syncSlots [0] b).tuned 0 v l .user := by
    refine ⟨?_, ?_, ?_, ?_, ?_, ?_, told⟩
    · rw [same, bslot]
      exact slot
    · rw [same, bslot]
      exact service
    · rw [same, bslot]
      exact carrier
    · rw [same, bslot]
    · rw [gated.lane]
      exact seeking
    · rw [gated.lane]
      exact onCarrier
  refine ⟨?_, ?_, a.entry n, tunes.entries n, ?_⟩
  · refine tuned_congr done ?_ ?_ ?_
    · exact (slot_raise ..).trans (slot_modEntry ..)
    · exact raise_lanes ..
    · exact raise_gate ..
  · refine (ended.turned ?_).flag
    have r : (syncSlots [0] b).restarting = a.restarting := gated.restarting
    rw [r, acts.restarting, running]
  · refine ended.entry.trans ?_
    rw [gated.entry, hb]
    have : ∀ x : State, (x.modSlot 0 fun sl => { sl with origin := .user }).entry n = x.entry n := fun _ => rfl
    rw [this, entry_modEntry_same]

/-- A view tune of a service that the slot holds (R10, R162). -/
theorem fireView_held (mode : s.mode = .service) (holds : s.holdsOn 0 v) (running : s.restarting = false) :
    let t := fireView n v.sid s
    s.heldOn t 0 .user ∧ t.link.flags[5] = true
      ∧ t.entry n = { s.entry n with state := .done, lastTune := some .ok } := by
  have taken := gated_takeOverSlot n 0 s
  unfold fireView
  rw [tuneForEntry_held (k := 0) n (.inl mode) holds]
  generalize takeOverSlot n 0 s = a at taken
  dsimp only
  rw [if_pos (by rfl)]
  set b := (a.modEntry n fun e => { e with lastTune := some Status.ok }).modSlot 0 fun sl => { sl with origin := .user }
    with hb
  have gated := gated_syncSlots [0] b
  have ended := turns_modEntry .fired n (fun e : Entry => { e with state := .done }) (syncSlots [0] b)
  have moved : ({ s.slot 0 with origin := .user } : Slot).Moved ((syncSlots [0] b).slot 0) := by
    have first := (taken.slots 0).withOrigin .user
    have second := gated.slots 0
    rw [slot_modSlot_same] at first
    rw [hb, slot_modSlot_same, slot_modEntry, ← hb] at second
    exact first.trans second
  refine ⟨heldOn_of_moved ?_ ?_ ?_ ?_ ?_, ?_, ?_⟩
  · have same : (doneEntry n (syncSlots [0] b)).slot 0 = (syncSlots [0] b).slot 0 :=
      (slot_raise ..).trans (slot_modEntry ..)
    rw [same]
    exact moved
  · exact (raise_lanes ..).trans (gated.lanes.trans taken.lanes)
  · exact (raise_router ..).trans (gated.router.trans taken.router)
  · exact (raise_arb ..).trans (gated.arb.trans taken.arb)
  · have told : (syncSlots [0] b).laneTold 0 := laneTold_syncSlots (List.mem_singleton.2 rfl) _
    exact told.congr (raise_gate ..) ((slot_raise ..).trans (slot_modEntry ..)) (raise_lanes ..)
  · refine (ended.turned ?_).flag
    rw [gated.restarting]
    exact taken.restarting.trans running
  · refine ended.entry.trans ?_
    rw [gated.entry, hb]
    have : ∀ x : State, (x.modSlot 0 fun sl => { sl with origin := .user }).entry n = x.entry n := fun _ => rfl
    rw [this, entry_modEntry_same, taken.entry]
    rfl

/-! ### RECORD (R163) -/

/-- An entry once its recording runs (R163). -/
def Entry.runs (e : Entry) (uptime : Nat) : Entry :=
  { e with state := .running, interruptions := 0, retry := none, endTime := e.endAtFiring uptime }

theorem mem_allEntries (i : Fin 24) : i ∈ allEntries := by decide +revert

theorem slotBusy_iff : s.slotBusy n k = true ↔ s.slotRuns n k := by
  unfold State.slotBusy State.slotRuns
  rw [List.any_eq_true]
  constructor
  · rintro ⟨i, -, h⟩
    simp only [Bool.and_eq_true, bne_iff_ne, beq_iff_eq] at h
    obtain ⟨⟨ne, running⟩, rec⟩ := h
    refine ⟨i, ne, running, ?_⟩
    split at rec
    · rename_i j sid m e
      exact ⟨sid, m, by rw [e, beq_iff_eq.1 rec]⟩
    · cases rec
  · rintro ⟨i, ne, running, sid, m, rec⟩
    exact ⟨i, mem_allEntries i, by simp [ne, running, rec]⟩

/-- A recording whose slot another run has is missed (R163). -/
theorem fireRecord_busy (busy : s.slotRuns n k) :
    Turns s (fireRecord n k sid s) n { s.entry n with state := .missed, missed := some .conflict } := by
  unfold fireRecord
  rw [if_pos (slotBusy_iff.2 busy)]
  exact turns_modEntry .missed n _ s

/-- A recording fires, its slot free of other runs: it runs, and what its TUNE answers is noted (R163). -/
theorem fireRecord_eq {r : Status × State} (free : ¬ s.slotRuns n k)
    (h : tuneForEntry n k sid (s.modEntry n fun e => e.runs s.uptimeS) = r) : fireRecord n k sid s
    = (r.2.modEntry n fun e => { e with lastTune := some r.1, retry := retryAfter r.1 s }).scheduleNotice .fired n := by
  unfold fireRecord
  rw [if_neg fun busy => free (slotBusy_iff.1 busy), ← h]
  rfl

/-- A recording of a service that is gone runs without a slot, with 30 s to the retry (R163). -/
theorem fireRecord_gone (mode : s.mode = .service ∨ (s.mode = .standby ∧ 3 ≤ k.val)) (free : ¬ s.slotRuns n k)
    (gone : s.untunable sid) : Turns s (fireRecord n k sid s) n { (s.entry n).runs s.uptimeS with
      retry := some (s.clock.uptimeMs + 30000), lastTune := some .noSuch } := by
  rw [fireRecord_eq free (tuneForEntry_gone (s := s.modEntry n fun e => e.runs s.uptimeS) n mode gone)]
  exact turns_twice .fired n (fun e => e.runs s.uptimeS) _ s

/-- A recording on a lane at once (R163). -/
theorem fireRecord_tunes (mode : s.mode = .service ∨ (s.mode = .standby ∧ 3 ≤ k.val)) (free : ¬ s.slotRuns n k)
    (may : s.mayTune k v l) (running : s.restarting = false) :
    let t := fireRecord n k v.sid s
    t.tuned k v l (.schedule n) ∧ t.link.flags[5] = true ∧ ∃ f, ((s.entry n).runs s.uptimeS).Orphaned s.guide.places f
      ∧ t.entry n = { f with retry := none, lastTune := some .accepted } := by
  have may' : (s.modEntry n fun e => e.runs s.uptimeS).mayTune k v l := mayTune_congr may rfl rfl rfl rfl fun _ => rfl
  have tunes := acceptTune_tunes may' (.schedule n)
  have acts : Acts _ (acceptTune v (.schedule n) k _) := (Acts.refl (s.modEntry n fun e => e.runs s.uptimeS)).acceptTune v _ k
  rw [fireRecord_eq free (tuneForEntry_accepts (s := s.modEntry n fun e => e.runs s.uptimeS) n mode may')]
  generalize acceptTune v (.schedule n) k _ = a at tunes acts
  dsimp only
  have ended := turns_modEntry .fired n (fun e : Entry => { e with
    lastTune := some Status.accepted, retry := retryAfter Status.accepted s }) a
  refine ⟨tuned_congr tunes.tuned ?_ (raise_lanes ..) (raise_gate ..), (ended.turned ?_).flag, a.entry n, ?_, ended.entry⟩
  · exact (slot_raise ..).trans (slot_modEntry ..)
  · exact acts.restarting.trans running
  · have := tunes.entries n
    rw [entry_modEntry_same] at this
    exact this

/-- A recording of a service that its slot holds (R10, R163). -/
theorem fireRecord_held (mode : s.mode = .service ∨ (s.mode = .standby ∧ 3 ≤ k.val)) (free : ¬ s.slotRuns n k)
    (holds : s.holdsOn k v) (running : s.restarting = false) :
    let t := fireRecord n k v.sid s
    s.heldOn t k (.schedule n) ∧ t.link.flags[5] = true
      ∧ t.entry n = { (s.entry n).runs s.uptimeS with lastTune := some .ok } := by
  have holds' : (s.modEntry n fun e => e.runs s.uptimeS).holdsOn k v := holdsOn_congr holds rfl rfl rfl
  have taken := gated_takeOverSlot n k (s.modEntry n fun e => e.runs s.uptimeS)
  have told : (takeOverSlot n k (s.modEntry n fun e => e.runs s.uptimeS)).laneTold k :=
    laneTold_syncSlots (List.mem_singleton.2 rfl) _
  rw [fireRecord_eq free (tuneForEntry_held (s := s.modEntry n fun e => e.runs s.uptimeS) n mode holds')]
  generalize takeOverSlot n k _ = a at taken told
  dsimp only
  have ended := turns_modEntry .fired n (fun e : Entry => { e with
    lastTune := some Status.ok, retry := retryAfter Status.ok s }) a
  have moved := taken.slots k
  rw [slot_modSlot_same, slot_modEntry] at moved
  refine ⟨heldOn_congr (t := a) (heldOn_of_moved moved taken.lanes taken.router taken.arb told) ?_ (raise_lanes ..)
    (raise_router ..) (raise_arb ..) (raise_gate ..), (ended.turned ?_).flag, ?_⟩
  · exact (slot_raise ..).trans (slot_modEntry ..)
  · exact taken.restarting.trans running
  · refine ended.entry.trans ?_
    rw [taken.entry]
    have : ∀ (x : State) f, (x.modSlot k f).entry n = x.entry n := fun _ _ => rfl
    rw [this, entry_modEntry_same]
    rfl

/-! ### WAKE (R162) -/

/-- A WAKE entry that fires in STANDBY takes the part to SERVICE (R162, R172). -/
theorem fireWake_standby (standby : s.mode = .standby) (running : s.restarting = false) :
    let t := fireWake n s
    Turns (changeMode (.wake n) .service s) t n { s.entry n with state := .done } ∧ t.mode = .service
      ∧ t.gate.standby = false ∧ t.link.flags[8] = true ∧ t.link.flags[5] = true := by
  have acts := changeMode_acts (.wake n) .service s
  have mode := changeMode_mode (.wake n) .service s
  obtain ⟨-, down, shifted⟩ := (Wears.refl s).changeMode_service (.wake n) standby
  have flag := modeChange_flag (s := s) (.wake n) .service running
  rw [show modeChange (.wake n) .service s = changeMode (.wake n) .service s from
    if_neg (by rw [standby]; decide)] at flag
  unfold fireWake
  rw [if_pos standby]
  generalize changeMode (.wake n) .service s = a at *
  have ended := turns_modEntry .fired n (fun e : Entry => { e with state := .done }) a
  have e : a.entry n = s.entry n := by
    unfold State.entry
    rw [shifted]
  rw [e] at ended
  have run := acts.restarting.trans running
  refine ⟨ended, ?_, ?_, ?_, (ended.turned run).flag⟩
  · exact (raise_mode ..).trans mode
  · exact (congrArg Gate.standby (raise_gate ..)).trans down
  · obtain ⟨b, hb⟩ := ended.notice
    obtain ⟨l, e', flagged⟩ := exists_flagged (s := { a with schedule := a.schedule.set n { s.entry n with state := .done } })
      .schedule (some n.val) b run
    show (doneEntry n a).link.flags[8] = true
    unfold doneEntry
    rw [hb, e']
    exact flagged.keeps 8 flag

end Sys2Proof.Machine
end

