-- ==== Sys2Proof/Proofs/P24.lean ====
section
/-! SUPPORT. The rises of auxiliary cells, taken entry by entry and round by round (R154, R166). -/

namespace Sys2Proof.Machine

open Sys2Proof

variable {c : Fin 8} {k : Fin 5} {l : Fin 3} {n i : Fin 24} {sid m : Nat} {v : Service} {o : Origin} {e f : Entry}
  {s t u w : State}

/-! ### What a TUNE leaves of the other entries (R164, R165) -/

/-- The entries keep all but what interruptions, retries and damage leave on them. -/
structure Cores (s t : State) : Prop where
  entry : ∀ i, (t.entry i).core = (s.entry i).core

theorem Cores.refl (s : State) : Cores s s := ⟨fun _ => rfl⟩

theorem Cores.trans (a : Cores s t) (b : Cores t u) : Cores s u := ⟨fun i => (b.entry i).trans (a.entry i)⟩

theorem Flow.entryCores {o : Option (Fin 5)} (a : Flow o s t) : Cores s t := ⟨still_entry a.still⟩

theorem cores_of_schedule (a : t.schedule = s.schedule) : Cores s t := ⟨fun i => by unfold State.entry; rw [a]⟩

theorem cores_acceptTune (v : Service) (o : Origin) (k : Fin 5) (s : State) : Cores s (acceptTune v o k s) := by
  obtain ⟨u, w, gated, -, looked, e⟩ := exists_acceptTune v o k s
  have begun : Cores s u := cores_of_schedule (gated.schedule.trans rfl)
  have seen : Cores u w := ⟨fun i => by rw [(looked.entries i).fields]; rfl⟩
  rw [e]
  refine (begun.trans seen).trans (Flow.entryCores (o := none) ?_)
  exact (((Flow.refl none w).releaseLeft (nobody _) _).claim (nobody _) _ (by simp)).homeRedecide (nobody _)

theorem cores_tuneForEntry (n : Fin 24) (k : Fin 5) (sid : Nat) (s : State) : Cores s (tuneForEntry n k sid s).2 := by
  unfold tuneForEntry
  split
  · exact .refl s
  · split
    · exact .refl s
    · split
      · exact .refl s
      · split
        · exact cores_of_schedule ((gated_takeOverSlot n k s).schedule.trans rfl)
        · exact cores_acceptTune ..

/-! ### A firing, whatever comes of it (R162, R163) -/

/-- What every firing of an entry does: the entry is no more ARMED, the others keep their cores, and its SCHEDULE notice is
raised. -/
structure Fires (s t : State) (n : Fin 24) : Prop where
  left : (t.entry n).state ≠ .armed
  others : ∀ i, i ≠ n → (t.entry i).core = (s.entry i).core
  flag : t.link.flags[5] = true

theorem Turns.fires (h : Turns s t n e) (left : e.state ≠ .armed) (running : s.restarting = false) : Fires s t n :=
  ⟨by rw [h.entry]; exact left, fun _ hi => by rw [h.entry_ne hi], (h.turned running).flag⟩

/-- An entry turned after other work. -/
theorem Turns.fires_after (h : Turns w t n e) (left : e.state ≠ .armed) (running : w.restarting = false)
    (others : ∀ i, i ≠ n → (w.entry i).core = (s.entry i).core) : Fires s t n :=
  ⟨by rw [h.entry]; exact left, fun i hi => by rw [h.entry_ne hi]; exact others i hi, (h.turned running).flag⟩

theorem fires_fireView (n : Fin 24) (sid : Nat) (running : s.restarting = false) : Fires s (fireView n sid s) n := by
  have cores := cores_tuneForEntry n 0 sid s
  have acts : Acts s (tuneForEntry n 0 sid s).2 := (Acts.refl s).tuneForEntry n 0 sid
  have run := acts.restarting.trans running
  unfold fireView
  generalize tuneForEntry n 0 sid s = r at cores run
  have others : ∀ (f : Entry → Entry) i, i ≠ n → ((r.2.modEntry n f).entry i).core = (s.entry i).core := fun f i hi => by
    rw [entry_modEntry_ne fun e => hi e.symm]
    exact cores.entry i
  dsimp only
  split
  · have gated := gated_syncSlots [0] ((r.2.modEntry n fun e => { e with lastTune := some r.1 }).modSlot 0 fun sl =>
      { sl with origin := .user })
    refine (turns_modEntry .fired n (fun e : Entry => { e with state := .done }) _).fires_after
      (by decide : EntryState.done ≠ .armed) (gated.restarting.trans run) fun i hi => ?_
    rw [gated.entry]
    exact others (fun e => { e with lastTune := some r.1 }) i hi
  · exact (turns_modEntry .missed n (fun e : Entry => { e with state := .missed, missed := some .refused }) _).fires_after
      (by decide : EntryState.missed ≠ .armed) run (others _)

theorem fires_fireRecord (n : Fin 24) (k : Fin 5) (sid : Nat) (running : s.restarting = false) :
    Fires s (fireRecord n k sid s) n := by
  by_cases free : s.slotRuns n k
  · exact (fireRecord_busy free).fires (by decide : EntryState.missed ≠ .armed) running
  · rw [fireRecord_eq free rfl]
    have cores := cores_tuneForEntry n k sid (s.modEntry n fun e => e.runs s.uptimeS)
    have acts : Acts _ (tuneForEntry n k sid (s.modEntry n fun e => e.runs s.uptimeS)).2 := (Acts.refl _).tuneForEntry n k sid
    generalize tuneForEntry n k sid (s.modEntry n fun e => e.runs s.uptimeS) = r at cores acts
    have runs : (r.2.entry n).state = .running := by
      have := congrArg Entry.state (cores.entry n)
      rw [entry_modEntry_same] at this
      exact this
    refine (turns_modEntry .fired n (fun e : Entry => { e with lastTune := some r.1, retry := retryAfter r.1 s }) r.2).fires_after
      (fun armed => ?_) (acts.restarting.trans running) fun i hi => ?_
    · exact absurd (runs.symm.trans armed) (by decide)
    · rw [cores.entry i, entry_modEntry_ne fun e => hi e.symm]

theorem fires_fire (n : Fin 24) (running : s.restarting = false) : Fires s (fire n s) n := by
  have done : ∀ w, w.restarting = false → (∀ i, i ≠ n → (w.entry i).core = (s.entry i).core) → Fires s (doneEntry n w) n :=
    fun w run others => (turns_modEntry .fired n (fun e : Entry => { e with state := .done }) w).fires_after
      (by decide : EntryState.done ≠ .armed) run others
  unfold fire
  split
  · exact fires_fireRecord n _ _ running
  · exact fires_fireView n _ running
  · exact done s running fun _ _ => rfl
  · unfold fireWake
    split
    · rename_i standby
      have acts := changeMode_acts (.wake n) .service s
      obtain ⟨-, -, schedule⟩ := (Wears.refl s).changeMode_service (.wake n) standby
      exact done _ (acts.restarting.trans running) fun i _ => (cores_of_schedule schedule).entry i
    · exact done s running fun _ _ => rfl

/-! ### An entry takes a rise (R166) -/

theorem riseEntry_waits (waits : s.waitsRise c n) :
    riseEntry c n s = applyDecision (decideRise s.mode (s.entry n).action) n s := if_pos waits

/-- An entry ARMED on a rise is tied to no event, and no damage makes it an orphan (R165). -/
theorem orphaned_rise {ps : List Place} (h : e.Orphaned ps f) (rise : e.trigger = .auxRise c) : f = e :=
  h.sound fun p _ tied => by
    obtain ⟨lead, tied⟩ := tied
    rw [rise] at tied
    cases tied

theorem runs_rise (waits : s.waitsRise c n) (rec : (s.entry n).action = .record k sid m) :
    (s.entry n).runs s.uptimeS = s.runsFrom (s.entry n) m := by
  unfold Entry.runs State.runsFrom Entry.endAtFiring State.uptimeS
  rw [waits.2, rec]

/-! The firing of an entry by its action (R162, R163). -/

theorem fire_record (rec : (s.entry n).action = .record k sid m) : fire n s = fireRecord n k sid s := by unfold fire; rw [rec]
theorem fire_view (view : (s.entry n).action = .viewTune sid) : fire n s = fireView n sid s := by unfold fire; rw [view]
theorem fire_remind (remind : (s.entry n).action = .remind) : fire n s = doneEntry n s := by unfold fire; rw [remind]
theorem fire_wake (wake : (s.entry n).action = .wake) : fire n s = fireWake n s := by unfold fire; rw [wake]

/-- A reminder acts, and so does a wake out of STANDBY: the entry is DONE, and that is all (R162). -/
theorem fire_acts (acts : (s.entry n).action = .remind ∨ (s.mode ≠ .standby ∧ (s.entry n).action = .wake)) :
    Turns s (fire n s) n { s.entry n with state := .done } := by
  rcases acts with remind | ⟨awake, wake⟩
  · rw [fire_remind remind]
    exact turns_modEntry .fired n _ s
  · rw [fire_wake wake]
    unfold fireWake
    rw [if_neg awake]
    exact turns_modEntry .fired n _ s

theorem decideRise_cases (md : Mode) (a : Action) : decideRise md a = .fire ∨ decideRise md a = .miss .mode := by
  unfold decideRise
  split
  · split <;> simp
  · simp
  · split <;> simp
  · split <;> simp

/-- An entry takes the rise that it awaits (R166). -/
theorem riseEntry_takes (waits : s.waitsRise c n) (running : s.restarting = false) : s.takesRise (riseEntry c n s) n := by
  have acts : Acts s (riseEntry c n s) := (Acts.refl s).riseEntry c n
  have eq := riseEntry_waits waits
  have fired : (decideRise s.mode (s.entry n).action = .fire) → riseEntry c n s = fire n s := fun h => by rw [eq, h]; rfl
  have missed : (decideRise s.mode (s.entry n).action = .miss .mode) → riseEntry c n s = missEntry .mode n s := fun h => by
    rw [eq, h]; rfl
  have fires : Fires s (riseEntry c n s) n := by
    rcases decideRise_cases s.mode (s.entry n).action with h | h
    · rw [fired h]
      exact fires_fire n running
    · rw [missed h]
      exact (turns_modEntry .missed n (fun e : Entry => { e with state := .missed, missed := some .mode }) s).fires
        (by decide : EntryState.missed ≠ .armed) running
  have record : ∀ {k sid m}, s.mode = .service ∨ s.mode = .standby → (s.entry n).action = .record k sid m →
      riseEntry c n s = fireRecord n k sid s := fun mode rec => by
    rw [fired (by unfold decideRise; rw [rec]; rcases mode with e | e <;> rw [e] <;> rfl), fire_record rec]
  have view : ∀ {sid}, s.mode = .service → (s.entry n).action = .viewTune sid → riseEntry c n s = fireView n sid s :=
    fun mode view => by rw [fired (by unfold decideRise; rw [view, mode]; rfl), fire_view view]
  have either : ∀ {k : Fin 5}, s.mode = .service ∨ (s.mode = .standby ∧ 3 ≤ k.val) → s.mode = .service ∨ s.mode = .standby :=
    Or.imp_right And.left
  refine ⟨fires.left, fires.others, tables_of_calm acts.calm, fires.flag, fun forbidden => ?_, fun reminds => ?_,
    fun standby wake => ?_, fun sid mode act gone => ?_, fun v l mode act may => ?_, fun v mode act holds => ?_,
    fun k sid m mode rec busy => ?_, fun k v m mode rec free => ⟨fun gone => ?_, fun l may => ?_, fun holds => ?_⟩⟩
  · rw [missed]
    · exact (turns_modEntry .missed n _ s).turned running
    · unfold decideRise
      rcases forbidden with ⟨config, act⟩ | ⟨off, sid, act⟩
      · rw [config]
        split
        · rfl
        · exact absurd ‹_› act
        · rfl
        · rfl
      · rw [act]
        exact if_neg off
  · refine (?_ : Turns s _ n _).turned running
    rw [fired]
    · exact fire_acts (reminds.imp_right fun h => ⟨by rw [h.1]; decide, h.2⟩)
    · unfold decideRise
      rcases reminds with act | ⟨mode, act⟩
      · rw [act]
      · rw [act, mode]
        rfl
  · rw [fired (by unfold decideRise; rw [wake, standby]; rfl), fire_wake wake]
    obtain ⟨turns, mode, gate, flag, -⟩ := fireWake_standby (n := n) standby running
    exact ⟨turns.entry, mode, gate, flag⟩
  · rw [view mode act]
    exact (fireView_gone mode gone).turned running
  · rw [view mode act]
    obtain ⟨tuned, -, f, orphaned, entry⟩ := fireView_tunes (n := n) mode may running
    rw [orphaned_rise orphaned waits.2] at entry
    exact ⟨tuned, entry⟩
  · rw [view mode act]
    obtain ⟨held, -, entry⟩ := fireView_held (n := n) mode holds running
    exact ⟨held, entry⟩
  · rw [record mode rec]
    exact (fireRecord_busy busy).turned running
  · rw [record (either mode) rec, ← runs_rise waits rec]
    exact (fireRecord_gone mode free gone).turned running
  · rw [record (either mode) rec, ← runs_rise waits rec]
    obtain ⟨tuned, -, f, orphaned, entry⟩ := fireRecord_tunes mode free may running
    rw [orphaned_rise orphaned waits.2] at entry
    exact ⟨tuned, entry⟩
  · rw [record (either mode) rec, ← runs_rise waits rec]
    obtain ⟨held, -, entry⟩ := fireRecord_held mode free holds running
    exact ⟨held, entry⟩

/-! ### The rounds of the rises (log 7) -/

theorem risesThrough_forEach (c : Fin 8) (L : List (Fin 24)) (running : s.restarting = false) :
    State.risesThrough c s L (forEach L (riseEntry c) s) := by
  induction L generalizing s with
  | nil => exact .done s
  | cons n L ih =>
    by_cases waits : s.waitsRise c n
    · have acts : Acts s (riseEntry c n s) := (Acts.refl s).riseEntry c n
      exact .fires waits (riseEntry_takes waits running) (ih (acts.restarting.trans running))
    · have same : riseEntry c n s = s := if_neg waits
      rw [forEach_cons, same]
      exact .passes waits (ih running)

theorem takesRises_forEach (L : List (Fin 8)) (running : s.restarting = false) :
    State.takesRises s L (forEach L (fun c => forEach allEntries (riseEntry c)) s) := by
  induction L generalizing s with
  | nil => exact .done s
  | cons c L ih =>
    have acts : Acts s (forEach allEntries (riseEntry c) s) := (Acts.refl s).forEach fun n _ _ hu => hu.riseEntry c n
    have first := risesThrough_forEach c allEntries running
    have rest := ih (acts.restarting.trans running)
    rw [forEach_cons]
    exact .rise first rest

/-- The entries that are ARMED. -/
def State.armedSet (s : State) : Finset (Fin 24) := Finset.univ.filter fun n => (s.entry n).state = .armed

theorem mem_armedSet : n ∈ s.armedSet ↔ (s.entry n).state = .armed := by simp [State.armedSet]

/-- A round of rises under way: it has fired an ARMED entry, or has done nothing but take rises. -/
structure Rounds (s u : State) : Prop where
  acts : Acts s u
  outcome : u = { s with auxRises := [] } ∨ ∃ n, (s.entry n).state = .armed ∧ (u.entry n).state ≠ .armed

theorem Rounds.riseEntry (a : Rounds s u) (c : Fin 8) (n : Fin 24) (running : s.restarting = false) :
    Rounds s (riseEntry c n u) := by
  have step : Acts u (Machine.riseEntry c n u) := (Acts.refl u).riseEntry c n
  refine ⟨a.acts.trans step, ?_⟩
  by_cases waits : u.waitsRise c n
  · exact .inr ⟨n, a.acts.armed n waits.1, (riseEntry_takes waits (a.acts.restarting.trans running)).left⟩
  · have same : Machine.riseEntry c n u = u := if_neg waits
    rw [same]
    exact a.outcome

theorem rounds_takeRises (running : s.restarting = false) : Rounds s (takeRises s) := by
  unfold takeRises
  refine forEach_keeps (P := Rounds s) (fun c _ u hu => ?_) ⟨(Acts.refl s).auxRises [], .inl rfl⟩
  exact forEach_keeps (P := Rounds s) (fun n _ v hv => hv.riseEntry c n running) hu

/-- A round of rises fires an ARMED entry, or leaves no rise (log 7). -/
theorem takeRises_progress (running : s.restarting = false) :
    (takeRises s).auxRises = [] ∨ (takeRises s).armedSet.card < s.armedSet.card := by
  obtain ⟨acts, same | ⟨n, was, left⟩⟩ := rounds_takeRises running
  · exact .inl (by rw [same])
  · refine .inr (Finset.card_lt_card ⟨fun i hi => mem_armedSet.2 (acts.armed i (mem_armedSet.1 hi)), fun sub => ?_⟩)
    exact left (mem_armedSet.1 (sub (mem_armedSet.2 was)))

/-- The rises are taken until none is left: the bound on the rounds is not met (log 7). -/
theorem settlesTo_settleRises (b : Nat) (running : s.restarting = false) (bound : s.armedSet.card < b) :
    s.settlesTo (settleRises b s) := by
  induction b generalizing s with
  | zero => exact absurd bound (by omega)
  | succ b ih =>
    unfold settleRises
    split
    · rename_i none
      exact .done (by simpa using none)
    · rename_i some
      have acts : Acts s (takeRises s) := (Acts.refl s).takeRises
      have taken : State.takesRises { s with auxRises := [] } s.auxRises (takeRises s) := takesRises_forEach s.auxRises running
      refine .round (by simpa using some) taken ?_
      rcases takeRises_progress running with quiet | fewer
      · have same : settleRises b (takeRises s) = takeRises s := by
          cases b with
          | zero =>
            unfold settleRises
            rw [← quiet]
          | succ b =>
            unfold settleRises
            exact if_pos (by rw [quiet]; rfl)
        rw [same]
        exact .done quiet
      · exact ih (acts.restarting.trans running) (by omega)

theorem settlesTo_settle (running : s.restarting = false) : s.settlesTo (settle s) := by
  refine settlesTo_settleRises 25 running ?_
  have : s.armedSet.card ≤ (Finset.univ : Finset (Fin 24)).card := Finset.card_le_card (Finset.filter_subset _ _)
  rw [Finset.card_univ, Fintype.card_fin] at this
  omega

end Sys2Proof.Machine
end

