-- ==== Sys2Proof/Proofs/P25.lean ====
section
/-! SUPPORT. The rises that a command makes are taken once its effect has run out (log 7): what each of O56's commands
leaves, as what its owner's rule does and the rises after. -/

namespace Sys2Proof.Machine

open Sys2Proof

variable {l : Fin 3} {v : Fin 3} {n : Fin 8} {m : Mode} {pin : Pin} {tag : Byte} {s t u : State}

/-- What a command leaves of the blocks, and of the notices' flags: what its owner's rule does, and then the rises do. -/
def RunsOut (i : Instr) (s u : State) : Prop :=
  ∃ t, exec i s = .next t ∧ (settle u).likewise t ∧ t.link.flags = (settle u).link.flags

theorem runsOut_event {i : Instr} (f : State → State) (live : s.live) (e : exec i s = .next (s.event f)) (h : f s.clearOut = u) :
    RunsOut i s u := by
  subst h
  have served := served_event f live
  exact ⟨_, e, served.likewise, served.flags⟩

theorem runsOut_serve {i : Instr} {kind : Byte} (f : Req) (ready : s.ready) (e : exec i s = .next (s.serve kind tag f))
    (h : (f s.opened).2 = u) : RunsOut i s u := by
  subst h
  have served := served_serve kind tag f ready
  exact ⟨_, e, served.likewise, served.flags⟩

theorem runsOut_lock (live : s.live) (seeking : (s.lane l).state = .seeking) :
    RunsOut (.lock l (s.lane l).order) s (laneLocks l s.clearOut) :=
  runsOut_event _ live rfl (if_pos ⟨seeking, rfl⟩)

theorem runsOut_laneUnlock (live : s.live) (l : Fin 3) : RunsOut (.laneUnlock l) s (laneLost .unlock l s.clearOut) :=
  runsOut_event _ live rfl rfl

theorem runsOut_unlockEnd {r : Unlock} (live : s.live) (held : s.parental.unlocks[v] = some r) (last : r.remaining ≤ 1) :
    RunsOut (.unlockEnd v) s (endUnlock v s.clearOut) := by
  refine runsOut_event _ live rfl (if_pos ?_)
  have : s.clearOut.parental.unlocks[v] = some r := held
  rw [this]
  simpa using last

theorem runsOut_relock {slot : Byte} (ready : s.ready) (hv : slot.toNat = v.val) :
    RunsOut (.relock tag slot) s (endUnlock v s.opened) := by
  refine runsOut_serve _ ready rfl ?_
  unfold relockReq
  rw [toFin?_of_eq hv]

theorem withMaster_passes (f : Req) (m : s.master pin) : withMaster pin f s = f (s.checked true 0 pin) := by
  unfold withMaster
  rw [checked_asked, pinCheck_passes m.free m.right]

theorem runsOut_unlock {slot minutes : Byte} {sid : Nat} (ready : s.ready) (hv : slot.toNat = v.val) (mode : s.mode = .service)
    (busy : (s.slot (viewSlot v)).state ≠ .free) (service : (s.slot (viewSlot v)).service = some sid) (m : s.master pin) :
    RunsOut (.unlock tag slot pin minutes) s
      (setUnlock v sid (max 1 (min 240 minutes.toNat)) (s.opened.checked true 0 pin)) := by
  refine runsOut_serve _ ready rfl ?_
  have mode' : s.opened.mode = .service := mode
  have busy' : (s.opened.slot (viewSlot v)).state ≠ .free := busy
  have service' : (s.opened.slot (viewSlot v)).service = some sid := service
  have m' : s.opened.master pin := ⟨m.digits, m.free, m.right⟩
  unfold unlockReq
  rw [toFin?_of_eq hv, pinDigitsOk_of m.digits]
  dsimp only
  rw [if_neg (not_not_intro mode'), if_neg busy', service']
  dsimp only
  rw [withMaster_passes _ m', clamp_eq (by decide)]

theorem runsOut_modeSet {b : Byte} (ready : s.ready) (hb : modeOf b = some m) (other : s.mode ≠ m) :
    RunsOut (.modeSet tag b) s (modeChange .request m s.opened) := by
  refine runsOut_serve _ ready rfl ?_
  rw [modeSetReq_changes (s := s.opened) hb other.symm]

theorem runsOut_cellEnable {cell : Byte} (ready : s.ready) (hn : cell.toNat = n.val) (hp : pin.ok)
    (off : (s.gate.cells[n]).enabled = false) : RunsOut (.cellEnable tag cell 1 pin) s (enableCell n s.opened) := by
  refine runsOut_serve _ ready rfl ?_
  rw [cellEnable_switchesOn hn hp off, enableCell_opened]

theorem runsOut_cellDisable {cell : Byte} (ready : s.ready) (hn : cell.toNat = n.val) (hp : pin.ok)
    (on : (s.gate.cells[n]).enabled = true) (may : 5 ≤ n.val ∨ s.mode = .config ∨ s.master pin) :
    RunsOut (.cellEnable tag cell 0 pin) s (disableCell n (s.opened.checked (n.val ≤ 4 && s.mode != .config) 0 pin)) := by
  refine runsOut_serve _ ready rfl ?_
  rw [cellEnable_switchesOff hn hp on may, (checked_of_may may).2, disableCell_opened]

end Sys2Proof.Machine
end

