-- ==== Sys2Proof/Proofs/P26.lean ====
section
/-! SUPPORT. A cell switched on, the rise that this makes, and the entry that awaits it (R151, R154, R166). -/

namespace Sys2Proof.Machine

open Sys2Proof

variable {c : Fin 8} {k : Fin 5} {l : Fin 3} {n i : Fin 24} {v : Service} {pin : Pin} {s t u w : State}

/-! ### The cell that a pass marks (R151) -/

theorem passCell_unmarked {p : Pass} {m : Fin 8} (h : m ∉ p.marks) : passCell p m = p := by
  unfold passCell
  exact if_neg fun marked => h (by simpa using marked.1)

theorem passCell_marked {p : Pass} (marked : c ∈ p.marks) (on : (p.gate.cells[c]).enabled = true) :
    (passCell p c).gate.out c = p.gate.eval p.gate.cells[c] := by
  unfold passCell
  dsimp only
  rw [if_pos ⟨by simpa using marked, on⟩]
  split
  · rename_i same
    exact same.symm
  · exact (Gate.out_setOutput ..).trans (if_pos rfl)

/-- A pass in which one cell alone is marked gives that cell the output of its inputs. -/
theorem passCells_marked {ns : List (Fin 8)} {p : Pass} (distinct : ns.Nodup) (mem : c ∈ ns) (marks : p.marks = [c])
    (on : (p.gate.cells[c]).enabled = true) : (ns.foldl passCell p).gate.out c = p.gate.eval p.gate.cells[c] := by
  induction ns with
  | nil => exact absurd mem List.not_mem_nil
  | cons m ns ih =>
    obtain ⟨apart, distinct⟩ := List.nodup_cons.1 distinct
    rw [List.foldl_cons]
    by_cases same : m = c
    · subst same
      rw [(passCells_do distinct (passCell p m)).2.1 m apart]
      exact passCell_marked (by rw [marks]; exact List.mem_singleton_self m) on
    · rw [passCell_unmarked (by rw [marks]; simpa using same)]
      exact ih distinct ((List.mem_cons.1 mem).resolve_left fun e => same e.symm)

theorem gatePass_output {h : Gate} (e : (gatePass [c] s).gate = h) (on : (s.gate.cells[c]).enabled = true) :
    (h.cells[c]).enabled = true ∧ (h.cells[c]).output = s.gate.eval s.gate.cells[c] := by
  obtain ⟨r, f, recounted⟩ := (gatePass_recounts [c] s).cells c
  obtain ⟨drives, -⟩ := s.gate.pass_does [c]
  have out := passCells_marked (ns := cellsDown) (p := { gate := s.gate, marks := [c] }) (by decide) (mem_cellsDown c) rfl on
  have driven : ((s.gate.pass [c]).gate.cells[c]).enabled = true := by
    rw [drives.cells c]
    exact on
  have out : ((s.gate.pass [c]).gate.cells[c]).output = s.gate.eval s.gate.cells[c] := out
  generalize (s.gate.pass [c]).gate = g at *
  rw [← e, recounted]
  exact ⟨driven, out⟩

theorem mem_auxCells : ∀ c : Fin 8, 5 ≤ c.val → c ∈ ([7, 6, 5] : List (Fin 8)) := by decide

/-- What the switching on of a cell answers (R157). -/
theorem switchesOn_answer (e : enableCell c s = u) (off : (s.gate.cells[c]).enabled = false) :
    cellEnableChecked c true pin s
      = (answer .ok (u8 c.val ++ flag (u.gate.cells[c]).enabled ++ flag (u.gate.cells[c]).output), u) := by
  subst e
  unfold cellEnableChecked
  rw [if_neg (by rw [off]; decide), if_neg (by simp)]
  simp only [switchCell, if_true]

/-- A cell that its inputs drive high, its output low, rises when it is switched on, and the rise is told (R151, R154). -/
theorem enableCell_rises {g : Gate} (e : (enableCell c s).gate = g) (aux : 5 ≤ c.val) (running : s.restarting = false)
    (low : (s.gate.cells[c]).output = false)
    (high : (s.gate.modCell c fun x => { x with enabled := true }).eval
      (s.gate.modCell c fun x => { x with enabled := true }).cells[c] = true) :
    (g.cells[c]).enabled = true ∧ (g.cells[c]).output = true ∧ c ∈ (enableCell c s).auxRises := by
  have on : ((s.gate.modCell c fun x => { x with enabled := true }).cells[c]).enabled = true := by
    rw [Gate.modCell_cells, if_pos rfl]
  obtain ⟨enabled, output⟩ := gatePass_output (s := s.modGate (Gate.modCell c fun x => { x with enabled := true })) e on
  have output : (g.cells[c]).output = true := output.trans high
  refine ⟨enabled, output, ?_⟩
  have acts := gateActs_enable c running
  rw [acts.told, e, List.mem_append]
  refine .inr (List.mem_filter.2 ⟨mem_auxCells c aux, ?_⟩)
  rw [low, output]
  rfl

theorem gated_enableCell (c : Fin 8) (s : State) : Gated s (enableCell c s) :=
  (gated_setGate (s.gate.modCell c fun x => { x with enabled := true }) s).trans (gated_pass [c] _)

/-! ### The entries that await a rise (R166) -/

/-- An entry that still waits for a rise waited for it before. -/
theorem Acts.waitsRise (a : Acts s t) (h : t.waitsRise c n) : s.waitsRise c n :=
  ⟨a.armed n h.1, by rw [← (calm_entry a.calm n).1]; exact h.2⟩

theorem acts_riseEntry (c : Fin 8) (n : Fin 24) (s : State) : Acts s (riseEntry c n s) := (Acts.refl s).riseEntry c n

theorem acts_riseEntries (c : Fin 8) (L : List (Fin 24)) (s : State) : Acts s (forEach L (riseEntry c) s) :=
  (Acts.refl s).forEach fun n _ _ hu => hu.riseEntry c n

theorem not_waits_riseEntry (c : Fin 8) (n : Fin 24) (running : s.restarting = false) : ¬ (riseEntry c n s).waitsRise c n := by
  by_cases waits : s.waitsRise c n
  · exact fun h => (riseEntry_takes waits running).left h.1
  · have same : riseEntry c n s = s := if_neg waits
    rwa [same]

/-- Work that acts, a list of it, leaves no entry waiting that one part of it leaves none. -/
theorem not_waits_forEach {α : Type} {L : List α} {f : α → State → State} {a : α} (mem : a ∈ L)
    (acts : ∀ a u, Acts u (f a u)) (done : ∀ u, u.restarting = false → ¬ (f a u).waitsRise c n)
    (running : s.restarting = false) : ¬ (forEach L f s).waitsRise c n := by
  induction L generalizing s with
  | nil => exact absurd mem List.not_mem_nil
  | cons b L ih =>
    rw [forEach_cons]
    rcases List.mem_cons.1 mem with rfl | mem
    · exact fun h => done s running (((Acts.refl _).forEach fun x _ u hu => hu.trans (acts x u)).waitsRise h)
    · exact ih mem ((acts b s).restarting.trans running)

/-- A rise told is taken by every entry that awaits it. -/
theorem not_waits_takeRises (told : c ∈ s.auxRises) (running : s.restarting = false) : ¬ (takeRises s).waitsRise c n := by
  unfold takeRises
  refine not_waits_forEach (s := { s with auxRises := [] }) told (fun c u => acts_riseEntries c allEntries u) (fun u run => ?_)
    running
  exact not_waits_forEach (mem_allEntries n) (acts_riseEntry c) (fun w r => not_waits_riseEntry c n r) run

theorem settle_takes (told : c ∈ s.auxRises) : settle s = settleRises 24 (takeRises s) := by
  have : s.auxRises.isEmpty = false := by
    cases h : s.auxRises with
    | nil => rw [h] at told; exact absurd told List.not_mem_nil
    | cons => rfl
  show settleRises (24 + 1) s = _
  rw [settleRises, if_neg (by simp [this])]

theorem not_waits_settle (told : c ∈ s.auxRises) (running : s.restarting = false) : ¬ (settle s).waitsRise c n := by
  rw [settle_takes told]
  exact fun h => not_waits_takeRises told running (((Acts.refl _).settleRises 24).waitsRise h)

/-! One entry alone awaits a rise. -/

theorem riseEntries_passes (L : List (Fin 24)) (none : ∀ i, ¬ s.waitsRise c i) : forEach L (riseEntry c) s = s := by
  refine forEach_keeps (P := fun u => u = s) (fun i _ u hu => ?_) rfl
  subst hu
  exact if_neg (none i)

theorem riseEntry_apart (a : Acts s t) (sole : ∀ i d, s.waitsRise d i → i = n) (hi : i ≠ n) (c : Fin 8) :
    riseEntry c i t = t := if_neg fun h => hi (sole i c (a.waitsRise h))

/-- Of the entries that a rise reaches in turn, the only one that awaits any fires. -/
theorem riseEntries_fires (waits : s.waitsRise c n) (sole : ∀ i d, s.waitsRise d i → i = n) (running : s.restarting = false)
    {L : List (Fin 24)} (mem : n ∈ L) : forEach L (riseEntry c) s = riseEntry c n s := by
  have quiet : (riseEntry c n s).noRise := fun i d armed trigger => by
    have before := (acts_riseEntry c n s).waitsRise ⟨armed, trigger⟩
    obtain rfl := sole i d before
    exact (riseEntry_takes waits running).left armed
  induction L with
  | nil => exact absurd mem List.not_mem_nil
  | cons i L ih =>
    rw [forEach_cons]
    by_cases same : i = n
    · subst same
      exact riseEntries_passes L fun j h => quiet j c h.1 h.2
    · rw [riseEntry_apart (Acts.refl s) sole same]
      exact ih ((List.mem_cons.1 mem).resolve_left fun e => same e.symm)

theorem rises_fire (waits : s.waitsRise c n) (sole : ∀ i d, s.waitsRise d i → i = n) (running : s.restarting = false)
    {L : List (Fin 8)} (mem : c ∈ L) :
    forEach L (fun d => forEach allEntries (riseEntry d)) s = riseEntry c n s ∧ (riseEntry c n s).noRise := by
  have quiet : (riseEntry c n s).noRise := fun i d armed trigger => by
    have before := (acts_riseEntry c n s).waitsRise ⟨armed, trigger⟩
    obtain rfl := sole i d before
    exact (riseEntry_takes waits running).left armed
  refine ⟨?_, quiet⟩
  induction L with
  | nil => exact absurd mem List.not_mem_nil
  | cons d L ih =>
    rw [forEach_cons]
    by_cases same : d = c
    · subst same
      rw [riseEntries_fires waits sole running (mem_allEntries n)]
      refine forEach_keeps (P := fun u => u = riseEntry d n s) (fun e _ u hu => ?_) rfl
      subst hu
      exact riseEntries_passes allEntries fun j h => quiet j e h.1 h.2
    · have none : ∀ i, ¬ s.waitsRise d i := fun i h => by
        obtain rfl := sole i d h
        have := h.2.symm.trans waits.2
        exact same (by injection this)
      rw [riseEntries_passes allEntries none]
      exact ih ((List.mem_cons.1 mem).resolve_left fun e => same e.symm)

/-- A rise told, which one entry alone awaits: that entry fires, and no other does. -/
theorem settle_fires (told : c ∈ s.auxRises) (waits : s.waitsRise c n) (sole : ∀ i d, s.waitsRise d i → i = n)
    (running : s.restarting = false) :
    settle s = { riseEntry c n { s with auxRises := [] } with auxRises := [] } := by
  obtain ⟨eq, quiet⟩ := rises_fire (s := { s with auxRises := [] }) waits sole running told
  have taken : takeRises s = riseEntry c n { s with auxRises := [] } := eq
  have once : ∀ b, settleRises (b + 1) (riseEntry c n { s with auxRises := [] })
      = { riseEntry c n { s with auxRises := [] } with auxRises := [] } := fun b => by
    generalize riseEntry c n { s with auxRises := [] } = x at quiet
    rw [settleRises]
    split
    · rename_i none
      have : x.auxRises = [] := by simpa using none
      rw [← this]
    · rw [takeRises_noRise quiet]
      cases b with
      | zero => rfl
      | succ b =>
        rw [settleRises]
        exact if_pos rfl
  rw [settle_takes told, taken]
  exact once 23

/-! ### CELL_ENABLE (R157, R166) -/

theorem Gated.waits (a : Gated s t) : t.waitsRise c n ↔ s.waitsRise c n := by
  unfold State.waitsRise
  rw [a.entry]

theorem Gated.mayTune (a : Gated s t) (h : s.mayTune k v l) : t.mayTune k v l := by
  refine mayTune_congr h a.lanes a.arb a.services a.carriers fun o => (a.slots k).eq_of ?_ ?_
  all_goals rcases o.2.1 with e | e <;> rw [e] <;> decide

theorem Gated.slotRuns (a : Gated s t) : t.slotRuns n k ↔ s.slotRuns n k := by
  unfold State.slotRuns
  simp only [a.entry]

theorem Gated.runsFrom (a : Gated s t) (x : Entry) (m : Nat) : t.runsFrom x m = s.runsFrom x m := by
  unfold State.runsFrom
  rw [a.clock]

/-- CELL_ENABLE of a cell that rises with it: what it answers, and that no entry awaits the rise any more. -/
theorem cellEnable_rise {tag cell : Byte} (ready : s.ready) (hc : cell.toNat = c.val) (aux : 5 ≤ c.val) (hp : pin.ok)
    (off : (s.gate.cells[c]).enabled = false) (low : (s.gate.cells[c]).output = false)
    (high : (s.gate.modCell c fun x => { x with enabled := true }).eval
      (s.gate.modCell c fun x => { x with enabled := true }).cells[c] = true) :
    let t := s.serve 0x35 tag (cellEnableReq cell 1 pin)
    c ∈ (enableCell c s.opened).auxRises ∧ s.answered t 0x35 tag (reply .ok (u8 c.val ++ [1, 1]))
      ∧ Served (settle (enableCell c s.opened)) t := by
  have running : s.opened.restarting = false := ready.running
  have gated := gated_enableCell c s.opened
  have req := (congrFun (cellEnableReq_eq (o := true) hc (by decide : flag? 1 = some true) hp) s.opened).trans
    (switchesOn_answer rfl off)
  obtain ⟨on, output, told⟩ := enableCell_rises (s := s.opened) rfl aux running low high
  generalize enableCell c s.opened = u at *
  rw [on, output] at req
  have core : (settle u).link.core = s.opened.link.core :=
    (settle_owned _).core.trans gated.core
  have answered := serve_answered 0x35 tag (cellEnableReq cell 1 pin) ready (by rw [req]; exact core)
  have served := served_serve 0x35 tag (cellEnableReq cell 1 pin) ready
  rw [req] at answered served
  exact ⟨told, answered, served⟩

end Sys2Proof.Machine
end

