-- ==== Sys2Proof/Proofs/P27.lean ====
section
/-! SUPPORT. CELL_ENABLE of a cell whose rise an entry awaits: what the entry does, by its action and the mode (R166). -/

namespace Sys2Proof.Machine

open Sys2Proof

variable {c : Fin 8} {k : Fin 5} {l : Fin 3} {n i : Fin 24} {v : Service} {pin : Pin} {s t u w x : State}

/-- An entry fires on a rise in a state that gate work alone has led to, and no rise is left after it. -/
structure RiseTaken (s t : State) (n : Fin 24) : Prop where
  taken : ∃ w x, Gated s w ∧ w.takesRise x n ∧ Served { x with auxRises := [] } t

theorem riseTaken_of_served (served : Served (settle u) t) (gated : Gated s u) (told : c ∈ u.auxRises) (waits : s.waitsRise c n)
    (sole : ∀ i d, s.waitsRise d i → i = n) (running : s.restarting = false) : RiseTaken s t n := by
  have waits' : u.waitsRise c n := gated.waits.2 waits
  have running' : u.restarting = false := gated.restarting.trans running
  have cleared : Gated u { u with auxRises := [] } := ⟨fun _ => .refl _, rfl, rfl, fun _ => id⟩
  rw [settle_fires told waits' (fun i d h => sole i d (gated.waits.1 h)) running'] at served
  exact ⟨_, _, gated.trans cleared, riseEntry_takes waits' running', served⟩

theorem State.turned.entry {e : Entry} (h : s.turned t n e) : t.entry n = e := by
  have : t.schedule = s.schedule.set n e := (congrArg State.schedule h.noted :)
  unfold State.entry
  rw [this]
  simp

theorem State.turned.mode {e : Entry} (h : s.turned t n e) : t.mode = s.mode := (congrArg State.mode h.noted :)

/-- What an entry that takes a rise comes to (R162, R163, R166). -/
theorem RiseTaken.flag (h : RiseTaken s t n) : t.link.flags[5] = true := by
  obtain ⟨w, x, -, takes, served⟩ := h.taken
  rw [served.flags]
  exact takes.flag

theorem RiseTaken.remind (h : RiseTaken s t n) (act : (s.entry n).action = .remind) :
    t.entry n = { s.entry n with state := .done } := by
  obtain ⟨w, x, gated, takes, served⟩ := h.taken
  rw [← gated.entry] at act ⊢
  exact (served.entry n).trans (takes.reminds (.inl act)).entry

/-- A mode that the entry's action cannot act in: it is missed. -/
theorem RiseTaken.forbidden (h : RiseTaken s t n) (bad : (s.mode = .config ∧ (s.entry n).action ≠ .remind)
      ∨ (s.mode ≠ .service ∧ ∃ sid, (s.entry n).action = .viewTune sid)) :
    t.entry n = { s.entry n with state := .missed, missed := some .mode } := by
  obtain ⟨w, x, gated, takes, served⟩ := h.taken
  rw [← gated.entry, ← gated.mode] at bad
  rw [← gated.entry]
  exact (served.entry n).trans (takes.forbidden bad).entry

theorem RiseTaken.wake (h : RiseTaken s t n) (act : (s.entry n).action = .wake) (awake : s.mode ≠ .config) (booted : s.mode ≠ .boot) :
    t.entry n = { s.entry n with state := .done } ∧ t.mode = .service := by
  obtain ⟨w, x, gated, takes, served⟩ := h.taken
  rw [← gated.entry] at act ⊢
  rw [← gated.mode] at awake booted
  cases mode : w.mode with
  | boot => exact absurd mode booted
  | config => exact absurd mode awake
  | service =>
    have turned := takes.reminds (.inr ⟨mode, act⟩)
    exact ⟨(served.entry n).trans turned.entry, served.mode.trans (turned.mode.trans mode)⟩
  | standby =>
    obtain ⟨entry, mode, -⟩ := takes.wakes mode act
    exact ⟨(served.entry n).trans entry, served.mode.trans mode⟩

theorem RiseTaken.view (h : RiseTaken s t n) (act : (s.entry n).action = .viewTune v.sid) (mode : s.mode = .service)
    (may : s.mayTune 0 v l) :
    t.tuned 0 v l .user ∧ t.entry n = { s.entry n with state := .done, lastTune := some .accepted } := by
  obtain ⟨w, x, gated, takes, served⟩ := h.taken
  rw [← gated.entry] at act ⊢
  obtain ⟨tuned, entry⟩ := takes.viewTunes v l (gated.mode.trans mode) act (gated.mayTune may)
  exact ⟨tuned_congr tuned (served.slot 0) served.lanes served.gate, (served.entry n).trans entry⟩

theorem RiseTaken.record {m : Nat} (h : RiseTaken s t n) (act : (s.entry n).action = .record k v.sid m)
    (mode : s.mode = .service ∨ (s.mode = .standby ∧ 3 ≤ k.val)) (free : ¬ s.slotRuns n k) (may : s.mayTune k v l) :
    t.tuned k v l (.schedule n) ∧ t.entry n = { s.runsFrom (s.entry n) m with lastTune := some .accepted } := by
  obtain ⟨w, x, gated, takes, served⟩ := h.taken
  rw [← gated.entry] at act
  obtain ⟨-, tunes, -⟩ := takes.records k v m (by rw [gated.mode]; exact mode) act fun busy => free (gated.slotRuns.1 busy)
  obtain ⟨tuned, entry⟩ := tunes l (gated.mayTune may)
  rw [← gated.entry, ← gated.runsFrom]
  exact ⟨tuned_congr tuned (served.slot k) served.lanes served.gate, (served.entry n).trans entry⟩

/-- No entry that awaited the rise is ARMED when it has been taken. -/
theorem not_armed_of_served (served : Served (settle u) t) (gated : Gated s u) (told : c ∈ u.auxRises)
    (waits : s.waitsRise c i) (running : s.restarting = false) : (t.entry i).state ≠ .armed := by
  rw [served.entry]
  intro armed
  refine not_waits_settle told (gated.restarting.trans running) ⟨armed, ?_⟩
  rw [(calm_entry (Acts.refl u).settle.calm i).1, gated.entry]
  exact waits.2

end Sys2Proof.Machine
end

