-- ==== Sys2Proof/Proofs/P28.lean ====
section
/-! SUPPORT. Two states that differ in what leaves at the ports, in the notices, and in the times of some schedule entries
tied to a guide event alone: what the blocks do to one they do to the other (R165, R184, log 31). -/

namespace Sys2Proof.Machine

open Sys2Proof

variable {k : Fin 5} {l : Fin 3} {n i : Fin 24} {s t u : State}

/-- Of a state, everything but the link port, what leaves at the ports, the rises told and the schedule table is as it
was. -/
def State.dressed (x : State) (lk : Link) (o : List PortOut) (r : List (Fin 8)) (e : Vector Entry 24) : State :=
  { x with link := lk, out := o, auxRises := r, schedule := e }

/-- Which schedule entries the one state has retimed and the other not yet, and by which event (R165); and whether the
rises told are the same in both. -/
structure Delay where
  ev : GuideEvent
  waits : Fin 24 → Bool
  rises : Bool

/-- No entry of the two states differs, and no rise. -/
def Delay.none : Delay :=
  { ev := { sid := 0, eid := 0, version := 0, start := 0, duration := 0, rating := 0, price := Option.none
            purchasable := false, prorate := false, preview := 0, title := 0 }
    waits := fun _ => false, rises := true }

variable {d : Delay} {x y z : State}

/-- A state and its twin: the twin's entries that the delay names have the times of its event, and the link port, what
leaves at the ports and, if the delay has it so, the rises told are its own. Damage does not reach those entries: they are
tied to the delay's event, and the places of its service are clean. -/
structure Twin (d : Delay) (x y : State) : Prop where
  rest : y = x.dressed y.link y.out y.auxRises y.schedule
  entries : ∀ n, y.entry n = if d.waits n then (x.entry n).retime d.ev.start d.ev.stop else x.entry n
  rises : d.rises = true → y.auxRises = x.auxRises
  tied : ∀ n, d.waits n = true → ∃ lead, (x.entry n).trigger = .atEvent d.ev.sid d.ev.eid lead
  intact : (∃ n, d.waits n = true) → x.intact d.ev.sid

/-- What does not look at what two twins differ in is the same of both. -/
theorem Twin.obs {α : Type} (h : Twin d x y) (f : State → α) (blind : ∀ x lk o r e, f (x.dressed lk o r e) = f x) :
    f y = f x := by
  rw [h.rest]
  exact blind ..

theorem Twin.slot (h : Twin d x y) (k : Fin 5) : y.slot k = x.slot k := h.obs (·.slot k) fun _ _ _ _ _ => rfl
theorem Twin.lane (h : Twin d x y) (l : Fin 3) : y.lane l = x.lane l := h.obs (·.lane l) fun _ _ _ _ _ => rfl
theorem Twin.gate (h : Twin d x y) : y.gate = x.gate := h.obs (·.gate) fun _ _ _ _ _ => rfl
theorem Twin.clock (h : Twin d x y) : y.clock = x.clock := h.obs (·.clock) fun _ _ _ _ _ => rfl
theorem Twin.now? (h : Twin d x y) : y.now? = x.now? := h.obs (·.now?) fun _ _ _ _ _ => rfl
theorem Twin.uptimeS (h : Twin d x y) : y.uptimeS = x.uptimeS := h.obs (·.uptimeS) fun _ _ _ _ _ => rfl
theorem Twin.mode (h : Twin d x y) : y.mode = x.mode := h.obs (·.mode) fun _ _ _ _ _ => rfl
theorem Twin.arb (h : Twin d x y) : y.arb = x.arb := h.obs (·.arb) fun _ _ _ _ _ => rfl
theorem Twin.sweep (h : Twin d x y) : y.sweep = x.sweep := h.obs (·.sweep) fun _ _ _ _ _ => rfl
theorem Twin.guide (h : Twin d x y) : y.guide = x.guide := h.obs (·.guide) fun _ _ _ _ _ => rfl
theorem Twin.services (h : Twin d x y) : y.services = x.services := h.obs (·.services) fun _ _ _ _ _ => rfl
theorem Twin.parental (h : Twin d x y) : y.parental = x.parental := h.obs (·.parental) fun _ _ _ _ _ => rfl
theorem Twin.faults (h : Twin d x y) : y.faults = x.faults := h.obs (·.faults) fun _ _ _ _ _ => rfl
theorem Twin.restarting (h : Twin d x y) : y.restarting = x.restarting := h.obs (·.restarting) fun _ _ _ _ _ => rfl

theorem Twin.refl (x : State) : Twin .none x x :=
  ⟨rfl, fun _ => rfl, fun _ => rfl, fun _ h => (Bool.noConfusion h), fun h => h.elim fun _ h => Bool.noConfusion h⟩

/-! ### The single changes -/

/-- A change that looks at nothing the twins differ in, and changes none of it, nor the guide store's places. -/
theorem Twin.map (h : Twin d x y) (f : State → State)
    (blind : ∀ x lk o r e, f (x.dressed lk o r e) = (f x).dressed lk o r e)
    (keeps : ∀ x, (f x).schedule = x.schedule ∧ (f x).auxRises = x.auxRises ∧ (f x).guide.places = x.guide.places) :
    Twin d (f x) (f y) := by
  have entry : ∀ z n, (f z).entry n = z.entry n := fun z n => by
    unfold State.entry
    rw [(keeps z).1]
  refine ⟨?_, fun n => ?_, fun r => ?_, fun n hn => ?_, fun some => ?_⟩
  · have := blind x y.link y.out y.auxRises y.schedule
    rw [← h.rest] at this
    rw [this]
    rfl
  · rw [entry, entry]
    exact h.entries n
  · rw [(keeps x).2.1, (keeps y).2.1]
    exact h.rises r
  · rw [entry]
    exact h.tied n hn
  · unfold State.intact
    rw [(keeps x).2.2]
    exact h.intact some

theorem Twin.modSlot (h : Twin d x y) (k : Fin 5) (f : Slot → Slot) : Twin d (x.modSlot k f) (y.modSlot k f) :=
  h.map (State.modSlot k f) (fun _ _ _ _ _ => rfl) fun _ => ⟨rfl, rfl, rfl⟩

theorem Twin.modLane (h : Twin d x y) (l : Fin 3) (f : Lane → Lane) : Twin d (x.modLane l f) (y.modLane l f) :=
  h.map (State.modLane l f) (fun _ _ _ _ _ => rfl) fun _ => ⟨rfl, rfl, rfl⟩

theorem Twin.modArb (h : Twin d x y) (f : Arbiter → Arbiter) : Twin d (x.modArb f) (y.modArb f) :=
  h.map (State.modArb f) (fun _ _ _ _ _ => rfl) fun _ => ⟨rfl, rfl, rfl⟩

theorem Twin.modSweep (h : Twin d x y) (f : Sweep → Sweep) : Twin d (x.modSweep f) (y.modSweep f) :=
  h.map (State.modSweep f) (fun _ _ _ _ _ => rfl) fun _ => ⟨rfl, rfl, rfl⟩

theorem Twin.modRouter (h : Twin d x y) (f : Router → Router) : Twin d (x.modRouter f) (y.modRouter f) :=
  h.map (State.modRouter f) (fun _ _ _ _ _ => rfl) fun _ => ⟨rfl, rfl, rfl⟩

theorem Twin.modParental (h : Twin d x y) (f : Parental → Parental) : Twin d (x.modParental f) (y.modParental f) :=
  h.map (State.modParental f) (fun _ _ _ _ _ => rfl) fun _ => ⟨rfl, rfl, rfl⟩

theorem Twin.modFaults (h : Twin d x y) (f : Faults → Faults) : Twin d (x.modFaults f) (y.modFaults f) :=
  h.map (State.modFaults f) (fun _ _ _ _ _ => rfl) fun _ => ⟨rfl, rfl, rfl⟩

theorem Twin.modGate (h : Twin d x y) (f : Gate → Gate) : Twin d (x.modGate f) (y.modGate f) :=
  h.map (State.modGate f) (fun _ _ _ _ _ => rfl) fun _ => ⟨rfl, rfl, rfl⟩

theorem Twin.setGate (h : Twin d x y) (g : Gate) : Twin d { x with gate := g } { y with gate := g } :=
  h.map (fun s => { s with gate := g }) (fun _ _ _ _ _ => rfl) fun _ => ⟨rfl, rfl, rfl⟩

theorem Twin.setMode (h : Twin d x y) (m : Mode) : Twin d (x.setMode m) (y.setMode m) :=
  h.map (State.setMode m) (fun _ _ _ _ _ => rfl) fun _ => ⟨rfl, rfl, rfl⟩

/-- The guide store changed: of the places of the delay's event's service no disturbed one comes. -/
theorem Twin.modGuide (h : Twin d x y) (f : Guide → Guide)
    (clean : x.intact d.ev.sid → (x.modGuide f).intact d.ev.sid) : Twin d (x.modGuide f) (y.modGuide f) := by
  refine ⟨?_, h.entries, h.rises, h.tied, fun some => clean (h.intact some)⟩
  show y.modGuide f = (x.modGuide f).dressed y.link y.out y.auxRises y.schedule
  rw [h.rest]
  rfl

/-- Link ports and outputs are each twin's own. -/
theorem Twin.ports {lk lk' : Link} {o o' : List PortOut} (h : Twin d x y) :
    Twin d { x with link := lk, out := o } { y with link := lk', out := o' } := by
  refine ⟨?_, h.entries, h.rises, h.tied, h.intact⟩
  show ({ y with link := lk', out := o' } : State) = _
  rw [h.rest]
  rfl

theorem Twin.emit (h : Twin d x y) (o o' : PortOut) : Twin d (x.emit o) (y.emit o') := h.ports

theorem Twin.modLink (h : Twin d x y) (f g : Link → Link) : Twin d (x.modLink f) (y.modLink g) := h.ports

/-- The notices' contents are each twin's own. -/
theorem Twin.raise (h : Twin d x y) (c : NoticeKind) (sub : Option Nat) (b b' : List Byte) :
    Twin d (x.raise c sub b) (y.raise c sub b') := by
  unfold State.raise
  rw [h.restarting]
  split
  · exact h
  · exact h.modLink ..

theorem Twin.setFault (h : Twin d x y) (name : FaultName) (f : Faults → Faults) :
    Twin d (x.setFault name f) (y.setFault name f) := (h.modFaults f).raise ..

/-- A rise told to both. -/
theorem Twin.tellRise (h : Twin d x y) (c : Fin 8) (v : Bool) : Twin d (tellRise c v x) (tellRise c v y) := by
  unfold Machine.tellRise
  split
  · refine ⟨?_, h.entries, fun r => ?_, h.tied, h.intact⟩
    · show ({ y with auxRises := y.auxRises ++ [c] } : State) = _
      rw [h.rest]
      rfl
    · show y.auxRises ++ [c] = x.auxRises ++ [c]
      rw [h.rises r]
  · exact h

/-- An entry changed in both, whatever its times. -/
theorem Twin.modEntry (h : Twin d x y) (n : Fin 24) (f g : Entry → Entry)
    (trigger : (f (x.entry n)).trigger = (x.entry n).trigger)
    (same : g (y.entry n) = if d.waits n then (f (x.entry n)).retime d.ev.start d.ev.stop else f (x.entry n)) :
    Twin d (x.modEntry n f) (y.modEntry n g) := by
  refine ⟨?_, fun i => ?_, h.rises, fun i hi => ?_, h.intact⟩
  · show ({ y with schedule := y.schedule.set n (g y.schedule[n]) } : State) = _
    rw [h.rest]
    rfl
  · by_cases e : n = i
    · subst e
      rw [entry_modEntry_same, entry_modEntry_same]
      exact same
    · rw [entry_modEntry_ne e, entry_modEntry_ne e]
      exact h.entries i
  · by_cases e : n = i
    · subst e
      rw [entry_modEntry_same, trigger]
      exact h.tied n hi
    · rw [entry_modEntry_ne e]
      exact h.tied i hi

/-- Work done to each element of a list in turn. -/
theorem Twin.forEach {α : Type} {L : List α} {f : α → State → State} (h : Twin d x y)
    (step : ∀ a ∈ L, ∀ u v, Twin d u v → Twin d (f a u) (f a v)) : Twin d (forEach L f x) (forEach L f y) := by
  induction L generalizing x y with
  | nil => exact h
  | cons a L ih => exact ih (step a List.mem_cons_self x y h) fun b hb => step b (List.mem_cons_of_mem a hb)

end Sys2Proof.Machine
end

