-- ==== Sys2Proof/Proofs/P29.lean ====
section
/-! SUPPORT. The gate array, the parental unit, the access unit and the check unit do the same to a state and its twin. -/

namespace Sys2Proof.Machine

open Sys2Proof

variable {k : Fin 5} {l : Fin 3} {n i : Fin 24} {d : Delay} {x y z : State}

theorem Twin.permit (h : Twin d x y) (k : Fin 5) : y.permit k = x.permit k := h.obs (·.permit k) fun _ _ _ _ _ => rfl
theorem Twin.isClear (h : Twin d x y) (k : Fin 5) : y.isClear k = x.isClear k := h.obs (·.isClear k) fun _ _ _ _ _ => rfl
theorem Twin.tagsOf (h : Twin d x y) (k : Fin 5) : y.tagsOf k = x.tagsOf k := h.obs (·.tagsOf k) fun _ _ _ _ _ => rfl
theorem Twin.slotLocked (h : Twin d x y) (k : Fin 5) : y.slotLocked k = x.slotLocked k :=
  h.obs (·.slotLocked k) fun _ _ _ _ _ => rfl
theorem Twin.slotSignalOk (h : Twin d x y) (k : Fin 5) : y.slotSignalOk k = x.slotSignalOk k :=
  h.obs (·.slotSignalOk k) fun _ _ _ _ _ => rfl
theorem Twin.condition (h : Twin d x y) (v : Fin 3) (src : Source) : y.condition v src = x.condition v src :=
  h.obs (·.condition v src) fun _ _ _ _ _ => by cases src <;> rfl
theorem Twin.previewOver (h : Twin d x y) (k : Fin 5) : y.previewOver k = x.previewOver k :=
  h.obs (·.previewOver k) fun _ _ _ _ _ => rfl
theorem Twin.slotsOf (h : Twin d x y) (sid : Nat) : y.slotsOf sid = x.slotsOf sid := h.obs (·.slotsOf sid) fun _ _ _ _ _ => rfl

/-! ### The gate array (R15, R17, R149 to R155) -/

theorem Twin.enterPresenting (h : Twin d x y) (k : Fin 5) : Twin d (enterPresenting k x) (enterPresenting k y) := by
  unfold Machine.enterPresenting
  rw [h.clock]
  exact (h.modSlot k _).raise ..

theorem Twin.enterHeld (h : Twin d x y) (r : Reason) (k : Fin 5) : Twin d (enterHeld r k x) (enterHeld r k y) :=
  (h.modSlot k _).raise ..

theorem Twin.chooseByPermit (h : Twin d x y) (k : Fin 5) : Twin d (chooseByPermit k x) (chooseByPermit k y) := by
  unfold Machine.chooseByPermit
  rw [h.permit]
  split
  · exact h.enterPresenting k
  · exact h.enterHeld .permitOff k

theorem Twin.permitChange (h : Twin d x y) (k : Fin 5) (v : Bool) : Twin d (permitChange k v x) (permitChange k v y) := by
  unfold Machine.permitChange
  rw [h.slot, h.isClear]
  dsimp only
  split
  · exact h.enterHeld .permitOff k
  · split
    · exact h.enterPresenting k
    · exact h

theorem Twin.auxChange (h : Twin d x y) (c : Fin 8) (v : Bool) : Twin d (auxChange c v x) (auxChange c v y) := by
  have told := (h.modGate (Gate.modCell c (GateCell.count v))).tellRise c v
  unfold Machine.auxChange
  dsimp only
  rw [told.gate]
  split
  · exact told.raise ..
  · exact told

theorem Twin.handOverChange (h : Twin d x y) (c : Fin 8 × Bool) : Twin d (handOverChange c x) (handOverChange c y) := by
  unfold Machine.handOverChange
  split
  · exact h.permitChange ..
  · exact h.auxChange ..

theorem Twin.gatePass (h : Twin d x y) (marks : List (Fin 8)) : Twin d (gatePass marks x) (gatePass marks y) := by
  unfold Machine.gatePass
  rw [h.gate]
  exact (h.setGate _).forEach fun c _ _ _ a => a.handOverChange c

theorem Twin.gateReport (h : Twin d x y) (chs : List Change) : Twin d (gateReport chs x) (gateReport chs y) := by
  unfold Machine.gateReport
  rw [h.gate]
  dsimp only
  split
  · exact h
  · exact (h.setGate _).gatePass _

theorem Twin.syncSlots (h : Twin d x y) (ks : List (Fin 5)) : Twin d (syncSlots ks x) (syncSlots ks y) := by
  unfold Machine.syncSlots
  simp only [h.slotLocked, h.slotSignalOk, h.slot]
  exact h.gateReport _

theorem Twin.setEntitledAll (h : Twin d x y) (ks : List (Fin 5)) (e p : Bool) :
    Twin d (setEntitledAll ks e p x) (setEntitledAll ks e p y) := h.gateReport _

theorem Twin.setEntitled (h : Twin d x y) (k : Fin 5) (e p : Bool) : Twin d (setEntitled k e p x) (setEntitled k e p y) :=
  h.setEntitledAll [k] e p

/-! ### The parental unit and the access unit (R85, R131, R138) -/

theorem Twin.reportParental (h : Twin d x y) (vs : List (Fin 3)) :
    Twin d (Machine.gateReport (vs.map fun v => .slot (viewSlot v) .parentalOk (x.gate.src[viewSlot v]).parental) x)
      (Machine.gateReport (vs.map fun v => .slot (viewSlot v) .parentalOk (y.gate.src[viewSlot v]).parental) y) := by
  rw [h.gate]
  exact h.gateReport _

theorem Twin.reportConditions (h : Twin d x y) (told : List (Source × List (Fin 3))) :
    Twin d (reportConditions told x) (reportConditions told y) := by
  unfold Machine.reportConditions
  simp only [h.condition]
  exact (h.forEach fun chs _ _ _ b => b.gateReport chs).reportParental _

theorem Twin.updateRating (h : Twin d x y) (k : Fin 5) : Twin d (updateRating k x) (updateRating k y) := by
  unfold Machine.updateRating
  split
  · exact h.reportConditions _
  · exact h

theorem Twin.endUnlock (h : Twin d x y) (v : Fin 3) : Twin d (endUnlock v x) (endUnlock v y) := by
  unfold Machine.endUnlock
  rw [h.parental]
  cases x.parental.unlocks[v] with
  | none => exact h
  | some => exact (h.modParental _).gateReport _

theorem Twin.endUnlockOf (h : Twin d x y) (k : Fin 5) : Twin d (endUnlockOf k x) (endUnlockOf k y) := by
  unfold Machine.endUnlockOf
  split
  · exact h.endUnlock _
  · exact h

theorem Twin.withdrawKeys (h : Twin d x y) (k : Fin 5) : Twin d (withdrawKeys k x) (withdrawKeys k y) := by
  have dropped := h.modSlot k fun sl => { sl with desc := sl.desc.dropKeys }
  unfold Machine.withdrawKeys
  rw [h.slot]
  dsimp only
  split
  · exact dropped
  · split
    · exact (dropped.modSlot k _).enterHeld .notEntitled k
    · exact dropped

theorem Twin.withdrawFrom (h : Twin d x y) (ks : List (Fin 5)) : Twin d (withdrawFrom ks x) (withdrawFrom ks y) :=
  (h.forEach fun k _ _ _ a => a.withdrawKeys k).setEntitledAll ks false false

theorem Twin.endPreview (h : Twin d x y) (k : Fin 5) : Twin d (endPreview k x) (endPreview k y) := by
  unfold Machine.endPreview
  rw [h.previewOver]
  split
  · exact h.withdrawFrom [k]
  · exact h

/-! ### The check unit (R26, R112 to R115) -/

theorem Twin.setCurrent (h : Twin d x y) (k : Fin 5) (e : Option CurEvent) : Twin d (setCurrent k e x) (setCurrent k e y) := by
  unfold Machine.setCurrent
  rw [h.slot]
  split
  · exact h
  · exact ((h.modSlot k _).updateRating k).endPreview k

/-- What a read gives is the same of both, and so is what it brings about. -/
def TwinRead (d : Delay) (read : Reader) : Prop :=
  ∀ n x y, Twin d x y → (read n y).1 = (read n x).1 ∧ Twin d (read n x).2 (read n y).2

theorem Twin.determineWith {read : Reader} (reads : TwinRead d read) (h : Twin d x y) (k : Fin 5) :
    Twin d (determineWith read k x) (determineWith read k y) := by
  unfold Machine.determineWith
  rw [h.slot, h.now?, h.guide]
  split
  · split
    · rename_i p _
      obtain ⟨same, after⟩ := reads p.num x y h
      generalize read p.num x = a at same after
      generalize read p.num y = b at same after
      obtain ⟨e, a⟩ := a
      obtain ⟨f, b⟩ := b
      cases same
      cases e with
      | none => exact after
      | some e => exact after.setCurrent k _
    · exact h.setCurrent k none
  · exact h.setCurrent k none

theorem Twin.touchedWith {read : Reader} (reads : TwinRead d read) (h : Twin d x y) (sid : Nat) :
    Twin d (touchedWith read sid x) (touchedWith read sid y) := by
  unfold Machine.touchedWith
  rw [h.slotsOf]
  exact h.forEach fun k _ _ _ a => a.determineWith reads k

theorem tiedTo_retime (sid eid start stop : Nat) (e : Entry) :
    (e.retime start stop).tiedTo sid eid = e.tiedTo sid eid := rfl

/-- Orphans are made of entries tied to another service's event, which the delay does not name. -/
theorem Twin.orphanEntries {sid eid : Nat} (h : Twin d x y) (apart : (∃ n, d.waits n = true) → sid ≠ d.ev.sid) :
    Twin d (orphanEntries sid eid x) (orphanEntries sid eid y) := by
  have entry : ∀ (z : State) n, (Machine.orphanEntries sid eid z).entry n
      = if (z.entry n).tiedTo sid eid then { z.entry n with orphan := true } else z.entry n := fun z n => by
    unfold State.entry Machine.orphanEntries
    simp
  refine ⟨?_, fun n => ?_, h.rises, fun n hn => ?_, h.intact⟩
  · show ({ y with schedule := _ } : State) = _
    rw [h.rest]
    rfl
  · rw [entry, entry, h.entries n]
    cases waits : d.waits n with
    | false => rfl
    | true =>
      obtain ⟨lead, tied⟩ := h.tied n waits
      have untied : (x.entry n).tiedTo sid eid = false := by
        unfold Entry.tiedTo
        rw [tied]
        have : (d.ev.sid == sid) = false := beq_eq_false_iff_ne.2 fun e => apart ⟨n, waits⟩ e.symm
        simp [this]
      simp only [if_true, tiedTo_retime, untied, Bool.false_eq_true, if_false]
  · rw [entry]
    split
    · exact h.tied n hn
    · exact h.tied n hn

theorem Twin.reportRemovalWith {read : Reader} {e : GuideEvent} (reads : TwinRead d read) (h : Twin d x y)
    (apart : (∃ n, d.waits n = true) → e.sid ≠ d.ev.sid) :
    Twin d (reportRemovalWith read e x) (reportRemovalWith read e y) := (h.touchedWith reads e.sid).orphanEntries apart

theorem Twin.noteCorrected (h : Twin d x y) (p : Place) : Twin d (noteCorrected p x) (noteCorrected p y) := by
  have counted : Twin d x.countCorrected y.countCorrected := h.setFault ..
  unfold Machine.noteCorrected
  dsimp only
  rw [counted.guide, counted.clock]
  cases x.countCorrected.guide.scrub with
  | none => exact counted.modGuide _ id
  | some => exact counted.setFault ..

theorem intact_remove {s : State} {sid : Nat} {f : Guide → Guide} (sub : (f s.guide).places.Sublist s.guide.places)
    (h : s.intact sid) : (s.modGuide f).intact sid := fun p hp e => h p (sub.subset hp) e

theorem remove_sublist (m : Nat) (g : Guide) : (Guide.remove m g).places.Sublist g.places := by
  unfold Guide.remove keyDrop
  exact List.filter_sublist

theorem Twin.damageWith {read : Reader} {p : Place} (reads : TwinRead d read) (h : Twin d x y)
    (apart : (∃ n, d.waits n = true) → p.ev.sid ≠ d.ev.sid) : Twin d (damageWith read p x) (damageWith read p y) := by
  have removed := h.modGuide (fun g => { Guide.remove p.num g with
    counters := { g.counters with damaged := g.counters.damaged + 1 }
    lastDamaged := some (p.ev.sid, p.ev.eid) }) (intact_remove (remove_sublist p.num x.guide))
  exact ((removed.reportRemovalWith reads apart).setFault ..).raise ..

theorem check_uncorrectable_disturbed {g : Guide} {p : Place} (h : g.check p = .uncorrectable) : p.disturbed ≠ 0 := by
  intro clean
  unfold Guide.check at h
  rw [if_pos clean] at h
  split at h <;> cases h

theorem twinRead_readBound (b : Nat) : TwinRead d (readBound b) := by
  induction b with
  | zero => exact fun _ x y h => ⟨rfl, h⟩
  | succ b ih =>
    intro n x y h
    unfold readBound
    rw [h.guide]
    cases found : keyFind (·.num) n x.guide.places with
    | none => exact ⟨rfl, h⟩
    | some p =>
      dsimp only
      cases check : x.guide.check p with
      | clean => exact ⟨rfl, h⟩
      | corrected => exact ⟨rfl, h.noteCorrected p⟩
      | uncorrectable =>
        refine ⟨rfl, h.damageWith ih fun some e => ?_⟩
        exact check_uncorrectable_disturbed check (h.intact some p (keyFind_some found).1 e)

theorem twinRead_readPlace : TwinRead d readPlace := fun n x y h => by
  unfold readPlace
  rw [h.guide]
  exact twinRead_readBound _ n x y h

theorem Twin.determine (h : Twin d x y) (k : Fin 5) : Twin d (determine k x) (determine k y) :=
  h.determineWith twinRead_readPlace k

theorem Twin.touched (h : Twin d x y) (sid : Nat) : Twin d (touched sid x) (touched sid y) :=
  h.touchedWith twinRead_readPlace sid

end Sys2Proof.Machine
end

