-- ==== Sys2Proof/Proofs/P30.lean ====
section
/-! SUPPORT. The lane controllers, the arbiter, the sweep and the home hold do the same to a state and its twin. -/

namespace Sys2Proof.Machine

open Sys2Proof

variable {k : Fin 5} {l : Fin 3} {n i : Fin 24} {d : Delay} {x y z : State}

theorem Twin.isLocked (h : Twin d x y) (l : Fin 3) : (y.lane l).isLocked = (x.lane l).isLocked := by rw [h.lane]
theorem Twin.slotUsers (h : Twin d x y) (l : Fin 3) : y.slotUsers l = x.slotUsers l := h.obs (·.slotUsers l) fun _ _ _ _ _ => rfl
theorem Twin.userCount (h : Twin d x y) (l : Fin 3) : y.userCount l = x.userCount l := h.obs (·.userCount l) fun _ _ _ _ _ => rfl
theorem Twin.servingLane (h : Twin d x y) (c : Nat) : y.servingLane c = x.servingLane c :=
  h.obs (·.servingLane c) fun _ _ _ _ _ => rfl
theorem Twin.idleLane (h : Twin d x y) : y.idleLane = x.idleLane := h.obs (·.idleLane) fun _ _ _ _ _ => rfl
theorem Twin.victim (h : Twin d x y) (p : Nat) : y.victim p = x.victim p := h.obs (·.victim p) fun _ _ _ _ _ => rfl
theorem Twin.guideCarriers (h : Twin d x y) : y.guideCarriers = x.guideCarriers := h.obs (·.guideCarriers) fun _ _ _ _ _ => rfl
theorem Twin.homeOn (h : Twin d x y) (l : Fin 3) : y.homeOn l = x.homeOn l := h.obs (·.homeOn l) fun _ _ _ _ _ => rfl
theorem Twin.sweepOn (h : Twin d x y) (l : Fin 3) : y.sweepOn l = x.sweepOn l := h.obs (·.sweepOn l) fun _ _ _ _ _ => rfl
theorem Twin.homeCarrier (h : Twin d x y) : y.homeCarrier = x.homeCarrier := h.obs (·.homeCarrier) fun _ _ _ _ _ => rfl
theorem Twin.homeCondition (h : Twin d x y) (own : Option (Fin 3)) : y.homeCondition own = x.homeCondition own :=
  h.obs (·.homeCondition own) fun _ _ _ _ _ => rfl
theorem Twin.homeLane (h : Twin d x y) : y.homeLane = x.homeLane := h.obs (·.homeLane) fun _ _ _ _ _ => rfl
theorem Twin.homeMoved (h : Twin d x y) : y.homeMoved = x.homeMoved := h.obs (·.homeMoved) fun _ _ _ _ _ => rfl

/-! ### Slots and lanes (R13 to R16, R36) -/

theorem Twin.installSlot (h : Twin d x y) (k : Fin 5) : Twin d (installSlot k x) (installSlot k y) := by
  unfold Machine.installSlot
  rw [h.slot, h.tagsOf]
  split
  · exact h
  · exact h.modRouter _

theorem Twin.dropFilters (h : Twin d x y) (k : Fin 5) : Twin d (dropFilters k x) (dropFilters k y) :=
  (h.modRouter _).modSlot k _

theorem Twin.reportLeft (h : Twin d x y) (k : Fin 5) : Twin d (reportLeft k x) (reportLeft k y) :=
  (h.syncSlots [k]).setEntitled k false false

theorem Twin.enterAcquiring (h : Twin d x y) (k : Fin 5) : Twin d (enterAcquiring k x) (enterAcquiring k y) := by
  have installed := (h.modSlot k fun sl => { sl with state := .acquiring }).installSlot k
  unfold Machine.enterAcquiring
  dsimp only
  rw [installed.isClear, installed.clock]
  split
  · exact (installed.setEntitled k true false).chooseByPermit k
  · exact installed.modSlot k _

theorem Twin.joinSlot (h : Twin d x y) (k : Fin 5) (l : Fin 3) : Twin d (joinSlot k l x) (joinSlot k l y) := by
  unfold Machine.joinSlot
  rw [h.lane]
  split
  · exact ((h.modSlot k _).syncSlots [k]).enterAcquiring k
  · exact (h.modSlot k _).syncSlots [k]

/-- An order sent to a lane, and its users told. -/
theorem Twin.emitTo (h : Twin d x y) (l : Fin 3) (o o' : PortOut) : Twin d
    (Machine.syncSlots ((x.emit o).slotUsers l) (x.emit o)) (Machine.syncSlots ((y.emit o').slotUsers l) (y.emit o')) := by
  have sent := h.emit o o'
  rw [sent.slotUsers]
  exact sent.syncSlots _

theorem Twin.startSeek (h : Twin d x y) (l : Fin 3) (c : Nat) : Twin d (startSeek l c x) (startSeek l c y) := by
  have cleared := h.modRouter (Router.removeControl l)
  unfold Machine.startSeek
  dsimp only
  rw [cleared.clock]
  exact (cleared.modLane l _).emitTo l _ _

/-! ### The wait queue and grants (R49, R51) -/

theorem Twin.grantTo (h : Twin d x y) (c : Claimant) (l : Fin 3) : Twin d (grantTo c l x) (grantTo c l y) := by
  have left := h.modArb (Arbiter.dequeue c)
  unfold Machine.grantTo
  cases c with
  | slot k => exact left.joinSlot k l
  | home => exact left.modArb _

theorem Twin.joinWaiters (h : Twin d x y) (test : Waiter → Bool) : Twin d (joinWaiters test x) (joinWaiters test y) := by
  unfold Machine.joinWaiters
  rw [h.arb]
  refine h.forEach fun w _ u v a => ?_
  rw [a.servingLane]
  split
  · split
    · exact a.grantTo _ _
    · exact a
  · exact a

theorem Twin.giveLane (h : Twin d x y) (c : Claimant) (carrier : Nat) (l : Fin 3) :
    Twin d (giveLane c carrier l x) (giveLane c carrier l y) := ((h.startSeek l carrier).grantTo c l).joinWaiters _

/-! ### The sweep's walk (R118) -/

theorem Twin.startDwell (h : Twin d x y) : Twin d x.startDwell y.startDwell := by
  unfold State.startDwell
  rw [h.sweep, h.clock]
  split
  · exact h
  · exact h.modSweep _

theorem Twin.sweepPause (h : Twin d x y) (c : PauseCause) : Twin d (sweepPause c x) (sweepPause c y) :=
  (h.modSweep _).modArb _

theorem Twin.sweepAdvance (h : Twin d x y) : Twin d (sweepAdvance x) (sweepAdvance y) := by
  unfold Machine.sweepAdvance
  rw [h.sweep, h.guideCarriers]
  dsimp only
  split
  · exact h.modSweep _
  · exact (h.modSweep _).raise ..
  · exact (h.modSweep _).sweepPause .noCarrier

theorem Twin.sweepClaim (b : Nat) (h : Twin d x y) : Twin d (sweepClaim b x) (sweepClaim b y) := by
  induction b generalizing x y with
  | zero => exact h
  | succ b ih =>
    unfold Machine.sweepClaim
    rw [h.sweep]
    cases x.sweep.position with
    | none => exact h
    | some c =>
      dsimp only
      rw [h.servingLane]
      cases x.servingLane c with
      | some l =>
        have counted := h.modSweep fun w => { w with servedRun := w.servedRun + 1 }
        dsimp only
        rw [counted.guideCarriers, counted.sweep]
        split
        · exact ((counted.modSweep _).sweepPause .allServed).startDwell
        · exact ih counted.sweepAdvance
      | none =>
        dsimp only
        rw [h.arb, h.idleLane]
        split
        · exact ((h.modSweep _).modArb _).startSeek _ _
        · exact h.sweepPause .noLane

theorem Twin.sweepAsk (h : Twin d x y) : Twin d (sweepAsk x) (sweepAsk y) := by
  unfold Machine.sweepAsk
  rw [h.guideCarriers]
  exact h.sweepClaim _

/-! ### Release and the queue pass (R52) -/

theorem Twin.passGrant (h : Twin d x y) : Twin d (passGrant x) (passGrant y) := by
  unfold Machine.passGrant
  rw [h.arb, h.idleLane]
  split
  · exact h.giveLane _ _ _
  · exact h

theorem Twin.passSweep (h : Twin d x y) : Twin d (passSweep x) (passSweep y) := by
  unfold Machine.passSweep
  rw [h.arb, h.idleLane]
  split
  · exact h.sweepAsk
  · exact h

theorem Twin.passIdle (h : Twin d x y) : Twin d (passIdle x) (passIdle y) := by
  unfold Machine.passIdle
  refine h.forEach fun l _ u v a => ?_
  rw [a.lane]
  split
  · exact a.emit _ _
  · exact a

theorem Twin.queuePass (h : Twin d x y) : Twin d (queuePass x) (queuePass y) :=
  (h.joinWaiters _).passGrant.passGrant.passGrant.passSweep.passIdle

theorem Twin.releaseIfEmpty (h : Twin d x y) (l : Fin 3) : Twin d (releaseIfEmpty l x) (releaseIfEmpty l y) := by
  unfold Machine.releaseIfEmpty
  rw [h.userCount, h.lane]
  split
  · exact ((h.modRouter _).modLane l _).queuePass
  · exact h

theorem Twin.releaseLeft (h : Twin d x y) (l : Option (Fin 3)) : Twin d (releaseLeft l x) (releaseLeft l y) := by
  unfold Machine.releaseLeft
  split
  · exact h.releaseIfEmpty _
  · exact h

/-! ### Preemption and claims (R49, R50, R53) -/

theorem Twin.displaceSlot (h : Twin d x y) (k : Fin 5) : Twin d (displaceSlot k x) (displaceSlot k y) := by
  have left := (h.dropFilters k).modSlot k fun sl => { sl with state := .waitLane, reason := .preempted, lane := none }
  unfold Machine.displaceSlot
  dsimp only
  rw [left.slot]
  exact ((left.modArb _).reportLeft k).raise ..

theorem Twin.displaceHome (h : Twin d x y) (l : Fin 3) : Twin d (displaceHome l x) (displaceHome l y) := by
  unfold Machine.displaceHome
  rw [h.homeOn, h.homeCondition, h.homeCarrier]
  split
  · split
    · exact h.modArb _
    · exact h.modArb _
  · exact h

theorem Twin.displaceSweep (h : Twin d x y) (l : Fin 3) : Twin d (displaceSweep l x) (displaceSweep l y) := by
  unfold Machine.displaceSweep
  rw [h.sweepOn]
  split
  · exact (h.modSweep _).sweepPause .preempted
  · exact h

theorem Twin.displaceAll (h : Twin d x y) (l : Fin 3) : Twin d (displaceAll l x) (displaceAll l y) := by
  unfold Machine.displaceAll
  rw [h.slotUsers]
  exact ((h.forEach fun k _ _ _ a => a.displaceSlot k).displaceHome l).displaceSweep l

theorem Twin.preempt (h : Twin d x y) (c : Claimant) (carrier : Nat) (l : Fin 3) :
    Twin d (preempt c carrier l x) (preempt c carrier l y) := ((h.displaceAll l).modLane l _).giveLane c carrier l

theorem Twin.waitFor (h : Twin d x y) (c : Claimant) (carrier : Nat) : Twin d (waitFor c carrier x) (waitFor c carrier y) := by
  unfold Machine.waitFor
  cases c with
  | slot k => exact h.modArb _
  | home => exact (h.modArb _).modArb _

theorem Twin.claim (h : Twin d x y) (c : Claimant) (carrier : Nat) : Twin d (claim c carrier x) (claim c carrier y) := by
  unfold Machine.claim
  rw [h.servingLane, h.idleLane, h.victim]
  split
  · exact h.grantTo _ _
  · exact h.giveLane _ _ _
  · exact h.preempt _ _ _
  · exact h.waitFor _ _

/-! ### The home hold (R54) -/

theorem Twin.homeClaim (h : Twin d x y) : Twin d (homeClaim x) (homeClaim y) := by
  unfold Machine.homeClaim
  rw [h.homeCarrier]
  split
  · exact h.claim .home _
  · exact h

theorem Twin.homeLeave (h : Twin d x y) : Twin d (homeLeave x) (homeLeave y) := by
  unfold Machine.homeLeave
  rw [h.arb]
  exact (h.modArb _).releaseLeft _

/-- The claim that the home hold makes when its condition holds. -/
theorem Twin.homeClaimIf (h : Twin d x y) : Twin d (if x.homeCondition none then Machine.homeClaim x else x)
    (if y.homeCondition none then Machine.homeClaim y else y) := by
  rw [h.homeCondition]
  split
  · exact h.homeClaim
  · exact h

/-- The home hold's decision where it waits for its carrier or holds it. -/
theorem Twin.homeKeeps (h : Twin d x y) :
    Twin d (if !x.homeCondition x.homeLane then Machine.homeLeave x
        else if x.homeMoved then
          (if (Machine.homeLeave x).homeCondition none then Machine.homeClaim (Machine.homeLeave x) else Machine.homeLeave x)
        else x)
      (if !y.homeCondition y.homeLane then Machine.homeLeave y
        else if y.homeMoved then
          (if (Machine.homeLeave y).homeCondition none then Machine.homeClaim (Machine.homeLeave y) else Machine.homeLeave y)
        else y) := by
  rw [h.homeCondition, h.homeLane, h.homeMoved]
  split
  · exact h.homeLeave
  · split
    · exact h.homeLeave.homeClaimIf
    · exact h

theorem Twin.homeRedecide (h : Twin d x y) : Twin d (homeRedecide x) (homeRedecide y) := by
  unfold Machine.homeRedecide
  rw [h.arb]
  split
  · exact h.homeClaimIf
  · exact h.homeKeeps
  · exact h.homeKeeps
  · rw [h.mode, h.homeCarrier]
    split
    · exact h
    · exact h.modArb _

end Sys2Proof.Machine
end

