-- ==== Sys2Proof/Proofs/P31.lean ====
section
/-! SUPPORT. The switch engine and the schedule unit do the same to a state and its twin (R9, R24, R161 to R166). -/

namespace Sys2Proof.Machine

open Sys2Proof

variable {k : Fin 5} {l : Fin 3} {n i : Fin 24} {d : Delay} {m : Mode} {x y z : State}

theorem Twin.scheduleMayTune (h : Twin d x y) (k : Fin 5) : y.scheduleMayTune k = x.scheduleMayTune k :=
  h.obs (·.scheduleMayTune k) fun _ _ _ _ _ => rfl
theorem Twin.holdsService (h : Twin d x y) (k : Fin 5) (sid : Nat) : y.holdsService k sid = x.holdsService k sid :=
  h.obs (·.holdsService k sid) fun _ _ _ _ _ => rfl
theorem Twin.carrier? (h : Twin d x y) (c : Nat) : y.carrier? c = x.carrier? c := h.obs (·.carrier? c) fun _ _ _ _ _ => rfl
theorem Twin.heldFor (h : Twin d x y) (n : Fin 24) (k : Fin 5) : y.heldFor n k = x.heldFor n k :=
  h.obs (·.heldFor n k) fun _ _ _ _ _ => rfl

/-! ### Operations of the switch engine (R9 to R13, R24) -/

theorem Twin.beginOn (h : Twin d x y) (v : Service) (r : Reason) (f : Slot → Slot) (k : Fin 5) :
    Twin d (beginOn v r f k x) (beginOn v r f k y) := by
  unfold Machine.beginOn
  rw [h.uptimeS]
  exact ((h.modArb _).dropFilters k).modSlot k _

theorem Twin.claimOn (h : Twin d x y) (v : Service) (left : Option (Fin 3)) (k : Fin 5) :
    Twin d (claimOn v left k x) (claimOn v left k y) :=
  (((((h.reportLeft k).determine k).updateRating k).releaseLeft left).claim (.slot k) v.carrier).homeRedecide

theorem Twin.acceptTune (h : Twin d x y) (v : Service) (o : Origin) (k : Fin 5) :
    Twin d (acceptTune v o k x) (acceptTune v o k y) := by
  unfold Machine.acceptTune
  rw [h.slot]
  exact ((h.beginOn v .none _ k).endUnlockOf k).claimOn v _ k

theorem Twin.takeOverSlot (h : Twin d x y) (n : Fin 24) (k : Fin 5) : Twin d (takeOverSlot n k x) (takeOverSlot n k y) :=
  (h.modSlot k _).syncSlots [k]

theorem Twin.tuneForEntry (h : Twin d x y) (n : Fin 24) (k : Fin 5) (sid : Nat) :
    (tuneForEntry n k sid y).1 = (tuneForEntry n k sid x).1 ∧ Twin d (tuneForEntry n k sid x).2 (tuneForEntry n k sid y).2 := by
  unfold Machine.tuneForEntry
  rw [h.scheduleMayTune, h.services]
  split
  · exact ⟨rfl, h⟩
  · cases keyFind (·.sid) sid x.services with
    | none => exact ⟨rfl, h⟩
    | some v =>
      dsimp only
      rw [h.carrier?, h.holdsService]
      split
      · exact ⟨rfl, h⟩
      · split
        · exact ⟨rfl, h.takeOverSlot n k⟩
        · exact ⟨rfl, h.acceptTune v _ k⟩

theorem Twin.freeSlot (h : Twin d x y) (r : Reason) (k : Fin 5) : Twin d (freeSlot r k x) (freeSlot r k y) := by
  unfold Machine.freeSlot
  rw [h.slot]
  exact ((((((h.modArb _).dropFilters k).modSlot k _).endUnlockOf k).reportLeft k).updateRating k).releaseLeft _

theorem Twin.stopSlot (h : Twin d x y) (k : Fin 5) : Twin d (stopSlot k x) (stopSlot k y) :=
  (h.freeSlot .stopped k).homeRedecide

/-- Each twin announces the mode with a notice of its own. -/
theorem Twin.announceMode (h : Twin d x y) (c c' : ModeCause) (m : Mode) :
    Twin d (announceMode c m x) (announceMode c' m y) :=
  (((h.setMode m).raise ..).gateReport _).modArb _

/-- Entry to SERVICE from STANDBY (R25, R172): no slot is freed, and the sweep goes on. -/
theorem changeMode_wakes (c : ModeCause) (standby : x.mode = .standby) :
    changeMode c .service x = homeRedecide (announceMode c .service x) := by
  unfold changeMode
  rw [if_neg (by rw [standby]; decide)]
  rfl

theorem Twin.changeMode_service (h : Twin d x y) (c c' : ModeCause) (standby : x.mode = .standby) :
    Twin d (changeMode c .service x) (changeMode c' .service y) := by
  rw [changeMode_wakes c standby, changeMode_wakes c' (h.mode.trans standby)]
  exact (h.announceMode c c' .service).homeRedecide

/-! ### What entries have in common, whatever their times -/

theorem Twin.state (h : Twin d x y) (n : Fin 24) : (y.entry n).state = (x.entry n).state := by
  rw [h.entries]
  split <;> rfl

theorem Twin.action (h : Twin d x y) (n : Fin 24) : (y.entry n).action = (x.entry n).action := by
  rw [h.entries]
  split <;> rfl

theorem Twin.trigger (h : Twin d x y) (n : Fin 24) : (y.entry n).trigger = (x.entry n).trigger := by
  rw [h.entries]
  split <;> rfl

theorem Twin.entry (h : Twin d x y) (ready : d.waits n = false) : y.entry n = x.entry n := by
  rw [h.entries, ready]
  rfl

theorem Twin.slotBusy (h : Twin d x y) (n : Fin 24) (k : Fin 5) : y.slotBusy n k = x.slotBusy n k := by
  unfold State.slotBusy
  simp only [h.state, h.action]

/-! ### An entry whose times are the same fires (R161 to R163) -/

/-- An entry whose times are the same changes alike. -/
theorem Twin.turnEntry (h : Twin d x y) (ready : d.waits n = false) (f : Entry → Entry)
    (trigger : ∀ e, (f e).trigger = e.trigger) : Twin d (x.modEntry n f) (y.modEntry n f) :=
  h.modEntry n f f (trigger _) (by rw [h.entry ready, ready]; rfl)

/-- An entry whose times are the same changes alike, and its notice is raised. -/
theorem Twin.turn (h : Twin d x y) (ready : d.waits n = false) (c : ScheduleCause) (f : Entry → Entry)
    (trigger : ∀ e, (f e).trigger = e.trigger) :
    Twin d ((x.modEntry n f).scheduleNotice c n) ((y.modEntry n f).scheduleNotice c n) :=
  (h.turnEntry ready f trigger).raise ..

theorem Twin.missEntry (h : Twin d x y) (ready : d.waits n = false) (c : MissCause) :
    Twin d (missEntry c n x) (missEntry c n y) := h.turn ready _ _ (by intro e; rfl)

theorem Twin.doneEntry (h : Twin d x y) (ready : d.waits n = false) : Twin d (doneEntry n x) (doneEntry n y) :=
  h.turn ready _ _ (by intro e; rfl)

theorem Twin.fireRecord (h : Twin d x y) (ready : d.waits n = false) (k : Fin 5) (sid : Nat) :
    Twin d (fireRecord n k sid x) (fireRecord n k sid y) := by
  unfold Machine.fireRecord
  rw [h.slotBusy, h.uptimeS]
  split
  · exact h.missEntry ready .conflict
  · have runs := h.turnEntry ready (fun e => { e with
      state := .running, interruptions := 0, retry := none, endTime := e.endAtFiring x.uptimeS }) fun _ => rfl
    obtain ⟨same, tuned⟩ := runs.tuneForEntry n k sid
    unfold retryAfter
    dsimp only
    rw [same, runs.clock]
    exact tuned.turn ready _ _ fun e => by rfl

theorem Twin.fireView (h : Twin d x y) (ready : d.waits n = false) (sid : Nat) :
    Twin d (fireView n sid x) (fireView n sid y) := by
  obtain ⟨same, tuned⟩ := h.tuneForEntry n 0 sid
  have noted := tuned.turnEntry ready (fun e => { e with lastTune := some (Machine.tuneForEntry n 0 sid x).1 }) fun _ => rfl
  unfold Machine.fireView
  dsimp only
  rw [same]
  split
  · exact ((noted.modSlot 0 _).syncSlots [0]).doneEntry ready
  · exact noted.missEntry ready .refused

theorem Twin.fireWake (h : Twin d x y) (ready : d.waits n = false) : Twin d (fireWake n x) (fireWake n y) := by
  unfold Machine.fireWake
  rw [h.mode]
  split
  · rename_i standby
    exact (h.changeMode_service _ _ standby).doneEntry ready
  · exact h.doneEntry ready

theorem Twin.fire (h : Twin d x y) (ready : d.waits n = false) : Twin d (fire n x) (fire n y) := by
  unfold Machine.fire
  rw [h.action]
  split
  · exact h.fireRecord ready _ _
  · exact h.fireView ready _
  · exact h.doneEntry ready
  · exact h.fireWake ready

theorem Twin.applyDecision (h : Twin d x y) (ready : d.waits n = false) (c : Decision) :
    Twin d (applyDecision c n x) (applyDecision c n y) := by
  cases c with
  | fire => exact h.fire ready
  | miss c => exact h.missEntry ready c
  | stay => exact h

theorem Twin.evaluate (h : Twin d x y) (ready : d.waits n = false) : Twin d (evaluate n x) (evaluate n y) := by
  unfold Machine.evaluate
  rw [h.entry ready, h.now?, h.mode]
  split
  · split
    · exact h.applyDecision ready _
    · exact h
  · exact h

/-! ### Runs that end (R163) -/

theorem Twin.stopRun (h : Twin d x y) (n : Fin 24) : Twin d (stopRun n x) (stopRun n y) := by
  unfold Machine.stopRun
  rw [h.action]
  split
  · rw [h.heldFor]
    split
    · exact h.stopSlot _
    · exact h
  · exact h

theorem Twin.endRun (h : Twin d x y) (ready : d.waits n = false) : Twin d (endRun n x) (endRun n y) :=
  (h.stopRun n).turn ready _ _ (by intro e; rfl)

theorem Twin.runOver (h : Twin d x y) (e : Entry) : y.runOver e = x.runOver e :=
  h.obs (·.runOver e) fun _ _ _ _ _ => rfl

theorem Twin.checkEnd (h : Twin d x y) (ready : d.waits n = false) : Twin d (checkEnd n x) (checkEnd n y) := by
  unfold Machine.checkEnd
  rw [h.entry ready, h.runOver]
  split
  · exact h.endRun ready
  · exact h

/-! ### The rises (R166) -/

theorem Twin.riseEntry (h : Twin d x y) (ready : d.waits n = false) (c : Fin 8) :
    Twin d (riseEntry c n x) (riseEntry c n y) := by
  unfold Machine.riseEntry
  rw [h.entry ready, h.mode]
  split
  · exact h.applyDecision ready _
  · exact h

theorem Twin.dropRises (h : Twin d x y) : Twin d { x with auxRises := [] } { y with auxRises := [] } := by
  refine ⟨?_, h.entries, fun _ => rfl, h.tied, h.intact⟩
  show ({ y with auxRises := [] } : State) = _
  rw [h.rest]
  rfl

theorem Twin.takeRises (h : Twin d x y) (rises : d.rises = true) (ready : ∀ n, d.waits n = false) :
    Twin d (takeRises x) (takeRises y) := by
  unfold Machine.takeRises
  rw [h.rises rises]
  exact h.dropRises.forEach fun c _ u v a => a.forEach fun n _ _ _ b => b.riseEntry (ready n) c

theorem Twin.settleRises (b : Nat) (h : Twin d x y) (rises : d.rises = true) (ready : ∀ n, d.waits n = false) :
    Twin d (settleRises b x) (settleRises b y) := by
  induction b generalizing x y with
  | zero => exact h.dropRises
  | succ b ih =>
    unfold Machine.settleRises
    rw [h.rises rises]
    split
    · exact h
    · exact ih (h.takeRises rises ready)

theorem Twin.settle (h : Twin d x y) (rises : d.rises = true) (ready : ∀ n, d.waits n = false) :
    Twin d (settle x) (settle y) := h.settleRises 25 rises ready

end Sys2Proof.Machine
end

