-- ==== Sys2Proof/Proofs/P32.lean ====
section
/-! SUPPORT. SCHEDULE_TRIGGER: what an entry that is due does, by its action, its lateness and the mode (R161 to R163). -/

namespace Sys2Proof.Machine

open Sys2Proof

variable {k : Fin 5} {l : Fin 3} {n i : Fin 24} {sid m now stop : Nat} {time : Int} {v : Service} {o : Origin} {e : Entry}
  {d : Decision} {c : MissCause} {s t u w : State}

/-! ### The decision (R161) -/

/-- An entry is ARMED, with a trigger time that has come. -/
structure State.due (s : State) (n : Fin 24) (now : Nat) (time : Int) : Prop where
  armed : (s.entry n).state = .armed
  known : s.now? = some now
  trigger : (s.entry n).triggerTime = some time
  come : time ≤ now

/-- The decision on an entry that is due. -/
def State.decision (s : State) (n : Fin 24) (now : Nat) (time : Int) : Decision :=
  decideEntry s.mode (s.entry n).action now time (s.entry n).endTime

theorem evaluate_due (h : s.due n now time) : evaluate n s = applyDecision (s.decision n now time) n s := by
  unfold evaluate
  rw [h.armed, h.trigger, h.known]
  exact if_pos h.come

/-- An entry that is not due is left. -/
theorem evaluate_waits (h : (s.entry n).state ≠ .armed ∨ s.now? = none ∨ (s.entry n).triggerTime = none
    ∨ ∃ (now : Nat) (time : Int), s.now? = some now ∧ (s.entry n).triggerTime = some time ∧ (now : Int) < time) :
    evaluate n s = s := by
  unfold evaluate
  split
  · rename_i t now armed trigger known
    rcases h with h | h | h | ⟨now', t', known', trigger', later⟩
    · exact absurd armed h
    · rw [h] at known; cases known
    · rw [h] at trigger; cases trigger
    · rw [known'] at known
      rw [trigger'] at trigger
      cases known
      cases trigger
      exact if_neg (by omega)
  · rfl

theorem decision_record (rec : (s.entry n).action = .record k sid m) (ends : (s.entry n).endTime = some stop) :
    s.decision n now time = if stop ≤ now then .miss .late
      else if s.mode = .service ∨ s.mode = .standby then .fire else .stay := by
  unfold State.decision decideEntry
  rw [rec, ends]
  simp

theorem decision_remind (remind : (s.entry n).action = .remind) :
    s.decision n now time = if 60 < (now : Int) - time then .miss .late else .fire := by
  unfold State.decision decideEntry
  rw [remind]

theorem decision_view (view : (s.entry n).action = .viewTune sid) :
    s.decision n now time = if 60 < (now : Int) - time then .miss .late
      else if s.mode = .service then .fire else .miss .mode := by
  unfold State.decision decideEntry
  rw [view]

theorem decision_wake (wake : (s.entry n).action = .wake) :
    s.decision n now time = if 60 < (now : Int) - time then .miss .late
      else if s.mode = .service ∨ s.mode = .standby then .fire else .miss .mode := by
  unfold State.decision decideEntry
  rw [wake]

/-! ### What SCHEDULE_TRIGGER then does -/

theorem State.due.clearOut (h : s.due n now time) : s.clearOut.due n now time := ⟨h.armed, h.known, h.trigger, h.come⟩

theorem trigger_eq (h : s.due n now time) (dec : s.decision n now time = d) :
    evaluate n s.clearOut = applyDecision d n s.clearOut := by
  rw [evaluate_due h.clearOut, ← dec]
  rfl

/-- An entry stands otherwise, and that is all that SCHEDULE_TRIGGER does. -/
theorem trigger_turns (live : s.live) (h : s.due n now time) (dec : s.decision n now time = d)
    (turns : Turns s.clearOut (applyDecision d n s.clearOut) n e) :
    ∃ t, (exec (.scheduleTrigger n) s = .next t ∧ s.unanswered t) ∧ s.turned t n e := by
  rw [← trigger_eq h dec] at turns
  obtain ⟨unanswered, turned⟩ := turns.event live
  exact ⟨_, ⟨rfl, unanswered⟩, turned⟩

theorem trigger_misses (live : s.live) (h : s.due n now time) (dec : s.decision n now time = .miss c) :
    ∃ t, (exec (.scheduleTrigger n) s = .next t ∧ s.unanswered t)
      ∧ s.turned t n { s.entry n with state := .missed, missed := some c } :=
  trigger_turns live h dec (turns_modEntry .missed n _ s.clearOut)

/-- A reminder, or a wake in SERVICE. -/
theorem trigger_acts (live : s.live) (h : s.due n now time) (dec : s.decision n now time = .fire)
    (acts : (s.entry n).action = .remind ∨ (s.mode ≠ .standby ∧ (s.entry n).action = .wake)) :
    ∃ t, (exec (.scheduleTrigger n) s = .next t ∧ s.unanswered t) ∧ s.turned t n { s.entry n with state := .done } :=
  trigger_turns live h dec (fire_acts (s := s.clearOut) acts)

/-- What a firing leaves, where no entry awaits a rise. -/
theorem trigger_fires (live : s.live) (quiet : s.noRise) (h : s.due n now time) (dec : s.decision n now time = .fire)
    (eq : fire n s.clearOut = w) :
    ∃ t, (exec (.scheduleTrigger n) s = .next t ∧ s.unanswered t) ∧ Served { w with auxRises := [] } t
      ∧ t.tables = s.tables := by
  have acts : Acts s.clearOut (evaluate n s.clearOut) := (Acts.refl _).evaluate n
  have same : evaluate n s.clearOut = w := (trigger_eq h dec).trans eq
  have served := served_event_quiet (evaluate n) live same (same ▸ acts.noRise quiet)
  exact ⟨_, ⟨rfl, unanswered_of_acts _ live acts⟩, served, event_tables_of_acts _ live acts⟩

/-- An entry fires and has its slot TUNING. -/
theorem trigger_tunes {g : Entry → Entry} (live : s.live) (quiet : s.noRise) (h : s.due n now time)
    (dec : s.decision n now time = .fire) (eq : fire n s.clearOut = w) (tuned : w.tuned k v l o)
    (flag : w.link.flags[5] = true) (entry : ∃ f, e.Orphaned s.guide.places f ∧ w.entry n = g f)
    (fields : ∀ x b, g { x with orphan := b } = { g x with orphan := b }) (trigger : ∀ x, (g x).trigger = x.trigger) :
    ∃ t, (exec (.scheduleTrigger n) s = .next t ∧ s.unanswered t) ∧ t.tuned k v l o
      ∧ s.entryAs t n (g e) ∧ t.link.flags[5] = true ∧ t.tables = s.tables := by
  obtain ⟨t, does, served, tables⟩ := trigger_fires live quiet h dec eq
  obtain ⟨f, orphaned, entry⟩ := entry
  refine ⟨t, does, tuned_congr tuned (served.slot k) served.lanes served.gate, ?_, (congrArg (·[5]) served.flags).trans flag, tables⟩
  exact entryAs_of_orphaned orphaned n ((served.entry n).trans entry) fields trigger

/-- An entry fires and takes its slot over. -/
theorem trigger_holds (live : s.live) (quiet : s.noRise) (h : s.due n now time) (dec : s.decision n now time = .fire)
    (eq : fire n s.clearOut = w) (held : s.heldOn w k o) (flag : w.link.flags[5] = true) (entry : w.entry n = e) :
    ∃ t, (exec (.scheduleTrigger n) s = .next t ∧ s.unanswered t) ∧ s.heldOn t k o
      ∧ t.entry n = e ∧ t.link.flags[5] = true ∧ t.tables = s.tables := by
  obtain ⟨t, does, served, tables⟩ := trigger_fires live quiet h dec eq
  exact ⟨t, does, heldOn_congr held (served.slot k) served.lanes served.router served.arb served.gate,
    (served.entry n).trans entry, (congrArg (·[5]) served.flags).trans flag, tables⟩

theorem mayTune_clearOut (h : s.mayTune k v l) : s.clearOut.mayTune k v l := mayTune_congr h rfl rfl rfl rfl fun _ => rfl

theorem holdsOn_clearOut (h : s.holdsOn k v) : s.clearOut.holdsOn k v := holdsOn_congr h rfl rfl rfl

/-! ### VIEW_TUNE (R162) -/

theorem trigger_view (live : s.live) (h : s.due n now time) (view : (s.entry n).action = .viewTune sid)
    (early : ¬ 60 < (now : Int) - time) (mode : s.mode = .service) :
    (s.untunable sid → ∃ t, (exec (.scheduleTrigger n) s = .next t ∧ s.unanswered t) ∧ s.turned t n
        { s.entry n with state := .missed, missed := some .refused, lastTune := some .noSuch })
    ∧ (∀ v l, v.sid = sid → s.mayTune 0 v l → s.noRise →
      ∃ t, (exec (.scheduleTrigger n) s = .next t ∧ s.unanswered t) ∧ t.tuned 0 v l .user
        ∧ s.entryAs t n { s.entry n with state := .done, lastTune := some .accepted } ∧ t.link.flags[5] = true
        ∧ t.tables = s.tables)
    ∧ (∀ v, v.sid = sid → s.holdsOn 0 v → s.noRise →
      ∃ t, (exec (.scheduleTrigger n) s = .next t ∧ s.unanswered t) ∧ s.heldOn t 0 .user
        ∧ t.entry n = { s.entry n with state := .done, lastTune := some .ok } ∧ t.link.flags[5] = true
        ∧ t.tables = s.tables) := by
  have dec : s.decision n now time = .fire := by rw [decision_view view, if_neg early, if_pos mode]
  have fires : fire n s.clearOut = fireView n sid s.clearOut := fire_view (s := s.clearOut) view
  have running : s.clearOut.restarting = false := live.running
  refine ⟨fun gone => ?_, fun v l hv may quiet => ?_, fun v hv holds quiet => ?_⟩
  · refine trigger_turns live h dec ?_
    show Turns s.clearOut (fire n s.clearOut) n _
    rw [fires]
    exact fireView_gone (s := s.clearOut) mode gone
  · subst hv
    obtain ⟨tuned, flag, entry⟩ := fireView_tunes (n := n) (s := s.clearOut) mode (mayTune_clearOut may) running
    exact trigger_tunes (g := fun f => { f with state := .done, lastTune := some .accepted }) live quiet h dec fires tuned
      flag entry (fun _ _ => rfl) fun _ => rfl
  · subst hv
    obtain ⟨held, flag, entry⟩ := fireView_held (n := n) (s := s.clearOut) mode (holdsOn_clearOut holds) running
    have held : s.heldOn _ 0 .user := ⟨held.origin, held.kept, held.lanes, held.router, held.queue, held.told⟩
    exact trigger_holds live quiet h dec fires held flag entry

/-! ### RECORD (R163) -/

theorem runs_timed (timed : ∀ c, e.trigger ≠ .auxRise c) (uptime : Nat) :
    e.runs uptime = { e with state := .running, interruptions := 0, retry := none } := by
  unfold Entry.runs Entry.endAtFiring
  split
  · rename_i rise _
    exact absurd rise (timed _)
  · rfl

theorem trigger_busy (live : s.live) (h : s.due n now time) (rec : (s.entry n).action = .record k sid m)
    (dec : s.decision n now time = .fire) (busy : s.slotRuns n k) :
    ∃ t, (exec (.scheduleTrigger n) s = .next t ∧ s.unanswered t)
      ∧ s.turned t n { s.entry n with state := .missed, missed := some .conflict } := by
  refine trigger_turns live h dec ?_
  show Turns s.clearOut (fire n s.clearOut) n _
  rw [fire_record (s := s.clearOut) rec]
  exact fireRecord_busy (s := s.clearOut) busy

theorem trigger_record (live : s.live) (h : s.due n now time) (rec : (s.entry n).action = .record k sid m)
    (dec : s.decision n now time = .fire) (mode : s.mode = .service ∨ (s.mode = .standby ∧ 3 ≤ k.val))
    (free : ¬ s.slotRuns n k) (timed : ∀ c, (s.entry n).trigger ≠ .auxRise c) :
    let runs : Entry := { s.entry n with state := .running, interruptions := 0, retry := none }
    (s.untunable sid → ∃ t, (exec (.scheduleTrigger n) s = .next t ∧ s.unanswered t) ∧ s.turned t n
        { runs with retry := some (s.clock.uptimeMs + 30000), lastTune := some .noSuch })
    ∧ (∀ v l, v.sid = sid → s.mayTune k v l → s.noRise →
      ∃ t, (exec (.scheduleTrigger n) s = .next t ∧ s.unanswered t) ∧ t.tuned k v l (.schedule n)
        ∧ s.entryAs t n { runs with lastTune := some .accepted } ∧ t.link.flags[5] = true ∧ t.tables = s.tables)
    ∧ (∀ v, v.sid = sid → s.holdsOn k v → s.noRise →
      ∃ t, (exec (.scheduleTrigger n) s = .next t ∧ s.unanswered t) ∧ s.heldOn t k (.schedule n)
        ∧ t.entry n = { runs with lastTune := some .ok } ∧ t.link.flags[5] = true ∧ t.tables = s.tables) := by
  intro runs
  have same : (s.clearOut.entry n).runs s.clearOut.uptimeS = runs := runs_timed timed _
  have fires : fire n s.clearOut = fireRecord n k sid s.clearOut := fire_record (s := s.clearOut) rec
  have running : s.clearOut.restarting = false := live.running
  refine ⟨fun gone => ?_, fun v l hv may quiet => ?_, fun v hv holds quiet => ?_⟩
  · have turns := fireRecord_gone (n := n) (s := s.clearOut) mode free gone
    rw [same, ← fires] at turns
    exact trigger_turns live h dec turns
  · subst hv
    obtain ⟨tuned, flag, entry⟩ := fireRecord_tunes (n := n) (s := s.clearOut) mode free (mayTune_clearOut may) running
    rw [same] at entry
    exact trigger_tunes (g := fun f => { f with retry := none, lastTune := some .accepted }) live quiet h dec fires tuned
      flag entry (fun _ _ => rfl) fun _ => rfl
  · subst hv
    obtain ⟨held, flag, entry⟩ := fireRecord_held (n := n) (s := s.clearOut) mode free (holdsOn_clearOut holds) running
    rw [same] at entry
    have held : s.heldOn _ k (.schedule n) := ⟨held.origin, held.kept, held.lanes, held.router, held.queue, held.told⟩
    exact trigger_holds live quiet h dec fires held flag entry

/-! ### WAKE in STANDBY, beside a MODE_SET to SERVICE (R162, R172) -/

/-- The mode change that a MODE_SET to SERVICE makes in STANDBY, and the one that a WAKE entry makes, differ in what leaves
at the ports alone. -/
theorem twin_wakes (n : Fin 24) (standby : s.mode = .standby) :
    Twin .none (modeChange .request .service s.opened) (changeMode (.wake n) .service s.clearOut) := by
  have ports : Twin .none s.opened s.clearOut :=
    (Twin.refl s).ports (lk := s.opened.link) (lk' := s.link) (o := []) (o' := [])
  have eq : modeChange .request .service s.opened = changeMode .request .service s.opened :=
    if_neg (by rw [show s.opened.mode = .standby from standby]; decide)
  rw [eq]
  exact ports.changeMode_service _ _ standby

end Sys2Proof.Machine
end

