-- ==== Sys2Proof/Proofs/P33.lean ====
section
/-! The firing of schedule entries: SCHEDULE_TRIGGER, and the rises of auxiliary cells (R154, R161 to R166, log 7). -/

namespace Sys2Proof.Machine

open Sys2Proof

variable {c : Fin 8} {k : Fin 5} {l : Fin 3} {n i : Fin 24} {sid m now stop : Nat} {time : Int} {v : Service} {e : Entry}
  {d : Delay} {x y s t u w : State}

/-- Twins are alike but for the schedule table, what leaves at the ports and the rises told. -/
theorem Twin.alike (h : Twin d x y) (link : y.link.rest = x.link.rest) (table : Vector Entry 24) (lk : Link)
    (core : lk.core = y.link.core) :
    ({ y with schedule := table, link := lk, auxRises := [] } : State).likewise { x with schedule := table, auxRises := [] } := by
  unfold State.likewise
  dsimp only
  rw [rest_of_core core, link, h.rest]
  rfl

/-- An entry that stands otherwise is a new table and a new link port. -/
theorem Turns.eq (h : Turns s t n e) : ∃ lk table, t = { s with schedule := table, link := lk } ∧ lk.core = s.link.core := by
  obtain ⟨b, rfl⟩ := h.notice
  exact ⟨_, s.schedule.set n e, raise_frame .., raise_core ..⟩

theorem likewise_withSchedule (h : s.likewise t) (table : Vector Entry 24) :
    ({ s with schedule := table } : State).likewise { t with schedule := table } := by
  have := congrArg (fun z : State => { z with schedule := table }) h
  exact this

/-- A WAKE entry that fires in STANDBY does what a MODE_SET to SERVICE does (R162, R172). -/
theorem trigger_wakes (live : s.live) (quiet : s.noRise) (h : s.due n now time) (wake : (s.entry n).action = .wake)
    (early : ¬ 60 < (now : Int) - time) (standby : s.mode = .standby) :
    ∃ t, (exec (.scheduleTrigger n) s = .next t ∧ s.unanswered t)
      ∧ (t.entry n = { s.entry n with state := .done } ∧ t.link.flags[5] = true ∧ t.tables = s.tables)
      ∧ t.mode = .service ∧ t.gate.standby = false ∧ t.link.flags[8] = true
      ∧ ∀ tag, s.link.replies.length < 8 → ∃ u, exec (.modeSet tag 2) s = .next u
        ∧ ({ t with schedule := u.schedule }).likewise u ∧ ∀ i, i ≠ n → t.entry i = u.entry i := by
  have dec : s.decision n now time = .fire := by rw [decision_wake wake, if_neg early, if_pos (.inr standby)]
  have fires : fire n s.clearOut = fireWake n s.clearOut := fire_wake (s := s.clearOut) wake
  obtain ⟨turns, mode, gate, flag8, flag5⟩ := fireWake_standby (n := n) (s := s.clearOut) standby live.running
  obtain ⟨t, does, served, tables⟩ := trigger_fires live quiet h dec fires
  refine ⟨t, does, ⟨(served.entry n).trans turns.entry, (congrArg (·[5]) served.flags).trans flag5, tables⟩,
    served.mode.trans mode, (congrArg Gate.standby served.gate).trans gate, (congrArg (·[8]) served.flags).trans flag8,
    fun tag room => ?_⟩
  have woken := twin_wakes n standby
  have acts := modeChange_acts .request .service s.opened
  have acts' := changeMode_acts (.wake n) .service s.clearOut
  obtain ⟨u, req, like, -⟩ := runsOut_modeSet (tag := tag) ⟨live, room⟩ (by decide : modeOf 2 = some .service)
    (by rw [standby]; decide)
  rw [settle_noRise (acts.noRise quiet)] at like
  have link : (changeMode (.wake n) .service s.clearOut).link.rest = (modeChange .request .service s.opened).link.rest :=
    (rest_of_core acts'.owned.core).trans (rest_of_core acts.owned.core).symm
  generalize changeMode (.wake n) .service s.clearOut = a at *
  generalize modeChange .request .service s.opened = b at *
  generalize fireWake n s.clearOut = w at *
  obtain ⟨lk, table, e, core⟩ := turns.eq
  have schedule : u.schedule = b.schedule := (congrArg State.schedule like :).symm
  refine ⟨u, req, ?_, fun i hi => ?_⟩
  · have first := likewise_withSchedule served.likewise.symm u.schedule
    rw [e] at first
    have last : ({ b with schedule := u.schedule, auxRises := [] } : State).likewise u := by
      rw [schedule]
      exact like
    exact first.trans ((woken.alike link u.schedule lk core).trans last)
  · have other : u.entry i = b.entry i := by
      unfold State.entry
      rw [schedule]
    rw [other, served.entry i]
    show w.entry i = b.entry i
    rw [turns.entry_ne hi, woken.entry rfl]

/-! ### The rises (R154, R166) -/

/-- CELL_ENABLE of a cell that rises with it, where entries await the rise. -/
theorem cellEnable_fires (tag cell : Byte) (pin : Pin) (c : Fin 8) (ready : s.ready) (hc : cell.toNat = c.val)
    (aux : 5 ≤ c.val) (hp : pin.ok) (off : (s.gate.cells[c]).enabled = false) (low : (s.gate.cells[c]).output = false)
    (high : (s.gate.modCell c fun x => { x with enabled := true }).eval
      (s.gate.modCell c fun x => { x with enabled := true }).cells[c] = true) :
    ∃ t, exec (.cellEnable tag cell 1 pin) s = .next t ∧ s.answered t 0x35 tag (reply .ok (u8 c.val ++ [1, 1]))
      ∧ (∀ i, s.waitsRise c i → (t.entry i).state ≠ .armed)
      ∧ ∀ n, s.waitsRise c n → (∀ i d, s.waitsRise d i → i = n) → RiseTaken s.opened t n := by
  obtain ⟨told, answered, served⟩ := cellEnable_rise (tag := tag) ready hc aux hp off low high
  have opened : Gated s.opened (enableCell c s.opened) := gated_enableCell c s.opened
  have running : s.opened.restarting = false := ready.running
  exact ⟨_, rfl, answered, fun i waits => not_armed_of_served served opened told waits running, fun n waits sole =>
    riseTaken_of_served served opened told waits sole running⟩

/-! ### SCHEDULE_TRIGGER (R161 to R163) -/

theorem trigger_late (live : s.live) (due : s.due n now time)
    (act : (s.entry n).action = .remind ∨ (s.entry n).action = .wake ∨ ∃ sid, (s.entry n).action = .viewTune sid)
    (late : 60 < (now : Int) - time) : ∃ t, (exec (.scheduleTrigger n) s = .next t ∧ s.unanswered t)
      ∧ s.turned t n { s.entry n with state := .missed, missed := some .late } := by
  refine trigger_misses live due ?_
  rcases act with remind | wake | ⟨sid, view⟩
  · rw [decision_remind remind, if_pos late]
  · rw [decision_wake wake, if_pos late]
  · rw [decision_view view, if_pos late]

/-- A wake that is not late, out of STANDBY. -/
theorem trigger_wake (live : s.live) (due : s.due n now time) (wake : (s.entry n).action = .wake)
    (early : ¬ 60 < (now : Int) - time) :
    (s.mode = .config → ∃ t, (exec (.scheduleTrigger n) s = .next t ∧ s.unanswered t)
      ∧ s.turned t n { s.entry n with state := .missed, missed := some .mode })
    ∧ (s.mode = .service → ∃ t, (exec (.scheduleTrigger n) s = .next t ∧ s.unanswered t)
      ∧ s.turned t n { s.entry n with state := .done }) := by
  refine ⟨fun mode => trigger_misses live due ?_, fun mode => trigger_acts live due ?_ (.inr ⟨by rw [mode]; decide, wake⟩)⟩
  · rw [decision_wake wake, if_neg early, if_neg (by rw [mode]; decide)]
  · rw [decision_wake wake, if_neg early, if_pos (.inl mode)]

/-- A recording in CONFIG waits. -/
theorem trigger_stays (live : s.live) (due : s.due n now time) (rec : (s.entry n).action = .record k sid m)
    (ends : (s.entry n).endTime = some stop) (ahead : now < stop) (mode : s.mode = .config) :
    ∃ t, (exec (.scheduleTrigger n) s = .next t ∧ s.unanswered t) ∧ s.unmoved t := by
  refine ⟨_, ⟨rfl, unanswered_of_acts _ live ((Acts.refl _).evaluate n)⟩, event_unmoved _ live ?_⟩
  have stay : s.decision n now time = .stay := by
    rw [decision_record rec ends, if_neg (by omega), if_neg (by rw [mode]; decide)]
  exact trigger_eq due stay

/-- A recording in SERVICE or STANDBY fires. -/
theorem decision_fires (rec : (s.entry n).action = .record k sid m) (ends : (s.entry n).endTime = some stop)
    (ahead : now < stop) (mode : s.mode = .service ∨ s.mode = .standby) : s.decision n now time = .fire := by
  rw [decision_record rec ends, if_neg (by omega), if_pos mode]

/-- Settles O56: an entry that is due acts by its action and the mode, and rises are taken in rounds after the effect that
made them. -/
theorem triggersFire : Obligations.TriggersFire := by
  refine ⟨fun n s live => ⟨fun waits => ?_, fun now time armed known trigger come => ?_⟩,
    fun tag cell pin c s ready hc aux hp off low high => ?_, fun s running => settlesTo_settle running,
    fun tag s => ⟨?_, ?_, ?_, fun ready => ?_⟩⟩
  · exact ⟨_, ⟨rfl, unanswered_of_acts _ live ((Acts.refl _).evaluate n)⟩,
      event_unmoved _ live (evaluate_waits (s := s.clearOut) waits)⟩
  · have due : s.due n now time := ⟨armed, known, trigger, come⟩
    refine ⟨fun remind early => trigger_acts live due (by rw [decision_remind remind, if_neg early]) (.inl remind),
      fun act late => trigger_late live due act late,
      fun wake early => ⟨(trigger_wake live due wake early).1, (trigger_wake live due wake early).2,
        fun standby quiet => trigger_wakes live quiet due wake early standby⟩,
      fun sid view early mode => trigger_misses live due (by rw [decision_view view, if_neg early, if_neg mode]),
      fun sid view early mode => trigger_view live due view early mode, fun k sid m stop rec ends => ⟨fun past => ?_,
        fun ahead mode => trigger_stays live due rec ends ahead mode,
        fun ahead mode busy => trigger_busy live due rec (decision_fires rec ends ahead mode) busy,
        fun ahead mode free timed => trigger_record live due rec
          (decision_fires rec ends ahead (mode.imp_right And.left)) mode free timed⟩⟩
    exact trigger_misses live due (by rw [decision_record rec ends, if_pos past])
  · obtain ⟨t, does, answered, none, fires⟩ := cellEnable_fires tag cell pin c ready hc aux hp off low high
    refine ⟨t, does, answered, none, fun n waiting sole => ?_⟩
    have taken := fires n waiting sole
    refine ⟨taken.flag, taken.remind, fun wake => ⟨fun mode => ?_, fun mode => taken.wake wake mode ready.mode⟩,
      fun sid view mode => taken.forbidden (.inr ⟨mode, sid, view⟩),
      fun v l view mode may => taken.view view mode (mayTune_congr may rfl rfl rfl rfl fun _ => rfl),
      fun k sid m rec mode => ?_, fun k v m l rec mode free may =>
        taken.record rec mode free (mayTune_congr may rfl rfl rfl rfl fun _ => rfl)⟩
    · exact taken.forbidden (.inl ⟨mode, by rw [show (s.opened.entry n).action = .wake from wake]; decide⟩)
    · exact taken.forbidden (.inl ⟨mode, by rw [show (s.opened.entry n).action = .record k sid m from rec]; simp⟩)
  · exact fun live l seeking => runsOut_lock live seeking
  · exact fun live l => runsOut_laneUnlock live l
  · exact fun live v u held last => runsOut_unlockEnd live held last
  · refine ⟨fun slot v hv => runsOut_relock ready hv, fun slot minutes pin v sid hv mode busy service m =>
      runsOut_unlock ready hv mode busy service m, fun mode => ⟨?_, ?_, ?_⟩, fun cell pin n hn hp => ⟨fun off => ?_, fun on may => ?_⟩⟩
    · rintro rfl other
      exact runsOut_modeSet ready rfl other
    · rintro rfl other
      exact runsOut_modeSet ready rfl other
    · rintro rfl other
      exact runsOut_modeSet ready rfl other
    · have runs := runsOut_cellEnable (tag := tag) ready hn hp off
      unfold State.opened at runs
      exact runs
    · have runs := runsOut_cellDisable (tag := tag) ready hn hp on may
      unfold State.opened at runs
      exact runs

end Sys2Proof.Machine
end

