-- ==== Sys2Proof/Proofs/P34.lean ====
section
/-! SUPPORT. Where the guide store puts an event: what goes for it, the place it takes, and what is counted (R105, R106,
R110). -/

namespace Sys2Proof.Machine

open Sys2Proof

variable {n m : Nat} {e : GuideEvent} {g h : Guide} {p q : Place} {L : List Place} {r : GuideReq} {s t u : State}

/-! ### The body of a GUIDE_PUT (R110) -/

theorem readGuide_writes (ok : r.inRange) (w : r.writes e) : readGuide r = some e := by
  have bit : ∀ b : Byte, b = 0 ∨ b = 1 → flag? b = some (decide (b = 1)) := fun b hb => by
    rcases hb with rfl | rfl <;> rfl
  obtain ⟨sid, duration, price, purchasable, prorate, stop⟩ := ok
  have real : r.sid.toNat ≠ 0 := fun e => sid (BitVec.eq_of_toNat_eq (by rw [e]; rfl))
  unfold readGuide
  rw [bit _ price, bit _ purchasable, bit _ prorate]
  dsimp only
  rw [if_pos ⟨real, duration.1, duration.2, stop⟩, clamp_eq (by decide), clamp_eq (by decide), Nat.zero_max, Nat.zero_max,
    Option.some.injEq]
  obtain ⟨esid, eeid, eversion, estart, eduration, erating, eprice, epurchasable, eprorate, epreview, etitle⟩ := e
  obtain ⟨rfl, rfl, rfl, rfl, rfl, rfl, rfl, wp, wr, rfl, rfl⟩ := w
  have purchasable : decide (r.purchasable = 1) = epurchasable := by rw [Bool.eq_iff_iff, decide_eq_true_iff]; exact wp.symm
  have prorate : decide (r.prorate = 1) = eprorate := by rw [Bool.eq_iff_iff, decide_eq_true_iff]; exact wr.symm
  simp only [purchasable, prorate, decide_eq_true_eq]

theorem readGuide_refuses (bad : ¬ r.inRange) : readGuide r = none := by
  have bit : ∀ (b : Byte) v, flag? b = some v → b = 0 ∨ b = 1 := fun b v hb => by
    unfold flag? at hb
    split at hb
    · exact .inl ‹_›
    · split at hb
      · exact .inr ‹_›
      · cases hb
  unfold readGuide
  split
  · rename_i priced purchasable prorate hp hu hr
    refine if_neg fun ok => bad ⟨fun e => ok.1 ?_, ⟨ok.2.1, ok.2.2.1⟩, bit _ _ hp, bit _ _ hu, bit _ _ hr, ok.2.2.2⟩
    show r.sid.toNat = 0
    rw [e]
    rfl
  · rfl

/-! ### The places (R102, R106) -/

theorem lowestFree_below {l : List Place} (low : n ≤ m) (less : m < lowestFree n l) : ∃ p ∈ l, p.num = m := by
  induction l generalizing n with
  | nil => exact absurd less (by unfold lowestFree; omega)
  | cons q l ih =>
    unfold lowestFree at less
    split at less
    · rename_i here
      rcases Nat.eq_or_lt_of_le low with rfl | more
      · exact ⟨q, List.mem_cons_self, here⟩
      · obtain ⟨p, hp, e⟩ := ih (by omega) less
        exact ⟨p, List.mem_cons_of_mem _ hp, e⟩
    · exact absurd less (by omega)

theorem lowestFree_eq {l : List Place} (sorted : KeySorted (·.num) l) (free : ∀ p ∈ l, p.num ≠ n)
    (below : ∀ m, m < n → ∃ p ∈ l, p.num = m) : lowestFree 0 l = n := by
  obtain ⟨-, -, empty⟩ := lowestFree_spec 0 sorted fun _ _ => Nat.zero_le _
  rcases Nat.lt_trichotomy (lowestFree 0 l) n with less | same | more
  · obtain ⟨p, hp, e⟩ := below _ less
    exact absurd e (empty p hp)
  · exact same
  · obtain ⟨p, hp, e⟩ := lowestFree_below (Nat.zero_le n) more
    exact absurd e (free p hp)

/-- What the removal of some places leaves of the guide store (R108, R113). -/
theorem foldl_remove_eq (L : List Place) (g : Guide) : L.foldl (fun g p => Guide.remove p.num g) g = { g with
    places := g.places.filter fun q => !(L.any fun p => p.num == q.num)
    scrub := g.scrub.filter fun x => !(L.any fun p => p.num == x.place) } := by
  induction L generalizing g with
  | nil =>
    cases g with
    | mk places counters scrub => cases scrub <;> simp [Option.filter]
  | cons p L ih =>
    rw [List.foldl_cons, ih]
    unfold Guide.remove keyDrop
    simp only [List.filter_filter, Option.filter_filter, List.any_cons, Bool.not_or]
    congr 1
    · refine List.filter_congr fun q _ => ?_
      rw [Bool.and_comm, bne, Bool.beq_comm (a := q.num)]
    · congr 1
      funext x
      rw [bne, Bool.beq_comm (a := x.place)]

/-- Of the places of a store in its form, those that a test picks are told by their numbers. -/
theorem any_num_eq {test : Place → Bool} (ok : g.ok) (mem : ∀ p, p ∈ L ↔ p ∈ g.places ∧ test p = true) (hq : q ∈ g.places) :
    (L.any fun p => p.num == q.num) = test q := by
  rw [Bool.eq_iff_iff, List.any_eq_true]
  constructor
  · rintro ⟨p, hp, num⟩
    obtain ⟨held, picked⟩ := (mem p).1 hp
    rw [← keySorted_unique ok.1 held hq (beq_iff_eq.1 num)]
    exact picked
  · exact fun picked => ⟨q, (mem q).2 ⟨hq, picked⟩, by simp⟩

/-- The store without the places that a test picks. -/
def Guide.without (g : Guide) (test : Place → Bool) : Guide :=
  { g with
    places := g.places.filter fun p => !test p
    scrub := g.scrub.filter fun x => (g.places.filter fun p => !test p).any fun p => p.num == x.place }

theorem foldl_remove_without {test : Place → Bool} (ok : g.ok) (mem : ∀ p, p ∈ L ↔ p ∈ g.places ∧ test p = true) :
    L.foldl (fun g p => Guide.remove p.num g) g = g.without test := by
  rw [foldl_remove_eq]
  unfold Guide.without
  congr 1
  · exact List.filter_congr fun q hq => by rw [any_num_eq ok mem hq]
  · cases scrub : g.scrub with
    | none => rfl
    | some x =>
      obtain ⟨p, hp, num, -⟩ := ok.2.2.2 x scrub
      have left : (L.any fun p => p.num == x.place) = test p := by rw [← num]; exact any_num_eq ok mem hp
      have kept : ((g.places.filter fun p => !test p).any fun p => p.num == x.place) = !test p := by
        rw [Bool.eq_iff_iff, List.any_eq_true]
        constructor
        · rintro ⟨q, hq, e⟩
          obtain ⟨held, stays⟩ := List.mem_filter.1 hq
          have := keySorted_unique ok.1 held hp ((beq_iff_eq.1 e).trans num.symm)
          rwa [this] at stays
        · exact fun stays => ⟨p, List.mem_filter.2 ⟨hp, stays⟩, by simp [num]⟩
      simp only [Option.filter_some, left, kept]

theorem num_lt_of_free (ok : g.ok) (small : n < 2048) (free : ∀ p ∈ g.places, p.num ≠ n) : g.places.length < 2048 := by
  have nodup : (g.places.map (·.num)).Nodup := List.pairwise_map.2 (ok.1.imp fun h => Nat.ne_of_lt h)
  have sub := List.Nodup.subperm nodup (l₂ := (List.range 2048).erase n) fun x hx => by
    obtain ⟨q, hq, rfl⟩ := List.mem_map.1 hx
    exact (List.mem_erase_of_ne (free q hq)).2 (List.mem_range.2 (ok.2.1 q hq))
  have le := sub.length_le
  rw [List.length_map, List.length_erase_of_mem (List.mem_range.2 small), List.length_range] at le
  omega

/-! The latest-starting entry (R106). -/

/-- Of the latest so far and a place, the later. -/
def laterOf (best : Option Place) (p : Place) : Option Place :=
  match best with
  | none => some p
  | some b => if b.ev.start ≤ p.ev.start then some p else some b

theorem latest_eq (g : Guide) : g.latest = g.places.foldl laterOf none := rfl

theorem laterOf_takes {best : Option Place} (low : ∀ y ∈ best, y.ev.start ≤ p.ev.start) : laterOf best p = some p := by
  cases best with
  | none => rfl
  | some y => exact if_pos (low y rfl)

theorem laterOf_below {best : Option Place} (low : ∀ y ∈ best, y.ev.start ≤ m) (hp : p.ev.start ≤ m) :
    ∀ y ∈ laterOf best p, y.ev.start ≤ m := by
  intro y hy
  unfold laterOf at hy
  split at hy
  · cases hy
    exact hp
  · rename_i b
    split at hy
    · cases hy
      exact hp
    · cases hy
      exact low y rfl

theorem foldl_laterOf_stays {l : List Place} (lower : ∀ q ∈ l, q.ev.start < p.ev.start) :
    l.foldl laterOf (some p) = some p := by
  induction l with
  | nil => rfl
  | cons q l ih =>
    have hq := lower q List.mem_cons_self
    have stays : laterOf (some p) q = some p := if_neg (by omega)
    rw [List.foldl_cons, stays]
    exact ih fun q hq => lower q (List.mem_cons_of_mem _ hq)

theorem foldl_laterOf_last {l : List Place} {x : Place} {best : Option Place} (sorted : KeySorted (·.num) l) (hx : x ∈ l)
    (top : ∀ p ∈ l, p.ev.start < x.ev.start ∨ (p.ev.start = x.ev.start ∧ p.num ≤ x.num))
    (low : ∀ y ∈ best, y.ev.start ≤ x.ev.start) : l.foldl laterOf best = some x := by
  induction l generalizing best with
  | nil => exact absurd hx List.not_mem_nil
  | cons p l ih =>
    obtain ⟨above, sorted⟩ := List.pairwise_cons.1 sorted
    have topp := top p List.mem_cons_self
    rw [List.foldl_cons]
    rcases List.mem_cons.1 hx with rfl | hx
    · rw [laterOf_takes low]
      refine foldl_laterOf_stays fun q hq => ?_
      have num : x.num < q.num := above q hq
      have := top q (List.mem_cons_of_mem _ hq)
      omega
    · exact ih sorted hx (fun q hq => top q (List.mem_cons_of_mem _ hq)) (laterOf_below low (by omega))

theorem latest_of_last {x : Place} (ok : g.ok) (last : g.last x) : g.latest = some x :=
  (latest_eq g).trans (foldl_laterOf_last ok.1 last.held last.latest fun _ h => nomatch h)

end Sys2Proof.Machine
end

