-- ==== Sys2Proof/Proofs/P35.lean ====
section
/-! SUPPORT. What becomes of an event taken: past, a duplicate, placed, or dropped (R105, R106). -/

namespace Sys2Proof.Machine

open Sys2Proof

variable {n m now : Nat} {e : GuideEvent} {g h : Guide} {o p q x : Place} {old : Option Place} {L : List Place}
  {s t u : State}

/-! ### What is found before the placing (R105) -/

theorem takeGuide_past (known : s.now? = some now) (late : e.stop + 3600 ≤ now) :
    takeGuide e s = (.past, s.modGuideCounters fun c => { c with past := c.past + 1 }) := by
  unfold takeGuide State.isPast
  rw [known]
  exact if_pos (by simpa using late)

theorem not_isPast (early : ∀ now, s.now? = some now → now < e.stop + 3600) : s.isPast e = false := by
  unfold State.isPast
  cases known : s.now? with
  | none => rfl
  | some now =>
    have := early now known
    simpa using this

theorem readPlace_clean (sorted : KeySorted (·.num) s.guide.places) (hp : p ∈ s.guide.places) (clean : p.disturbed = 0) :
    readPlace p.num s = (some p.ev, s) := by
  refine readBound_clean (keyFind_mem sorted hp) ?_
  unfold Guide.check
  rw [if_pos clean]
  split <;> rfl

theorem placeOf_eq (ok : g.ok) (hp : p ∈ g.places) (sid : p.ev.sid = e.sid) (eid : p.ev.eid = e.eid) :
    g.placeOf e.sid e.eid = some p := by
  cases found : g.placeOf e.sid e.eid with
  | none => exact absurd (List.find?_eq_none.1 found p hp) (by simp [sid, eid])
  | some q =>
    obtain ⟨hq, qs, qe⟩ := placeOf_spec found
    rw [Guide.ok_unique ok hq hp (qs.trans sid.symm) (qe.trans eid.symm)]

/-- An event of a version held readable is counted alone. -/
theorem takeGuide_duplicate {held : GuideEvent} (recent : s.isPast e = false) (listed : s.listed held)
    (sid : held.sid = e.sid) (eid : held.eid = e.eid) (version : held.version = e.version) :
    takeGuide e s = (.duplicate, s.modGuideCounters fun c => { c with duplicate := c.duplicate + 1 }) := by
  obtain ⟨ok, p, hp, rfl, clean⟩ := listed
  unfold takeGuide
  rw [recent, placeOf_eq ok hp sid eid]
  dsimp only
  rw [readPlace_clean ok.1 hp clean]
  exact if_pos version

/-- An event of which another version, or none, is held readable is placed. -/
theorem takeGuide_places (recent : s.isPast e = false) (ok : s.guide.ok)
    (fresh : ∀ p ∈ s.guide.places, p.ev.sid = e.sid → p.ev.eid = e.eid → p.ev.version ≠ e.version ∧ p.disturbed = 0) :
    takeGuide e s = placeEvent e (s.guide.placeOf e.sid e.eid) s := by
  unfold takeGuide
  rw [recent]
  cases found : s.guide.placeOf e.sid e.eid with
  | none => rfl
  | some p =>
    obtain ⟨hp, sid, eid⟩ := placeOf_spec found
    obtain ⟨version, clean⟩ := fresh p hp sid eid
    dsimp only
    rw [readPlace_clean ok.1 hp clean]
    exact if_neg version

/-! ### What goes for an event (R105, R106) -/

/-- The places of its service that an event removes, in order of start. -/
def GuideEvent.gone (e : GuideEvent) (g : Guide) : List Place := (g.ofService e.sid).filter e.ousts

/-- The events that an event displaces, by their ids, in order of start. -/
def GuideEvent.displaces (e : GuideEvent) (g : Guide) : List Nat := ((e.gone g).map (·.ev.eid)).filter (· ≠ e.eid)

/-- Whether another version of an event is held. -/
def GuideEvent.replaces (e : GuideEvent) (g : Guide) : Bool := (e.gone g).any fun p => p.ev.eid == e.eid

theorem mem_gone : p ∈ e.gone g ↔ p ∈ g.places ∧ e.ousts p = true := by
  unfold GuideEvent.gone
  rw [List.mem_filter, mem_ofService]
  constructor
  · exact fun h => ⟨h.1.1, h.2⟩
  · intro h
    refine ⟨⟨h.1, ?_⟩, h.2⟩
    have := h.2
    unfold GuideEvent.ousts at this
    simp only [Bool.and_eq_true, beq_iff_eq] at this
    exact this.1

theorem ousts_named (sid : p.ev.sid = e.sid) (eid : p.ev.eid = e.eid) : e.ousts p = true := by
  unfold GuideEvent.ousts
  simp [sid, eid]

theorem ousts_other (sid : p.ev.sid = e.sid) (eid : p.ev.eid ≠ e.eid) : e.ousts p = p.ev.overlaps e := by
  unfold GuideEvent.ousts
  simp [sid, eid]

/-- The model's hits are the places that go, the old version but for. -/
theorem hits_eq (ok : g.ok) (found : g.placeOf e.sid e.eid = old) :
    (g.ofService e.sid).filter (fun p => p.ev.overlaps e && !(old.any fun o => o.num == p.num))
      = (e.gone g).filter fun p => decide (p.ev.eid ≠ e.eid) := by
  unfold GuideEvent.gone
  rw [List.filter_filter]
  refine List.filter_congr fun p hp => ?_
  obtain ⟨hp, sid⟩ := mem_ofService.1 hp
  by_cases eid : p.ev.eid = e.eid
  · rw [← found, placeOf_eq ok hp sid eid]
    simp [eid]
  · have other : (old.any fun o => o.num == p.num) = false := by
      cases old with
      | none => rfl
      | some o =>
        obtain ⟨ho, os, oe⟩ := placeOf_spec found
        refine beq_eq_false_iff_ne.2 fun num => eid ?_
        rw [← keySorted_unique ok.1 ho hp num]
        exact oe
    rw [other, ousts_other sid eid]
    simp [eid]

theorem isSome_placeOf (ok : g.ok) : (g.placeOf e.sid e.eid).isSome = e.replaces g := by
  rw [Bool.eq_iff_iff]
  unfold GuideEvent.replaces
  rw [List.any_eq_true]
  constructor
  · intro some
    obtain ⟨p, found⟩ := Option.isSome_iff_exists.1 some
    obtain ⟨hp, sid, eid⟩ := placeOf_spec found
    exact ⟨p, mem_gone.2 ⟨hp, ousts_named sid eid⟩, by simp [eid]⟩
  · rintro ⟨p, hp, eid⟩
    obtain ⟨held, sid⟩ := mem_ofService.1 (List.mem_filter.1 hp).1
    rw [placeOf_eq ok held sid (beq_iff_eq.1 eid)]
    rfl

theorem mem_removed (ok : g.ok) (found : g.placeOf e.sid e.eid = old) :
    p ∈ old.toList ++ (e.gone g).filter (fun p => decide (p.ev.eid ≠ e.eid)) ↔ p ∈ g.places ∧ e.ousts p = true := by
  rw [List.mem_append, List.mem_filter, mem_gone]
  constructor
  · rintro (h | h)
    · cases old with
      | none => cases h
      | some o =>
        obtain ⟨ho, sid, eid⟩ := placeOf_spec found
        rw [List.mem_singleton.1 h]
        exact ⟨ho, ousts_named sid eid⟩
    · exact h.1
  · rintro ⟨hp, picked⟩
    by_cases eid : p.ev.eid = e.eid
    · refine .inl ?_
      have sid : p.ev.sid = e.sid := by
        unfold GuideEvent.ousts at picked
        simp only [Bool.and_eq_true, beq_iff_eq] at picked
        exact picked.1
      rw [← found, placeOf_eq ok hp sid eid]
      exact List.mem_singleton_self p
    · exact .inr ⟨⟨hp, picked⟩, by simpa using eid⟩

/-! ### An event placed (R106, R107) -/

/-- The reports of a placement: of what went, and of what came. -/
def State.reportsOf (s : State) (e : GuideEvent) (L : List Place) (g : Guide) : State :=
  touched e.sid (forEach (L.map (·.ev)) reportRemoval { s with guide := g })

/-- The guide store once an event is placed in an empty place, and what it ousts is gone. -/
def Guide.takes (g : Guide) (e : GuideEvent) (n : Nat) : Guide :=
  { g with
    places := keyPut (·.num) { num := n, ev := e } (g.places.filter fun p => !e.ousts p)
    scrub := g.scrub.filter fun x => (g.places.filter fun p => !e.ousts p).any fun p => p.num == x.place
    counters := { g.counters with
      inserted := g.counters.inserted + 1
      replaced := if e.replaces g then g.counters.replaced + 1 else g.counters.replaced
      displaced := g.counters.displaced + BitVec.ofNat 32 (e.displaces g).length } }

theorem reportsOf_putEvent {hit : List Place} {out : Option Place} (eq : { Guide.write (lowestFree 0
      ((old.toList ++ hit ++ out.toList).foldl (fun g p => Guide.remove p.num g) s.guide).places) e
      ((old.toList ++ hit ++ out.toList).foldl (fun g p => Guide.remove p.num g) s.guide) with
    counters := ((old.toList ++ hit ++ out.toList).foldl (fun g p => Guide.remove p.num g) s.guide).counters.place
      old.isSome hit.length out.isSome } = g) :
    putEvent e old hit out s = s.reportsOf e (old.toList ++ hit ++ out.toList) g := by
  subst eq
  rfl

/-- There is a place for an event that ousts another, or leaves a place empty. -/
theorem has_room (ok : g.ok) (found : g.placeOf e.sid e.eid = old) (small : n < 2048)
    (free : ∀ p ∈ g.places.filter fun p => !e.ousts p, p.num ≠ n) :
    (old.isSome || !((e.gone g).filter fun p => decide (p.ev.eid ≠ e.eid)).isEmpty || decide (g.places.length < 2048))
      = true := by
  by_cases none : old.toList ++ (e.gone g).filter (fun p => decide (p.ev.eid ≠ e.eid)) = []
  · have kept : g.places.filter (fun p => !e.ousts p) = g.places := by
      refine List.filter_eq_self.2 fun p hp => ?_
      cases picked : e.ousts p with
      | false => rfl
      | true => exact absurd ((mem_removed ok found).2 ⟨hp, picked⟩) (by rw [none]; exact List.not_mem_nil)
    rw [kept] at free
    rw [decide_eq_true (num_lt_of_free ok small free), Bool.or_true]
  · cases old with
    | some o => rfl
    | none =>
      rw [Option.toList_none, List.nil_append] at none
      rw [List.isEmpty_eq_false_iff.2 none]
      rfl

theorem placeEvent_takes (ok : s.guide.ok) (found : s.guide.placeOf e.sid e.eid = old)
    (small : n < 2048) (free : ∀ p ∈ s.guide.places.filter fun p => !e.ousts p, p.num ≠ n)
    (below : ∀ m, m < n → ∃ p ∈ s.guide.places.filter fun p => !e.ousts p, p.num = m) :
    ∃ L : List Place, (∀ p, p ∈ L ↔ p ∈ s.guide.places ∧ e.ousts p = true)
      ∧ placeEvent e old s = (.placed (e.replaces s.guide) (e.displaces s.guide) none,
        s.reportsOf e L (s.guide.takes e n)) := by
  have some := isSome_placeOf (e := e) ok
  rw [found] at some
  have mem := fun p => mem_removed (p := p) ok found
  have names : ((e.gone s.guide).filter fun p => decide (p.ev.eid ≠ e.eid)).map (·.ev.eid) = e.displaces s.guide := by
    unfold GuideEvent.displaces
    rw [List.filter_map]
    rfl
  have lowest : lowestFree 0 (s.guide.without e.ousts).places = n :=
    lowestFree_eq (List.Pairwise.filter _ ok.1) free below
  refine ⟨_, mem, ?_⟩
  unfold placeEvent
  dsimp only
  rw [hits_eq ok found, if_pos (has_room ok found small free), names, some, reportsOf_putEvent rfl]
  simp only [Option.toList_none, List.append_nil, foldl_remove_without ok mem, lowest, some]
  unfold Guide.takes Guide.write Guide.without GuideCounters.place
  rw [← names, List.length_map]
  rfl

theorem takeGuide_takes (recent : s.isPast e = false) (ok : s.guide.ok)
    (fresh : ∀ p ∈ s.guide.places, p.ev.sid = e.sid → p.ev.eid = e.eid → p.ev.version ≠ e.version ∧ p.disturbed = 0)
    (small : n < 2048) (free : ∀ p ∈ s.guide.places.filter fun p => !e.ousts p, p.num ≠ n)
    (below : ∀ m, m < n → ∃ p ∈ s.guide.places.filter fun p => !e.ousts p, p.num = m) :
    ∃ L : List Place, (∀ p, p ∈ L ↔ p ∈ s.guide.places ∧ e.ousts p = true)
      ∧ takeGuide e s = (.placed (e.replaces s.guide) (e.displaces s.guide) none,
        s.reportsOf e L (s.guide.takes e n)) := by
  rw [takeGuide_places recent ok fresh]
  exact placeEvent_takes ok rfl small free below

/-! ### A full store (R106) -/

theorem keyPut_front {α : Type} {key : α → Nat} {a : α} {l : List α} (above : ∀ b ∈ l, key a < key b) :
    keyPut key a l = a :: l := by
  cases l with
  | nil => rfl
  | cons b l => exact if_pos (above b List.mem_cons_self)

theorem keyDrop_above {α : Type} {key : α → Nat} {n : Nat} {l : List α} (above : ∀ b ∈ l, n < key b) : keyDrop key n l = l :=
  List.filter_eq_self.2 fun b hb => by
    have := above b hb
    simp only [bne_iff_ne]
    omega

/-- An entry put in a table takes the place of the one of its key. -/
theorem keyPut_keyDrop {α : Type} {key : α → Nat} (a : α) {l : List α} (sorted : KeySorted key l) :
    keyPut key a (keyDrop key (key a) l) = keyPut key a l := by
  induction l with
  | nil => rfl
  | cons b l ih =>
    obtain ⟨above, sorted⟩ := List.pairwise_cons.1 sorted
    rcases Nat.lt_trichotomy (key a) (key b) with less | same | more
    · rw [keyDrop_above fun c hc => ?_]
      rcases List.mem_cons.1 hc with rfl | hc
      · exact less
      · exact less.trans (above c hc)
    · have gone : keyDrop key (key a) (b :: l) = l := by
        have rest : keyDrop key (key a) l = l := keyDrop_above fun c hc => same ▸ above c hc
        unfold keyDrop at rest ⊢
        rw [List.filter_cons_of_neg (by simp [same]), rest]
      rw [gone, keyPut_front fun c hc => same ▸ above c hc]
      unfold keyPut
      rw [if_neg (by omega), if_pos same]
    · have kept : keyDrop key (key a) (b :: l) = b :: keyDrop key (key a) l := by
        unfold keyDrop
        exact List.filter_cons_of_pos (by simp; omega)
      rw [kept]
      unfold keyPut
      rw [if_neg (by omega), if_neg (by omega), if_neg (by omega), if_neg (by omega), ih sorted]

/-- In a full store every place is occupied. -/
theorem full_occupies (ok : g.ok) (full : 2048 ≤ g.places.length) (small : m < 2048) : ∃ p ∈ g.places, p.num = m := by
  by_contra none
  push Not at none
  exact absurd (num_lt_of_free ok small none) (by omega)

section Full

variable (recent : s.isPast e = false) (ok : s.guide.ok) (apart : ∀ p ∈ s.guide.places, e.apart p.ev)
  (full : 2048 ≤ s.guide.places.length) (last : s.guide.last x)
include recent ok apart full last

/-- An event that ousts nothing, in a full store, looks for the latest-starting entry. -/
theorem takeGuide_full : takeGuide e s = if e.start < x.ev.start then
      (.placed false [] (some (x.ev.sid, x.ev.eid)), putEvent e none [] (some x) s)
    else (.dropped, s.modGuideCounters fun c => { c with droppedFull := c.droppedFull + 1 }) := by
  have none : s.guide.placeOf e.sid e.eid = none := by
    refine List.find?_eq_none.2 fun p hp => ?_
    simp only [Bool.and_eq_true, beq_iff_eq, not_and]
    exact fun sid eid => (apart p hp sid.symm).1 eid.symm
  have hits : (s.guide.ofService e.sid).filter (fun p => p.ev.overlaps e && !((Option.none : Option Place).any
      fun o => o.num == p.num)) = [] := by
    refine List.filter_eq_nil_iff.2 fun p hp => ?_
    obtain ⟨hp, sid⟩ := mem_ofService.1 hp
    have := (apart p hp sid.symm).2
    unfold GuideEvent.overlaps at this ⊢
    rw [Bool.and_comm] at this
    simp [this]
  rw [takeGuide_places recent ok fun p hp sid eid => absurd eid.symm (apart p hp sid.symm).1, none]
  unfold placeEvent
  dsimp only
  rw [hits, latest_of_last ok last, if_neg (by simpa using full)]

theorem takeGuide_drops (later : x.ev.start ≤ e.start) :
    takeGuide e s = (.dropped, s.modGuideCounters fun c => { c with droppedFull := c.droppedFull + 1 }) := by
  rw [takeGuide_full recent ok apart full last, if_neg (by omega)]

/-- The guide store once an event has taken the place of another. -/
theorem takeGuide_evicts (sooner : e.start < x.ev.start) :
    takeGuide e s = (.placed false [] (some (x.ev.sid, x.ev.eid)), s.reportsOf e [x] { s.guide with
      places := keyPut (·.num) { num := x.num, ev := e } s.guide.places
      scrub := s.guide.scrub.filter fun y => y.place != x.num
      counters := { s.guide.counters with
        inserted := s.guide.counters.inserted + 1, evicted := s.guide.counters.evicted + 1 } }) := by
  have removed := foldl_remove_eq [x] s.guide
  have places : (s.guide.places.filter fun q => !([x].any fun p => p.num == q.num)) = keyDrop (·.num) x.num s.guide.places := by
    refine List.filter_congr fun q _ => ?_
    simp [bne, Bool.beq_comm (a := q.num)]
  have lowest : lowestFree 0 (keyDrop (·.num) x.num s.guide.places) = x.num := by
    refine lowestFree_eq (keySorted_keyDrop _ ok.1) (fun p hp => by simpa using (List.mem_filter.1 hp).2) fun m less => ?_
    obtain ⟨p, hp, num⟩ := full_occupies ok full (less.trans (ok.2.1 x last.held))
    exact ⟨p, List.mem_filter.2 ⟨hp, by simp only [bne_iff_ne]; omega⟩, num⟩
  rw [takeGuide_full recent ok apart full last, if_pos sooner, reportsOf_putEvent rfl]
  simp only [Option.toList_none, Option.toList_some, List.nil_append, List.append_nil, removed, places, lowest]
  unfold Guide.write
  have put := keyPut_keyDrop (key := fun p : Place => p.num) ({ num := x.num, ev := e } : Place) ok.1
  dsimp only at put ⊢
  rw [put]
  have scrub : (s.guide.scrub.filter fun y => !([x].any fun p => p.num == y.place))
      = s.guide.scrub.filter fun y => y.place != x.num := by
    congr 1
    funext y
    simp [bne, Bool.beq_comm (a := y.place)]
  rw [scrub]
  have counted : s.guide.counters.place (Option.none : Option Place).isSome ([] : List Place).length (some x).isSome
      = { s.guide.counters with
        inserted := s.guide.counters.inserted + 1, evicted := s.guide.counters.evicted + 1 } := by
    unfold GuideCounters.place
    simp
  rw [counted]

end Full

end Sys2Proof.Machine
end

