-- ==== Sys2Proof/Proofs/P36.lean ====
section
/-! SUPPORT. What the report of a placement or a removal does where the places of the services concerned are clean: current
events found afresh, ratings judged, orphans made, and nothing else (R26, R27, R107, R132, R165). -/

namespace Sys2Proof.Machine

open Sys2Proof

variable {j k : Fin 5} {i : Fin 24} {sid : Nat} {v u : Fin 3} {e : Option CurEvent} {s t w : State} {x : GuideEvent}

/-! ### The rating's source (R131, R132) -/

theorem viewSlot_inj (h : viewSlot u = viewSlot v) : u = v := by
  revert h
  revert u v
  decide

/-- RATING_OK of a view slot found afresh, and of no other (R132). -/
theorem updateRating_ratingOk (v u : Fin 3) (s : State) :
    ((updateRating (viewSlot v) s).gate.src[viewSlot u]).ratingOk
      = if u = v then s.condition v .ratingOk else (s.gate.src[viewSlot u]).ratingOk := by
  have view : asView (viewSlot v) = some v := asView_iff.2 rfl
  have told : ∀ (chs : List Change) (z : State), (∀ c ∈ chs, ¬ c.names (viewSlot u) .ratingOk) →
      ((gateReport chs z).gate.src[viewSlot u]).ratingOk = (z.gate.src[viewSlot u]).ratingOk := fun chs z h =>
    gateReport_get_apart (src := .ratingOk) h z
  unfold updateRating
  rw [view]
  unfold reportConditions
  simp only [List.map_cons, List.map_nil, List.flatMap_cons, List.flatMap_nil, List.append_nil]
  rw [told _ _ fun c hc => ?_]
  · rw [forEach_cons, forEach_nil, (gateReport_one ..).1]
    by_cases same : u = v
    · subst same
      simp [SlotSources.put]
    · have apart : (viewSlot v : Nat) ≠ viewSlot u := fun e => same (viewSlot_inj (Fin.ext e)).symm
      simp [same, apart]
  · rw [List.mem_singleton.1 hc]
    exact fun named => named.elim fun _ e => Source.noConfusion (Change.slot.inj e).2.1

theorem withdrawKeys_gate (k : Fin 5) (s : State) : (withdrawKeys k s).gate = s.gate := by
  unfold withdrawKeys
  dsimp only
  split
  · rfl
  · split
    · exact raise_gate ..
    · rfl

theorem endPreview_ratingOk (k : Fin 5) (j : Fin 5) (s : State) :
    ((endPreview k s).gate.src[j]).ratingOk = (s.gate.src[j]).ratingOk := by
  unfold endPreview
  split
  · refine (gateReport_get_apart (src := .ratingOk) (fun c hc => ?_) _).trans ?_
    · simp only [List.flatMap_cons, List.flatMap_nil, List.append_nil, List.mem_cons, List.not_mem_nil, or_false] at hc
      rcases hc with rfl | rfl <;> exact fun named => named.elim fun _ e => Source.noConfusion (Change.slot.inj e).2.1
    · rw [forEach_cons, forEach_nil, withdrawKeys_gate]
      rfl
  · rfl

/-! ### What finding current events afresh leaves (R26, R27) -/

/-- A view slot's rating in force is not above its profile's ceiling (R131). -/
def State.rated (s : State) (u : Fin 3) : Bool :=
  decide (s.ratingInForce (viewSlot u) ≤ (s.profileOf (viewSlot u)).ceiling)

/-- Slots stay on their services and lanes; a view slot's RATING_OK changes with its current event alone, and is found by
the rating in force; and what movement does not touch is as it was. -/
structure Revisits (s t : State) : Prop extends Attends s t where
  guide : t.guide = s.guide
  lanes : t.lanes = s.lanes
  arb : t.arb = s.arb
  sweep : t.sweep = s.sweep
  lane : ∀ j, (t.slot j).lane = (s.slot j).lane
  flow : Flow none s t
  rating : ∀ u, ((t.slot (viewSlot u)).cur = (s.slot (viewSlot u)).cur
      ∧ (t.gate.src[viewSlot u]).ratingOk = (s.gate.src[viewSlot u]).ratingOk)
    ∨ (t.gate.src[viewSlot u]).ratingOk = t.rated u

theorem slot_core_of_flow {o : Option (Fin 5)} (h : Flow o s t) (j : Fin 5) : (t.slot j).core = (s.slot j).core := by
  have slots : t.slots.map Slot.core = s.slots.map Slot.core := (congrArg State.slots h.still :)
  have := congrArg (fun x : Vector Slot 5 => x[j]) slots
  simpa [State.slot] using this

theorem rated_congr {o : Option (Fin 5)} (flow : Flow o s t) (cur : (t.slot (viewSlot u)).cur = (s.slot (viewSlot u)).cur) :
    t.rated u = s.rated u := by
  have service : (t.slot (viewSlot u)).service = (s.slot (viewSlot u)).service :=
    (congrArg Slot.service (slot_core_of_flow flow _) :)
  have profile : (t.slot (viewSlot u)).profile = (s.slot (viewSlot u)).profile :=
    (congrArg Slot.profile (slot_core_of_flow flow _) :)
  have services : t.services = s.services := (congrArg State.services flow.still :)
  have parental : t.parental = s.parental := (congrArg State.parental flow.still :)
  unfold State.rated State.ratingInForce State.profileOf State.serviceOf State.profile
  rw [cur, service, profile, services, parental]

theorem Revisits.refl (s : State) : Revisits s s :=
  ⟨.refl s, rfl, rfl, rfl, rfl, fun _ => rfl, .refl none s, fun _ => .inl ⟨rfl, rfl⟩⟩

theorem Revisits.trans (a : Revisits s t) (b : Revisits t w) : Revisits s w := by
  refine ⟨a.toAttends.trans b.toAttends, b.guide.trans a.guide, b.lanes.trans a.lanes, b.arb.trans a.arb,
    b.sweep.trans a.sweep, fun j => (b.lane j).trans (a.lane j), a.flow.trans b.flow, fun u => ?_⟩
  rcases b.rating u with ⟨cur, ok⟩ | found
  · rcases a.rating u with same | found
    · exact .inl ⟨cur.trans same.1, ok.trans same.2⟩
    · exact .inr (ok.trans (found.trans (rated_congr b.flow cur).symm))
  · exact .inr found

/-- A change of one slot that leaves its lane leaves every slot's. -/
theorem slotLane_modSlot {f : Slot → Slot} (hf : (f (s.slot k)).lane = (s.slot k).lane) (j : Fin 5) :
    ((s.modSlot k f).slot j).lane = (s.slot j).lane := by
  rw [slot_modSlot]
  split
  · rename_i e
    subst e
    exact hf
  · rfl

theorem withdrawKeys_lane (k j : Fin 5) (s : State) : ((withdrawKeys k s).slot j).lane = (s.slot j).lane := by
  unfold withdrawKeys
  dsimp only
  split
  · exact slotLane_modSlot rfl j
  · split
    · refine (((gated_raise ..).slots j).lane).trans ?_
      exact (slotLane_modSlot rfl j).trans ((slotLane_modSlot rfl j).trans (slotLane_modSlot rfl j))
    · exact slotLane_modSlot rfl j

theorem withdrawKeys_guide (k : Fin 5) (s : State) : (withdrawKeys k s).guide = s.guide := by
  unfold withdrawKeys
  dsimp only
  split
  · rfl
  · split
    · exact (gated_raise ..).guide
    · rfl

/-- A slot's current event set, and no other's; the schedule is left. -/
theorem setCurrent_schedule (k : Fin 5) (e : Option CurEvent) (s : State) : (setCurrent k e s).schedule = s.schedule := by
  have withdrawn : ∀ z, (withdrawKeys k z).schedule = z.schedule := fun z => by
    unfold withdrawKeys
    dsimp only
    split
    · rfl
    · split
      · exact (gated_raise ..).schedule
      · rfl
  unfold setCurrent
  split
  · rfl
  · unfold endPreview
    split
    · refine (gated_setEntitled ..).schedule.trans ((withdrawn _).trans ?_)
      exact (judged_updateRating k k _).schedule
    · exact (judged_updateRating k k _).schedule

/-- A slot that is not FREE has its current event set. -/
theorem revisits_setCurrent (used : (s.slot k).state ≠ .free) (e : Option CurEvent) : Revisits s (setCurrent k e s) := by
  by_cases same : (s.slot k).cur = e
  · unfold setCurrent
    rw [if_pos same]
    exact .refl s
  obtain ⟨attends, cur⟩ := attends_setCurrent k e s
  have looked := looked_setCurrent k k e s
  have flow : Flow none s (setCurrent k e s) := (Flow.refl none s).setCurrent k e
  have parts : setCurrent k e s = endPreview k (updateRating k (s.modSlot k fun sl => { sl with cur := e })) := if_neg same
  have judged := judged_updateRating k k (s.modSlot k fun sl => { sl with cur := e })
  have set : ∀ j, ((s.modSlot k fun sl => { sl with cur := e }).slot j).lane = (s.slot j).lane := slotLane_modSlot rfl
  refine ⟨attends, ?_, looked.lanes, looked.arb, looked.sweep, fun j => ?_, flow, fun u => ?_⟩
  · rw [parts]
    unfold endPreview
    split
    · exact (gated_setEntitled ..).guide.trans ((withdrawKeys_guide ..).trans judged.guide)
    · exact judged.guide
  · rw [parts]
    unfold endPreview
    split
    · exact (((gated_setEntitled ..).slots j).lane).trans ((withdrawKeys_lane k j _).trans (((judged.slots j).lane).trans (set j)))
    · exact ((judged.slots j).lane).trans (set j)
  · have untold := endPreview_ratingOk k (viewSlot u) (updateRating k (s.modSlot k fun sl => { sl with cur := e }))
    rw [← parts] at untold
    by_cases mine : viewSlot u = k
    · subst mine
      refine .inr (untold.trans ((updateRating_ratingOk u u _).trans ?_))
      rw [if_pos rfl]
      have condition : (s.modSlot (viewSlot u) fun sl => { sl with cur := e }).condition u .ratingOk
          = (s.modSlot (viewSlot u) fun sl => { sl with cur := e }).rated u := by
        have busy : (((s.modSlot (viewSlot u) fun sl => { sl with cur := e }).slot (viewSlot u)).state == .free) = false := by
          rw [slot_modSlot_same]
          exact beq_eq_false_iff_ne.2 used
        unfold State.condition
        rw [busy]
        rfl
      rw [condition]
      refine (rated_congr (o := none) (s := s.modSlot (viewSlot u) fun sl => { sl with cur := e }) ?_ ?_).symm
      · rw [parts]
        exact ((Flow.refl none _).updateRating _).endPreview _
      · rw [(attends_setCurrent ..).2, if_pos rfl, slot_modSlot_same]
    · refine .inl ⟨by rw [cur, if_neg mine], untold.trans ?_⟩
      by_cases view : ∃ v, k = viewSlot v
      · obtain ⟨v, rfl⟩ := view
        rw [updateRating_ratingOk, if_neg fun e => mine (by rw [e])]
        rfl
      · unfold updateRating
        cases at_view : asView k with
        | none => rfl
        | some v => exact absurd ⟨v, (asView_iff.1 at_view).symm⟩ view

end Sys2Proof.Machine
end

