-- ==== Sys2Proof/Proofs/P37.lean ====
section
/-! SUPPORT. The reports of a placement where the places of the services concerned are clean: current events found afresh,
and orphans made (R26, R27, R107, R165). -/

namespace Sys2Proof.Machine

open Sys2Proof

variable {j k : Fin 5} {i : Fin 24} {sid : Nat} {s t w : State} {x e : GuideEvent} {g : Guide} {L : List Place}

/-! ### Slots on a service (R26) -/

theorem mem_slotsOf : k ∈ s.slotsOf sid ↔ (s.slot k).state ≠ .free ∧ (s.slot k).service = some sid := by
  unfold State.slotsOf
  rw [List.mem_filter]
  have all : ∀ k : Fin 5, k ∈ allSlots := by decide
  simp [all]

/-- A slot's current event, where the places of its service are clean: the one on air (R26). -/
theorem determine_clean (sorted : KeySorted (·.num) s.guide.places) (clean : s.intact sid)
    (on : (s.slot k).service = some sid) :
    determine k s = setCurrent k (Guide.currentAt s.guide.places sid s.now?) s := by
  unfold determine determineWith
  rw [on]
  cases hn : s.now? with
  | none => rfl
  | some now =>
    dsimp only
    have found : Guide.currentAt s.guide.places sid (some now) = (s.guide.onAirOf sid now).map (·.ev.current) := by
      unfold Guide.currentAt Guide.onAirOf GuideEvent.onAirAt
      simp only [Option.bind_some, Bool.and_assoc]
    rw [found]
    cases air : s.guide.onAirOf sid now with
    | none => rfl
    | some p =>
      have here := List.find?_some air
      simp only [Bool.and_eq_true, beq_iff_eq] at here
      have hp : p ∈ s.guide.places := List.mem_of_find?_eq_some air
      dsimp only
      rw [readPlace_clean sorted hp (clean p hp here.1)]
      rfl

/-- The slots on a service have their current events found afresh, and no others. -/
theorem touched_clean (sorted : KeySorted (·.num) s.guide.places) (clean : s.intact sid) :
    Revisits s (touched sid s) ∧ (touched sid s).schedule = s.schedule
      ∧ (∀ k ∈ s.slotsOf sid, ((touched sid s).slot k).cur = Guide.currentAt s.guide.places sid s.now?)
      ∧ ∀ k, k ∉ s.slotsOf sid → ((touched sid s).slot k).cur = (s.slot k).cur := by
  have each : ∀ (ks : List (Fin 5)) (t : State), ks ⊆ s.slotsOf sid → Revisits s t → Revisits s (forEach ks determine t)
      ∧ (forEach ks determine t).schedule = t.schedule ∧ ∀ k, ((forEach ks determine t).slot k).cur
        = if k ∈ ks then Guide.currentAt s.guide.places sid s.now? else (t.slot k).cur := by
    intro ks
    induction ks with
    | nil => exact fun t _ r => ⟨r, rfl, fun k => rfl⟩
    | cons a ks ih =>
      intro t sub r
      obtain ⟨used, on⟩ := mem_slotsOf.1 (r.slotsOf sid ▸ sub List.mem_cons_self)
      have set : determine a t = setCurrent a (Guide.currentAt s.guide.places sid s.now?) t := by
        rw [determine_clean (r.guide ▸ sorted) (by unfold State.intact; rw [r.guide]; exact clean) on, r.guide, r.now?]
      rw [forEach_cons]
      obtain ⟨all, table, cur⟩ := ih (determine a t) (fun b hb => sub (List.mem_cons_of_mem a hb))
        (r.trans (by rw [set]; exact revisits_setCurrent used _))
      refine ⟨all, table.trans (by rw [set, setCurrent_schedule]), fun k => ?_⟩
      rw [cur, set, (attends_setCurrent ..).2]
      by_cases e : k = a
      · simp [e]
      · simp [e]
  obtain ⟨all, table, cur⟩ := each (s.slotsOf sid) s (List.Subset.refl _) (.refl s)
  exact ⟨all, table, fun k hk => (cur k).trans (if_pos hk), fun k hk => (cur k).trans (if_neg hk)⟩

/-! ### Orphans (R165) -/

/-- An entry as the removals of some events leave it. -/
def Entry.orphanedBy (xs : List GuideEvent) (e : Entry) : Entry :=
  { e with orphan := e.orphan || xs.any fun x => e.tiedTo x.sid x.eid }

theorem orphanedBy_nil (e : Entry) : e.orphanedBy [] = e := by
  unfold Entry.orphanedBy
  simp

theorem orphanedBy_append (xs ys : List GuideEvent) (e : Entry) :
    (e.orphanedBy xs).orphanedBy ys = e.orphanedBy (xs ++ ys) := by
  unfold Entry.orphanedBy
  rw [List.any_append, Bool.or_assoc]
  rfl

theorem entry_orphanEntries (x : GuideEvent) (s : State) (i : Fin 24) :
    (orphanEntries x.sid x.eid s).entry i = (s.entry i).orphanedBy [x] := by
  have : (orphanEntries x.sid x.eid s).entry i
      = if (s.entry i).tiedTo x.sid x.eid then { s.entry i with orphan := true } else s.entry i := Vector.getElem_map _ _
  rw [this]
  unfold Entry.orphanedBy
  split
  · rename_i tied
    simp [tied]
  · rename_i untied
    simp [untied]

/-- The events of a placement's reports, and the services concerned: their slots have their current events found afresh,
and the entries tied to the events become orphans. -/
structure Reports (xs : List GuideEvent) (sids : List Nat) (s t : State) : Prop extends Revisits s t where
  entries : ∀ i, t.entry i = (s.entry i).orphanedBy xs
  current : ∀ sid ∈ sids, ∀ k ∈ s.slotsOf sid, (t.slot k).cur = Guide.currentAt s.guide.places sid s.now?
  others : ∀ k, (∀ sid ∈ sids, k ∉ s.slotsOf sid) → (t.slot k).cur = (s.slot k).cur

theorem Reports.refl (s : State) : Reports [] [] s s :=
  ⟨.refl s, fun _ => (orphanedBy_nil _).symm, fun _ h => (List.not_mem_nil h).elim, fun _ _ => rfl⟩

theorem Reports.trans {xs ys : List GuideEvent} {as bs : List Nat} (a : Reports xs as s t) (b : Reports ys bs t w) :
    Reports (xs ++ ys) (as ++ bs) s w := by
  have later : ∀ sid ∈ bs, ∀ k ∈ s.slotsOf sid, (w.slot k).cur = Guide.currentAt s.guide.places sid s.now? :=
    fun sid hb k hk => by
      rw [b.current sid hb k (a.slotsOf sid ▸ hk), a.guide, a.now?]
  refine ⟨a.toRevisits.trans b.toRevisits, fun _ => ?_, fun sid hs k hk => ?_, fun k none => ?_⟩
  · rw [b.entries, a.entries, orphanedBy_append]
  · rcases List.mem_append.1 hs with ha | hb
    · by_cases again : ∃ sid' ∈ bs, k ∈ s.slotsOf sid'
      · obtain ⟨sid', hb, hk'⟩ := again
        have same : sid' = sid := Option.some.inj ((mem_slotsOf.1 hk').2.symm.trans (mem_slotsOf.1 hk).2)
        subst same
        exact later _ hb k hk
      · rw [b.others k fun sid' hb hk' => again ⟨sid', hb, a.slotsOf sid' ▸ hk'⟩]
        exact a.current sid ha k hk
    · exact later sid hb k hk
  · rw [b.others k fun sid hb => by rw [a.slotsOf]; exact none sid (List.mem_append_right _ hb)]
    exact a.others k fun sid ha => none sid (List.mem_append_left _ ha)

theorem reports_touched (sorted : KeySorted (·.num) s.guide.places) (clean : s.intact sid) :
    Reports [] [sid] s (touched sid s) := by
  obtain ⟨revisits, table, current, others⟩ := touched_clean sorted clean
  refine ⟨revisits, fun i => ?_, fun b hb k hk => ?_, fun k none => others k (none sid (List.mem_singleton_self sid))⟩
  · rw [orphanedBy_nil]
    unfold State.entry
    rw [table]
  · rw [List.mem_singleton.1 hb] at hk ⊢
    exact current k hk

theorem reports_reportRemoval (sorted : KeySorted (·.num) s.guide.places) (clean : s.intact x.sid) :
    Reports [x] [x.sid] s (reportRemoval x s) := by
  have base := reports_touched sorted clean
  have orphan : Reports [x] [] (touched x.sid s) (orphanEntries x.sid x.eid (touched x.sid s)) :=
    ⟨⟨⟨fun _ => rfl, fun _ => .rfl, rfl⟩, rfl, rfl, rfl, rfl, fun _ => rfl, (Flow.refl none _).orphan _ _,
      fun _ => .inl ⟨rfl, rfl⟩⟩, fun i => entry_orphanEntries x _ i, fun _ h => (List.not_mem_nil h).elim, fun _ _ => rfl⟩
  exact base.trans orphan

/-- The reports of a placement. -/
theorem reports_reportsOf (sorted : KeySorted (·.num) g.places)
    (clean : ∀ x ∈ e :: L.map (·.ev), ∀ p ∈ g.places, p.ev.sid = x.sid → p.disturbed = 0) :
    Reports (L.map (·.ev)) ((L.map (·.ev)).map (·.sid) ++ [e.sid]) { s with guide := g } (s.reportsOf e L g) := by
  have each : ∀ (xs : List GuideEvent) (t : State), (∀ x ∈ xs, t.intact x.sid) → KeySorted (·.num) t.guide.places →
      Reports xs (xs.map (·.sid)) t (forEach xs reportRemoval t) := by
    intro xs
    induction xs with
    | nil => exact fun t _ _ => .refl t
    | cons x xs ih =>
      intro t clean sorted
      have first := reports_reportRemoval sorted (clean x List.mem_cons_self)
      rw [forEach_cons]
      refine first.trans (ih _ (fun y hy => ?_) (first.guide ▸ sorted))
      unfold State.intact
      rw [first.guide]
      exact clean y (List.mem_cons_of_mem x hy)
  have removals := each (L.map (·.ev)) { s with guide := g } (fun x hx => clean x (List.mem_cons_of_mem e hx)) sorted
  have last : Reports [] [e.sid] (forEach (L.map (·.ev)) reportRemoval { s with guide := g }) (s.reportsOf e L g) := by
    refine reports_touched (removals.guide ▸ sorted) ?_
    unfold State.intact
    rw [removals.guide]
    exact clean e List.mem_cons_self
  have := removals.trans last
  rwa [List.append_nil] at this

/-! ### Where nobody watches -/

theorem touched_unwatched (none : s.slotsOf sid = []) : touched sid s = s := by
  unfold touched touchedWith
  rw [none]
  rfl

theorem orphanEntries_untied {eid : Nat} (untied : ∀ i, (s.entry i).tiedTo sid eid = false) :
    orphanEntries sid eid s = s := by
  have table : s.schedule.map (fun e => if e.tiedTo sid eid then { e with orphan := true } else e) = s.schedule := by
    refine Vector.ext fun n hn => ?_
    have := untied ⟨n, hn⟩
    unfold State.entry at this
    rw [Vector.getElem_map, if_neg (by simpa using this)]
  unfold orphanEntries
  rw [table]

/-- A placement that no slot and no entry watches reports nothing. -/
theorem reportsOf_unwatched (mine : s.slotsOf e.sid = [])
    (gone : ∀ p ∈ L, s.slotsOf p.ev.sid = [] ∧ ∀ i, (s.entry i).tiedTo p.ev.sid p.ev.eid = false) :
    s.reportsOf e L g = { s with guide := g } := by
  have each : forEach (L.map (·.ev)) reportRemoval { s with guide := g } = { s with guide := g } := by
    refine forEach_keeps (P := fun t => t = { s with guide := g }) (fun x hx t ht => ?_) rfl
    obtain ⟨p, hp, rfl⟩ := List.mem_map.1 hx
    subst ht
    have still : touched p.ev.sid { s with guide := g } = { s with guide := g } := touched_unwatched (gone p hp).1
    unfold reportRemoval reportRemovalWith
    refine Eq.trans (congrArg _ still) ?_
    exact orphanEntries_untied (gone p hp).2
  unfold State.reportsOf
  rw [each]
  exact touched_unwatched mine

end Sys2Proof.Machine
end

