-- ==== Sys2Proof/Proofs/P38.lean ====
section
/-! SUPPORT. The entries tied to an event that follow a placement of it, one after another: as SCHEDULE_TRIGGER or RUN_END
of each, the others at their new times already (R161, R163, R165, log 31). -/

namespace Sys2Proof.Machine

open Sys2Proof

variable {k : Fin 5} {n i : Fin 24} {sid : Nat} {v : Service} {o : Origin} {e : GuideEvent} {W : Fin 24 → Bool} {c : Decision}
  {d : Delay} {s t u w x y z : State}

/-! ### What the action of one entry leaves of the others -/

/-- The work of one entry leaves the cores of the others, and wakes the part at most. -/
structure SparesOthers (n : Fin 24) (s t : State) : Prop where
  others : ∀ i, i ≠ n → (t.entry i).core = (s.entry i).core
  mode : t.mode = s.mode ∨ t.mode = .service

theorem SparesOthers.refl (n : Fin 24) (s : State) : SparesOthers n s s := ⟨fun _ _ => rfl, .inl rfl⟩

theorem acceptTune_mode (v : Service) (o : Origin) (k : Fin 5) (s : State) : (acceptTune v o k s).mode = s.mode := by
  obtain ⟨u, w, gated, -, looked, eq⟩ := exists_acceptTune v o k s
  have last : Flow none w (homeRedecide (claim (.slot k) v.carrier (releaseLeft (s.slot k).lane w))) :=
    (((Flow.refl none w).releaseLeft (nobody _) _).claim (nobody _) _ (by simp)).homeRedecide (nobody _)
  rw [eq, last.mode, looked.mode, gated.mode]
  rfl

theorem tuneForEntry_mode (n : Fin 24) (k : Fin 5) (sid : Nat) (s : State) : (tuneForEntry n k sid s).2.mode = s.mode := by
  unfold tuneForEntry
  split
  · rfl
  · split
    · rfl
    · split
      · rfl
      · split
        · exact (gated_takeOverSlot n k s).mode.trans rfl
        · exact acceptTune_mode ..

theorem missEntry_mode (c : MissCause) (n : Fin 24) (s : State) : (missEntry c n s).mode = s.mode := (gated_raise ..).mode

theorem doneEntry_mode (n : Fin 24) (s : State) : (doneEntry n s).mode = s.mode := (gated_raise ..).mode

theorem fireRecord_mode (n : Fin 24) (k : Fin 5) (sid : Nat) (s : State) : (fireRecord n k sid s).mode = s.mode := by
  unfold fireRecord
  split
  · exact missEntry_mode ..
  · exact (gated_raise ..).mode.trans (tuneForEntry_mode ..)

theorem fireView_mode (n : Fin 24) (sid : Nat) (s : State) : (fireView n sid s).mode = s.mode := by
  unfold fireView
  dsimp only
  split
  · exact (doneEntry_mode ..).trans ((gated_syncSlots ..).mode.trans (tuneForEntry_mode ..))
  · exact (missEntry_mode ..).trans (tuneForEntry_mode ..)

theorem fire_mode (n : Fin 24) (s : State) : (fire n s).mode = s.mode ∨ (fire n s).mode = .service := by
  unfold fire
  split
  · exact .inl (fireRecord_mode ..)
  · exact .inl (fireView_mode ..)
  · exact .inl (doneEntry_mode ..)
  · unfold fireWake
    split
    · exact .inr ((doneEntry_mode ..).trans (changeMode_mode ..))
    · exact .inl (doneEntry_mode ..)

theorem sparesOthers_missEntry (c : MissCause) (n : Fin 24) (running : s.restarting = false) : SparesOthers n s (missEntry c n s) :=
  ⟨((turns_modEntry .missed n (fun e : Entry => { e with state := .missed, missed := some c }) s).fires
    (by decide : EntryState.missed ≠ .armed) running).others, .inl (missEntry_mode ..)⟩

theorem sparesOthers_evaluate (n : Fin 24) (running : s.restarting = false) : SparesOthers n s (evaluate n s) := by
  unfold evaluate
  split
  · split
    · generalize decideEntry _ _ _ _ _ = c
      cases c with
      | fire => exact ⟨(fires_fire n running).others, fire_mode n s⟩
      | miss c => exact sparesOthers_missEntry c n running
      | stay => exact .refl n s
    · exact .refl n s
  · exact .refl n s

/-- A slot stopped: no entry changes but by interruptions. -/
theorem stopSlot_cores (k : Fin 5) (s : State) : Cores s (stopSlot k s) ∧ (stopSlot k s).mode = s.mode := by
  obtain ⟨w, gated, -, eq⟩ := exists_freeSlot .stopped k s
  have last : Flow none w (stopSlot k s) := by
    unfold stopSlot
    rw [eq]
    exact ((Flow.refl none w).releaseLeft (nobody _) _).homeRedecide (nobody _)
  have left : Cores s w := cores_of_schedule (gated.schedule.trans rfl)
  exact ⟨left.trans last.entryCores, last.mode.trans (gated.mode.trans rfl)⟩

theorem stopRun_cores (n : Fin 24) (s : State) : Cores s (stopRun n s) ∧ (stopRun n s).mode = s.mode := by
  unfold stopRun
  split
  · split
    · exact stopSlot_cores ..
    · exact ⟨.refl s, rfl⟩
  · exact ⟨.refl s, rfl⟩

theorem sparesOthers_checkEnd (n : Fin 24) (s : State) : SparesOthers n s (checkEnd n s) := by
  obtain ⟨cores, mode⟩ := stopRun_cores n s
  unfold checkEnd
  split
  · have turns := turns_modEntry .done n Entry.ended (stopRun n s)
    rw [endRun_eq]
    refine ⟨fun i hi => ?_, .inl ((gated_raise ..).mode.trans mode)⟩
    rw [turns.entry_ne hi]
    exact cores.entry i
  · exact .refl n s

/-! ### An entry retimed (R165) -/

/-- Some entries tied to an event wait for its times; the rises told are each twin's own. -/
def Delay.toward (e : GuideEvent) (W : Fin 24 → Bool) : Delay := { ev := e, waits := W, rises := false }

/-- An entry that waited takes the times of the event. -/
theorem Twin.retime (h : Twin (.toward e W) x y) (waits : W n = true) :
    Twin (.toward e fun i => W i && i != n) (x.modEntry n (Entry.retime e.start e.stop)) y := by
  have other : ∀ i, (W i && i != n) = true → W i = true ∧ n ≠ i := fun i hi => by
    simp only [Bool.and_eq_true, bne_iff_ne] at hi
    exact ⟨hi.1, fun e => hi.2 e.symm⟩
  refine ⟨?_, fun i => ?_, fun r => Bool.noConfusion r, fun i hi => ?_, fun some => h.intact ⟨n, waits⟩⟩
  · exact h.rest
  · have base := h.entries i
    by_cases same : n = i
    · subst same
      rw [entry_modEntry_same, base]
      simp [Delay.toward, waits]
    · have apart : (i != n) = true := bne_iff_ne.2 (Ne.symm same)
      rw [entry_modEntry_ne same, base]
      show (if W i = true then _ else _) = if (W i && i != n) = true then _ else _
      rw [apart, Bool.and_true]
      rfl
  · obtain ⟨hw, ne⟩ := other i hi
    rw [entry_modEntry_ne ne]
    exact h.tied i hw

/-- The rises of the one twin are dropped. -/
theorem Twin.dropRight (h : Twin d x y) (own : d.rises = false) : Twin d x { y with auxRises := [] } := by
  refine ⟨?_, h.entries, fun r => absurd (own.symm.trans r) (by decide), h.tied, h.intact⟩
  show ({ y with auxRises := [] } : State) = _
  rw [h.rest]
  rfl

/-- A state that is likewise but for its ports is as good a twin. -/
theorem Twin.served (h : Twin d x y) (served : Served y z) : Twin d x z := by
  have same : z = { y with link := z.link, out := z.out } := by
    have := congrArg (fun w : State => { w with link := z.link, out := z.out }) served.likewise
    exact this.symm
  have moved : Twin d { x with link := x.link, out := x.out } { y with link := z.link, out := z.out } := h.ports
  rw [same]
  exact moved

end Sys2Proof.Machine
end

