-- ==== Sys2Proof/Proofs/P39.lean ====
section
/-! SUPPORT. The rows that a placement brings on, run one after another (R165, log 31). -/

namespace Sys2Proof.Machine

open Sys2Proof

variable {n i : Fin 24} {e : GuideEvent} {W : Fin 24 → Bool} {s t u w x y z : State}

/-- The work of an entry that follows a placement: it is evaluated if it is ARMED, and else its end is compared. -/
def followWork (s : State) (n : Fin 24) : State → State :=
  if (s.entry n).state = .armed then evaluate n else checkEnd n

/-- The row that does the same. -/
def followRow (s : State) (n : Fin 24) : Instr :=
  if (s.entry n).state = .armed then .scheduleTrigger n else .runEnd n

theorem exec_followRow (s : State) (n : Fin 24) (y : State) :
    exec (followRow s n) y = .next (y.event (followWork s n)) := by
  unfold followRow followWork
  split <;> rfl

theorem acts_followWork (s : State) (n : Fin 24) (y : State) : Acts y (followWork s n y) := by
  unfold followWork
  split
  · exact (Acts.refl y).evaluate n
  · exact (Acts.refl y).checkEnd n

theorem sparesOthers_followWork (s : State) (n : Fin 24) (running : y.restarting = false) :
    SparesOthers n y (followWork s n y) := by
  unfold followWork
  split
  · exact sparesOthers_evaluate n running
  · exact sparesOthers_checkEnd n y

theorem Twin.followWork {d : Delay} (h : Twin d x y) (ready : d.waits n = false) (s : State) :
    Twin d (followWork s n x) (followWork s n y) := by
  unfold Machine.followWork
  split
  · exact h.evaluate ready
  · exact h.checkEnd ready

theorem retimeEntry_tied (same : (x.entry n).core = (s.entry n).core) (tied : (s.entry n).tiedTo e.sid e.eid = true) :
    retimeEntry e n x = followWork s n (x.modEntry n (Entry.retime e.start e.stop)) := by
  have state : (x.entry n).state = (s.entry n).state := (congrArg Entry.state same :)
  have trigger : (x.entry n).trigger = (s.entry n).trigger := (congrArg Entry.trigger same :)
  have here : (x.entry n).tiedTo e.sid e.eid = true := by
    unfold Entry.tiedTo at tied ⊢
    rw [state, trigger]
    exact tied
  unfold retimeEntry followWork
  rw [if_pos here]
  dsimp only
  have kept : ((x.modEntry n (Entry.retime e.start e.stop)).entry n).state = (s.entry n).state := by
    rw [entry_modEntry_same]
    exact state
  rw [kept]
  split <;> rfl

theorem retimeEntry_untied (same : (x.entry n).core = (s.entry n).core)
    (untied : (s.entry n).tiedTo e.sid e.eid = false) : retimeEntry e n x = x := by
  have state : (x.entry n).state = (s.entry n).state := (congrArg Entry.state same :)
  have trigger : (x.entry n).trigger = (s.entry n).trigger := (congrArg Entry.trigger same :)
  refine if_neg ?_
  unfold Entry.tiedTo at untied ⊢
  rw [state, trigger, untied]
  decide

/-- A row run on the twin whose entries have their times already. -/
structure FollowsRow (s : State) (n : Fin 24) (e : GuideEvent) (W : Fin 24 → Bool) (x y z : State) : Prop where
  twin : Twin (.toward e W) (followWork s n x) z
  live : z.live
  quiet : z.noRise
  link : z.link.rest = y.link.rest

theorem event_follows (h : Twin (.toward e W) x y) (ready : W n = false) (live : y.live) (quiet : y.noRise) (s : State) :
    FollowsRow s n e W x y (y.event (followWork s n)) := by
  have acts := acts_followWork s n y.clearOut
  have spares := sparesOthers_followWork s n (y := y.clearOut) live.running
  have cleared : Twin (.toward e W) x y.clearOut := h.served ⟨rfl, rfl⟩
  have worked := cleared.followWork (n := n) ready s
  have still : (followWork s n y.clearOut).noRise := acts.noRise quiet
  have served := served_event (followWork s n) live
  have core := acts.owned.core
  have power : (followWork s n y.clearOut).power = y.power := (congrArg State.power acts.calm :)
  have running : (followWork s n y.clearOut).restarting = y.restarting := acts.restarting
  have awake : (followWork s n y.clearOut).mode ≠ .boot := fun boot => by
    rcases spares.mode with kept | woken
    · exact live.mode (kept.symm.trans boot)
    · exact absurd (woken.symm.trans boot) (by decide)
  rw [settle_noRise still] at served
  generalize followWork s n y.clearOut = w at *
  generalize y.event (followWork s n) = z at *
  refine ⟨(worked.dropRight rfl).served served, ⟨?_, ?_, ?_, ?_⟩, fun i c => ?_, ?_⟩
  · exact (congrArg State.power served.likewise.symm :).trans (power.trans live.power)
  · exact (congrArg State.restarting served.likewise.symm :).trans (running.trans live.running)
  · rw [served.mode]
    exact awake
  · exact (congrArg State.auxRises served.likewise.symm :)
  · rw [served.entry]
    exact still i c
  · exact (congrArg (·.link) served.likewise.symm :).trans (rest_of_core core)

/-- The entries tied to the event follow it in turn: the rows do the same, run where the entries have their times
already. -/
theorem followers_run {ns : List (Fin 24)} (once : ns.Nodup)
    (same : ∀ i ∈ ns, (x.entry i).core = (s.entry i).core)
    (twin : Twin (.toward e fun i => decide (i ∈ ns) && (s.entry i).tiedTo e.sid e.eid) x y) (live : y.live)
    (quiet : y.noRise) :
    ∃ u, execAll ((ns.filter fun i => (s.entry i).tiedTo e.sid e.eid).map (followRow s)) y = .next u
      ∧ Twin (.toward e fun _ => false) (forEach ns (retimeEntry e) x) u ∧ u.auxRises = []
      ∧ u.link.rest = y.link.rest := by
  induction ns generalizing x y with
  | nil =>
    exact ⟨y, rfl, by simpa using twin, live.rises, rfl⟩
  | cons n ns ih =>
    obtain ⟨first, once⟩ := List.nodup_cons.1 once
    have apart : ∀ i ∈ ns, i ≠ n := fun i hi e => first (e ▸ hi)
    rw [forEach_cons]
    cases tied : (s.entry n).tiedTo e.sid e.eid with
    | false =>
      rw [List.filter_cons_of_neg (by simpa using tied), retimeEntry_untied (same n List.mem_cons_self) tied]
      refine ih once (fun i hi => same i (List.mem_cons_of_mem n hi)) ?_ live quiet
      convert twin using 3 with i
      by_cases here : i = n
      · rw [here, tied, Bool.and_false, Bool.and_false]
      · simp [here]
    | true =>
      rw [List.filter_cons_of_pos (by simpa using tied), List.map_cons]
      have moved := twin.retime (n := n) (by simp [tied])
      have waits : (fun i => decide (i ∈ n :: ns) && (s.entry i).tiedTo e.sid e.eid && i != n)
          = fun i => decide (i ∈ ns) && (s.entry i).tiedTo e.sid e.eid := funext fun i => by
        by_cases here : i = n
        · simp [here, first]
        · simp [here]
      rw [waits] at moved
      have ready : (fun i => decide (i ∈ ns) && (s.entry i).tiedTo e.sid e.eid) n = false := by simp [first]
      have row := event_follows moved ready live quiet s
      have spares := sparesOthers_followWork s n (y := x.modEntry n (Entry.retime e.start e.stop))
        (moved.restarting.symm.trans live.running)
      rw [retimeEntry_tied (same n List.mem_cons_self) tied]
      have kept : ∀ i ∈ ns, ((followWork s n (x.modEntry n (Entry.retime e.start e.stop))).entry i).core = (s.entry i).core :=
        fun i hi => by
          rw [spares.others i (apart i hi), entry_modEntry_ne (apart i hi).symm]
          exact same i (List.mem_cons_of_mem n hi)
      obtain ⟨u, run, last, rises, link⟩ := ih once kept row.twin row.live row.quiet
      refine ⟨u, ?_, last, rises, link.trans row.link⟩
      unfold execAll
      rw [exec_followRow]
      exact run

end Sys2Proof.Machine
end

