-- ==== Sys2Proof/Proofs/P40.lean ====
section
/-! SUPPORT. A placement where slots and entries watch: its reports, and then the rows of the entries tied to the event
(R26, R107, R165, log 31). -/

namespace Sys2Proof.Machine

open Sys2Proof

variable {i : Fin 24} {e : GuideEvent} {g : Guide} {L : List Place} {xs ys : List GuideEvent} {sids : List Nat}
  {r s t u : State}

/-! ### The state that the rows find -/

/-- The state after the reports of a placement, with each entry tied to the event at its new times. -/
def State.retimed (r : State) (e : GuideEvent) : State :=
  r.dressed r.link [] [] (r.schedule.map fun x => if x.tiedTo e.sid e.eid then x.retime e.start e.stop else x)

theorem entry_retimed (r : State) (e : GuideEvent) (i : Fin 24) : (r.retimed e).entry i
    = if (r.entry i).tiedTo e.sid e.eid then (r.entry i).retime e.start e.stop else r.entry i := Vector.getElem_map _ _

theorem tiedTo_orphanedBy (x : Entry) (sid eid : Nat) : (x.orphanedBy xs).tiedTo sid eid = x.tiedTo sid eid := rfl

theorem follows_eq (x : Entry) (e : GuideEvent) (xs : List GuideEvent) :
    (x.orphanedBy xs).retime e.start e.stop = x.follows e := by
  obtain ⟨trigger, action, _, _, _, _, _, _, _, _, _, _⟩ := x
  cases trigger <;> cases action <;> rfl

theorem tiedTo_trigger {x : Entry} (tied : x.tiedTo e.sid e.eid = true) : ∃ lead, x.trigger = .atEvent e.sid e.eid lead := by
  unfold Entry.tiedTo at tied
  rw [Bool.and_eq_true] at tied
  cases h : x.trigger with
  | atEvent a b lead =>
    rw [h] at tied
    simp only [Bool.and_eq_true, beq_iff_eq] at tied
    exact ⟨lead, by rw [tied.2.1, tied.2.2]⟩
  | atTime _ =>
    rw [h] at tied
    exact Bool.noConfusion tied.2
  | auxRise _ =>
    rw [h] at tied
    exact Bool.noConfusion tied.2

/-- The reports of a placement of an event, from a state that a request or event opens. -/
structure PlacedBy (s : State) (e : GuideEvent) (xs : List GuideEvent) (g : Guide) (w r : State) : Prop where
  reports : Reports xs (xs.map (·.sid) ++ [e.sid]) { w with guide := g } r
  clean : ∀ p ∈ g.places, p.ev.sid = e.sid → p.disturbed = 0
  opens : Served s w

section Placed

variable (p : PlacedBy s e xs g t r)
include p

theorem PlacedBy.entry (i : Fin 24) : r.entry i = (s.entry i).orphanedBy xs := by
  rw [p.reports.entries, ← p.opens.entry]
  rfl

theorem PlacedBy.slot (k : Fin 5) : ({ t with guide := g } : State).slot k = s.slot k := p.opens.slot k

theorem PlacedBy.slotsOf (sid : Nat) : ({ t with guide := g } : State).slotsOf sid = s.slotsOf sid := by
  have attends : Attends s { t with guide := g } := ⟨fun j => congrArg Slot.service (p.slot j),
    fun j => by rw [p.slot j], (congrArg State.clock p.opens.likewise.symm :)⟩
  exact attends.slotsOf sid

/-- The twin of the reports' result whose entries have their times already. -/
theorem PlacedBy.twin : Twin (.toward e fun i => decide (i ∈ allEntries) && (s.entry i).tiedTo e.sid e.eid) r (r.retimed e) := by
  have all : ∀ i : Fin 24, decide (i ∈ allEntries) = true := by decide
  have intact : r.intact e.sid := by
    unfold State.intact
    rw [p.reports.guide]
    exact p.clean
  have tied : ∀ i, (decide (i ∈ allEntries) && (s.entry i).tiedTo e.sid e.eid) = true →
      ∃ lead, (r.entry i).trigger = .atEvent e.sid e.eid lead := fun i tied => by
    obtain ⟨lead, trigger⟩ := tiedTo_trigger ((Bool.and_eq_true ..).mp tied).2
    exact ⟨lead, by rw [p.entry]; exact trigger⟩
  have entries : ∀ i, (r.retimed e).entry i = if (decide (i ∈ allEntries) && (s.entry i).tiedTo e.sid e.eid) = true
      then (r.entry i).retime e.start e.stop else r.entry i := fun i => by
    rw [entry_retimed, p.entry, tiedTo_orphanedBy, all, Bool.true_and]
  have rest : r.retimed e = r.dressed (r.retimed e).link (r.retimed e).out (r.retimed e).auxRises
      (r.retimed e).schedule := rfl
  exact ⟨rest, entries, fun own => Bool.noConfusion own, tied, fun _ => intact⟩

theorem PlacedBy.power : r.power = s.power := by
  have reported : r.power = t.power :=
    (congrArg State.power p.reports.flow.still :)
  have opened : t.power = s.power :=
    (congrArg State.power p.opens.likewise.symm :)
  rw [reported, opened]

theorem PlacedBy.restarting : r.restarting = s.restarting := by
  have reported : r.restarting = t.restarting :=
    (congrArg State.restarting p.reports.flow.still :)
  have opened : t.restarting = s.restarting :=
    (congrArg State.restarting p.opens.likewise.symm :)
  rw [reported, opened]

theorem PlacedBy.mode : r.mode = s.mode := by
  have reported : r.mode = t.mode := p.reports.flow.mode
  rw [reported, p.opens.mode]

theorem PlacedBy.parental : r.parental = s.parental := by
  have reported : r.parental = t.parental :=
    (congrArg State.parental p.reports.flow.still :)
  rw [reported, p.opens.parental]

theorem PlacedBy.live (live : s.live) : (r.retimed e).live where
  power := p.power.trans live.power
  running := p.restarting.trans live.running
  mode := fun boot => live.mode (p.mode.symm.trans boot)
  rises := rfl

theorem PlacedBy.noRise (quiet : s.noRise) : (r.retimed e).noRise := fun i c armed => by
  rw [entry_retimed, p.entry, tiedTo_orphanedBy] at armed ⊢
  by_cases tied : (s.entry i).tiedTo e.sid e.eid
  · rw [if_pos tied] at armed ⊢
    exact quiet i c armed
  · rw [if_neg tied] at armed ⊢
    exact quiet i c armed

theorem PlacedBy.rest : r.link.rest = s.link.rest := by
  have reported : r.link.core = t.link.core :=
    (congrArg State.link p.reports.flow.still :)
  have opened : t.link.rest = s.link.rest :=
    (congrArg State.link p.opens.likewise.symm :)
  rw [rest_of_core reported, opened]

theorem PlacedBy.now : ({ t with guide := g } : State).now? = s.now? := by
  have clock : t.clock = s.clock :=
    (congrArg State.clock p.opens.likewise.symm :)
  unfold State.now?
  rw [← clock]

theorem PlacedBy.profileOf (k : Fin 5) : r.profileOf k = s.profileOf k := by
  have reported := congrArg Slot.profile (slot_core_of_flow p.reports.flow k)
  rw [p.slot] at reported
  have profile : (r.slot k).profile = (s.slot k).profile := reported
  unfold State.profileOf State.profile
  rw [profile, p.parental]

theorem PlacedBy.sweep : r.sweep = s.sweep := by
  have reported : r.sweep = t.sweep := p.reports.sweep
  have opened : t.sweep = s.sweep :=
    (congrArg State.sweep p.opens.likewise.symm :)
  rw [reported, opened]

theorem PlacedBy.lane (k : Fin 5) : (r.slot k).lane = (s.slot k).lane := by
  rw [p.reports.lane, p.slot]

/-- What movement does not touch is as it was. -/
theorem PlacedBy.cores : ({ r.retimed e with schedule := s.schedule } : State).cores = s.cores := by
  have reported := congrArg (fun z : State => { z with link := s.link.rest, schedule := s.schedule.map Entry.core })
    p.reports.flow.still
  have opened := congrArg (fun z : State => { z.still with link := s.link.rest, schedule := s.schedule.map Entry.core })
    p.opens.likewise
  have left : ({ r.retimed e with schedule := s.schedule } : State).cores
      = { r.still with link := r.link.rest, schedule := s.schedule.map Entry.core } := rfl
  rw [left, p.rest]
  exact reported.trans opened.symm

/-- What the reports of a placement leave before any entry acts. -/
theorem PlacedBy.placedInto (same : ∀ x, x ∈ ys ↔ x ∈ xs) : s.placedInto (r.retimed e) e ys g := by
  have mem : ∀ x, x ∈ e :: ys → x.sid ∈ xs.map (·.sid) ++ [e.sid] := fun x hx => by
    rcases List.mem_cons.1 hx with rfl | hx
    · exact List.mem_append_right _ (List.mem_singleton_self _)
    · exact List.mem_append_left _ (List.mem_map_of_mem ((same x).1 hx))
  refine ⟨p.reports.guide, rfl, fun i => ?_, fun x hx k hk => ?_, fun k none => ?_, fun u changed => ?_, ?_, p.cores⟩
  · rw [entry_retimed, p.entry, tiedTo_orphanedBy]
    by_cases tied : (s.entry i).tiedTo e.sid e.eid
    · rw [if_pos tied, if_pos tied, follows_eq]
    · rw [if_neg tied, if_neg tied]
      have any : (xs.any fun x => (s.entry i).tiedTo x.sid x.eid) = ys.any fun x => (s.entry i).tiedTo x.sid x.eid := by
        rw [Bool.eq_iff_iff, List.any_eq_true, List.any_eq_true]
        simp only [same]
      unfold Entry.orphanedBy
      rw [any]
  · have current := p.reports.current x.sid (mem x hx) k (by rw [p.slotsOf]; exact hk)
    rw [p.now] at current
    exact current
  · have others := p.reports.others k fun sid hs => by
      rw [p.slotsOf]
      rcases List.mem_append.1 hs with hs | hs
      · obtain ⟨x, hx, rfl⟩ := List.mem_map.1 hs
        exact none x (List.mem_cons_of_mem e ((same x).2 hx))
      · rw [List.mem_singleton.1 hs]
        exact none e List.mem_cons_self
    rw [p.slot] at others
    exact others
  · rcases p.reports.rating u with ⟨cur, -⟩ | found
    · rw [p.slot] at cur
      exact absurd cur changed
    · rw [State.rated, p.profileOf] at found
      exact found
  · exact ⟨p.reports.lanes.trans p.opens.lanes, p.reports.arb.trans p.opens.arb, p.sweep, p.lane⟩

/-- The rows of a placement, run from there, do what the schedule unit does with its report. -/
theorem PlacedBy.follows (live : s.live) (quiet : s.noRise) : ∃ u, execAll (s.followers e) (r.retimed e) = .next u
    ∧ Twin (.toward e fun _ => false) (forEach allEntries (retimeEntry e) r) u ∧ u.auxRises = []
    ∧ u.link.rest = s.link.rest := by
  have once : allEntries.Nodup := by decide
  obtain ⟨u, run, twin, rises, link⟩ := followers_run (s := s) once (fun i _ => by rw [p.entry]; rfl) p.twin (p.live live)
    (p.noRise quiet)
  exact ⟨u, run, twin, rises, link.trans p.rest⟩

end Placed

/-- Twins without a delay are likewise, once the rises of one are dropped. -/
theorem Twin.likewise {W : Fin 24 → Bool} (h : Twin (.toward e W) r u) (none : ∀ i, W i = false) (rises : u.auxRises = [])
    (link : u.link.rest = r.link.rest) : ({ r with auxRises := [] } : State).likewise u := by
  have schedule : u.schedule = r.schedule := by
    refine Vector.ext fun n hn => ?_
    have := h.entries ⟨n, hn⟩
    rw [show (Delay.toward e W).waits ⟨n, hn⟩ = false from none _] at this
    exact this
  unfold State.likewise
  rw [link, h.rest]
  dsimp only [State.dressed]
  rw [rises, schedule]

end Sys2Proof.Machine
end

