-- ==== Sys2Proof/Proofs/P41.lean ====
section
/-! SUPPORT. GUIDE_PUT by what becomes of its event, and the same for a GUIDE_EVENT record (R61, R104, R105, R110). -/

namespace Sys2Proof.Machine

open Sys2Proof

variable {l : Fin 3} {n : Nat} {kind tag : Byte} {e : GuideEvent} {g : Guide} {req : GuideReq} {f : Req} {L : List Place}
  {out : Option (Nat × Nat)} {gone : List Nat} {body : List Byte} {bytes record : List Byte} {d : Delay}
  {r s t u w x y : State}

/-! ### What GUIDE_PUT answers (R110) -/

/-- The fields of a reply of GUIDE_PUT after its outcome. -/
def putFields (e : GuideEvent) (gone : List Nat) (out : Option (Nat × Nat)) : List Byte :=
  u8 e.rating ++ u8 e.preview ++ u16 gone.length ++ opt 6 (fun p : Nat × Nat => u16 p.1 ++ u32 p.2) out
    ++ (gone.take 16).flatMap u32

theorem guidePutAnswer_body (e : GuideEvent) {k : Taken} (taken : k ≠ .dropped) :
    (guidePutAnswer e k).body = reply .ok (u8 k.code ++ putFields e k.displaced k.evicted) := by
  unfold guidePutAnswer putFields
  rw [if_neg taken]
  simp only [answer, List.append_assoc]

/-! ### A GUIDE_PUT that nobody watches -/

/-- A request whose owner leaves the link port: it is answered, and the owner's state goes on. -/
theorem serve_leaves (h : s.ready) (hf : (f s.opened).2 = u.opened) (link : u.link = s.link) (rises : u.auxRises = []) :
    s.answered (s.serve kind tag f) kind tag (f s.opened).1.body ∧ u.unmoved (s.serve kind tag f) := by
  have settled : settle (f s.opened).2 = u.opened := by
    rw [hf]
    exact settle_none rises
  refine ⟨serve_answered kind tag f h (by rw [settled]; exact congrArg (fun l : Link => ({ l with goodFrames := l.goodFrames + 1 } : Link).core) link), ?_⟩
  obtain ⟨p, -, e⟩ := serve_ready kind tag f h
  rw [e, settled]
  exact ⟨by rw [startTx_bare]; rfl, startTx_onward (u.opened.modLink (Link.pushReply p)), rfl⟩

theorem guidePutReq_eq (ok : req.inRange) (writes : req.writes e) (s : State) :
    guidePutReq req s = (guidePutAnswer e (takeEventRecord e s).1, (takeEventRecord e s).2) := by
  unfold guidePutReq
  rw [readGuide_writes ok writes]

theorem takeEventRecord_other {k : Taken} (eq : takeGuide e s = (k, t)) (no : ∀ a b c, k ≠ .placed a b c) :
    takeEventRecord e s = (k, t) := by
  unfold takeEventRecord
  rw [eq]
  cases k with
  | placed a b c => exact absurd rfl (no a b c)
  | past => rfl
  | duplicate => rfl
  | dropped => rfl

theorem takeEventRecord_placed {a : Bool} {b : List Nat} {c : Option (Nat × Nat)} (eq : takeGuide e s = (.placed a b c, t)) :
    takeEventRecord e s = (.placed a b c, forEach allEntries (retimeEntry e) t) := by
  unfold takeEventRecord
  rw [eq]

theorem retime_untied (untied : ∀ i, (s.entry i).tiedTo e.sid e.eid = false) : forEach allEntries (retimeEntry e) s = s := by
  refine forEach_keeps (P := fun t => t = s) (fun i _ t ht => ?_) rfl
  rw [ht]
  exact retimeEntry_untied (s := s) rfl (untied i)

/-- A GUIDE_PUT whose event moves nothing but the guide store. -/
theorem guidePut_puts {k : Taken} (h : s.ready) (ok : req.inRange) (writes : req.writes e)
    (takes : takeEventRecord e s.opened = (k, ({ s with guide := g } : State).opened))
    (answers : (guidePutAnswer e k).body = body) :
    ∃ t, exec (.guidePut tag req) s = .next t ∧ s.answered t 0x28 tag body ∧ ({ s with guide := g } : State).unmoved t := by
  have eq := guidePutReq_eq ok writes s.opened
  rw [takes] at eq
  obtain ⟨answered, unmoved⟩ := serve_leaves (kind := 0x28) (tag := tag) (f := guidePutReq req) (u := { s with guide := g }) h
    (by rw [eq]) rfl h.rises
  rw [eq] at answered
  dsimp only at answered
  rw [answers] at answered
  exact ⟨_, rfl, answered, unmoved⟩

/-! ### A GUIDE_PUT that slots and entries watch -/

theorem guidePut_tells {a : Bool} {b : List Nat} {c : Option (Nat × Nat)} {gone : List GuideEvent} (h : s.ready)
    (quiet : s.noRise) (ok : req.inRange) (writes : req.writes e)
    (takes : takeGuide e s.opened = (.placed a b c, s.opened.reportsOf e L g))
    (answers : (guidePutAnswer e (.placed a b c)).body = body)
    (same : ∀ x, x ∈ gone ↔ x ∈ L.map (·.ev)) (sorted : KeySorted (·.num) g.places)
    (clean : ∀ x ∈ e :: gone, ∀ p ∈ g.places, p.ev.sid = x.sid → p.disturbed = 0) :
    ∃ t t0 u, exec (.guidePut tag req) s = .next t ∧ s.answered t 0x28 tag body ∧ s.placedInto t0 e gone g
      ∧ execAll (s.followers e) t0 = .next u ∧ t.likewise u := by
  have reports := reports_reportsOf (s := s.opened) (e := e) (L := L) sorted fun x hx => clean x (by
    rcases List.mem_cons.1 hx with rfl | hx
    · exact List.mem_cons_self
    · exact List.mem_cons_of_mem e ((same x).2 hx))
  have placed : PlacedBy s e (L.map (·.ev)) g s.opened (s.opened.reportsOf e L g) :=
    ⟨reports, clean e List.mem_cons_self, served_opened s⟩
  have eq := guidePutReq_eq ok writes s.opened
  have runs : Runs s.opened (takeEventRecord e s.opened).2 := (Runs.refl _).takeEventRecord e
  rw [takeEventRecord_placed takes] at eq runs
  obtain ⟨u, run, twin, rises, link⟩ := placed.follows h.tolive quiet
  generalize s.opened.reportsOf e L g = r at *
  generalize forEach allEntries (retimeEntry e) r = v at *
  have core := runs.owned.core
  have settled : settle v = { v with auxRises := [] } := settle_noRise (runs.rise quiet)
  have served := served_serve 0x28 tag (guidePutReq req) h
  have answered := serve_answered 0x28 tag (guidePutReq req) h (by rw [eq]; dsimp only; rw [settled]; exact core)
  rw [eq] at served answered
  dsimp only at served answered
  rw [settled] at served
  rw [answers] at answered
  have like := twin.likewise (fun _ => rfl) rises (link.trans (rest_of_core core).symm)
  exact ⟨_, r.retimed e, u, rfl, answered, placed.placedInto same, run, served.likewise.symm.trans like⟩

end Sys2Proof.Machine
end

