-- ==== Sys2Proof/Proofs/P42.lean ====
section
/-! SUPPORT. An event taken by two states that differ in their ports alone (R104, R105, R165). -/

namespace Sys2Proof.Machine

open Sys2Proof

variable {l : Fin 3} {n : Fin 24} {tag : Byte} {e : GuideEvent} {req : GuideReq} {bytes record : List Byte} {old : Option Place}
  {hit : List Place} {out : Option Place} {s t u x y : State}

/-- The guide store changed in both. -/
theorem Twin.setGuide (h : Twin .none x y) (f : Guide → Guide) : Twin .none (x.modGuide f) (y.modGuide f) := by
  refine ⟨?_, h.entries, h.rises, h.tied, fun some => some.elim fun _ h => Bool.noConfusion h⟩
  show y.modGuide f = (x.modGuide f).dressed y.link y.out y.auxRises y.schedule
  rw [h.rest]
  rfl

theorem Twin.countGuide (h : Twin .none x y) (f : GuideCounters → GuideCounters) :
    Twin .none (x.modGuideCounters f) (y.modGuideCounters f) := h.setGuide _

/-- What becomes of an event that is counted alone. -/
theorem Twin.counts (h : Twin .none x y) (k : Taken) (f : GuideCounters → GuideCounters) :
    (k, y.modGuideCounters f).1 = (k, x.modGuideCounters f).1
      ∧ Twin .none (k, x.modGuideCounters f).2 (k, y.modGuideCounters f).2 := ⟨rfl, h.countGuide f⟩

theorem Twin.reportRemoval (h : Twin .none x y) (e : GuideEvent) :
    Twin .none (reportRemoval e x) (reportRemoval e y) :=
  h.reportRemovalWith twinRead_readPlace fun some => some.elim fun _ h => Bool.noConfusion h

theorem Twin.putEvent (h : Twin .none x y) (e : GuideEvent) (old : Option Place) (hit : List Place) (out : Option Place) :
    Twin .none (putEvent e old hit out x) (putEvent e old hit out y) := by
  unfold Machine.putEvent
  dsimp only
  generalize (fun g : Guide => ({ Guide.write (lowestFree 0 ((old.toList ++ hit ++ out.toList).foldl
    (fun g p => Guide.remove p.num g) g).places) e ((old.toList ++ hit ++ out.toList).foldl
    (fun g p => Guide.remove p.num g) g) with counters := ((old.toList ++ hit ++ out.toList).foldl
    (fun g p => Guide.remove p.num g) g).counters.place old.isSome hit.length out.isSome } : Guide)) = put
  have removed := (h.setGuide put).forEach (L := (old.toList ++ hit ++ out.toList).map (·.ev)) (f := Machine.reportRemoval)
    fun x _ _ _ hu => hu.reportRemoval x
  exact removed.touched e.sid

theorem Twin.placeEvent (h : Twin .none x y) (e : GuideEvent) (old : Option Place) :
    (placeEvent e old y).1 = (placeEvent e old x).1 ∧ Twin .none (placeEvent e old x).2 (placeEvent e old y).2 := by
  unfold Machine.placeEvent
  rw [h.guide]
  dsimp only
  split
  · exact ⟨rfl, h.putEvent ..⟩
  · split
    · split
      · exact ⟨rfl, h.putEvent ..⟩
      · exact h.counts _ _
    · exact h.counts _ _

theorem Twin.isPast (h : Twin .none x y) (e : GuideEvent) : y.isPast e = x.isPast e := by
  unfold State.isPast
  rw [h.now?]

theorem Twin.takeGuide (h : Twin .none x y) (e : GuideEvent) :
    (takeGuide e y).1 = (takeGuide e x).1 ∧ Twin .none (takeGuide e x).2 (takeGuide e y).2 := by
  unfold Machine.takeGuide
  rw [h.isPast, h.guide]
  split
  · exact h.counts _ _
  · split
    · exact h.placeEvent e _
    · rename_i p _
      obtain ⟨same, read⟩ := twinRead_readPlace p.num x y h
      generalize readPlace p.num x = a at *
      generalize readPlace p.num y = b at *
      obtain ⟨a1, a2⟩ := a
      obtain ⟨b1, b2⟩ := b
      dsimp only at same read ⊢
      subst same
      cases b1 with
      | none => exact read.placeEvent e _
      | some held =>
        dsimp only
        split
        · exact read.counts _ _
        · exact read.placeEvent e _

theorem Twin.retimeEntry (h : Twin .none x y) (e : GuideEvent) (n : Fin 24) :
    Twin .none (retimeEntry e n x) (retimeEntry e n y) := by
  unfold Machine.retimeEntry
  rw [h.entry rfl]
  split
  · have timed := h.turnEntry (n := n) rfl (Entry.retime e.start e.stop) (fun x => by rfl)
    dsimp only
    rw [timed.entry rfl]
    split
    · exact timed.evaluate rfl
    · exact timed.checkEnd rfl
  · exact h

theorem Twin.takeEventRecord (h : Twin .none x y) (e : GuideEvent) :
    Twin .none (takeEventRecord e x).2 (takeEventRecord e y).2 := by
  obtain ⟨same, taken⟩ := h.takeGuide e
  cases mine : Machine.takeGuide e x with
  | mk k u =>
  cases yours : Machine.takeGuide e y with
  | mk k' v =>
  rw [mine, yours] at same taken
  dsimp only at same taken
  subst same
  cases k' with
  | placed p q r =>
    have all := taken.forEach (L := allEntries) (f := Machine.retimeEntry e) fun i _ _ _ hu => hu.retimeEntry e i
    rw [takeEventRecord_placed mine, takeEventRecord_placed yours]
    dsimp only
    exact all
  | past =>
    rw [takeEventRecord_other mine (by simp), takeEventRecord_other yours (by simp)]
    exact taken
  | duplicate =>
    rw [takeEventRecord_other mine (by simp), takeEventRecord_other yours (by simp)]
    exact taken
  | dropped =>
    rw [takeEventRecord_other mine (by simp), takeEventRecord_other yours (by simp)]
    exact taken

/-- Twins whose entries and rises are the same are likewise. -/
theorem Twin.same (h : Twin .none x y) (link : y.link.rest = x.link.rest) : x.likewise y := by
  have schedule : y.schedule = x.schedule := by
    refine Vector.ext fun n hn => ?_
    exact h.entries ⟨n, hn⟩
  have rises : y.auxRises = x.auxRises := h.rises rfl
  unfold State.likewise
  rw [link, h.rest]
  dsimp only [State.dressed]
  rw [rises, schedule]

/-! ### A GUIDE_EVENT record (R61, R104) -/

theorem deliver_event (event : guideEventOf record = some e) (s : State) :
    deliver l { kind := 3, bytes := record } s = (takeEventRecord e s).2 := by
  simp only [deliver, event]

theorem deliver_badEvent (bad : guideEventOf record = none) (s : State) :
    deliver l { kind := 3, bytes := record } s = s.streamRecordBad := by
  simp only [deliver, bad]

section Brought

variable (b : s.brings l bytes 3 record)
include b

/-- A cell that brings a record of the guide delivers it. -/
theorem cellEvent_brings : cellEvent l bytes s = deliver l { kind := 3, bytes := record } s := by
  obtain ⟨locked, clear, ⟨f, x, found, dest, takes⟩, rec⟩ := b
  rw [cellEvent_locked locked, routeCell_control (by rw [clear]; decide) found dest]
  unfold controlCell
  rw [if_neg (by rw [clear]; decide), rec]
  exact if_pos takes

theorem brings_clearOut : s.clearOut.brings l bytes 3 record := ⟨b.locked, b.clear, b.entry, b.record⟩

/-- The cell of a GUIDE_EVENT record does what the GUIDE_PUT of its event does. -/
theorem cell_takesEvent (ready : s.ready) (event : guideEventOf record = some e) (ok : req.inRange)
    (writes : req.writes e) : ∃ t u, exec (.cell l bytes) s = .next t ∧ exec (.guidePut tag req) s = .next u
      ∧ s.unanswered t ∧ t.likewise u := by
  have work : cellEvent l bytes s.clearOut = (takeEventRecord e s.clearOut).2 := by
    rw [cellEvent_brings (brings_clearOut b), deliver_event event]
  have opens : Twin .none s.clearOut s.opened := (Twin.refl s.clearOut).served (z := s.opened) ⟨rfl, rfl⟩
  have taken := (opens.takeEventRecord e).settle rfl fun _ => rfl
  have runs : Runs s.clearOut (takeEventRecord e s.clearOut).2 := (Runs.refl _).takeEventRecord e
  have runs' : Runs s.opened (takeEventRecord e s.opened).2 := (Runs.refl _).takeEventRecord e
  have core := (runs.owned.trans (settle_owned _)).core
  have core' := (runs'.owned.trans (settle_owned _)).core
  have event := served_event (cellEvent l bytes) ready.tolive
  have unanswered := event_unanswered (cellEvent l bytes) ready.tolive (by rw [work]; exact core)
  have put := served_serve 0x28 tag (guidePutReq req) ready
  rw [guidePutReq_eq ok writes] at put
  dsimp only at put
  rw [work] at event
  generalize settle (takeEventRecord e s.clearOut).2 = a at *
  generalize settle (takeEventRecord e s.opened).2 = c at *
  have like : a.likewise c := taken.same ((rest_of_core core').trans (rest_of_core core).symm)
  exact ⟨_, _, rfl, rfl, unanswered, event.likewise.symm.trans (like.trans put.likewise)⟩

/-- The cell of a record that fails its fields is bad. -/
theorem cell_badEvent (live : s.live) (bad : guideEventOf record = none) :
    ∃ t, exec (.cell l bytes) s = .next t ∧ s.discards t := by
  refine ⟨_, rfl, event_discards (cellEvent l bytes) live ?_⟩
  rw [cellEvent_brings (brings_clearOut b), deliver_badEvent bad]

end Brought

end Sys2Proof.Machine
end

