-- ==== Sys2Proof/Proofs/P43.lean ====
section
/-! GUIDE_PUT and GUIDE_EVENT: what becomes of an event (R26, R27, R104 to R107, R110, R165). -/

namespace Sys2Proof.Machine

open Sys2Proof

variable {n now : Nat} {tag : Byte} {e held : GuideEvent} {req : GuideReq} {p x : Place} {L : List Place} {s t u : State}

/-! ### What goes, named (R106) -/

theorem ousts_sid (picked : e.ousts p = true) : p.ev.sid = e.sid := by
  unfold GuideEvent.ousts at picked
  simp only [Bool.and_eq_true, beq_iff_eq] at picked
  exact picked.1

theorem mem_displaces (hp : p ∈ s.guide.places) (picked : e.ousts p = true) :
    p.ev.eid ∈ e.eid :: e.displaces s.guide := by
  by_cases mine : p.ev.eid = e.eid
  · rw [mine]
    exact List.mem_cons_self
  · refine List.mem_cons_of_mem _ (List.mem_filter.2 ⟨List.mem_map_of_mem (mem_gone.2 ⟨hp, picked⟩), ?_⟩)
    simpa using mine

/-- The places of a store with an event put in it are clean where those that stay are. -/
theorem keyPut_clean {kept : List Place} {sid : Nat} (stay : ∀ p ∈ kept, p ∈ s.guide.places) (clean : s.intact sid) :
    ∀ p ∈ keyPut (·.num) { num := n, ev := e } kept, p.ev.sid = sid → p.disturbed = 0 := fun p hp on => by
  rcases mem_keyPut hp with rfl | hp
  · rfl
  · exact clean p (stay p hp) on

/-! ### An event counted alone (R105) -/

theorem placed_body (e : GuideEvent) (s : State) : (guidePutAnswer e (.placed (e.replaces s.guide) (e.displaces s.guide) none)).body
    = reply .ok (u8 (if e.replaces s.guide then 1 else 0) ++ putFields e (e.displaces s.guide) none) := by
  rw [guidePutAnswer_body e (by simp)]
  cases e.replaces s.guide <;> rfl

section Taken

variable (ready : s.ready) (ok : req.inRange) (writes : req.writes e)
include ready ok writes

theorem guidePut_past (known : s.now? = some now) (late : e.stop + 3600 ≤ now) :
    ∃ t, exec (.guidePut tag req) s = .next t ∧ s.answered t 0x28 tag (reply .ok (u8 3 ++ putFields e [] none))
      ∧ ({ s with guide := { s.guide with counters := { s.guide.counters with past := s.guide.counters.past + 1 } } } :
        State).unmoved t :=
  guidePut_puts ready ok writes (takeEventRecord_other (takeGuide_past (s := s.opened) known late) (by simp))
    (guidePutAnswer_body e (k := .past) (by decide))

theorem guidePut_duplicate (recent : s.isPast e = false) (listed : s.listed held) (sid : held.sid = e.sid)
    (eid : held.eid = e.eid) (version : held.version = e.version) :
    ∃ t, exec (.guidePut tag req) s = .next t ∧ s.answered t 0x28 tag (reply .ok (u8 2 ++ putFields e [] none))
      ∧ ({ s with guide := { s.guide with counters := { s.guide.counters with duplicate := s.guide.counters.duplicate + 1 } } } :
        State).unmoved t :=
  guidePut_puts ready ok writes
    (takeEventRecord_other (takeGuide_duplicate (s := s.opened) recent listed sid eid version) (by simp))
    (guidePutAnswer_body e (k := .duplicate) (by decide))

/-! ### An event placed (R106, R107, R165) -/

section Takes

variable (recent : s.isPast e = false) (sound : s.guide.ok)
  (fresh : ∀ p ∈ s.guide.places, p.ev.sid = e.sid → p.ev.eid = e.eid → p.ev.version ≠ e.version ∧ p.disturbed = 0)
  (small : n < 2048) (free : ∀ p ∈ s.guide.places.filter fun p => !e.ousts p, p.num ≠ n)
  (below : ∀ m, m < n → ∃ p ∈ s.guide.places.filter fun p => !e.ousts p, p.num = m)
include recent sound fresh small free below

theorem guidePut_takes (unwatched : s.unwatched e.sid (e.eid :: e.displaces s.guide)) :
    ∃ t, exec (.guidePut tag req) s = .next t
      ∧ s.answered t 0x28 tag (reply .ok (u8 (if e.replaces s.guide then 1 else 0) ++ putFields e (e.displaces s.guide) none))
      ∧ ({ s with guide := s.guide.takes e n } : State).unmoved t := by
  obtain ⟨L, mem, taken⟩ := takeGuide_takes (s := s.opened) recent sound fresh small free below
  obtain ⟨nobody, untied⟩ := unwatched
  have still : s.opened.reportsOf e L (s.guide.takes e n) = ({ s with guide := s.guide.takes e n } : State).opened :=
    reportsOf_unwatched nobody fun p hp => by
      obtain ⟨hp, picked⟩ := (mem p).1 hp
      rw [ousts_sid picked]
      exact ⟨nobody, fun i => untied i _ (mem_displaces hp picked)⟩
  have all := takeEventRecord_placed taken
  rw [show s.opened.guide.takes e n = s.guide.takes e n from rfl, still,
    retime_untied (s := ({ s with guide := s.guide.takes e n } : State).opened)
      fun i => untied i _ List.mem_cons_self] at all
  exact guidePut_puts ready ok writes all (placed_body e s)

theorem guidePut_takes_watched (quiet : s.noRise) (clean : ∀ x ∈ e :: (e.gone s.guide).map (·.ev), s.intact x.sid) :
    ∃ t t0 u, exec (.guidePut tag req) s = .next t
      ∧ s.answered t 0x28 tag (reply .ok (u8 (if e.replaces s.guide then 1 else 0) ++ putFields e (e.displaces s.guide) none))
      ∧ s.placedInto t0 e ((e.gone s.guide).map (·.ev)) (s.guide.takes e n)
      ∧ execAll (s.followers e) t0 = .next u ∧ t.likewise u := by
  obtain ⟨L, mem, taken⟩ := takeGuide_takes (s := s.opened) recent sound fresh small free below
  have same : ∀ x, x ∈ (e.gone s.guide).map (·.ev) ↔ x ∈ L.map (·.ev) := fun x => by
    rw [List.mem_map, List.mem_map]
    exact exists_congr fun p => and_congr_left fun _ => mem_gone.trans (mem p).symm
  have stay : ∀ p ∈ s.guide.places.filter fun p => !e.ousts p, p ∈ s.guide.places := fun p hp => (List.mem_filter.1 hp).1
  exact guidePut_tells ready quiet ok writes taken (placed_body e s) same
    (keySorted_keyPut _ (List.Pairwise.filter _ sound.1)) fun x hx => keyPut_clean stay (clean x hx)

end Takes

/-! ### A full store (R106) -/

section Full

variable (recent : s.isPast e = false) (sound : s.guide.ok) (apart : ∀ p ∈ s.guide.places, e.apart p.ev)
  (full : 2048 ≤ s.guide.places.length) (last : s.guide.last x)
include recent sound apart full last

theorem guidePut_drops (later : x.ev.start ≤ e.start) :
    ∃ t, exec (.guidePut tag req) s = .next t ∧ s.answered t 0x28 tag (reply .full)
      ∧ ({ s with guide := { s.guide with counters := { s.guide.counters with droppedFull := s.guide.counters.droppedFull + 1 } } } :
        State).unmoved t :=
  guidePut_puts ready ok writes
    (takeEventRecord_other (takeGuide_drops (s := s.opened) recent sound apart full last later) (by simp)) rfl

/-- The guide store with an event in the place of another. -/
def Guide.evicts (g : Guide) (e : GuideEvent) (x : Place) : Guide :=
  { g with
    places := keyPut (·.num) { num := x.num, ev := e } g.places
    scrub := g.scrub.filter fun y => y.place != x.num
    counters := { g.counters with inserted := g.counters.inserted + 1, evicted := g.counters.evicted + 1 } }

theorem guidePut_evicts (sooner : e.start < x.ev.start) (mine : s.unwatched e.sid [e.eid])
    (its : s.unwatched x.ev.sid [x.ev.eid]) :
    ∃ t, exec (.guidePut tag req) s = .next t
      ∧ s.answered t 0x28 tag (reply .ok (u8 0 ++ putFields e [] (some (x.ev.sid, x.ev.eid))))
      ∧ ({ s with guide := s.guide.evicts e x } : State).unmoved t := by
  have taken := takeGuide_evicts (s := s.opened) recent sound apart full last sooner
  have still : s.opened.reportsOf e [x] (s.guide.evicts e x) = ({ s with guide := s.guide.evicts e x } : State).opened :=
    reportsOf_unwatched mine.1 fun p hp => by
      rw [List.mem_singleton.1 hp]
      exact ⟨its.1, fun i => its.2 i _ (List.mem_singleton_self _)⟩
  have all := takeEventRecord_placed (taken.trans (congrArg _ still))
  rw [retime_untied (s := ({ s with guide := s.guide.evicts e x } : State).opened)
    fun i => mine.2 i _ (List.mem_singleton_self _)] at all
  exact guidePut_puts ready ok writes all (guidePutAnswer_body e (k := .placed false [] (some (x.ev.sid, x.ev.eid))) (by simp))

theorem guidePut_evicts_watched (sooner : e.start < x.ev.start) (quiet : s.noRise)
    (clean : ∀ y ∈ [e, x.ev], s.intact y.sid) :
    ∃ t t0 u, exec (.guidePut tag req) s = .next t
      ∧ s.answered t 0x28 tag (reply .ok (u8 0 ++ putFields e [] (some (x.ev.sid, x.ev.eid))))
      ∧ s.placedInto t0 e [x.ev] (s.guide.evicts e x) ∧ execAll (s.followers e) t0 = .next u ∧ t.likewise u := by
  have taken := takeGuide_evicts (s := s.opened) recent sound apart full last sooner
  exact guidePut_tells ready quiet ok writes taken
    (guidePutAnswer_body e (k := .placed false [] (some (x.ev.sid, x.ev.eid))) (by simp)) (fun _ => .rfl)
    (keySorted_keyPut _ sound.1) fun y hy => keyPut_clean (fun _ h => h) (clean y hy)

end Full

end Taken

/-- Settles O42, by what becomes of the event, and the report of a placement followed through the slots and the entries. -/
theorem guidePutPlaces : Obligations.GuidePutPlaces := by
  unfold Obligations.GuidePutPlaces
  refine ⟨fun tag req s ready => ⟨fun bad => ?_, fun e ok writes => ⟨fun now known late => ?_, fun early => ?_⟩⟩,
    fun l bytes record s ready b => ⟨fun e event tag req ok writes => cell_takesEvent b ready event ok writes,
      fun bad => cell_badEvent b ready.tolive bad⟩⟩
  · refine ⟨_, rfl, serve_refused 0x28 tag (guidePutReq req) .badField ready ?_⟩
    unfold guidePutReq
    rw [readGuide_refuses bad]
  · exact guidePut_past ready ok writes known late
  · have recent := not_isPast early
    refine ⟨fun held listed sid eid version => guidePut_duplicate ready ok writes recent listed sid eid version,
      fun n sound fresh small free below => ⟨fun unwatched => ?_, fun quiet clean => ?_⟩,
      fun x sound apart full last => ⟨fun later => guidePut_drops ready ok writes recent sound apart full last later,
        fun sooner => ⟨fun mine its => ?_, fun quiet clean => ?_⟩⟩⟩
    · exact guidePut_takes ready ok writes recent sound fresh small free below unwatched
    · exact guidePut_takes_watched ready ok writes recent sound fresh small free below quiet clean
    · exact guidePut_evicts ready ok writes recent sound apart full last sooner mine its
    · exact guidePut_evicts_watched ready ok writes recent sound apart full last sooner quiet clean

end Sys2Proof.Machine
end

section
/-! The form and the ranges of the state after reset (R1 to R188), and of the front end the lane that a claimant preempts
(R48, R50), the requests of the quality classes (R40) and the home hold's retry (R54). -/

namespace Sys2Proof.Machine

open Sys2Proof

variable {a b c l m : Fin 3} {n : Fin 4} {tag : Byte} {r : ClassReq} {s t : State}

/-! ### The state after reset -/

/-- The default programming of the cells has no link and no edge mode, and every disabled output is 0 (R147). -/
theorem defaultCells_ok (n : Fin 8) : (defaultCells[n]).ok n := by
  have programmed : ∀ n : Fin 8, (defaultCells[n]).output = false ∧ (defaultCells[n]).link = none
      ∧ (n.val < 5 → (defaultCells[n]).bound.val = n.val ∧ (defaultCells[n]).edge = .none) := by decide
  obtain ⟨output, link, bound⟩ := programmed n
  exact ⟨fun _ => output, fun l linked => (by rw [link] at linked; cases linked), bound⟩

/-- A descrambler that holds no refused record holds each under its own phase (R68). -/
theorem Descrambler.placed_default : ({} : Descrambler).placed := fun p h held => by
  cases p <;> cases held

theorem resetSlots_desc : ∀ k : Fin 5, (resetSlots[k]).desc = {} := by decide

theorem reset_sound : State.reset.sound where
  gate := defaultCells_ok
  queue := .nil
  filters := .nil
  slotSets f hf := by cases hf
  replies := by decide
  notices := by decide
  writes := by decide
  guide := ⟨.nil, by simp [State.reset], .nil, by simp [State.reset]⟩
  held k := by
    have empty : (State.reset.slot k).desc = {} := resetSlots_desc k
    rw [empty]
    exact Descrambler.placed_default
  rises := rfl

/-- The store that was never formatted holds the format's images, and nothing is under way (R177). -/
theorem Store.ok_default : ({} : Store).ok where
  access := Purse.ok_default
  purchases n := by simp [UnitImage.ok]
  profiles p := by
    have image : ((({} : Store).units.profiles[p]).image) = { inUse := p == 0 } := by
      rw [← formatProfiles_get p]
      simp
    rw [image]
    exact ⟨Profile.ok_default _, fun e => by cases e; rfl⟩
  writing := by simp
  queue := by simp
  waiting := by simp

/-- Settles O58: the form by the values of each table at reset, the ranges by those of a part at its reset values. -/
theorem resetKeepsRules : Obligations.ResetKeepsRules :=
  ⟨reset_sound, ranged_of_reset rfl rfl rfl Clock.ok_default Purse.ok_default formatProfiles_ok Store.ok_default⟩

/-! ### The lane that is preempted (R48, R50) -/

/-- A lane goes before another in the choice of R50: of lower priority, or the same with fewer users, or the same of both
and a higher number. -/
def State.goesBefore (s : State) (l m : Fin 3) : Prop :=
  (s.lanePriority l).getD 0 < (s.lanePriority m).getD 0
    ∨ ((s.lanePriority l).getD 0 = (s.lanePriority m).getD 0 ∧ s.userCount l < s.userCount m)
    ∨ ((s.lanePriority l).getD 0 = (s.lanePriority m).getD 0 ∧ s.userCount l = s.userCount m ∧ m < l)

theorem State.goesBefore.trans (h : s.goesBefore a b) (g : s.goesBefore b c) : s.goesBefore a c := by
  unfold State.goesBefore at *
  omega

/-- Of a lane and a higher one, the one preferred goes before the other. -/
theorem preferLane_goesBefore (below : b < l) :
    (s.preferLane (some b) l = some b ∧ s.goesBefore b l) ∨ (s.preferLane (some b) l = some l ∧ s.goesBefore l b) := by
  unfold State.preferLane State.goesBefore
  dsimp only
  split
  · exact .inl ⟨rfl, by omega⟩
  · exact .inr ⟨rfl, by omega⟩

/-- Lanes compared one after another, ascending, leave one of them, which goes before each of the others. -/
theorem foldl_preferLane {ls : List (Fin 3)} (ascending : (b :: ls).Pairwise (· < ·)) :
    ∃ l ∈ b :: ls, ls.foldl s.preferLane (some b) = some l ∧ ∀ m ∈ b :: ls, m = l ∨ s.goesBefore l m := by
  induction ls generalizing b with
  | nil => exact ⟨b, by simp, rfl, fun m hm => .inl (List.mem_singleton.1 hm)⟩
  | cons a ls ih =>
    obtain ⟨below, rest⟩ := List.pairwise_cons.1 ascending
    obtain ⟨belowB, belowA⟩ := List.forall_mem_cons.1 below
    rw [List.foldl_cons]
    simp only [List.forall_mem_cons] at ih ⊢
    rcases preferLane_goesBefore (s := s) belowB with ⟨kept, before⟩ | ⟨taken, before⟩
    · rw [kept]
      obtain ⟨l, mem, chosen, first, others⟩ := ih (List.pairwise_cons.2 ⟨belowA, rest.of_cons⟩)
      have second : s.goesBefore l a := first.elim (fun e => e ▸ before) fun h => h.trans before
      exact ⟨l, List.cons_subset_cons b (List.subset_cons_self a ls) mem, chosen, first, .inr second, others⟩
    · rw [taken]
      obtain ⟨l, mem, chosen, second, others⟩ := ih rest
      have first : s.goesBefore l b := second.elim (fun e => e ▸ before) fun h => h.trans before
      exact ⟨l, List.mem_cons_of_mem b mem, chosen, .inr first, second, others⟩

/-- The lanes that a claimant of a priority may preempt, ascending (R50). -/
def State.preys (s : State) (p : Nat) : List (Fin 3) :=
  allLanes.filter fun l => (s.lane l).enabled && (s.lanePriority l).any (· < p)

theorem victim_eq (s : State) (p : Nat) : s.victim p = (s.preys p).foldl s.preferLane none := rfl

theorem mem_preys {p : Nat} :
    l ∈ s.preys p ↔ (s.lane l).state ≠ .off ∧ ∃ q, s.lanePriority l = some q ∧ q < p := by
  unfold State.preys
  rw [List.mem_filter, Bool.and_eq_true, Option.any_eq_true]
  simp [mem_allLanes, Lane.enabled]

theorem preys_ascending (s : State) (p : Nat) : (s.preys p).Pairwise (· < ·) :=
  List.Pairwise.filter _ (by decide)

/-- A lane is preempted where there is one to preempt, and it goes before every other such lane (R50). -/
theorem victim_cases (s : State) (p : Nat) : (s.preys p = [] ∧ s.victim p = none)
    ∨ ∃ l ∈ s.preys p, s.victim p = some l ∧ ∀ m ∈ s.preys p, m = l ∨ s.goesBefore l m := by
  have ascending := preys_ascending s p
  rw [victim_eq]
  cases e : s.preys p with
  | nil => exact .inl ⟨rfl, rfl⟩
  | cons b ls => exact .inr (foldl_preferLane (e ▸ ascending))

/-- Settles O33: the lanes that may be preempted are compared in turn, and what goes before is transitive. -/
theorem preemptionChooses : Obligations.PreemptionChooses := by
  intro s p
  rcases victim_cases s p with ⟨empty, unchosen⟩ | ⟨l, mem, chosen, first⟩
  · refine ⟨fun l h => absurd (unchosen.symm.trans h) (by simp), fun _ m r used on => ?_⟩
    by_contra lower
    have mem := mem_preys.2 ⟨on, r, used, Nat.lt_of_not_le lower⟩
    rw [empty] at mem
    cases mem
  · refine ⟨fun l' h => ?_, fun h => absurd (chosen.symm.trans h) (by simp)⟩
    obtain rfl : l = l' := Option.some.inj (chosen.symm.trans h)
    obtain ⟨on, q, used, lower⟩ := mem_preys.1 mem
    refine ⟨q, used, lower, on, fun m r ne usedM lowerM onM => ?_⟩
    have before := (first m (mem_preys.2 ⟨onM, r, usedM, lowerM⟩)).resolve_left ne
    simpa only [State.goesBefore, used, usedM, Option.getD_some] using before

/-! ### The quality classes (R39, R40) -/

/-- The part with a quality class changed alone (R40). -/
def State.setClass (s : State) (n : Fin 4) (q : QClass) : State := { s with classes := s.classes.set n q }

/-- The class that a QUALITY_CLASS_SET in its ranges asks for. -/
def askedClass (r : ClassReq) : QClass := readClass r (r.initial == 1)

/-- The accumulation count taken is the largest allowed one not above the one asked, 0 as 1 (R40). -/
theorem clampN_largest (x : Nat) : clampN x ∈ [1, 2, 4, 8, 16, 32] ∧ clampN x ≤ max 1 x
    ∧ ∀ m ∈ [1, 2, 4, 8, 16, 32], m ≤ max 1 x → m ≤ clampN x := by
  refine ⟨by simpa using clampN_ok x, ?_, fun m allowed asked => ?_⟩
  · unfold clampN
    split_ifs <;> omega
  · simp only [List.mem_cons, List.not_mem_nil, or_false] at allowed
    unfold clampN
    split_ifs <;> omega

theorem qualityClassSetReq_refuses
    (bad : 4 ≤ r.cls.toNat ∨ 2 ≤ r.initial.toNat ∨ min 4095 r.th.toNat < min 4095 r.tl.toNat) (s : State) :
    qualityClassSetReq r s = refuse .badField s := by
  unfold qualityClassSetReq
  split
  · rename_i n m cls initial
    rcases bad with h | h | h
    · rw [toFin?_of_le h] at cls
      cases cls
    · rw [flag?_of_le h] at initial
      cases initial
    · exact if_pos h
  · rfl

theorem qualityClassSetReq_takes (cls : r.cls.toNat = n.val) (initial : r.initial.toNat ≤ 1)
    (order : min 4095 r.tl.toNat ≤ min 4095 r.th.toNat) (s : State) :
    qualityClassSetReq r s = (answer .ok (classBytes n (askedClass r)), s.setClass n (askedClass r)) := by
  unfold qualityClassSetReq
  rw [toFin?_of_eq cls, flag?_of_lt initial]
  exact if_neg (Nat.not_lt.2 order)

/-- What moves nothing but the link port leaves each lane its class (R42). -/
theorem State.unmoved.classOf (h : s.unmoved t) (l : Fin 3) : t.classOf l = s.classOf l := by
  have lanes : t.lanes = s.lanes := (congrArg State.lanes h.bare :)
  have carriers : t.carriers = s.carriers := (congrArg State.carriers h.bare :)
  have classes : t.classes = s.classes := (congrArg State.classes h.bare :)
  unfold State.classOf State.lane State.carrier?
  rw [lanes, carriers, classes]

/-- A lane whose carrier selects a class is graded by it as it was set (R42). -/
theorem classOf_setClass {i : Nat} {x : Carrier} (on : (s.lane l).carrier = some i) (entry : s.carrier? i = some x)
    (selects : x.cls = n) (q : QClass) : (s.setClass n q).classOf l = q := by
  have on' : ((s.setClass n q).lane l).carrier = some i := on
  have entry' : (s.setClass n q).carrier? i = some x := entry
  unfold State.classOf
  rw [on', Option.bind_some, entry']
  subst selects
  exact Vector.getElem_set_self _

theorem qualityClassReadReq_refuses (high : 4 ≤ r.cls.toNat) (s : State) :
    qualityClassReadReq r.cls s = refuse .badField s := by
  rw [qualityClassReadReq_eq, toFin?_of_le high]
  rfl

theorem qualityClassReadReq_reads (cls : r.cls.toNat = n.val) (s : State) :
    qualityClassReadReq r.cls s = (answer .ok (classBytes n s.classes[n]), s) := by
  rw [qualityClassReadReq_eq, toFin?_of_eq cls]
  rfl

/-- Settles O27: the class set is answered and changed alone, and a read answers the class as it stands. -/
theorem qualityClassSetClamps : Obligations.QualityClassSetClamps := by
  intro tag r s ready
  refine ⟨fun bad => ⟨_, rfl, serve_refused 0x23 tag _ .badField ready (qualityClassSetReq_refuses bad _)⟩,
    fun n cls initial order => ?_,
    fun high => ⟨_, rfl, serve_refused 0x24 tag _ .badField ready (qualityClassReadReq_refuses high _)⟩,
    fun n cls => ⟨_, rfl, ?_⟩⟩
  · have takes := qualityClassSetReq_takes cls initial order s.opened
    obtain ⟨answered, unmoved⟩ := serve_leaves (kind := 0x23) (tag := tag) (u := s.setClass n (askedClass r)) ready
      (congrArg Prod.snd takes) rfl ready.rises
    rw [takes] at answered
    obtain ⟨allowed, below, largest⟩ := clampN_largest r.n.toNat
    exact ⟨_, askedClass r, rfl, allowed, below, largest, rfl, rfl, rfl, clamp_eq (by decide) _, beq_iff_eq, answered,
      unmoved, fun l i x on entry selects => (unmoved.classOf l).trans (classOf_setClass on entry selects _)⟩
  · have reads := qualityClassReadReq_reads cls s.opened
    obtain ⟨answered, unmoved⟩ := serve_reads 0x24 tag (qualityClassReadReq r.cls) ready (congrArg Prod.snd reads)
    rw [reads] at answered
    exact ⟨unmoved, answered⟩

/-! ### The home hold's retry (R54) -/

theorem homeRetry_other (h : ∀ e, s.arb.home ≠ .retry e) : homeRetry s = s := by
  unfold homeRetry
  split
  · rename_i e home
    exact absurd home (h e)
  · rfl

/-- The part with its home hold at rest (R54). -/
def State.homeResting (s : State) : State := s.modArb fun x => { x with home := .inactive }

/-- In RETRY the home hold claims the home carrier anew if its condition holds, and rests otherwise (R54). -/
theorem homeRetry_retry {e : Nat} (h : s.arb.home = .retry e) :
    homeRetry s = if s.homeCondition none then homeClaim s.homeResting else s.homeResting := by
  unfold homeRetry
  rw [h]
  rfl

theorem homeCondition_iff : s.homeCondition none = true ↔
    s.mode = .standby ∧ (∃ i, s.homeCarrier = some i) ∧ ∀ l, (s.lane l).state ≠ .locked := by
  unfold State.homeCondition
  simp [Option.isSome_iff_exists, List.all_eq_true, mem_allLanes, ← isLocked_iff, and_assoc]

/-- The home hold given an IDLE lane, none waiting (R49, R54). -/
structure State.homeHolds (s t : State) (l : Fin 3) (i : Nat) : Prop where
  home : t.arb.home = .holding l
  lane : t.lane l = (s.lane l).sought i s.clock.uptimeMs

theorem giveLane_home (queue : s.arb.queue = []) (l : Fin 3) (i : Nat) : s.homeHolds (giveLane .home i l s) l i := by
  have empty : (grantTo .home l (startSeek l i s)).arb.queue = [] := by
    show ((startSeek l i s).arb.queue.filter _) = []
    rw [startSeek_arb, queue]
    rfl
  unfold giveLane
  rw [joinWaiters_nil empty]
  exact ⟨rfl, startSeek_lane l i s⟩

theorem homeClaim_idle {i : Nat} (carrier : s.homeCarrier = some i) (unserved : s.servingLane i = none)
    (idle : s.idleLane = some l) : homeClaim s = giveLane .home i l s := by
  unfold homeClaim claim
  rw [carrier]
  dsimp only
  rw [unserved, idle]

/-- A home hold in RETRY takes an IDLE lane for the home carrier, none waiting (R54). -/
theorem homeRetry_holds {e i : Nat} (retry : s.arb.home = .retry e) (standby : s.mode = .standby)
    (carrier : s.homeCarrier = some i) (unlocked : ∀ m, (s.lane m).state ≠ .locked) (unserved : s.servingLane i = none)
    (idle : s.idleLane = some l) (queue : s.arb.queue = []) : s.homeHolds (homeRetry s) l i := by
  rw [homeRetry_retry retry, if_pos (homeCondition_iff.2 ⟨standby, ⟨i, carrier⟩, unlocked⟩),
    homeClaim_idle (s := s.homeResting) carrier unserved idle]
  obtain ⟨home, lane⟩ := giveLane_home (s := s.homeResting) queue l i
  exact ⟨home, lane⟩

/-- Settles O32: the home hold at rest decides anew, and an IDLE lane is given to it. -/
theorem homeRetryDecides : Obligations.HomeRetryDecides := by
  intro s live
  refine ⟨fun other => ⟨_, rfl, ?_⟩, fun e retry => ⟨fun fails => ⟨_, rfl, ?_⟩,
    fun i l standby carrier unlocked unserved idle queue quiet => ⟨_, rfl, ?_⟩⟩⟩
  · exact event_moves homeRetry live (homeRetry_other (s := s.clearOut) other) live.rises rfl
  · have unmet : ¬ s.homeCondition none := fun met => by
      obtain ⟨standby, ⟨i, carrier⟩, unlocked⟩ := homeCondition_iff.1 met
      rcases fails with h | h | ⟨l, locked⟩
      · exact h standby
      · cases carrier.symm.trans h
      · exact unlocked l locked
    exact event_moves (u := s.homeResting) homeRetry live
      ((homeRetry_retry (s := s.clearOut) retry).trans (if_neg unmet)) live.rises rfl
  · obtain ⟨home, lane⟩ := homeRetry_holds (s := s.clearOut) retry standby carrier unlocked unserved idle queue
    have acts : Acts s.clearOut (homeRetry s.clearOut) := ((Flow.refl none s.clearOut).homeRetry (nobody _)).acts
    have served := served_event_quiet homeRetry live rfl (acts.noRise quiet)
    have sought : (s.event homeRetry).lane l = (s.lane l).sought i s.clock.uptimeMs := (served.lane l).trans lane
    refine ⟨unanswered_of_acts homeRetry live acts, event_tables_of_acts homeRetry live acts,
      (congrArg Arbiter.home served.arb).trans home, ?_⟩
    rw [sought]
    exact ⟨rfl, rfl, rfl⟩

end Sys2Proof.Machine
end

section
/-! SUPPORT. What the access unit does with a key record and with a held one, by its cases (R65 to R69, R84); and the
access unit, the pruning of the guide and the clock do the same to a state and its twin (R61, R75 to R89, R109, R174 to
R176). -/

namespace Sys2Proof.Machine

open Sys2Proof

variable {k : Fin 5} {p : Fin 8} {l : Fin 3} {d : Delay} {b : Basis} {w : KeyWord} {h : Held} {r : KeyRecord}
  {req : Requirement} {phase : Phase} {s x y : State}

/-! ### The requirement check and the records it decides, by its result (R66, R69, R84) -/

/-- A failed check counted (R64). -/
def State.countNotMet (s : State) : State := s.modAccessCounters fun c => { c with notMet := c.notMet + 1 }

/-- An opening refused counted (R64). -/
def State.countRefused (s : State) : State := s.modAccessCounters fun c => { c with openRefused := c.openRefused + 1 }

theorem checkRequirement_met (met : s.basisOf k req = some b) :
    checkRequirement k req s = (some b, setEntitled k true b.isPreview s) := by
  unfold checkRequirement
  rw [met]

theorem checkRequirement_unmet (unmet : s.basisOf k req = none) :
    checkRequirement k req s = (none, setEntitled k false (s.gate.src[k]).preview s.countNotMet) := by
  unfold checkRequirement
  rw [unmet]
  rfl

theorem takeOpened_met (met : s.basisOf k h.record.req = some b) :
    takeOpened h w k s = takeWord k h.record b w (setEntitled k true b.isPreview s) := by
  unfold takeOpened
  rw [checkRequirement_met met]

theorem takeOpened_unmet (unmet : s.basisOf k h.record.req = none) :
    takeOpened h w k s = refuseRecord k h (setEntitled k false (s.gate.src[k]).preview s.countNotMet) := by
  unfold takeOpened
  rw [checkRequirement_unmet unmet]

theorem reexaminePhase_unheld (held : (s.slot k).desc.held phase = none) : reexaminePhase k phase s = s := by
  unfold reexaminePhase
  rw [held]

theorem reexaminePhase_unopened (held : (s.slot k).desc.held phase = some h)
    (unopened : s.openWord h.record.wrapped = none) :
    reexaminePhase k phase s = (s.modDesc k fun d => d.setHeld phase none).countRefused := by
  unfold reexaminePhase
  rw [held]
  dsimp only
  rw [unopened]
  rfl

theorem reexaminePhase_met (held : (s.slot k).desc.held phase = some h)
    (opened : s.openWord h.record.wrapped = some w) (met : s.basisOf k h.record.req = some b) :
    reexaminePhase k phase s
      = takeWord k h.record b w ((setEntitled k true b.isPreview s).modDesc k fun d => d.setHeld phase none) := by
  unfold reexaminePhase
  rw [held]
  dsimp only
  rw [opened]
  dsimp only
  rw [checkRequirement_met met]

theorem reexaminePhase_unmet (held : (s.slot k).desc.held phase = some h)
    (opened : s.openWord h.record.wrapped = some w) (unmet : s.basisOf k h.record.req = none) :
    reexaminePhase k phase s = setEntitled k false (s.gate.src[k]).preview s.countNotMet := by
  unfold reexaminePhase
  rw [held]
  dsimp only
  rw [opened]
  dsimp only
  rw [checkRequirement_unmet unmet]

/-! ### What twins have in common -/

theorem Twin.access (t : Twin d x y) : y.access = x.access := t.obs (·.access) fun _ _ _ _ _ => rfl
theorem Twin.basisOf (t : Twin d x y) (k : Fin 5) (req : Requirement) : y.basisOf k req = x.basisOf k req :=
  t.obs (·.basisOf k req) fun _ _ _ _ _ => by cases req <;> rfl
theorem Twin.openWord (t : Twin d x y) (w : KeyWord) : y.openWord w = x.openWord w :=
  t.obs (·.openWord w) fun _ _ _ _ _ => rfl
theorem Twin.qualifies (t : Twin d x y) (l : Fin 3) (sid : Nat) (k : Fin 5) : y.qualifies l sid k = x.qualifies l sid k :=
  t.obs (·.qualifies l sid k) fun _ _ _ _ _ => rfl
theorem Twin.slotsOn (t : Twin d x y) (b : Basis) : y.slotsOn b = x.slotsOn b := t.obs (·.slotsOn b) fun _ _ _ _ _ => rfl
theorem Twin.tierHeld (t : Twin d x y) (i : Fin 32) : y.tierHeld i = x.tierHeld i :=
  t.obs (·.tierHeld i) fun _ _ _ _ _ => rfl
theorem Twin.profile (t : Twin d x y) (p : Fin 8) : y.profile p = x.profile p := t.obs (·.profile p) fun _ _ _ _ _ => rfl
theorem Twin.dayTurns (t : Twin d x y) : y.dayTurns = x.dayTurns := t.obs (·.dayTurns) fun _ _ _ _ _ => rfl
theorem Twin.householdDay (t : Twin d x y) : y.householdDay = x.householdDay :=
  t.obs (·.householdDay) fun _ _ _ _ _ => rfl

theorem Twin.modAccess (t : Twin d x y) (f : Access → Access) : Twin d (x.modAccess f) (y.modAccess f) :=
  t.map (State.modAccess f) (fun _ _ _ _ _ => rfl) fun _ => ⟨rfl, rfl, rfl⟩

theorem Twin.modClock (t : Twin d x y) (f : Clock → Clock) : Twin d (x.modClock f) (y.modClock f) :=
  t.map (State.modClock f) (fun _ _ _ _ _ => rfl) fun _ => ⟨rfl, rfl, rfl⟩

theorem Twin.handOver (t : Twin d x y) (u : UnitId) (i : UnitImage) : Twin d (x.handOver u i) (y.handOver u i) :=
  t.map (State.handOver u i) (fun _ _ _ _ _ => rfl) fun _ => ⟨rfl, rfl, rfl⟩

theorem Twin.handAccess (t : Twin d x y) : Twin d x.handAccess y.handAccess :=
  t.map State.handAccess (fun _ _ _ _ _ => rfl) fun _ => ⟨rfl, rfl, rfl⟩

theorem Twin.handTiers (t : Twin d x y) : Twin d x.handTiers y.handTiers :=
  t.map State.handTiers (fun _ _ _ _ _ => rfl) fun _ => ⟨rfl, rfl, rfl⟩

theorem Twin.handGrants (t : Twin d x y) : Twin d x.handGrants y.handGrants :=
  t.map State.handGrants (fun _ _ _ _ _ => rfl) fun _ => ⟨rfl, rfl, rfl⟩

theorem Twin.handProfile (t : Twin d x y) (p : Fin 8) : Twin d (x.handProfile p) (y.handProfile p) :=
  t.map (State.handProfile p) (fun _ _ _ _ _ => rfl) fun _ => ⟨rfl, rfl, rfl⟩

theorem Twin.recordDay (t : Twin d x y) (day : Int) : Twin d (recordDay day x) (recordDay day y) :=
  t.map (Machine.recordDay day) (fun _ _ _ _ _ => rfl) fun _ => ⟨rfl, rfl, rfl⟩

theorem Twin.countNotMet (t : Twin d x y) : Twin d x.countNotMet y.countNotMet :=
  t.map State.countNotMet (fun _ _ _ _ _ => rfl) fun _ => ⟨rfl, rfl, rfl⟩

theorem Twin.countRefused (t : Twin d x y) : Twin d x.countRefused y.countRefused :=
  t.map State.countRefused (fun _ _ _ _ _ => rfl) fun _ => ⟨rfl, rfl, rfl⟩

theorem Twin.modDesc (t : Twin d x y) (k : Fin 5) (f : Descrambler → Descrambler) :
    Twin d (x.modDesc k f) (y.modDesc k f) := t.modSlot k _

/-! ### Key records (R65 to R69) -/

theorem Twin.acceptWord (t : Twin d x y) (k : Fin 5) : Twin d (acceptWord k x) (acceptWord k y) := by
  unfold Machine.acceptWord
  rw [t.slot]
  dsimp only
  split
  · exact (t.modSlot k _).chooseByPermit k
  · split
    · exact t.chooseByPermit k
    · exact t

theorem Twin.storeWord (t : Twin d x y) (k : Fin 5) (r : KeyRecord) (b : Basis) (w : KeyWord) :
    Twin d (storeWord k r b w x) (storeWord k r b w y) := ((t.modSlot k _).modAccess _).acceptWord k

theorem Twin.takeWord (t : Twin d x y) (k : Fin 5) (r : KeyRecord) (b : Basis) (w : KeyWord) :
    Twin d (takeWord k r b w x) (takeWord k r b w y) := by
  unfold Machine.takeWord
  rw [t.slot]
  cases (x.slot k).desc.key r.phase with
  | none => exact t.storeWord k r b w
  | some held =>
    dsimp only
    split
    · exact t.modAccess _
    · split
      · exact t.storeWord k r b w
      · exact t.modAccess _

theorem Twin.refuseRecord (t : Twin d x y) (k : Fin 5) (h : Held) : Twin d (refuseRecord k h x) (refuseRecord k h y) := by
  have held := t.modSlot k fun sl => { sl with desc := sl.desc.setHeld h.record.phase (some h) }
  unfold Machine.refuseRecord State.modDesc
  dsimp only
  rw [held.slot]
  split
  · exact (held.modSlot k _).enterHeld .notEntitled k
  · exact held

theorem Twin.takeOpened (t : Twin d x y) (h : Held) (w : KeyWord) (k : Fin 5) :
    Twin d (takeOpened h w k x) (takeOpened h w k y) := by
  cases met : x.basisOf k h.record.req with
  | some b =>
    rw [takeOpened_met met, takeOpened_met ((t.basisOf ..).trans met)]
    exact (t.setEntitled ..).takeWord ..
  | none =>
    rw [takeOpened_unmet met, takeOpened_unmet ((t.basisOf ..).trans met), t.gate]
    exact (t.countNotMet.setEntitled ..).refuseRecord ..

theorem Twin.takeKeyRecord (t : Twin d x y) (l : Fin 3) (r : KeyRecord) :
    Twin d (takeKeyRecord l r x) (takeKeyRecord l r y) := by
  have same : y.qualifies l r.sid = x.qualifies l r.sid := funext (t.qualifies l r.sid)
  unfold Machine.takeKeyRecord
  rw [same, t.openWord]
  dsimp only
  split
  · exact t.modAccess _
  · cases x.openWord r.wrapped with
    | none => exact t.modAccess _
    | some w =>
      refine t.forEach fun k _ u v a => ?_
      rw [a.qualifies]
      split
      · exact a.takeOpened ..
      · exact a

theorem Twin.reexaminePhase (t : Twin d x y) (k : Fin 5) (p : Phase) :
    Twin d (reexaminePhase k p x) (reexaminePhase k p y) := by
  have slot := t.slot k
  cases held : (x.slot k).desc.held p with
  | none =>
    rw [reexaminePhase_unheld held, reexaminePhase_unheld (by rw [slot]; exact held)]
    exact t
  | some h =>
    have held' : (y.slot k).desc.held p = some h := by rw [slot]; exact held
    cases opened : x.openWord h.record.wrapped with
    | none =>
      rw [reexaminePhase_unopened held opened, reexaminePhase_unopened held' ((t.openWord _).trans opened)]
      exact (t.modDesc k _).countRefused
    | some w =>
      have opened' := (t.openWord _).trans opened
      cases met : x.basisOf k h.record.req with
      | some b =>
        rw [reexaminePhase_met held opened met, reexaminePhase_met held' opened' ((t.basisOf ..).trans met)]
        exact ((t.setEntitled ..).modDesc k _).takeWord ..
      | none =>
        rw [reexaminePhase_unmet held opened met, reexaminePhase_unmet held' opened' ((t.basisOf ..).trans met), t.gate]
        exact t.countNotMet.setEntitled ..

theorem Twin.reexamine (t : Twin d x y) : Twin d (reexamine x) (reexamine y) :=
  t.forEach fun k _ _ _ a => (a.reexaminePhase k .a).reexaminePhase k .b

/-! ### Entitlement records (R77 to R83) -/

theorem Twin.withdraw (t : Twin d x y) (b : Basis) : Twin d (withdraw b x) (withdraw b y) := by
  unfold Machine.withdraw
  rw [t.slotsOn]
  exact t.withdrawFrom _

theorem Twin.clearSpend (t : Twin d x y) (p : Fin 8) : Twin d (clearSpend p x) (clearSpend p y) := by
  unfold Machine.clearSpend
  rw [t.profile]
  split
  · exact t
  · exact (t.modParental _).handProfile p

theorem Twin.clearSpends (t : Twin d x y) : Twin d (Machine.forEach allProfiles Machine.clearSpend x)
    (Machine.forEach allProfiles Machine.clearSpend y) :=
  t.forEach fun p _ _ _ a => a.clearSpend p

theorem Twin.applyTerms (t : Twin d x y) (grace floor period anchor : Nat) :
    Twin d (applyTerms grace floor period anchor x) (applyTerms grace floor period anchor y) := by
  have terms := t.modAccess fun a => { a with purse := Purse.setTerms grace floor period anchor a.purse }
  unfold Machine.applyTerms State.modPurse
  dsimp only
  rw [terms.now?]
  split
  · exact terms
  · rw [terms.access]
    refine Twin.modAccess ?_ _
    split
    · exact terms.clearSpends
    · exact terms

theorem Twin.applyKind (t : Twin d x y) (e : EntKind) : Twin d (applyKind e x) (applyKind e y) := by
  cases e with
  | tierSet i e => exact (t.modAccess _).handTiers.reexamine
  | tierClear i =>
    have cleared := (t.modAccess fun a => { a with tiers := a.tiers.set i ⟨false, none⟩ }).handTiers
    unfold Machine.applyKind
    dsimp only
    rw [t.tierHeld]
    split
    · exact cleared.withdraw _
    · exact cleared
  | creditAdd n => exact t.modAccess fun a => { a with purse := a.purse.credit n }
  | limitSet n => exact t.modAccess fun a => { a with purse := a.purse.setLimit n }
  | termsSet => exact t.applyTerms ..
  | release n => exact t.modAccess _

theorem Twin.takeEntitlement (t : Twin d x y) (r : EntRecord) : Twin d (takeEntitlement r x) (takeEntitlement r y) := by
  unfold Machine.takeEntitlement
  rw [t.access]
  split
  · exact t.modAccess _
  · cases r.kind with
    | none => exact t.setFault ..
    | some e =>
      dsimp only
      split
      · exact t.modAccess _
      · split
        · exact t.modAccess _
        · split
          · exact t.modAccess _
          · exact ((((t.modAccess _).modAccess _).applyKind e).handAccess).raise ..

/-! ### The boundaries of the clock (R75, R76, R89, R133, R136) -/

theorem Twin.expireTiers (t : Twin d x y) : Twin d (expireTiers x) (expireTiers y) := by
  unfold Machine.expireTiers
  rw [t.now?, t.access]
  split
  · exact t
  · dsimp only
    split
    · exact t
    · refine Twin.raise (Twin.handTiers ?_) ..
      exact (t.modAccess _).forEach fun i _ _ _ a => a.withdraw _

theorem Twin.expireGrants (t : Twin d x y) : Twin d (expireGrants x) (expireGrants y) := by
  unfold Machine.expireGrants
  rw [t.now?, t.access]
  split
  · exact t
  · dsimp only
    split
    · exact t
    · refine Twin.raise (Twin.handGrants ?_) ..
      exact (t.modAccess _).forEach fun i _ _ _ a => a.withdraw _

theorem Twin.rollover (t : Twin d x y) : Twin d (rollover x) (rollover y) := by
  unfold Machine.rollover
  rw [t.now?, t.access]
  split
  · exact t
  · dsimp only
    split
    · exact (t.clearSpends.modAccess _).handAccess
    · exact t

theorem Twin.accessBoundary (t : Twin d x y) : Twin d (accessBoundary x) (accessBoundary y) :=
  t.expireTiers.expireGrants.rollover.forEach fun k _ _ _ a => a.endPreview k

theorem Twin.setRemaining (t : Twin d x y) (hand : Bool) (p : Fin 8) (new : Nat) :
    Twin d (setRemaining hand p new x) (setRemaining hand p new y) := by
  have set : Twin d ((x.modProfile p fun r => { r with remaining := new }).markDirty p)
      ((y.modProfile p fun r => { r with remaining := new }).markDirty p) := (t.modParental _).modParental _
  have handed := set.handProfile p
  unfold Machine.setRemaining
  rw [t.profile]
  dsimp only
  split_ifs
  · exact t.handProfile p
  · exact t
  · exact handed.raise ..
  · exact handed
  · exact handed.raise ..
  · exact handed
  · exact set

theorem Twin.resetAllowance (t : Twin d x y) (p : Fin 8) : Twin d (resetAllowance p x) (resetAllowance p y) := by
  unfold Machine.resetAllowance
  rw [t.profile]
  split
  · split
    · exact t
    · exact t.setRemaining ..
  · exact t

theorem Twin.timeConditions (t : Twin d x y) : Twin d (timeConditions x) (timeConditions y) := by
  refine Twin.reportConditions ?_ _
  unfold turnDay
  rw [t.dayTurns, t.householdDay, t.clock, t.parental]
  split
  · exact Twin.recordDay (t.forEach fun p _ _ _ a => a.resetAllowance p) _
  · split
    · exact t.recordDay _
    · exact t

theorem Twin.determineAll (t : Twin d x y) : Twin d (determineAll x) (determineAll y) := by
  refine t.forEach fun k _ u v a => ?_
  rw [a.slot]
  split
  · exact a
  · exact a.determine k

/-! ### A place pruned (R109) -/

/-- The part with a place of the guide store emptied, and its removal counted and reported (R107, R109). -/
def State.pruned (s : State) (p : Place) : State :=
  reportRemoval p.ev (s.modGuide fun g => { Guide.remove p.num g with
    counters := { g.counters with pruned := g.counters.pruned + 1 } })

/-- A corrected read that posts no rewrite (R109, R113, R114). -/
def State.readPruning (s : State) (p : Place) : State :=
  if s.countCorrected.guide.scrub.isSome then s.countCorrected.guideSecond p.num else s.countCorrected

theorem prunePlace_clean {p : Place} (c : s.guide.check p = .clean) : prunePlace p s = s.pruned p := by
  unfold prunePlace
  rw [c]
  rfl

theorem prunePlace_corrected {p : Place} (c : s.guide.check p = .corrected) :
    prunePlace p s = (s.readPruning p).pruned p := by
  unfold prunePlace
  rw [c]
  rfl

theorem prunePlace_uncorrectable {p : Place} (c : s.guide.check p = .uncorrectable) :
    prunePlace p s = damageWith readPlace p s := by
  unfold prunePlace
  rw [c]

/-- The places that a pruning scan takes, in order (R109, log 37). -/
def State.pruneList (s : State) : List Place :=
  s.guide.services.flatMap fun sid => (s.guide.ofService sid).takeWhile fun p => s.isPast p.ev

theorem prune_eq (s : State) : prune s = forEach s.pruneList prunePlace s := rfl

theorem Twin.pruned (t : Twin .none x y) (p : Place) : Twin .none (x.pruned p) (y.pruned p) :=
  (t.setGuide _).reportRemoval p.ev

theorem Twin.readPruning (t : Twin .none x y) (p : Place) : Twin .none (x.readPruning p) (y.readPruning p) := by
  have counted : Twin .none x.countCorrected y.countCorrected := t.setFault ..
  unfold State.readPruning
  rw [counted.guide]
  split
  · exact counted.setFault ..
  · exact counted

theorem Twin.prunePlace (t : Twin .none x y) (p : Place) : Twin .none (prunePlace p x) (prunePlace p y) := by
  have same : y.guide.check p = x.guide.check p := by rw [t.guide]
  cases c : x.guide.check p with
  | clean =>
    rw [prunePlace_clean c, prunePlace_clean (same.trans c)]
    exact t.pruned p
  | corrected =>
    rw [prunePlace_corrected c, prunePlace_corrected (same.trans c)]
    exact (t.readPruning p).pruned p
  | uncorrectable =>
    rw [prunePlace_uncorrectable c, prunePlace_uncorrectable (same.trans c)]
    exact t.damageWith twinRead_readPlace fun some => some.elim fun _ e => Bool.noConfusion e

theorem Twin.prune (t : Twin .none x y) : Twin .none (prune x) (prune y) := by
  have same : y.pruneList = x.pruneList := t.obs (·.pruneList) fun _ _ _ _ _ => rfl
  rw [prune_eq, prune_eq, same]
  exact t.forEach fun p _ _ _ a => a.prunePlace p

/-! ### Steps of the clock (R174, R176) -/

theorem Twin.scheduleBoundary (t : Twin .none x y) : Twin .none (scheduleBoundary x) (scheduleBoundary y) :=
  (t.forEach fun n _ _ _ a => a.checkEnd (n := n) rfl).forEach fun n _ _ _ a => a.evaluate (n := n) rfl

theorem Twin.forwardWork (t : Twin .none x y) : Twin .none (forwardWork x) (forwardWork y) :=
  t.prune.determineAll.accessBoundary.timeConditions.scheduleBoundary

theorem Twin.backwardWork (t : Twin .none x y) : Twin .none (backwardWork x) (backwardWork y) :=
  t.determineAll.timeConditions.scheduleBoundary

theorem Twin.stepClock (t : Twin .none x y) (time : Nat) : Twin .none (stepClock time x) (stepClock time y) := by
  have told : Twin .none
      ((x.modClock fun c => { c with utc := time, known := true }).clockNotice
        (if x.clock.known then .step x.clock.utc else .known))
      ((y.modClock fun c => { c with utc := time, known := true }).clockNotice
        (if x.clock.known then .step x.clock.utc else .known)) := (t.modClock _).raise ..
  unfold Machine.stepClock
  rw [t.clock]
  dsimp only
  split
  · exact told.backwardWork
  · exact told.forwardWork

theorem Twin.takeOffset (t : Twin .none x y) (offset : Int) : Twin .none (takeOffset offset x) (takeOffset offset y) := by
  unfold Machine.takeOffset
  rw [t.clock]
  split
  · exact t
  · exact Twin.timeConditions ((t.modClock _).raise ..)

theorem Twin.takeTime (t : Twin .none x y) (time : Nat) (offset : Int) :
    Twin .none (takeTime time offset x) (takeTime time offset y) := by
  have set := (t.modClock fun c => { c with source := .stream }).takeOffset offset
  unfold Machine.takeTime
  dsimp only
  rw [set.clock]
  split
  · exact set.stepClock time
  · exact set

end Sys2Proof.Machine
end

section
/-! A cell that brings a control record does what its consumer does (R61); and PROOF of O19: TIME_SET and TIME records
(R174 to R176). -/

namespace Sys2Proof.Machine

open Sys2Proof

variable {l : Fin 3} {kind time : Nat} {offset : Int} {tag : Byte} {utc : Word} {off : Half} {bytes record : List Byte}
  {s t u : State}

/-! ### Cells that bring a record (R61) -/

/-- A cell that brings a record delivers it, whatever its kind. -/
theorem cellEvent_delivers (b : s.brings l bytes kind record) :
    cellEvent l bytes s = deliver l { kind, bytes := record } s := by
  obtain ⟨locked, clear, ⟨f, x, found, dest, takes⟩, rec⟩ := b
  rw [cellEvent_locked locked, routeCell_control (by rw [clear]; decide) found dest]
  unfold controlCell
  rw [if_neg (by rw [clear]; decide), rec]
  exact if_pos takes

/-- What has left at the ports is no matter of a cell. -/
theorem brings_emptied (b : s.brings l bytes kind record) : s.clearOut.brings l bytes kind record :=
  ⟨b.locked, b.clear, b.entry, b.record⟩

/-- What has left at the ports is no matter of the blocks' work. -/
theorem twin_clearOut (s : State) : Twin .none s s.clearOut :=
  (Twin.refl s).ports (lk := s.link) (lk' := s.link) (o := s.out) (o' := [])

/-- The work of a record's consumer: what any block may do, and the same to a state and its twin. -/
structure ConsumerWork (f : State → State) : Prop where
  runs : ∀ s, Runs s (f s)
  twin : ∀ x y, Twin .none x y → Twin .none (f x) (f y)

section Delivered

variable {f : State → State} (b : s.brings l bytes kind record)
  (delivers : ∀ u, deliver l { kind, bytes := record } u = f u) (live : s.live)
include b delivers

theorem cell_event_eq : cellEvent l bytes s.clearOut = f s.clearOut :=
  (cellEvent_delivers (brings_emptied b)).trans (delivers _)

include live

theorem cell_unanswered (work : ConsumerWork f) : s.unanswered (s.event (cellEvent l bytes)) := by
  refine event_unanswered (cellEvent l bytes) live ?_
  rw [cell_event_eq b delivers]
  exact ((work.runs s.clearOut).owned.trans (settle_owned _)).core

/-- Where no entry awaits a rise, the cell does what its record's consumer does. -/
theorem cell_likewise (work : ConsumerWork f) (quiet : s.noRise) :
    ({ f s with auxRises := [] }).likewise (s.event (cellEvent l bytes)) := by
  have served := served_event_quiet (cellEvent l bytes) live (cell_event_eq b delivers)
    ((work.runs s.clearOut).rise quiet)
  have twin := (work.twin s s.clearOut (twin_clearOut s)).dropRises
  have core : (f s.clearOut).link.core = (f s).link.core :=
    (work.runs s.clearOut).owned.core.trans (work.runs s).owned.core.symm
  exact (twin.same (rest_of_core core)).trans served.likewise

/-- A cell whose record its consumer finds bad (R61). -/
theorem cell_discards (bad : f s.clearOut = s.clearOut.streamRecordBad) :
    ∃ t, exec (.cell l bytes) s = .next t ∧ s.discards t :=
  ⟨_, rfl, event_discards (cellEvent l bytes) live ((cell_event_eq b delivers).trans bad)⟩

end Delivered

/-! ### What the work of a moment of the clock leaves of the clock (R174, R176) -/

theorem Flow.clock {o : Option (Fin 5)} (h : Flow o s t) : t.clock = s.clock := (congrArg State.clock h.still :)

theorem Acts.clock (h : Acts s t) : t.clock = s.clock := (congrArg State.clock h.calm :)

theorem pruned_clock (p : Place) (s : State) : (s.pruned p).clock = s.clock := ((Flow.refl none _).reportRemoval _).clock

theorem readPruning_clock (p : Place) (s : State) : (s.readPruning p).clock = s.clock := by
  unfold State.readPruning
  split
  · exact ((Flow.refl none s).countCorrected.guideSecond p.num).clock
  · exact (Flow.refl none s).countCorrected.clock

theorem damageWith_clock (p : Place) (s : State) : (damageWith readPlace p s).clock = s.clock := by
  unfold damageWith
  exact ((((Flow.refl none (s.modGuide _)).reportRemoval p.ev).guideLost _).guideNotice _).clock

theorem prunePlace_clock (p : Place) (s : State) : (prunePlace p s).clock = s.clock := by
  cases c : s.guide.check p with
  | clean => rw [prunePlace_clean c, pruned_clock]
  | corrected => rw [prunePlace_corrected c, pruned_clock, readPruning_clock]
  | uncorrectable => rw [prunePlace_uncorrectable c, damageWith_clock]

/-- A loop whose rounds leave the clock leaves it. -/
theorem forEach_clock {α : Type} {L : List α} {f : α → State → State} (round : ∀ a u, (f a u).clock = u.clock)
    (s : State) : (forEach L f s).clock = s.clock :=
  forEach_keeps (P := fun u => u.clock = s.clock) (fun a _ u hu => (round a u).trans hu) rfl

theorem prune_clock (s : State) : (prune s).clock = s.clock := forEach_clock prunePlace_clock s

theorem determineAll_clock (s : State) : (determineAll s).clock = s.clock := by
  refine forEach_clock (fun k u => ?_) s
  split
  · rfl
  · exact ((Flow.refl none u).determine k).clock

theorem withdraw_clock (b : Basis) (s : State) : (withdraw b s).clock = s.clock := ((Flow.refl none s).withdraw b).clock

theorem expireTiers_clock (s : State) : (expireTiers s).clock = s.clock := by
  unfold expireTiers
  split
  · rfl
  · dsimp only
    split
    · rfl
    · exact (raise_clock ..).trans (forEach_clock (fun i u => withdraw_clock _ u) _)

theorem expireGrants_clock (s : State) : (expireGrants s).clock = s.clock := by
  unfold expireGrants
  split
  · rfl
  · dsimp only
    split
    · rfl
    · exact (raise_clock ..).trans (forEach_clock (fun g u => withdraw_clock _ u) _)

theorem clearSpend_clock (p : Fin 8) (s : State) : (clearSpend p s).clock = s.clock := by
  unfold clearSpend
  split <;> rfl

theorem rollover_clock (s : State) : (rollover s).clock = s.clock := by
  unfold rollover
  split
  · rfl
  · dsimp only
    split
    · have cleared := forEach_clock (L := allProfiles) clearSpend_clock s
      generalize forEach allProfiles clearSpend s = v at cleared ⊢
      exact cleared
    · rfl

theorem accessBoundary_clock (s : State) : (accessBoundary s).clock = s.clock :=
  calc (accessBoundary s).clock = (rollover (expireGrants (expireTiers s))).clock :=
        forEach_clock (fun k u => ((Flow.refl none u).endPreview k).clock) _
    _ = s.clock := by rw [rollover_clock, expireGrants_clock, expireTiers_clock]

theorem setRemaining_clock (hand : Bool) (p : Fin 8) (n : Nat) (s : State) : (setRemaining hand p n s).clock = s.clock := by
  unfold setRemaining
  dsimp only
  split
  · split <;> rfl
  · split
    · exact raise_clock ..
    · split
      · rfl
      · split
        · exact raise_clock ..
        · split <;> rfl

theorem resetAllowance_clock (p : Fin 8) (s : State) : (resetAllowance p s).clock = s.clock := by
  unfold resetAllowance
  split
  · split
    · rfl
    · exact setRemaining_clock ..
  · rfl

theorem turnDay_clock (s : State) : (turnDay s).clock = s.clock := by
  unfold turnDay
  split
  · have reset := forEach_clock (L := allProfiles) resetAllowance_clock s
    generalize forEach allProfiles resetAllowance s = v at reset ⊢
    exact reset
  · split <;> rfl

theorem timeConditions_clock (s : State) : (timeConditions s).clock = s.clock :=
  ((Flow.refl none _).reportConditions _).clock.trans (turnDay_clock s)

theorem scheduleBoundary_clock (s : State) : (scheduleBoundary s).clock = s.clock := (Acts.refl s).scheduleBoundary.clock

theorem forwardWork_clock (s : State) : (forwardWork s).clock = s.clock := by
  unfold forwardWork
  rw [scheduleBoundary_clock, timeConditions_clock, accessBoundary_clock, determineAll_clock, prune_clock]

theorem backwardWork_clock (s : State) : (backwardWork s).clock = s.clock := by
  unfold backwardWork
  rw [scheduleBoundary_clock, timeConditions_clock, determineAll_clock]

/-! ### The time taken (R174 to R176) -/

theorem stepClock_clock (n : Nat) (s : State) : (stepClock n s).clock = { s.clock with utc := n, known := true } := by
  unfold stepClock
  dsimp only
  split
  · exact (backwardWork_clock _).trans (raise_clock ..)
  · exact (forwardWork_clock _).trans (raise_clock ..)

theorem takeOffset_clock (o : Int) (s : State) : (takeOffset o s).clock = { s.clock with offset := o } := by
  unfold takeOffset
  split
  · rename_i same
    rw [← same]
  · exact (timeConditions_clock _).trans (raise_clock ..)

theorem takeTime_clock (n : Nat) (o : Int) (s : State) : (takeTime n o s).clock = s.clock.streamed n o := by
  have set : (takeOffset o (s.modClock fun c => { c with source := .stream })).clock
      = ⟨s.clock.utc, s.clock.known, o, .stream, s.clock.uptimeMs⟩ := takeOffset_clock o _
  unfold takeTime Clock.streamed
  dsimp only
  generalize takeOffset o (s.modClock fun c => { c with source := .stream }) = v at *
  rw [set]
  by_cases near : s.clock.known = true ∧ n ≤ s.clock.utc + 2 ∧ s.clock.utc ≤ n + 2
  · obtain ⟨known, below, above⟩ := near
    rw [if_neg (by simp [known]; omega), set, if_pos ⟨known, below, above⟩]
    simp [known]
  · have far : !s.clock.known ∨ n + 2 < s.clock.utc ∨ s.clock.utc + 2 < n := by
      cases known : s.clock.known with
      | false => exact .inl rfl
      | true =>
        refine .inr ?_
        rw [known] at near
        by_contra near'
        exact near ⟨rfl, by omega, by omega⟩
    rw [if_pos far, stepClock_clock, set, if_neg near]

/-- TIME_SET takes the time and the offset, and makes a step where the clock was not known or read otherwise (R175). -/
theorem setTime_takes (n : Nat) (o : Int) (s : State) :
    (setTime n o s).1 = (!s.clock.known || n != s.clock.utc)
      ∧ (setTime n o s).2.clock = { s.clock with utc := n, known := true, source := .link, offset := o } := by
  have set : (takeOffset o (s.modClock fun c => { c with source := .link })).clock
      = ⟨s.clock.utc, s.clock.known, o, .link, s.clock.uptimeMs⟩ := takeOffset_clock o _
  unfold setTime
  dsimp only
  generalize takeOffset o (s.modClock fun c => { c with source := .link }) = v at *
  rw [set]
  by_cases same : s.clock.known = true ∧ n = s.clock.utc
  · obtain ⟨known, utc⟩ := same
    rw [if_neg (by simp [known, utc])]
    refine ⟨by simp [known, utc], set.trans ?_⟩
    subst utc
    simp [known]
  · have steps : !s.clock.known ∨ n ≠ s.clock.utc := by
      cases known : s.clock.known with
      | false => exact .inl rfl
      | true => exact .inr fun e => same ⟨known, e⟩
    rw [if_pos steps]
    refine ⟨(?_ : true = _), by rw [stepClock_clock, set]⟩
    rcases steps with unknown | other
    · rw [unknown, Bool.true_or]
    · rw [bne_iff_ne.mpr other, Bool.or_true]

/-! ### TIME_SET (R175) -/

/-- The offset that a TIME_SET takes (R175). -/
def askedOffset (off : Half) : Int := max (-720) (min 840 off.toInt)

theorem askedOffset_range (off : Half) : -720 ≤ askedOffset off ∧ askedOffset off ≤ 840 := by
  unfold askedOffset
  omega

theorem timeSetReq_streamed (stream : s.clock.source = .stream) : timeSetReq utc off s = refuse .conflict s := by
  unfold timeSetReq
  rw [if_pos stream]

theorem timeSetReq_sets (free : s.clock.source ≠ .stream) : timeSetReq utc off s =
    (answer .ok (i16 (askedOffset off) ++ flag (!s.clock.known || utc.toNat != s.clock.utc) ++ u8 1),
      (setTime utc.toNat (askedOffset off) s).2) := by
  obtain ⟨steps, clock⟩ := setTime_takes utc.toNat (askedOffset off) s
  unfold timeSetReq
  rw [if_neg free]
  change (answer .ok (i16 (askedOffset off) ++ flag (setTime utc.toNat (askedOffset off) s).1
    ++ u8 (setTime utc.toNat (askedOffset off) s).2.clock.source.code), _) = _
  rw [steps, clock]
  rfl

theorem setTime_runs (utc : Word) (off : Half) (s : State) : Runs s (setTime utc.toNat (askedOffset off) s).2 :=
  (Runs.refl s).setTime (Nat.le_of_lt_succ utc.isLt) (askedOffset_range off)

theorem Served.clock (h : Served s t) : t.clock = s.clock := (congrArg State.clock h.likewise.symm :)

theorem settle_clock (s : State) : (settle s).clock = s.clock := (Acts.refl s).settle.clock

theorem timeSet_sets (ready : s.ready) (free : s.clock.source ≠ .stream) :
    ∃ t, exec (.timeSet tag utc off) s = .next t
      ∧ t.clock = { s.clock with utc := utc.toNat, known := true, source := .link, offset := askedOffset off }
      ∧ s.answered t 0x04 tag (reply .ok (i16 (askedOffset off)
          ++ flag (!s.clock.known || utc.toNat != s.clock.utc) ++ u8 1))
      ∧ t.ground = s.ground := by
  have sets := timeSetReq_sets (utc := utc) (off := off) (s := s.opened) free
  have owned : (timeSetReq utc off s.opened).2 = (setTime utc.toNat (askedOffset off) s.opened).2 := by rw [sets]
  have runs := (setTime_runs utc off s.opened).acts (Acts.refl _).settle
  refine ⟨_, rfl, ?_, ?_, ?_⟩
  · rw [(served_serve 0x04 tag (timeSetReq utc off) ready).clock, settle_clock, owned]
    exact (setTime_takes utc.toNat (askedOffset off) s.opened).2
  · have answered := serve_answered 0x04 tag (timeSetReq utc off) ready (by rw [owned]; exact runs.owned.core)
    rw [sets] at answered
    exact answered
  · rw [serve_ground 0x04 tag (timeSetReq utc off) ready, owned, ground_of_hull runs.hull, opened_ground]

/-! ### TIME records (R61, R174) -/

theorem deliver_time (fields : timeOf record = some (time, offset)) (u : State) :
    deliver l { kind := 5, bytes := record } u = takeTime time offset u := by
  simp only [deliver, fields]

theorem deliver_badTime (bad : timeOf record = none) (u : State) :
    deliver l { kind := 5, bytes := record } u = u.streamRecordBad := by
  simp only [deliver, bad]

theorem takeTime_work (fields : timeOf record = some (time, offset)) : ConsumerWork (takeTime time offset) where
  runs s := (Runs.refl s).takeTime (timeOf_ok fields).1 (timeOf_ok fields).2
  twin _ _ h := h.takeTime time offset

theorem event_ground {f : State → State} (live : s.live) (runs : Runs s.clearOut (f s.clearOut)) :
    (s.event f).ground = s.ground := by
  rw [event_live f live, startTx_ground]
  exact ground_of_hull (runs.acts (Acts.refl _).settle).hull

/-- Settles O19: every part of a step's work leaves the clock that the step set, and a TIME record's cell does to the
blocks what its record does. -/
theorem timeSetSteps : Obligations.TimeSetSteps := by
  refine ⟨fun tag utc off s ready => ⟨fun stream => ⟨_, rfl, ?_⟩, fun free => timeSet_sets ready free⟩,
    takeTime_clock, fun l bytes record s live b => ⟨fun time offset fields => ⟨_, rfl, ?_⟩, fun bad => ?_⟩⟩
  · exact serve_refused 0x04 tag _ .conflict ready (timeSetReq_streamed (s := s.opened) stream)
  · have delivers := deliver_time (l := l) fields
    have work := takeTime_work fields
    have eq := cell_event_eq b delivers
    refine ⟨cell_unanswered b delivers live work, event_ground live ?_, ?_, cell_likewise b delivers live work⟩
    · rw [eq]
      exact work.runs _
    · rw [(served_event (cellEvent l bytes) live).clock, settle_clock, eq]
      exact takeTime_clock time offset s.clearOut
  · exact cell_discards b (deliver_badTime bad) live rfl

end Sys2Proof.Machine
end

section
/-! SUPPORT. The access unit's work on the keys of the slots: what it leaves of the state, what the work on one slot
leaves of another, and what it makes of its own slot, operation by operation (R17, R65 to R69, R84). -/

namespace Sys2Proof.Machine

open Sys2Proof

variable {j k : Fin 5} {ks : List (Fin 5)} {b : Basis} {w : KeyWord} {h : Held} {r : KeyRecord} {req : Requirement}
  {p : Phase} {s t u v : State}

/-! ### The descrambler record (R63, R67, R68) -/

theorem Descrambler.key_setHeld (d : Descrambler) (p q : Phase) (x : Option Held) : (d.setHeld p x).key q = d.key q := by
  cases p <;> cases q <;> rfl

theorem Descrambler.held_setHeld (d : Descrambler) (p : Phase) (x : Option Held) : (d.setHeld p x).held p = x := by
  cases p <;> rfl

theorem Descrambler.held_setHeld_ne : ∀ {p q : Phase}, q ≠ p → ∀ (d : Descrambler) (x : Option Held),
    (d.setHeld p x).held q = d.held q
  | .a, .b, _, _, _ => rfl
  | .b, .a, _, _, _ => rfl
  | .a, .a, ne, _, _ => absurd rfl ne
  | .b, .b, ne, _, _ => absurd rfl ne

theorem Descrambler.key_setKey (d : Descrambler) (p : Phase) (x : Option Key) : (d.setKey p x).key p = x := by
  cases p <;> rfl

theorem Descrambler.key_setKey_ne : ∀ {p q : Phase}, q ≠ p → ∀ (d : Descrambler) (x : Option Key),
    (d.setKey p x).key q = d.key q
  | .a, .b, _, _, _ => rfl
  | .b, .a, _, _, _ => rfl
  | .a, .a, ne, _, _ => absurd rfl ne
  | .b, .b, ne, _, _ => absurd rfl ne

theorem Descrambler.held_setKey (d : Descrambler) (p q : Phase) (x : Option Key) : (d.setKey p x).held q = d.held q := by
  cases p <;> cases q <;> rfl

theorem Descrambler.key_stores (d : Descrambler) (r : KeyRecord) (b : Basis) (w : KeyWord) :
    (d.stores r b w).key r.phase = some { period := r.period, req := r.req, basis := b, word := w } :=
  (Descrambler.key_setHeld ..).trans (Descrambler.key_setKey ..)

theorem Descrambler.held_stores (d : Descrambler) (r : KeyRecord) (b : Basis) (w : KeyWord) :
    (d.stores r b w).held r.phase = none := Descrambler.held_setHeld ..

theorem Descrambler.key_stores_ne (ne : p ≠ r.phase) (d : Descrambler) (b : Basis) (w : KeyWord) :
    (d.stores r b w).key p = d.key p := (Descrambler.key_setHeld ..).trans (Descrambler.key_setKey_ne ne ..)

theorem Descrambler.held_stores_ne (ne : p ≠ r.phase) (d : Descrambler) (b : Basis) (w : KeyWord) :
    (d.stores r b w).held p = d.held p := (Descrambler.held_setHeld_ne ne ..).trans (Descrambler.held_setKey ..)

/-- A held record that goes as the word of its phase is stored. -/
theorem Descrambler.stores_setHeld (d : Descrambler) (r : KeyRecord) (b : Basis) (w : KeyWord) (x : Option Held) :
    (d.setHeld r.phase x).stores r b w = d.stores r b w := by
  unfold Descrambler.stores
  cases r.phase <;> rfl

theorem Descrambler.outdated_setHeld (d : Descrambler) (r : KeyRecord) (p : Phase) (x : Option Held) :
    (d.setHeld p x).outdated r ↔ d.outdated r := by
  unfold Descrambler.outdated
  rw [Descrambler.key_setHeld]

/-- The difference of two periods modulo 65,536 (R67). -/
theorem period_gap (x y : Half) : (x - y).toNat = (x.toNat + 65536 - y.toNat) % 65536 := by
  rw [BitVec.toNat_sub]
  congr 1
  omega

theorem hasKey_stores (d : Descrambler) (r : KeyRecord) (b : Basis) (w : KeyWord) :
    (d.stores r b w).keyA.isSome ∨ (d.stores r b w).keyB.isSome := by
  have key := d.key_stores r b w
  revert key
  cases r.phase with
  | a => exact fun key => .inl (by rw [show (d.stores r b w).keyA = _ from key]; rfl)
  | b => exact fun key => .inr (by rw [show (d.stores r b w).keyB = _ from key]; rfl)

/-! ### A requirement met (R74, R84) -/

theorem tierHeld_iff (i : Fin 32) : s.tierHeld i = true ↔ (s.access.tiers[i]).held = true
    ∧ ∀ e now, (s.access.tiers[i]).expiry = some e → s.now? = some now → now < e := by
  unfold State.tierHeld
  dsimp only
  rw [Bool.and_eq_true]
  refine and_congr_right fun _ => ?_
  cases (s.access.tiers[i]).expiry <;> cases s.now? <;> simp

theorem inPreview_iff (id : Nat) : s.inPreview k id = true ↔ ∃ e now, (s.slot k).cur = some e ∧ s.now? = some now
    ∧ e.eid = id ∧ now < e.start + 60 * e.preview := by
  unfold State.inPreview
  cases (s.slot k).cur <;> cases s.now? <;> simp

theorem granted_iff (id : Nat) : s.access.grants.any (·.eid == id) = true ↔ ∃ g ∈ s.access.grants, g.eid = id := by
  simp

theorem basisOf_event (id : Nat) : s.basisOf k (.event id) = if s.access.grants.any (·.eid == id) then some (.grant id)
    else if s.inPreview k id then some (.preview id) else none := rfl

/-- The basis that the check finds is the one on which the requirement is met (R84). -/
theorem meets_iff : s.meets k req b ↔ s.basisOf k req = some b := by
  constructor
  · rintro (_ | ⟨i, held, runs⟩ | ⟨g, held⟩ | ⟨e, now, none, cur, known, early⟩)
    · rfl
    · exact if_pos ((tierHeld_iff i).2 ⟨held, runs⟩)
    · rw [basisOf_event, if_pos ((granted_iff _).2 ⟨g, held, rfl⟩)]
    · rw [basisOf_event, if_neg (by simpa using none), if_pos ((inPreview_iff _).2 ⟨e, now, cur, known, rfl, early⟩)]
  · intro found
    cases req with
    | free => exact Option.some.inj found ▸ .free
    | tier i =>
      obtain ⟨held, rfl⟩ : s.tierHeld i = true ∧ Basis.tier i = b := by simpa [State.basisOf] using found
      obtain ⟨held, runs⟩ := (tierHeld_iff i).1 held
      exact .tier i held runs
    | event id =>
      rw [basisOf_event] at found
      split at found
      · rename_i granted
        obtain ⟨g, mem, rfl⟩ := (granted_iff id).1 granted
        exact Option.some.inj found ▸ .grant g mem
      · rename_i ungranted
        obtain ⟨viewed, rfl⟩ : s.inPreview k id = true ∧ Basis.preview id = b := by simpa using found
        obtain ⟨e, now, cur, known, rfl, early⟩ := (inPreview_iff id).1 viewed
        exact .preview e now (fun g mem same => ungranted ((granted_iff _).2 ⟨g, mem, same⟩)) cur known early

theorem unmet_iff : s.unmet k req ↔ s.basisOf k req = none := by
  unfold State.unmet
  rw [Option.eq_none_iff_forall_ne_some]
  exact forall_congr' fun b => not_congr meets_iff

theorem basisOf_congr (tiers : t.access.tiers = s.access.tiers) (grants : t.access.grants = s.access.grants)
    (clock : t.clock = s.clock) (cur : (t.slot k).cur = (s.slot k).cur) (req : Requirement) :
    t.basisOf k req = s.basisOf k req := by
  cases req with
  | free => rfl
  | tier i =>
    unfold State.basisOf State.tierHeld State.now?
    rw [tiers, clock]
  | event id =>
    unfold State.basisOf State.inPreview State.now?
    rw [grants, cur, clock]

/-! ### What the access unit's work on keys leaves -/

/-- The access unit's work on the keys of the slots: it changes slots, the gate array, the access unit's counters and
notices, and nothing else. -/
structure KeyWork (s t : State) : Prop where
  rest : { t with gate := s.gate, slots := s.slots, auxRises := s.auxRises, link := s.link, access := s.access } = s
  rights : { t.access with counters := s.access.counters } = s.access
  applied : t.access.counters.entApplied = s.access.counters.entApplied
  core : t.link.core = s.link.core
  flags : ∀ i : Fin 10, s.link.flags[i] = true → t.link.flags[i] = true

theorem KeyWork.refl (s : State) : KeyWork s s := ⟨rfl, rfl, rfl, rfl, fun _ => id⟩

theorem KeyWork.trans (h : KeyWork s t) (g : KeyWork t u) : KeyWork s u := by
  refine ⟨?_, ?_, g.applied.trans h.applied, g.core.trans h.core, fun i => g.flags i ∘ h.flags i⟩
  · have := congrArg (fun x : State => { x with
      gate := s.gate, slots := s.slots, auxRises := s.auxRises, link := s.link, access := s.access }) g.rest
    exact (this : _ = _).trans h.rest
  · have := congrArg (fun x : Access => { x with counters := s.access.counters }) g.rights
    exact (this : _ = _).trans h.rights

theorem KeyWork.clock (h : KeyWork s t) : t.clock = s.clock := (congrArg State.clock h.rest :)
theorem KeyWork.services (h : KeyWork s t) : t.services = s.services := (congrArg State.services h.rest :)
theorem KeyWork.store (h : KeyWork s t) : t.store = s.store := (congrArg State.store h.rest :)
theorem KeyWork.parental (h : KeyWork s t) : t.parental = s.parental := (congrArg State.parental h.rest :)
theorem KeyWork.restarting (h : KeyWork s t) : t.restarting = s.restarting := (congrArg State.restarting h.rest :)
theorem KeyWork.tiers (h : KeyWork s t) : t.access.tiers = s.access.tiers := (congrArg Access.tiers h.rights :)
theorem KeyWork.grants (h : KeyWork s t) : t.access.grants = s.access.grants := (congrArg Access.grants h.rights :)
theorem KeyWork.purse (h : KeyWork s t) : t.access.purse = s.access.purse := (congrArg Access.purse h.rights :)
theorem KeyWork.purchases (h : KeyWork s t) : t.access.purchases = s.access.purchases :=
  (congrArg Access.purchases h.rights :)

theorem KeyWork.openWord (h : KeyWork s t) (w : KeyWord) : t.openWord w = s.openWord w := by
  have key : t.access.deviceKey = s.access.deviceKey := (congrArg Access.deviceKey h.rights :)
  unfold State.openWord
  rw [key]

theorem Gated.keyWork (h : Gated s t) : KeyWork s t where
  rest := (congrArg (fun x : State => { x with access := s.access }) h.rest :)
  rights := by rw [h.access]
  applied := by rw [h.access]
  core := h.core
  flags := h.flags

theorem keyWork_modSlot (k : Fin 5) (f : Slot → Slot) (s : State) : KeyWork s (s.modSlot k f) :=
  ⟨rfl, rfl, rfl, rfl, fun _ => id⟩

theorem keyWork_modDesc (k : Fin 5) (f : Descrambler → Descrambler) (s : State) : KeyWork s (s.modDesc k f) :=
  keyWork_modSlot k _ s

theorem keyWork_counters (f : AccessCounters → AccessCounters) (s : State)
    (kept : ∀ c, (f c).entApplied = c.entApplied := by intro; rfl) : KeyWork s (s.modAccessCounters f) := ⟨rfl, rfl, kept _, rfl, fun _ => id⟩

theorem keyWork_setEntitledAll (ks : List (Fin 5)) (e q : Bool) (s : State) : KeyWork s (setEntitledAll ks e q s) :=
  (gated_report _ s).keyWork

theorem keyWork_enterHeld (r : Reason) (k : Fin 5) (s : State) : KeyWork s (enterHeld r k s) :=
  (keyWork_modSlot k _ s).trans (gated_raise ..).keyWork

theorem keyWork_chooseByPermit (k : Fin 5) (s : State) : KeyWork s (chooseByPermit k s) := by
  unfold chooseByPermit
  split
  · exact (keyWork_modSlot k _ s).trans (gated_raise ..).keyWork
  · exact keyWork_enterHeld ..

theorem keyWork_acceptWord (k : Fin 5) (s : State) : KeyWork s (acceptWord k s) := by
  unfold acceptWord
  dsimp only
  split
  · exact (keyWork_modSlot k _ s).trans (keyWork_chooseByPermit k _)
  · split
    · exact keyWork_chooseByPermit k s
    · exact .refl s

theorem keyWork_storeWord (k : Fin 5) (r : KeyRecord) (b : Basis) (w : KeyWord) (s : State) :
    KeyWork s (storeWord k r b w s) :=
  ((keyWork_modDesc k _ s).trans (keyWork_counters _ _)).trans (keyWork_acceptWord k _)

theorem keyWork_takeWord (k : Fin 5) (r : KeyRecord) (b : Basis) (w : KeyWord) (s : State) :
    KeyWork s (takeWord k r b w s) := by
  unfold takeWord
  split
  · exact keyWork_storeWord ..
  · dsimp only
    split
    · exact keyWork_counters _ s
    · split
      · exact keyWork_storeWord ..
      · exact keyWork_counters _ s

/-! ### What the work on one slot leaves of another -/

/-- A slot whose service is CLEAR or that has a key, so that its permit alone holds it (R17). -/
def State.playable (s : State) (k : Fin 5) : Prop := s.isClear k = true ∨ (s.slot k).hasKey = true

theorem playable_congr (desc : (t.slot k).desc = (s.slot k).desc) (service : (t.slot k).service = (s.slot k).service)
    (services : t.services = s.services) : t.playable k ↔ s.playable k := by
  unfold State.playable Slot.hasKey
  rw [isClear_congr service services, desc]

/-- A report keeps a slot that can play by its permit (R17). -/
theorem gateActs_playable (g : s.gateActs t) (plays : s.playable k) (stands : s.byPermit k) : t.byPermit k := by
  have plays : s.isClear k = true ∨ (s.slot k).desc.keyA.isSome ∨ (s.slot k).desc.keyB.isSome := by
    simpa [State.playable, Slot.hasKey] using plays
  cases was : s.permit k <;> cases now : t.permit k
  · rw [byPermit_off now, g.still k (now.trans was.symm)]
    exact (byPermit_off was).1 stands
  · obtain ⟨held, off⟩ := (byPermit_off was).1 stands
    rw [byPermit_on now, g.on k was now, if_pos ⟨held, off, plays⟩]
    exact ⟨rfl, rfl, rfl⟩
  · rw [byPermit_off now, g.off k was now, if_pos ((byPermit_on was).1 stands).1]
    exact ⟨rfl, rfl⟩
  · rw [byPermit_on now, g.still k (now.trans was.symm)]
    exact (byPermit_on was).1 stands

/-- Work on the keys of other slots: of this one, the permit alone may move, and with it the slot. -/
structure Aside (k : Fin 5) (s t : State) : Prop extends KeyWork s t where
  slot : (s.slot k).Moved (t.slot k)
  src : t.gate.src[k] = s.gate.src[k]
  stands : s.restarting = false → s.playable k → s.byPermit k → t.byPermit k

theorem Aside.refl (k : Fin 5) (s : State) : Aside k s s := ⟨.refl s, .refl _, rfl, fun _ _ => id⟩

theorem Aside.playable (h : Aside k s t) : t.playable k ↔ s.playable k :=
  playable_congr h.slot.desc h.slot.service h.services

theorem Aside.trans (h : Aside k s t) (g : Aside k t u) : Aside k s u :=
  ⟨h.toKeyWork.trans g.toKeyWork, h.slot.trans g.slot, g.src.trans h.src, fun running plays stands =>
    g.stands (h.restarting.trans running) (h.playable.2 plays) (h.stands running plays stands)⟩

theorem Aside.basisOf (h : Aside k s t) (req : Requirement) : t.basisOf k req = s.basisOf k req :=
  basisOf_congr h.tiers h.grants h.clock h.slot.cur req

/-- Work that leaves the slot and the gate array. -/
theorem KeyWork.aside (work : KeyWork s t) (slot : t.slot k = s.slot k) (gate : t.gate = s.gate) : Aside k s t :=
  ⟨work, slot ▸ .refl _, by rw [gate], fun _ _ => byPermit_congr slot gate⟩

theorem aside_modSlot (ne : j ≠ k) (f : Slot → Slot) (s : State) : Aside k s (s.modSlot j f) :=
  (keyWork_modSlot j f s).aside (slot_modSlot_ne ne f s) rfl

theorem aside_counters (f : AccessCounters → AccessCounters) (s : State)
    (kept : ∀ c, (f c).entApplied = c.entApplied := by intro; rfl) : Aside k s (s.modAccessCounters f) :=
  (keyWork_counters f s kept).aside rfl rfl

theorem aside_raise (x : NoticeKind) (sub : Option Nat) (bytes : List Byte) (s : State) :
    Aside k s (s.raise x sub bytes) :=
  (gated_raise x sub bytes s).keyWork.aside (slot_raise ..) (by rw [raise_frame])

theorem aside_setEntitledAll (apart : k ∉ ks) (e q : Bool) (s : State) : Aside k s (setEntitledAll ks e q s) := by
  refine ⟨keyWork_setEntitledAll .., (gated_report _ s).slots k, gateReport_src_apart (fun c mem src => ?_) s,
    fun running plays stands => gateActs_playable (gateActs_report _ running) plays stands⟩
  rintro ⟨v, rfl⟩
  obtain ⟨j, hj, mem⟩ := List.mem_flatMap.1 mem
  simp only [List.mem_cons, Change.slot.injEq, List.not_mem_nil, or_false] at mem
  rcases mem with ⟨rfl, -⟩ | ⟨rfl, -⟩ <;> exact apart hj

theorem aside_setEntitled (ne : j ≠ k) (e q : Bool) (s : State) : Aside k s (setEntitled j e q s) :=
  aside_setEntitledAll (by simpa using ne.symm) e q s

theorem aside_enterHeld (ne : j ≠ k) (r : Reason) (s : State) : Aside k s (enterHeld r j s) :=
  (aside_modSlot ne _ s).trans (aside_raise ..)

theorem aside_chooseByPermit (ne : j ≠ k) (s : State) : Aside k s (chooseByPermit j s) := by
  unfold chooseByPermit
  split
  · exact (aside_modSlot ne _ s).trans (aside_raise ..)
  · exact aside_enterHeld ne ..

theorem aside_acceptWord (ne : j ≠ k) (s : State) : Aside k s (acceptWord j s) := by
  unfold acceptWord
  dsimp only
  split
  · exact (aside_modSlot ne _ s).trans (aside_chooseByPermit ne _)
  · split
    · exact aside_chooseByPermit ne s
    · exact .refl k s

theorem aside_storeWord (ne : j ≠ k) (r : KeyRecord) (b : Basis) (w : KeyWord) (s : State) :
    Aside k s (storeWord j r b w s) :=
  ((aside_modSlot ne _ s).trans (aside_counters _ _)).trans (aside_acceptWord ne _)

theorem aside_takeWord (ne : j ≠ k) (r : KeyRecord) (b : Basis) (w : KeyWord) (s : State) :
    Aside k s (takeWord j r b w s) := by
  unfold takeWord
  split
  · exact aside_storeWord ne ..
  · dsimp only
    split
    · exact aside_counters _ s
    · split
      · exact aside_storeWord ne ..
      · exact aside_counters _ s

theorem aside_refuseRecord (ne : j ≠ k) (h : Held) (s : State) : Aside k s (refuseRecord j h s) := by
  unfold refuseRecord
  dsimp only
  split
  · exact ((aside_modSlot ne _ s).trans (aside_modSlot ne _ _)).trans (aside_enterHeld ne ..)
  · exact aside_modSlot ne _ s

theorem aside_takeOpened (ne : j ≠ k) (h : Held) (w : KeyWord) (s : State) : Aside k s (takeOpened h w j s) := by
  cases found : s.basisOf j h.record.req with
  | some b =>
    rw [takeOpened_met found]
    exact (aside_setEntitled ne ..).trans (aside_takeWord ne ..)
  | none =>
    rw [takeOpened_unmet found]
    exact ((aside_counters _ s).trans (aside_setEntitled ne ..)).trans (aside_refuseRecord ne ..)

theorem aside_reexaminePhase (ne : j ≠ k) (p : Phase) (s : State) : Aside k s (reexaminePhase j p s) := by
  cases held : (s.slot j).desc.held p with
  | none =>
    rw [reexaminePhase_unheld held]
    exact .refl k s
  | some h =>
    cases opened : s.openWord h.record.wrapped with
    | none =>
      rw [reexaminePhase_unopened held opened]
      exact (aside_modSlot ne _ s).trans (aside_counters _ _)
    | some w =>
      cases found : s.basisOf j h.record.req with
      | some b =>
        rw [reexaminePhase_met held opened found]
        exact ((aside_setEntitled ne ..).trans (aside_modSlot ne _ _)).trans (aside_takeWord ne ..)
      | none =>
        rw [reexaminePhase_unmet held opened found]
        exact (aside_counters _ s).trans (aside_setEntitled ne ..)

theorem forEach_aside {f : Fin 5 → State → State} (apart : ∀ j u, j ≠ k → Aside k u (f j u)) (out : k ∉ ks) (s : State) :
    Aside k s (forEach ks f s) :=
  forEach_keeps (P := Aside k s) (fun j mem u hu => hu.trans (apart j u fun e => out (e ▸ mem))) (.refl k s)

/-- Work on the keys of some slots in turn, seen from one of them: others' work, its own, and others' again. -/
theorem forEach_own {f : Fin 5 → State → State} (apart : ∀ j u, j ≠ k → Aside k u (f j u)) (mem : k ∈ ks)
    (nodup : ks.Nodup) (s : State) : ∃ u, Aside k s u ∧ Aside k (f k u) (forEach ks f s) := by
  obtain ⟨before, after, rfl⟩ := List.append_of_mem mem
  obtain ⟨-, tail, apart'⟩ := List.nodup_append.1 nodup
  refine ⟨forEach before f s, forEach_aside apart (fun e => apart' k e k (by simp) rfl) s, ?_⟩
  have split : forEach (before ++ k :: after) f s = forEach after f (f k (forEach before f s)) := by
    unfold forEach
    rw [List.foldl_append, List.foldl_cons]
  rw [split]
  exact forEach_aside apart (List.nodup_cons.1 tail).1 _

/-! ### What the work makes of its own slot -/

theorem slot_setEntitled (k : Fin 5) (e q : Bool) (s : State) : (s.slot j).Moved ((setEntitled k e q s).slot j) :=
  (gated_setEntitled k e q s).slots j

theorem setEntitledAll_get (mem : k ∈ ks) (e q : Bool) (s : State) :
    ((setEntitledAll ks e q s).gate.src[k]).entitled = e ∧ ((setEntitledAll ks e q s).gate.src[k]).preview = q := by
  have gives : ∀ src v, (.slot k src v : Change) ∈ ([.slot k .entitled e, .slot k .preview q] : List Change) →
      src.bound = true → ((setEntitledAll ks e q s).gate.src[k]).get src = v := by
    intro src v hm bound
    refine gateReport_get bound (fun c hc => ?_) (List.mem_flatMap.2 ⟨k, mem, hm⟩) s
    rintro ⟨v', rfl⟩
    obtain ⟨j, -, hc⟩ := List.mem_flatMap.1 hc
    simp only [List.mem_cons, Change.slot.injEq, List.not_mem_nil, or_false] at hc hm ⊢
    refine ⟨trivial, trivial, ?_⟩
    rcases hc with ⟨rfl, rfl, rfl⟩ | ⟨rfl, rfl, rfl⟩ <;> simp at hm <;> exact hm.symm
  exact ⟨gives .entitled e (by simp) rfl, gives .preview q (by simp) rfl⟩

theorem setEntitled_get (k : Fin 5) (e q : Bool) (s : State) :
    ((setEntitled k e q s).gate.src[k]).entitled = e ∧ ((setEntitled k e q s).gate.src[k]).preview = q :=
  setEntitledAll_get (by simp) e q s

theorem chooseByPermit_gate (k : Fin 5) (s : State) : (chooseByPermit k s).gate = s.gate := by
  obtain ⟨m, e⟩ := exists_chooseByPermit k s
  rw [e]
  rfl

theorem chooseByPermit_slot (k : Fin 5) (s : State) :
    (chooseByPermit k s).slot k = (s.slot k).chosen (s.permit k) s.clock.uptimeMs := by
  obtain ⟨m, e⟩ := exists_chooseByPermit k s
  rw [e]
  exact slot_modSlot_same ..

theorem Slot.chosen_desc (permit : Bool) (now : Nat) (x : Slot) : (x.chosen permit now).desc = x.desc := by
  cases permit <;> rfl

theorem Slot.chosen_cur (permit : Bool) (now : Nat) (x : Slot) : (x.chosen permit now).cur = x.cur := by
  cases permit <;> rfl

theorem chooseByPermit_byPermit (k : Fin 5) (s : State) : (chooseByPermit k s).byPermit k := by
  have permit : (chooseByPermit k s).permit k = s.permit k := by
    unfold State.permit
    rw [chooseByPermit_gate]
  unfold State.byPermit
  rw [permit, chooseByPermit_slot]
  cases s.permit k with
  | true => exact ⟨rfl, rfl, rfl⟩
  | false => exact ⟨rfl, rfl⟩

theorem chooseByPermit_access (k : Fin 5) (s : State) : (chooseByPermit k s).access = s.access := by
  obtain ⟨m, e⟩ := exists_chooseByPermit k s
  rw [e]
  rfl

/-- A word accepted moves its slot and nothing else (R16, R18). -/
theorem acceptWord_leaves (k : Fin 5) (s : State) : (acceptWord k s).gate = s.gate ∧ (acceptWord k s).access = s.access
    ∧ ((acceptWord k s).slot k).desc = (s.slot k).desc := by
  unfold acceptWord
  dsimp only
  split
  · refine ⟨chooseByPermit_gate k _, chooseByPermit_access k _, ?_⟩
    rw [chooseByPermit_slot, slot_modSlot_same, Slot.chosen_desc]
  · split
    · refine ⟨chooseByPermit_gate k _, chooseByPermit_access k _, ?_⟩
      rw [chooseByPermit_slot, Slot.chosen_desc]
    · exact ⟨rfl, rfl, rfl⟩

theorem acceptWord_cur (k : Fin 5) (s : State) : ((acceptWord k s).slot k).cur = (s.slot k).cur := by
  unfold acceptWord
  dsimp only
  split
  · rw [chooseByPermit_slot, Slot.chosen_cur, slot_modSlot_same]
  · split
    · rw [chooseByPermit_slot, Slot.chosen_cur]
    · rfl

/-- A slot that a word finds waiting for it, or standing by its permit, stands by its permit after (R16, R18). -/
theorem acceptWord_byPermit (waits : ((s.slot k).state = .held ∧ ((s.slot k).reason = .notEntitled
    ∨ (s.slot k).reason = .keyLost)) ∨ s.byPermit k) : (acceptWord k s).byPermit k := by
  unfold acceptWord
  dsimp only
  split
  · exact chooseByPermit_byPermit ..
  · split
    · exact chooseByPermit_byPermit ..
    · exact waits.resolve_left ‹_›

theorem takeWord_outdated (older : (s.slot k).desc.outdated r) : takeWord k r b w s = storeWord k r b w s := by
  unfold takeWord
  split
  · rfl
  · rename_i old key
    obtain ⟨one, most⟩ := older old key
    rw [← period_gap] at one most
    dsimp only
    rw [if_neg (by omega), if_pos most]

theorem takeWord_ignored (newer : ¬ (s.slot k).desc.outdated r) :
    ∃ f, takeWord k r b w s = s.modAccessCounters f := by
  unfold takeWord
  split
  · rename_i unkeyed
    refine absurd (fun old key => ?_) newer
    rw [unkeyed] at key
    cases key
  · rename_i old key
    dsimp only
    split
    · exact ⟨_, rfl⟩
    · split
      · rename_i differs most
        refine absurd (fun old' key' => ?_) newer
        rw [key] at key'
        obtain rfl := Option.some.inj key'
        dsimp only
        rw [← period_gap]
        exact ⟨by omega, most⟩
      · exact ⟨_, rfl⟩

theorem storeWord_leaves (k : Fin 5) (r : KeyRecord) (b : Basis) (w : KeyWord) (s : State) :
    (storeWord k r b w s).gate = s.gate
      ∧ (storeWord k r b w s).access = { s.access with
          counters := { s.access.counters with stored := s.access.counters.stored + 1 } }
      ∧ ((storeWord k r b w s).slot k).desc = (s.slot k).desc.stores r b w := by
  obtain ⟨gate, access, desc⟩ := acceptWord_leaves k ((s.modDesc k fun d => d.stores r b w).modAccessCounters fun c =>
    { c with stored := c.stored + 1 })
  refine ⟨gate, access, desc.trans ?_⟩
  rw [State.modAccessCounters, slot_modAccess, State.modDesc, slot_modSlot_same]

theorem takeWord_gate (k : Fin 5) (r : KeyRecord) (b : Basis) (w : KeyWord) (s : State) :
    (takeWord k r b w s).gate = s.gate := by
  by_cases older : (s.slot k).desc.outdated r
  · rw [takeWord_outdated older]
    exact (storeWord_leaves ..).1
  · obtain ⟨f, e⟩ := takeWord_ignored (b := b) (w := w) older
    rw [e]
    rfl

theorem takeWord_desc (k : Fin 5) (r : KeyRecord) (b : Basis) (w : KeyWord) (s : State) :
    ((s.slot k).desc.outdated r → ((takeWord k r b w s).slot k).desc = (s.slot k).desc.stores r b w)
      ∧ (¬ (s.slot k).desc.outdated r → ((takeWord k r b w s).slot k).desc = (s.slot k).desc) := by
  refine ⟨fun older => ?_, fun newer => ?_⟩
  · rw [takeWord_outdated older]
    exact (storeWord_leaves ..).2.2
  · obtain ⟨f, e⟩ := takeWord_ignored (b := b) (w := w) newer
    rw [e]
    rfl

theorem takeWord_cur (k : Fin 5) (r : KeyRecord) (b : Basis) (w : KeyWord) (s : State) :
    ((takeWord k r b w s).slot k).cur = (s.slot k).cur := by
  by_cases older : (s.slot k).desc.outdated r
  · rw [takeWord_outdated older]
    refine (acceptWord_cur k _).trans ?_
    rw [State.modAccessCounters, slot_modAccess, State.modDesc, slot_modSlot_same]
  · obtain ⟨f, e⟩ := takeWord_ignored (b := b) (w := w) older
    rw [e]
    rfl

end Sys2Proof.Machine
end

section
/-! PROOF of O35: KEY records taken, held and re-examined, their words compared, and KEY_TIMEOUT (R16, R61, R62, R65 to
R69, R84). -/

namespace Sys2Proof.Machine

open Sys2Proof

variable {k : Fin 5} {l : Fin 3} {sid : Nat} {b : Basis} {w : KeyWord} {h : Held} {r : KeyRecord} {p : Phase}
  {bytes record : List Byte} {s t u : State}

/-! ### A record taken to one slot (R65 to R68) -/

theorem Slot.Moved.qualified {x y : Slot} (h : x.Moved y) :
    y.state ∈ [SlotState.acquiring, .presenting, .held] ↔ x.state ∈ [SlotState.acquiring, .presenting, .held] := by
  rcases h with rfl | h
  · exact .rfl
  · refine iff_of_true ?_ ?_
    · rcases h.left with ⟨e, -⟩ | ⟨e, -⟩ <;> rw [e] <;> decide
    · rcases h.found with e | ⟨e, -⟩ <;> rw [e] <;> decide

theorem qualifies_iff : s.qualifies l sid k = true ↔ s.takesKeys l sid k := by
  unfold State.qualifies
  dsimp only
  rw [Bool.and_eq_true, Bool.and_eq_true, Bool.and_eq_true, beq_iff_eq, beq_iff_eq]
  have state : (((s.slot k).state == .acquiring || (s.slot k).state == .presenting) || (s.slot k).state == .held) = true
      ↔ (s.slot k).state ∈ [SlotState.acquiring, .presenting, .held] := by
    simp [or_assoc]
  rw [state]
  exact ⟨fun ⟨⟨⟨a, b⟩, c⟩, d⟩ => ⟨a, b, c, d⟩, fun ⟨a, b, c, d⟩ => ⟨⟨⟨a, b⟩, c⟩, d⟩⟩

theorem isScrambled_congr (service : (t.slot k).service = (s.slot k).service) (services : t.services = s.services) :
    t.isScrambled k = s.isScrambled k := by
  unfold State.isScrambled
  rw [serviceOf_congr service services]

theorem Aside.takesKeys (h : Aside k s t) (takes : s.takesKeys l sid k) : t.takesKeys l sid k where
  state := h.slot.qualified.2 takes.state
  lane := h.slot.lane.trans takes.lane
  service := h.slot.service.trans takes.service
  scrambled := (isScrambled_congr h.slot.service h.services).trans takes.scrambled

/-- What a KEY record opened makes of one slot, by its check (R66, R68). -/
structure State.keyed (s t : State) (k : Fin 5) (h : Held) (w : KeyWord) : Prop where
  unmet : s.basisOf k h.record.req = none → (t.gate.src[k]).entitled = false
    ∧ (t.gate.src[k]).preview = (s.gate.src[k]).preview
    ∧ (t.slot k).desc = (s.slot k).desc.setHeld h.record.phase (some h)
    ∧ ((s.slot k).state = .acquiring → (t.slot k).state = .held ∧ (t.slot k).reason = .notEntitled
      ∧ (t.slot k).keyTimer = none)
  met : ∀ b, s.basisOf k h.record.req = some b → (t.gate.src[k]).entitled = true
    ∧ (t.gate.src[k]).preview = b.isPreview
    ∧ ((s.slot k).desc.outdated h.record → (t.slot k).desc = (s.slot k).desc.stores h.record b w)
    ∧ (¬ (s.slot k).desc.outdated h.record → (t.slot k).desc = (s.slot k).desc)

/-- A record not met is held, and a slot in ACQUIRING waits for its entitlement (R16, R68). -/
theorem refuseRecord_leaves (k : Fin 5) (h : Held) (s : State) : (refuseRecord k h s).gate = s.gate
    ∧ ((refuseRecord k h s).slot k).desc = (s.slot k).desc.setHeld h.record.phase (some h)
    ∧ ((s.slot k).state = .acquiring → ((refuseRecord k h s).slot k).state = .held
      ∧ ((refuseRecord k h s).slot k).reason = .notEntitled ∧ ((refuseRecord k h s).slot k).keyTimer = none) := by
  unfold refuseRecord
  simp only [State.modDesc, slot_modSlot_same]
  split
  · refine ⟨?_, ?_⟩
    · exact raise_gate ..
    · unfold enterHeld State.slotNotice
      rw [slot_raise, slot_modSlot_same, slot_modSlot_same, slot_modSlot_same]
      exact ⟨rfl, fun _ => ⟨rfl, rfl, rfl⟩⟩
  · rename_i other
    rw [slot_modSlot_same]
    exact ⟨rfl, rfl, fun e => absurd e other⟩

theorem takeOpened_keyed (h : Held) (w : KeyWord) (k : Fin 5) (s : State) : s.keyed (takeOpened h w k s) k h w := by
  refine ⟨fun unmet => ?_, fun b met => ?_⟩
  · rw [takeOpened_unmet unmet]
    have told := setEntitled_get k false (s.gate.src[k]).preview s.countNotMet
    have moved : (s.slot k).Moved ((setEntitled k false (s.gate.src[k]).preview s.countNotMet).slot k) :=
      slot_setEntitled k _ _ s.countNotMet
    generalize setEntitled k false (s.gate.src[k]).preview s.countNotMet = v at told moved ⊢
    obtain ⟨gate, desc, waits⟩ := refuseRecord_leaves k h v
    rw [gate, desc, moved.desc]
    refine ⟨told.1, told.2, rfl, fun acquiring => waits ?_⟩
    rwa [moved.eq_of_state acquiring (by decide) (by decide)]
  · rw [takeOpened_met met]
    have told := setEntitled_get k true b.isPreview s
    have moved : (s.slot k).Moved ((setEntitled k true b.isPreview s).slot k) := slot_setEntitled k _ _ s
    generalize setEntitled k true b.isPreview s = v at told moved ⊢
    obtain ⟨stores, ignores⟩ := takeWord_desc k h.record b w v
    rw [moved.desc] at stores ignores
    rw [takeWord_gate]
    exact ⟨told.1, told.2, stores, ignores⟩

/-- What one slot sees of a record taken to it among others. -/
theorem State.keyed.among {s u v t : State} (first : Aside k s u) (own : u.keyed v k h w) (last : Aside k v t) :
    s.keyed t k h w := by
  refine ⟨fun unmet => ?_, fun b met => ?_⟩
  · obtain ⟨entitled, preview, desc, waits⟩ := own.unmet ((first.basisOf _).trans unmet)
    rw [last.src, last.slot.desc, desc, first.slot.desc, preview, first.src]
    refine ⟨entitled, rfl, rfl, fun acquiring => ?_⟩
    obtain ⟨state, reason, timer⟩ := waits (by rwa [first.slot.eq_of_state acquiring (by decide) (by decide)])
    rw [last.slot.keyTimer]
    rcases last.slot with same | permitted
    · rw [same]
      exact ⟨state, reason, timer⟩
    · rcases permitted.found with presents | ⟨-, off⟩
      · cases state.symm.trans presents
      · cases reason.symm.trans off
  · obtain ⟨entitled, preview, stores, ignores⟩ := own.met b ((first.basisOf _).trans met)
    rw [last.src, last.slot.desc, ← first.slot.desc]
    exact ⟨entitled, preview, stores, ignores⟩

theorem allSlots_nodup : allSlots.Nodup := by decide

theorem mem_allSlots (k : Fin 5) : k ∈ allSlots := by decide +revert

theorem takeKeyRecord_unclaimed (none : ∀ k, ¬ s.takesKeys l r.sid k) :
    takeKeyRecord l r s = s.modAccessCounters fun c => { c with unclaimed := c.unclaimed + 1 } := by
  have empty : allSlots.filter (s.qualifies l r.sid) = [] :=
    List.filter_eq_nil_iff.2 fun k _ q => none k (qualifies_iff.1 q)
  unfold takeKeyRecord
  rw [empty]
  rfl

theorem qualified_nonempty (some : s.takesKeys l sid k) : (allSlots.filter (s.qualifies l sid)).isEmpty = false := by
  rw [List.isEmpty_eq_false_iff_exists_mem]
  exact ⟨k, List.mem_filter.2 ⟨mem_allSlots k, qualifies_iff.2 some⟩⟩

theorem takeKeyRecord_refused (takes : s.takesKeys l r.sid k) (unopened : s.openWord r.wrapped = none) :
    takeKeyRecord l r s = s.countRefused := by
  unfold takeKeyRecord
  dsimp only
  rw [qualified_nonempty takes, unopened]
  rfl

/-- A record taken to a slot if it still qualifies when its turn comes (R65). -/
def takeQualified (l : Fin 3) (r : KeyRecord) (w : KeyWord) (k : Fin 5) (s : State) : State :=
  if s.qualifies l r.sid k then takeOpened { record := r, lane := l } w k s else s

theorem takeKeyRecord_opened (takes : s.takesKeys l r.sid k) (opened : s.openWord r.wrapped = some w) :
    takeKeyRecord l r s = forEach (allSlots.filter (s.qualifies l r.sid)) (takeQualified l r w) s := by
  unfold takeKeyRecord
  dsimp only
  rw [qualified_nonempty takes, opened]
  rfl

theorem takeKeyRecord_keyed (takes : s.takesKeys l r.sid k) (opened : s.openWord r.wrapped = some w) :
    s.keyed (takeKeyRecord l r s) k { record := r, lane := l } w := by
  rw [takeKeyRecord_opened takes opened]
  have apart : ∀ j u, j ≠ k → Aside k u (takeQualified l r w j u) := fun j u ne => by
    unfold takeQualified
    split
    · exact aside_takeOpened ne _ w u
    · exact .refl k u
  obtain ⟨u, first, last⟩ := forEach_own apart (List.mem_filter.2 ⟨mem_allSlots k, qualifies_iff.2 takes⟩)
    (allSlots_nodup.filter _) s
  have own : takeQualified l r w k u = takeOpened { record := r, lane := l } w k u :=
    if_pos (qualifies_iff.2 (first.takesKeys takes))
  rw [own] at last
  exact (takeOpened_keyed _ w k u).among first last

/-! ### A held record re-examined (R69) -/

theorem reexaminePhase_discards (held : (s.slot k).desc.held p = some h) (unopened : s.openWord h.record.wrapped = none) :
    ((reexaminePhase k p s).slot k).desc = (s.slot k).desc.setHeld p none ∧ (reexaminePhase k p s).gate = s.gate
      ∧ (reexaminePhase k p s).access.counters
        = { s.access.counters with openRefused := s.access.counters.openRefused + 1 } := by
  rw [reexaminePhase_unopened held unopened]
  refine ⟨?_, rfl, rfl⟩
  unfold State.countRefused State.modAccessCounters State.modDesc
  rw [slot_modAccess, slot_modSlot_same]

theorem reexaminePhase_keeps (held : (s.slot k).desc.held p = some h) (opened : s.openWord h.record.wrapped = some w)
    (unmet : s.basisOf k h.record.req = none) :
    (s.slot k).Moved ((reexaminePhase k p s).slot k) ∧ ((reexaminePhase k p s).gate.src[k]).entitled = false
      ∧ (reexaminePhase k p s).access = s.countNotMet.access := by
  rw [reexaminePhase_unmet held opened unmet]
  exact ⟨slot_setEntitled k _ _ s.countNotMet, (setEntitled_get k _ _ s.countNotMet).1,
    (gated_setEntitled k _ _ s.countNotMet).access⟩

theorem reexaminePhase_takes (held : (s.slot k).desc.held p = some h) (phase : h.record.phase = p)
    (opened : s.openWord h.record.wrapped = some w) (met : s.basisOf k h.record.req = some b) :
    ((reexaminePhase k p s).gate.src[k]).entitled = true ∧ ((reexaminePhase k p s).gate.src[k]).preview = b.isPreview
      ∧ ((s.slot k).desc.outdated h.record →
        ((reexaminePhase k p s).slot k).desc = (s.slot k).desc.stores h.record b w)
      ∧ (¬ (s.slot k).desc.outdated h.record →
        ((reexaminePhase k p s).slot k).desc = (s.slot k).desc.setHeld p none) := by
  subst phase
  rw [reexaminePhase_met held opened met]
  have told := setEntitled_get k true b.isPreview s
  have moved : (s.slot k).Moved ((setEntitled k true b.isPreview s).slot k) := slot_setEntitled k _ _ s
  generalize setEntitled k true b.isPreview s = v at told moved ⊢
  have desc : ((v.modDesc k fun d => d.setHeld h.record.phase none).slot k).desc
      = (s.slot k).desc.setHeld h.record.phase none := by
    rw [State.modDesc, slot_modSlot_same, moved.desc]
  obtain ⟨stores, ignores⟩ := takeWord_desc k h.record b w (v.modDesc k fun d => d.setHeld h.record.phase none)
  rw [desc, Descrambler.outdated_setHeld] at stores ignores
  rw [takeWord_gate]
  exact ⟨told.1, told.2, fun older => (stores older).trans (Descrambler.stores_setHeld ..), ignores⟩

/-! ### Periods compared (R67) -/

/-- A word stored: its key, the held record of its phase gone, the word counted, and the other phase left. -/
theorem takeWord_stores (older : (s.slot k).desc.outdated r) :
    ((takeWord k r b w s).slot k).desc.key r.phase
        = some { period := r.period, req := r.req, basis := b, word := w }
      ∧ ((takeWord k r b w s).slot k).desc.held r.phase = none
      ∧ (takeWord k r b w s).access.counters = { s.access.counters with stored := s.access.counters.stored + 1 }
      ∧ ∀ p, p ≠ r.phase → ((takeWord k r b w s).slot k).desc.key p = (s.slot k).desc.key p
        ∧ ((takeWord k r b w s).slot k).desc.held p = (s.slot k).desc.held p := by
  obtain ⟨-, access, desc⟩ := storeWord_leaves k r b w s
  rw [takeWord_outdated older, desc, access]
  exact ⟨Descrambler.key_stores .., Descrambler.held_stores .., rfl, fun p other =>
    ⟨Descrambler.key_stores_ne other .., Descrambler.held_stores_ne other ..⟩⟩

theorem outdated_unkeyed (unkeyed : (s.slot k).desc.key r.phase = none) : (s.slot k).desc.outdated r := fun old key => by
  rw [unkeyed] at key
  cases key

theorem outdated_of_gap {old : Key} (key : (s.slot k).desc.key r.phase = some old)
    (one : 1 ≤ (r.period.toNat + 65536 - old.period.toNat) % 65536)
    (most : (r.period.toNat + 65536 - old.period.toNat) % 65536 ≤ 32767) : (s.slot k).desc.outdated r :=
  fun old' key' => by
    rw [key] at key'
    cases key'
    exact ⟨one, most⟩

theorem takeWord_duplicate {old : Key} (key : (s.slot k).desc.key r.phase = some old)
    (same : (r.period.toNat + 65536 - old.period.toNat) % 65536 = 0) :
    takeWord k r b w s = s.modAccessCounters fun c => { c with duplicate := c.duplicate + 1 } := by
  unfold takeWord
  rw [key]
  dsimp only
  rw [period_gap, if_pos same]

theorem takeWord_stale {old : Key} (key : (s.slot k).desc.key r.phase = some old)
    (past : 32768 ≤ (r.period.toNat + 65536 - old.period.toNat) % 65536) :
    takeWord k r b w s = s.modAccessCounters fun c => { c with stale := c.stale + 1 } := by
  unfold takeWord
  rw [key]
  dsimp only
  rw [period_gap, if_neg (by omega), if_neg (by omega)]

/-! ### KEY records in cells (R61, R62) -/

theorem deliver_key (fields : keyRecordOf record = some r) (u : State) :
    deliver l { kind := 1, bytes := record } u = takeKeyRecord l r u := by
  simp only [deliver, fields]

theorem deliver_badKey (bad : keyRecordOf record = none) (u : State) :
    deliver l { kind := 1, bytes := record } u = u.streamRecordBad := by
  simp only [deliver, bad]

theorem takeKeyRecord_work (l : Fin 3) (r : KeyRecord) : ConsumerWork (takeKeyRecord l r) where
  runs s := .ofFlow ((Flow.refl none s).takeKeyRecord l r)
  twin _ _ h := h.takeKeyRecord l r

/-! ### KEY_TIMEOUT (R16, R20) -/

/-- A slot's record in FAULTED: without its lane, its keys and its key timer. -/
def Slot.faulted (r : Reason) (x : Slot) : Slot :=
  { x with state := .faulted, reason := r, lane := none, desc := {}, keyTimer := none }

/-- A slot FAULTED, out of the queue and of every filter entry, and its gate sources told. -/
structure State.faulted (s t : State) (r : Reason) (k : Fin 5) : Prop where
  slot : t.slot k = (s.slot k).faulted r
  rests : t.rests k
  unlisted : t.unlisted k
  told : t.laneTold k

theorem State.faulted.spared {reason : Reason} (h : s.faulted t reason k) (g : Spares k t u) : s.faulted u reason k :=
  ⟨g.slot.trans h.slot, g.rests, g.unlisted h.unlisted, g.laneTold h.told⟩

/-- A slot that has left its filter entries and its lane and stands in FAULTED; nothing is told of it yet. -/
def State.stricken (s : State) (reason : Reason) (k : Fin 5) : State :=
  (s.modRouter (Router.removeSlot k [])).modSlot k (Slot.faulted reason)

theorem faultSlot_eq (reason : Reason) (k : Fin 5) (s : State) :
    faultSlot reason k s = (tellInterrupted k (reportLeft k (s.stricken reason k))).slotNotice k := by
  unfold faultSlot dropFilters
  dsimp only
  rw [modSlot_modSlot]
  rfl

/-- The schedule unit told is a schedule entry new. -/
theorem exists_tellInterrupted (k : Fin 5) (s : State) : ∃ es, tellInterrupted k s = { s with schedule := es } := by
  unfold tellInterrupted
  split
  · exact ⟨_, rfl⟩
  · exact ⟨_, rfl⟩

theorem faulted_faultSlot (reason : Reason) (waits : s.unqueued k) : s.faulted (faultSlot reason k s) reason k := by
  have gated := gated_reportLeft k (s.stricken reason k)
  have told := laneTold_reportLeft k (s.stricken reason k)
  have stricken : (s.stricken reason k).slot k = (s.slot k).faulted reason := slot_modSlot_same ..
  rw [faultSlot_eq]
  generalize reportLeft k (s.stricken reason k) = v at gated told ⊢
  have slot : v.slot k = (s.slot k).faulted reason := by
    rw [(gated.slots k).eq_of (by rw [stricken]; exact (by decide : SlotState.faulted ≠ .presenting))
      (by rw [stricken]; exact (by decide : SlotState.faulted ≠ .held)), stricken]
  obtain ⟨es, e⟩ := exists_tellInterrupted k v
  have noted := gated_raise .slot (some k.val) (slotNoticeBytes k ((tellInterrupted k v).slot k)) (tellInterrupted k v)
  have same : ((tellInterrupted k v).slotNotice k).slot k = (s.slot k).faulted reason := by
    rw [State.slotNotice, slot_raise, e]
    exact slot
  have gate : ((tellInterrupted k v).slotNotice k).gate = v.gate := by
    rw [State.slotNotice, raise_gate, e]
  refine ⟨same, ⟨?_, ?_, ?_, fun l lane => ?_⟩, ?_, ?_⟩
  · have arb : ((tellInterrupted k v).slotNotice k).arb = s.arb := by
      rw [State.slotNotice, noted.arb, e]
      exact gated.arb
    unfold State.unqueued
    rwa [arb]
  · rw [same]
    exact (by decide : SlotState.faulted ≠ .presenting)
  · rw [same]
    exact (by decide : SlotState.faulted ≠ .held)
  · rw [same] at lane
    cases lane
  · have router : ((tellInterrupted k v).slotNotice k).router = (s.stricken reason k).router := by
      rw [State.slotNotice, noted.router, e]
      exact gated.router
    unfold State.unlisted
    rw [router]
    exact unlisted_removed k _
  · rw [laneTold_iff] at told ⊢
    rw [gate, told, State.slotNotice, noted.laneSays, e]
    rfl

theorem faultSlot_flag (reason : Reason) (k : Fin 5) (running : s.restarting = false) :
    (faultSlot reason k s).link.flags[0] = true := by
  rw [faultSlot_eq]
  have restarting : (tellInterrupted k (reportLeft k (s.stricken reason k))).restarting = false := by
    obtain ⟨es, e⟩ := exists_tellInterrupted k (reportLeft k (s.stricken reason k))
    rw [e]
    exact (gated_reportLeft k _).restarting.trans running
  exact (raise_flags restarting .slot (some k.val) _ 0 (by decide)).trans (if_pos rfl)

theorem keyTimeout_idle (idle : (s.slot k).state ≠ .acquiring ∨ (s.slot k).keyTimer = none) : keyTimeout k s = s := by
  refine if_neg fun ⟨acquiring, timed⟩ => ?_
  rcases idle with other | stopped
  · exact other acquiring
  · rw [stopped] at timed
    cases timed

theorem keyTimeout_eq (acquiring : (s.slot k).state = .acquiring) (timed : (s.slot k).keyTimer.isSome) :
    keyTimeout k s = homeRedecide (releaseLeft (s.slot k).lane (faultSlot .keyTimeout k s)) :=
  if_pos ⟨acquiring, timed⟩

theorem keyTimeout_faults (acquiring : (s.slot k).state = .acquiring) (timed : (s.slot k).keyTimer.isSome)
    (waits : s.unqueued k) (running : s.restarting = false) :
    s.faulted (keyTimeout k s) .keyTimeout k ∧ (keyTimeout k s).link.flags[0] = true := by
  rw [keyTimeout_eq acquiring timed]
  have faulted := faulted_faultSlot .keyTimeout waits
  have flag := faultSlot_flag .keyTimeout k running
  generalize faultSlot .keyTimeout k s = v at faulted flag ⊢
  have flow := ((Flow.refl none v).releaseLeft (nobody v) (s.slot k).lane).homeRedecide (nobody v)
  exact ⟨faulted.spared ((Spares.refl faulted.rests).releaseLeft _).homeRedecide, flow.flags 0 flag⟩

theorem keyTimeout_acts (k : Fin 5) (s : State) : Acts s (keyTimeout k s) := (Acts.refl s).flow ((Flow.refl none s).keyTimeout k)

theorem keyTimeout_event (live : s.live) (acquiring : (s.slot k).state = .acquiring) (timed : (s.slot k).keyTimer.isSome)
    (waits : s.unqueued k) (quiet : s.noRise) :
    (s.event (keyTimeout k)).tables = s.tables ∧ s.faulted (s.event (keyTimeout k)) .keyTimeout k
      ∧ (s.event (keyTimeout k)).link.flags[0] = true := by
  have acts := keyTimeout_acts k s.clearOut
  obtain ⟨faulted, flag⟩ := keyTimeout_faults (s := s.clearOut) acquiring timed waits live.running
  have served := served_event_quiet (keyTimeout k) live rfl (acts.noRise quiet)
  have calmed : s.clearOut.faulted { keyTimeout k s.clearOut with auxRises := [] } .keyTimeout k :=
    faulted.spared ((Spares.refl faulted.rests).step id rfl (fun _ _ => rfl) rfl id rfl)
  refine ⟨event_tables_of_acts _ live acts, ⟨(served.slot k).trans calmed.slot, ?_,
    served.unlisted calmed.unlisted, served.laneTold calmed.told⟩, ?_⟩
  · exact calmed.rests.congr served.unqueued (served.slot k) fun l _ => served.lane l
  · rw [served.flags]
    exact flag

/-- Settles O35: a record's way to a slot is its own work between others', a held record's re-examination goes by its
three cases, and KEY_TIMEOUT leaves its slot at rest, out of the reach of the lane's release. -/
theorem keysComparedAndTimed : Obligations.KeysComparedAndTimed := by
  refine ⟨fun l bytes record s live brings => ⟨fun r fields quiet => ⟨_, rfl, ?_⟩, fun bad => ?_⟩,
    fun l r s => ⟨takeKeyRecord_unclaimed, fun ⟨k, takes⟩ unopened => takeKeyRecord_refused takes unopened,
      fun k w takes opened => ?_⟩, fun k p s => ⟨reexaminePhase_unheld, fun h held phase => ⟨fun unopened => ?_,
      fun w opened => ⟨fun unmet => ?_, fun b met => ?_⟩⟩⟩, fun k r b w s => ⟨fun unkeyed => ?_, fun old key => ?_⟩,
    fun k s live => ⟨fun idle => ⟨_, rfl, ?_⟩, fun acquiring timed waits quiet => ⟨_, rfl, ?_⟩⟩⟩
  · have delivers := deliver_key (l := l) fields
    exact ⟨cell_unanswered brings delivers live (takeKeyRecord_work l r),
      cell_likewise brings delivers live (takeKeyRecord_work l r) quiet⟩
  · exact cell_discards brings (deliver_badKey bad) live rfl
  · have keyed := takeKeyRecord_keyed takes opened
    exact ⟨fun unmet => keyed.unmet (unmet_iff.1 unmet), fun b met => keyed.met b (meets_iff.1 met)⟩
  · exact reexaminePhase_discards held unopened
  · obtain ⟨moved, entitled, access⟩ := reexaminePhase_keeps held opened (unmet_iff.1 unmet)
    exact ⟨moved.desc, entitled, congrArg Access.counters access⟩
  · exact reexaminePhase_takes held phase opened (meets_iff.1 met)
  · exact takeWord_stores (outdated_unkeyed unkeyed)
  · exact ⟨fun one most => takeWord_stores (outdated_of_gap key one most), takeWord_duplicate key, takeWord_stale key⟩
  · have still : keyTimeout k s.clearOut = s.clearOut := keyTimeout_idle idle
    refine ⟨event_unanswered _ live ?_, event_unmoved _ live still⟩
    rw [still]
    exact (settle_owned _).core
  · obtain ⟨tables, faulted, flag⟩ := keyTimeout_event live acquiring timed waits quiet
    rw [faulted.slot]
    refine ⟨unanswered_of_acts _ live (keyTimeout_acts k _), tables, rfl, rfl, rfl, rfl, flag, ⟨?_, ?_, ?_⟩, faulted.told⟩
    · rw [faulted.slot]
      rfl
    · rw [faulted.slot]
      rfl
    · exact faulted.unlisted

end Sys2Proof.Machine
end

section
/-! SUPPORT. A hand-over to the retained store (R178), the re-examination of the held refused records (R69, R86), and a
withdrawal (R85), each seen from one slot. -/

namespace Sys2Proof.Machine

open Sys2Proof

variable {k : Fin 5} {b : Basis} {w : KeyWord} {h : Held} {p q : Phase} {unit other : UnitId} {image : UnitImage}
  {number : StoreNumber} {s t u v x y z : State}

/-! ### A unit handed over (R178) -/

/-- A store holds a hand-over that it is writing, or has queued or waiting. -/
theorem Store.holds_iff (st : Store) : st.holds unit number = true ↔
    (∃ r ∈ st.writing, r.1.unit = unit ∧ r.1.number = number)
      ∨ ∃ r ∈ st.queue ++ st.waiting, r.unit = unit ∧ r.number = number := by
  simp only [Store.holds, Bool.or_eq_true, List.any_eq_true, Option.any_eq_true, Bool.and_eq_true, beq_iff_eq,
    Option.mem_def, or_assoc, List.mem_append, or_and_right, exists_or]

theorem Store.holds_fill (now : Nat) (line : List HandOver) (st : Store) :
    (Store.fill now line st).holds unit number = true ↔
      (∃ r ∈ st.writing, r.1.unit = unit ∧ r.1.number = number) ∨ ∃ r ∈ line, r.unit = unit ∧ r.number = number := by
  rw [Store.holds_iff]
  unfold Store.fill
  split
  · rename_i r rest idle
    simp [idle, List.take_append_drop]
  · simp [List.take_append_drop]

theorem Store.handOver_last (now : Nat) (unit : UnitId) (image : UnitImage) (st : Store) :
    (Store.handOver now unit image st).last = st.last + 1 := Store.fill_last ..

theorem Store.handOver_holds (now : Nat) (unit : UnitId) (image : UnitImage) (st : Store) :
    (Store.handOver now unit image st).holds unit (st.last + 1) = true :=
  (Store.holds_fill ..).2 (.inr ⟨_, List.mem_append_right _ (List.mem_singleton.2 rfl), rfl, rfl⟩)

/-- A unit handed over displaces no other. -/
theorem Store.handOver_keeps {st : Store} (now : Nat) (image : UnitImage) (apart : other ≠ unit)
    (held : st.holds other number = true) : (Store.handOver now unit image st).holds other number = true := by
  refine (Store.holds_fill ..).2 (((Store.holds_iff st).1 held).imp_right ?_)
  rintro ⟨r, mem, rfl, rfl⟩
  exact ⟨r, List.mem_append_left _ (List.mem_filter.2 ⟨mem, bne_iff_ne.2 apart⟩), rfl, rfl⟩

/-- A store that holds a unit under some number does so after any hand-over. -/
theorem Store.handOver_held {st : Store} (now : Nat) (unit : UnitId) (image : UnitImage)
    (held : ∃ n, st.holds other n = true) : ∃ n, (Store.handOver now unit image st).holds other n = true := by
  obtain ⟨n, held⟩ := held
  by_cases same : other = unit
  · subst same
    exact ⟨_, Store.handOver_holds now other image st⟩
  · exact ⟨n, Store.handOver_keeps now image same held⟩

/-! ### One held record re-examined, seen from its slot (R69) -/

/-- A slot waits for its entitlement, so that a word accepted has it stand by its permit (R18). -/
def State.awaitsKey (s : State) (k : Fin 5) : Prop :=
  (s.slot k).state = .held ∧ ((s.slot k).reason = .notEntitled ∨ (s.slot k).reason = .keyLost)

/-- A slot stands by its permit and can play, so that reports alone keep it so (R17). -/
structure State.standsReady (s : State) (k : Fin 5) : Prop where
  plays : s.playable k
  stands : s.byPermit k

theorem standsReady_counters (f : AccessCounters → AccessCounters) :
    (s.modAccessCounters f).standsReady k ↔ s.standsReady k :=
  ⟨fun h => ⟨h.plays, h.stands⟩, fun h => ⟨h.plays, h.stands⟩⟩

theorem Aside.standsReady (h : Aside k s t) (running : s.restarting = false) (ready : s.standsReady k) :
    t.standsReady k := ⟨h.playable.2 ready.plays, h.stands running ready.plays ready.stands⟩

theorem Slot.Moved.awaitsKey (h : (s.slot k).Moved (t.slot k)) (waits : s.awaitsKey k) : t.awaitsKey k := by
  unfold State.awaitsKey
  rcases h with same | permitted
  · rwa [same]
  · obtain ⟨held, reason⟩ := waits
    rcases permitted.found with presents | ⟨-, off⟩
    · cases held.symm.trans presents
    · rcases reason with reason | reason <;> cases reason.symm.trans off

/-- What the re-examination of a slot's record of one phase makes of the slot (R69). -/
structure Reexamines (k : Fin 5) (p : Phase) (x y : State) : Prop extends KeyWork x y where
  cur : (y.slot k).cur = (x.slot k).cur
  apart : ∀ q, q ≠ p → (y.slot k).desc.key q = (x.slot k).desc.key q ∧ (y.slot k).desc.held q = (x.slot k).desc.held q
  unheld : (x.slot k).desc.held p = none → y = x
  unopened : ∀ h, (x.slot k).desc.held p = some h → x.openWord h.record.wrapped = none →
    (y.slot k).desc.held p = none ∧ (y.slot k).desc.key p = (x.slot k).desc.key p ∧ y.gate = x.gate
  unmet : ∀ h, (x.slot k).desc.held p = some h → (x.openWord h.record.wrapped).isSome → x.basisOf k h.record.req = none →
    (y.slot k).desc.held p = some h ∧ (y.slot k).desc.key p = (x.slot k).desc.key p
      ∧ (y.gate.src[k]).entitled = false
  met : ∀ h w b, (x.slot k).desc.held p = some h → x.openWord h.record.wrapped = some w →
    x.basisOf k h.record.req = some b →
    (y.slot k).desc.held p = none
      ∧ (¬ (x.slot k).desc.outdated h.record → (y.slot k).desc.key p = (x.slot k).desc.key p)
      ∧ ((x.slot k).desc.outdated h.record →
        (y.slot k).desc.key p = some { period := h.record.period, req := h.record.req, basis := b, word := w }
        ∧ (x.restarting = false → x.awaitsKey k ∨ x.standsReady k → y.standsReady k))
      ∧ (y.gate.src[k]).entitled = true ∧ (y.gate.src[k]).preview = b.isPreview
  waits : x.restarting = false → x.awaitsKey k → y.awaitsKey k ∨ y.standsReady k
  ready : x.restarting = false → x.standsReady k → y.standsReady k

theorem modDesc_slot (k : Fin 5) (f : Descrambler → Descrambler) (s : State) :
    (s.modDesc k f).slot k = { s.slot k with desc := f (s.slot k).desc } := slot_modSlot_same ..

theorem byPermit_modDesc (k : Fin 5) (f : Descrambler → Descrambler) (s : State) :
    (s.modDesc k f).byPermit k ↔ s.byPermit k := by
  unfold State.byPermit
  rw [modDesc_slot]
  exact .rfl

theorem awaitsKey_modDesc (k : Fin 5) (f : Descrambler → Descrambler) (s : State) :
    (s.modDesc k f).awaitsKey k ↔ s.awaitsKey k := by
  unfold State.awaitsKey
  rw [modDesc_slot]

/-- A change of a descrambler that leaves its keys. -/
theorem standsReady_modDesc {f : Descrambler → Descrambler} (keys : ∀ q, (f (s.slot k).desc).key q = (s.slot k).desc.key q) :
    (s.modDesc k f).standsReady k ↔ s.standsReady k := by
  have key : (s.modDesc k f).playable k ↔ s.playable k := by
    have a : (f (s.slot k).desc).keyA = (s.slot k).desc.keyA := keys .a
    have b : (f (s.slot k).desc).keyB = (s.slot k).desc.keyB := keys .b
    unfold State.playable Slot.hasKey
    rw [modDesc_slot, isClear_congr (t := s.modDesc k f) (s := s) (by rw [modDesc_slot]) rfl, a, b]
  have permit := byPermit_modDesc k f s
  exact ⟨fun ready => ⟨key.1 ready.plays, permit.1 ready.stands⟩, fun ready => ⟨key.2 ready.plays, permit.2 ready.stands⟩⟩

/-- A word stored for a slot that waits for it, or stands by its permit, leaves it standing so with a key (R18, R67). -/
theorem storeWord_ready (r : KeyRecord) (b : Basis) (w : KeyWord) (waits : s.awaitsKey k ∨ s.byPermit k) :
    (storeWord k r b w s).standsReady k := by
  refine ⟨.inr ?_, acceptWord_byPermit (waits.imp (awaitsKey_modDesc k (·.stores r b w) s).2
    (byPermit_modDesc k (·.stores r b w) s).2)⟩
  unfold Slot.hasKey
  rw [(storeWord_leaves k r b w s).2.2, Bool.or_eq_true]
  exact hasKey_stores ..

/-- The access unit's report of a slot leaves it standing by its permit (R17, R84). -/
theorem setEntitled_ready (e v : Bool) (running : s.restarting = false) (ready : s.standsReady k) :
    (setEntitled k e v s).standsReady k := by
  have gated := gated_setEntitled k e v s
  exact ⟨(playable_congr (gated.slots k).desc (gated.slots k).service gated.services).2 ready.plays,
    gateActs_playable (gateActs_report _ running) ready.plays ready.stands⟩

theorem reexamines_unheld (held : (s.slot k).desc.held p = none) : Reexamines k p s (reexaminePhase k p s) := by
  rw [reexaminePhase_unheld held]
  refine ⟨.refl s, rfl, fun _ _ => ⟨rfl, rfl⟩, fun _ => rfl, fun h e => ?_, fun h e => ?_, fun h w b e => ?_,
    fun _ => .inl, fun _ => id⟩
  all_goals
    rw [held] at e
    cases e

theorem reexamines_unopened (held : (s.slot k).desc.held p = some h) (unopened : s.openWord h.record.wrapped = none) :
    Reexamines k p s (reexaminePhase k p s) := by
  rw [reexaminePhase_unopened held unopened]
  have slot : (s.modDesc k fun d => d.setHeld p none).countRefused.slot k
      = { s.slot k with desc := (s.slot k).desc.setHeld p none } := modDesc_slot k (·.setHeld p none) s
  refine ⟨(keyWork_modDesc k _ s).trans (keyWork_counters _ _), by rw [slot], fun q other => ?_, fun none => ?_,
    fun _ _ _ => ?_, fun h' e opened => ?_, fun h' w b e opened => ?_, fun _ waits => .inl ((awaitsKey_modDesc k (·.setHeld p none) s).2 waits),
    fun _ ready => (standsReady_counters _).2 <| (standsReady_modDesc (f := (·.setHeld p none)) fun q => Descrambler.key_setHeld ..).2 ready⟩
  · rw [slot]
    exact ⟨Descrambler.key_setHeld .., Descrambler.held_setHeld_ne other ..⟩
  · rw [held] at none
    cases none
  · rw [slot]
    exact ⟨Descrambler.held_setHeld .., Descrambler.key_setHeld .., rfl⟩
  all_goals
    rw [held] at e
    cases e
    rw [unopened] at opened
    cases opened

theorem reexamines_unmet (held : (s.slot k).desc.held p = some h) (opened : s.openWord h.record.wrapped = some w)
    (unmet : s.basisOf k h.record.req = none) : Reexamines k p s (reexaminePhase k p s) := by
  rw [reexaminePhase_unmet held opened unmet]
  have moved : (s.slot k).Moved ((setEntitled k false (s.gate.src[k]).preview s.countNotMet).slot k) :=
    slot_setEntitled k _ _ s.countNotMet
  refine ⟨(keyWork_counters _ s).trans (gated_setEntitled ..).keyWork, moved.cur, fun q _ => ?_, fun none => ?_,
    fun h' e unopened => ?_, fun h' e _ _ => ?_, fun h' w' b e _ met => ?_, fun _ waits => .inl (moved.awaitsKey waits),
    fun running ready => setEntitled_ready (s := s.countNotMet) _ _ running ((standsReady_counters _).2 ready)⟩
  · rw [moved.desc]
    exact ⟨rfl, rfl⟩
  · rw [held] at none
    cases none
  · rw [held] at e
    cases e
    rw [opened] at unopened
    cases unopened
  · rw [held] at e
    cases e
    rw [moved.desc]
    exact ⟨held, rfl, (setEntitled_get k _ _ s.countNotMet).1⟩
  · rw [held] at e
    cases e
    rw [unmet] at met
    cases met

theorem reexamines_met (phase : h.record.phase = p) (held : (s.slot k).desc.held p = some h)
    (opened : s.openWord h.record.wrapped = some w) (met : s.basisOf k h.record.req = some b) :
    Reexamines k p s (reexaminePhase k p s) := by
  obtain ⟨entitled, preview, stores, ignores⟩ := reexaminePhase_takes held phase opened met
  subst phase
  rw [reexaminePhase_met held opened met] at entitled preview stores ignores ⊢
  have gated := gated_setEntitled k true b.isPreview s
  have ready := setEntitled_ready (s := s) (k := k) true b.isPreview
  generalize setEntitled k true b.isPreview s = v at gated ready entitled preview stores ignores ⊢
  have moved := gated.slots k
  have older : ((v.modDesc k fun d => d.setHeld h.record.phase none).slot k).desc.outdated h.record
      ↔ (s.slot k).desc.outdated h.record := by
    rw [modDesc_slot, Descrambler.outdated_setHeld, moved.desc]
  have left : (v.modDesc k fun d => d.setHeld h.record.phase none).standsReady k ↔ v.standsReady k :=
    standsReady_modDesc (f := (·.setHeld h.record.phase none)) fun q => Descrambler.key_setHeld ..
  have ignored : ¬ (s.slot k).desc.outdated h.record →
      ∃ f, takeWord k h.record b w (v.modDesc k fun d => d.setHeld h.record.phase none)
        = (v.modDesc k fun d => d.setHeld h.record.phase none).modAccessCounters f :=
    fun newer => takeWord_ignored (mt older.1 newer)
  have stands : (s.slot k).desc.outdated h.record → s.restarting = false → s.awaitsKey k ∨ s.standsReady k →
      (takeWord k h.record b w (v.modDesc k fun d => d.setHeld h.record.phase none)).standsReady k :=
    fun out running waits => by
      rw [takeWord_outdated (older.2 out)]
      refine storeWord_ready _ _ _ (waits.imp (fun waits => ?_) fun stood => ?_)
      · exact (awaitsKey_modDesc k (·.setHeld h.record.phase none) v).2 (moved.awaitsKey waits)
      · exact (left.2 (ready running stood)).stands
  refine ⟨(gated.keyWork.trans (keyWork_modDesc k _ v)).trans (keyWork_takeWord ..), ?_, fun q other => ?_, fun none => ?_,
    fun h' e unopened => ?_, fun h' e _ unmet => ?_, fun h' w' b' e opened' met' => ?_, fun running waits => ?_,
    fun running stood => ?_⟩
  · rw [takeWord_cur, modDesc_slot]
    exact moved.cur
  · by_cases out : (s.slot k).desc.outdated h.record
    · rw [stores out]
      exact ⟨Descrambler.key_stores_ne other .., Descrambler.held_stores_ne other ..⟩
    · rw [ignores out]
      exact ⟨Descrambler.key_setHeld .., Descrambler.held_setHeld_ne other ..⟩
  · rw [held] at none
    cases none
  · rw [held] at e
    cases e
    rw [opened] at unopened
    cases unopened
  · rw [held] at e
    cases e
    rw [met] at unmet
    cases unmet
  · rw [held] at e
    cases e
    rw [opened] at opened'
    cases opened'
    rw [met] at met'
    cases met'
    refine ⟨?_, fun newer => ?_, fun out => ⟨?_, stands out⟩, entitled, preview⟩
    · by_cases out : (s.slot k).desc.outdated h.record
      · rw [stores out]
        exact Descrambler.held_stores ..
      · rw [ignores out]
        exact Descrambler.held_setHeld ..
    · rw [ignores newer]
      exact Descrambler.key_setHeld ..
    · rw [stores out]
      exact Descrambler.key_stores ..
  · by_cases out : (s.slot k).desc.outdated h.record
    · exact .inr (stands out running (.inl waits))
    · obtain ⟨f, e⟩ := ignored out
      rw [e]
      exact .inl ((awaitsKey_modDesc k (·.setHeld h.record.phase none) v).2 (moved.awaitsKey waits))
  · by_cases out : (s.slot k).desc.outdated h.record
    · exact stands out running (.inr stood)
    · obtain ⟨f, e⟩ := ignored out
      rw [e]
      exact (standsReady_counters _).2 (left.2 (ready running stood))

/-- The re-examination of one held record, it being one of its phase (R69). -/
theorem reexamines_phase (placed : ∀ h, (s.slot k).desc.held p = some h → h.record.phase = p) : Reexamines k p s (reexaminePhase k p s) := by
  cases held : (s.slot k).desc.held p with
  | none => exact reexamines_unheld held
  | some h =>
    cases opened : s.openWord h.record.wrapped with
    | none => exact reexamines_unopened held opened
    | some w =>
      cases found : s.basisOf k h.record.req with
      | none => exact reexamines_unmet held opened found
      | some b => exact reexamines_met (placed h held) held opened found

/-! ### Every held record re-examined (R69, R86) -/

/-- Work on keys that leaves a slot's key and held record of one phase. -/
structure LeavesRecord (k : Fin 5) (p : Phase) (x y : State) : Prop extends KeyWork x y where
  cur : (y.slot k).cur = (x.slot k).cur
  key : (y.slot k).desc.key p = (x.slot k).desc.key p
  held : (y.slot k).desc.held p = (x.slot k).desc.held p
  waits : x.restarting = false → x.awaitsKey k ∨ x.standsReady k → y.awaitsKey k ∨ y.standsReady k
  ready : x.restarting = false → x.standsReady k → y.standsReady k

theorem LeavesRecord.trans (h : LeavesRecord k p x y) (g : LeavesRecord k p y z) : LeavesRecord k p x z where
  toKeyWork := h.toKeyWork.trans g.toKeyWork
  cur := g.cur.trans h.cur
  key := g.key.trans h.key
  held := g.held.trans h.held
  waits running := g.waits (h.restarting.trans running) ∘ h.waits running
  ready running := g.ready (h.restarting.trans running) ∘ h.ready running

theorem LeavesRecord.basisOf (h : LeavesRecord k p x y) (req : Requirement) : y.basisOf k req = x.basisOf k req :=
  basisOf_congr h.tiers h.grants h.clock h.cur req

theorem Aside.leavesRecord (h : Aside k x y) (p : Phase) : LeavesRecord k p x y where
  toKeyWork := h.toKeyWork
  cur := h.slot.cur
  key := by rw [h.slot.desc]
  held := by rw [h.slot.desc]
  waits running := Or.imp h.slot.awaitsKey (h.standsReady running)
  ready := h.standsReady

theorem Reexamines.leavesRecord (h : Reexamines k q x y) (other : p ≠ q) : LeavesRecord k p x y where
  toKeyWork := h.toKeyWork
  cur := h.cur
  key := (h.apart p other).1
  held := (h.apart p other).2
  waits running := fun waits => waits.elim (h.waits running) (.inr ∘ h.ready running)
  ready := h.ready

/-- The two phases of one slot, A before B (R69). -/
def reexamineSlot (k : Fin 5) (s : State) : State := reexaminePhase k .b (reexaminePhase k .a s)

theorem reexamine_eq (s : State) : reexamine s = forEach allSlots reexamineSlot s := rfl

theorem aside_reexamineSlot {j : Fin 5} (ne : j ≠ k) (s : State) : Aside k s (reexamineSlot j s) :=
  (aside_reexaminePhase ne .a s).trans (aside_reexaminePhase ne .b _)

/-- The re-examination as one slot sees it: other slots', its phase A, its phase B, and other slots' again. -/
theorem reexamine_own (k : Fin 5) (placed : (s.slot k).desc.placed) : ∃ x y z, Aside k s x ∧ Reexamines k .a x y
    ∧ Reexamines k .b y z ∧ Aside k z (reexamine s) := by
  rw [reexamine_eq]
  obtain ⟨x, first, last⟩ := forEach_own (fun j u ne => aside_reexamineSlot ne u) (mem_allSlots k) allSlots_nodup s
  have a : Reexamines k .a x (reexaminePhase k .a x) := reexamines_phase fun h held => by
    rw [first.slot.desc] at held
    exact placed .a h held
  refine ⟨x, reexaminePhase k .a x, reexamineSlot k x, first, a, reexamines_phase fun h held => ?_, last⟩
  rw [(a.apart .b (by decide)).2, first.slot.desc] at held
  exact placed .b h held

/-- The re-examination as the record of one phase of one slot sees it. -/
theorem reexamine_record (p : Phase) (placed : (s.slot k).desc.placed) : ∃ x y, LeavesRecord k p s x
    ∧ Reexamines k p x y ∧ LeavesRecord k p y (reexamine s) := by
  obtain ⟨x, y, z, first, a, b, last⟩ := reexamine_own k placed
  cases p with
  | a => exact ⟨x, y, first.leavesRecord .a, a, (b.leavesRecord (by decide)).trans (last.leavesRecord .a)⟩
  | b => exact ⟨y, z, (first.leavesRecord .b).trans (a.leavesRecord (by decide)), b, last.leavesRecord .b⟩

theorem outdated_congr {d e : Descrambler} {r : KeyRecord} (key : e.key r.phase = d.key r.phase) :
    e.outdated r ↔ d.outdated r := by
  unfold Descrambler.outdated
  rw [key]

theorem keyWork_reexaminePhase (k : Fin 5) (p : Phase) (s : State) : KeyWork s (reexaminePhase k p s) := by
  cases held : (s.slot k).desc.held p with
  | none =>
    rw [reexaminePhase_unheld held]
    exact .refl s
  | some h =>
    cases opened : s.openWord h.record.wrapped with
    | none =>
      rw [reexaminePhase_unopened held opened]
      exact (keyWork_modDesc k _ s).trans (keyWork_counters _ _)
    | some w =>
      cases found : s.basisOf k h.record.req with
      | some b =>
        rw [reexaminePhase_met held opened found]
        exact ((gated_setEntitled ..).keyWork.trans (keyWork_modDesc k _ _)).trans (keyWork_takeWord ..)
      | none =>
        rw [reexaminePhase_unmet held opened found]
        exact (keyWork_counters _ s).trans (gated_setEntitled ..).keyWork

theorem keyWork_reexamine (s : State) : KeyWork s (reexamine s) :=
  forEach_keeps (P := KeyWork s) (fun k _ u hu =>
    (hu.trans (keyWork_reexaminePhase k .a u)).trans (keyWork_reexaminePhase k .b _)) (.refl s)

/-- The re-examination does what it is to do, by the requirement check (R69, R84). -/
theorem reexamine_reexamined (running : s.restarting = false) (placed : ∀ k, (s.slot k).desc.placed) :
    s.reexamined (reexamine s) fun k p => (s.slot k).desc.key p := by
  constructor
  · intro k p held
    obtain ⟨x, y, first, own, last⟩ := reexamine_record p (placed k)
    obtain rfl := own.unheld (first.held.trans held)
    exact ⟨last.held.trans (first.held.trans held), last.key.trans first.key⟩
  · intro k p h held unopened
    obtain ⟨x, y, first, own, last⟩ := reexamine_record p (placed k)
    obtain ⟨gone, key, -⟩ := own.unopened h (first.held.trans held) ((first.openWord _).trans unopened)
    exact ⟨last.held.trans gone, last.key.trans (key.trans first.key)⟩
  · intro k p h held opened unmet
    obtain ⟨x, y, first, own, last⟩ := reexamine_record p (placed k)
    obtain ⟨kept, key, -⟩ := own.unmet h (first.held.trans held) (by rwa [first.openWord])
      ((first.basisOf _).trans (unmet_iff.1 unmet))
    exact ⟨last.held.trans kept, last.key.trans (key.trans first.key)⟩
  · intro k p h w b held opened met
    obtain ⟨x, y, first, own, last⟩ := reexamine_record p (placed k)
    generalize reexamine s = t at last ⊢
    obtain ⟨gone, ignores, stores, -⟩ := own.met h w b (first.held.trans held) ((first.openWord _).trans opened)
      ((first.basisOf _).trans (meets_iff.1 met))
    have phase := placed k p h held
    have older : (x.slot k).desc.outdated h.record ↔ (s.slot k).desc.outdated h.record :=
      outdated_congr (by rw [phase]; exact first.key)
    refine ⟨last.held.trans gone, fun newer => last.key.trans ((ignores (mt older.1 newer)).trans first.key), fun out => ?_⟩
    obtain ⟨key, stands⟩ := stores (older.2 out)
    refine ⟨last.key.trans key, fun state reason => ?_⟩
    have atTurn := stands (first.restarting.trans running) (first.waits running (.inl ⟨state, reason⟩))
    exact (last.ready (own.restarting.trans (first.restarting.trans running)) atTurn).stands

/-- The re-examination reports each slot by the last of its records that is opened (R84, R86). -/
theorem reexamine_retold (placed : (s.slot k).desc.placed) : s.retold (reexamine s) k := by
  obtain ⟨x, y, z, first, a, b, last⟩ := reexamine_own k placed
  intro p h held opened alone
  obtain ⟨w, opened⟩ := Option.isSome_iff_exists.1 opened
  cases p with
  | a =>
    have same : z.gate = y.gate := by
      have heldB : (y.slot k).desc.held .b = (s.slot k).desc.held .b := by
        rw [(a.apart .b (by decide)).2, first.slot.desc]
      cases second : (s.slot k).desc.held .b with
      | none => rw [b.unheld (heldB.trans second)]
      | some g =>
        refine (b.unopened g (heldB.trans second) ?_).2.2
        rw [a.openWord, first.openWord]
        exact alone rfl g second
    rw [last.src, same]
    have held : (x.slot k).desc.held .a = some h := by rwa [first.slot.desc]
    have opened := (first.openWord _).trans opened
    refine ⟨fun unmet => ?_, fun b met => ?_⟩
    · exact (a.unmet h held (opened ▸ rfl) ((first.basisOf _).trans (unmet_iff.1 unmet))).2.2
    · exact (a.met h w b held opened ((first.basisOf _).trans (meets_iff.1 met))).2.2.2
  | b =>
    rw [last.src]
    have before := (first.leavesRecord .b).trans (a.leavesRecord (p := .b) (by decide))
    have opened := (before.openWord _).trans opened
    refine ⟨fun unmet => ?_, fun c met => ?_⟩
    · exact (b.unmet h (before.held.trans held) (opened ▸ rfl) ((before.basisOf _).trans (unmet_iff.1 unmet))).2.2
    · exact (b.met h w c (before.held.trans held) opened ((before.basisOf _).trans (meets_iff.1 met))).2.2.2

/-- States with the same slots, clock, tiers, grants and device key: the requirement checks are the same. -/
structure SameRights (s t : State) : Prop where
  slots : t.slots = s.slots
  clock : t.clock = s.clock
  tiers : t.access.tiers = s.access.tiers
  grants : t.access.grants = s.access.grants
  key : t.access.deviceKey = s.access.deviceKey

theorem SameRights.slot (h : SameRights s t) (k : Fin 5) : t.slot k = s.slot k := by
  unfold State.slot
  rw [h.slots]

theorem SameRights.meets (h : SameRights s t) (k : Fin 5) (req : Requirement) (b : Basis) :
    t.meets k req b ↔ s.meets k req b := by
  rw [meets_iff, meets_iff, basisOf_congr h.tiers h.grants h.clock (by rw [h.slot])]

theorem SameRights.unmet (h : SameRights s t) (k : Fin 5) (req : Requirement) : t.unmet k req ↔ s.unmet k req :=
  forall_congr' fun b => not_congr (h.meets k req b)

theorem SameRights.openWord (h : SameRights s t) (w : KeyWord) : t.openWord w = s.openWord w := by
  unfold State.openWord
  rw [h.key]

/-- A re-examination is one of any state with the same slots and rights, and to any with the same slots and gate
array. -/
theorem State.reexamined.congr {kept : Fin 5 → Phase → Option Key} (done : v.reexamined u kept) (same : SameRights s v)
    (slots : t.slots = u.slots) (gate : t.gate = u.gate) : s.reexamined t kept := by
  have slot : ∀ k, t.slot k = u.slot k := fun k => by
    unfold State.slot
    rw [slots]
  constructor
  · intro k p held
    rw [slot]
    exact done.unheld k p (by rwa [same.slot])
  · intro k p h held unopened
    rw [slot]
    exact done.unopened k p h (by rwa [same.slot]) ((same.openWord _).trans unopened)
  · intro k p h held opened unmet
    rw [slot]
    exact done.unmet k p h (by rwa [same.slot]) (by rwa [same.openWord]) ((same.unmet ..).2 unmet)
  · intro k p h w b held opened met
    have result := done.met k p h w b (by rwa [same.slot]) ((same.openWord _).trans opened) ((same.meets ..).2 met)
    rw [same.slot, ← slot] at result
    obtain ⟨gone, ignores, stores⟩ := result
    refine ⟨gone, ignores, fun older => ⟨(stores older).1, fun state reason => ?_⟩⟩
    exact byPermit_congr (slot k) gate ((stores older).2 state reason)

theorem State.retold.congr (told : v.retold u k) (same : SameRights s v) (src : t.gate.src[k] = u.gate.src[k]) :
    s.retold t k := by
  intro p h held opened alone
  rw [src]
  obtain ⟨unmet, met⟩ := told p h (by rwa [same.slot]) (by rwa [same.openWord]) fun phase g second => by
    rw [same.slot] at second
    exact (same.openWord _).trans (alone phase g second)
  exact ⟨fun no => unmet ((same.unmet ..).2 no), fun b yes => met b ((same.meets ..).2 yes)⟩

/-! ### A withdrawal (R85) -/

theorem aside_withdrawKeys {j : Fin 5} (ne : j ≠ k) (s : State) : Aside k s (withdrawKeys j s) := by
  unfold withdrawKeys
  dsimp only
  split
  · exact aside_modSlot ne _ s
  · split
    · exact ((aside_modSlot ne _ s).trans (aside_modSlot ne _ _)).trans (aside_enterHeld ne ..)
    · exact aside_modSlot ne _ s

theorem withdrawKeys_desc (k : Fin 5) (s : State) : ((withdrawKeys k s).slot k).desc = (s.slot k).desc.dropKeys := by
  unfold withdrawKeys
  dsimp only
  split
  · rw [slot_modSlot_same]
  · split
    · unfold enterHeld State.slotNotice
      rw [slot_raise, slot_modSlot_same, slot_modSlot_same, slot_modSlot_same]
    · rw [slot_modSlot_same]

theorem keyWork_withdrawKeys (k : Fin 5) (s : State) : KeyWork s (withdrawKeys k s) := by
  unfold withdrawKeys
  dsimp only
  split
  · exact keyWork_modSlot k _ s
  · split
    · exact ((keyWork_modSlot k _ s).trans (keyWork_modSlot k _ _)).trans (keyWork_enterHeld ..)
    · exact keyWork_modSlot k _ s

theorem keyWork_withdraw (b : Basis) (s : State) : KeyWork s (withdraw b s) := by
  unfold withdraw withdrawFrom
  exact (forEach_keeps (P := KeyWork s) (fun j _ u hu => hu.trans (keyWork_withdrawKeys j u)) (.refl s)).trans
    (keyWork_setEntitledAll ..)

/-- A slot with a key on a basis withdrawn loses both its keys (R85). -/
theorem withdraw_desc (rests : (s.slot k).desc.restsOn b = true) :
    ((withdraw b s).slot k).desc = (s.slot k).desc.dropKeys := by
  unfold withdraw withdrawFrom
  have named : k ∈ s.slotsOn b := List.mem_filter.2 ⟨mem_allSlots k, rests⟩
  obtain ⟨u, first, last⟩ := forEach_own (fun j u ne => aside_withdrawKeys ne u) named (allSlots_nodup.filter _) s
  have told : Gated (forEach (s.slotsOn b) withdrawKeys s)
      (setEntitledAll (s.slotsOn b) false false (forEach (s.slotsOn b) withdrawKeys s)) := gated_report ..
  rw [(told.slots k).desc, last.slot.desc, withdrawKeys_desc, first.slot.desc]

end Sys2Proof.Machine
end

section
/-! PROOF of O38: ENTITLEMENT records (R77 to R83, R178). -/

namespace Sys2Proof.Machine

open Sys2Proof

variable {k : Fin 5} {l : Fin 3} {p : Fin 8} {i : Fin 32} {bytes record : List Byte} {r : EntRecord} {e : EntKind}
  {unit : UnitId} {number : StoreNumber} {s t u v : State}

/-! ### The record's examination (R78) -/

/-- A record's issue number taken, and the record counted as applied (R78, R79). -/
def State.issued (s : State) (issue : Nat) : State :=
  (s.modPurse fun p => { p with lastIssue := issue }).modAccessCounters fun c => { c with entApplied := c.entApplied + 1 }

section Examined

variable (usable : s.access.deviceKey ≠ .unusable) (kind : r.kind = some e)
include usable kind

theorem takeEntitlement_examines : takeEntitlement r s =
    if r.address ≠ Config.boxAddress then s.modAccessCounters fun c => { c with entOtherAddress := c.entOtherAddress + 1 }
    else if !r.authentic then s.modAccessCounters fun c => { c with entAuthFailed := c.entAuthFailed + 1 }
    else if r.issue ≤ s.access.purse.lastIssue then s.modAccessCounters fun c => { c with entStale := c.entStale + 1 }
    else applyEntitlement r.issue e s := by
  unfold takeEntitlement
  rw [if_neg usable, kind]

theorem takeEntitlement_elsewhere (other : r.address ≠ Config.boxAddress) :
    takeEntitlement r s = s.modAccessCounters fun c => { c with entOtherAddress := c.entOtherAddress + 1 } := by
  rw [takeEntitlement_examines usable kind, if_pos other]

theorem takeEntitlement_forged (here : r.address = Config.boxAddress) (forged : r.authentic = false) :
    takeEntitlement r s = s.modAccessCounters fun c => { c with entAuthFailed := c.entAuthFailed + 1 } := by
  rw [takeEntitlement_examines usable kind, if_neg (not_not.2 here), forged]
  rfl

theorem takeEntitlement_stale (here : r.address = Config.boxAddress) (authentic : r.authentic = true)
    (stale : r.issue ≤ s.access.purse.lastIssue) :
    takeEntitlement r s = s.modAccessCounters fun c => { c with entStale := c.entStale + 1 } := by
  rw [takeEntitlement_examines usable kind, if_neg (not_not.2 here), authentic, if_neg (by decide), if_pos stale]

theorem takeEntitlement_applies (here : r.address = Config.boxAddress) (authentic : r.authentic = true)
    (fresh : s.access.purse.lastIssue < r.issue) :
    takeEntitlement r s = ((applyKind e (s.issued r.issue)).handAccess).accessNotice (.record e.code) := by
  rw [takeEntitlement_examines usable kind, if_neg (not_not.2 here), authentic, if_neg (by decide),
    if_neg (Nat.not_le.2 fresh)]
  rfl

end Examined

/-! ### The record's end: the access unit handed over, and the notice (R79, R101, R178) -/

/-- What the end of a record leaves: the rights, the slots, the gate array and the profiles; the store holds the access
unit as the last. -/
structure Closes (u t : State) : Prop where
  access : t.access = u.access
  slots : t.slots = u.slots
  gate : t.gate = u.gate
  parental : t.parental = u.parental
  last : t.store.last = u.store.last + 1
  hands : t.store.holds .access t.store.last = true
  holds : ∀ unit number, unit ≠ .access → u.store.holds unit number = true → t.store.holds unit number = true
  flag : t.link.flags[2] = true

theorem closes (c : AccessCause) (running : u.restarting = false) : Closes u (u.handAccess.accessNotice c) := by
  have store : (u.handAccess.accessNotice c).store = u.handAccess.store := by rw [State.accessNotice, raise_store]
  have last : u.handAccess.store.last = u.store.last + 1 := Store.handOver_last ..
  refine ⟨by rw [State.accessNotice, raise_access]; rfl, by rw [State.accessNotice, raise_slots]; rfl,
    by rw [State.accessNotice, raise_gate]; rfl, by rw [State.accessNotice, raise_parental]; rfl,
    by rw [store, last], ?_, fun unit number other held => ?_, ?_⟩
  · rw [store, last]
    exact Store.handOver_holds ..
  · rw [store]
    exact Store.handOver_keeps _ _ other held
  · exact (raise_flags (s := u.handAccess) running .access none _ 2 (by decide)).trans (if_pos rfl)

theorem Closes.profile (h : Closes u t) (p : Fin 8) : t.profile p = u.profile p := by
  unfold State.profile
  rw [h.parental]

theorem Closes.slot (h : Closes u t) (k : Fin 5) : t.slot k = u.slot k := by
  unfold State.slot
  rw [h.slots]

/-! ### Tiers (R80) -/

/-- A tier replaced, and the tier table handed over (R80). -/
def State.withTier (s : State) (i : Fin 32) (x : Tier) : State :=
  (s.modAccess fun a => { a with tiers := a.tiers.set i x }).handTiers

theorem withTier_last (s : State) (i : Fin 32) (x : Tier) : (s.withTier i x).store.last = s.store.last + 1 :=
  Store.handOver_last ..

theorem withTier_holds (s : State) (i : Fin 32) (x : Tier) :
    (s.withTier i x).store.holds .tiers (s.store.last + 1) = true := Store.handOver_holds ..

theorem applyKind_tierSet (i : Fin 32) (expiry : Option Nat) (s : State) :
    applyKind (.tierSet i expiry) s = reexamine (s.withTier i ⟨true, expiry⟩) := rfl

theorem applyKind_tierClear (i : Fin 32) (s : State) : applyKind (.tierClear i) s
    = if s.tierHeld i then withdraw (.tier i) (s.withTier i ⟨false, none⟩) else s.withTier i ⟨false, none⟩ := rfl

theorem withTier_rights (s : State) (issue : Nat) (i : Fin 32) (x : Tier) :
    SameRights { s with access := { s.access with tiers := s.access.tiers.set i x } } ((s.issued issue).withTier i x) :=
  ⟨rfl, rfl, rfl, rfl, rfl⟩

/-! ### Terms (R82, R89) -/

/-- The profiles' spends cleared: the profiles and the store alone change. -/
structure SpendWork (s t : State) : Prop where
  rest : { t with parental := s.parental, store := s.store } = s
  holds : ∀ unit, (∃ n, s.store.holds unit n = true) → ∃ n, t.store.holds unit n = true

theorem SpendWork.refl (s : State) : SpendWork s s := ⟨rfl, fun _ => id⟩

theorem SpendWork.trans (h : SpendWork s t) (g : SpendWork t u) : SpendWork s u := by
  refine ⟨?_, fun unit => g.holds unit ∘ h.holds unit⟩
  have := congrArg (fun x : State => { x with parental := s.parental, store := s.store }) g.rest
  exact (this : _ = _).trans h.rest

theorem SpendWork.access (h : SpendWork s t) : t.access = s.access := (congrArg State.access h.rest :)
theorem SpendWork.restarting (h : SpendWork s t) : t.restarting = s.restarting := (congrArg State.restarting h.rest :)

theorem spendWork_clear (p : Fin 8) (s : State) : SpendWork s (clearSpend p s) := by
  unfold clearSpend
  split
  · exact .refl s
  · exact ⟨rfl, fun unit held => Store.handOver_held _ _ _ held⟩

theorem profile_modProfile (p q : Fin 8) (f : Profile → Profile) (s : State) :
    (s.modProfile q f).profile p = if p = q then f (s.profile p) else s.profile p := by
  unfold State.profile State.modProfile State.modParental
  simp only [Fin.getElem_fin, Vector.getElem_set]
  by_cases same : p = q
  · subst same
    simp
  · rw [if_neg same, if_neg (fun e => same (Fin.ext e.symm))]

theorem clearSpend_profile (p q : Fin 8) (s : State) :
    (clearSpend q s).profile p = if p = q then { s.profile p with spend := 0 } else s.profile p := by
  unfold clearSpend
  split
  · rename_i clear
    split
    · rename_i same
      subst same
      rw [← clear]
    · rfl
  · exact profile_modProfile p q (fun r => { r with spend := 0 }) s

theorem clearSpends_profile (qs : List (Fin 8)) (p : Fin 8) (s : State) :
    (forEach qs clearSpend s).profile p = if p ∈ qs then { s.profile p with spend := 0 } else s.profile p := by
  induction qs generalizing s with
  | nil => rfl
  | cons q qs ih =>
    rw [forEach_cons, ih, clearSpend_profile]
    by_cases same : p = q <;> by_cases later : p ∈ qs <;> simp [same, later]

theorem mem_allProfiles (p : Fin 8) : p ∈ allProfiles := by decide +revert

theorem spendWork_clears (s : State) : SpendWork s (forEach allProfiles clearSpend s) :=
  forEach_keeps (P := SpendWork s) (fun p _ u hu => hu.trans (spendWork_clear p u)) (.refl s)

/-- A profile's spend is as it was, or the profile is handed over. -/
def State.spentOrHeld (s : State) (p : Fin 8) (u : State) : Prop :=
  (u.profile p).spend = (s.profile p).spend ∨ ∃ n, u.store.holds (.profile p) n = true

theorem clearSpends_holds (spent : 0 < (s.profile p).spend) :
    ∃ n, (forEach allProfiles clearSpend s).store.holds (.profile p) n = true := by
  have stays : s.spentOrHeld p (forEach allProfiles clearSpend s) := by
    refine forEach_keeps (P := s.spentOrHeld p) (fun q _ u hu => ?_) (.inl rfl)
    rcases hu with same | held
    · by_cases own : p = q
      · subst own
        unfold clearSpend
        rw [if_neg (by omega)]
        exact .inr ⟨_, Store.handOver_holds ..⟩
      · exact .inl (by rwa [clearSpend_profile, if_neg own])
    · exact .inr ((spendWork_clear q u).holds _ held)
  rcases stays with same | held
  · rw [clearSpends_profile, if_pos (mem_allProfiles p)] at same
    exact absurd same.symm (Nat.ne_of_gt spent)
  · exact held

/-- The start of the spend period that contains a time is the one multiple of the length that does (R89). -/
theorem periodAt_eq {purse : Purse} {now : Nat} {n : Int}
    (begun : (purse.anchor : Int) + n * (purse.period * 86400) ≤ now)
    (lasts : (now : Int) < purse.anchor + n * (purse.period * 86400) + purse.period * 86400) :
    purse.periodAt now = purse.anchor + n * (purse.period * 86400) := by
  unfold Purse.periodAt
  dsimp only
  generalize (purse.period : Int) * 86400 = len at *
  have quotient : ((now : Int) - purse.anchor) / len = n := by
    have positive : 0 < len := by omega
    rw [Int.ediv_eq_iff_of_pos positive]
    constructor <;> linarith
  rw [quotient]

theorem newPeriod_iff (purse : Purse) (start : Int) :
    purse.newPeriod start = true ↔ ∀ b, purse.periodStart = some b → b < start := by
  unfold Purse.newPeriod
  cases purse.periodStart <;> simp

/-- The terms replaced (R82). -/
def State.withTerms (s : State) (grace floor period anchor : Nat) : State :=
  s.modPurse (Purse.setTerms grace floor period anchor)

/-- The spends cleared where a later period begins at a time, which is then recorded as its start (R82). -/
def State.periodBegins (s : State) (start : Int) : State :=
  (if s.access.purse.newPeriod start then forEach allProfiles clearSpend s else s).modPurse fun p =>
    { p with periodStart := some start }

section Terms

variable {grace floor period anchor now : Nat} {n : Int}

theorem applyKind_termsSet (grace floor period anchor : Nat) (s : State) :
    applyKind (.termsSet grace floor period anchor) s = applyTerms grace floor period anchor s := rfl

theorem applyTerms_unknown (unknown : s.now? = none) :
    applyTerms grace floor period anchor s = s.withTerms grace floor period anchor := by
  unfold applyTerms
  dsimp only
  rw [show (s.modPurse (Purse.setTerms grace floor period anchor)).now? = none from unknown]
  rfl

theorem applyTerms_known (known : s.now? = some now) : applyTerms grace floor period anchor s
    = (s.withTerms grace floor period anchor).periodBegins
        ((s.withTerms grace floor period anchor).access.purse.periodAt now) := by
  unfold applyTerms
  dsimp only
  rw [show (s.modPurse (Purse.setTerms grace floor period anchor)).now? = some now from known]
  rfl

end Terms

theorem periodBegins_later {start : Int} (later : ∀ b, s.access.purse.periodStart = some b → b < start) :
    s.periodBegins start = (forEach allProfiles clearSpend s).modPurse fun p => { p with periodStart := some start } := by
  unfold State.periodBegins
  rw [if_pos ((newPeriod_iff ..).2 later)]

theorem periodBegins_same {start b : Int} (recorded : s.access.purse.periodStart = some b) (within : start ≤ b) :
    s.periodBegins start = s.modPurse fun p => { p with periodStart := some start } := by
  unfold State.periodBegins
  rw [if_neg fun later => absurd ((newPeriod_iff ..).1 later b recorded) (not_lt.2 within)]

theorem periodBegins_access (start : Int) (s : State) :
    (s.periodBegins start).access = { s.access with purse := { s.access.purse with periodStart := some start } }
      ∧ (s.periodBegins start).restarting = s.restarting := by
  have access := (spendWork_clears s).access
  have restarting := (spendWork_clears s).restarting
  unfold State.periodBegins
  split
  · generalize forEach allProfiles clearSpend s = v at access restarting ⊢
    unfold State.modPurse State.modAccess
    rw [access]
    exact ⟨rfl, restarting⟩
  · exact ⟨rfl, rfl⟩

/-- A later period clears every spend, and hands over each profile that had one (R82). -/
theorem periodBegins_clears {start : Int} (later : ∀ b, s.access.purse.periodStart = some b → b < start) (p : Fin 8) :
    (s.periodBegins start).profile p = { s.profile p with spend := 0 }
      ∧ (0 < (s.profile p).spend → ∃ m, (s.periodBegins start).store.holds (.profile p) m = true) := by
  have profile := clearSpends_profile allProfiles p s
  have holds := clearSpends_holds (s := s) (p := p)
  rw [if_pos (mem_allProfiles p)] at profile
  rw [periodBegins_later later]
  generalize forEach allProfiles clearSpend s = v at profile holds ⊢
  exact ⟨profile, holds⟩

/-! ### What the kinds leave for the record's end -/

/-- Work that leaves the count of records applied, and the mode of running. -/
structure LeavesApplied (s t : State) : Prop where
  applied : t.access.counters.entApplied = s.access.counters.entApplied
  restarting : t.restarting = s.restarting

theorem LeavesApplied.trans (h : LeavesApplied t u) (g : LeavesApplied s t) : LeavesApplied s u :=
  ⟨h.applied.trans g.applied, h.restarting.trans g.restarting⟩

theorem KeyWork.leavesApplied (h : KeyWork s t) : LeavesApplied s t := ⟨h.applied, h.restarting⟩

theorem applyKind_leaves (e : EntKind) (s : State) : LeavesApplied s (applyKind e s) := by
  cases e with
  | tierSet i expiry =>
    rw [applyKind_tierSet]
    exact (keyWork_reexamine (s.withTier i ⟨true, expiry⟩)).leavesApplied.trans ⟨rfl, rfl⟩
  | tierClear i =>
    rw [applyKind_tierClear]
    split
    · exact (keyWork_withdraw (.tier i) (s.withTier i ⟨false, none⟩)).leavesApplied.trans ⟨rfl, rfl⟩
    · exact ⟨rfl, rfl⟩
  | creditAdd n => exact ⟨rfl, rfl⟩
  | limitSet n => exact ⟨rfl, rfl⟩
  | termsSet grace floor period anchor =>
    rw [applyKind_termsSet]
    cases known : s.now? with
    | none =>
      rw [applyTerms_unknown known]
      exact ⟨rfl, rfl⟩
    | some now =>
      rw [applyTerms_known known]
      obtain ⟨access, restarting⟩ := periodBegins_access
        ((s.withTerms grace floor period anchor).access.purse.periodAt now) (s.withTerms grace floor period anchor)
      exact ⟨by rw [access]; rfl, restarting⟩
  | release n => exact ⟨rfl, rfl⟩

/-! ### An applied record, kind by kind -/

/-- A record applied to a state (R79). -/
structure State.applies (s t : State) (issue : Nat) (e : EntKind) : Prop where
  closes : Closes (applyKind e (s.issued issue)) t
  counted : t.access.counters.entApplied = s.access.counters.entApplied + 1

theorem applies_applyEntitlement (issue : Nat) (e : EntKind) (running : s.restarting = false) :
    s.applies (((applyKind e (s.issued issue)).handAccess).accessNotice (.record e.code)) issue e := by
  have leaves := applyKind_leaves e (s.issued issue)
  have closes := closes (u := applyKind e (s.issued issue)) (.record e.code) (leaves.restarting.trans running)
  exact ⟨closes, by rw [closes.access, leaves.applied]; rfl⟩

variable {issue : Nat}

theorem applies_creditAdd {n : Nat} (h : s.applies t issue (.creditAdd n)) :
    t.access.purse = { s.access.purse with
        lastIssue := issue, balance := min 8388607 (s.access.purse.balance + n)
        clipped := s.access.purse.clipped + BitVec.ofNat 32 (s.access.purse.balance + n - 8388607).toNat }
      ∧ t.store.last = s.store.last + 1 := by
  refine ⟨?_, h.closes.last⟩
  rw [h.closes.access]
  change Purse.credit n { s.access.purse with lastIssue := issue } = _
  unfold Purse.credit
  dsimp only
  split
  · rw [min_eq_left (by omega)]
  · rw [min_eq_right (by omega), Int.toNat_of_nonpos (by omega), BitVec.add_zero]

theorem applies_limitSet {n : Nat} (h : s.applies t issue (.limitSet n)) :
    t.access.purse = { s.access.purse with
        lastIssue := issue
        limit := if s.access.purse.balance < 0 ∧ (n : Int) < -s.access.purse.balance then
          (-s.access.purse.balance).toNat else n }
      ∧ t.store.last = s.store.last + 1 := by
  refine ⟨?_, h.closes.last⟩
  rw [h.closes.access]
  change Purse.setLimit n { s.access.purse with lastIssue := issue } = _
  unfold Purse.setLimit
  dsimp only
  split
  · rw [max_eq_right (by omega)]
  · rw [max_eq_left (by omega)]

theorem applies_tierSet {expiry : Option Nat} (running : s.restarting = false) (h : s.applies t issue (.tierSet i expiry)) :
    t.access.tiers = s.access.tiers.set i { held := true, expiry := expiry }
      ∧ t.access.purse = { s.access.purse with lastIssue := issue }
      ∧ t.store.last = s.store.last + 2 ∧ t.store.holds .tiers (s.store.last + 1) = true
      ∧ ((∀ k, (s.slot k).desc.placed) →
        let u := { s with access := { s.access with tiers := s.access.tiers.set i { held := true, expiry := expiry } } }
        u.reexamined t (fun k p => (s.slot k).desc.key p) ∧ ∀ k, u.retold t k) := by
  have closes := h.closes
  have same := withTier_rights s issue i ⟨true, expiry⟩
  have tiers : ((s.issued issue).withTier i ⟨true, expiry⟩).access.tiers = s.access.tiers.set i ⟨true, expiry⟩ := rfl
  have purse : ((s.issued issue).withTier i ⟨true, expiry⟩).access.purse = { s.access.purse with lastIssue := issue } := rfl
  have last : ((s.issued issue).withTier i ⟨true, expiry⟩).store.last = s.store.last + 1 := withTier_last ..
  have holds := withTier_holds (s.issued issue) i ⟨true, expiry⟩
  have runs : ((s.issued issue).withTier i ⟨true, expiry⟩).restarting = false := running
  rw [applyKind_tierSet] at closes
  generalize (s.issued issue).withTier i ⟨true, expiry⟩ = x at closes same tiers purse last holds runs
  have work := keyWork_reexamine x
  refine ⟨?_, ?_, ?_, closes.holds .tiers _ (by decide) (by rwa [work.store]), fun placed => ?_⟩
  · rw [closes.access, work.tiers, tiers]
  · rw [closes.access, work.purse, purse]
  · rw [closes.last, work.store, last, BitVec.add_assoc]
    rfl
  · have placed : ∀ k, (x.slot k).desc.placed := fun k => by
      rw [same.slot]
      exact placed k
    have kept : (fun k p => (s.slot k).desc.key p) = fun k p => (x.slot k).desc.key p := funext fun k => by
      rw [same.slot]
      rfl
    rw [kept]
    have done := reexamine_reexamined runs placed
    have told := fun k => reexamine_retold (placed k)
    generalize reexamine x = y at closes done told
    exact ⟨done.congr same closes.slots closes.gate, fun k => (told k).congr same (by rw [closes.gate])⟩

theorem applies_tierClear (h : s.applies t issue (.tierClear i)) :
    t.access.tiers = s.access.tiers.set i { held := false, expiry := none }
      ∧ t.access.purse = { s.access.purse with lastIssue := issue }
      ∧ t.store.last = s.store.last + 2 ∧ t.store.holds .tiers (s.store.last + 1) = true
      ∧ ∀ k, (s.slot k).desc.restsOn (.tier i) = true →
        (s.tierHeld i = true → (t.slot k).desc.keyA = none ∧ (t.slot k).desc.keyB = none)
          ∧ (s.tierHeld i = false → (t.slot k).desc = (s.slot k).desc) := by
  have closes := h.closes
  rw [applyKind_tierClear, show (s.issued issue).tierHeld i = s.tierHeld i from rfl] at closes
  have last : s.store.last + 1 + 1 = s.store.last + 2 := by rw [BitVec.add_assoc]; rfl
  have holds := withTier_holds (s.issued issue) i ⟨false, none⟩
  cases was : s.tierHeld i with
  | true =>
    rw [was, if_pos rfl] at closes
    have work := keyWork_withdraw (.tier i) ((s.issued issue).withTier i ⟨false, none⟩)
    refine ⟨?_, ?_, ?_, ?_, fun k rests => ⟨fun _ => ?_, fun none => ?_⟩⟩
    · rw [closes.access, work.tiers]
      rfl
    · rw [closes.access, work.purse]
      rfl
    · rw [closes.last, work.store, withTier_last]
      exact last
    · refine closes.holds .tiers _ (by decide) ?_
      rwa [work.store]
    · rw [closes.slot, withdraw_desc (s := (s.issued issue).withTier i ⟨false, none⟩) rests]
      exact ⟨rfl, rfl⟩
    · cases none
  | false =>
    rw [was, if_neg (by decide)] at closes
    refine ⟨by rw [closes.access]; rfl, by rw [closes.access]; rfl, ?_, closes.holds .tiers _ (by decide) holds,
      fun k _ => ⟨fun some => ?_, fun _ => ?_⟩⟩
    · rw [closes.last, withTier_last]
      exact last
    · cases some
    · rw [closes.slot]
      rfl

section Terms

variable {grace floor period anchor now : Nat} {n : Int}

theorem applies_termsUnknown (h : s.applies t issue (.termsSet grace floor period anchor)) (unknown : s.now? = none) :
    t.access.purse = { s.access.purse with
        lastIssue := issue, grace := grace, floor := floor, period := period, anchor := anchor }
      ∧ (∀ p, t.profile p = s.profile p) ∧ t.store.last = s.store.last + 1 := by
  have closes := h.closes
  rw [applyKind_termsSet, applyTerms_unknown (s := s.issued issue) unknown] at closes
  exact ⟨by rw [closes.access]; rfl, fun p => closes.profile p, closes.last⟩

theorem applies_termsKnown (h : s.applies t issue (.termsSet grace floor period anchor)) (known : s.now? = some now)
    (begun : (anchor : Int) + n * (period * 86400) ≤ now)
    (lasts : (now : Int) < anchor + n * (period * 86400) + period * 86400) :
    let start : Int := anchor + n * (period * 86400)
    t.access.purse = { s.access.purse with
        lastIssue := issue, grace := grace, floor := floor, period := period, anchor := anchor, periodStart := some start }
      ∧ ((∀ b, s.access.purse.periodStart = some b → b < start) → (∀ p, t.profile p = { s.profile p with spend := 0 })
        ∧ ∀ p, 0 < (s.profile p).spend → ∃ m, t.store.holds (.profile p) m = true)
      ∧ (∀ b, s.access.purse.periodStart = some b → start ≤ b → (∀ p, t.profile p = s.profile p)
        ∧ t.store.last = s.store.last + 1) := by
  intro start
  have closes := h.closes
  have starts : ((s.issued issue).withTerms grace floor period anchor).access.purse.periodAt now = start :=
    periodAt_eq begun lasts
  rw [applyKind_termsSet, applyTerms_known (s := s.issued issue) known, starts] at closes
  refine ⟨?_, fun later => ⟨fun p => ?_, fun p spent => ?_⟩, fun b recorded within => ⟨fun p => ?_, ?_⟩⟩
  · rw [closes.access, (periodBegins_access ..).1]
    rfl
  · rw [closes.profile, (periodBegins_clears (s := (s.issued issue).withTerms grace floor period anchor) later p).1]
    rfl
  · obtain ⟨m, held⟩ := (periodBegins_clears (s := (s.issued issue).withTerms grace floor period anchor) later p).2 spent
    exact ⟨m, closes.holds _ m (by simp) held⟩
  · rw [closes.profile, periodBegins_same (s := (s.issued issue).withTerms grace floor period anchor) recorded within]
    rfl
  · rw [closes.last, periodBegins_same (s := (s.issued issue).withTerms grace floor period anchor) recorded within]
    rfl

end Terms

theorem applies_release {n : Nat} (h : s.applies t issue (.release n)) :
    t.store.last = s.store.last + 1
      ∧ t.access.purchases = s.access.purchases.filter (fun q => n < q.seq)
      ∧ t.access.purse = { s.access.purse with
          lastIssue := issue
          collected := s.access.purse.collected + chargeSum (s.access.purchases.filter fun q => q.seq ≤ n)
          releasedThrough := max s.access.purse.releasedThrough (min n (s.access.purse.nextSeq - 1)) } :=
  ⟨h.closes.last, by rw [h.closes.access]; rfl, by rw [h.closes.access]; rfl⟩

/-! ### ENTITLEMENT records in cells (R61, R77) -/

theorem deliver_entitlement (u : State) :
    deliver l { kind := 2, bytes := record } u = takeEntitlement (entRecordOf record) u := rfl

theorem takeEntitlement_work (record : List Byte) : ConsumerWork (takeEntitlement (entRecordOf record)) where
  runs s := (Runs.refl s).takeEntitlement (entRecordOf_ok record)
  twin _ _ h := h.takeEntitlement (entRecordOf record)

theorem tierHeld_lapsed (lapsed : (s.access.tiers[i]).held = false ∨ ∃ e now, (s.access.tiers[i]).expiry = some e
    ∧ s.now? = some now ∧ e ≤ now) : s.tierHeld i = false := by
  rw [Bool.eq_false_iff]
  intro counts
  obtain ⟨held, runs⟩ := (tierHeld_iff i).1 counts
  rcases lapsed with absent | ⟨e, now, expiry, known, past⟩
  · rw [held] at absent
    cases absent
  · exact absurd (runs e now expiry known) (Nat.not_lt.2 past)

/-- Settles O38: the record's examination in its order, each kind by what its effect leaves for the record's end. -/
theorem entitlementApplied : Obligations.EntitlementApplied := by
  refine ⟨fun r x s running usable kind => ⟨takeEntitlement_elsewhere usable kind, takeEntitlement_forged usable kind,
    takeEntitlement_stale usable kind, fun here authentic fresh => ?_⟩, fun l bytes record s live brings =>
    ⟨fun quiet => ⟨_, rfl, ?_⟩, fun unusable => ⟨_, rfl, ?_⟩, fun usable bad => ?_⟩⟩
  · have applied := applies_applyEntitlement r.issue x running
    rw [← takeEntitlement_applies usable kind here authentic fresh] at applied
    dsimp only
    generalize takeEntitlement r s = t at applied ⊢
    refine ⟨applied.counted, applied.closes.flag, applied.closes.hands, ?_, ?_, ?_, ?_, ?_, ?_⟩
    · rintro n rfl
      exact applies_creditAdd applied
    · rintro n rfl
      exact applies_limitSet applied
    · rintro i e rfl
      exact applies_tierSet running applied
    · rintro i rfl
      obtain ⟨tiers, purse, last, holds, keys⟩ := applies_tierClear applied
      exact ⟨tiers, purse, last, holds, fun k rests => ⟨fun held runs => (keys k rests).1 ((tierHeld_iff i).2 ⟨held, runs⟩),
        fun lapsed => (keys k rests).2 (tierHeld_lapsed lapsed)⟩⟩
    · rintro grace floor period anchor rfl
      exact ⟨applies_termsUnknown applied, fun now n known begun lasts => applies_termsKnown applied known begun lasts⟩
    · rintro n rfl
      exact applies_release applied
  · exact ⟨cell_unanswered brings deliver_entitlement live (takeEntitlement_work record),
      cell_likewise brings deliver_entitlement live (takeEntitlement_work record) quiet⟩
  · refine event_moves (u := s.modAccessCounters fun c => { c with entKeyOff := c.entKeyOff + 1 }) (cellEvent l bytes) live ?_
      live.rises rfl
    rw [cell_event_eq brings deliver_entitlement]
    exact if_pos unusable
  · refine cell_discards brings deliver_entitlement live ?_
    unfold takeEntitlement
    rw [if_neg (show s.clearOut.access.deviceKey ≠ .unusable from usable), bad]

end Sys2Proof.Machine
end

section
/-! SUPPORT. The checks of a BUY, the first that fails, and the state that they are made in (R93, R129). -/

namespace Sys2Proof.Machine

open Sys2Proof

variable {p : Fin 8} {k : Option (Fin 5)} {e : GuideEvent} {profile slot kind tag : Byte} {pin : Pin} {sid : Half}
  {eid : Word} {c now price : Nat} {st : Status} {f : Req} {s t u x : State}

/-! ### The first check that fails -/

@[simp] theorem firstFails_nil : ¬ firstFails [] st := by
  rintro ⟨before, check, after, e, -⟩
  exact absurd e (by simp)

@[simp] theorem firstFails_cons (check : Prop × Status) (checks : List (Prop × Status)) :
    firstFails (check :: checks) st ↔ (check.1 ∧ check.2 = st) ∨ (¬ check.1 ∧ firstFails checks st) := by
  constructor
  · rintro ⟨before, fails, after, e, holds, passed⟩
    cases before with
    | nil =>
      obtain ⟨rfl, -⟩ := List.cons.inj e
      exact .inl ⟨holds, rfl⟩
    | cons first before =>
      obtain ⟨rfl, rfl⟩ := List.cons.inj e
      exact .inr ⟨passed _ List.mem_cons_self, before, fails, after, rfl, holds, fun d mem =>
        passed d (List.mem_cons_of_mem _ mem)⟩
  · rintro (⟨holds, rfl⟩ | ⟨passes, before, fails, after, rfl, holds, passed⟩)
    · exact ⟨[], check.1, checks, rfl, holds, by simp⟩
    · refine ⟨check :: before, fails, after, rfl, holds, fun d mem => ?_⟩
      rcases List.mem_cons.1 mem with rfl | mem
      · exact passes
      · exact passed d mem

/-! ### Check 1: the operands (R93) -/

theorem pinDigitsOk_iff : pinDigitsOk pin = true ↔ pin.ok := by
  unfold pinDigitsOk
  simp only [Bool.and_eq_true, decide_eq_true_eq]
  exact ⟨fun ⟨⟨⟨a, b⟩, c⟩, d⟩ => ⟨a, b, c, d⟩, fun ⟨a, b, c, d⟩ => ⟨⟨⟨a, b⟩, c⟩, d⟩⟩

theorem buySlot_none : buySlot 255 = some none := rfl

theorem buySlot_some {j : Fin 5} (named : slot.toNat = j.val) : buySlot slot = some (some j) := by
  unfold buySlot
  rw [if_neg (by rintro rfl; exact absurd named (by have := j.isLt; simp; omega)), toFin?_of_eq named]
  rfl

theorem buySlot_of (named : ∀ j, k = some j → slot.toNat = j.val) (unnamed : k = none → slot = 255) :
    buySlot slot = some k := by
  cases k with
  | none => rw [unnamed rfl, buySlot_none]
  | some j => exact buySlot_some (named j rfl)

theorem buySlot_inRange (place : slot.toNat ≤ 4 ∨ slot = 255) : ∃ k, buySlot slot = some k := by
  rcases place with low | rfl
  · exact ⟨_, buySlot_some (j := ⟨slot.toNat, by omega⟩) rfl⟩
  · exact ⟨_, buySlot_none⟩

theorem buySlot_out (out : ¬ (slot.toNat ≤ 4 ∨ slot = 255)) : buySlot slot = none := by
  obtain ⟨high, other⟩ := not_or.1 out
  unfold buySlot
  rw [if_neg other, toFin?_of_le (by omega)]
  rfl

theorem buyReq_checked (who : profile.toNat = p.val) (place : buySlot slot = some k) (digits : pin.ok) (service : sid ≠ 0) :
    buyReq profile pin slot sid eid x = buyChecked p pin k sid.toNat eid.toNat x := by
  unfold buyReq
  rw [toFin?_of_eq who, place]
  dsimp only
  rw [if_neg (not_or.2 ⟨by simp [pinDigitsOk_iff.2 digits], service⟩)]

theorem buyReq_badField (bad : ¬ BuyInRange profile slot pin sid) :
    buyReq profile pin slot sid eid x = refuse .badField x := by
  unfold buyReq
  by_cases who : profile.toNat ≤ 7
  · rw [toFin?_of_eq (k := ⟨profile.toNat, by omega⟩) rfl]
    by_cases place : slot.toNat ≤ 4 ∨ slot = 255
    · obtain ⟨k, place'⟩ := buySlot_inRange place
      rw [place']
      dsimp only
      refine if_pos ?_
      by_contra fine
      obtain ⟨digits, service⟩ := not_or.1 fine
      exact bad ⟨who, pinDigitsOk_iff.1 (by simpa using digits), place, service⟩
    · rw [buySlot_out place]
  · rw [toFin?_of_le (by omega)]

/-! ### Checks 2 to 6: the profile (R93) -/

theorem now?_none : s.now? = none ↔ s.clock.known = false := by
  unfold State.now?
  cases s.clock.known <;> simp

theorem buyGate_fails (fails : firstFails (s.buyerChecks p) st) : s.buyGate p = some st := by
  unfold State.buyGate
  simp only [State.buyerChecks, firstFails_cons, firstFails_nil, and_false, or_false, now?_none] at fails
  rcases fails with ⟨mode, rfl⟩ | ⟨mode, ⟨unknown, rfl⟩ | ⟨known, ⟨key, rfl⟩ | ⟨key, ⟨use, rfl⟩ | ⟨use, locked, rfl⟩⟩⟩⟩
  · rw [if_pos mode]
  · rw [if_neg mode, if_pos (by simpa using unknown)]
  · rw [if_neg mode, if_neg (by simpa using known), if_pos key]
  · rw [if_neg mode, if_neg (by simpa using known), if_neg key, if_pos (by simpa using use)]
  · rw [if_neg mode, if_neg (by simpa using known), if_neg key, if_neg (by simpa using use), if_pos locked]

theorem buyGate_passes (passes : ∀ c ∈ s.buyerChecks p, ¬ c.1) : s.buyGate p = none := by
  simp only [State.buyerChecks, List.forall_mem_cons, List.not_mem_nil, false_implies, implies_true, and_true,
    now?_none] at passes
  obtain ⟨mode, known, key, use, locked⟩ := passes
  unfold State.buyGate
  rw [if_neg mode, if_neg (by simpa using known), if_neg key, if_neg (by simpa using use), if_neg locked]

theorem unlocked_of_passes (passes : ∀ c ∈ s.buyerChecks p, ¬ c.1) : (s.profile p).lockout = 0 := by
  have locked := passes (0 < (s.profile p).lockout, .locked) (by simp [State.buyerChecks])
  exact Nat.eq_zero_of_not_pos locked

theorem buyChecked_gate (stops : x.buyGate p = some st) {m n : Nat} : buyChecked p pin k m n x = refuse st x := by
  unfold buyChecked
  rw [stops]

/-! ### Check 7: the PIN (R129) -/

theorem buyChecked_pin {m n : Nat} (passes : x.buyGate p = none) (asked : (x.profile p).buyNeedsPin = true)
    (stops : (pinCheck p pin x).1 = some st) : buyChecked p pin k m n x = refuse st (pinCheck p pin x).2 := by
  unfold buyChecked
  rw [passes]
  dsimp only
  rw [if_pos asked]
  generalize pinCheck p pin x = r at stops ⊢
  obtain ⟨a, b⟩ := r
  cases stops
  rfl

theorem buyChecked_event {m n : Nat} (passes : x.buyGate p = none) (free : (x.profile p).lockout = 0)
    (right : (x.profile p).buyNeedsPin = true → pin = (x.profile p).pin) :
    buyChecked p pin k m n x = buyEvent p k m n (x.checked (x.profile p).buyNeedsPin p pin) := by
  unfold buyChecked
  rw [passes]
  dsimp only
  cases asked : (x.profile p).buyNeedsPin with
  | false => rfl
  | true => rw [if_pos rfl, checked_asked, pinCheck_passes free (right asked)]

theorem profileNotice_opened (cause : ProfileCause) (p : Fin 8) (s : State) :
    s.opened.profileNotice cause p = (s.profileNotice cause p).opened := raise_opened ..

/-- The PIN check of a request that is being taken is that of the state it came to. -/
theorem pinCheck_opened (p : Fin 8) (pin : Pin) (s : State) :
    pinCheck p pin s.opened = ((pinCheck p pin s).1, (pinCheck p pin s).2.opened) := by
  unfold pinCheck
  dsimp only
  change (if 0 < (s.profile p).lockout then _ else if pin = (s.profile p).pin then _ else
    if (s.profile p).failures < 4 then _ else _) = _
  split
  · rfl
  · split
    · change (_, if 0 < (s.profile p).failures then _ else _) = _
      split <;> rfl
    · split
      · rfl
      · exact congrArg (Prod.mk _) (profileNotice_opened _ p ((s.modProfile p fun r =>
          { r with failures := 0, lockout := 900 }).handProfile p))

theorem checkedFor_opened (asked : Bool) (p : Fin 8) (pin : Pin) (s : State) :
    s.opened.checked asked p pin = (s.checked asked p pin).opened := by
  cases asked with
  | false => rfl
  | true => rw [checked_asked, checked_asked, pinCheck_opened]

theorem pinCheck_link_core (p : Fin 8) (pin : Pin) (s : State) :
    (pinCheck p pin s).2.link.core = s.link.core ∧ (pinCheck p pin s).2.auxRises = s.auxRises := by
  unfold pinCheck
  dsimp only
  split
  · exact ⟨rfl, rfl⟩
  · split
    · dsimp only
      split <;> exact ⟨rfl, rfl⟩
    · split
      · exact ⟨rfl, rfl⟩
      · exact ⟨raise_core .., raise_auxRises ..⟩

/-- A request whose owner leaves the link port but for notices: it is answered, and the owner's state goes on. -/
theorem serve_leavesCore (h : s.ready) (hf : (f s.opened).2 = u.opened) (core : u.link.core = s.link.core)
    (rises : u.auxRises = []) : s.answered (s.serve kind tag f) kind tag (f s.opened).1.body
      ∧ u.unmoved (s.serve kind tag f) := by
  have settled : settle (f s.opened).2 = u.opened := by
    rw [hf]
    exact settle_none rises
  refine ⟨serve_answered kind tag f h ?_, ?_⟩
  · rw [settled]
    exact congrArg (fun l : Link => { l with goodFrames := l.goodFrames + 1 }) core
  · obtain ⟨q, -, eq⟩ := serve_ready kind tag f h
    rw [eq, settled]
    exact ⟨by rw [startTx_bare]; rfl, startTx_onward (u.opened.modLink (Link.pushReply q)), rfl⟩

/-! ### Checks 8 to 15: the event and the charge (R90 to R93) -/

theorem onAir_iff (start duration now : Nat) :
    onAir start duration now = true ↔ (start : Int) - 86400 ≤ now ∧ now < start + 60 * duration := by
  unfold onAir
  simp

theorem listFull_iff (a : Access) : a.listFull = true ↔ 64 ≤ a.purchases.length
    ∨ (∃ r ∈ a.purchases, r.seq % 64 = a.purse.nextSeq % 64) ∨ a.purse.nextSeq = 4294967295 := by
  unfold Access.listFull
  simp [or_assoc]

theorem capExceeded_iff (q : Profile) (c : Nat) : capExceeded q c = true ↔ ∃ cap ∈ q.cap, cap < q.spend + c := by
  unfold capExceeded
  simp [Option.any_eq_true]

theorem creditShort_iff (q : Purse) (c : Nat) : creditShort q c = true ↔ q.balance - (c : Int) < -(q.limit : Int) := by
  unfold creditShort
  exact decide_eq_true_iff

/-- The checks of an event and its charge as the model makes them (R93). -/
theorem buyJudge_eq (known : s.now? = some now) (priced : e.price = some price) : s.buyJudge p e =
    if e.purchasable = false then { status := .notPurchasable }
    else if ¬ ((e.start : Int) - 86400 ≤ now ∧ now < e.start + 60 * e.duration) then { status := .notOnAir }
    else { status := s.buyRoom p e.eid (s.charge e price now), charge := some (s.charge e price now) } := by
  unfold State.buyJudge
  rw [priced, known]
  dsimp only
  simp only [← onAir_iff, Bool.not_eq_true', Bool.not_eq_true]
  rfl

theorem buyJudge_unpriced (unpriced : e.price = none) : s.buyJudge p e = { status := .notPurchasable } := by
  unfold State.buyJudge
  rw [unpriced]

/-- What the room for a grant and a record asks (R93). -/
structure State.roomFor (s : State) (e : GuideEvent) : Prop where
  fresh : ¬ ∃ g ∈ s.access.grants, g.eid = e.eid
  grants : ¬ 32 ≤ s.access.grants.length
  list : ¬ (64 ≤ s.access.purchases.length ∨ (∃ r ∈ s.access.purchases, r.seq % 64 = s.access.purse.nextSeq % 64)
    ∨ s.access.purse.nextSeq = 4294967295)

theorem buyRoom_of (room : s.roomFor e) : s.buyRoom p e.eid c =
    if capExceeded (s.profile p) c then .capExceeded else if creditShort s.access.purse c then .creditShort else .ok := by
  unfold State.buyRoom
  rw [if_neg (mt (granted_iff e.eid).1 room.fresh), if_neg room.grants, if_neg (mt (listFull_iff _).1 room.list)]

theorem buyJudge_eventFails (known : s.now? = some now) (fails : firstFails (s.eventChecks e now) st) :
    (s.buyJudge p e).status = st ∧ st ≠ .ok ∧ st ≠ .capExceeded ∧ st ≠ .creditShort := by
  simp only [State.eventChecks, firstFails_cons, firstFails_nil, and_false, or_false] at fails
  cases priced : e.price with
  | none =>
    rw [buyJudge_unpriced priced]
    rcases fails with ⟨-, rfl⟩ | ⟨sold, -⟩
    · exact ⟨rfl, by decide⟩
    · exact absurd (.inr priced) sold
  | some price =>
    rw [buyJudge_eq known priced]
    rcases fails with ⟨unsold, rfl⟩ | ⟨sold, ⟨off, rfl⟩ | ⟨on, room⟩⟩
    · rw [if_pos (unsold.resolve_right (by simp [priced]))]
      exact ⟨rfl, by decide⟩
    · rw [if_neg (mt .inl sold), if_pos off]
      exact ⟨rfl, by decide⟩
    · rw [if_neg (mt .inl sold), if_neg on]
      unfold State.buyRoom
      dsimp only
      rcases room with ⟨held, rfl⟩ | ⟨fresh, ⟨full, rfl⟩ | ⟨grants, full, rfl⟩⟩
      · rw [if_pos ((granted_iff e.eid).2 held)]
        exact ⟨rfl, by decide⟩
      · rw [if_neg (mt (granted_iff e.eid).1 fresh), if_pos full]
        exact ⟨rfl, by decide⟩
      · rw [if_neg (mt (granted_iff e.eid).1 fresh), if_neg grants, if_pos ((listFull_iff _).2 full)]
        exact ⟨rfl, by decide⟩

/-- The checks of the event all passed (R93). -/
theorem buyJudge_eventPasses (known : s.now? = some now) (passes : ∀ x ∈ s.eventChecks e now, ¬ x.1) :
    ∃ price, e.price = some price ∧ s.buyJudge p e =
      { status := if capExceeded (s.profile p) (s.charge e price now) then .capExceeded
          else if creditShort s.access.purse (s.charge e price now) then .creditShort else .ok
        charge := some (s.charge e price now) } := by
  simp only [State.eventChecks, List.forall_mem_cons, List.not_mem_nil, false_implies, implies_true, and_true] at passes
  obtain ⟨sold, on, fresh, grants, list⟩ := passes
  obtain ⟨price, priced⟩ := Option.ne_none_iff_exists'.1 fun unpriced => sold (.inr unpriced)
  refine ⟨price, priced, ?_⟩
  rw [buyJudge_eq known priced, if_neg (mt .inl sold), if_neg on, buyRoom_of ⟨fresh, grants, list⟩]

theorem buyEvent_absent {m n : Nat} (absent : ∀ q ∈ x.guide.places, ¬ (q.ev.sid = m ∧ q.ev.eid = n)) :
    buyEvent p k m n x = refuse .noSuch x := by
  have unheld : x.guide.placeOf m n = none := List.find?_eq_none.2 fun q mem => by
    simpa using absent q mem
  unfold buyEvent readNamed
  rw [unheld]

theorem readNamed_listed (listed : x.listed e) : readNamed e.sid e.eid x = (some e, x) := by
  obtain ⟨ok, q, mem, rfl, clean⟩ := listed
  unfold readNamed
  rw [placeOf_eq ok mem rfl rfl]
  exact readPlace_clean ok.1 mem clean

theorem buyEvent_judged (listed : x.listed e) (stops : (x.buyJudge p e).status ≠ .ok) :
    buyEvent p k e.sid e.eid x = (answer (x.buyJudge p e).status (x.buyJudge p e).fields, x) := by
  unfold buyEvent
  rw [readNamed_listed listed]
  dsimp only
  generalize x.buyJudge p e = v at stops ⊢
  split
  · exact absurd ‹_› stops
  · rfl

theorem buyEvent_commits (listed : x.listed e) (known : x.now? = some now)
    (judged : x.buyJudge p e = { status := .ok, charge := some c }) :
    buyEvent p k e.sid e.eid x = commitBuy p k e c now x := by
  unfold buyEvent
  rw [readNamed_listed listed]
  dsimp only
  rw [judged, known]

theorem fields_event {v : Verdict} (cap : v.status ≠ .capExceeded) (credit : v.status ≠ .creditShort) : v.fields = [] := by
  unfold Verdict.fields
  split
  · exact absurd ‹_› cap
  · exact absurd ‹_› credit
  · rfl

end Sys2Proof.Machine
end

section
/-! PROOF of O36: BUY (R90 to R94, R97, R129, R178), its grant's re-examination and rebasing (R69, R86, log 34). -/

namespace Sys2Proof.Machine

open Sys2Proof

variable {p : Fin 8} {k : Fin 5} {ks : List (Fin 5)} {slotOf : Option (Fin 5)} {e : GuideEvent} {pin : Pin} {id c now price : Nat}
  {phase : Phase} {s t u v w x y : State}

/-! ### Keys rebased (R86) -/

/-- A descrambler's keys on an event's preview rest on its grant (R86). -/
def Descrambler.rebase (id : Nat) (d : Descrambler) : Descrambler :=
  { d with keyA := d.keyA.map (Key.rebase id), keyB := d.keyB.map (Key.rebase id) }

theorem Descrambler.key_rebase (id : Nat) (d : Descrambler) (q : Phase) :
    (d.rebase id).key q = (d.key q).map (Key.rebase id) := by
  cases q <;> rfl

theorem Descrambler.held_rebase (id : Nat) (d : Descrambler) (q : Phase) : (d.rebase id).held q = d.held q := by
  cases q <;> rfl

theorem Descrambler.restsOn_iff (d : Descrambler) (b : Basis) : d.restsOn b = true ↔ ∃ q x, d.key q = some x ∧ x.basis = b := by
  unfold Descrambler.restsOn
  simp only [Bool.or_eq_true, Option.any_eq_true, beq_iff_eq]
  constructor
  · rintro (⟨x, key, basis⟩ | ⟨x, key, basis⟩)
    · exact ⟨.a, x, key, basis⟩
    · exact ⟨.b, x, key, basis⟩
  · rintro ⟨q, x, key, basis⟩
    cases q with
    | a => exact .inl ⟨x, key, basis⟩
    | b => exact .inr ⟨x, key, basis⟩

theorem Key.rebase_other {x : Key} (other : x.basis ≠ .preview id) : x.rebase id = x := if_neg other

theorem Descrambler.rebase_unrested {d : Descrambler} (unrested : d.restsOn (.preview id) = false) : d.rebase id = d := by
  have other : ∀ q x, d.key q = some x → x.rebase id = x := fun q x key => Key.rebase_other fun basis => by
    rw [(d.restsOn_iff _).2 ⟨q, x, key, basis⟩] at unrested
    cases unrested
  have keyA : d.keyA.map (Key.rebase id) = d.keyA := by
    cases key : d.keyA with
    | none => rfl
    | some x => exact congrArg some (other .a x key)
  have keyB : d.keyB.map (Key.rebase id) = d.keyB := by
    cases key : d.keyB with
    | none => rfl
    | some x => exact congrArg some (other .b x key)
  unfold Descrambler.rebase
  rw [keyA, keyB]

/-- The keys of some slots rebased, before they are told of. -/
def rebaseKeys (id : Nat) (ks : List (Fin 5)) (s : State) : State :=
  forEach ks (fun k s => s.modDesc k (Descrambler.rebase id)) s

theorem rebase_eq (id : Nat) (s : State) : rebase id s
    = setEntitledAll (s.slotsOn (.preview id)) true false (rebaseKeys id (s.slotsOn (.preview id)) s) := rfl

/-- Only slots changed, each but for its descrambler's keys. -/
structure Rebases (id : Nat) (ks : List (Fin 5)) (s t : State) : Prop where
  rest : { t with slots := s.slots } = s
  other : ∀ k, k ∉ ks → t.slot k = s.slot k
  own : ∀ k ∈ ks, t.slot k = { s.slot k with desc := (s.slot k).desc.rebase id }

theorem rebases_keys (id : Nat) (nodup : ks.Nodup) (s : State) : Rebases id ks s (rebaseKeys id ks s) := by
  induction ks generalizing s with
  | nil => exact ⟨rfl, fun _ _ => rfl, by simp⟩
  | cons j ks ih =>
    obtain ⟨fresh, nodup⟩ := List.nodup_cons.1 nodup
    obtain ⟨rest, other, own⟩ := ih nodup (s.modDesc j (Descrambler.rebase id))
    have step : rebaseKeys id (j :: ks) s = rebaseKeys id ks (s.modDesc j (Descrambler.rebase id)) := rfl
    rw [step]
    refine ⟨?_, fun k out => ?_, fun k mem => ?_⟩
    · exact (congrArg (fun x : State => { x with slots := s.slots }) rest :)
    · obtain ⟨ne, out⟩ := not_or.1 (mt List.mem_cons.2 out)
      rw [other k out]
      exact slot_modSlot_ne (Ne.symm ne) _ s
    · rcases List.mem_cons.1 mem with rfl | mem
      · rw [other k fresh, modDesc_slot]
      · have ne : j ≠ k := fun e => fresh (e ▸ mem)
        rw [own k mem, State.modDesc, slot_modSlot_ne ne]

/-- What the rebasing of an event's keys makes of the slots, and tells of them (R86). -/
structure Rebased (id : Nat) (s t : State) : Prop extends KeyWork s t where
  key : ∀ k q, (t.slot k).desc.key q = ((s.slot k).desc.key q).map (Key.rebase id)
  held : ∀ k q, (t.slot k).desc.held q = (s.slot k).desc.held q
  stands : s.restarting = false → ∀ k, s.playable k → s.byPermit k → t.byPermit k
  told : ∀ k, (s.slot k).desc.restsOn (.preview id) = true →
    (t.gate.src[k]).entitled = true ∧ (t.gate.src[k]).preview = false
  untold : ∀ k : Fin 5, (s.slot k).desc.restsOn (.preview id) = false → t.gate.src[k] = s.gate.src[k]

theorem hasKey_rebase (id : Nat) (x : Slot) : ({ x with desc := x.desc.rebase id } : Slot).hasKey = x.hasKey := by
  unfold Slot.hasKey Descrambler.rebase
  simp

theorem rebased_rebase (id : Nat) (s : State) : Rebased id s (rebase id s) := by
  rw [rebase_eq]
  have named : ∀ k, k ∈ s.slotsOn (.preview id) ↔ (s.slot k).desc.restsOn (.preview id) = true := fun k => by
    unfold State.slotsOn
    rw [List.mem_filter]
    exact and_iff_right (mem_allSlots k)
  have keys : Rebases id (s.slotsOn (.preview id)) s (rebaseKeys id (s.slotsOn (.preview id)) s) :=
    rebases_keys id (allSlots_nodup.filter _) s
  generalize s.slotsOn (.preview id) = ks at named keys ⊢
  generalize rebaseKeys id ks s = v at keys ⊢
  have slot : ∀ k, v.slot k = { s.slot k with desc := (s.slot k).desc.rebase id } := fun k => by
    by_cases mem : k ∈ ks
    · exact keys.own k mem
    · rw [keys.other k mem, Descrambler.rebase_unrested (Bool.eq_false_iff.2 (mt (named k).2 mem))]
  have gated : Gated v (setEntitledAll ks true false v) := gated_report ..
  have gate : v.gate = s.gate := (congrArg State.gate keys.rest :)
  have services : v.services = s.services := (congrArg State.services keys.rest :)
  have restarting : v.restarting = s.restarting := (congrArg State.restarting keys.rest :)
  have access : v.access = s.access := (congrArg State.access keys.rest :)
  have link : v.link = s.link := (congrArg State.link keys.rest :)
  have work : KeyWork s v := by
    refine ⟨?_, by rw [access], by rw [access], by rw [link], fun i set => by rwa [link]⟩
    have := congrArg (fun x : State => { x with
      gate := s.gate, slots := s.slots, auxRises := s.auxRises, link := s.link, access := s.access }) keys.rest
    exact this
  refine ⟨work.trans gated.keyWork, fun k q => ?_, fun k q => ?_, fun running k plays stood => ?_, fun k rests => ?_,
    fun k unrested => ?_⟩
  · rw [(gated.slots k).desc, slot]
    exact Descrambler.key_rebase ..
  · rw [(gated.slots k).desc, slot]
    exact Descrambler.held_rebase ..
  · refine gateActs_playable (gateActs_report _ (restarting.trans running)) ?_ ?_
    · unfold State.playable at plays ⊢
      rw [isClear_congr (by rw [slot]) services, slot, hasKey_rebase]
      exact plays
    · unfold State.byPermit State.permit at stood ⊢
      rw [gate, slot]
      exact stood
  · exact setEntitledAll_get ((named k).2 rests) ..
  · rw [(aside_setEntitledAll (k := k) (fun mem => ?_) true false v).src, gate]
    rw [(named k).1 mem] at unrested
    cases unrested

/-! ### A grant made (R69, R86, log 34) -/

/-- A key after a re-examination is the one kept, or a word stored on a basis that the requirement is met on. -/
theorem State.reexamined.key_cases {kept : Fin 5 → Phase → Option Key} (done : s.reexamined t kept) (k : Fin 5) (q : Phase) :
    (t.slot k).desc.key q = kept k q ∨ ∃ req b y, s.meets k req b ∧ (t.slot k).desc.key q = some y ∧ y.basis = b := by
  cases held : (s.slot k).desc.held q with
  | none => exact .inl (done.unheld k q held).2
  | some h =>
    cases opened : s.openWord h.record.wrapped with
    | none => exact .inl (done.unopened k q h held opened).2
    | some w =>
      cases found : s.basisOf k h.record.req with
      | none => exact .inl (done.unmet k q h held (by rw [opened]; rfl) (unmet_iff.2 found)).2
      | some b =>
        obtain ⟨-, ignores, stores⟩ := done.met k q h w b held opened (meets_iff.2 found)
        by_cases older : (s.slot k).desc.outdated h.record
        · exact .inr ⟨_, b, _, meets_iff.2 found, (stores older).1, rfl⟩
        · exact .inl (ignores older)

/-- A requirement is met on no preview of an event that is granted (R84). -/
theorem meets_granted {req : Requirement} {b : Basis} (granted : ∃ g ∈ s.access.grants, g.eid = id) (met : s.meets k req b) :
    b ≠ .preview id := by
  rintro rfl
  obtain ⟨g, mem, same⟩ := granted
  cases met with
  | preview e now none cur known early => exact none g mem same

theorem playable_of_key {x : Key} (key : (s.slot k).desc.key phase = some x) : s.playable k := by
  refine .inr ?_
  unfold Slot.hasKey
  cases phase with
  | a => rw [show (s.slot k).desc.keyA = some x from key]; rfl
  | b => rw [show (s.slot k).desc.keyB = some x from key, Bool.or_comm]; rfl

/-- A re-examination with an event granted and a rebasing of its keys: what a new grant does. -/
theorem regranted_rebase (running : x.restarting = false) (placed : ∀ k, (x.slot k).desc.placed)
    (granted : ∃ g ∈ x.access.grants, g.eid = id)
    (same : SameRights { s with access := { s.access with grants := x.access.grants } } x) :
    s.regranted (rebase id (reexamine x)) id := by
  have done := reexamine_reexamined running placed
  have retold := fun k => reexamine_retold (placed k)
  have work := keyWork_reexamine x
  generalize reexamine x = y at done retold work ⊢
  have rebased := rebased_rebase id y
  generalize rebase id y = t at rebased ⊢
  have grants : t.access.grants = x.access.grants := rebased.grants.trans work.grants
  have slot : ∀ k, x.slot k = s.slot k := same.slot
  rw [← grants] at same
  have key : ∀ k q, (y.slot k).desc.key q = (s.slot k).desc.key q →
      (t.slot k).desc.key q = (s.slot k).desc.rebased q id := fun k q kept => by
    rw [rebased.key, kept]
    rfl
  refine ⟨⟨?_, ?_, ?_, ?_⟩, fun k q x' held key' basis => ?_, fun k other => ?_⟩
  · intro k q held
    obtain ⟨gone, kept⟩ := done.unheld k q (by rwa [slot])
    rw [slot] at kept
    exact ⟨(rebased.held k q).trans gone, key k q kept⟩
  · intro k q h held unopened
    obtain ⟨gone, kept⟩ := done.unopened k q h (by rwa [slot]) ((same.openWord _).trans unopened)
    rw [slot] at kept
    exact ⟨(rebased.held k q).trans gone, key k q kept⟩
  · intro k q h held opened unmet
    obtain ⟨stays, kept⟩ := done.unmet k q h (by rwa [slot]) (by rwa [same.openWord]) ((same.unmet ..).2 unmet)
    rw [slot] at kept
    exact ⟨(rebased.held k q).trans stays, key k q kept⟩
  · intro k q h w b held opened met
    have met := (same.meets ..).2 met
    obtain ⟨gone, ignores, stores⟩ := done.met k q h w b (by rwa [slot]) ((same.openWord _).trans opened) met
    rw [slot] at ignores stores
    refine ⟨(rebased.held k q).trans gone, fun newer => key k q (ignores newer), fun older => ?_⟩
    obtain ⟨stored, stands⟩ := stores older
    refine ⟨?_, fun state reason => ?_⟩
    · rw [rebased.key, stored]
      exact congrArg some (Key.rebase_other (meets_granted granted met))
    · exact rebased.stands (work.restarting.trans running) k (playable_of_key stored) (stands state reason)
  · have kept := (done.unheld k q (by rwa [slot])).2
    rw [slot, key'] at kept
    exact rebased.told k ((Descrambler.restsOn_iff ..).2 ⟨q, x', kept, basis⟩)
  · refine (retold k).congr same (rebased.untold k (Bool.eq_false_iff.2 fun rests => ?_))
    obtain ⟨q, x', found, basis⟩ := (Descrambler.restsOn_iff ..).1 rests
    rcases done.key_cases k q with kept | ⟨req, b, y', met, stored, on⟩
    · rw [slot, found] at kept
      exact other q x' kept.symm basis
    · rw [found] at stored
      cases stored
      exact meets_granted granted met (on.symm.trans basis)

theorem State.regranted.congr (h : s.regranted t id) (slots : u.slots = t.slots) (gate : u.gate = t.gate)
    (grants : u.access.grants = t.access.grants) : s.regranted u id := by
  refine ⟨?_, fun k q x => ?_, fun k other => ?_⟩
  · rw [grants]
    exact h.records.congr ⟨rfl, rfl, rfl, rfl, rfl⟩ slots gate
  · rw [gate]
    exact h.rebased k q x
  · rw [grants]
    exact (h.told k other).congr ⟨rfl, rfl, rfl, rfl, rfl⟩ (by rw [gate])

/-! ### The commit (R94, R97, R178) -/

/-- The tables and the purchase unit of a commit, before the records are re-examined. -/
def State.sold (s : State) (p : Fin 8) (slotOf : Option (Fin 5)) (e : GuideEvent) (c now : Nat) : State :=
  let r := purchaseOf p slotOf e c s.access.purse.nextSeq now
  handPurchase p r (grantOf e) (commitTables p r (grantOf e) s)

/-- A commit's end: the records re-examined, the keys rebased, and the notice (R86, R94, R101). -/
def State.grantsTo (s : State) (id seq : Nat) : State := (rebase id (reexamine s)).accessNotice (.purchase seq)

theorem commitBuy_eq (p : Fin 8) (slotOf : Option (Fin 5)) (e : GuideEvent) (c now : Nat) (s : State) :
    commitBuy p slotOf e c now s = (
      { body := reply .ok (u16 c ++ u32 s.access.purse.nextSeq ++ i32 (s.access.purse.balance - c)
          ++ u32 (min 16777215 ((s.profile p).spend + c)))
        hold := .written (.purchase (recordPlace s.access.purse.nextSeq)) (s.store.last + 1) },
      (s.sold p slotOf e c now).grantsTo e.eid s.access.purse.nextSeq) := by
  have spend : (s.sold p slotOf e c now).profile p = { s.profile p with spend := min 16777215 ((s.profile p).spend + c) } :=
    (profile_modProfile p p (fun q => { q with spend := min 16777215 (q.spend + c) }) _).trans (if_pos rfl)
  have last : (s.sold p slotOf e c now).store.last = s.store.last + 1 := Store.handOver_last ..
  unfold commitBuy
  change (Answer.mk (reply .ok (u16 c ++ u32 s.access.purse.nextSeq ++ i32 (s.access.purse.balance - c)
      ++ u32 ((s.sold p slotOf e c now).profile p).spend))
      (.written (.purchase (recordPlace s.access.purse.nextSeq)) (s.sold p slotOf e c now).store.last),
    (s.sold p slotOf e c now).grantsTo e.eid s.access.purse.nextSeq) = _
  rw [spend, last]

/-- The re-examination and the rebasing leave all but the slots, the gate array and the counters; the notice is
raised. -/
theorem grantsTo_work (id seq : Nat) (running : s.restarting = false) :
    KeyWork s (s.grantsTo id seq) ∧ (s.grantsTo id seq).link.flags[2] = true
      ∧ (s.grantsTo id seq).slots = (rebase id (reexamine s)).slots
      ∧ (s.grantsTo id seq).gate = (rebase id (reexamine s)).gate := by
  have work := (keyWork_reexamine s).trans (rebased_rebase id (reexamine s)).toKeyWork
  unfold State.grantsTo
  generalize rebase id (reexamine s) = t at work ⊢
  refine ⟨work.trans (gated_raise ..).keyWork, ?_, raise_slots .., raise_gate ..⟩
  exact (raise_flags (work.restarting.trans running) .access none _ 2 (by decide)).trans (if_pos rfl)

/-- What a commit leaves of a state (R94). -/
structure State.bought (s t : State) (p : Fin 8) (slotOf : Option (Fin 5)) (e : GuideEvent) (c now : Nat) : Prop where
  purse : t.access.purse = { s.access.purse with
    balance := s.access.purse.balance - c, debit := s.access.purse.debit + BitVec.ofNat 32 c,
    nextSeq := s.access.purse.nextSeq + 1 }
  purchases : t.access.purchases = s.access.purchases
    ++ [{ seq := s.access.purse.nextSeq, eid := e.eid, sid := e.sid, profile := p, slot := slotOf, charge := c, time := now }]
  grants : t.access.grants
    = keyPut (·.eid) { eid := e.eid, sid := e.sid, endTime := e.start + 60 * e.duration } s.access.grants
  tiers : t.access.tiers = s.access.tiers
  buyer : t.profile p = { s.profile p with spend := min 16777215 ((s.profile p).spend + c) }
  others : ∀ q, q ≠ p → t.profile q = s.profile q
  last : t.store.last = s.store.last + 1
  holds : t.store.holds (.purchase (recordPlace s.access.purse.nextSeq)) (s.store.last + 1) = true
  flag : t.link.flags[2] = true

theorem sold_profile (p q : Fin 8) (slotOf : Option (Fin 5)) (e : GuideEvent) (c now : Nat) (s : State) :
    (s.sold p slotOf e c now).profile q
      = if q = p then { s.profile q with spend := min 16777215 ((s.profile q).spend + c) } else s.profile q :=
  profile_modProfile q p (fun x => { x with spend := min 16777215 (x.spend + c) }) _

theorem bought_commit (p : Fin 8) (slotOf : Option (Fin 5)) (e : GuideEvent) (c now : Nat) (running : s.restarting = false) :
    s.bought (commitBuy p slotOf e c now s).2 p slotOf e c now := by
  rw [commitBuy_eq]
  obtain ⟨work, flag, -, -⟩ := grantsTo_work (s := s.sold p slotOf e c now) e.eid s.access.purse.nextSeq running
  dsimp only
  generalize (s.sold p slotOf e c now).grantsTo e.eid s.access.purse.nextSeq = t at work flag ⊢
  have profile : ∀ q, t.profile q = (s.sold p slotOf e c now).profile q := fun q => by
    unfold State.profile
    rw [work.parental]
  refine ⟨work.purse.trans rfl, work.purchases.trans rfl, work.grants.trans rfl, work.tiers.trans rfl, ?_, fun q ne => ?_,
    ?_, ?_, flag⟩
  · rw [profile, sold_profile, if_pos rfl]
  · rw [profile, sold_profile, if_neg ne]
  · rw [work.store]
    exact Store.handOver_last ..
  · rw [work.store]
    exact Store.handOver_holds ..

/-- What the rises taken after a commit leave of it. -/
theorem State.bought.acts (h : s.bought t p slotOf e c now) (acts : Acts t u) : s.bought u p slotOf e c now := by
  have purse : u.access.purse = t.access.purse := (congrArg (·.access.purse) acts.calm :)
  have purchases : u.access.purchases = t.access.purchases := (congrArg (·.access.purchases) acts.calm :)
  have grants : u.access.grants = t.access.grants := (congrArg (·.access.grants) acts.calm :)
  have tiers : u.access.tiers = t.access.tiers := (congrArg (·.access.tiers) acts.calm :)
  have profiles : u.parental.profiles = t.parental.profiles := (congrArg (·.parental.profiles) acts.calm :)
  have store : u.store = t.store := (congrArg State.store acts.calm :)
  have profile : ∀ q, u.profile q = t.profile q := fun q => by
    unfold State.profile
    rw [profiles]
  exact ⟨purse.trans h.purse, purchases.trans h.purchases, grants.trans h.grants, tiers.trans h.tiers,
    (profile p).trans h.buyer, fun q ne => (profile q).trans (h.others q ne), by rw [store, h.last],
    by rw [store]; exact h.holds, acts.flags 2 h.flag⟩

/-- What the link port and the clock's work leave of a commit. -/
theorem State.bought.served (h : s.bought t p slotOf e c now) (served : Served t u) : s.bought u p slotOf e c now := by
  have access : u.access = t.access := (congrArg State.access served.likewise.symm :)
  have store : u.store = t.store := (congrArg State.store served.likewise.symm :)
  have profile : ∀ q, u.profile q = t.profile q := fun q => by
    unfold State.profile
    rw [served.parental]
  exact ⟨by rw [access, h.purse], by rw [access, h.purchases], by rw [access, h.grants], by rw [access, h.tiers],
    (profile p).trans h.buyer, fun q ne => (profile q).trans (h.others q ne), by rw [store, h.last],
    by rw [store]; exact h.holds, by rw [served.flags]; exact h.flag⟩

/-! ### The reply that waits for the purchase unit (R94, R178, R185) -/

theorem startTx_replies (s : State) : s.startTx.link.replies
    = s.link.replies.map fun r => { r with hold := r.hold.settle s.store } :=
  (Link.begin_fields s.clock.uptimeMs s.restarting (s.link.settle s.store)).1

/-- A reply that waits for a unit that the store holds waits on. -/
theorem serve_waits {kind tag : Byte} {f : Req} {unit : UnitId} {number : StoreNumber} (ready : s.ready)
    (hold : (f s.opened).1.hold = .written unit number)
    (held : (settle (f s.opened).2).store.holds unit number = true) :
    ∃ r, (s.serve kind tag f).link.replies.getLast? = some r ∧ r.hold = .written unit number := by
  unfold State.serve
  rw [takeRequest_ready kind tag _ ready]
  dsimp only
  have waits : (replyOf kind tag s.opened ((f s.opened).1, settle (f s.opened).2)).hold = .written unit number := by
    unfold replyOf holdOf
    dsimp only
    rw [hold]
  generalize replyOf kind tag s.opened ((f s.opened).1, settle (f s.opened).2) = r at waits
  generalize settle (f s.opened).2 = u at held ⊢
  have pushed : (u.modLink (Link.pushReply r)).link.replies = u.link.replies ++ [r] := rfl
  refine ⟨{ r with hold := r.hold.settle u.store }, ?_, ?_⟩
  · rw [startTx_replies, pushed, List.map_append]
    exact List.getLast?_concat ..
  · dsimp only
    rw [waits]
    exact if_pos held

/-! ### A BUY up to its commit (R93, R129) -/

/-- What a PIN check that passes leaves of a profile: all but its run of failures (R129). -/
theorem checked_profile (asked : Bool) (free : (s.profile p).lockout = 0) (right : asked = true → pin = (s.profile p).pin) :
    (∃ n, (s.checked asked p pin).profile p = { s.profile p with failures := n })
      ∧ ∀ q, q ≠ p → (s.checked asked p pin).profile q = s.profile q := by
  cases asked with
  | false => exact ⟨⟨_, rfl⟩, fun _ _ => rfl⟩
  | true =>
    rw [checked_asked, pinCheck_passes free (right rfl)]
    dsimp only
    split
    · have cleared := fun q => profile_modProfile q p (fun r => { r with failures := 0 }) s
      exact ⟨⟨0, (cleared p).trans (if_pos rfl)⟩, fun q ne => (cleared q).trans (if_neg ne)⟩
    · exact ⟨⟨_, rfl⟩, fun _ _ => rfl⟩

/-- What a PIN check that passes leaves of the state: all but the profiles and the store. -/
theorem exists_checked (asked : Bool) (free : (s.profile p).lockout = 0) (right : asked = true → pin = (s.profile p).pin) :
    ∃ a b, s.checked asked p pin = { s with parental := a, store := b } := by
  cases asked with
  | false => exact ⟨_, _, rfl⟩
  | true => exact ⟨_, _, checked_eq true free (right rfl)⟩

variable {profile slot tag : Byte} {sid : Half} {eid : Word} {st : Status} {fields : List Byte}

/-- A BUY that its checks refuse. -/
theorem buy_stops (ready : s.ready) (stops : buyReq profile pin slot sid eid s.opened = (answer st fields, u.opened))
    (core : u.link.core = s.link.core) (rises : u.auxRises = []) :
    ∃ t, exec (.buy tag profile pin slot sid eid) s = .next t ∧ u.unmoved t ∧ s.answered t 0x38 tag (reply st fields) := by
  obtain ⟨answered, unmoved⟩ := serve_leavesCore (kind := 0x38) (tag := tag) (f := buyReq profile pin slot sid eid) ready
    (by rw [stops]) core rises
  rw [stops] at answered
  exact ⟨_, rfl, unmoved, answered⟩

section Checked

variable (who : profile.toNat = p.val) (inRange : BuyInRange profile slot pin sid)
include who inRange

/-- A BUY whose first checks pass comes to its event in the state that the PIN check leaves. -/
theorem buyReq_event (place : buySlot slot = some slotOf) (passes : ∀ c ∈ s.buyerChecks p, ¬ c.1)
    (right : (s.profile p).buyNeedsPin = true → pin = (s.profile p).pin) :
    buyReq profile pin slot sid eid s.opened
      = buyEvent p slotOf sid.toNat eid.toNat (s.checked (s.profile p).buyNeedsPin p pin).opened := by
  rw [buyReq_checked who place inRange.digits inRange.service,
    buyChecked_event (x := s.opened) (buyGate_passes (s := s) passes) (unlocked_of_passes passes) right,
    ← checkedFor_opened]
  rfl

variable (ready : s.ready)
include ready

theorem buy_gated (fails : firstFails (s.buyerChecks p) st) :
    ∃ t, exec (.buy tag profile pin slot sid eid) s = .next t ∧ s.unmoved t ∧ s.answered t 0x38 tag (reply st) := by
  obtain ⟨k, place⟩ := buySlot_inRange inRange.place
  refine buy_stops ready ?_ rfl ready.rises
  rw [buyReq_checked who place inRange.digits inRange.service]
  exact buyChecked_gate (x := s.opened) (buyGate_fails fails)

theorem buy_pinStops (passes : ∀ c ∈ s.buyerChecks p, ¬ c.1) (asked : (s.profile p).buyNeedsPin = true) :
    s.pinStops (.buy tag profile pin slot sid eid) 0x38 tag p pin := by
  intro st stops
  obtain ⟨k, place⟩ := buySlot_inRange inRange.place
  obtain ⟨core, rises⟩ := pinCheck_link_core p pin s
  have refused : buyReq profile pin slot sid eid s.opened = (answer st, (pinCheck p pin s).2.opened) := by
    rw [buyReq_checked who place inRange.digits inRange.service,
      buyChecked_pin (x := s.opened) (st := st) (buyGate_passes (s := s) passes) asked
        (by rw [pinCheck_opened]; exact stops), pinCheck_opened]
    rfl
  obtain ⟨t, run, unmoved, answered⟩ := buy_stops (tag := tag) ready refused core (rises.trans ready.rises)
  exact ⟨t, run, answered, unmoved⟩

/-- A BUY refused at its event or its charge. -/
theorem buy_eventStops (passes : ∀ c ∈ s.buyerChecks p, ¬ c.1)
    (right : (s.profile p).buyNeedsPin = true → pin = (s.profile p).pin)
    (stops : ∀ k, buyEvent p k sid.toNat eid.toNat (s.checked (s.profile p).buyNeedsPin p pin).opened
      = (answer st fields, (s.checked (s.profile p).buyNeedsPin p pin).opened)) :
    ∃ t, exec (.buy tag profile pin slot sid eid) s = .next t
      ∧ (s.checked (s.profile p).buyNeedsPin p pin).unmoved t ∧ s.answered t 0x38 tag (reply st fields) := by
  obtain ⟨k, place⟩ := buySlot_inRange inRange.place
  obtain ⟨a, b, left⟩ := exists_checked (pin := pin) (s.profile p).buyNeedsPin (unlocked_of_passes passes) right
  refine buy_stops ready ((buyReq_event who inRange place passes right).trans (stops k)) ?_ ?_
  · rw [left]
  · rw [left]
    exact ready.rises

end Checked

/-- States in which the checks of an event and its charge are the same (R93). -/
structure SameSale (p : Fin 8) (s x : State) : Prop where
  events : x.eventChecks = s.eventChecks
  charge : x.charge = s.charge
  cap : capExceeded (x.profile p) = capExceeded (s.profile p)
  access : x.access = s.access
  guide : x.guide = s.guide
  clock : x.clock = s.clock

theorem SameSale.known (h : SameSale p s x) (known : s.now? = some now) : x.now? = some now := by
  unfold State.now?
  rw [h.clock]
  exact known

theorem SameSale.listed (h : SameSale p s x) (listed : s.listed e) : x.listed e := by
  unfold State.listed
  rw [h.guide]
  exact listed

theorem charge_checked (asked : Bool) (free : (s.profile p).lockout = 0) (right : asked = true → pin = (s.profile p).pin) :
    SameSale p s (s.checked asked p pin).opened := by
  obtain ⟨n, buyer⟩ := (checked_profile asked free right).1
  obtain ⟨a, b, left⟩ := exists_checked asked free right
  have cap : capExceeded ((s.checked asked p pin).profile p) = capExceeded (s.profile p) := by
    rw [buyer]
    rfl
  rw [left] at cap ⊢
  exact ⟨rfl, rfl, cap, rfl, rfl, rfl⟩

/-- The first check of a charge that fails, and the fields of its reply (R93). -/
theorem chargeFails_fields (fails : firstFails (s.chargeChecks p c) st) :
    (if capExceeded (s.profile p) c then Status.capExceeded else if creditShort s.access.purse c then .creditShort else .ok)
        = st ∧ st ≠ .ok ∧ ({ status := st, charge := some c } : Verdict).fields = u16 c := by
  simp only [State.chargeChecks, firstFails_cons, firstFails_nil, and_false, or_false] at fails
  rcases fails with ⟨past, rfl⟩ | ⟨within, short, rfl⟩
  · exact ⟨if_pos ((capExceeded_iff ..).2 past), by decide, rfl⟩
  · rw [if_neg (mt (capExceeded_iff ..).1 within)]
    exact ⟨if_pos ((creditShort_iff ..).2 short), by decide, rfl⟩

theorem eventChecks_pass (sells : s.sells p e now) (priced : e.price = some price) : ∀ x ∈ s.eventChecks e now, ¬ x.1 := by
  simp only [State.eventChecks, List.forall_mem_cons, List.not_mem_nil, false_implies, implies_true, and_true]
  refine ⟨?_, not_not.2 sells.onAir, ?_, Nat.not_le.2 sells.room.1, ?_⟩
  · rw [sells.purchasable, priced]
    simp
  · rintro ⟨g, mem, same⟩
    exact sells.fresh g mem same
  · rintro (full | ⟨r, mem, same⟩ | out)
    · exact absurd sells.room.2 (Nat.not_lt.2 full)
    · exact sells.place r mem same
    · exact sells.number out

theorem buyerChecks_pass (sells : s.sells p e now) : ∀ x ∈ s.buyerChecks p, ¬ x.1 := by
  simp only [State.buyerChecks, List.forall_mem_cons, List.not_mem_nil, false_implies, implies_true, and_true]
  exact ⟨not_not.2 sells.mode, by rw [sells.known]; simp, sells.key, by rw [sells.inUse]; simp, by rw [sells.free]; simp⟩

/-- A BUY that every check passes commits (R93, R94). -/
theorem buyReq_commits (who : profile.toNat = p.val) (inRange : BuyInRange profile slot pin sid)
    (place : buySlot slot = some slotOf) (right : (s.profile p).buyNeedsPin = true → pin = (s.profile p).pin)
    (service : e.sid = sid.toNat) (event : e.eid = eid.toNat) (priced : e.price = some price) (sells : s.sells p e now)
    (affords : s.affords p (s.charge e price now)) :
    buyReq profile pin slot sid eid s.opened = commitBuy p slotOf e (s.charge e price now) now
      (s.checked (s.profile p).buyNeedsPin p pin).opened := by
  have same := charge_checked (pin := pin) (s.profile p).buyNeedsPin sells.free right
  rw [buyReq_event who inRange place (buyerChecks_pass sells) right, ← service, ← event]
  generalize (s.checked (s.profile p).buyNeedsPin p pin).opened = x at same ⊢
  obtain ⟨price', priced', judged⟩ := buyJudge_eventPasses (p := p) (same.known sells.known)
    (by rw [same.events]; exact eventChecks_pass sells priced)
  rw [priced] at priced'
  cases priced'
  have within : ¬ capExceeded (s.profile p) (s.charge e price now) = true := fun exceeds => by
    obtain ⟨limit, mem, past⟩ := (capExceeded_iff ..).1 exceeds
    exact absurd (affords.1 limit mem) (Nat.not_le.2 past)
  have funded : ¬ creditShort s.access.purse (s.charge e price now) = true := fun short =>
    absurd affords.2 (not_le.2 ((creditShort_iff ..).1 short))
  rw [same.charge, same.cap, same.access, if_neg within, if_neg funded] at judged
  exact buyEvent_commits (same.listed sells.listed) (same.known sells.known) judged

theorem mem_keyPut_self {α : Type} (key : α → Nat) (a : α) (l : List α) : a ∈ keyPut key a l := by
  induction l with
  | nil => exact List.mem_singleton.2 rfl
  | cons b l ih =>
    unfold keyPut
    split
    · exact List.mem_cons_self
    · split
      · exact List.mem_cons_self
      · exact List.mem_cons_of_mem b ih

/-- A purchase that is made grants its event (R69, R86, R94). -/
theorem regranted_commit {a : Parental} {b : Store} (left : u = { s with parental := a, store := b })
    (running : s.restarting = false) (placed : ∀ j, (s.slot j).desc.placed) :
    s.regranted (commitBuy p slotOf e c now u.opened).2 e.eid := by
  obtain ⟨-, -, slots, gate⟩ := grantsTo_work (s := u.opened.sold p slotOf e c now) e.eid
    u.opened.access.purse.nextSeq (by rw [left]; exact running)
  have grants := (bought_commit (s := u.opened) p slotOf e c now (by rw [left]; exact running)).grants
  rw [commitBuy_eq] at grants ⊢
  dsimp only at grants ⊢
  have same : SameRights { s with access := { s.access with grants := (u.opened.sold p slotOf e c now).access.grants } }
      (u.opened.sold p slotOf e c now) := by
    rw [left]
    exact ⟨rfl, rfl, rfl, rfl, rfl⟩
  have sold : (u.opened.sold p slotOf e c now).access.grants
      = keyPut (·.eid) { eid := e.eid, sid := e.sid, endTime := e.start + 60 * e.duration } u.opened.access.grants := rfl
  have runs : (u.opened.sold p slotOf e c now).restarting = false := by
    rw [left]
    exact running
  generalize u.opened.sold p slotOf e c now = x at slots gate grants same sold runs ⊢
  generalize x.grantsTo e.eid u.opened.access.purse.nextSeq = t at slots gate grants ⊢
  have regranted := regranted_rebase runs (fun k => by rw [same.slot]; exact placed k)
    ⟨_, by rw [sold]; exact mem_keyPut_self .., rfl⟩ same
  have kept : (rebase e.eid (reexamine x)).access.grants = x.access.grants :=
    (rebased_rebase e.eid (reexamine x)).grants.trans (keyWork_reexamine x).grants
  exact regranted.congr slots gate (by rw [grants, kept, sold])

/-- A BUY that commits, as the host sees it (R94, R97, R178). -/
theorem buy_bought (tag : Byte) {a : Parental} {b : Store} (ready : s.ready) (left : u = { s with parental := a, store := b })
    (commits : buyReq profile pin slot sid eid s.opened = commitBuy p slotOf e c now u.opened) :
    ∃ t, exec (.buy tag profile pin slot sid eid) s = .next t
      ∧ s.answered t 0x38 tag (commitBuy p slotOf e c now u.opened).1.body
      ∧ u.opened.bought t p slotOf e c now
      ∧ (∃ r, t.link.replies.getLast? = some r
        ∧ r.hold = .written (.purchase (recordPlace u.access.purse.nextSeq)) (u.store.last + 1))
      ∧ t.clock = s.clock ∧ t.ground = s.ground
      ∧ (s.noRise → (∀ j, (s.slot j).desc.placed) → s.regranted t e.eid) := by
  have running : u.opened.restarting = false := by
    rw [left]
    exact ready.running
  have bought := bought_commit (s := u.opened) p slotOf e c now running
  have hold : (commitBuy p slotOf e c now u.opened).1.hold
      = .written (.purchase (recordPlace u.access.purse.nextSeq)) (u.store.last + 1) := by
    rw [commitBuy_eq]
    rfl
  have runs := (Runs.refl s.opened).buyReq profile pin slot sid eid
  have regranted := regranted_commit (p := p) (slotOf := slotOf) (e := e) (c := c) (now := now) left ready.running
  have served := served_serve 0x38 tag (buyReq profile pin slot sid eid) ready
  have answered := serve_answered 0x38 tag (buyReq profile pin slot sid eid) ready (runs.acts (Acts.refl _).settle).owned.core
  have clock : (commitBuy p slotOf e c now u.opened).2.clock = s.clock := by
    rw [commitBuy_eq, (grantsTo_work (s := u.opened.sold p slotOf e c now) e.eid _ running).1.clock, left]
    rfl
  have waits := serve_waits (kind := 0x38) (tag := tag) (f := buyReq profile pin slot sid eid) ready (by rw [commits]; exact hold)
  have ground := serve_ground 0x38 tag (buyReq profile pin slot sid eid) ready
  rw [ground_of_hull (runs.acts (Acts.refl _).settle).hull, opened_ground] at ground
  rw [commits] at runs served answered waits
  generalize commitBuy p slotOf e c now u.opened = r at bought runs regranted served answered clock waits ⊢
  have settled := bought.acts (Acts.refl r.2).settle
  refine ⟨_, rfl, answered, settled.served served, waits settled.holds, ?_, ground, fun quiet placed => ?_⟩
  · rw [served.clock, settle_clock, clock]
  · have rest := settle_noRise (runs.rise quiet)
    rw [rest] at served
    exact (regranted placed).congr served.slots served.gate (congrArg (·.access.grants) served.likewise.symm :)

/-- Settles O36: a BUY comes through its checks to its event in the state that the PIN check leaves; it commits there, or
is refused by the first check that fails. -/
theorem buyCommits : Obligations.BuyCommits := by
  refine ⟨fun tag profile slot pin p k e price now sid eid s ready who named unnamed d0 d1 d2 d3 right service sidEq eidEq
    priced sells affords => ?_, fun tag profile slot pin sid eid s ready => ⟨fun bad => ?_, fun p who inRange =>
    ⟨fun st fails => buy_gated who inRange ready fails, fun passes => ⟨buy_pinStops who inRange ready passes, fun right =>
      ⟨fun absent => ?_, fun e now listed sidEq eidEq known => ⟨fun st fails => ?_, fun eventPasses st fails => ?_⟩⟩⟩⟩⟩⟩
  · have place : buySlot slot = some k := buySlot_of named unnamed
    have inRange : BuyInRange profile slot pin sid := by
      refine ⟨by have := p.isLt; omega, ⟨d0, d1, d2, d3⟩, ?_, service⟩
      cases k with
      | none => exact .inr (unnamed rfl)
      | some j => exact .inl (by have := j.isLt; have := named j rfl; omega)
    obtain ⟨a, b, left⟩ := exists_checked (pin := pin) (s.profile p).buyNeedsPin sells.free right
    obtain ⟨⟨n, buyer⟩, others⟩ := checked_profile (pin := pin) (s.profile p).buyNeedsPin sells.free right
    have commits := buyReq_commits who inRange place right sidEq eidEq priced sells affords
    generalize s.checked (s.profile p).buyNeedsPin p pin = u at left buyer others commits ⊢
    have access : u.access = s.access := by rw [left]
    have spend : (u.profile p).spend = (s.profile p).spend := by rw [buyer]
    obtain ⟨t, run, answered, bought, waits, clock, ground, regranted⟩ := buy_bought tag ready left commits
    obtain ⟨purse, purchases, grants, tiers, buys, rest, last, holds, flag⟩ := bought
    have opened : u.opened.access = s.access := access
    have spends : (u.opened.profile p).spend = (s.profile p).spend := spend
    rw [commitBuy_eq, opened, spends] at answered
    rw [opened] at purse purchases grants tiers holds
    rw [spends] at buys
    rw [access] at waits
    refine ⟨t, run, answered, purse, purchases, grants, tiers, buys, fun q ne => (rest q ne).trans (others q ne), last, ?_,
      ?_, flag, clock, ground, regranted⟩
    · rw [last]
      exact holds
    · rw [last]
      exact waits
  · exact buy_stops ready (buyReq_badField bad) rfl ready.rises
  · have guide := (charge_checked (pin := pin) (s.profile p).buyNeedsPin (unlocked_of_passes passes) right).guide
    exact buy_eventStops who inRange ready passes right fun k => buyEvent_absent (by rw [guide]; exact absent)
  · have same := charge_checked (pin := pin) (s.profile p).buyNeedsPin (unlocked_of_passes passes) right
    refine buy_eventStops who inRange ready passes right fun k => ?_
    obtain ⟨status, refused, cap, credit⟩ := buyJudge_eventFails (p := p) (same.known known) (by rw [same.events]; exact fails)
    rw [← sidEq, ← eidEq, buyEvent_judged (same.listed listed) (by rw [status]; exact refused), status,
      fields_event (by rw [status]; exact cap) (by rw [status]; exact credit)]
  · have same := charge_checked (pin := pin) (s.profile p).buyNeedsPin (unlocked_of_passes passes) right
    refine buy_eventStops who inRange ready passes right fun k => ?_
    obtain ⟨price, priced, judged⟩ := buyJudge_eventPasses (p := p) (same.known known)
      (by rw [same.events]; exact eventPasses)
    rw [same.charge, same.cap, same.access] at judged
    rw [priced, Option.getD_some] at fails ⊢
    obtain ⟨status, refused, fields⟩ := chargeFails_fields fails
    rw [← sidEq, ← eidEq, buyEvent_judged (same.listed listed) (by rw [judged]; exact status ▸ refused), judged]
    dsimp only
    rw [status]
    exact congrArg (fun b => (answer st b, _)) fields

end Sys2Proof.Machine
end

section
/-! SUPPORT. What the reads of the guide and the schedule unit leave of the guide's counters and of the orphan flags: reads
count entries damaged alone, and no orphan is taken back (R112 to R115, R165). -/

namespace Sys2Proof.Machine

open Sys2Proof

variable {s t u : State} {g h i : Guide} {p : Place} {j k : Fin 5} {n : Fin 24}

/-! ### The counters of the guide -/

/-- A guide store that reads have led to, by its counters: of these the one of damaged entries alone has changed, and
none where every entry can be read (R115). -/
structure Guide.Counted (g h : Guide) : Prop where
  sheds : h.places.Sublist g.places
  counters : h.counters = { g.counters with damaged := h.counters.damaged }
  sound : (∀ p ∈ g.places, p.disturbed ≤ 1) → h.counters = g.counters

theorem Guide.Counted.refl (g : Guide) : g.Counted g := ⟨.refl _, rfl, fun _ => rfl⟩

theorem Guide.Counted.trans (a : g.Counted h) (b : h.Counted i) : g.Counted i := by
  refine ⟨b.sheds.trans a.sheds, ?_, fun sound => ?_⟩
  · rw [b.counters, a.counters]
  · exact (b.sound fun p hp => sound p (a.sheds.subset hp)).trans (a.sound sound)

/-- The rest of the store changed alone. -/
theorem counted_of (places : h.places = g.places) (counters : h.counters = g.counters) : g.Counted h :=
  ⟨places ▸ .refl _, by rw [counters], fun _ => counters⟩

/-- An entry past correction that goes, counted (R115). -/
theorem counted_damage (hp : p ∈ g.places) (lost : 1 < p.disturbed) (x : Option (Nat × Nat)) :
    g.Counted { Guide.remove p.num g with
      counters := { g.counters with damaged := g.counters.damaged + 1 }, lastDamaged := x } :=
  ⟨List.filter_sublist, rfl, fun sound => absurd (sound p hp) (by omega)⟩

/-! ### What the blocks' work leaves of them -/

/-- The blocks' work has read the guide at most, and no schedule entry's orphan flag has fallen. -/
structure Tallies (s t : State) : Prop where
  guide : s.guide.Counted t.guide
  orphans : ∀ n, (s.entry n).orphan = true → (t.entry n).orphan = true

theorem Tallies.refl (s : State) : Tallies s s := ⟨.refl _, fun _ => id⟩

theorem Tallies.trans (a : Tallies s t) (b : Tallies t u) : Tallies s u :=
  ⟨a.guide.trans b.guide, fun n => b.orphans n ∘ a.orphans n⟩

/-- What changes neither the guide nor the schedule. -/
theorem Tallies.kept (a : Tallies s t) (guide : u.guide = t.guide) (schedule : u.schedule = t.schedule) : Tallies s u := by
  refine ⟨guide ▸ a.guide, fun n r => ?_⟩
  unfold State.entry
  rw [schedule]
  exact a.orphans n r

theorem Tallies.shifts (a : Tallies s t) (b : Shifts t u) : Tallies s u := a.kept b.guide b.schedule

theorem Tallies.gated (a : Tallies s t) (b : Gated t u) : Tallies s u := a.kept b.guide b.schedule

theorem Tallies.raise (x : NoticeKind) (sub : Option Nat) (b : List Byte) (a : Tallies s t) : Tallies s (t.raise x sub b) :=
  a.gated (gated_raise ..)

theorem Tallies.setFault (n : FaultName) (f : Faults → Faults) (a : Tallies s t) : Tallies s (t.setFault n f) :=
  Tallies.raise (t := t.modFaults f) _ _ _ (a.kept rfl rfl)

theorem Tallies.modSlot (k : Fin 5) (f : Slot → Slot) (a : Tallies s t) : Tallies s (t.modSlot k f) := a.kept rfl rfl

theorem Tallies.syncSlots (ks : List (Fin 5)) (a : Tallies s t) : Tallies s (syncSlots ks t) := a.gated (gated_syncSlots ks t)

/-- An entry changed, its orphan flag left. -/
theorem Tallies.modEntry (n : Fin 24) (f : Entry → Entry) (keeps : ∀ e, (f e).orphan = e.orphan) (a : Tallies s t) :
    Tallies s (t.modEntry n f) := by
  refine a.trans ⟨.refl _, fun m r => ?_⟩
  by_cases same : n = m
  · subst same
    rw [entry_modEntry_same, keeps]
    exact r
  · rw [entry_modEntry_ne same]
    exact r

theorem Tallies.forEach {α : Type} {l : List α} {f : α → State → State}
    (hf : ∀ a ∈ l, ∀ u, Tallies s u → Tallies s (f a u)) (a : Tallies s t) : Tallies s (forEach l f t) :=
  forEach_keeps (P := Tallies s) hf a

/-! ### Orphans (R165) -/

theorem entry_orphan_mono {x : GuideEvent} (n : Fin 24) (r : (s.entry n).orphan = true) :
    ((orphanEntries x.sid x.eid s).entry n).orphan = true := by
  rw [entry_orphanEntries]
  unfold Entry.orphanedBy
  simp [r]

theorem entry_orphan_of_tied {x : GuideEvent} (n : Fin 24) (tied : (s.entry n).tiedTo x.sid x.eid = true) :
    ((orphanEntries x.sid x.eid s).entry n).orphan = true := by
  rw [entry_orphanEntries]
  unfold Entry.orphanedBy
  simp [tied]

theorem Tallies.orphan (x : GuideEvent) (a : Tallies s t) : Tallies s (orphanEntries x.sid x.eid t) :=
  ⟨a.guide, fun n r => entry_orphan_mono n (a.orphans n r)⟩

/-! ### Reads (R26, R112 to R115, R165) -/

theorem setCurrent_guide (k : Fin 5) (e : Option CurEvent) (s : State) : (setCurrent k e s).guide = s.guide := by
  unfold setCurrent
  split
  · rfl
  · have judged := (judged_updateRating k k (s.modSlot k fun sl => { sl with cur := e })).guide
    unfold endPreview
    split
    · exact (gated_setEntitled ..).guide.trans ((withdrawKeys_guide ..).trans judged)
    · exact judged

theorem Tallies.setCurrent (k : Fin 5) (e : Option CurEvent) (a : Tallies s t) : Tallies s (setCurrent k e t) :=
  a.kept (setCurrent_guide k e t) (setCurrent_schedule k e t)

theorem tallies_noteCorrected (p : Place) (s : State) : Tallies s (noteCorrected p s) := by
  have counted : Tallies s s.countCorrected := (Tallies.refl s).setFault ..
  unfold noteCorrected
  dsimp only
  split
  · exact counted.trans ⟨counted_of rfl rfl, fun _ => id⟩
  · exact counted.setFault ..

/-- A reader counts what it loses. -/
def Reader.tallies (read : Reader) : Prop := ∀ n s, Tallies s (read n s).2

theorem Tallies.determineWith {read : Reader} (hr : read.tallies) (k : Fin 5) (a : Tallies s t) :
    Tallies s (determineWith read k t) := by
  unfold Machine.determineWith
  split
  · split
    · rename_i p _
      have b := hr p.num t
      split
      · rename_i e
        rw [e] at b
        exact (a.trans b).setCurrent ..
      · rename_i e
        rw [e] at b
        exact a.trans b
    · exact a.setCurrent ..
  · exact a.setCurrent ..

theorem Tallies.reportRemovalWith {read : Reader} (hr : read.tallies) (x : GuideEvent) (a : Tallies s t) :
    Tallies s (reportRemovalWith read x t) :=
  Tallies.orphan x (a.forEach fun k _ _ b => b.determineWith hr k)

theorem tallies_damageWith {read : Reader} (hr : read.tallies) (hp : p ∈ s.guide.places) (lost : 1 < p.disturbed) :
    Tallies s (damageWith read p s) := by
  have removed : Tallies s (s.modGuide fun g => { Guide.remove p.num g with
      counters := { g.counters with damaged := g.counters.damaged + 1 }
      lastDamaged := some (p.ev.sid, p.ev.eid) }) := ⟨counted_damage hp lost _, fun _ => id⟩
  exact ((removed.reportRemovalWith hr p.ev).setFault ..).raise ..

theorem readBound_tallies (b : Nat) : Reader.tallies (readBound b) := by
  induction b with
  | zero => exact fun _ s => .refl s
  | succ b ih =>
    intro n s
    unfold readBound
    split
    · exact .refl s
    · rename_i p found
      split
      · exact .refl s
      · exact tallies_noteCorrected p s
      · rename_i lost
        exact tallies_damageWith ih (keyFind_some found).1 (lost_of_uncorrectable lost)

theorem readPlace_tallies : Reader.tallies readPlace := fun n s => readBound_tallies _ n s

theorem Tallies.determine (k : Fin 5) (a : Tallies s t) : Tallies s (determine k t) := a.determineWith readPlace_tallies k

theorem Tallies.reportRemoval (x : GuideEvent) (a : Tallies s t) : Tallies s (reportRemoval x t) :=
  a.reportRemovalWith readPlace_tallies x

/-! ### Tuning, mode changes and the rises (R9, R25, R161 to R166) -/

theorem Tallies.claimOn (v : Service) (l : Option (Fin 3)) (k : Fin 5) (a : Tallies s t) : Tallies s (claimOn v l k t) :=
  (((a.gated (told_reportLeft k t).toGated).determine k).gated (told_updateRating k _).toGated).shifts
    ((((Shifts.refl _).releaseLeft l).claim (.slot k) v.carrier).homeRedecide)

theorem Tallies.endUnlockOf (k : Fin 5) (a : Tallies s t) : Tallies s (endUnlockOf k t) := by
  unfold Machine.endUnlockOf
  split
  · rename_i v _
    unfold endUnlock
    split
    · exact a
    · exact Tallies.gated (t := t.modParental _) (a.kept rfl rfl) (told_conditions .unlocked (fun _ => false) [v] _).toGated
  · exact a

theorem Tallies.acceptTune (v : Service) (o : Origin) (k : Fin 5) (a : Tallies s t) : Tallies s (acceptTune v o k t) := by
  unfold Machine.acceptTune
  refine Tallies.claimOn _ _ _ (Tallies.endUnlockOf _ ?_)
  exact a.kept rfl rfl

theorem Tallies.tuneForEntry (n : Fin 24) (k : Fin 5) (sid : Nat) (a : Tallies s t) :
    Tallies s (tuneForEntry n k sid t).2 := by
  unfold Machine.tuneForEntry
  split
  · exact a
  · split
    · exact a
    · split
      · exact a
      · split
        · exact (a.modSlot k _).syncSlots _
        · exact a.acceptTune ..

/-- A WAKE entry takes the part to SERVICE, which frees no slot (R25, R162). -/
theorem Tallies.changeMode_service (c : ModeCause) (a : Tallies s t) (standby : t.mode = .standby) :
    Tallies s (changeMode c .service t) := by
  obtain ⟨-, guide, schedule⟩ := announceMode_standby c .service t
  unfold Machine.changeMode
  dsimp only
  rw [if_neg (by rw [standby]; decide)]
  exact (a.kept guide schedule).shifts (Shifts.refl _).homeRedecide

theorem Tallies.missEntry (c : MissCause) (n : Fin 24) (a : Tallies s t) : Tallies s (missEntry c n t) :=
  Tallies.raise _ _ _ (a.modEntry n _ (by intro; rfl))

theorem Tallies.doneEntry (n : Fin 24) (a : Tallies s t) : Tallies s (doneEntry n t) :=
  Tallies.raise _ _ _ (a.modEntry n _ (by intro; rfl))

theorem Tallies.fire (n : Fin 24) (a : Tallies s t) : Tallies s (fire n t) := by
  unfold Machine.fire
  split
  · unfold fireRecord
    split
    · exact a.missEntry ..
    · refine Tallies.raise _ _ _ (Tallies.modEntry n _ (by intro; rfl) (Tallies.tuneForEntry n _ _ ?_))
      exact a.modEntry n _ (by intro; rfl)
  · rename_i sid _
    unfold fireView
    dsimp only
    have tuned := (a.tuneForEntry n 0 sid).modEntry n
      (fun e => { e with lastTune := some (Machine.tuneForEntry n 0 sid t).1 }) fun _ => rfl
    split
    · exact ((tuned.modSlot 0 _).syncSlots _).doneEntry n
    · exact tuned.missEntry ..
  · exact a.doneEntry n
  · unfold fireWake
    split
    · rename_i standby
      exact (a.changeMode_service _ standby).doneEntry n
    · exact a.doneEntry n

theorem Tallies.riseEntry (c : Fin 8) (n : Fin 24) (a : Tallies s t) : Tallies s (riseEntry c n t) := by
  unfold Machine.riseEntry
  split
  · unfold applyDecision
    split
    · exact a.fire n
    · exact a.missEntry ..
    · exact a
  · exact a

theorem Tallies.settle (a : Tallies s t) : Tallies s (settle t) := by
  unfold Machine.settle
  generalize 25 = bound
  induction bound generalizing t with
  | zero => exact a.kept rfl rfl
  | succ b ih =>
    unfold settleRises
    split
    · exact a
    · exact ih (Tallies.forEach (fun c _ _ x => x.forEach fun n _ _ y => y.riseEntry c n) (a.kept rfl rfl))

end Sys2Proof.Machine
end

section
/-! SUPPORT. GUIDE_DROP and GUIDE_CANCEL: an entry named goes from the guide store, counted and reported (R104, R108,
R111, R165). -/

namespace Sys2Proof.Machine

open Sys2Proof

variable {l : Fin 3} {m n : Nat} {tag : Byte} {sid : Half} {eid : Word} {g : Guide} {bytes record : List Byte}
  {p q : Place} {i : Fin 24} {s t u x y : State}

/-! ### The entry named (R108) -/

theorem placeOf_none_iff : g.placeOf m n = none ↔ ∀ p ∈ g.places, ¬ (p.ev.sid = m ∧ p.ev.eid = n) := by
  unfold Guide.placeOf
  simp [List.find?_eq_none]

theorem placeOf_some (held : ∃ p ∈ g.places, p.ev.sid = m ∧ p.ev.eid = n) : ∃ p, g.placeOf m n = some p := by
  cases found : g.placeOf m n with
  | some p => exact ⟨p, rfl⟩
  | none =>
    obtain ⟨p, hp, named⟩ := held
    exact absurd named (placeOf_none_iff.1 found p hp)

/-! ### An entry cancelled (R108) -/

/-- The guide store with a place emptied, and its entry counted as cancelled (R108). -/
def Guide.cancel (p : Place) (g : Guide) : Guide :=
  { Guide.remove p.num g with counters := { g.counters with cancelled := g.counters.cancelled + 1 } }

/-- An entry cancelled and its removal reported (R107, R108). -/
def State.cancelled (s : State) (p : Place) : State := reportRemoval p.ev (s.modGuide (Guide.cancel p))

theorem cancelEvent_held (held : s.guide.placeOf m n = some p) : cancelEvent m n s = (true, s.cancelled p) := by
  unfold cancelEvent
  rw [held]
  rfl

theorem cancelEvent_unheld (unheld : s.guide.placeOf m n = none) : cancelEvent m n s = (false, s) := by
  unfold cancelEvent
  rw [unheld]

theorem takeCancel_held (held : s.guide.placeOf m n = some p) : takeCancel m n s = s.cancelled p := by
  unfold takeCancel
  rw [cancelEvent_held held]

theorem takeCancel_unheld (unheld : s.guide.placeOf m n = none) :
    takeCancel m n s = s.modGuideCounters fun c => { c with cancelUnknown := c.cancelUnknown + 1 } := by
  unfold takeCancel
  rw [cancelEvent_unheld unheld]

theorem guideDropReq_held (named : sid ≠ 0) (held : s.guide.placeOf sid.toNat eid.toNat = some p) :
    guideDropReq sid eid s = (answer .ok, s.cancelled p) := by
  unfold guideDropReq
  rw [if_neg named, cancelEvent_held held]

theorem guideDropReq_unheld (named : sid ≠ 0) (unheld : s.guide.placeOf sid.toNat eid.toNat = none) :
    guideDropReq sid eid s = refuse .noSuch s := by
  unfold guideDropReq
  rw [if_neg named, cancelEvent_unheld unheld]

theorem guideDropReq_zero : guideDropReq 0 eid s = refuse .badField s := by
  unfold guideDropReq
  rw [if_pos rfl]

theorem Twin.cancelled (h : Twin .none x y) (p : Place) : Twin .none (x.cancelled p) (y.cancelled p) :=
  (h.setGuide (Guide.cancel p)).reportRemoval p.ev

/-! ### What a cancelled entry leaves (R107, R108, R165) -/

theorem mem_cancel : q ∈ (g.cancel p).places ↔ q ∈ g.places ∧ q.num ≠ p.num := by
  unfold Guide.cancel Guide.remove keyDrop
  simp

/-- No other place holds the event that is cancelled (R102). -/
theorem unnamed_of_cancel (ok : g.ok) (hp : p ∈ g.places) (hq : q ∈ (g.cancel p).places) :
    ¬ (q.ev.sid = p.ev.sid ∧ q.ev.eid = p.ev.eid) := by
  rintro ⟨sid, eid⟩
  obtain ⟨hq, other⟩ := mem_cancel.1 hq
  exact other (congrArg Place.num (Guide.ok_unique ok hq hp sid eid))

theorem mem_cancel_of_unnamed (ok : g.ok) (hp : p ∈ g.places) (hq : q ∈ g.places)
    (unnamed : ¬ (q.ev.sid = p.ev.sid ∧ q.ev.eid = p.ev.eid)) : q ∈ (g.cancel p).places := by
  refine mem_cancel.2 ⟨hq, fun same => unnamed ?_⟩
  rw [keySorted_unique ok.1 hq hp same]
  exact ⟨rfl, rfl⟩

theorem acts_cancelled (p : Place) (s : State) : Acts (s.modGuide (Guide.cancel p)) (settle (s.cancelled p)) :=
  ((Flow.refl none _).reportRemoval p.ev).acts.settle

theorem tallies_cancelled (p : Place) (s : State) : Tallies (s.modGuide (Guide.cancel p)) (settle (s.cancelled p)) :=
  ((Tallies.refl _).reportRemoval p.ev).settle

/-- What an entry is tied to, a look at the guide leaves. -/
theorem Looked.tiedTo {k : Fin 5} (h : Looked k s t) (i : Fin 24) : (t.entry i).tiedTo m n = (s.entry i).tiedTo m n := by
  rw [(h.entries i).fields]
  rfl

theorem orphan_of_report {e : GuideEvent} (tied : (s.entry i).tiedTo e.sid e.eid = true) :
    ((reportRemoval e s).entry i).orphan = true := by
  have told : Looked 0 s (touched e.sid s) :=
    forEach_keeps (P := Looked 0 s) (fun k _ _ h => h.trans (looked_determine k 0 _)) (.refl 0 s)
  exact entry_orphan_of_tied i ((told.tiedTo i).trans tied)

/-- What becomes of the guide store and the schedule where an entry is cancelled. -/
structure Cancels (p : Place) (s t : State) : Prop where
  sheds : t.guide.places.Sublist s.guide.places
  gone : ∀ q ∈ t.guide.places, ¬ (q.ev.sid = p.ev.sid ∧ q.ev.eid = p.ev.eid)
  stays : ∀ q ∈ s.guide.places, ¬ (q.ev.sid = p.ev.sid ∧ q.ev.eid = p.ev.eid) → q.disturbed ≤ 1 → q ∈ t.guide.places
  counted : t.guide.counters.cancelled = s.guide.counters.cancelled + 1
  orphans : ∀ i, (s.entry i).tiedTo p.ev.sid p.ev.eid = true → (t.entry i).orphan = true

theorem cancels_cancelled (ok : s.guide.ok) (hp : p ∈ s.guide.places) : Cancels p s (settle (s.cancelled p)) := by
  have acts := acts_cancelled p s
  have tallies := tallies_cancelled p s
  have sorted : KeySorted (·.num) (s.guide.cancel p).places := ok.1.sublist List.filter_sublist
  refine ⟨acts.sheds.trans List.filter_sublist, fun q hq => ?_, fun q hq unnamed readable => ?_, ?_, fun i tied => ?_⟩
  · exact unnamed_of_cancel ok hp (acts.sheds.subset hq)
  · exact acts.stays sorted q (mem_cancel_of_unnamed ok hp hq unnamed) readable
  · rw [tallies.guide.counters]
    rfl
  · exact (Tallies.refl (s.cancelled p)).settle.orphans i (orphan_of_report (s := s.modGuide (Guide.cancel p)) tied)

/-- An entry gone, counted as cancelled, and the schedule's entries tied to it orphans: all that is left to do where no slot
is on its service (R108, R165). -/
def State.dropped (s : State) (p : Place) : State :=
  { s with
    guide := s.guide.cancel p
    schedule := s.schedule.map fun (e : Entry) => if e.tiedTo p.ev.sid p.ev.eid then { e with orphan := true } else e }

theorem cancelled_alone (alone : s.slotsOf p.ev.sid = []) : s.cancelled p = s.dropped p := by
  have nobody : (s.modGuide (Guide.cancel p)).slotsOf p.ev.sid = [] := alone
  unfold State.cancelled reportRemoval reportRemovalWith touchedWith
  rw [nobody]
  rfl

/-! ### GUIDE_DROP (R111) -/

theorem guideDrop_drops (ready : s.ready) (named : sid ≠ 0) (held : s.guide.placeOf sid.toNat eid.toNat = some p) :
    s.answered (s.serve 0x29 tag (guideDropReq sid eid)) 0x29 tag [0]
      ∧ (s.serve 0x29 tag (guideDropReq sid eid)).tables = s.tables
      ∧ Served (settle (s.opened.cancelled p)) (s.serve 0x29 tag (guideDropReq sid eid)) := by
  have drops : guideDropReq sid eid s.opened = (answer .ok, s.opened.cancelled p) := guideDropReq_held named held
  have acts := acts_cancelled p s.opened
  have served := served_serve 0x29 tag (guideDropReq sid eid) ready
  have tables := serve_tables 0x29 tag (guideDropReq sid eid) ready
  have answered := serve_answered 0x29 tag (guideDropReq sid eid) ready (by rw [drops]; exact (Acts.owned acts).core)
  rw [drops] at served tables answered
  have calm : (settle (s.opened.cancelled p)).tables = s.opened.tables := tables_of_calm acts.calm
  exact ⟨answered, tables.trans calm, served⟩

theorem guideDrop_alone (ready : s.ready) (named : sid ≠ 0) (held : s.guide.placeOf sid.toNat eid.toNat = some p)
    (alone : s.slotsOf p.ev.sid = []) : (s.dropped p).unmoved (s.serve 0x29 tag (guideDropReq sid eid)) := by
  refine (serve_leaves (u := s.dropped p) ready ?_ rfl ready.rises).2
  rw [guideDropReq_held (s := s.opened) named held]
  exact cancelled_alone (s := s.opened) alone

/-! ### GUIDE_CANCEL records (R61, R104, R108) -/

theorem deliver_cancel (fields : cancelOf record = some (m, n)) (u : State) :
    deliver l { kind := 4, bytes := record } u = takeCancel m n u := by
  simp only [deliver, fields]

theorem deliver_badCancel (bad : cancelOf record = none) (u : State) :
    deliver l { kind := 4, bytes := record } u = u.streamRecordBad := by
  simp only [deliver, bad]

theorem cancelOf_ranges (fields : cancelOf record = some (m, n)) : m ≠ 0 ∧ m < 65536 ∧ n < 4294967296 := by
  unfold cancelOf at fields
  split at fields
  · rename_i passes
    cases fields
    exact ⟨passes.2, natAt_lt 2 2 record, natAt_lt 4 4 record⟩
  · cases fields

/-- A GUIDE_CANCEL of an event that is not held is counted alone. -/
theorem cell_cancelUnknown (live : s.live) (b : s.brings l bytes 4 record) (fields : cancelOf record = some (m, n))
    (unheld : s.guide.placeOf m n = none) : s.unanswered (s.event (cellEvent l bytes))
      ∧ ({ s with guide := { s.guide with counters := { s.guide.counters with
          cancelUnknown := s.guide.counters.cancelUnknown + 1 } } } : State).unmoved (s.event (cellEvent l bytes)) := by
  refine event_moves (cellEvent l bytes) live ?_ live.rises rfl
  rw [cell_event_eq b (deliver_cancel fields), takeCancel_unheld (s := s.clearOut) unheld]
  rfl

/-- A GUIDE_CANCEL of an event that is held does what its GUIDE_DROP does. -/
theorem cell_cancels (ready : s.ready) (b : s.brings l bytes 4 record) (fields : cancelOf record = some (m, n))
    (held : s.guide.placeOf m n = some p) (tag : Byte) : s.unanswered (s.event (cellEvent l bytes))
      ∧ (s.event (cellEvent l bytes)).likewise
        (s.serve 0x29 tag (guideDropReq (BitVec.ofNat 16 m) (BitVec.ofNat 32 n))) := by
  obtain ⟨some_service, m_lt, n_lt⟩ := cancelOf_ranges fields
  have m_eq : (BitVec.ofNat 16 m).toNat = m := by rw [BitVec.toNat_ofNat, Nat.mod_eq_of_lt m_lt]
  have n_eq : (BitVec.ofNat 32 n).toNat = n := by rw [BitVec.toNat_ofNat, Nat.mod_eq_of_lt n_lt]
  have named : BitVec.ofNat 16 m ≠ 0 := fun e => some_service (by rw [← m_eq, e]; rfl)
  obtain ⟨-, -, drops⟩ := guideDrop_drops (tag := tag) (eid := BitVec.ofNat 32 n) ready named (by rw [m_eq, n_eq]; exact held)
  have work : cellEvent l bytes s.clearOut = s.clearOut.cancelled p := by
    rw [cell_event_eq b (deliver_cancel fields), takeCancel_held (s := s.clearOut) held]
  have core := (Acts.owned (acts_cancelled p s.clearOut)).core
  have core' := (Acts.owned (acts_cancelled p s.opened)).core
  have opens : Twin .none s.clearOut s.opened := (Twin.refl s.clearOut).served (z := s.opened) ⟨rfl, rfl⟩
  have twin := (opens.cancelled p).settle rfl fun _ => rfl
  have event := served_event (cellEvent l bytes) ready.tolive
  have unanswered := event_unanswered (cellEvent l bytes) ready.tolive (by rw [work]; exact core)
  rw [work] at event
  have like := twin.same ((rest_of_core core').trans (rest_of_core core).symm)
  exact ⟨unanswered, event.likewise.symm.trans (like.trans drops.likewise)⟩

end Sys2Proof.Machine
end

section
/-! SUPPORT. The pruning scan takes the entries that are past, each once (R102, R109). -/

namespace Sys2Proof.Machine

open Sys2Proof

variable {now sid : Nat} {g : Guide} {e : GuideEvent} {p q : Place} {s t u : State}

/-! ### The places of a service in their order (R102) -/

theorem sorted_sortBy {α : Type} (m : α → Nat) (l : List α) : (sortBy m l).Pairwise fun a b => m a ≤ m b :=
  List.foldlRecOn l _ (motive := List.Pairwise fun a b => m a ≤ m b) List.Pairwise.nil
    fun _ sorted a _ => pairwise_insertBy m a sorted

theorem nodup_places (ok : g.ok) : g.places.Nodup := ok.1.imp fun lt same => absurd (same ▸ lt) (Nat.lt_irrefl _)

theorem nodup_ofService (ok : g.ok) (sid : Nat) : (g.ofService sid).Nodup :=
  (perm_sortBy _ _).nodup_iff.2 ((nodup_places ok).filter _)

/-- Of two entries of a service the one that starts first ends first: they do not overlap (R102). -/
theorem ofService_stops (ok : g.ok) (long : ∀ p ∈ g.places, 1 ≤ p.ev.duration) (sid : Nat) :
    (g.ofService sid).Pairwise fun p q => p.ev.stop ≤ q.ev.stop := by
  have apart : (g.ofService sid).Pairwise fun p q => p.ev.apart q.ev :=
    ((perm_sortBy _ _).pairwise_iff GuideEvent.apart_symm).2 (ok.2.2.1.filter _)
  refine List.Pairwise.imp_of_mem (fun {p q} hp hq both => ?_) ((sorted_sortBy _ _).and apart)
  obtain ⟨starts, apart⟩ := both
  obtain ⟨hp, p_sid⟩ := mem_ofService.1 hp
  obtain ⟨hq, q_sid⟩ := mem_ofService.1 hq
  have p_long := long p hp
  have q_long := long q hq
  obtain ⟨-, clear⟩ := apart (p_sid.trans q_sid.symm)
  unfold GuideEvent.overlaps at clear
  unfold GuideEvent.stop at clear ⊢
  simp only [Bool.and_eq_false_iff, decide_eq_false_iff_not, Nat.not_lt] at clear
  omega

/-- Where what passes a test comes first in a list, it is all that passes the test. -/
theorem takeWhile_eq_filter {α : Type} {test : α → Bool} {l : List α}
    (first : l.Pairwise fun a b => test b = true → test a = true) : l.takeWhile test = l.filter test := by
  induction l with
  | nil => rfl
  | cons a l ih =>
    obtain ⟨head, tail⟩ := List.pairwise_cons.1 first
    cases passes : test a with
    | true => rw [List.takeWhile_cons_of_pos passes, List.filter_cons_of_pos passes, ih tail]
    | false =>
      have none : l.filter test = [] := List.filter_eq_nil_iff.2 fun b hb later => by
        rw [head b hb later] at passes
        cases passes
      rw [List.takeWhile_cons_of_neg (by simp [passes]), List.filter_cons_of_neg (by simp [passes]), none]

/-! ### The services with entries -/

theorem mem_keyPut_of {a b : Nat} {l : List Nat} (mem : b = a ∨ b ∈ l) : b ∈ keyPut id a l := by
  induction l with
  | nil => simpa [keyPut] using mem
  | cons c l ih =>
    unfold keyPut
    split
    · simpa using mem
    · split
      · rename_i same
        simp only [id] at same
        simpa [same] using mem
      · rcases mem with rfl | mem
        · exact List.mem_cons_of_mem c (ih (.inl rfl))
        · rcases List.mem_cons.1 mem with rfl | mem
          · exact List.mem_cons_self
          · exact List.mem_cons_of_mem c (ih (.inr mem))

theorem mem_services (hp : p ∈ g.places) : p.ev.sid ∈ g.services := by
  have all : ∀ (ps : List Place) (acc : List Nat), (p.ev.sid ∈ acc ∨ p ∈ ps) →
      p.ev.sid ∈ ps.foldl (fun l p => keyPut id p.ev.sid l) acc := by
    intro ps
    induction ps with
    | nil => exact fun acc mem => by simpa using mem
    | cons q ps ih =>
      intro acc mem
      refine ih _ ?_
      rcases mem with mem | mem
      · exact .inl (mem_keyPut_of (.inr mem))
      · rcases List.mem_cons.1 mem with rfl | mem
        · exact .inl (mem_keyPut_of (.inl rfl))
        · exact .inr mem
  exact all g.places [] (.inr hp)

theorem nodup_services (g : Guide) : g.services.Nodup := by
  have sorted : KeySorted id g.services :=
    List.foldlRecOn g.places _ (motive := KeySorted id) List.Pairwise.nil fun _ sorted p _ => keySorted_keyPut p.ev.sid sorted
  exact sorted.imp fun lt => Nat.ne_of_lt lt

/-! ### What the scan takes (R109) -/

theorem isPast_iff (known : s.now? = some now) : s.isPast e = true ↔ e.stop + 3600 ≤ now := by
  unfold State.isPast
  rw [known]
  simp

theorem isPast_unknown (unknown : s.now? = none) : s.isPast e = false := not_isPast fun now known => by
  rw [unknown] at known
  cases known

theorem pruneList_unknown (unknown : s.now? = none) : s.pruneList = [] := by
  unfold State.pruneList
  refine List.flatMap_eq_nil_iff.2 fun sid _ => List.takeWhile_eq_nil_iff.2 fun _ => ?_
  rw [isPast_unknown unknown]
  decide

section Known

variable (known : s.now? = some now) (ok : s.guide.ok) (long : ∀ p ∈ s.guide.places, 1 ≤ p.ev.duration)
include known ok long

/-- Of a service the scan takes every entry past. -/
theorem takeWhile_past (sid : Nat) : ((s.guide.ofService sid).takeWhile fun p => s.isPast p.ev)
    = (s.guide.ofService sid).filter fun p => s.isPast p.ev :=
  takeWhile_eq_filter <| (ofService_stops ok long sid).imp fun ends past => by
    rw [isPast_iff known] at past ⊢
    omega

theorem mem_pruneList : p ∈ s.pruneList ↔ p ∈ s.guide.places ∧ p.ev.stop + 3600 ≤ now := by
  unfold State.pruneList
  rw [List.mem_flatMap, ← isPast_iff known]
  simp only [takeWhile_past known ok long, List.mem_filter, mem_ofService]
  constructor
  · rintro ⟨sid, -, ⟨hp, -⟩, past⟩
    exact ⟨hp, past⟩
  · rintro ⟨hp, past⟩
    exact ⟨p.ev.sid, mem_services hp, ⟨hp, rfl⟩, past⟩

theorem nodup_pruneList : s.pruneList.Nodup := by
  unfold State.pruneList
  simp only [takeWhile_past known ok long]
  refine List.nodup_flatMap.2 ⟨fun sid _ => (nodup_ofService ok sid).filter _, ?_⟩
  refine (nodup_services s.guide).imp fun differ p hp hq => differ ?_
  exact (mem_ofService.1 (List.mem_filter.1 hp).1).2.symm.trans (mem_ofService.1 (List.mem_filter.1 hq).1).2

/-- The scan takes as many entries as are past. -/
theorem length_pruneList : s.pruneList.length = (s.guide.places.filter fun p => p.ev.stop + 3600 ≤ now).length := by
  refine List.Perm.length_eq ((List.perm_ext_iff_of_nodup (nodup_pruneList known ok long)
    ((nodup_places ok).filter _)).2 fun p => ?_)
  rw [mem_pruneList known ok long, List.mem_filter, decide_eq_true_eq]

end Known

/-! ### What pruning leaves (R107, R109) -/

/-- The guide store once some places of it are emptied, each counted, and their removals reported. -/
structure Prunes (ps : List Place) (s t : State) : Prop where
  sheds : t.guide.places.Sublist s.guide.places
  gone : ∀ q ∈ t.guide.places, ∀ p ∈ ps, q.num ≠ p.num
  stays : KeySorted (·.num) s.guide.places → ∀ q ∈ s.guide.places, (∀ p ∈ ps, q.num ≠ p.num) → q.disturbed ≤ 1 →
    q ∈ t.guide.places
  counted : (∀ q ∈ s.guide.places, q.disturbed ≤ 1) → (∀ p ∈ ps, p.disturbed ≤ 1) →
    t.guide.counters = { s.guide.counters with pruned := s.guide.counters.pruned + BitVec.ofNat 32 ps.length }
  calm : t.calm = s.calm

theorem Prunes.nil (s : State) : Prunes [] s s :=
  ⟨.refl _, fun _ _ _ h => absurd h List.not_mem_nil, fun _ _ hq _ _ => hq, fun _ _ => by simp, rfl⟩

theorem Prunes.append {ps qs : List Place} (a : Prunes ps s t) (b : Prunes qs t u) : Prunes (ps ++ qs) s u := by
  refine ⟨b.sheds.trans a.sheds, fun q hq p hp => ?_, fun sorted q hq other readable => ?_, fun sound listed => ?_,
    b.calm.trans a.calm⟩
  · rcases List.mem_append.1 hp with hp | hp
    · exact a.gone q (b.sheds.subset hq) p hp
    · exact b.gone q hq p hp
  · exact b.stays (sorted.sublist a.sheds) q
      (a.stays sorted q hq (fun p hp => other p (List.mem_append_left _ hp)) readable)
      (fun p hp => other p (List.mem_append_right _ hp)) readable
  · rw [b.counted (fun q hq => sound q (a.sheds.subset hq)) fun p hp => listed p (List.mem_append_right _ hp),
      a.counted sound fun p hp => listed p (List.mem_append_left _ hp)]
    simp [BitVec.ofNat_add, BitVec.add_assoc]

/-- A place emptied and what its report brings about. -/
theorem prunes_report {w : State} (places : w.guide.places = (Guide.remove p.num s.guide).places) (calm : w.calm = s.calm)
    (counters : p.disturbed ≤ 1 → w.guide.counters = { s.guide.counters with pruned := s.guide.counters.pruned + 1 })
    (flow : Flow none w t) (tallies : Tallies w t) : Prunes [p] s t := by
  have mem : ∀ q, q ∈ w.guide.places ↔ q ∈ s.guide.places ∧ q.num ≠ p.num := fun q => by
    rw [places]
    unfold Guide.remove keyDrop
    simp
  have sub : w.guide.places.Sublist s.guide.places := places ▸ List.filter_sublist
  refine ⟨flow.sheds.trans sub, fun q hq r hr => ?_, fun sorted q hq other readable => ?_, fun sound listed => ?_,
    flow.acts.calm.trans calm⟩
  · rw [List.mem_singleton.1 hr]
    exact ((mem q).1 (flow.sheds.subset hq)).2
  · exact flow.stays (sorted.sublist sub) q ((mem q).2 ⟨hq, other p (List.mem_singleton_self p)⟩) readable
  · rw [tallies.guide.sound fun q hq => sound q (sub.subset hq), counters (listed p (List.mem_singleton_self p))]
    rfl

theorem prunes_pruned (places : t.guide = s.guide) (calm : t.calm = s.calm) : Prunes [p] s (t.pruned p) := by
  refine prunes_report (w := t.modGuide fun g => { Guide.remove p.num g with
    counters := { g.counters with pruned := g.counters.pruned + 1 } }) ?_ calm (fun _ => ?_)
    ((Flow.refl none _).reportRemoval p.ev) ((Tallies.refl _).reportRemoval p.ev)
  · rw [← places]
    rfl
  · rw [← places]
    rfl

theorem readPruning_guide (p : Place) (s : State) : (s.readPruning p).guide = s.guide := by
  have counted : s.countCorrected.guide = s.guide := (gated_raise ..).guide
  unfold State.readPruning
  split
  · exact ((gated_raise ..).guide : (s.countCorrected.guideSecond p.num).guide = _).trans counted
  · exact counted

theorem readPruning_calm (p : Place) (s : State) : (s.readPruning p).calm = s.calm := by
  unfold State.readPruning
  split
  · exact ((Flow.refl none s).countCorrected.guideSecond p.num).acts.calm
  · exact (Flow.refl none s).countCorrected.acts.calm

theorem prunes_damage (lost : s.guide.check p = .uncorrectable) : Prunes [p] s (damageWith readPlace p s) := by
  refine prunes_report (w := s.modGuide fun g => { Guide.remove p.num g with
      counters := { g.counters with damaged := g.counters.damaged + 1 }
      lastDamaged := some (p.ev.sid, p.ev.eid) }) rfl rfl (fun readable => ?_)
    (Flow.guideNotice _ (Flow.guideLost _ ((Flow.refl none _).reportRemoval p.ev)))
    ((((Tallies.refl _).reportRemoval p.ev).setFault ..).raise ..)
  exact absurd (lost_of_uncorrectable lost) (by omega)

theorem prunes_prunePlace (p : Place) (s : State) : Prunes [p] s (prunePlace p s) := by
  cases found : s.guide.check p with
  | clean =>
    rw [prunePlace_clean found]
    exact prunes_pruned rfl rfl
  | corrected =>
    rw [prunePlace_corrected found]
    exact prunes_pruned (readPruning_guide p s) (readPruning_calm p s)
  | uncorrectable =>
    rw [prunePlace_uncorrectable found]
    exact prunes_damage found

theorem prunes_forEach (ps : List Place) (s : State) : Prunes ps s (forEach ps prunePlace s) := by
  induction ps generalizing s with
  | nil => exact .nil s
  | cons p ps ih =>
    rw [forEach_cons]
    exact (prunes_prunePlace p s).append (ih _)

/-- A moment's rises after a pruning leave what pruning left, but for entries found past correction. -/
theorem Prunes.settled {ps : List Place} (a : Prunes ps s t) : Prunes ps s (settle t) := by
  have acts := (Acts.refl t).settle
  have tallies := (Tallies.refl t).settle
  refine ⟨acts.sheds.trans a.sheds, fun q hq => a.gone q (acts.sheds.subset hq), fun sorted q hq other readable => ?_,
    fun sound listed => ?_, acts.calm.trans a.calm⟩
  · exact acts.stays (sorted.sublist a.sheds) q (a.stays sorted q hq other readable) readable
  · rw [tallies.guide.sound fun q hq => sound q (a.sheds.subset hq), a.counted sound listed]

/-! ### PRUNE -/

theorem prune_unknown (unknown : s.now? = none) : prune s = s := by
  rw [prune_eq, pruneList_unknown unknown, forEach_nil]

end Sys2Proof.Machine
end

section
/-! PROOF of O43: entries leave the guide store by GUIDE_DROP, by a GUIDE_CANCEL record and by PRUNE (R61, R103, R104, R107
to R109, R111, R165). -/

namespace Sys2Proof.Machine

open Sys2Proof

variable {now : Nat} {sid : Half} {eid : Word} {l : Fin 3} {bytes record : List Byte} {p : Place} {s t u : State}

/-- What becomes of the guide store and the schedule is the blocks' matter. -/
theorem Cancels.served (a : Cancels p s t) (b : Served t u) : Cancels p s u := by
  obtain ⟨sheds, gone, stays, counted, orphans⟩ := a
  exact ⟨b.guide ▸ sheds, b.guide ▸ gone, b.guide ▸ stays, b.guide ▸ counted, fun i tied => b.entry i ▸ orphans i tied⟩

theorem guideDrop_cancels (ready : s.ready) (named : sid ≠ 0) (ok : s.guide.ok) (tag : Byte)
    (held : s.guide.placeOf sid.toNat eid.toNat = some p) :
    Cancels p s (s.serve 0x29 tag (guideDropReq sid eid)) := by
  obtain ⟨-, -, served⟩ := guideDrop_drops (tag := tag) ready named held
  obtain ⟨sheds, gone, stays, counted, orphans⟩ :=
    (cancels_cancelled (s := s.opened) ok (placeOf_spec held).1).served served
  exact ⟨sheds, gone, stays, counted, orphans⟩

/-- What an event prunes. -/
theorem event_prunes (s : State) : Prunes s.pruneList s.clearOut (settle (prune s.clearOut)) :=
  (prunes_forEach s.pruneList s.clearOut).settled

theorem event_prune_tables (live : s.live) : (s.event prune).tables = s.tables := by
  rw [event_live prune live, startTx_tables]
  exact tables_of_calm (event_prunes s).calm

theorem event_prune_unanswered (live : s.live) : s.unanswered (s.event prune) :=
  event_unanswered prune live (((Runs.refl s.clearOut).prune.owned.trans (settle_owned _)).core)

/-- Settles O43: an entry named leaves the store alone among those that can be read, as its removal's report and the rises
lose only entries past correction; a record's cell does what the request does; and a pruning scan takes all entries past,
since a service's entries end in the order in which they start. -/
theorem guideEntriesLeave : Obligations.GuideEntriesLeave := by
  refine ⟨fun tag sid eid s ready => ⟨fun zero => ⟨_, rfl, ?_⟩, fun named unheld => ⟨_, rfl, ?_⟩,
    fun named ok some_held => ?_⟩, fun l bytes record s ready b => ⟨fun m n fields => ⟨fun unheld => ⟨_, rfl, ?_⟩,
    fun some_held tag => ?_⟩, fun bad => ?_⟩, fun s live => ⟨fun unknown => ⟨_, rfl, ?_⟩, fun now known ok long => ?_⟩⟩
  · subst zero
    exact serve_refused 0x29 tag _ .badField ready guideDropReq_zero
  · exact serve_refused 0x29 tag _ .noSuch ready (guideDropReq_unheld (s := s.opened) named (placeOf_none_iff.2 unheld))
  · obtain ⟨p, held⟩ := placeOf_some some_held
    obtain ⟨hp, sid_eq, eid_eq⟩ := placeOf_spec held
    obtain ⟨answered, tables, -⟩ := guideDrop_drops (tag := tag) ready named held
    obtain ⟨sheds, gone, stays, counted, orphans⟩ := guideDrop_cancels ready named ok tag held
    rw [sid_eq, eid_eq] at gone stays orphans
    refine ⟨_, rfl, answered, tables, sheds, gone, stays, counted, orphans, fun alone x hx x_sid x_eid => ?_⟩
    have same := Guide.ok_unique ok hx hp (x_sid.trans sid_eq.symm) (x_eid.trans eid_eq.symm)
    subst same
    rw [← sid_eq] at alone
    have unmoved := guideDrop_alone (tag := tag) ready named held alone
    unfold State.dropped at unmoved
    rw [sid_eq, eid_eq] at unmoved
    exact unmoved
  · exact cell_cancelUnknown ready.tolive b fields (placeOf_none_iff.2 unheld)
  · obtain ⟨p, held⟩ := placeOf_some some_held
    exact ⟨_, _, rfl, rfl, cell_cancels ready b fields held tag⟩
  · exact cell_discards b (deliver_badCancel bad) ready.tolive rfl
  · exact ⟨event_prune_unanswered live, event_unmoved prune live (prune_unknown (s := s.clearOut) unknown)⟩
  · obtain ⟨sheds, gone, stays, counted, -⟩ := event_prunes s
    have served := served_event prune live
    rw [← served.guide] at sheds gone stays counted
    have mem {p : Place} := mem_pruneList (p := p) known ok long
    refine ⟨_, rfl, event_prune_unanswered live, event_prune_tables live, sheds, fun p hp => ?_,
      fun p hp recent readable => stays ok.1 p hp (fun q hq same => ?_) readable, fun sound => ?_⟩
    · by_contra past
      exact gone p hp p (mem.2 ⟨sheds.subset hp, by omega⟩) rfl
    · obtain ⟨hq, past⟩ := mem.1 hq
      have same := keySorted_unique ok.1 hp hq same
      subst same
      omega
    · rw [← length_pruneList known ok long]
      exact counted sound fun p hp => sound p (mem.1 hp).1

end Sys2Proof.Machine
end
